-- ==== Sys2Proof/Word.lean ====
section
/-!
DEFINITION. The word types of the DN2560 and their plainest arithmetic (spec/00_scope.md R4 to R6, R12).
-/
namespace Sys2Proof

/-- One byte of a memory (R5). -/
abbrev Byte := BitVec 8

/-- One lane of a vector register, and one FP32 value (R65). -/
abbrev Lane := BitVec 32

/-- An S register, a GP register, a special register, a word of a control page (R61, R69, R214). -/
abbrev Word := BitVec 64

/-- A 48-bit parcel of a text (R75). -/
abbrev Parcel := BitVec 48

/-- A parcel address, the index of a parcel from the base of its text (R41). -/
abbrev PAddr := BitVec 22

/-- A vector register: 1,024 lanes, lane 64·row + column (R65). -/
abbrev Tile := Vector Lane 1024

/-- The tile whose lanes are all zero. -/
def Tile.zero : Tile := Vector.replicate 1024 0

end Sys2Proof
end

