-- ==== Sys2Proof/Syntax.lean ====
section
/-!
DEFINITION. The syntax of the Cyruest instruction set and of the machine's events: operand types
(spec/03_encoding.md R75 to R102), the Lantern steps (spec/13_collectives.md R346), the fabric message
(R337), and Instr with one constructor per row of spec/opcode_table.json.
-/
namespace Sys2Proof

/-- The six engines of a core, in the order of their ENG codes 0 to 5 (R75). -/
inductive Engine where
  | sc | ld | st | vx | mx | asy
  deriving DecidableEq, Repr

/-- The WAIT and SIG fields of a parcel (R75, R77). -/
structure Tok where
  wait : Option Engine
  sig : Option Engine
  deriving DecidableEq, Repr

/-- An operand specifier of Formats V and M (R85). -/
inductive VSpec where
  | v (n : Fin 32)
  | w (n : Fin 8)
  | z (n : Fin 2)
  | q (n : Fin 8)
  deriving DecidableEq, Repr

/-- Scalar conditions (R90). -/
inductive Cond where
  | eq | ne | lt | ge | ltu | geu | gt | le | gtu | leu
  deriving DecidableEq, Repr

/-- Vector conditions (R91). -/
inductive VCond where
  | eq | ne | lt | le | gt | ge | unord | ord
  deriving DecidableEq, Repr

/-- The floating table of element types (R87, R122). -/
inductive FTy where
  | f32 | bf16 | f16 | e4m3 | e5m2 | e2m1 | e8m0
  deriving DecidableEq, Repr

/-- The integer table of element types (R87, R125). -/
inductive ITy where
  | i32 | ui32 | i16 | ui16 | i8 | ui8 | i4 | ui4
  deriving DecidableEq, Repr

/-- An element type of a class D or class X opcode: the table by DOM, then the code (R87). -/
inductive DTy where
  | f (t : FTy)
  | i (t : ITy)
  deriving DecidableEq, Repr

/-- Scopes (R92). -/
inductive Scope where
  | core | cluster | die | package | fabric | system
  deriving DecidableEq, Repr

/-- Element types of Format M (R88). -/
inductive EtM where
  | b32 | b16 | b16s | b8 | b8s | b4 | b4s | raw
  deriving DecidableEq, Repr

/-- The SPACE field of Format M and of scalar addresses: local scratchpad, accumulator store,
cluster-remote scratchpad, package-remote scratchpad (R82, R153). -/
inductive Space where
  | loc | acc | clu | pkg
  deriving DecidableEq, Repr

/-- Quadrant shapes, rows by columns (R89). -/
inductive Shape where
  | s11 | s12 | s21 | s22 | s14 | s24
  deriving DecidableEq, Repr

/-- Input types of Format X (R89). -/
inductive InTy where
  | e4m3 | e5m2 | i8 | e2m1 | i4 | bf16 | f16
  deriving DecidableEq, Repr

/-- The operations of VMOP (R456). -/
inductive MOp where
  | and | or | xor | andn | not | mov | set | clr
  deriving DecidableEq, Repr

/-- The fields of a Lantern data step, OP 1 to 4 (R346). -/
structure LnData where
  cv : BitVec 2
  par : Bool
  ls : BitVec 2
  px : Bool
  pa : BitVec 12
  pb : BitVec 12
  ck : Bool
  ca : BitVec 2
  cb : BitVec 4
  d : BitVec 8
  ch : BitVec 4
  rop : BitVec 2
  deriving DecidableEq, Repr

/-- A fabric message: the fields of its header beat, its payload, and the indices of the payload beats
that stayed uncorrectable after link-level retry (R337, R340). `resv` holds the header's reserved bits. -/
structure FMsg where
  kind : BitVec 4
  spkg : BitVec 10
  dpkg : BitVec 10
  dcore : BitVec 8
  stream : BitVec 16
  bytes : BitVec 16
  addr : BitVec 48
  count : BitVec 32
  ch : BitVec 4
  ctx : Fin 64
  sec : Bool
  resv : Bool
  payload : List Byte
  bad : List Nat
  deriving DecidableEq, Repr

/-- The agents that write registers from outside a core: the host and Oculus (R293, R355, R365). -/
inductive Agent where
  | host | oculus
  deriving DecidableEq, Repr

/-- The register windows: the control pages of BAR0, the mailbox window of BAR2, and the region registers,
which only secure firmware reaches (R355, R365). -/
inductive Window where
  | control | mailbox | regions
  deriving DecidableEq, Repr

/-- The sizes of a bus access, naturally aligned and 8 bytes or narrower (R355). -/
inductive Size where
  | b1 | b2 | b4 | b8
  deriving DecidableEq, Repr

/-- The instructions, Lantern steps and machine events of spec/opcode_table.json, one constructor a row.
A parcel instruction carries its WAIT and SIG (`t`) and the operand fields its format gives it (R78 to R84).
An event carries what identifies it: the core, die, context, unit, message or value written. The two events that
the machine itself starts stand before the others, because compiled Lean bounds a constructor's number. -/
inductive Instr where
  /-- NOP (R409). SC does nothing, except pop its WAIT token and push its SIG token, so it can relay a token between engines. -/
  | nop (t : Tok)
  /-- ADD (R371). Sd receives Sa plus Sb, modulo 2^64. -/
  | add (t : Tok) (d : Fin 32) (a : Fin 32) (b : Fin 32)
  /-- ADD_S (R371). Sd receives the signed sum of Sa and Sb, saturated. -/
  | addS (t : Tok) (d : Fin 32) (a : Fin 32) (b : Fin 32)
  /-- ADD_US (R371). Sd receives the unsigned sum of Sa and Sb, saturated. -/
  | addUs (t : Tok) (d : Fin 32) (a : Fin 32) (b : Fin 32)
  /-- ADD_I (R371). Sd receives Sa plus the sign-extended imm20, modulo 2^64. -/
  | addI (t : Tok) (d : Fin 32) (a : Fin 32) (imm : BitVec 20)
  /-- SUB (R431). Sd receives Sa minus Sb, modulo 2^64. -/
  | sub (t : Tok) (d : Fin 32) (a : Fin 32) (b : Fin 32)
  /-- SUB_S (R431). Sd receives the signed difference of Sa and Sb, saturated. -/
  | subS (t : Tok) (d : Fin 32) (a : Fin 32) (b : Fin 32)
  /-- SUB_US (R431). Sd receives the unsigned difference of Sa and Sb, saturated. -/
  | subUs (t : Tok) (d : Fin 32) (a : Fin 32) (b : Fin 32)
  /-- MUL (R408). Sd receives the product of Sa and Sb, modulo 2^64. -/
  | mul (t : Tok) (d : Fin 32) (a : Fin 32) (b : Fin 32)
  /-- MUL_S (R408). Sd receives the signed product of Sa and Sb, saturated. -/
  | mulS (t : Tok) (d : Fin 32) (a : Fin 32) (b : Fin 32)
  /-- MUL_HI (R408). Sd receives the upper 64 bits of the signed 128-bit product. -/
  | mulHi (t : Tok) (d : Fin 32) (a : Fin 32) (b : Fin 32)
  /-- MUL_HU (R408). Sd receives the upper 64 bits of the unsigned 128-bit product. -/
  | mulHu (t : Tok) (d : Fin 32) (a : Fin 32) (b : Fin 32)
  /-- MUL_I (R408). Sd receives Sa times the sign-extended imm20, modulo 2^64. -/
  | mulI (t : Tok) (d : Fin 32) (a : Fin 32) (imm : BitVec 20)
  /-- DIV (R387). Sd receives the signed quotient, truncated toward zero, without any trap. -/
  | div (t : Tok) (d : Fin 32) (a : Fin 32) (b : Fin 32)
  /-- DIV_U (R387). Sd receives the unsigned quotient. -/
  | divU (t : Tok) (d : Fin 32) (a : Fin 32) (b : Fin 32)
  /-- DIV_R (R387). Sd receives the signed remainder, with the sign of the dividend. -/
  | divR (t : Tok) (d : Fin 32) (a : Fin 32) (b : Fin 32)
  /-- DIV_RU (R387). Sd receives the unsigned remainder. -/
  | divRu (t : Tok) (d : Fin 32) (a : Fin 32) (b : Fin 32)
  /-- AND (R372). Sd receives the bitwise AND of Sa and Sb. -/
  | and (t : Tok) (d : Fin 32) (a : Fin 32) (b : Fin 32)
  /-- AND_I (R372). Sd receives the bitwise AND of Sa and the sign-extended imm20. -/
  | andI (t : Tok) (d : Fin 32) (a : Fin 32) (imm : BitVec 20)
  /-- OR (R414). Sd receives the bitwise OR of Sa and Sb. -/
  | or (t : Tok) (d : Fin 32) (a : Fin 32) (b : Fin 32)
  /-- OR_I (R414). Sd receives the bitwise OR of Sa and the sign-extended imm20. -/
  | orI (t : Tok) (d : Fin 32) (a : Fin 32) (imm : BitVec 20)
  /-- XOR (R466). Sd receives the bitwise XOR of Sa and Sb. -/
  | xor (t : Tok) (d : Fin 32) (a : Fin 32) (b : Fin 32)
  /-- XOR_I (R466). Sd receives the bitwise XOR of Sa and the sign-extended imm20. -/
  | xorI (t : Tok) (d : Fin 32) (a : Fin 32) (imm : BitVec 20)
  /-- SHL (R427). Sd receives Sa shifted left by the amount in Sb. -/
  | shl (t : Tok) (d : Fin 32) (a : Fin 32) (b : Fin 32)
  /-- SHL_I (R427). Sd receives Sa shifted left by an immediate amount. -/
  | shlI (t : Tok) (d : Fin 32) (a : Fin 32) (k : BitVec 6)
  /-- SHR (R427). Sd receives Sa shifted logically right by the amount in Sb. -/
  | shr (t : Tok) (d : Fin 32) (a : Fin 32) (b : Fin 32)
  /-- SHR_I (R427). Sd receives Sa shifted logically right by an immediate amount. -/
  | shrI (t : Tok) (d : Fin 32) (a : Fin 32) (k : BitVec 6)
  /-- SHR_A (R427). Sd receives Sa shifted arithmetically right by the amount in Sb. -/
  | shrA (t : Tok) (d : Fin 32) (a : Fin 32) (b : Fin 32)
  /-- SHR_AI (R427). Sd receives Sa shifted arithmetically right by an immediate amount. -/
  | shrAi (t : Tok) (d : Fin 32) (a : Fin 32) (k : BitVec 6)
  /-- CMP (R386). Sd receives 1 when the condition holds for Sa and Sb, and 0 otherwise. -/
  | cmp (t : Tok) (d : Fin 32) (a : Fin 32) (b : Fin 32) (c : Cond)
  /-- SEL (R425). Sd receives Sa when Sc is nonzero, and Sb otherwise. -/
  | sel (t : Tok) (d : Fin 32) (a : Fin 32) (b : Fin 32) (c : Fin 32)
  /-- MIN (R405). Sd receives the signed minimum of Sa and Sb. -/
  | min (t : Tok) (d : Fin 32) (a : Fin 32) (b : Fin 32)
  /-- MIN_U (R405). Sd receives the unsigned minimum of Sa and Sb. -/
  | minU (t : Tok) (d : Fin 32) (a : Fin 32) (b : Fin 32)
  /-- MAX (R405). Sd receives the signed maximum of Sa and Sb. -/
  | max (t : Tok) (d : Fin 32) (a : Fin 32) (b : Fin 32)
  /-- MAX_U (R405). Sd receives the unsigned maximum of Sa and Sb. -/
  | maxU (t : Tok) (d : Fin 32) (a : Fin 32) (b : Fin 32)
  /-- BITS (R379). Sd receives a bit field of Sa, zero-extended. -/
  | bits (t : Tok) (d : Fin 32) (a : Fin 32) (pos : BitVec 6) (wid : BitVec 6)
  /-- BITS_S (R379). Sd receives a bit field of Sa, sign-extended. -/
  | bitsS (t : Tok) (d : Fin 32) (a : Fin 32) (pos : BitVec 6) (wid : BitVec 6)
  /-- BITS_INS (R379). The low bits of Sa are inserted into a bit field of Sd. -/
  | bitsIns (t : Tok) (d : Fin 32) (a : Fin 32) (pos : BitVec 6) (wid : BitVec 6)
  /-- BITS_CNT (R379). Sd receives the number of 1 bits in Sa. -/
  | bitsCnt (t : Tok) (d : Fin 32) (a : Fin 32)
  /-- BITS_CLZ (R379). Sd receives the number of leading zero bits of Sa. -/
  | bitsClz (t : Tok) (d : Fin 32) (a : Fin 32)
  /-- MOV (R406). Sd receives Sa. -/
  | mov (t : Tok) (d : Fin 32) (a : Fin 32)
  /-- MOV_QW (R406). SC pushes Sa into Q4 or Q6, and waits while the queue is full. -/
  | movQw (t : Tok) (a : Fin 32) (q : Fin 8)
  /-- MOV_QR (R406). SC pops Q5 or Q7 into Sd, and waits while the queue is empty. -/
  | movQr (t : Tok) (d : Fin 32) (q : Fin 8)
  /-- MOVI (R407). Sd receives the sign-extended imm20. -/
  | movi (t : Tok) (d : Fin 32) (imm : BitVec 20)
  /-- MOVI_L (R407). Sd receives a full 64-bit constant taken from both parcels. -/
  | moviL (t : Tok) (d : Fin 32) (imm : BitVec 20) (hi : BitVec 44)
  /-- APAT (R373). SC posts a pair value, and LD, ST and MX each write their own copy of address-pattern pair n. -/
  | apat (t : Tok) (a : Fin 32) (b : Fin 32) (p : Fin 8)
  /-- BR (R381). SC resolves a conditional branch and posts the outcome to the other engines, and every engine follows it. -/
  | br (t : Tok) (c : Cond) (a : Fin 32) (b : Fin 32) (off : BitVec 16)
  /-- JMP (R395). Every engine jumps to a target relative to the parcel. -/
  | jmp (t : Tok) (off : BitVec 16)
  /-- JMP_R (R395). Every engine jumps to the parcel address held in Sa. -/
  | jmpR (t : Tok) (a : Fin 32)
  /-- JMP_L (R395). Every engine jumps to an absolute parcel address given in the second parcel. -/
  | jmpL (t : Tok) (tgt : BitVec 22)
  /-- CALL (R385). SC writes the return link, and every engine transfers to a target relative to the parcel. -/
  | call (t : Tok) (a : Fin 32) (off : BitVec 16)
  /-- CALL_R (R385). SC writes the return link, and every engine transfers to the target held in Sb. -/
  | callR (t : Tok) (a : Fin 32) (b : Fin 32)
  /-- CALL_L (R385). SC writes the return link, and every engine transfers to an absolute target. -/
  | callL (t : Tok) (a : Fin 32) (tgt : BitVec 22)
  /-- RET (R417). Every engine transfers to the link held in Sa. -/
  | ret (t : Tok) (a : Fin 32)
  /-- LOOP (R397). Each engine pushes a counted body onto its loop stack, with an immediate count. -/
  | loop (t : Tok) (n : BitVec 10) (off : BitVec 16)
  /-- LOOP_R (R397). Each engine pushes a counted body onto its loop stack, with the count taken from Sa. -/
  | loopR (t : Tok) (a : Fin 32) (off : BitVec 16)
  /-- SLD (R428). SC loads a 64-bit word from a scratchpad or accumulator address. -/
  | sld (t : Tok) (d : Fin 32) (a : Fin 32) (fn : BitVec 15)
  /-- SLD_W (R428). SC loads a 32-bit word and zero-extends it. -/
  | sldW (t : Tok) (d : Fin 32) (a : Fin 32) (fn : BitVec 15)
  /-- SLD_WS (R428). SC loads a 32-bit word and sign-extends it. -/
  | sldWs (t : Tok) (d : Fin 32) (a : Fin 32) (fn : BitVec 15)
  /-- SST (R430). SC stores a 64-bit word to a local or remote scratchpad or to the accumulator store. -/
  | sst (t : Tok) (a : Fin 32) (b : Fin 32) (fn : BitVec 15)
  /-- SST_W (R430). SC stores a 32-bit word. -/
  | sstW (t : Tok) (a : Fin 32) (b : Fin 32) (fn : BitVec 15)
  /-- GETSR (R389). Sd receives the value of a special register. -/
  | getsr (t : Tok) (d : Fin 32) (n : BitVec 12)
  /-- SETSR (R426). SC writes a special register and posts the value to that register's readers. -/
  | setsr (t : Tok) (a : Fin 32) (n : BitVec 12)
  /-- TRAP (R434). SC traps with cause TRAP, and the trap record carries the code. -/
  | trap (t : Tok) (n : BitVec 12)
  /-- BKPT (R380). SC traps with cause BKPT, and the trap record carries the code. -/
  | bkpt (t : Tok) (n : BitVec 12)
  /-- TEND (R432). Each engine stops at the end of the task. -/
  | tend (t : Tok)
  /-- TSPAWN (R435). A continuation record is written at RADDR and placed in the dispatcher's queue. -/
  | tspawn (t : Tok) (a : Fin 32)
  /-- TJOIN (R433). The JOIN count of a held record is decremented. -/
  | tjoin (t : Tok) (a : Fin 32)
  /-- YIELD (R467). All engines gather at the parcel, and the task is saved if a qualifying record exists. -/
  | yield (t : Tok)
  /-- FENCE_ACQ (R204). Later accesses wait until every earlier read within the scope is performed. -/
  | fenceAcq (t : Tok) (sc : Scope)
  /-- FENCE_REL (R204). Later writes wait until every earlier access within the scope is performed. -/
  | fenceRel (t : Tok) (sc : Scope)
  /-- FENCE (R204). Later accesses wait until every earlier read and write within the scope is performed. -/
  | fence (t : Tok) (sc : Scope)
  /-- MARK (R202). SC, LD and ST are ordered against one another at a marker. -/
  | mark (t : Tok)
  /-- QUIES (R415). AS waits for every earlier command of the core, acknowledges any owed invalidation, and then SC retires. -/
  | quies (t : Tok)
  /-- NOTIFY (R410). A notice record is released at SYSTEM scope into the host's notice ring. -/
  | notify (t : Tok) (a : Fin 32)
  /-- GPGET (R390). Sd receives the value of a GP register of the context. -/
  | gpget (t : Tok) (d : Fin 32) (n : Fin 64)
  /-- GPSET (R390). A GP register of the context receives Sa. -/
  | gpset (t : Tok) (a : Fin 32) (n : Fin 64)
  /-- VLD (R450). LD loads repeated tiles from a scratchpad or the accumulator store into registers or queues. -/
  | vld (t : Tok) (r : VSpec) (p : Fin 8) (rep : BitVec 6) (st : BitVec 10) (sp : Space) (et : EtM)
  /-- VLDX (R453). LD loads repeated tiles whose elements lie COLP bytes apart. -/
  | vldx (t : Tok) (r : VSpec) (p : Fin 8) (rep : BitVec 6) (st : BitVec 10) (sp : Space) (et : EtM) (colp : BitVec 22)
  /-- VST (R450). ST pops Q3 entries and stores them as tiles. -/
  | vst (t : Tok) (r : VSpec) (p : Fin 8) (rep : BitVec 6) (st : BitVec 10) (sp : Space) (et : EtM)
  /-- VSTX (R453). ST pops Q3 entries and stores them with their elements COLP bytes apart. -/
  | vstx (t : Tok) (r : VSpec) (p : Fin 8) (rep : BitVec 6) (st : BitVec 10) (sp : Space) (et : EtM) (colp : BitVec 22)
  /-- VADD (R439). VX adds lane-wise and rounds once. -/
  | vadd (t : Tok) (d : VSpec) (a : VSpec) (b : VSpec) (m : Fin 8) (ty : FTy)
  /-- VSUB (R439). VX subtracts lane-wise and rounds once. -/
  | vsub (t : Tok) (d : VSpec) (a : VSpec) (b : VSpec) (m : Fin 8) (ty : FTy)
  /-- VMUL (R439). VX multiplies lane-wise and rounds once. -/
  | vmul (t : Tok) (d : VSpec) (a : VSpec) (b : VSpec) (m : Fin 8) (ty : FTy)
  /-- VFMA (R439). VX computes a times b plus c lane-wise, with one rounding. -/
  | vfma (t : Tok) (d : VSpec) (a : VSpec) (b : VSpec) (c : VSpec) (m : Fin 8) (ty : FTy)
  /-- VFMA_NM (R439). VX computes c minus a times b lane-wise, with one rounding. -/
  | vfmaNm (t : Tok) (d : VSpec) (a : VSpec) (b : VSpec) (c : VSpec) (m : Fin 8) (ty : FTy)
  /-- VDIV (R439). VX divides lane-wise. -/
  | vdiv (t : Tok) (d : VSpec) (a : VSpec) (b : VSpec) (m : Fin 8) (ty : FTy)
  /-- VSQRT (R439). VX takes the square root of each lane. -/
  | vsqrt (t : Tok) (d : VSpec) (a : VSpec) (m : Fin 8) (ty : FTy)
  /-- VSF_EXP2 (R461). VX computes 2^x in each lane. -/
  | vsfExp2 (t : Tok) (d : VSpec) (a : VSpec) (m : Fin 8) (ty : FTy)
  /-- VSF_LOG2 (R461). VX computes log2 x in each lane. -/
  | vsfLog2 (t : Tok) (d : VSpec) (a : VSpec) (m : Fin 8) (ty : FTy)
  /-- VSF_RCP (R461). VX computes the reciprocal of each lane. -/
  | vsfRcp (t : Tok) (d : VSpec) (a : VSpec) (m : Fin 8) (ty : FTy)
  /-- VSF_RSQRT (R461). VX computes the reciprocal square root of each lane. -/
  | vsfRsqrt (t : Tok) (d : VSpec) (a : VSpec) (m : Fin 8) (ty : FTy)
  /-- VSF_SIN (R461). VX computes the sine of each lane. -/
  | vsfSin (t : Tok) (d : VSpec) (a : VSpec) (m : Fin 8) (ty : FTy)
  /-- VSF_COS (R461). VX computes the cosine of each lane. -/
  | vsfCos (t : Tok) (d : VSpec) (a : VSpec) (m : Fin 8) (ty : FTy)
  /-- VSF_TANH (R461). VX computes tanh of each lane. -/
  | vsfTanh (t : Tok) (d : VSpec) (a : VSpec) (m : Fin 8) (ty : FTy)
  /-- VSF_ERF (R461). VX computes erf of each lane. -/
  | vsfErf (t : Tok) (d : VSpec) (a : VSpec) (m : Fin 8) (ty : FTy)
  /-- VSF_SIGM (R461). VX computes the logistic sigmoid of each lane. -/
  | vsfSigm (t : Tok) (d : VSpec) (a : VSpec) (m : Fin 8) (ty : FTy)
  /-- VMIN (R455). VX takes the lane-wise minimum, where a quiet NaN yields the number. -/
  | vmin (t : Tok) (d : VSpec) (a : VSpec) (b : VSpec) (m : Fin 8) (ty : FTy)
  /-- VMIN_P (R455). VX takes the lane-wise minimum, with NaNs propagated. -/
  | vminP (t : Tok) (d : VSpec) (a : VSpec) (b : VSpec) (m : Fin 8) (ty : FTy)
  /-- VMAX (R455). VX takes the lane-wise maximum, where a quiet NaN yields the number. -/
  | vmax (t : Tok) (d : VSpec) (a : VSpec) (b : VSpec) (m : Fin 8) (ty : FTy)
  /-- VMAX_P (R455). VX takes the lane-wise maximum, with NaNs propagated. -/
  | vmaxP (t : Tok) (d : VSpec) (a : VSpec) (b : VSpec) (m : Fin 8) (ty : FTy)
  /-- VCMP (R445). VX compares floating-point lanes and writes the results into a mask. -/
  | vcmp (t : Tok) (d : Fin 8) (a : VSpec) (b : VSpec) (c : VCond) (m : Fin 8) (ty : FTy)
  /-- VICMP (R445). VX compares integer lanes and writes the results into a mask. -/
  | vicmp (t : Tok) (d : Fin 8) (a : VSpec) (b : VSpec) (c : VCond) (m : Fin 8) (ty : ITy)
  /-- VSEL (R458). VX selects each lane from A or B by a mask. -/
  | vsel (t : Tok) (d : VSpec) (a : VSpec) (b : VSpec) (m : Fin 8)
  /-- VMOV (R458). VX moves whole lanes under a mask. -/
  | vmov (t : Tok) (d : VSpec) (a : VSpec) (m : Fin 8)
  /-- VMOV_I (R458). VX writes a 32-bit immediate into every lane under a mask. -/
  | vmovI (t : Tok) (d : VSpec) (m : Fin 8) (imm : BitVec 32)
  /-- VCVT (R446). VX converts each lane between element types. -/
  | vcvt (t : Tok) (d : VSpec) (a : VSpec) (m : Fin 8) (dst : DTy) (src : DTy)
  /-- VIADD (R448). VX adds integer lanes with wraparound. -/
  | viadd (t : Tok) (d : VSpec) (a : VSpec) (b : VSpec) (m : Fin 8) (ty : ITy)
  /-- VIADD_S (R448). VX adds integer lanes with saturation. -/
  | viaddS (t : Tok) (d : VSpec) (a : VSpec) (b : VSpec) (m : Fin 8) (ty : ITy)
  /-- VISUB (R448). VX subtracts integer lanes with wraparound. -/
  | visub (t : Tok) (d : VSpec) (a : VSpec) (b : VSpec) (m : Fin 8) (ty : ITy)
  /-- VISUB_S (R448). VX subtracts integer lanes with saturation. -/
  | visubS (t : Tok) (d : VSpec) (a : VSpec) (b : VSpec) (m : Fin 8) (ty : ITy)
  /-- VIMUL (R448). VX multiplies integer lanes with wraparound. -/
  | vimul (t : Tok) (d : VSpec) (a : VSpec) (b : VSpec) (m : Fin 8) (ty : ITy)
  /-- VIMUL_S (R448). VX multiplies integer lanes with saturation. -/
  | vimulS (t : Tok) (d : VSpec) (a : VSpec) (b : VSpec) (m : Fin 8) (ty : ITy)
  /-- VIMUL_HI (R448). VX takes the upper half of each integer product. -/
  | vimulHi (t : Tok) (d : VSpec) (a : VSpec) (b : VSpec) (m : Fin 8) (ty : ITy)
  /-- VIMIN (R448). VX takes the lane-wise integer minimum. -/
  | vimin (t : Tok) (d : VSpec) (a : VSpec) (b : VSpec) (m : Fin 8) (ty : ITy)
  /-- VIMAX (R448). VX takes the lane-wise integer maximum. -/
  | vimax (t : Tok) (d : VSpec) (a : VSpec) (b : VSpec) (m : Fin 8) (ty : ITy)
  /-- VAND (R440). VX forms the bitwise AND of the lanes. -/
  | vand (t : Tok) (d : VSpec) (a : VSpec) (b : VSpec) (m : Fin 8)
  /-- VOR (R440). VX forms the bitwise OR of the lanes. -/
  | vor (t : Tok) (d : VSpec) (a : VSpec) (b : VSpec) (m : Fin 8)
  /-- VXOR (R440). VX forms the bitwise XOR of the lanes. -/
  | vxor (t : Tok) (d : VSpec) (a : VSpec) (b : VSpec) (m : Fin 8)
  /-- VSHL (R448). VX shifts each lane left by the amount in a lane. -/
  | vshl (t : Tok) (d : VSpec) (a : VSpec) (b : VSpec) (m : Fin 8) (ty : ITy)
  /-- VSHR (R448). VX shifts each lane right by the amount in a lane. -/
  | vshr (t : Tok) (d : VSpec) (a : VSpec) (b : VSpec) (m : Fin 8) (ty : ITy)
  /-- VSHL_I (R448). VX shifts each lane left by an immediate amount. -/
  | vshlI (t : Tok) (d : VSpec) (a : VSpec) (k : BitVec 6) (m : Fin 8) (ty : ITy)
  /-- VSHR_I (R448). VX shifts each lane right by an immediate amount. -/
  | vshrI (t : Tok) (d : VSpec) (a : VSpec) (k : BitVec 6) (m : Fin 8) (ty : ITy)
  /-- VPERMB (R447). VX permutes the bytes within each row. -/
  | vpermb (t : Tok) (d : VSpec) (a : VSpec) (b : VSpec) (m : Fin 8)
  /-- VROTR (R443). VX rotates each row along its columns. -/
  | vrotr (t : Tok) (d : VSpec) (a : VSpec) (k : BitVec 6) (m : Fin 8)
  /-- VROTC (R443). VX rotates each column along its rows. -/
  | vrotc (t : Tok) (d : VSpec) (a : VSpec) (k : BitVec 6) (m : Fin 8)
  /-- VBCR (R443). VX broadcasts one column across each row. -/
  | vbcr (t : Tok) (d : VSpec) (a : VSpec) (k : BitVec 6) (m : Fin 8)
  /-- VBCC (R443). VX broadcasts one row down each column. -/
  | vbcc (t : Tok) (d : VSpec) (a : VSpec) (k : BitVec 6) (m : Fin 8)
  /-- VREDR_ADD (R444). VX sums each row in tree order. -/
  | vredrAdd (t : Tok) (d : VSpec) (a : VSpec) (m : Fin 8) (ty : DTy)
  /-- VREDR_MAX (R444). VX takes the maximum of each row. -/
  | vredrMax (t : Tok) (d : VSpec) (a : VSpec) (m : Fin 8) (ty : DTy)
  /-- VREDR_MIN (R444). VX takes the minimum of each row. -/
  | vredrMin (t : Tok) (d : VSpec) (a : VSpec) (m : Fin 8) (ty : DTy)
  /-- VREDC_ADD (R444). VX sums each column in tree order. -/
  | vredcAdd (t : Tok) (d : VSpec) (a : VSpec) (m : Fin 8) (ty : DTy)
  /-- VREDC_MAX (R444). VX takes the maximum of each column. -/
  | vredcMax (t : Tok) (d : VSpec) (a : VSpec) (m : Fin 8) (ty : DTy)
  /-- VREDC_MIN (R444). VX takes the minimum of each column. -/
  | vredcMin (t : Tok) (d : VSpec) (a : VSpec) (m : Fin 8) (ty : DTy)
  /-- VSCANR_ADD (R444). VX forms the inclusive sum along each row. -/
  | vscanrAdd (t : Tok) (d : VSpec) (a : VSpec) (m : Fin 8) (ty : DTy)
  /-- VSCANR_MAX (R444). VX forms the inclusive maximum along each row. -/
  | vscanrMax (t : Tok) (d : VSpec) (a : VSpec) (m : Fin 8) (ty : DTy)
  /-- VSCANC_ADD (R444). VX forms the inclusive sum down each column. -/
  | vscancAdd (t : Tok) (d : VSpec) (a : VSpec) (m : Fin 8) (ty : DTy)
  /-- VSCANC_MAX (R444). VX forms the inclusive maximum down each column. -/
  | vscancMax (t : Tok) (d : VSpec) (a : VSpec) (m : Fin 8) (ty : DTy)
  /-- VTRN (R447). VX transposes each 16 by 16 block of lanes. -/
  | vtrn (t : Tok) (d : VSpec) (a : VSpec) (m : Fin 8)
  /-- VIOTA (R449). VX adds the lane index to each lane. -/
  | viota (t : Tok) (d : VSpec) (a : VSpec) (m : Fin 8) (ty : ITy)
  /-- VSPL (R447). VX splats one indexed lane to every lane. -/
  | vspl (t : Tok) (d : VSpec) (a : VSpec) (b : VSpec) (m : Fin 8)
  /-- VEXT (R447). VX gathers lanes by index. -/
  | vext (t : Tok) (d : VSpec) (a : VSpec) (b : VSpec) (m : Fin 8)
  /-- VINS (R447). VX scatters lanes by index into the destination. -/
  | vins (t : Tok) (d : VSpec) (a : VSpec) (b : VSpec) (m : Fin 8)
  /-- VPACK (R459). VX packs narrow elements into one part of the lanes. -/
  | vpack (t : Tok) (d : VSpec) (a : VSpec) (b : VSpec) (m : Fin 8) (ty : DTy)
  /-- VUNPK (R459). VX unpacks narrow elements from one part to one element per lane. -/
  | vunpk (t : Tok) (d : VSpec) (a : VSpec) (b : VSpec) (m : Fin 8) (ty : DTy)
  /-- VSPZ (R462). VX keeps the n largest of each group of 8 and writes their indices. -/
  | vspz (t : Tok) (d : VSpec) (a : VSpec) (k : BitVec 6) (m : Fin 8) (ty : FTy)
  /-- VMOP (R456). VX combines masks. -/
  | vmop (t : Tok) (d : Fin 8) (a : Fin 8) (b : Fin 8) (op : MOp)
  /-- VMCNT (R457). VX counts the bits of a mask. -/
  | vmcnt (t : Tok) (d : VSpec) (k : BitVec 6) (m : Fin 8)
  /-- VRAND (R460). VX writes 32 random bits from the mixer into each lane. -/
  | vrand (t : Tok) (d : VSpec) (m : Fin 8)
  /-- VRAND_U (R460). VX writes a uniform value in [0, 1) into each lane. -/
  | vrandU (t : Tok) (d : VSpec) (m : Fin 8) (ty : FTy)
  /-- MZERO (R287). MX writes +0 into accumulator rows. -/
  | mzero (t : Tok) (acc : BitVec 12) (rep : BitVec 6)
  /-- MWLD (R276). MX loads a dense weight tile into the shadow tile. -/
  | mwld (t : Tok) (p : Fin 8) (it : InTy)
  /-- MWLD_S4 (R276). MX loads a weight tile that keeps 4 of every 8 elements. -/
  | mwldS4 (t : Tok) (p : Fin 8) (it : InTy)
  /-- MWLD_S2 (R276). MX loads a weight tile that keeps 2 of every 8 elements. -/
  | mwldS2 (t : Tok) (p : Fin 8) (it : InTy)
  /-- MWLD_S1 (R276). MX loads a weight tile that keeps 1 of every 8 elements. -/
  | mwldS1 (t : Tok) (p : Fin 8) (it : InTy)
  /-- MMUL (R278). MX streams activation rows through the weight tile and adds the sums into accumulator rows, paired
  across a gang. -/
  | mmul (t : Tok) (acc : BitVec 12) (p : Fin 8) (rep : BitVec 6) (shp : Shape) (it : InTy) (srcq : Bool) (mark : Bool)
  /-- MATT (R288). MX runs attention over blocks of keys and values, updating the output and statistics rows. -/
  | matt (t : Tok) (acc : BitVec 12) (p : Fin 8) (rep : BitVec 6) (it : InTy) (causal : Bool) (init : Bool) (mark : Bool) (acc2 : BitVec 12) (p2 : Fin 8)
  /-- MDRN (R284). MX drains accumulator rows through the epilogue to scratchpad, or folds them into other rows. -/
  | mdrn (t : Tok) (acc : BitVec 12) (p : Fin 8) (rep : BitVec 6) (fold : Bool)
  /-- MDRN_F (R285). MX drains rows into the fabric as row messages. -/
  | mdrnF (t : Tok) (acc : BitVec 12) (p : Fin 8) (rep : BitVec 6)
  /-- MDRN_SM (R286). MX drains tagged logit rows to the Cupola sampler port. -/
  | mdrnSm (t : Tok) (acc : BitVec 12) (p : Fin 8) (rep : BitVec 6)
  /-- MEPI (R282). MX loads the epilogue registers from a descriptor. -/
  | mepi (t : Tok) (p : Fin 8)
  /-- MACFG (R281). MX replaces its configuration from a block. -/
  | macfg (t : Tok) (p : Fin 8)
  /-- XCP (R179). AS issues a copy program that copies element bits. -/
  | xcp (t : Tok) (sa : Fin 32) (sb : Fin 32)
  /-- XCP_CVT (R180). AS issues a copy program that converts element types. -/
  | xcpCvt (t : Tok) (sa : Fin 32) (sb : Fin 32)
  /-- XCP_MC (R190). AS issues a copy that is multicast to a group of receivers. -/
  | xcpMc (t : Tok) (sa : Fin 32) (sb : Fin 32)
  /-- XCP_KV (R176). AS issues a copy with a KV end translated through the block translation memory. -/
  | xcpKv (t : Tok) (sa : Fin 32) (sb : Fin 32)
  /-- XACC_ADD (R183). AS issues a copy that adds each element at the destination port. -/
  | xaccAdd (t : Tok) (sa : Fin 32) (sb : Fin 32)
  /-- XACC_MIN (R183). AS issues a copy that takes the minimum at the destination port. -/
  | xaccMin (t : Tok) (sa : Fin 32) (sb : Fin 32)
  /-- XACC_MAX (R183). AS issues a copy that takes the maximum at the destination port. -/
  | xaccMax (t : Tok) (sa : Fin 32) (sb : Fin 32)
  /-- XACC_AND (R183). AS issues a copy that ANDs each element at the destination port. -/
  | xaccAnd (t : Tok) (sa : Fin 32) (sb : Fin 32)
  /-- XACC_OR (R183). AS issues a copy that ORs each element at the destination port. -/
  | xaccOr (t : Tok) (sa : Fin 32) (sb : Fin 32)
  /-- XACC_XOR (R183). AS issues a copy that XORs each element at the destination port. -/
  | xaccXor (t : Tok) (sa : Fin 32) (sb : Fin 32)
  /-- XATOM_ADD (R184). A fetch-and-add runs at the target port and returns the old value. -/
  | xatomAdd (t : Tok) (sa : Fin 32) (sb : Fin 32)
  /-- XATOM_MIN (R184). A fetch-and-minimum runs at the target port. -/
  | xatomMin (t : Tok) (sa : Fin 32) (sb : Fin 32)
  /-- XATOM_MAX (R184). A fetch-and-maximum runs at the target port. -/
  | xatomMax (t : Tok) (sa : Fin 32) (sb : Fin 32)
  /-- XATOM_AND (R184). A fetch-and-AND runs at the target port. -/
  | xatomAnd (t : Tok) (sa : Fin 32) (sb : Fin 32)
  /-- XATOM_OR (R184). A fetch-and-OR runs at the target port. -/
  | xatomOr (t : Tok) (sa : Fin 32) (sb : Fin 32)
  /-- XATOM_XOR (R184). A fetch-and-XOR runs at the target port. -/
  | xatomXor (t : Tok) (sa : Fin 32) (sb : Fin 32)
  /-- XATOM_SWAP (R184). An atomic swap runs at the target port. -/
  | xatomSwap (t : Tok) (sa : Fin 32) (sb : Fin 32)
  /-- XATOM_CAS (R184). An atomic compare-and-swap runs at the target port. -/
  | xatomCas (t : Tok) (sa : Fin 32) (sb : Fin 32)
  /-- XFILL (R179). AS issues a copy program that fills the destination with the AUX value. -/
  | xfill (t : Tok) (sa : Fin 32) (sb : Fin 32)
  /-- VATOM_ADD (R441). The 1,024 lanes of a vector register are added into memory at the port. -/
  | vatomAdd (t : Tok) (sa : Fin 32) (v : VSpec)
  /-- VATOM_MIN (R441). The lane-wise minimum of a vector register and memory is taken at the port. -/
  | vatomMin (t : Tok) (sa : Fin 32) (v : VSpec)
  /-- VATOM_MAX (R441). The lane-wise maximum of a vector register and memory is taken at the port. -/
  | vatomMax (t : Tok) (sa : Fin 32) (v : VSpec)
  /-- VATOM_AND (R441). The lanes of a vector register are ANDed into memory at the port. -/
  | vatomAnd (t : Tok) (sa : Fin 32) (v : VSpec)
  /-- VATOM_OR (R441). The lanes of a vector register are ORed into memory at the port. -/
  | vatomOr (t : Tok) (sa : Fin 32) (v : VSpec)
  /-- VATOM_XOR (R441). The lanes of a vector register are XORed into memory at the port. -/
  | vatomXor (t : Tok) (sa : Fin 32) (v : VSpec)
  /-- BINIT (R377). A barrier cell is initialised, and its signaller is registered in the wait-for table. -/
  | binit (t : Tok) (sa : Fin 32)
  /-- BARV (R377). AS presents one arrival at a barrier cell. -/
  | barv (t : Tok) (sb : Fin 32)
  /-- BWAIT (R378). AS waits until a cell's parity equals p. -/
  | bwait (t : Tok) (sb : Fin 32) (p : Bool)
  /-- RNGCFG (R423). One of the core's own ring descriptors is configured and its counts are zeroed. -/
  | rngcfg (t : Tok) (sa : Fin 32)
  /-- RNGWF (R163). A consumer waits for a published slot and is granted it. -/
  | rngwf (t : Tok) (sb : Fin 32) (addr : BitVec 19)
  /-- RNGWE (R163). A producer waits for a free slot and is granted it. -/
  | rngwe (t : Tok) (sb : Fin 32) (addr : BitVec 19)
  /-- RNGPUB (R163). The oldest claimed slot of a ring is published, as a release. -/
  | rngpub (t : Tok) (sb : Fin 32)
  /-- RNGREL (R163). The oldest granted slot of a ring is released, which may satisfy waiting producers. -/
  | rngrel (t : Tok) (sb : Fin 32)
  /-- BTLD (R166). Keys and handles are installed in the block translation memory. -/
  | btld (t : Tok) (sa : Fin 32)
  /-- BTLK (R383). LOCK is set or cleared on present block-translation entries. -/
  | btlk (t : Tok) (sa : Fin 32)
  /-- BTINV (R383). Block-translation entries are invalidated by list, by slot or all at once. -/
  | btinv (t : Tok) (sa : Fin 32)
  /-- BALLOC (R303). Campanile pops N block handles from a pool's free stack. -/
  | balloc (t : Tok) (sa : Fin 32)
  /-- BFREE (R303). Campanile drops one reference of each listed block, releasing those that reach zero. -/
  | bfree (t : Tok) (sa : Fin 32)
  /-- BREF (R303). Campanile adds one reference to each listed block. -/
  | bref (t : Tok) (sa : Fin 32)
  /-- BTOPEN (R303). Campanile opens a sequence slot's block table. -/
  | btopen (t : Tok) (sa : Fin 32)
  /-- BTCLOSE (R303). Campanile drops every entry of a slot and closes it. -/
  | btclose (t : Tok) (sa : Fin 32)
  /-- BTAPP (R304). Campanile appends tokens or handles to a slot's table. -/
  | btapp (t : Tok) (sa : Fin 32)
  /-- BTFORK (R305). Campanile opens a slot as a copy of another slot's committed part. -/
  | btfork (t : Tok) (sa : Fin 32)
  /-- BTTRIM (R303). Campanile removes speculative tokens and drops the freed entries. -/
  | bttrim (t : Tok) (sa : Fin 32)
  /-- BTCMT (R306). Campanile commits accepted speculative tokens and drops the rest. -/
  | btcmt (t : Tok) (sa : Fin 32)
  /-- BHFIND (R308). Campanile looks up a block digest in the prefix index and takes a reference to the block it finds. -/
  | bhfind (t : Tok) (sa : Fin 32)
  /-- BHPUB (R308). Campanile publishes a handle under its digest in the prefix index. -/
  | bhpub (t : Tok) (sa : Fin 32)
  /-- ITBIND (R393). Belfry binds or unbinds an itinerary binding slot. -/
  | itbind (t : Tok) (sa : Fin 32)
  /-- ITGO (R393). Belfry starts a bound itinerary after applying its USERS increments. -/
  | itgo (t : Tok) (sa : Fin 32)
  /-- ITSTAT (R393). Belfry writes an itinerary's status record. -/
  | itstat (t : Tok) (sa : Fin 32)
  /-- OBJPLACE (R246). The owning Belfry writes an object record. -/
  | objplace (t : Tok) (sa : Fin 32)
  /-- OBJPIN (R247). A stage or bulk copy is pinned or unpinned. -/
  | objpin (t : Tok) (sa : Fin 32)
  /-- RGCFG (R419). The request gatherer's configuration is loaded or released. -/
  | rgcfg (t : Tok) (sa : Fin 32)
  /-- RGPUSH (R268). Rows are pushed into the gatherer's buckets, posting full batches, or buckets are flushed. -/
  | rgpush (t : Tok) (sa : Fin 32)
  /-- RGTAKE_TAKE (R270). The oldest batch descriptor is popped into scratchpad. -/
  | rgtakeTake (t : Tok) (sa : Fin 32)
  /-- RGTAKE_RELEASE (R270). A held batch buffer is released, which may free a waiting push. -/
  | rgtakeRelease (t : Tok) (sa : Fin 32)
  /-- SMBIND (R316). Cupola binds or unbinds a sequence slot to a logit program. -/
  | smbind (t : Tok) (sa : Fin 32)
  /-- SMRUN (R318). A logit row is supplied from scratchpad and accepted as a row of the slot. -/
  | smrun (t : Tok) (sa : Fin 32)
  /-- CLRSLOW (R332). SMTAB clears the slot's sticky slow-path flag. -/
  | clrslow (t : Tok) (sa : Fin 32)
  /-- ADDCNT (R332). SMTAB adds N to a token's count. -/
  | addcnt (t : Tok) (sa : Fin 32)
  /-- CLRCNT (R332). SMTAB clears the slot's count table. -/
  | clrcnt (t : Tok) (sa : Fin 32)
  /-- ARMV (R329). SMTAB arms speculative verification with ND draft positions. -/
  | armv (t : Tok) (sa : Fin 32)
  /-- SETSTEP (R332). SMTAB sets the slot's STEP counter. -/
  | setstep (t : Tok) (sa : Fin 32)
  /-- SMSTAT (R333). Cupola writes a snapshot of a binding record or of its registers. -/
  | smstat (t : Tok) (sa : Fin 32)
  /-- LNRUN (R342). A Lantern program is queued at the die's Lantern. -/
  | lnrun (t : Tok) (sa : Fin 32)
  /-- LNSTAT (R344). Lantern writes a status snapshot. -/
  | lnstat (t : Tok) (sa : Fin 32)
  /-- LNSEND (R348). Elements, or their MX image, are sent to a peer's heap, followed by an arrival on a channel. -/
  | lnsend (f : LnData)
  /-- LNRECV (R348). The step waits on a channel, then optionally expands the landed image. -/
  | lnrecv (f : LnData)
  /-- LNRRS (R348). The step waits on a channel, reduces the landed data into the source, and sends the result on. -/
  | lnrrs (f : LnData)
  /-- LNCOPY (R348). The step copies, quantises or expands heap data locally. -/
  | lncopy (f : LnData)
  /-- LNWAIT (R350). The program waits until a barrier cell's parity equals P. -/
  | lnwait (cell : BitVec 32) (p : Bool)
  /-- LNSIG (R350). The program arrives at a barrier cell. -/
  | lnsig (cell : BitVec 32)
  /-- LNLOOP (R350). A program loop counter is started. -/
  | lnloop (k : Fin 3) (n : BitVec 32)
  /-- LNENDL (R350). A loop counter is advanced, and control loops back while it is below COUNT. -/
  | lnendl (k : Fin 3)
  /-- LNEND (R343). The program ends: RESULT is written and Lantern arrives at BAR. -/
  | lnend
  /-- COPY_ELEMENT (R175). A copy engine applies one element of a command at its ports. -/
  | copyElement (d : Fin 4) (e : Fin 4) (k : Nat)
  /-- COMMAND_COMPLETE (R174). A command writes STATUS, writes any return value, arrives at BAR and pushes its token. -/
  | commandComplete (d : Fin 4) (e : Fin 4) (k : Nat)
  /-- POWER_UP (R360). Module power-up sets every reset value. -/
  | powerUp
  /-- POWER_LOSS (R360). The removal of power loses all state. -/
  | powerLoss
  /-- RESTART (R360). A RESTART write with the key restarts the module as power-up does. -/
  | restart (key : BitVec 32)
  /-- FUNCTION_LEVEL_RESET (R360). A PCIe function-level reset restarts the module. -/
  | functionLevelReset
  /-- BOOTGO (R361). A BOOTGO write starts the verification of the first-stage image. -/
  | bootgo (len : BitVec 32)
  /-- BOOT_END (R361). Verification ends with STATE 2 and firmware started, or with STATE 3 and a code, and vector 129
  is raised. -/
  | bootEnd
  /-- ATADDR (R364). An ATADDR write starts a signed attestation report. -/
  | ataddr (v : BitVec 64)
  /-- ATTESTATION_REPORT_END (R364). The report has been written, and vector 129 is raised. -/
  | attestationReportEnd
  /-- MEASUREMENT_EXTEND (R363). Firmware extends a measurement register by a digest. -/
  | measurementExtend (n : Fin 4) (v : BitVec 512)
  /-- REGISTER_WRITE (R8). A host or firmware write to a register that has no row of its own stores, sets, clears or is
  ignored by its access code and rules. -/
  | registerWrite (ag : Agent) (w : Window) (off : BitVec 20) (size : Size) (v : BitVec 64)
  /-- MSIX_UNMASK (R357). Unmasking a vector whose pending bit is set sends its message. -/
  | msixUnmask (n : Fin 130)
  /-- REPLAY (R217). A REPLAY write starts a launch by checking and building a graph, or is discarded. -/
  | replay (ag : Agent) (c : Fin 64) (v : BitVec 64)
  /-- SUSP (R214). Writing SUSP with 1 stops the dispatch of the context's records and pre-empts its running tasks. -/
  | susp (ag : Agent) (c : Fin 64) (v : BitVec 64)
  /-- COAL (R240). A write of a nonzero CNT sends the completion message at once if the pending count has reached it. -/
  | coal (ag : Agent) (c : Fin 64) (v : BitVec 64)
  /-- COAL_WINDOW_EXPIRY (R240). The coalescing window expires and the completion message is sent. -/
  | coalWindowExpiry (c : Fin 64)
  /-- TRES_RESUME (R236). A trapped task is resumed at its trapping parcel. -/
  | tresResume (ag : Agent) (c : Fin 64) (q : BitVec 32)
  /-- TRES_RESUME_PAST (R236). A trapped task is resumed past its TRAP or BKPT parcel. -/
  | tresResumePast (ag : Agent) (c : Fin 64) (q : BitVec 32)
  /-- TRES_RETIRE (R236). A trapped task is retired as at TEND. -/
  | tresRetire (ag : Agent) (c : Fin 64) (q : BitVec 32)
  /-- TRES_ABORT (R236). A trapped task's launch is ended with cause HOST_ABORT. -/
  | tresAbort (ag : Agent) (c : Fin 64) (q : BitVec 32)
  /-- TINV (R191). A TINV write starts the invalidation of a tensor's translations. -/
  | tinv (ag : Agent) (c : Fin 64) (v : BitVec 64)
  /-- WATCHDOG_REQUEST (R191). TWDOG expires, and each core that still owes an acknowledgement gets a pre-emption request. -/
  | watchdogRequest (g : Fin 256)
  /-- FORCED_SAVE (R232). A further TWDOG expires and stops the task by a forced save. -/
  | forcedSave (g : Fin 256)
  /-- FRES (R187). A fault record is consumed, and the commands stopped on it resume. -/
  | fres (ag : Agent) (c : Fin 64) (v : BitVec 64)
  /-- KILL (R194). A KILL write kills the context's outstanding work. -/
  | kill (ag : Agent) (c : Fin 64) (v : BitVec 64)
  /-- KILL_ACKNOWLEDGE (R194). An agent acknowledges the kill once its writes are accepted, and QUIET becomes 1 when all
  have acknowledged. -/
  | killAcknowledge (c : Fin 64) (code : BitVec 16)
  /-- CAMPANILE_ENABLE (R293). Setting CCFG.EN clears the die's slot records and prefix index and captures the bases. -/
  | campanileEnable (ag : Agent) (d : Fin 4) (v : BitVec 64)
  /-- POOL_ENABLE (R294). Setting PEN initialises the pool's block words and free stack, or is refused. -/
  | poolEnable (ag : Agent) (d : Fin 4) (p : Fin 16) (v : BitVec 64)
  /-- POOL_DISABLE (R294). Clearing PEN ends every use of the pool. -/
  | poolDisable (ag : Agent) (d : Fin 4) (p : Fin 16) (v : BitVec 64)
  /-- CUPOLA_ENABLE (R313). Setting Cupola's EN zeroes every binding record and captures the bases. -/
  | cupolaEnable (ag : Agent) (d : Fin 4) (v : BitVec 64)
  /-- LANTERN_ENABLE (R335). Setting Lantern's EN zeroes RSEQ and the channel counts and releases held messages. -/
  | lanternEnable (ag : Agent) (d : Fin 4) (v : BitVec 64)
  /-- TASK_START (R43). A placed record starts on its member cores after the text descriptor is checked. -/
  | taskStart (g : Fin 256)
  /-- TASK_RESUME (R170). A saved task is restored on its cores as an acquire. -/
  | taskResume (g : Fin 256)
  /-- TASK_RETIRE (R218). A task retires when every member stands at TEND, and the JOINs of its successors are decremented. -/
  | taskRetire (g : Fin 256)
  /-- SAFE_POINT_STOP (R73). A member's engines stop at the safe point they reach. -/
  | safePointStop (g : Fin 256)
  /-- TASK_SAVE (R212). A task's state and scratchpad image are written to the save area after its commands drain. -/
  | taskSave (g : Fin 256)
  /-- SPIN_THRESHOLD (R231). A wait exceeds SPIN clocks, and the task becomes yieldable. -/
  | spinThreshold (g : Fin 256)
  /-- INTERNAL_DEADLOCK (R74). The engines of a member are blocked on one another, and the task traps DEADLOCK. -/
  | internalDeadlock (g : Fin 256)
  /-- TRAP_RECORD (R235). A trap record is written to the trap ring when there is room. -/
  | trapRecord (c : Fin 64)
  /-- WAITFOR_WALK (R239). Oculus walks the wait-for table and reports a persistent cycle. -/
  | waitforWalk
  /-- LAUNCH_END (R240). A launch ends: the completion word is written, RUN clears, and a completion is counted. -/
  | launchEnd (c : Fin 64)
  /-- POWER_CONTROLLER_WINDOW (R27). A window of 1,024 die clocks ends and the power controller's count of MX and VX
  issue restarts. -/
  | powerControllerWindow (d : Fin 4)
  /-- BARRIER_ARRIVAL (R189). An arrival at a cell decrements REM, flips parity and satisfies waiters. -/
  | barrierArrival (k : Nat)
  /-- SHARD_START (R252). A hop starts a shard when its window, frames, slot and source allow. -/
  | shardStart (d : Fin 4) (sl : Fin 4) (h : Fin 3)
  /-- SHARD_MOVED (R253). A shard finishes moving, and its tile entries are set present or its ring slot published. -/
  | shardMoved (d : Fin 4) (k : Nat)
  /-- DEMAND_MARK (R255). A mark from a retiring MMUL or MATT reaches Belfry, and it may make entries late and lower RT. -/
  | demandMark (d : Fin 4)
  /-- REMOTE_LIST_ELEMENT (R311). A list element that names another die's block is applied at that die's Campanile. -/
  | remoteListElement (d : Fin 4) (k : Nat)
  /-- UNCORRECTABLE_REPORT (R309). An uncorrectable read of a pool frame is reported to the block's Campanile. -/
  | uncorrectableReport (d : Fin 4)
  /-- QUARANTINE (R310). A retired committed handle is sent to each die, which quarantines the slots that hold it. -/
  | quarantine (d : Fin 4)
  /-- SEGMENT (R317). A logit segment from MDRN.SM is written into a row buffer, or dropped. -/
  | segment (d : Fin 4)
  /-- ROW_RUN (R322). Cupola runs the slot's logit program over an accepted row. -/
  | rowRun (d : Fin 4) (k : Nat)
  /-- LANTERN_PROGRAM_START (R343). The program at the head of the queue starts: POFF is set, RSEQ advances and the
  program is checked. -/
  | lanternProgramStart (d : Fin 4)
  /-- ROW_WRITE (R337). A fabric message of KIND 1 writes a drained row into a destination scratchpad. -/
  | rowWrite (msg : FMsg)
  /-- ROW_ARRIVAL (R338). A fabric message of KIND 2 arrives at DBAR after its stream's rows. -/
  | rowArrival (msg : FMsg)
  /-- LANTERN_DATA (R337). A fabric message of KIND 3 lands Lantern data in the heap. -/
  | lanternData (msg : FMsg)
  /-- LANTERN_ARRIVAL (R349). A fabric message of KIND 4 adds an arrival to a Lantern channel. -/
  | lanternArrival (msg : FMsg)
  /-- BELFRY_SHARD (R264). A fabric message of KIND 5 delivers a leader's shard to a member. -/
  | belfryShard (msg : FMsg)
  /-- COPY_DATA (R337). A fabric message of KIND 6 writes multicast copy data. -/
  | copyData (msg : FMsg)
  /-- COPY_ARRIVAL (R338). A fabric message of KIND 7 arrives at a receiver's RBAR. -/
  | copyArrival (msg : FMsg)
  /-- POISON_NOTICE (R266). A fabric message of KIND 8 poisons the member's matching shard. -/
  | poisonNotice (msg : FMsg)
  /-- RESERVED_KIND_MESSAGE (R337). A fabric message with a reserved KIND arrives at a receiving port, is discarded and
  is counted as poisoned in PSNRX of die 0. -/
  | reservedKindMessage (msg : FMsg)
  /-- LAUNCH_AREA_WRITE (R355). A host write through BAR4 writes bytes of die 0's stage frames from LAFRAME onward. -/
  | launchAreaWrite (x : BitVec 32) (size : Size) (v : BitVec 64)
  deriving DecidableEq, Repr

end Sys2Proof
end

