-- ==== Sys2Proof/Decode.lean ====
section
/-!
DEFINITION. The decoder, total on any parcels and any bytes, which refuses by name, and the encoder
(spec/03_encoding.md R75 to R102; spec/13_collectives.md R346). A parcel is taken as its number below 2^48.
-/
namespace Sys2Proof

/-- Why bits are no instruction (R93, R95, R346). -/
inductive Reject where
  /-- ENG 6 or 7 (R45). -/
  | badEngine
  /-- A reserved opcode slot (R93). -/
  | badOpcode
  /-- An L bit that differs from the opcode's kind (R76). -/
  | badLength
  /-- Bit 30 is 1 (R75). -/
  | bit30
  /-- A reserved or unused field is not zero (R93). -/
  | reservedBits
  /-- WAIT or SIG holds 7 (R77). -/
  | badToken
  /-- A reserved specifier (R85). -/
  | badSpecifier
  /-- A reserved type code (R87). -/
  | badType
  /-- A reserved condition (R90, R91). -/
  | badCondition
  /-- A reserved scope (R92). -/
  | badScope
  /-- A reserved shape (R89). -/
  | badShape
  /-- A reserved input type (R89). -/
  | badInputType
  /-- A field that names a mask and is not 000kkk (R81). -/
  | badMaskField
  /-- A reserved operation of VMOP (R456). -/
  | badMaskOp
  /-- A reserved OP or code of a Lantern step (R346). -/
  | badStep
  /-- The bytes end before the instruction does (R95). -/
  | shortText
  deriving DecidableEq, Repr

/-- An instruction, or the reason the bits are none. -/
abbrev Dec := Except Reject Instr

/-- Bits lo to lo + w − 1 of a number (R4). -/
def fld (p lo w : Nat) : Nat := p / 2 ^ lo % 2 ^ w

def fin32 (p lo : Nat) : Fin 32 := Fin.ofNat 32 (p / 2 ^ lo)
def fin8 (p lo : Nat) : Fin 8 := Fin.ofNat 8 (p / 2 ^ lo)
def fin64 (p lo : Nat) : Fin 64 := Fin.ofNat 64 (p / 2 ^ lo)
def bit (p lo : Nat) : Bool := fld p lo 1 = 1
def bv (w p lo : Nat) : BitVec w := BitVec.ofNat w (p / 2 ^ lo)

/-- A reserved or unused field must be zero (R93). -/
def zero (p lo w : Nat) : Except Reject Unit := if fld p lo w = 0 then .ok () else .error .reservedBits

/-- The opcode is short: L is 0 (R76). -/
def short (l : Bool) : Except Reject Unit := if l then .error .badLength else .ok ()

/-- The opcode is long: L is 1 (R76). -/
def long (l : Bool) : Except Reject Unit := if l then .ok () else .error .badLength

/-- A token code (R77). -/
def tokCode (n : Nat) : Except Reject (Option Engine) :=
  match n with
  | 0 => .ok none | 1 => .ok (some .sc) | 2 => .ok (some .ld) | 3 => .ok (some .st) | 4 => .ok (some .vx)
  | 5 => .ok (some .mx) | 6 => .ok (some .asy) | _ => .error .badToken

/-- An operand specifier (R85). -/
def spec (n : Nat) : Except Reject VSpec :=
  if n < 0x20 then .ok (.v (Fin.ofNat 32 n))
  else if n < 0x28 then .ok (.w (Fin.ofNat 8 n))
  else if n < 0x2a then .ok (.z (Fin.ofNat 2 n))
  else if n < 0x30 then .error .badSpecifier
  else if n < 0x38 then .ok (.q (Fin.ofNat 8 n))
  else .error .badSpecifier

/-- A specifier field that names a mask, 000kkk (R81). -/
def maskReg (n : Nat) : Except Reject (Fin 8) := if n < 8 then .ok (Fin.ofNat 8 n) else .error .badMaskField

/-- A floating type code (R87). -/
def fty (n : Nat) : Except Reject FTy :=
  match n with
  | 0 => .ok .f32 | 1 => .ok .bf16 | 2 => .ok .f16 | 3 => .ok .e4m3 | 4 => .ok .e5m2 | 5 => .ok .e2m1
  | 6 => .ok .e8m0 | _ => .error .badType

/-- An integer type code (R87); none is reserved. -/
def ityOf (n : Nat) : ITy :=
  match n with
  | 0 => .i32 | 1 => .ui32 | 2 => .i16 | 3 => .ui16 | 4 => .i8 | 5 => .ui8 | 6 => .i4 | _ => .ui4

def ity (p lo : Nat) : ITy := ityOf (fld p lo 3)

/-- DOM and a type code (R87). -/
def dty (dom n : Nat) : Except Reject DTy :=
  if dom = 0 then (match fty n with | .ok t => .ok (.f t) | .error e => .error e) else .ok (.i (ityOf n))

/-- A scalar condition (R90). -/
def cond (n : Nat) : Except Reject Cond :=
  match n with
  | 0 => .ok .eq | 1 => .ok .ne | 2 => .ok .lt | 3 => .ok .ge | 4 => .ok .ltu | 5 => .ok .geu | 6 => .ok .gt
  | 7 => .ok .le | 8 => .ok .gtu | 9 => .ok .leu | _ => .error .badCondition

/-- A vector condition (R91). -/
def vcond (n : Nat) : Except Reject VCond :=
  match n with
  | 0 => .ok .eq | 1 => .ok .ne | 2 => .ok .lt | 3 => .ok .le | 4 => .ok .gt | 5 => .ok .ge | 6 => .ok .unord
  | 7 => .ok .ord | _ => .error .badCondition

/-- A scope (R92). -/
def scope (n : Nat) : Except Reject Scope :=
  match n with
  | 0 => .ok .core | 1 => .ok .cluster | 2 => .ok .die | 3 => .ok .package | 4 => .ok .fabric | 5 => .ok .system
  | _ => .error .badScope

/-- A quadrant shape (R89). -/
def shape (n : Nat) : Except Reject Shape :=
  match n with
  | 0 => .ok .s11 | 1 => .ok .s12 | 2 => .ok .s21 | 3 => .ok .s22 | 4 => .ok .s14 | 5 => .ok .s24
  | _ => .error .badShape

/-- An input type (R89). -/
def inTy (n : Nat) : Except Reject InTy :=
  match n with
  | 0 => .ok .e4m3 | 1 => .ok .e5m2 | 2 => .ok .i8 | 3 => .ok .e2m1 | 4 => .ok .i4 | 5 => .ok .bf16 | 6 => .ok .f16
  | _ => .error .badInputType

/-- An operation of VMOP (R456). -/
def maskOp (n : Nat) : Except Reject MOp :=
  match n with
  | 0 => .ok .and | 1 => .ok .or | 2 => .ok .xor | 3 => .ok .andn | 4 => .ok .not | 5 => .ok .mov | 6 => .ok .set
  | 7 => .ok .clr | _ => .error .badMaskOp

/-- SPACE (R82). -/
def space (p lo : Nat) : Space :=
  match fld p lo 2 with | 0 => .loc | 1 => .acc | 2 => .clu | _ => .pkg

/-- ET (R88). -/
def etM (p lo : Nat) : EtM :=
  match fld p lo 3 with
  | 0 => .b32 | 1 => .b16 | 2 => .b16s | 3 => .b8 | 4 => .b8s | 5 => .b4 | 6 => .b4s | _ => .raw

/-- The opcode map of SC, and the fate of its reserved slots (R93, R96 to R101). -/
def decSc (opc : Nat) (l : Bool) (t : Tok) (p q : Nat) : Dec :=
  match opc with
  | 0x00 => do short l; zero p 0 30; return .nop t
  | 0x01 => do short l; zero p 0 15; return .add t (fin32 p 25) (fin32 p 20) (fin32 p 15)
  | 0x02 => do short l; zero p 0 15; return .addS t (fin32 p 25) (fin32 p 20) (fin32 p 15)
  | 0x03 => do short l; zero p 0 15; return .addUs t (fin32 p 25) (fin32 p 20) (fin32 p 15)
  | 0x04 => do short l; return .addI t (fin32 p 25) (fin32 p 20) (bv 20 p 0)
  | 0x05 => do short l; zero p 0 15; return .sub t (fin32 p 25) (fin32 p 20) (fin32 p 15)
  | 0x06 => do short l; zero p 0 15; return .subS t (fin32 p 25) (fin32 p 20) (fin32 p 15)
  | 0x07 => do short l; zero p 0 15; return .subUs t (fin32 p 25) (fin32 p 20) (fin32 p 15)
  | 0x08 => do short l; zero p 0 15; return .mul t (fin32 p 25) (fin32 p 20) (fin32 p 15)
  | 0x09 => do short l; zero p 0 15; return .mulS t (fin32 p 25) (fin32 p 20) (fin32 p 15)
  | 0x0a => do short l; zero p 0 15; return .mulHi t (fin32 p 25) (fin32 p 20) (fin32 p 15)
  | 0x0b => do short l; zero p 0 15; return .mulHu t (fin32 p 25) (fin32 p 20) (fin32 p 15)
  | 0x0c => do short l; return .mulI t (fin32 p 25) (fin32 p 20) (bv 20 p 0)
  | 0x0d => do short l; zero p 0 15; return .div t (fin32 p 25) (fin32 p 20) (fin32 p 15)
  | 0x0e => do short l; zero p 0 15; return .divU t (fin32 p 25) (fin32 p 20) (fin32 p 15)
  | 0x0f => do short l; zero p 0 15; return .divR t (fin32 p 25) (fin32 p 20) (fin32 p 15)
  | 0x10 => do short l; zero p 0 15; return .divRu t (fin32 p 25) (fin32 p 20) (fin32 p 15)
  | 0x11 => do short l; zero p 0 15; return .and t (fin32 p 25) (fin32 p 20) (fin32 p 15)
  | 0x12 => do short l; return .andI t (fin32 p 25) (fin32 p 20) (bv 20 p 0)
  | 0x13 => do short l; zero p 0 15; return .or t (fin32 p 25) (fin32 p 20) (fin32 p 15)
  | 0x14 => do short l; return .orI t (fin32 p 25) (fin32 p 20) (bv 20 p 0)
  | 0x15 => do short l; zero p 0 15; return .xor t (fin32 p 25) (fin32 p 20) (fin32 p 15)
  | 0x16 => do short l; return .xorI t (fin32 p 25) (fin32 p 20) (bv 20 p 0)
  | 0x17 => do short l; zero p 0 15; return .shl t (fin32 p 25) (fin32 p 20) (fin32 p 15)
  | 0x18 => do short l; zero p 6 14; return .shlI t (fin32 p 25) (fin32 p 20) (bv 6 p 0)
  | 0x19 => do short l; zero p 0 15; return .shr t (fin32 p 25) (fin32 p 20) (fin32 p 15)
  | 0x1a => do short l; zero p 6 14; return .shrI t (fin32 p 25) (fin32 p 20) (bv 6 p 0)
  | 0x1b => do short l; zero p 0 15; return .shrA t (fin32 p 25) (fin32 p 20) (fin32 p 15)
  | 0x1c => do short l; zero p 6 14; return .shrAi t (fin32 p 25) (fin32 p 20) (bv 6 p 0)
  | 0x1d => do short l; zero p 4 11; let c ← cond (fld p 0 4); return .cmp t (fin32 p 25) (fin32 p 20) (fin32 p 15) c
  | 0x1e => do short l; zero p 0 10; return .sel t (fin32 p 25) (fin32 p 20) (fin32 p 15) (fin32 p 10)
  | 0x1f => do short l; zero p 0 15; return .min t (fin32 p 25) (fin32 p 20) (fin32 p 15)
  | 0x20 => do short l; zero p 0 15; return .minU t (fin32 p 25) (fin32 p 20) (fin32 p 15)
  | 0x21 => do short l; zero p 0 15; return .max t (fin32 p 25) (fin32 p 20) (fin32 p 15)
  | 0x22 => do short l; zero p 0 15; return .maxU t (fin32 p 25) (fin32 p 20) (fin32 p 15)
  | 0x23 => do short l; zero p 12 8; return .bits t (fin32 p 25) (fin32 p 20) (bv 6 p 6) (bv 6 p 0)
  | 0x24 => do short l; zero p 12 8; return .bitsS t (fin32 p 25) (fin32 p 20) (bv 6 p 6) (bv 6 p 0)
  | 0x25 => do short l; zero p 12 8; return .bitsIns t (fin32 p 25) (fin32 p 20) (bv 6 p 6) (bv 6 p 0)
  | 0x26 => do short l; zero p 0 20; return .bitsCnt t (fin32 p 25) (fin32 p 20)
  | 0x27 => do short l; zero p 0 20; return .bitsClz t (fin32 p 25) (fin32 p 20)
  | 0x28 => do short l; zero p 0 20; return .mov t (fin32 p 25) (fin32 p 20)
  | 0x29 => do short l; zero p 3 17; zero p 25 5; return .movQw t (fin32 p 20) (fin8 p 0)
  | 0x2a => do short l; zero p 3 22; return .movQr t (fin32 p 25) (fin8 p 0)
  | 0x2b => do short l; zero p 20 5; return .movi t (fin32 p 25) (bv 20 p 0)
  | 0x2c => do long l; zero p 20 5; zero q 44 4; return .moviL t (fin32 p 25) (bv 20 p 0) (bv 44 q 0)
  | 0x2d => do short l; zero p 3 12; zero p 25 5; return .apat t (fin32 p 20) (fin32 p 15) (fin8 p 0)
  | 0x30 => do short l; let c ← cond (fld p 26 4); return .br t c (fin32 p 21) (fin32 p 16) (bv 16 p 0)
  | 0x31 => do short l; zero p 16 14; return .jmp t (bv 16 p 0)
  | 0x32 => do short l; zero p 0 21; zero p 26 4; return .jmpR t (fin32 p 21)
  | 0x33 => do long l; zero p 0 30; zero q 22 26; return .jmpL t (bv 22 q 0)
  | 0x34 => do short l; zero p 16 5; zero p 26 4; return .call t (fin32 p 21) (bv 16 p 0)
  | 0x35 => do short l; zero p 0 16; zero p 26 4; return .callR t (fin32 p 21) (fin32 p 16)
  | 0x36 => do long l; zero p 0 21; zero p 26 4; zero q 22 26; return .callL t (fin32 p 21) (bv 22 q 0)
  | 0x37 => do short l; zero p 0 21; zero p 26 4; return .ret t (fin32 p 21)
  | 0x38 => do short l; zero p 26 4; return .loop t (bv 10 p 16) (bv 16 p 0)
  | 0x39 => do short l; zero p 16 5; zero p 26 4; return .loopR t (fin32 p 21) (bv 16 p 0)
  | 0x3a => do short l; zero p 15 5; return .sld t (fin32 p 25) (fin32 p 20) (bv 15 p 0)
  | 0x3b => do short l; zero p 15 5; return .sldW t (fin32 p 25) (fin32 p 20) (bv 15 p 0)
  | 0x3c => do short l; zero p 15 5; return .sldWs t (fin32 p 25) (fin32 p 20) (bv 15 p 0)
  | 0x3d => do short l; zero p 25 5; return .sst t (fin32 p 20) (fin32 p 15) (bv 15 p 0)
  | 0x3e => do short l; zero p 25 5; return .sstW t (fin32 p 20) (fin32 p 15) (bv 15 p 0)
  | 0x40 => do short l; zero p 12 13; return .getsr t (fin32 p 25) (bv 12 p 0)
  | 0x41 => do short l; zero p 12 8; zero p 25 5; return .setsr t (fin32 p 20) (bv 12 p 0)
  | 0x42 => do short l; zero p 12 18; return .trap t (bv 12 p 0)
  | 0x43 => do short l; zero p 12 18; return .bkpt t (bv 12 p 0)
  | 0x44 => do short l; zero p 0 30; return .tend t
  | 0x45 => do short l; zero p 0 20; zero p 25 5; return .tspawn t (fin32 p 20)
  | 0x46 => do short l; zero p 0 20; zero p 25 5; return .tjoin t (fin32 p 20)
  | 0x47 => do short l; zero p 0 30; return .yield t
  | 0x48 => do short l; zero p 3 27; let sc ← scope (fld p 0 3); return .fenceAcq t sc
  | 0x49 => do short l; zero p 3 27; let sc ← scope (fld p 0 3); return .fenceRel t sc
  | 0x4a => do short l; zero p 3 27; let sc ← scope (fld p 0 3); return .fence t sc
  | 0x4b => do short l; zero p 0 30; return .mark t
  | 0x4c => do short l; zero p 0 30; return .quies t
  | 0x4d => do short l; zero p 0 20; zero p 25 5; return .notify t (fin32 p 20)
  | 0x4e => do short l; zero p 6 19; return .gpget t (fin32 p 25) (fin64 p 0)
  | 0x4f => do short l; zero p 6 14; zero p 25 5; return .gpset t (fin32 p 20) (fin64 p 0)
  | _ => .error .badOpcode

/-- The opcode map of LD, and the fate of its reserved slots (R93, R96 to R101). -/
def decLd (opc : Nat) (l : Bool) (t : Tok) (p q : Nat) : Dec :=
  match opc with
  | 0x00 => do short l; let r ← spec (fld p 24 6); return .vld t r (fin8 p 21) (bv 6 p 15) (bv 10 p 5) (space p 3) (etM p 0)
  | 0x01 => do long l; zero q 22 26; let r ← spec (fld p 24 6); return .vldx t r (fin8 p 21) (bv 6 p 15) (bv 10 p 5) (space p 3) (etM p 0) (bv 22 q 0)
  | _ => .error .badOpcode

/-- The opcode map of ST, and the fate of its reserved slots (R93, R96 to R101). -/
def decSt (opc : Nat) (l : Bool) (t : Tok) (p q : Nat) : Dec :=
  match opc with
  | 0x00 => do short l; let r ← spec (fld p 24 6); return .vst t r (fin8 p 21) (bv 6 p 15) (bv 10 p 5) (space p 3) (etM p 0)
  | 0x01 => do long l; zero q 22 26; let r ← spec (fld p 24 6); return .vstx t r (fin8 p 21) (bv 6 p 15) (bv 10 p 5) (space p 3) (etM p 0) (bv 22 q 0)
  | _ => .error .badOpcode

/-- The opcode map of VX, and the fate of its reserved slots (R93, R96 to R101). -/
def decVx (opc : Nat) (l : Bool) (t : Tok) (p q : Nat) : Dec :=
  match opc with
  | 0x01 => do short l; zero p 6 6; let d ← spec (fld p 24 6); let a ← spec (fld p 18 6); let b ← spec (fld p 12 6); let ty ← fty (fld p 0 3); return .vadd t d a b (fin8 p 3) ty
  | 0x02 => do short l; zero p 6 6; let d ← spec (fld p 24 6); let a ← spec (fld p 18 6); let b ← spec (fld p 12 6); let ty ← fty (fld p 0 3); return .vsub t d a b (fin8 p 3) ty
  | 0x03 => do short l; zero p 6 6; let d ← spec (fld p 24 6); let a ← spec (fld p 18 6); let b ← spec (fld p 12 6); let ty ← fty (fld p 0 3); return .vmul t d a b (fin8 p 3) ty
  | 0x04 => do short l; let d ← spec (fld p 24 6); let a ← spec (fld p 18 6); let b ← spec (fld p 12 6); let c ← spec (fld p 6 6); let ty ← fty (fld p 0 3); return .vfma t d a b c (fin8 p 3) ty
  | 0x05 => do short l; let d ← spec (fld p 24 6); let a ← spec (fld p 18 6); let b ← spec (fld p 12 6); let c ← spec (fld p 6 6); let ty ← fty (fld p 0 3); return .vfmaNm t d a b c (fin8 p 3) ty
  | 0x06 => do short l; zero p 6 6; let d ← spec (fld p 24 6); let a ← spec (fld p 18 6); let b ← spec (fld p 12 6); let ty ← fty (fld p 0 3); return .vdiv t d a b (fin8 p 3) ty
  | 0x07 => do short l; zero p 6 12; let d ← spec (fld p 24 6); let a ← spec (fld p 18 6); let ty ← fty (fld p 0 3); return .vsqrt t d a (fin8 p 3) ty
  | 0x08 => do short l; zero p 6 12; let d ← spec (fld p 24 6); let a ← spec (fld p 18 6); let ty ← fty (fld p 0 3); return .vsfExp2 t d a (fin8 p 3) ty
  | 0x09 => do short l; zero p 6 12; let d ← spec (fld p 24 6); let a ← spec (fld p 18 6); let ty ← fty (fld p 0 3); return .vsfLog2 t d a (fin8 p 3) ty
  | 0x0a => do short l; zero p 6 12; let d ← spec (fld p 24 6); let a ← spec (fld p 18 6); let ty ← fty (fld p 0 3); return .vsfRcp t d a (fin8 p 3) ty
  | 0x0b => do short l; zero p 6 12; let d ← spec (fld p 24 6); let a ← spec (fld p 18 6); let ty ← fty (fld p 0 3); return .vsfRsqrt t d a (fin8 p 3) ty
  | 0x0c => do short l; zero p 6 12; let d ← spec (fld p 24 6); let a ← spec (fld p 18 6); let ty ← fty (fld p 0 3); return .vsfSin t d a (fin8 p 3) ty
  | 0x0d => do short l; zero p 6 12; let d ← spec (fld p 24 6); let a ← spec (fld p 18 6); let ty ← fty (fld p 0 3); return .vsfCos t d a (fin8 p 3) ty
  | 0x0e => do short l; zero p 6 12; let d ← spec (fld p 24 6); let a ← spec (fld p 18 6); let ty ← fty (fld p 0 3); return .vsfTanh t d a (fin8 p 3) ty
  | 0x0f => do short l; zero p 6 12; let d ← spec (fld p 24 6); let a ← spec (fld p 18 6); let ty ← fty (fld p 0 3); return .vsfErf t d a (fin8 p 3) ty
  | 0x10 => do short l; zero p 6 12; let d ← spec (fld p 24 6); let a ← spec (fld p 18 6); let ty ← fty (fld p 0 3); return .vsfSigm t d a (fin8 p 3) ty
  | 0x11 => do short l; zero p 6 6; let d ← spec (fld p 24 6); let a ← spec (fld p 18 6); let b ← spec (fld p 12 6); let ty ← fty (fld p 0 3); return .vmin t d a b (fin8 p 3) ty
  | 0x12 => do short l; zero p 6 6; let d ← spec (fld p 24 6); let a ← spec (fld p 18 6); let b ← spec (fld p 12 6); let ty ← fty (fld p 0 3); return .vminP t d a b (fin8 p 3) ty
  | 0x13 => do short l; zero p 6 6; let d ← spec (fld p 24 6); let a ← spec (fld p 18 6); let b ← spec (fld p 12 6); let ty ← fty (fld p 0 3); return .vmax t d a b (fin8 p 3) ty
  | 0x14 => do short l; zero p 6 6; let d ← spec (fld p 24 6); let a ← spec (fld p 18 6); let b ← spec (fld p 12 6); let ty ← fty (fld p 0 3); return .vmaxP t d a b (fin8 p 3) ty
  | 0x15 => do short l; let d ← maskReg (fld p 24 6); let a ← spec (fld p 18 6); let b ← spec (fld p 12 6); let c ← vcond (fld p 6 6); let ty ← fty (fld p 0 3); return .vcmp t d a b c (fin8 p 3) ty
  | 0x16 => do short l; zero p 0 3; zero p 6 6; let d ← spec (fld p 24 6); let a ← spec (fld p 18 6); let b ← spec (fld p 12 6); return .vsel t d a b (fin8 p 3)
  | 0x17 => do short l; zero p 0 3; zero p 6 12; let d ← spec (fld p 24 6); let a ← spec (fld p 18 6); return .vmov t d a (fin8 p 3)
  | 0x18 => do long l; zero p 0 3; zero p 6 18; zero q 32 16; let d ← spec (fld p 24 6); return .vmovI t d (fin8 p 3) (bv 32 q 0)
  | 0x19 => do short l; zero p 9 1; zero p 12 6; let d ← spec (fld p 24 6); let a ← spec (fld p 18 6); let dst ← dty (fld p 11 1) (fld p 0 3); let src ← dty (fld p 10 1) (fld p 6 3); return .vcvt t d a (fin8 p 3) dst src
  | 0x1a => do short l; zero p 6 6; let d ← spec (fld p 24 6); let a ← spec (fld p 18 6); let b ← spec (fld p 12 6); return .viadd t d a b (fin8 p 3) (ity p 0)
  | 0x1b => do short l; zero p 6 6; let d ← spec (fld p 24 6); let a ← spec (fld p 18 6); let b ← spec (fld p 12 6); return .viaddS t d a b (fin8 p 3) (ity p 0)
  | 0x1c => do short l; zero p 6 6; let d ← spec (fld p 24 6); let a ← spec (fld p 18 6); let b ← spec (fld p 12 6); return .visub t d a b (fin8 p 3) (ity p 0)
  | 0x1d => do short l; zero p 6 6; let d ← spec (fld p 24 6); let a ← spec (fld p 18 6); let b ← spec (fld p 12 6); return .visubS t d a b (fin8 p 3) (ity p 0)
  | 0x1e => do short l; zero p 6 6; let d ← spec (fld p 24 6); let a ← spec (fld p 18 6); let b ← spec (fld p 12 6); return .vimul t d a b (fin8 p 3) (ity p 0)
  | 0x1f => do short l; zero p 6 6; let d ← spec (fld p 24 6); let a ← spec (fld p 18 6); let b ← spec (fld p 12 6); return .vimulS t d a b (fin8 p 3) (ity p 0)
  | 0x20 => do short l; zero p 6 6; let d ← spec (fld p 24 6); let a ← spec (fld p 18 6); let b ← spec (fld p 12 6); return .vimulHi t d a b (fin8 p 3) (ity p 0)
  | 0x21 => do short l; zero p 6 6; let d ← spec (fld p 24 6); let a ← spec (fld p 18 6); let b ← spec (fld p 12 6); return .vimin t d a b (fin8 p 3) (ity p 0)
  | 0x22 => do short l; zero p 6 6; let d ← spec (fld p 24 6); let a ← spec (fld p 18 6); let b ← spec (fld p 12 6); return .vimax t d a b (fin8 p 3) (ity p 0)
  | 0x23 => do short l; let d ← maskReg (fld p 24 6); let a ← spec (fld p 18 6); let b ← spec (fld p 12 6); let c ← vcond (fld p 6 6); return .vicmp t d a b c (fin8 p 3) (ity p 0)
  | 0x24 => do short l; zero p 0 3; zero p 6 6; let d ← spec (fld p 24 6); let a ← spec (fld p 18 6); let b ← spec (fld p 12 6); return .vand t d a b (fin8 p 3)
  | 0x25 => do short l; zero p 0 3; zero p 6 6; let d ← spec (fld p 24 6); let a ← spec (fld p 18 6); let b ← spec (fld p 12 6); return .vor t d a b (fin8 p 3)
  | 0x26 => do short l; zero p 0 3; zero p 6 6; let d ← spec (fld p 24 6); let a ← spec (fld p 18 6); let b ← spec (fld p 12 6); return .vxor t d a b (fin8 p 3)
  | 0x27 => do short l; zero p 6 6; let d ← spec (fld p 24 6); let a ← spec (fld p 18 6); let b ← spec (fld p 12 6); return .vshl t d a b (fin8 p 3) (ity p 0)
  | 0x28 => do short l; zero p 6 6; let d ← spec (fld p 24 6); let a ← spec (fld p 18 6); let b ← spec (fld p 12 6); return .vshr t d a b (fin8 p 3) (ity p 0)
  | 0x29 => do short l; zero p 12 6; let d ← spec (fld p 24 6); let a ← spec (fld p 18 6); return .vshlI t d a (bv 6 p 6) (fin8 p 3) (ity p 0)
  | 0x2a => do short l; zero p 12 6; let d ← spec (fld p 24 6); let a ← spec (fld p 18 6); return .vshrI t d a (bv 6 p 6) (fin8 p 3) (ity p 0)
  | 0x30 => do short l; zero p 0 3; zero p 6 6; let d ← spec (fld p 24 6); let a ← spec (fld p 18 6); let b ← spec (fld p 12 6); return .vpermb t d a b (fin8 p 3)
  | 0x31 => do short l; zero p 0 3; zero p 12 6; let d ← spec (fld p 24 6); let a ← spec (fld p 18 6); return .vrotr t d a (bv 6 p 6) (fin8 p 3)
  | 0x32 => do short l; zero p 0 3; zero p 12 6; let d ← spec (fld p 24 6); let a ← spec (fld p 18 6); return .vrotc t d a (bv 6 p 6) (fin8 p 3)
  | 0x33 => do short l; zero p 0 3; zero p 12 6; let d ← spec (fld p 24 6); let a ← spec (fld p 18 6); return .vbcr t d a (bv 6 p 6) (fin8 p 3)
  | 0x34 => do short l; zero p 0 3; zero p 12 6; let d ← spec (fld p 24 6); let a ← spec (fld p 18 6); return .vbcc t d a (bv 6 p 6) (fin8 p 3)
  | 0x35 => do short l; zero p 6 5; zero p 12 6; let d ← spec (fld p 24 6); let a ← spec (fld p 18 6); let ty ← dty (fld p 11 1) (fld p 0 3); return .vredrAdd t d a (fin8 p 3) ty
  | 0x36 => do short l; zero p 6 5; zero p 12 6; let d ← spec (fld p 24 6); let a ← spec (fld p 18 6); let ty ← dty (fld p 11 1) (fld p 0 3); return .vredrMax t d a (fin8 p 3) ty
  | 0x37 => do short l; zero p 6 5; zero p 12 6; let d ← spec (fld p 24 6); let a ← spec (fld p 18 6); let ty ← dty (fld p 11 1) (fld p 0 3); return .vredrMin t d a (fin8 p 3) ty
  | 0x38 => do short l; zero p 6 5; zero p 12 6; let d ← spec (fld p 24 6); let a ← spec (fld p 18 6); let ty ← dty (fld p 11 1) (fld p 0 3); return .vredcAdd t d a (fin8 p 3) ty
  | 0x39 => do short l; zero p 6 5; zero p 12 6; let d ← spec (fld p 24 6); let a ← spec (fld p 18 6); let ty ← dty (fld p 11 1) (fld p 0 3); return .vredcMax t d a (fin8 p 3) ty
  | 0x3a => do short l; zero p 6 5; zero p 12 6; let d ← spec (fld p 24 6); let a ← spec (fld p 18 6); let ty ← dty (fld p 11 1) (fld p 0 3); return .vredcMin t d a (fin8 p 3) ty
  | 0x3b => do short l; zero p 6 5; zero p 12 6; let d ← spec (fld p 24 6); let a ← spec (fld p 18 6); let ty ← dty (fld p 11 1) (fld p 0 3); return .vscanrAdd t d a (fin8 p 3) ty
  | 0x3c => do short l; zero p 6 5; zero p 12 6; let d ← spec (fld p 24 6); let a ← spec (fld p 18 6); let ty ← dty (fld p 11 1) (fld p 0 3); return .vscanrMax t d a (fin8 p 3) ty
  | 0x3d => do short l; zero p 6 5; zero p 12 6; let d ← spec (fld p 24 6); let a ← spec (fld p 18 6); let ty ← dty (fld p 11 1) (fld p 0 3); return .vscancAdd t d a (fin8 p 3) ty
  | 0x3e => do short l; zero p 6 5; zero p 12 6; let d ← spec (fld p 24 6); let a ← spec (fld p 18 6); let ty ← dty (fld p 11 1) (fld p 0 3); return .vscancMax t d a (fin8 p 3) ty
  | 0x3f => do short l; zero p 0 3; zero p 6 12; let d ← spec (fld p 24 6); let a ← spec (fld p 18 6); return .vtrn t d a (fin8 p 3)
  | 0x40 => do short l; zero p 6 12; let d ← spec (fld p 24 6); let a ← spec (fld p 18 6); return .viota t d a (fin8 p 3) (ity p 0)
  | 0x41 => do short l; zero p 0 3; zero p 6 6; let d ← spec (fld p 24 6); let a ← spec (fld p 18 6); let b ← spec (fld p 12 6); return .vspl t d a b (fin8 p 3)
  | 0x42 => do short l; zero p 0 3; zero p 6 6; let d ← spec (fld p 24 6); let a ← spec (fld p 18 6); let b ← spec (fld p 12 6); return .vext t d a b (fin8 p 3)
  | 0x43 => do short l; zero p 0 3; zero p 6 6; let d ← spec (fld p 24 6); let a ← spec (fld p 18 6); let b ← spec (fld p 12 6); return .vins t d a b (fin8 p 3)
  | 0x44 => do short l; zero p 6 5; let d ← spec (fld p 24 6); let a ← spec (fld p 18 6); let b ← spec (fld p 12 6); let ty ← dty (fld p 11 1) (fld p 0 3); return .vpack t d a b (fin8 p 3) ty
  | 0x45 => do short l; zero p 6 5; let d ← spec (fld p 24 6); let a ← spec (fld p 18 6); let b ← spec (fld p 12 6); let ty ← dty (fld p 11 1) (fld p 0 3); return .vunpk t d a b (fin8 p 3) ty
  | 0x46 => do short l; zero p 12 6; let d ← spec (fld p 24 6); let a ← spec (fld p 18 6); let ty ← fty (fld p 0 3); return .vspz t d a (bv 6 p 6) (fin8 p 3) ty
  | 0x48 => do short l; zero p 0 6; let d ← maskReg (fld p 24 6); let a ← maskReg (fld p 18 6); let b ← maskReg (fld p 12 6); let op ← maskOp (fld p 6 6); return .vmop t d a b op
  | 0x49 => do short l; zero p 0 3; zero p 12 12; let d ← spec (fld p 24 6); return .vmcnt t d (bv 6 p 6) (fin8 p 3)
  | 0x4a => do short l; zero p 0 3; zero p 6 18; let d ← spec (fld p 24 6); return .vrand t d (fin8 p 3)
  | 0x4b => do short l; zero p 6 18; let d ← spec (fld p 24 6); let ty ← fty (fld p 0 3); return .vrandU t d (fin8 p 3) ty
  | _ => .error .badOpcode

/-- The opcode map of MX, and the fate of its reserved slots (R93, R96 to R101). -/
def decMx (opc : Nat) (l : Bool) (t : Tok) (p q : Nat) : Dec :=
  match opc with
  | 0x00 => do short l; zero p 0 9; zero p 15 3; return .mzero t (bv 12 p 18) (bv 6 p 9)
  | 0x01 => do short l; zero p 0 3; zero p 6 9; zero p 18 12; let it ← inTy (fld p 3 3); return .mwld t (fin8 p 15) it
  | 0x02 => do short l; zero p 0 3; zero p 6 9; zero p 18 12; let it ← inTy (fld p 3 3); return .mwldS4 t (fin8 p 15) it
  | 0x03 => do short l; zero p 0 3; zero p 6 9; zero p 18 12; let it ← inTy (fld p 3 3); return .mwldS2 t (fin8 p 15) it
  | 0x04 => do short l; zero p 0 3; zero p 6 9; zero p 18 12; let it ← inTy (fld p 3 3); return .mwldS1 t (fin8 p 15) it
  | 0x05 => do short l; zero p 1 1; let shp ← shape (fld p 6 3); let it ← inTy (fld p 3 3); return .mmul t (bv 12 p 18) (fin8 p 15) (bv 6 p 9) shp it (bit p 0) (bit p 2)
  | 0x06 => do long l; zero p 6 3; zero q 15 33; let it ← inTy (fld p 3 3); return .matt t (bv 12 p 18) (fin8 p 15) (bv 6 p 9) it (bit p 0) (bit p 1) (bit p 2) (bv 12 q 0) (fin8 q 12)
  | 0x07 => do short l; zero p 1 8; return .mdrn t (bv 12 p 18) (fin8 p 15) (bv 6 p 9) (bit p 0)
  | 0x08 => do short l; zero p 0 9; return .mdrnF t (bv 12 p 18) (fin8 p 15) (bv 6 p 9)
  | 0x09 => do short l; zero p 0 9; return .mdrnSm t (bv 12 p 18) (fin8 p 15) (bv 6 p 9)
  | 0x0a => do short l; zero p 0 15; zero p 18 12; return .mepi t (fin8 p 15)
  | 0x0b => do short l; zero p 0 15; zero p 18 12; return .macfg t (fin8 p 15)
  | _ => .error .badOpcode

/-- The opcode map of AS, and the fate of its reserved slots (R93, R96 to R101). -/
def decAs (opc : Nat) (l : Bool) (t : Tok) (p _q : Nat) : Dec :=
  match opc with
  | 0x01 => do short l; zero p 0 20; return .xcp t (fin32 p 25) (fin32 p 20)
  | 0x02 => do short l; zero p 0 20; return .xcpCvt t (fin32 p 25) (fin32 p 20)
  | 0x03 => do short l; zero p 0 20; return .xcpMc t (fin32 p 25) (fin32 p 20)
  | 0x04 => do short l; zero p 0 20; return .xcpKv t (fin32 p 25) (fin32 p 20)
  | 0x08 => do short l; zero p 0 20; return .xaccAdd t (fin32 p 25) (fin32 p 20)
  | 0x09 => do short l; zero p 0 20; return .xaccMin t (fin32 p 25) (fin32 p 20)
  | 0x0a => do short l; zero p 0 20; return .xaccMax t (fin32 p 25) (fin32 p 20)
  | 0x0b => do short l; zero p 0 20; return .xaccAnd t (fin32 p 25) (fin32 p 20)
  | 0x0c => do short l; zero p 0 20; return .xaccOr t (fin32 p 25) (fin32 p 20)
  | 0x0d => do short l; zero p 0 20; return .xaccXor t (fin32 p 25) (fin32 p 20)
  | 0x10 => do short l; zero p 0 20; return .xatomAdd t (fin32 p 25) (fin32 p 20)
  | 0x11 => do short l; zero p 0 20; return .xatomMin t (fin32 p 25) (fin32 p 20)
  | 0x12 => do short l; zero p 0 20; return .xatomMax t (fin32 p 25) (fin32 p 20)
  | 0x13 => do short l; zero p 0 20; return .xatomAnd t (fin32 p 25) (fin32 p 20)
  | 0x14 => do short l; zero p 0 20; return .xatomOr t (fin32 p 25) (fin32 p 20)
  | 0x15 => do short l; zero p 0 20; return .xatomXor t (fin32 p 25) (fin32 p 20)
  | 0x16 => do short l; zero p 0 20; return .xatomSwap t (fin32 p 25) (fin32 p 20)
  | 0x17 => do short l; zero p 0 20; return .xatomCas t (fin32 p 25) (fin32 p 20)
  | 0x18 => do short l; zero p 0 20; return .xfill t (fin32 p 25) (fin32 p 20)
  | 0x19 => do short l; zero p 0 14; zero p 20 5; let v ← spec (fld p 14 6); return .vatomAdd t (fin32 p 25) v
  | 0x1a => do short l; zero p 0 14; zero p 20 5; let v ← spec (fld p 14 6); return .vatomMin t (fin32 p 25) v
  | 0x1b => do short l; zero p 0 14; zero p 20 5; let v ← spec (fld p 14 6); return .vatomMax t (fin32 p 25) v
  | 0x1c => do short l; zero p 0 14; zero p 20 5; let v ← spec (fld p 14 6); return .vatomAnd t (fin32 p 25) v
  | 0x1d => do short l; zero p 0 14; zero p 20 5; let v ← spec (fld p 14 6); return .vatomOr t (fin32 p 25) v
  | 0x1e => do short l; zero p 0 14; zero p 20 5; let v ← spec (fld p 14 6); return .vatomXor t (fin32 p 25) v
  | 0x20 => do short l; zero p 0 25; return .binit t (fin32 p 25)
  | 0x21 => do short l; zero p 0 20; zero p 25 5; return .barv t (fin32 p 20)
  | 0x22 => do short l; zero p 1 19; zero p 25 5; return .bwait t (fin32 p 20) (bit p 0)
  | 0x24 => do short l; zero p 0 25; return .rngcfg t (fin32 p 25)
  | 0x25 => do short l; zero p 19 1; zero p 25 5; return .rngwf t (fin32 p 20) (bv 19 p 0)
  | 0x26 => do short l; zero p 19 1; zero p 25 5; return .rngwe t (fin32 p 20) (bv 19 p 0)
  | 0x27 => do short l; zero p 0 20; zero p 25 5; return .rngpub t (fin32 p 20)
  | 0x28 => do short l; zero p 0 20; zero p 25 5; return .rngrel t (fin32 p 20)
  | 0x2c => do short l; zero p 0 25; return .btld t (fin32 p 25)
  | 0x2d => do short l; zero p 0 25; return .btlk t (fin32 p 25)
  | 0x2e => do short l; zero p 0 25; return .btinv t (fin32 p 25)
  | 0x30 => do short l; zero p 0 25; return .balloc t (fin32 p 25)
  | 0x31 => do short l; zero p 0 25; return .bfree t (fin32 p 25)
  | 0x32 => do short l; zero p 0 25; return .bref t (fin32 p 25)
  | 0x33 => do short l; zero p 0 25; return .btopen t (fin32 p 25)
  | 0x34 => do short l; zero p 0 25; return .btclose t (fin32 p 25)
  | 0x35 => do short l; zero p 0 25; return .btapp t (fin32 p 25)
  | 0x36 => do short l; zero p 0 25; return .btfork t (fin32 p 25)
  | 0x37 => do short l; zero p 0 25; return .bttrim t (fin32 p 25)
  | 0x38 => do short l; zero p 0 25; return .btcmt t (fin32 p 25)
  | 0x39 => do short l; zero p 0 25; return .bhfind t (fin32 p 25)
  | 0x3a => do short l; zero p 0 25; return .bhpub t (fin32 p 25)
  | 0x40 => do short l; zero p 0 25; return .itbind t (fin32 p 25)
  | 0x41 => do short l; zero p 0 25; return .itgo t (fin32 p 25)
  | 0x42 => do short l; zero p 0 25; return .itstat t (fin32 p 25)
  | 0x43 => do short l; zero p 0 25; return .objplace t (fin32 p 25)
  | 0x44 => do short l; zero p 0 25; return .objpin t (fin32 p 25)
  | 0x48 => do short l; zero p 0 25; return .rgcfg t (fin32 p 25)
  | 0x49 => do short l; zero p 0 25; return .rgpush t (fin32 p 25)
  | 0x4a => do short l; zero p 0 25; return .rgtakeTake t (fin32 p 25)
  | 0x50 => do short l; zero p 0 25; return .smbind t (fin32 p 25)
  | 0x51 => do short l; zero p 0 25; return .smrun t (fin32 p 25)
  | 0x52 => do short l; zero p 0 25; return .clrslow t (fin32 p 25)
  | 0x53 => do short l; zero p 0 25; return .smstat t (fin32 p 25)
  | 0x58 => do short l; zero p 0 25; return .lnrun t (fin32 p 25)
  | 0x59 => do short l; zero p 0 25; return .lnstat t (fin32 p 25)
  | _ => .error .badOpcode

/-- The instruction of a first parcel p and the parcel q after it; q is used by long opcodes only (R75, R76,
R93; the order of the checks is that of R94, steps 1 and 2). -/
def decodeParcels (p q : Nat) : Dec := do
  let l := bit p 47
  let opc := fld p 37 7
  let w ← tokCode (fld p 34 3)
  let g ← tokCode (fld p 31 3)
  let t : Tok := ⟨w, g⟩
  if fld p 30 1 = 1 then .error .bit30 else
  match fld p 44 3 with
  | 0 => decSc opc l t p q
  | 1 => decLd opc l t p q
  | 2 => decSt opc l t p q
  | 3 => decVx opc l t p q
  | 4 => decMx opc l t p q
  | 5 => decAs opc l t p q
  | _ => .error .badEngine

/-- The fields of a Lantern data step (R346). -/
def lnData (w : Nat) : Except Reject LnData := do
  zero w 0 9
  if fld w 58 2 = 3 then .error .badStep else
  if fld w 27 2 = 3 then .error .badStep else
  if fld w 9 2 = 3 then .error .badStep else
  return { cv := bv 2 w 58, par := bit w 57, ls := bv 2 w 55, px := bit w 54, pa := bv 12 w 42, pb := bv 12 w 30,
           ck := bit w 29, ca := bv 2 w 27, cb := bv 4 w 23, d := bv 8 w 15, ch := bv 4 w 11, rop := bv 2 w 9 }

/-- A loop counter's code (R346). -/
def lnK (w : Nat) : Except Reject (Fin 3) :=
  match fld w 56 2 with | 0 => .ok 0 | 1 => .ok 1 | 2 => .ok 2 | _ => .error .badStep

/-- The Lantern step of a 64-bit word (R346). -/
def decodeStep (w : Nat) : Dec :=
  match fld w 60 4 with
  | 1 => do let f ← lnData w; return .lnsend f
  | 2 => do let f ← lnData w; return .lnrecv f
  | 3 => do let f ← lnData w; return .lnrrs f
  | 4 => do let f ← lnData w; return .lncopy f
  | 5 => do zero w 33 27; return .lnwait (bv 32 w 0) (bit w 32)
  | 6 => do zero w 32 28; return .lnsig (bv 32 w 0)
  | 7 => do zero w 32 24; zero w 58 2; let k ← lnK w; return .lnloop k (bv 32 w 0)
  | 8 => do zero w 0 56; zero w 58 2; let k ← lnK w; return .lnendl k
  | 9 => do zero w 0 60; return .lnend
  | _ => .error .badStep

/-- A little-endian number of the first n bytes of a list; missing bytes are none (R5). -/
def leNat : Nat → List Byte → Option Nat
  | 0, _ => some 0
  | _ + 1, [] => none
  | n + 1, b :: bs => (leNat n bs).map fun x => b.toNat + 256 * x

/-- The instruction at the head of a list of text bytes, with the bytes after it (R41, R75, R76). -/
def decodeBytes (bs : List Byte) : Except Reject (Instr × List Byte) :=
  match leNat 6 bs with
  | none => .error .shortText
  | some p =>
    if bit p 47 then
      match leNat 6 (bs.drop 6) with
      | none => .error .shortText
      | some q => (decodeParcels p q).map fun i => (i, bs.drop 12)
    else (decodeParcels p 0).map fun i => (i, bs.drop 6)

/-- Byte k of a number, counted from the least significant (R5). -/
def byteOf (n k : Nat) : Byte := BitVec.ofNat 8 (n / 2 ^ (8 * k))

/-- The n low bytes of a number, least significant first (R5). -/
def leBytes (n : Nat) (x : Nat) : List Byte := (List.range n).map (byteOf x)

/-- The instruction whose bits are w, numbered as spec/opcode_table.json numbers them: a Lantern step of 64
bits, or the first parcel in bits 47..0 with a second parcel above it. The bytes of a parcel instruction are
laid out as the text holds them and given to the decoder. -/
def decodeTableWord (nbits w : Nat) : Option Instr :=
  if nbits = 64 then (decodeStep w).toOption
  else ((decodeBytes (leBytes 12 w)).map (·.1)).toOption

/-! The encoder, from the same tables. -/

def tokNum : Option Engine → Nat
  | none => 0 | some .sc => 1 | some .ld => 2 | some .st => 3 | some .vx => 4 | some .mx => 5 | some .asy => 6

def specCode : VSpec → Nat
  | .v n => n.val | .w n => 0x20 + n.val | .z n => 0x28 + n.val | .q n => 0x30 + n.val

def ftyCode : FTy → Nat
  | .f32 => 0 | .bf16 => 1 | .f16 => 2 | .e4m3 => 3 | .e5m2 => 4 | .e2m1 => 5 | .e8m0 => 6

def ityCode : ITy → Nat
  | .i32 => 0 | .ui32 => 1 | .i16 => 2 | .ui16 => 3 | .i8 => 4 | .ui8 => 5 | .i4 => 6 | .ui4 => 7

def dtyCode : DTy → Nat
  | .f t => ftyCode t | .i t => ityCode t

def dtyDom : DTy → Nat
  | .f _ => 0 | .i _ => 1

def condCode : Cond → Nat
  | .eq => 0 | .ne => 1 | .lt => 2 | .ge => 3 | .ltu => 4 | .geu => 5 | .gt => 6 | .le => 7 | .gtu => 8 | .leu => 9

def vcondCode : VCond → Nat
  | .eq => 0 | .ne => 1 | .lt => 2 | .le => 3 | .gt => 4 | .ge => 5 | .unord => 6 | .ord => 7

def scopeCode : Scope → Nat
  | .core => 0 | .cluster => 1 | .die => 2 | .package => 3 | .fabric => 4 | .system => 5

def shapeCode : Shape → Nat
  | .s11 => 0 | .s12 => 1 | .s21 => 2 | .s22 => 3 | .s14 => 4 | .s24 => 5

def inTyCode : InTy → Nat
  | .e4m3 => 0 | .e5m2 => 1 | .i8 => 2 | .e2m1 => 3 | .i4 => 4 | .bf16 => 5 | .f16 => 6

def maskOpCode : MOp → Nat
  | .and => 0 | .or => 1 | .xor => 2 | .andn => 3 | .not => 4 | .mov => 5 | .set => 6 | .clr => 7

def spaceCode : Space → Nat
  | .loc => 0 | .acc => 1 | .clu => 2 | .pkg => 3

def etMCode : EtM → Nat
  | .b32 => 0 | .b16 => 1 | .b16s => 2 | .b8 => 3 | .b8s => 4 | .b4 => 5 | .b4s => 6 | .raw => 7

/-- A field placed at bit lo (R4). -/
def put (x lo : Nat) : Nat := x * 2 ^ lo

/-- The head of a first parcel: L, ENG, OPC, WAIT and SIG (R75). -/
def head (l : Bool) (eng opc : Nat) (t : Tok) : Nat :=
  put l.toNat 47 + put eng 44 + put opc 37 + put (tokNum t.wait) 34 + put (tokNum t.sig) 31

/-- The word of a Lantern data step (R346). -/
def lnWord (op : Nat) (f : LnData) : Nat :=
  put op 60 + put f.cv.toNat 58 + put f.par.toNat 57 + put f.ls.toNat 55 + put f.px.toNat 54 +
  put f.pa.toNat 42 + put f.pb.toNat 30 + put f.ck.toNat 29 + put f.ca.toNat 27 + put f.cb.toNat 23 +
  put f.d.toNat 15 + put f.ch.toNat 11 + put f.rop.toNat 9

/-- The words of an instruction: its one or two parcels, or its one Lantern word. A machine event has no
encoding, and its list is empty. -/
def encode : Instr → List Nat
  | .nop t => [head false 0 0x00 t]
  | .add t d a b => [head false 0 0x01 t + put d.val 25 + put a.val 20 + put b.val 15]
  | .addS t d a b => [head false 0 0x02 t + put d.val 25 + put a.val 20 + put b.val 15]
  | .addUs t d a b => [head false 0 0x03 t + put d.val 25 + put a.val 20 + put b.val 15]
  | .addI t d a imm => [head false 0 0x04 t + put d.val 25 + put a.val 20 + imm.toNat]
  | .sub t d a b => [head false 0 0x05 t + put d.val 25 + put a.val 20 + put b.val 15]
  | .subS t d a b => [head false 0 0x06 t + put d.val 25 + put a.val 20 + put b.val 15]
  | .subUs t d a b => [head false 0 0x07 t + put d.val 25 + put a.val 20 + put b.val 15]
  | .mul t d a b => [head false 0 0x08 t + put d.val 25 + put a.val 20 + put b.val 15]
  | .mulS t d a b => [head false 0 0x09 t + put d.val 25 + put a.val 20 + put b.val 15]
  | .mulHi t d a b => [head false 0 0x0a t + put d.val 25 + put a.val 20 + put b.val 15]
  | .mulHu t d a b => [head false 0 0x0b t + put d.val 25 + put a.val 20 + put b.val 15]
  | .mulI t d a imm => [head false 0 0x0c t + put d.val 25 + put a.val 20 + imm.toNat]
  | .div t d a b => [head false 0 0x0d t + put d.val 25 + put a.val 20 + put b.val 15]
  | .divU t d a b => [head false 0 0x0e t + put d.val 25 + put a.val 20 + put b.val 15]
  | .divR t d a b => [head false 0 0x0f t + put d.val 25 + put a.val 20 + put b.val 15]
  | .divRu t d a b => [head false 0 0x10 t + put d.val 25 + put a.val 20 + put b.val 15]
  | .and t d a b => [head false 0 0x11 t + put d.val 25 + put a.val 20 + put b.val 15]
  | .andI t d a imm => [head false 0 0x12 t + put d.val 25 + put a.val 20 + imm.toNat]
  | .or t d a b => [head false 0 0x13 t + put d.val 25 + put a.val 20 + put b.val 15]
  | .orI t d a imm => [head false 0 0x14 t + put d.val 25 + put a.val 20 + imm.toNat]
  | .xor t d a b => [head false 0 0x15 t + put d.val 25 + put a.val 20 + put b.val 15]
  | .xorI t d a imm => [head false 0 0x16 t + put d.val 25 + put a.val 20 + imm.toNat]
  | .shl t d a b => [head false 0 0x17 t + put d.val 25 + put a.val 20 + put b.val 15]
  | .shlI t d a k => [head false 0 0x18 t + put d.val 25 + put a.val 20 + k.toNat]
  | .shr t d a b => [head false 0 0x19 t + put d.val 25 + put a.val 20 + put b.val 15]
  | .shrI t d a k => [head false 0 0x1a t + put d.val 25 + put a.val 20 + k.toNat]
  | .shrA t d a b => [head false 0 0x1b t + put d.val 25 + put a.val 20 + put b.val 15]
  | .shrAi t d a k => [head false 0 0x1c t + put d.val 25 + put a.val 20 + k.toNat]
  | .cmp t d a b c => [head false 0 0x1d t + put d.val 25 + put a.val 20 + put b.val 15 + condCode c]
  | .sel t d a b c => [head false 0 0x1e t + put d.val 25 + put a.val 20 + put b.val 15 + put c.val 10]
  | .min t d a b => [head false 0 0x1f t + put d.val 25 + put a.val 20 + put b.val 15]
  | .minU t d a b => [head false 0 0x20 t + put d.val 25 + put a.val 20 + put b.val 15]
  | .max t d a b => [head false 0 0x21 t + put d.val 25 + put a.val 20 + put b.val 15]
  | .maxU t d a b => [head false 0 0x22 t + put d.val 25 + put a.val 20 + put b.val 15]
  | .bits t d a pos wid => [head false 0 0x23 t + put d.val 25 + put a.val 20 + put pos.toNat 6 + wid.toNat]
  | .bitsS t d a pos wid => [head false 0 0x24 t + put d.val 25 + put a.val 20 + put pos.toNat 6 + wid.toNat]
  | .bitsIns t d a pos wid => [head false 0 0x25 t + put d.val 25 + put a.val 20 + put pos.toNat 6 + wid.toNat]
  | .bitsCnt t d a => [head false 0 0x26 t + put d.val 25 + put a.val 20]
  | .bitsClz t d a => [head false 0 0x27 t + put d.val 25 + put a.val 20]
  | .mov t d a => [head false 0 0x28 t + put d.val 25 + put a.val 20]
  | .movQw t a q => [head false 0 0x29 t + put a.val 20 + q.val]
  | .movQr t d q => [head false 0 0x2a t + put d.val 25 + q.val]
  | .movi t d imm => [head false 0 0x2b t + put d.val 25 + imm.toNat]
  | .moviL t d imm hi => [head true 0 0x2c t + put d.val 25 + imm.toNat, hi.toNat]
  | .apat t a b p => [head false 0 0x2d t + put a.val 20 + put b.val 15 + p.val]
  | .br t c a b off => [head false 0 0x30 t + put (condCode c) 26 + put a.val 21 + put b.val 16 + off.toNat]
  | .jmp t off => [head false 0 0x31 t + off.toNat]
  | .jmpR t a => [head false 0 0x32 t + put a.val 21]
  | .jmpL t tgt => [head true 0 0x33 t, tgt.toNat]
  | .call t a off => [head false 0 0x34 t + put a.val 21 + off.toNat]
  | .callR t a b => [head false 0 0x35 t + put a.val 21 + put b.val 16]
  | .callL t a tgt => [head true 0 0x36 t + put a.val 21, tgt.toNat]
  | .ret t a => [head false 0 0x37 t + put a.val 21]
  | .loop t n off => [head false 0 0x38 t + put n.toNat 16 + off.toNat]
  | .loopR t a off => [head false 0 0x39 t + put a.val 21 + off.toNat]
  | .sld t d a fn => [head false 0 0x3a t + put d.val 25 + put a.val 20 + fn.toNat]
  | .sldW t d a fn => [head false 0 0x3b t + put d.val 25 + put a.val 20 + fn.toNat]
  | .sldWs t d a fn => [head false 0 0x3c t + put d.val 25 + put a.val 20 + fn.toNat]
  | .sst t a b fn => [head false 0 0x3d t + put a.val 20 + put b.val 15 + fn.toNat]
  | .sstW t a b fn => [head false 0 0x3e t + put a.val 20 + put b.val 15 + fn.toNat]
  | .getsr t d n => [head false 0 0x40 t + put d.val 25 + n.toNat]
  | .setsr t a n => [head false 0 0x41 t + put a.val 20 + n.toNat]
  | .trap t n => [head false 0 0x42 t + n.toNat]
  | .bkpt t n => [head false 0 0x43 t + n.toNat]
  | .tend t => [head false 0 0x44 t]
  | .tspawn t a => [head false 0 0x45 t + put a.val 20]
  | .tjoin t a => [head false 0 0x46 t + put a.val 20]
  | .yield t => [head false 0 0x47 t]
  | .fenceAcq t sc => [head false 0 0x48 t + scopeCode sc]
  | .fenceRel t sc => [head false 0 0x49 t + scopeCode sc]
  | .fence t sc => [head false 0 0x4a t + scopeCode sc]
  | .mark t => [head false 0 0x4b t]
  | .quies t => [head false 0 0x4c t]
  | .notify t a => [head false 0 0x4d t + put a.val 20]
  | .gpget t d n => [head false 0 0x4e t + put d.val 25 + n.val]
  | .gpset t a n => [head false 0 0x4f t + put a.val 20 + n.val]
  | .vld t r p rep st sp et => [head false 1 0x00 t + put (specCode r) 24 + put p.val 21 + put rep.toNat 15 + put st.toNat 5 + put (spaceCode sp) 3 + etMCode et]
  | .vldx t r p rep st sp et colp => [head true 1 0x01 t + put (specCode r) 24 + put p.val 21 + put rep.toNat 15 + put st.toNat 5 + put (spaceCode sp) 3 + etMCode et, colp.toNat]
  | .vst t r p rep st sp et => [head false 2 0x00 t + put (specCode r) 24 + put p.val 21 + put rep.toNat 15 + put st.toNat 5 + put (spaceCode sp) 3 + etMCode et]
  | .vstx t r p rep st sp et colp => [head true 2 0x01 t + put (specCode r) 24 + put p.val 21 + put rep.toNat 15 + put st.toNat 5 + put (spaceCode sp) 3 + etMCode et, colp.toNat]
  | .vadd t d a b m ty => [head false 3 0x01 t + put (specCode d) 24 + put (specCode a) 18 + put (specCode b) 12 + put m.val 3 + ftyCode ty]
  | .vsub t d a b m ty => [head false 3 0x02 t + put (specCode d) 24 + put (specCode a) 18 + put (specCode b) 12 + put m.val 3 + ftyCode ty]
  | .vmul t d a b m ty => [head false 3 0x03 t + put (specCode d) 24 + put (specCode a) 18 + put (specCode b) 12 + put m.val 3 + ftyCode ty]
  | .vfma t d a b c m ty => [head false 3 0x04 t + put (specCode d) 24 + put (specCode a) 18 + put (specCode b) 12 + put (specCode c) 6 + put m.val 3 + ftyCode ty]
  | .vfmaNm t d a b c m ty => [head false 3 0x05 t + put (specCode d) 24 + put (specCode a) 18 + put (specCode b) 12 + put (specCode c) 6 + put m.val 3 + ftyCode ty]
  | .vdiv t d a b m ty => [head false 3 0x06 t + put (specCode d) 24 + put (specCode a) 18 + put (specCode b) 12 + put m.val 3 + ftyCode ty]
  | .vsqrt t d a m ty => [head false 3 0x07 t + put (specCode d) 24 + put (specCode a) 18 + put m.val 3 + ftyCode ty]
  | .vsfExp2 t d a m ty => [head false 3 0x08 t + put (specCode d) 24 + put (specCode a) 18 + put m.val 3 + ftyCode ty]
  | .vsfLog2 t d a m ty => [head false 3 0x09 t + put (specCode d) 24 + put (specCode a) 18 + put m.val 3 + ftyCode ty]
  | .vsfRcp t d a m ty => [head false 3 0x0a t + put (specCode d) 24 + put (specCode a) 18 + put m.val 3 + ftyCode ty]
  | .vsfRsqrt t d a m ty => [head false 3 0x0b t + put (specCode d) 24 + put (specCode a) 18 + put m.val 3 + ftyCode ty]
  | .vsfSin t d a m ty => [head false 3 0x0c t + put (specCode d) 24 + put (specCode a) 18 + put m.val 3 + ftyCode ty]
  | .vsfCos t d a m ty => [head false 3 0x0d t + put (specCode d) 24 + put (specCode a) 18 + put m.val 3 + ftyCode ty]
  | .vsfTanh t d a m ty => [head false 3 0x0e t + put (specCode d) 24 + put (specCode a) 18 + put m.val 3 + ftyCode ty]
  | .vsfErf t d a m ty => [head false 3 0x0f t + put (specCode d) 24 + put (specCode a) 18 + put m.val 3 + ftyCode ty]
  | .vsfSigm t d a m ty => [head false 3 0x10 t + put (specCode d) 24 + put (specCode a) 18 + put m.val 3 + ftyCode ty]
  | .vmin t d a b m ty => [head false 3 0x11 t + put (specCode d) 24 + put (specCode a) 18 + put (specCode b) 12 + put m.val 3 + ftyCode ty]
  | .vminP t d a b m ty => [head false 3 0x12 t + put (specCode d) 24 + put (specCode a) 18 + put (specCode b) 12 + put m.val 3 + ftyCode ty]
  | .vmax t d a b m ty => [head false 3 0x13 t + put (specCode d) 24 + put (specCode a) 18 + put (specCode b) 12 + put m.val 3 + ftyCode ty]
  | .vmaxP t d a b m ty => [head false 3 0x14 t + put (specCode d) 24 + put (specCode a) 18 + put (specCode b) 12 + put m.val 3 + ftyCode ty]
  | .vcmp t d a b c m ty => [head false 3 0x15 t + put d.val 24 + put (specCode a) 18 + put (specCode b) 12 + put (vcondCode c) 6 + put m.val 3 + ftyCode ty]
  | .vicmp t d a b c m ty => [head false 3 0x23 t + put d.val 24 + put (specCode a) 18 + put (specCode b) 12 + put (vcondCode c) 6 + put m.val 3 + ityCode ty]
  | .vsel t d a b m => [head false 3 0x16 t + put (specCode d) 24 + put (specCode a) 18 + put (specCode b) 12 + put m.val 3]
  | .vmov t d a m => [head false 3 0x17 t + put (specCode d) 24 + put (specCode a) 18 + put m.val 3]
  | .vmovI t d m imm => [head true 3 0x18 t + put (specCode d) 24 + put m.val 3, imm.toNat]
  | .vcvt t d a m dst src => [head false 3 0x19 t + put (specCode d) 24 + put (specCode a) 18 + put m.val 3 + dtyCode dst + put (dtyDom dst) 11 + put (dtyCode src) 6 + put (dtyDom src) 10]
  | .viadd t d a b m ty => [head false 3 0x1a t + put (specCode d) 24 + put (specCode a) 18 + put (specCode b) 12 + put m.val 3 + ityCode ty]
  | .viaddS t d a b m ty => [head false 3 0x1b t + put (specCode d) 24 + put (specCode a) 18 + put (specCode b) 12 + put m.val 3 + ityCode ty]
  | .visub t d a b m ty => [head false 3 0x1c t + put (specCode d) 24 + put (specCode a) 18 + put (specCode b) 12 + put m.val 3 + ityCode ty]
  | .visubS t d a b m ty => [head false 3 0x1d t + put (specCode d) 24 + put (specCode a) 18 + put (specCode b) 12 + put m.val 3 + ityCode ty]
  | .vimul t d a b m ty => [head false 3 0x1e t + put (specCode d) 24 + put (specCode a) 18 + put (specCode b) 12 + put m.val 3 + ityCode ty]
  | .vimulS t d a b m ty => [head false 3 0x1f t + put (specCode d) 24 + put (specCode a) 18 + put (specCode b) 12 + put m.val 3 + ityCode ty]
  | .vimulHi t d a b m ty => [head false 3 0x20 t + put (specCode d) 24 + put (specCode a) 18 + put (specCode b) 12 + put m.val 3 + ityCode ty]
  | .vimin t d a b m ty => [head false 3 0x21 t + put (specCode d) 24 + put (specCode a) 18 + put (specCode b) 12 + put m.val 3 + ityCode ty]
  | .vimax t d a b m ty => [head false 3 0x22 t + put (specCode d) 24 + put (specCode a) 18 + put (specCode b) 12 + put m.val 3 + ityCode ty]
  | .vand t d a b m => [head false 3 0x24 t + put (specCode d) 24 + put (specCode a) 18 + put (specCode b) 12 + put m.val 3]
  | .vor t d a b m => [head false 3 0x25 t + put (specCode d) 24 + put (specCode a) 18 + put (specCode b) 12 + put m.val 3]
  | .vxor t d a b m => [head false 3 0x26 t + put (specCode d) 24 + put (specCode a) 18 + put (specCode b) 12 + put m.val 3]
  | .vshl t d a b m ty => [head false 3 0x27 t + put (specCode d) 24 + put (specCode a) 18 + put (specCode b) 12 + put m.val 3 + ityCode ty]
  | .vshr t d a b m ty => [head false 3 0x28 t + put (specCode d) 24 + put (specCode a) 18 + put (specCode b) 12 + put m.val 3 + ityCode ty]
  | .vshlI t d a k m ty => [head false 3 0x29 t + put (specCode d) 24 + put (specCode a) 18 + put k.toNat 6 + put m.val 3 + ityCode ty]
  | .vshrI t d a k m ty => [head false 3 0x2a t + put (specCode d) 24 + put (specCode a) 18 + put k.toNat 6 + put m.val 3 + ityCode ty]
  | .vpermb t d a b m => [head false 3 0x30 t + put (specCode d) 24 + put (specCode a) 18 + put (specCode b) 12 + put m.val 3]
  | .vrotr t d a k m => [head false 3 0x31 t + put (specCode d) 24 + put (specCode a) 18 + put k.toNat 6 + put m.val 3]
  | .vrotc t d a k m => [head false 3 0x32 t + put (specCode d) 24 + put (specCode a) 18 + put k.toNat 6 + put m.val 3]
  | .vbcr t d a k m => [head false 3 0x33 t + put (specCode d) 24 + put (specCode a) 18 + put k.toNat 6 + put m.val 3]
  | .vbcc t d a k m => [head false 3 0x34 t + put (specCode d) 24 + put (specCode a) 18 + put k.toNat 6 + put m.val 3]
  | .vredrAdd t d a m ty => [head false 3 0x35 t + put (specCode d) 24 + put (specCode a) 18 + put m.val 3 + dtyCode ty + put (dtyDom ty) 11]
  | .vredrMax t d a m ty => [head false 3 0x36 t + put (specCode d) 24 + put (specCode a) 18 + put m.val 3 + dtyCode ty + put (dtyDom ty) 11]
  | .vredrMin t d a m ty => [head false 3 0x37 t + put (specCode d) 24 + put (specCode a) 18 + put m.val 3 + dtyCode ty + put (dtyDom ty) 11]
  | .vredcAdd t d a m ty => [head false 3 0x38 t + put (specCode d) 24 + put (specCode a) 18 + put m.val 3 + dtyCode ty + put (dtyDom ty) 11]
  | .vredcMax t d a m ty => [head false 3 0x39 t + put (specCode d) 24 + put (specCode a) 18 + put m.val 3 + dtyCode ty + put (dtyDom ty) 11]
  | .vredcMin t d a m ty => [head false 3 0x3a t + put (specCode d) 24 + put (specCode a) 18 + put m.val 3 + dtyCode ty + put (dtyDom ty) 11]
  | .vscanrAdd t d a m ty => [head false 3 0x3b t + put (specCode d) 24 + put (specCode a) 18 + put m.val 3 + dtyCode ty + put (dtyDom ty) 11]
  | .vscanrMax t d a m ty => [head false 3 0x3c t + put (specCode d) 24 + put (specCode a) 18 + put m.val 3 + dtyCode ty + put (dtyDom ty) 11]
  | .vscancAdd t d a m ty => [head false 3 0x3d t + put (specCode d) 24 + put (specCode a) 18 + put m.val 3 + dtyCode ty + put (dtyDom ty) 11]
  | .vscancMax t d a m ty => [head false 3 0x3e t + put (specCode d) 24 + put (specCode a) 18 + put m.val 3 + dtyCode ty + put (dtyDom ty) 11]
  | .vtrn t d a m => [head false 3 0x3f t + put (specCode d) 24 + put (specCode a) 18 + put m.val 3]
  | .viota t d a m ty => [head false 3 0x40 t + put (specCode d) 24 + put (specCode a) 18 + put m.val 3 + ityCode ty]
  | .vspl t d a b m => [head false 3 0x41 t + put (specCode d) 24 + put (specCode a) 18 + put (specCode b) 12 + put m.val 3]
  | .vext t d a b m => [head false 3 0x42 t + put (specCode d) 24 + put (specCode a) 18 + put (specCode b) 12 + put m.val 3]
  | .vins t d a b m => [head false 3 0x43 t + put (specCode d) 24 + put (specCode a) 18 + put (specCode b) 12 + put m.val 3]
  | .vpack t d a b m ty => [head false 3 0x44 t + put (specCode d) 24 + put (specCode a) 18 + put (specCode b) 12 + put m.val 3 + dtyCode ty + put (dtyDom ty) 11]
  | .vunpk t d a b m ty => [head false 3 0x45 t + put (specCode d) 24 + put (specCode a) 18 + put (specCode b) 12 + put m.val 3 + dtyCode ty + put (dtyDom ty) 11]
  | .vspz t d a k m ty => [head false 3 0x46 t + put (specCode d) 24 + put (specCode a) 18 + put k.toNat 6 + put m.val 3 + ftyCode ty]
  | .vmop t d a b op => [head false 3 0x48 t + put d.val 24 + put a.val 18 + put b.val 12 + put (maskOpCode op) 6]
  | .vmcnt t d k m => [head false 3 0x49 t + put (specCode d) 24 + put k.toNat 6 + put m.val 3]
  | .vrand t d m => [head false 3 0x4a t + put (specCode d) 24 + put m.val 3]
  | .vrandU t d m ty => [head false 3 0x4b t + put (specCode d) 24 + put m.val 3 + ftyCode ty]
  | .mzero t acc rep => [head false 4 0x00 t + put acc.toNat 18 + put rep.toNat 9]
  | .mwld t p it => [head false 4 0x01 t + put p.val 15 + put (inTyCode it) 3]
  | .mwldS4 t p it => [head false 4 0x02 t + put p.val 15 + put (inTyCode it) 3]
  | .mwldS2 t p it => [head false 4 0x03 t + put p.val 15 + put (inTyCode it) 3]
  | .mwldS1 t p it => [head false 4 0x04 t + put p.val 15 + put (inTyCode it) 3]
  | .mmul t acc p rep shp it srcq mark => [head false 4 0x05 t + put acc.toNat 18 + put p.val 15 + put rep.toNat 9 + put (shapeCode shp) 6 + put (inTyCode it) 3 + srcq.toNat + put mark.toNat 2]
  | .matt t acc p rep it causal init mark acc2 p2 => [head true 4 0x06 t + put acc.toNat 18 + put p.val 15 + put rep.toNat 9 + put (inTyCode it) 3 + causal.toNat + put init.toNat 1 + put mark.toNat 2, acc2.toNat + put p2.val 12]
  | .mdrn t acc p rep fold => [head false 4 0x07 t + put acc.toNat 18 + put p.val 15 + put rep.toNat 9 + fold.toNat]
  | .mdrnF t acc p rep => [head false 4 0x08 t + put acc.toNat 18 + put p.val 15 + put rep.toNat 9]
  | .mdrnSm t acc p rep => [head false 4 0x09 t + put acc.toNat 18 + put p.val 15 + put rep.toNat 9]
  | .mepi t p => [head false 4 0x0a t + put p.val 15]
  | .macfg t p => [head false 4 0x0b t + put p.val 15]
  | .xcp t sa sb => [head false 5 0x01 t + put sa.val 25 + put sb.val 20]
  | .xcpCvt t sa sb => [head false 5 0x02 t + put sa.val 25 + put sb.val 20]
  | .xcpMc t sa sb => [head false 5 0x03 t + put sa.val 25 + put sb.val 20]
  | .xcpKv t sa sb => [head false 5 0x04 t + put sa.val 25 + put sb.val 20]
  | .xaccAdd t sa sb => [head false 5 0x08 t + put sa.val 25 + put sb.val 20]
  | .xaccMin t sa sb => [head false 5 0x09 t + put sa.val 25 + put sb.val 20]
  | .xaccMax t sa sb => [head false 5 0x0a t + put sa.val 25 + put sb.val 20]
  | .xaccAnd t sa sb => [head false 5 0x0b t + put sa.val 25 + put sb.val 20]
  | .xaccOr t sa sb => [head false 5 0x0c t + put sa.val 25 + put sb.val 20]
  | .xaccXor t sa sb => [head false 5 0x0d t + put sa.val 25 + put sb.val 20]
  | .xatomAdd t sa sb => [head false 5 0x10 t + put sa.val 25 + put sb.val 20]
  | .xatomMin t sa sb => [head false 5 0x11 t + put sa.val 25 + put sb.val 20]
  | .xatomMax t sa sb => [head false 5 0x12 t + put sa.val 25 + put sb.val 20]
  | .xatomAnd t sa sb => [head false 5 0x13 t + put sa.val 25 + put sb.val 20]
  | .xatomOr t sa sb => [head false 5 0x14 t + put sa.val 25 + put sb.val 20]
  | .xatomXor t sa sb => [head false 5 0x15 t + put sa.val 25 + put sb.val 20]
  | .xatomSwap t sa sb => [head false 5 0x16 t + put sa.val 25 + put sb.val 20]
  | .xatomCas t sa sb => [head false 5 0x17 t + put sa.val 25 + put sb.val 20]
  | .xfill t sa sb => [head false 5 0x18 t + put sa.val 25 + put sb.val 20]
  | .vatomAdd t sa v => [head false 5 0x19 t + put sa.val 25 + put (specCode v) 14]
  | .vatomMin t sa v => [head false 5 0x1a t + put sa.val 25 + put (specCode v) 14]
  | .vatomMax t sa v => [head false 5 0x1b t + put sa.val 25 + put (specCode v) 14]
  | .vatomAnd t sa v => [head false 5 0x1c t + put sa.val 25 + put (specCode v) 14]
  | .vatomOr t sa v => [head false 5 0x1d t + put sa.val 25 + put (specCode v) 14]
  | .vatomXor t sa v => [head false 5 0x1e t + put sa.val 25 + put (specCode v) 14]
  | .binit t sa => [head false 5 0x20 t + put sa.val 25]
  | .barv t sb => [head false 5 0x21 t + put sb.val 20]
  | .bwait t sb p => [head false 5 0x22 t + put sb.val 20 + p.toNat]
  | .rngcfg t sa => [head false 5 0x24 t + put sa.val 25]
  | .rngwf t sb addr => [head false 5 0x25 t + put sb.val 20 + addr.toNat]
  | .rngwe t sb addr => [head false 5 0x26 t + put sb.val 20 + addr.toNat]
  | .rngpub t sb => [head false 5 0x27 t + put sb.val 20]
  | .rngrel t sb => [head false 5 0x28 t + put sb.val 20]
  | .btld t sa => [head false 5 0x2c t + put sa.val 25]
  | .btlk t sa => [head false 5 0x2d t + put sa.val 25]
  | .btinv t sa => [head false 5 0x2e t + put sa.val 25]
  | .balloc t sa => [head false 5 0x30 t + put sa.val 25]
  | .bfree t sa => [head false 5 0x31 t + put sa.val 25]
  | .bref t sa => [head false 5 0x32 t + put sa.val 25]
  | .btopen t sa => [head false 5 0x33 t + put sa.val 25]
  | .btclose t sa => [head false 5 0x34 t + put sa.val 25]
  | .btapp t sa => [head false 5 0x35 t + put sa.val 25]
  | .btfork t sa => [head false 5 0x36 t + put sa.val 25]
  | .bttrim t sa => [head false 5 0x37 t + put sa.val 25]
  | .btcmt t sa => [head false 5 0x38 t + put sa.val 25]
  | .bhfind t sa => [head false 5 0x39 t + put sa.val 25]
  | .bhpub t sa => [head false 5 0x3a t + put sa.val 25]
  | .itbind t sa => [head false 5 0x40 t + put sa.val 25]
  | .itgo t sa => [head false 5 0x41 t + put sa.val 25]
  | .itstat t sa => [head false 5 0x42 t + put sa.val 25]
  | .objplace t sa => [head false 5 0x43 t + put sa.val 25]
  | .objpin t sa => [head false 5 0x44 t + put sa.val 25]
  | .rgcfg t sa => [head false 5 0x48 t + put sa.val 25]
  | .rgpush t sa => [head false 5 0x49 t + put sa.val 25]
  | .rgtakeTake t sa => [head false 5 0x4a t + put sa.val 25]
  | .rgtakeRelease t sa => [head false 5 0x4a t + put sa.val 25]
  | .smbind t sa => [head false 5 0x50 t + put sa.val 25]
  | .smrun t sa => [head false 5 0x51 t + put sa.val 25]
  | .clrslow t sa => [head false 5 0x52 t + put sa.val 25]
  | .addcnt t sa => [head false 5 0x52 t + put sa.val 25]
  | .clrcnt t sa => [head false 5 0x52 t + put sa.val 25]
  | .armv t sa => [head false 5 0x52 t + put sa.val 25]
  | .setstep t sa => [head false 5 0x52 t + put sa.val 25]
  | .smstat t sa => [head false 5 0x53 t + put sa.val 25]
  | .lnrun t sa => [head false 5 0x58 t + put sa.val 25]
  | .lnstat t sa => [head false 5 0x59 t + put sa.val 25]
  | .lnsend f => [lnWord 1 f]
  | .lnrecv f => [lnWord 2 f]
  | .lnrrs f => [lnWord 3 f]
  | .lncopy f => [lnWord 4 f]
  | .lnwait cell p => [put 5 60 + put p.toNat 32 + cell.toNat]
  | .lnsig cell => [put 6 60 + cell.toNat]
  | .lnloop k n => [put 7 60 + put k.val 56 + n.toNat]
  | .lnendl k => [put 8 60 + put k.val 56]
  | .lnend => [put 9 60]
  | _ => []

end Sys2Proof
end

