-- ==== Sys2Proof/Config.lean ====
section
/-!
DEFINITION. What the machine's agents may do next, and the values the spec leaves open: free constants
without a body, so that no proof can rest on one (log entries 5, 6, 8, 9, 13 and 19).
-/
namespace Sys2Proof

/-- The units of a die that act on their own (R16, R237). -/
inductive UnitKind where
  | copy (e : Fin 4)
  | belfry | campanile | cupola | lantern | gatherer | dispatcher
  deriving DecidableEq, Repr

/-- A memory error arriving in a memory: a line of device memory that fails every read, or that no longer does, or
that fails one read only, a data line or a parity line of a scratchpad, a word of an accumulator store, or
a line or word of these that fails one read only (R151, R155, R297, R366). -/
inductive Upset where
  | dev (line : Nat)
  | heal (line : Nat)
  | glitch (line : Nat)
  | spad (g : Fin 256) (line : Nat)
  | parity (g : Fin 256) (group row : Nat)
  | acc (g : Fin 256) (word : Nat)
  | spadGlitch (g : Fin 256) (line : Nat)
  | accGlitch (g : Fin 256) (word : Nat)
  deriving DecidableEq, Repr

/-- One move: an engine walks, a unit acts on its oldest operation, an event of the opcode table happens, a
memory error arrives, a message that a port holds is taken by the fabric or, after that, accepted by its receiver, a port
performs the store that a core's SC has presented, a Belfry pushes the next frame of an evicted copy, or the host reads the
launch area (log entry 5). -/
inductive Move where
  | walk (g : Fin 256) (e : Engine)
  | unit (d : Fin 4) (u : UnitKind)
  | event (i : Instr)
  | upset (u : Upset)
  | fabricTakes (k : Nat)
  | perform (g : Fin 256)
  | returns (d : Fin 4)
  | areaRead (x : BitVec 32) (size : Size)
  deriving DecidableEq, Repr, Inhabited

/-- The special functions of VSF (R146). -/
inductive VsfFn where
  | exp2 | log2 | rcp | rsqrt | sin | cos | tanh | erf | sigm
  deriving DecidableEq, Repr

namespace Config

/-- The move that step n takes where the agenda is empty (R211; log entry 5). -/
opaque freeMove : Nat → Move

/-- The number that picks, at step n, which of a repetition's pending lines is performed next (R199; log entry 87). -/
opaque pick : Nat → Nat

/-- Clocks that pass on a die before step n (R2, R25; log entry 6). -/
opaque clocks : Nat → Fin 4 → Nat

/-- The F32 result bits of a special function of F32 operand bits, inside R146's domains and away from its
exact cases (R147; log entry 8). -/
opaque vsf : VsfFn → BitVec 32 → BitVec 32

/-- Whether a translation cache still holds an entry it has read: the step, and the tensor and tile (R182; log
entry 13). -/
opaque cacheHolds : Nat → Nat → Bool

/-- Whether an SLH-DSA-SHAKE-256s signature verifies: key, signed bytes, signature (R361; log entry 9). -/
opaque slhVerify : List Byte → List Byte → List Byte → Bool

/-- The VALUE that step n writes into a result whose code leaves it unstated (R301, R393, R413; log entry 19). -/
opaque freeValue : Nat → BitVec 32

/-- The bytes of an SLH-DSA-SHAKE-256f signature by the device identity key (R364; log entry 9). -/
opaque slhSign : List Byte → Nat → Byte

/-- The device identity public key of the part (R363; log entry 9). -/
opaque idPub : BitVec 512

end Config

end Sys2Proof
end

