-- ==== Sys2Proof/Machine/State.lean ====
section
/-!
DEFINITION. The state of the DN2560, all of it plain data, and the state after power-up (spec/02_execution.md,
05_onchip_memory.md, 06_copy_engines.md, 08_scheduling.md to 14_host_security.md; INVENTORY.md lists every
piece with its rule and its reset value). The values named here without a reset value of the spec are those of
log entries 2 and 3.
-/
namespace Sys2Proof.Machine

/-- Bytes under their addresses, addresses rising, no byte 0 listed: what is not listed reads 0 (log entry 2). -/
abbrev Memory := List Host.Cell

/-- The canonical form: addresses strictly rise, and no listed byte is what an unlisted one reads as. -/
def Memory.wf (m : Memory) : Bool :=
  m.all (fun c => c.2 ≠ 0) && (m.map (·.1)).Pairwise (· < ·)

/-! ## A core -/

/-- A loop-stack entry: the body's first and last parcel, and the count (R50, R230). -/
structure LoopEntry where
  first : PAddr
  last : PAddr
  count : BitVec 32
  deriving DecidableEq, Repr

/-- A ring operation that waits for room or for a slot (R163). -/
inductive RingKind where
  | we | wf
  deriving DecidableEq, Repr

/-- What an engine waits on outside its core (R231, R238): a barrier cell's parity, a ring grant, an arrival that
the port has not applied, a held access, a full Lantern queue, a full record queue. -/
inductive WaitOn where
  | bar (g : Fin 256) (addr : Nat) (p : Bool)
  | ring (g : Fin 256) (r : Fin 16) (k : RingKind)
  | arrival (g : Fin 256)
  | held (g : Fin 256)
  | lantern
  | spawn
  deriving DecidableEq, Repr

/-- Who has presented a request to a port (R149, R213): an engine, an open operation, a shard of an itinerary, a completed
entry of one by its number, a row that Cupola has accepted, Lantern, a fabric message. -/
inductive Who where
  | eng (g : Fin 256) (e : Engine)
  | op (id : Nat)
  | shard (d slot : Fin 4) (hop : Fin 3) (ent sh : Nat)
  | ent (d : Fin 4) (n : Nat)
  | row (d : Fin 4) (acc : Nat)
  | lan (d : Fin 4)
  | msg (x : FMsg)
  deriving DecidableEq, Repr

/-- A request of a context that a port holds in its place until a task of the context occupies the core (R149, R213). -/
structure PortReq where
  ctx : Fin 64
  who : Who
  deriving DecidableEq, Repr

/-- A line that a repetition is still to read: the row it belongs to (0 for what every row uses, j + 1 for row j),
whether it lies in the accumulator store, and the bytes of the line that are read (R198, R199). -/
structure LineRead where
  tag : Nat
  acc : Bool
  runs : List (Nat × Nat)
  deriving DecidableEq, Repr

/-- A line that a repetition is still to write: where it lies, and the bytes written (R198, R199). -/
structure LineWrite where
  acc : Bool
  runs : List (Nat × List Byte)
  deriving DecidableEq, Repr

/-- A repetition of LD, ST or MX that has issued and not ended (R54, R199, R280): the lines still to be read, the
rows whose results are still to be taken, the lines still to be written, the bytes read so far by row, memory and
address (`gotKey`), the words of the block that MX read at issue, and whether anything of it has taken effect. -/
structure Job where
  reads : List LineRead
  rows : List Nat
  writes : List LineWrite
  got : Memory
  blk : List Word
  begun : Bool
  deriving DecidableEq, Repr

/-- What a load that SC has presented does when it is performed: the register, the bytes, and whether it is
sign-extended (R428). -/
structure PendLoad where
  reg : Fin 32
  size : Nat
  signed : Bool
  deriving DecidableEq, Repr

/-- An access that SC has presented and that its port has not performed (R199): the core of the port, which memory, the
byte, the bytes of a store, what a load does, the token that SC pushes when the instruction retires, and SC's walk count
after the first FENCE.REL that orders the access before later writes, if one does (R204). -/
structure PendAccess where
  core : Fin 256
  acc : Bool
  addr : Nat
  bytes : List Byte
  load : Option PendLoad
  sig : Option Engine
  rel : Option (BitVec 32)
  deriving DecidableEq, Repr

/-- A wait, the tokens of the waiting parcel, which its port pops and pushes when it satisfies the wait, and the
clock of the core's die at which the wait began. -/
structure Wait where
  on : WaitOn
  tok : Tok
  since : Word
  deriving DecidableEq, Repr

/-- One engine's walker (R45, R50, R52, R54, R59, R199, R230). -/
structure EngState where
  pc : PAddr
  walk : BitVec 32
  loops : List LoopEntry
  rep : BitVec 6
  tokp : Bool
  tgt : Option (BitVec 8)
  owed : Option Engine
  ended : Bool
  wait : Option Wait
  job : Option Job
  deriving DecidableEq, Repr

/-- Why SC, having completed a parcel, runs no later parcel yet (R202, R204, R415, R467). -/
inductive HoldKind where
  | acq | rel | fence | mark | quies | yield
  deriving DecidableEq, Repr

/-- A hold of SC: its kind, SC's walk count after the parcel, the scope of a fence, and the token the parcel pushes at
retirement. -/
structure Hold where
  kind : HoldKind
  walk : BitVec 32
  scope : Scope
  sig : Option Engine
  deriving DecidableEq, Repr

/-- A ring descriptor (R162). -/
structure Ring where
  base : BitVec 22
  slotsz : BitVec 16
  nslot : BitVec 13
  pclaim : BitVec 32
  ppub : BitVec 32
  cclaim : BitVec 32
  crel : BitVec 32
  proda : BitVec 16
  consa : BitVec 16
  deriving DecidableEq, Repr

/-- A ring request waiting at the owning port: ring, kind, its context, who made it (AS of a core, a shard of Belfry, a
row of Cupola), and where a core's grant word goes (R163, R164, R253, R328). -/
structure RingWait where
  ring : Fin 16
  kind : RingKind
  ctx : Fin 64
  who : Who
  addr : Nat
  deriving DecidableEq, Repr

/-- An entry of the block translation memory (R165). -/
structure BtmEntry where
  slot : BitVec 16
  ord : BitVec 16
  handle : BitVec 32
  valid : Bool
  lock : Bool
  deriving DecidableEq, Repr

/-- The epilogue registers: the fields of R282's descriptor, the column scales and the biases as F32 (R272). -/
structure Epilogue where
  csk : BitVec 3
  rsk : BitVec 3
  ben : Bool
  act : BitVec 4
  ofmt : BitVec 4
  csaddr : BitVec 22
  baddr : BitVec 22
  rsaddr : BitVec 22
  soff : BitVec 13
  cs : Vector Lane 128
  bias : Vector Lane 128
  deriving DecidableEq, Repr

/-- MX's configuration (R281). -/
structure MxCfg where
  nrows : BitVec 8
  pfmt : Bool
  sscl : Lane
  slope : Lane
  qpos0 : BitVec 21
  kpos : BitVec 21
  kend : BitVec 21
  deriving DecidableEq, Repr

/-- A gang MMUL that a member has presented at its pairing (R279). -/
structure Present where
  acc : BitVec 12
  rep : BitVec 6
  shape : Shape
  it : InTy
  nrows : BitVec 8
  deriving DecidableEq, Repr

/-- The working state of MX (R272): the weight tile as its type, how many of every 8 weights it keeps (8: dense), and
its 128 rows of packed weights with the 3-bit indices of a sparse tile behind them (R276). `shape` is the shape of the
latest MMUL, which places the core's quadrant (R30, R286); `stream` the stream of the MDRN.F under way (R337); `dsts`
the packages that the MDRN.F under way sends to, as its group's entry named them at issue (R336); `taken` the Q2 entries
that the MMUL repetition at hand has popped and not used, which a stop puts back (R13, R56, R278). -/
structure MxState where
  wty : InTy
  keep : Fin 9
  w : Vector (BitVec 2048) 128
  epi : Epilogue
  cfg : MxCfg
  present : Option Present
  shape : Shape
  stream : BitVec 16
  dsts : List (BitVec 10)
  taken : List Tile
  deriving DecidableEq, Repr

/-- The trap causes, in the order of their codes 1 to 10 (R234). -/
inductive Cause where
  | illegal | btmMiss | spadRange | align | queueDir | priv | trap | bkpt | cmdMalformed | deadlock
  deriving DecidableEq, Repr

/-- What a trap record says of the trap (R235). -/
structure TrapInfo where
  cause : Cause
  engine : Engine
  padr : PAddr
  repi : BitVec 6
  core : Fin 256
  rank : Fin 8
  code : BitVec 32
  info : Word
  deriving DecidableEq, Repr

/-- Why the engines of a core have stopped, until its task is saved or killed (R72, R194, R231, R232, R467): `yield`
stands for a YIELD, `swap` for a yieldable wait. -/
inductive Halt where
  | trap (info : TrapInfo)
  | yield
  | swap
  | forced
  | killed
  deriving DecidableEq, Repr

/-- The task on a core: its record, and what the record and its text descriptor give (R41, R69, R119). -/
structure CoreTask where
  recId : Nat
  ctx : Fin 64
  rank : Fin 8
  gang : BitVec 2
  taskid : BitVec 32
  frame : BitVec 48
  text : BitVec 42
  entry : PAddr
  nparcel : PAddr
  mapaddr : BitVec 48
  mapcount : PAddr
  members : List (Fin 256)
  running : Bool
  deriving DecidableEq, Repr

/-- An entry of a translation cache: a descriptor or a tile-table entry of a tensor of a context (R182). -/
inductive CacheEntry where
  | desc (c : Fin 64) (t : BitVec 20) (w0 w1 w2 w3 : Word)
  | tile (c : Fin 64) (t : BitVec 20) (n : Nat) (w : Word)
  deriving DecidableEq, Repr

/-- One core (R18, R43, R61, R69, R148 to R170, R272). The engine copies stand in the order of R229 and R230: `a` is LD,
ST, MX; `round` and `seed` are SC, VX, MX; `btmcfg` is SC, AS. `out` is toward LD, ST, VX, MX, AS, `tok` is indexed 6·p
+ q, `qt` is Q0 to Q3 and `qw` is Q4 to Q7. `portq` holds the requests that the core's port keeps in their places,
oldest first, and `lastReq` the clock and the place in R149's order of the request that it accepted last; `pend` is the
access that SC has presented; `glitch` and `glitchAcc` the lines and words that fail one read only, and `rebuilt` counts
the lines corrected by parity (R151). -/
structure Core where
  s : Vector Word 32
  a : Vector (Vector Word 16) 3
  v : Vector Tile 32
  w : Vector Tile 8
  z : Vector Tile 2
  m : Vector (BitVec 1024) 8
  eng : Vector EngState 6
  hold : Option Hold
  tok : Vector Nat 36
  out : Vector (List (BitVec 128)) 5
  qt : Vector (List Tile) 4
  qw : Vector (List Word) 4
  cq : Nat
  vbuf : Option Tile
  slipw : BitVec 13
  round : Vector (BitVec 3) 3
  seed : Vector Word 3
  btmcfg : Vector Bool 2
  ithrot : BitVec 5
  spad : Memory
  acc : Memory
  pend : Option PendAccess
  portq : List PortReq
  lastReq : Option (Word × Nat)
  dirty : BitVec 768
  rings : Vector Ring 16
  ringWaits : List RingWait
  btm : Vector BtmEntry 1024
  rp : Vector (BitVec 2) 256
  mx : MxState
  tcache : List CacheEntry
  task : Option CoreTask
  req : Bool
  wdog : Option Word
  owes : Option Word
  yieldable : Bool
  safe : Option (PAddr × Word)
  halt : Option Halt
  badLines : List Nat
  badPar : List (Nat × Nat)
  badAcc : List Nat
  glitch : List Nat
  glitchAcc : List Nat
  rebuilt : Nat
  deriving DecidableEq, Repr

def EngState.reset : EngState := ⟨0, 0, [], 0, false, none, none, false, none, none⟩
def Ring.reset : Ring := ⟨0, 0, 0, 0, 0, 0, 0, 0, 0⟩
def BtmEntry.reset : BtmEntry := ⟨0, 0, 0, false, false⟩
def Epilogue.reset : Epilogue := ⟨0, 0, false, 0, 0, 0, 0, 0, 0, Vector.replicate 128 0, Vector.replicate 128 0⟩

/-- MX's configuration at task start (R272). -/
def MxCfg.reset : MxCfg := ⟨128, false, 0x3F800000, 0, 0, 0, 0x1FFFFF⟩

/-- MX's working state at task start (R272). -/
def MxState.reset : MxState := ⟨.e4m3, 8, Vector.replicate 128 0, Epilogue.reset, MxCfg.reset, none, .s11, 0, [], []⟩

/-- A core after power-up (R69, R162; log entry 3). -/
def Core.reset : Core where
  s := Vector.replicate 32 0
  a := Vector.replicate 3 (Vector.replicate 16 0)
  v := Vector.replicate 32 Tile.zero
  w := Vector.replicate 8 Tile.zero
  z := Vector.replicate 2 Tile.zero
  m := Vector.replicate 8 0
  eng := Vector.replicate 6 EngState.reset
  hold := none
  tok := Vector.replicate 36 0
  out := Vector.replicate 5 []
  qt := Vector.replicate 4 []
  qw := Vector.replicate 4 []
  cq := 0
  vbuf := none
  slipw := 256
  round := Vector.replicate 3 0
  seed := Vector.replicate 3 0
  btmcfg := Vector.replicate 2 true
  ithrot := 16
  spad := []
  acc := []
  pend := none
  portq := []
  lastReq := none
  dirty := 0
  rings := Vector.replicate 16 Ring.reset
  ringWaits := []
  btm := Vector.replicate 1024 BtmEntry.reset
  rp := Vector.replicate 256 0
  mx := MxState.reset
  tcache := []
  task := none
  req := false
  wdog := none
  owes := none
  yieldable := false
  safe := none
  halt := none
  badLines := []
  badPar := []
  badAcc := []
  glitch := []
  glitchAcc := []
  rebuilt := 0

/-! ## Asynchronous operations -/

/-- An asynchronous operation that has issued and not completed (R171 to R174, R185, R207): its instruction, its issuer
and unit, the block as AS read it, the descriptors and handles looked up at issue, and how far it has come. `idx` is the
next element or row, or the place and phase of a push; `stop` the tile it is stopped on and whether a fault record holds
it; `elems` the codes of list elements applied so far, or the receivers of a multicast that have the element at hand;
`src` the source elements read and not yet written, each with whether it was good; `lanes` the lanes of a VATOM, or the
old value of an XATOM's target, or the words of a result to be written; `bar` the cell that its completion arrives at;
`nfault` counts its faults, or a push's batches; `begun` that the unit has begun it, or, of a copy, that a memory error
of it has been reported; `fin` that all of it has been applied; `entry` that the issuing task still holds its
command-queue entry; `said` that its report has been written and the arrival is still to come. -/
structure Op where
  id : Nat
  instr : Instr
  core : Fin 256
  ctx : Fin 64
  rank : Fin 8
  taskid : BitVec 32
  die : Fin 4
  unit : UnitKind
  pc : PAddr
  sig : Option Engine
  base : Nat
  blk : List Word
  bar : Option (Fin 256 × Nat)
  sb : Word
  lanes : List Lane
  sdesc : List Word
  ddesc : List Word
  handles : List (Nat × BitVec 32)
  rcvs : List (BitVec 10 × Fin 256)
  stream : BitVec 16
  idx : Nat
  stop : Option (BitVec 20 × Nat × Bool)
  nfault : Nat
  poison : Option Nat
  elems : List (Nat × Nat)
  src : List (Nat × Bool)
  begun : Bool
  fin : Bool
  said : Bool
  entry : Bool
  deriving DecidableEq, Repr

/-- An arrival presented to a port and not yet applied: the cell, and who presents it, AS with a BARV or Belfry with the BAR
of an entry that has completed (R189, R213, R253). -/
structure Arrival where
  cell : Fin 256
  addr : Nat
  who : Who
  ctx : Fin 64
  deriving DecidableEq, Repr

/-! ## A context -/

/-- A fault record (R186). -/
structure FaultRec where
  tensor : BitVec 20
  valid : Bool
  block : BitVec 32
  bitmap : Word
  nstop : BitVec 16
  deriving DecidableEq, Repr

/-- A range under invalidation: a tensor or every one, first tile and count (R191, R192). -/
structure Inval where
  tensor : BitVec 20
  all : Bool
  first : Nat
  nt : Nat
  whole : Bool
  deriving DecidableEq, Repr

/-- The registers that take effect at a replay (R214, R411). -/
structure Latched where
  trbase : BitVec 48
  ltrn : BitVec 4
  tcont : BitVec 48
  ten : Bool
  savebase : BitVec 48
  recbase : BitVec 48
  nrbase : Word
  lnr : BitVec 4
  deriving DecidableEq, Repr

/-- A node of the running launch: the die and number of its record, its successors, and whether its task has
retired (R215, R218, R219). -/
structure Node where
  die : Fin 4
  recId : Nat
  succs : List Nat
  retired : Bool
  deriving DecidableEq, Repr

/-- A trap record that waits to be written: the saved record it belongs to and the trap (R235). -/
structure PendTrap where
  die : Fin 4
  recId : Nat
  info : TrapInfo
  deriving DecidableEq, Repr

/-- One context's registers and launch state (R192, R214, R220, R245, R411); `gpLast` is the clock of die 0 and the place in
R391's order of the request that its GP file accepted last. -/
structure Ctx where
  gp : Vector Word 64
  gpLast : Option (Word × Nat)
  secure : Bool
  tinvrFirst : BitVec 32
  tinvrNt : BitVec 32
  busy : Bool
  wd : Bool
  done : BitVec 32
  invals : List Inval
  owed : List (BitVec 16)
  invSnap : List Nat
  invAt : Vector Word 4
  twdog : BitVec 32
  tdbase : BitVec 48
  stray : BitVec 32
  killing : Bool
  quiet : Bool
  killOwed : List (BitVec 16)
  frec : Vector FaultRec 16
  run : Bool
  drop : Bool
  cause : BitVec 8
  lseq : BitVec 32
  cwaddr : Word
  coalCnt : BitVec 8
  coalWin : BitVec 32
  pendCnt : Nat
  pendAt : Word
  regs : Latched
  cur : Latched
  trhead : BitVec 32
  trtail : BitVec 32
  trseen : BitVec 32
  spin : BitVec 32
  susp : Bool
  dlk : Bool
  dlen : BitVec 8
  nen : Bool
  nrhead : BitVec 32
  nrtail : BitVec 32
  nlost : BitVec 32
  otbase : BitVec 48
  nobj : BitVec 20
  fsb : Vector (BitVec 48) 8
  fcnt : Vector (BitVec 32) 8
  fcap : Vector (BitVec 32) 8
  nodes : List Node
  pendTraps : List PendTrap
  deriving DecidableEq, Repr

def FaultRec.reset : FaultRec := ⟨0, false, 0, 0, 0⟩
def Latched.reset : Latched := ⟨0, 0, 0, false, 0, 0, 0, 0⟩

/-- A context after power-up (R192, R214, R220, R245, R411; log entry 3). -/
def Ctx.reset : Ctx where
  gp := Vector.replicate 64 0
  gpLast := none
  secure := false
  tinvrFirst := 0
  tinvrNt := 0
  busy := false
  wd := false
  done := 0
  invals := []
  owed := []
  invSnap := []
  invAt := Vector.replicate 4 0
  twdog := 0x1000000
  tdbase := 0
  stray := 0
  killing := false
  quiet := false
  killOwed := []
  frec := Vector.replicate 16 FaultRec.reset
  run := false
  drop := false
  cause := 0
  lseq := 0
  cwaddr := 0
  coalCnt := 1
  coalWin := 0
  pendCnt := 0
  pendAt := 0
  regs := Latched.reset
  cur := Latched.reset
  trhead := 0
  trtail := 0
  trseen := 0
  spin := 65536
  susp := false
  dlk := false
  dlen := 0
  nen := false
  nrhead := 0
  nrtail := 0
  nlost := 0
  otbase := 0
  nobj := 0
  fsb := Vector.replicate 8 0
  fcnt := Vector.replicate 8 0
  fcap := Vector.replicate 8 0
  nodes := []
  pendTraps := []

/-! ## A die -/

/-- STATE of a record (R221). -/
inductive RState where
  | built | waiting | ready | running | saved | retired
  deriving DecidableEq, Repr

/-- What a save keeps beside the save area, for one member: the owed tokens, which engines stand at TEND, the entries
in Q0 to Q7, what SC holds, and the waits in which its engines stopped (R226, R238; log entries 11, 12 and 23). -/
structure Priv where
  qn : Vector Nat 8
  owed : Vector (Option Engine) 6
  ended : Vector Bool 6
  hold : Option Hold
  vbuf : Option Tile
  cq : Nat
  waits : Vector (Option WaitOn) 6
  deriving DecidableEq, Repr

/-- A continuation record in a dispatcher (R41, R221 to R226, R235). `addr` is none for a trap continuation.
`order` ranks records of one part of a level; `reason` is the REASON of its save, 5 for a trap that TRES has resumed;
`past` is the rank whose TRAP or BKPT a TRES may pass; `passOver` is set until the scan that its own yield completes is
over (R467); `forRec` is the record for which it is under a request (R225). -/
structure Rec where
  id : Nat
  addr : Option (BitVec 48)
  entry : PAddr
  text : BitVec 42
  frame : BitVec 48
  join : BitVec 16
  pri : BitVec 2
  gang : BitVec 2
  ctx : Fin 64
  taskid : BitVec 32
  state : RState
  apri : Nat
  epri : Nat
  credit : Nat
  count : Nat
  cores : List (Fin 256)
  node : Option Nat
  reason : Nat
  order : Nat
  tseq : Option (BitVec 32)
  past : Option (Fin 8)
  passOver : Bool
  forRec : Option Nat
  priv : List Priv
  deriving DecidableEq, Repr

/-- One hop of a running itinerary: the next entry and shard to start, whether it has read and checked that entry, and its
counters (R249, R252, R256, R258). -/
structure HopState where
  ent : Nat
  sh : Nat
  seen : Bool
  stalled : Nat
  stop : Option (BitVec 20 × Nat × Bool)
  late : BitVec 32
  ontime : BitVec 32
  lstall : BitVec 32
  wfull : BitVec 32
  eccr : BitVec 32
  psn : BitVec 32
  fabp : BitVec 32
  evw : BitVec 32
  deriving DecidableEq, Repr

/-- One entry of a running itinerary: whether it sent a USERS increment, the number it took when it started, its
shards moved, late, complete, and the members of a leader's group as its hop read them (R253, R256, R261, R263, R336). -/
structure EntState where
  users : Bool
  sid : Option Nat
  moved : Nat
  late : Bool
  complete : Bool
  dsts : List (BitVec 10 × Fin 256)
  deriving DecidableEq, Repr

/-- A binding slot of Belfry; `run` is the number of its ITGO (R251, R255). -/
structure BSlot where
  bound : Bool
  running : Bool
  ctx : Fin 64
  addr : BitVec 48
  nent : Nat
  subs : BitVec 64
  win : Vector (Vector Nat 4) 3
  stat : BitVec 48
  run : Nat
  started : BitVec 32
  done : BitVec 32
  rt : Nat
  onrun : Nat
  poison : Bool
  pent : BitVec 32
  hops : Vector HopState 3
  marks : Vector Nat 64
  ents : List EntState
  deriving DecidableEq, Repr

/-- A started, unmoved shard (R252 to R254): its slot, hop, entry, number, window class and bytes; the ring
claim it holds; for a leader the outbound messages go by its `tag`; for a member the bytes received; whether its ECC_RETRY
has been counted (R258). -/
structure Shard where
  slot : Fin 4
  hop : Fin 3
  ent : Nat
  sh : Nat
  cls : Fin 4
  bytes : Nat
  claim : Option Nat
  fresh : List Nat
  tag : Nat
  rx : Option (List Byte)
  eccr : Bool
  deriving DecidableEq, Repr

/-- An eviction in progress: the context, object and tier, the tiles cleared with their words, of which those whose frames
have been pushed are gone, and RET: its invalidation has completed (R260). -/
structure Evict where
  ctx : Fin 64
  obj : Nat
  tier : Nat
  tiles : List (Nat × Word)
  ret : Bool
  deriving DecidableEq, Repr

/-- A fill request that waits for a copy to leave EVICTING: the copy, and the hop that made it (R260). -/
structure FillWait where
  ctx : Fin 64
  obj : Nat
  tier : Nat
  die : Fin 4
  slot : Fin 4
  hop : Fin 3
  deriving DecidableEq, Repr

/-- Belfry (R242 to R266). `fills` holds the waiting fill requests of the copies that it owns, oldest first; `marks` the marks
on their way, each with its core and the itineraries that it was sent to, by their ITGOs; `last` is the request that it
accepted last as the owner of objects: the clock, and the request's place among those of one clock (R255, R262). -/
structure Belfry where
  slots : Vector BSlot 4
  shards : List Shard
  evicts : List Evict
  fills : List FillWait
  marks : List (Fin 256 × List Nat)
  last : Option (Word × Nat)
  tcache : List CacheEntry
  deriving DecidableEq, Repr

/-- A pool of Campanile (R294). -/
structure Pool where
  bsz : BitVec 3
  tier : BitVec 2
  ctx : BitVec 6
  pen : Bool
  fail : Bool
  frame0 : BitVec 30
  nblk : BitVec 26
  flbase : BitVec 48
  bwbase : BitVec 48
  fcnt : BitVec 26
  deriving DecidableEq, Repr

/-- What a list element does at the Campanile of its block: adds or drops a reference, is checked for a BTAPP, or is
committed by one (R303, R304). -/
inductive RefStep where
  | add | drop | check | commit
  deriving DecidableEq, Repr

/-- A list element of an operation of another die, to be applied here: the operation and its core, its index, the handle,
and what it does (R303, R304, R311). -/
structure RemoteElem where
  op : Nat
  core : Fin 256
  idx : Nat
  handle : BitVec 32
  what : RefStep
  deriving DecidableEq, Repr

/-- Campanile (R293, R294, R309 to R311). -/
structure Campanile where
  en : Bool
  sdbase : BitVec 48
  hibase : BitVec 48
  specerr : BitVec 32
  retired : BitVec 32
  hfull : BitVec 32
  scrub : BitVec 32
  qslot : BitVec 16
  qcnt : BitVec 32
  pools : Vector Pool 16
  remote : List RemoteElem
  reports : List (BitVec 32)
  quar : List (BitVec 32)
  lost : List (Fin 16)
  deriving DecidableEq, Repr

/-- A segment at the sampler port (R286, R317). -/
structure Segment where
  core : Fin 256
  ctx : Fin 64
  slot : BitVec 16
  last : Bool
  vidx : Nat
  vals : List Lane
  deriving DecidableEq, Repr

/-- An open row buffer: the entries written, and the LAST segments received (R317). -/
structure RowBuf where
  slot : BitVec 16
  ctx : Fin 64
  ents : List (Nat × Lane)
  lasts : Nat
  deriving DecidableEq, Repr

/-- An accepted row: its slot, its place in the die's acceptance order, its entries, the SMRUN that reads them from scratchpad
as its run begins, if one does, and once it has run, its token, while its arrival is still to come (R317, R318, R323,
R334). -/
structure Row where
  slot : BitVec 16
  acc : Nat
  ctx : Fin 64
  ents : List (Nat × Lane)
  op : Option Nat
  res : Option (Option Nat)
  deriving DecidableEq, Repr

/-- Cupola (R313 to R317, R328). `progs` holds the programs read by SMBIND, `stall` the rows that wait for the slow-path
ring. -/
structure Cupola where
  en : Bool
  sbbase : BitVec 48
  asbase : BitVec 48
  score : BitVec 8
  srng : BitVec 4
  sren : Bool
  rows : BitVec 32
  diverts : BitVec 32
  segdrop : BitVec 32
  ctfull : BitVec 32
  port : List Segment
  bufs : List RowBuf
  accepted : List Row
  progs : List (BitVec 16 × List (BitVec 32))
  stall : List Nat
  tcache : List CacheEntry
  deriving DecidableEq, Repr

/-- A program in Lantern's queue, and the parcel address of its LNRUN (R144, R341, R342). -/
structure LnProg where
  id : Nat
  core : Fin 256
  ctx : Fin 64
  pc : PAddr
  base : Nat
  blk : List Word
  deriving DecidableEq, Repr

/-- Lantern's running program: words, rank table and descriptors as read once, POFF, the loop counters, the step it
stands at; of that step, the phase (`idx`: 1 once LNRRS has reduced, 2 while the messages of a send are out) and whether
it has consumed its arrival (`got`), and the elements, or blocks of an image, that it has applied (`done`, R352); the
tile it is stopped on, and the cell it waits on (R343, R347, R350, R352). -/
structure LnRun where
  prog : LnProg
  words : List Word
  ranks : List (BitVec 32)
  descs : List (List Word)
  poff : Nat
  pc : Nat
  cnt : Vector (BitVec 32) 3
  poisoned : Bool
  idx : Nat
  got : Bool
  done : Nat
  stop : Option (BitVec 20 × Nat × Bool)
  wait : Option (Fin 256 × Nat)
  deriving DecidableEq, Repr

/-- Lantern (R335, R342, R349). -/
structure Lantern where
  en : Bool
  lctx : Fin 64
  heapt : BitVec 20
  fabid : BitVec 10
  gtbase : BitVec 48
  rseq : BitVec 32
  psnrx : BitVec 32
  fdrop : BitVec 32
  queue : List LnProg
  run : Option LnRun
  arr : Vector (BitVec 32) 16
  con : Vector (BitVec 32) 16
  poisonNext : Bool
  tcache : List CacheEntry
  deriving DecidableEq, Repr

/-- The gatherer's configuration (R267). -/
structure GCfg where
  ctx : Fin 64
  nbkt : Nat
  rowb : Nat
  thr : Nat
  buft : BitVec 20
  pbar : BitVec 32
  cons : BitVec 16
  deriving DecidableEq, Repr

/-- The request gatherer (R267 to R271): FILL and CNT of each bucket, the held buffers, the descriptor queue. -/
structure Gatherer where
  cfg : Option GCfg
  fill : Vector Bool 1024
  cnt : Vector Nat 1024
  held : List (Nat × Bool)
  dq : List (List Word)
  gseq : BitVec 32
  tcache : List CacheEntry
  deriving DecidableEq, Repr

/-- One die: its clock count, its dispatcher's records, and its units (R16, R69, R221); `took` holds, by a unit's place in
R237's order, the clock and the place within it of what the unit has accepted last (R11). -/
structure Die where
  cycle : Word
  took : Vector (Option (Word × Nat)) 10
  recs : List Rec
  belfry : Belfry
  camp : Campanile
  cup : Cupola
  lan : Lantern
  gat : Gatherer
  deriving DecidableEq, Repr

def HopState.reset : HopState := ⟨0, 0, false, 0, none, 0, 0, 0, 0, 0, 0, 0, 0⟩

def BSlot.reset : BSlot where
  bound := false
  running := false
  ctx := 0
  addr := 0
  nent := 0
  subs := 0
  win := Vector.replicate 3 (Vector.replicate 4 1)
  stat := 0
  run := 0
  started := 0
  done := 0
  rt := 16
  onrun := 0
  poison := false
  pent := 0
  hops := Vector.replicate 3 HopState.reset
  marks := Vector.replicate 64 0
  ents := []

def Belfry.reset : Belfry := ⟨Vector.replicate 4 BSlot.reset, [], [], [], [], none, []⟩
def Pool.reset : Pool := ⟨0, 0, 0, false, false, 0, 0, 0, 0, 0⟩
def Campanile.reset : Campanile := ⟨false, 0, 0, 0, 0, 0, 0, 0, 0, Vector.replicate 16 Pool.reset, [], [], [], []⟩
def Cupola.reset : Cupola := ⟨false, 0, 0, 0, 0, false, 0, 0, 0, 0, [], [], [], [], [], []⟩
def Lantern.reset : Lantern :=
  ⟨false, 0, 0, 0, 0, 0, 0, 0, [], none, Vector.replicate 16 0, Vector.replicate 16 0, false, []⟩
def Gatherer.reset : Gatherer := ⟨none, Vector.replicate 1024 false, Vector.replicate 1024 0, [], [], 0, []⟩

/-- A die after power-up (R69, R293, R313, R335). -/
def Die.reset : Die :=
  ⟨0, Vector.replicate 10 none, [], Belfry.reset, Campanile.reset, Cupola.reset, Lantern.reset, Gatherer.reset⟩

/-! ## The package -/

/-- An entry of the MSI-X table (R357). -/
structure MsiEntry where
  addr : Word
  data : BitVec 32
  mask : Bool
  deriving DecidableEq, Repr

/-- An outbound fabric message, with the number of the operation or shard that waits for it, the die from which it leaves,
and whether a fabric port of the die has taken it (R285, R263, R347, R348). -/
structure OutMsg where
  tag : Nat
  die : Fin 4
  sent : Bool
  msg : FMsg
  deriving DecidableEq, Repr

/-- A message that a receiving port holds by flow control, with the tile of the heap that it waits for, if it does (R339,
R352). -/
structure HeldMsg where
  msg : FMsg
  stop : Option (BitVec 20 × Nat × Bool)
  deriving DecidableEq, Repr

/-- Data messages of one stream and one other package: those accepted from it, or those sent to it (R338). -/
structure StreamCount where
  pkg : BitVec 10
  stream : BitVec 16
  count : BitVec 32
  deriving DecidableEq, Repr

/-- The fuses of the part (R33 to R37, R361 to R363): presence bits per die, stepping, key digest, least SVN. -/
structure Fuses where
  cores : Vector (BitVec 64) 4
  pch : Vector (BitVec 64) 4
  bulk : Vector (BitVec 8) 4
  fab : Vector (BitVec 4) 4
  cxl : Vector (BitVec 2) 4
  step : BitVec 4
  keyDigest : BitVec 256
  minSvn : BitVec 32
  deriving DecidableEq, Repr

/-- Power, boot, attestation and measurements (R359 to R364). -/
structure Boot where
  powered : Bool
  state : BitVec 2
  code : BitVec 8
  goLen : BitVec 32
  laframe : BitVec 30
  meas : Vector (BitVec 512) 4
  ocode : List Byte
  oentry : BitVec 32
  nonce : BitVec 256
  attest : Option Word
  deriving DecidableEq, Repr

/-- An agent of the wait-for table: its code, and the number of its record where it is a saved task (R237, R238). -/
structure Waiter where
  code : BitVec 16
  saved : Option Nat
  deriving DecidableEq, Repr

/-- The agent whose step is being taken (log entry 5). -/
inductive Focus where
  | none
  | engine (g : Fin 256) (e : Engine)
  | unit (d : Fin 4) (u : UnitKind)
  deriving DecidableEq, Repr

/-- The machine behind the boot logic: cores, contexts, dies, memories, operations, and what the package shares.
`outbox` holds the messages that their receivers have not accepted, `inbox` those that a port of the package holds
(R339, R352), `streams` and `outStreams` the data messages accepted and sent of each stream (R338); `lastCycles`,
`touched` and `walkAt` belong to the wait-for walk (R239). `seq` counts steps and `nextId` numbers operations and
records; both are the model's own. -/
structure Mach where
  seq : Nat
  nextId : Nat
  focus : Focus
  fuses : Fuses
  cores : Vector Core 256
  ctxs : Vector Ctx 64
  dies : Vector Die 4
  dev : Memory
  host : Memory
  devBad : List Nat
  devGlitch : List Nat
  ops : List Op
  arrivals : List Arrival
  signallers : List ((Fin 64 × Fin 256 × Nat) × BitVec 16)
  lastCycles : List (List Waiter)
  touched : List (Fin 256 × Nat)
  walkAt : Word
  errbase : Word
  errhead : BitVec 32
  errtail : BitVec 32
  trans : BitVec 32
  errlost : BitVec 32
  pdec : Vector Word 16
  regions : Vector (Vector Word 64) 16
  msix : Vector MsiEntry 130
  msiPend : BitVec 130
  msiSent : List (Fin 130)
  outbox : List OutMsg
  inbox : List HeldMsg
  streams : List StreamCount
  outStreams : List StreamCount
  nextStream : BitVec 16
  deriving DecidableEq, Repr

/-- The whole state: boot logic, machine, and the moves to come (log entry 5). -/
structure State where
  boot : Boot
  m : Mach
  agenda : List Move
  deriving DecidableEq, Repr

/-- Why the machine stops for good. Nothing in the spec stops the part in a way that no later event ends: traps,
poison, failed boots and lost power are states of the machine, so there is no reason to list. -/
inductive Fault where
  deriving DecidableEq, Repr

/-- Why a step is refused. -/
inductive Refusal where
  /-- Raised by an arm of exec for an instruction that has no meaning yet. Safe: nothing is concluded. -/
  | notModelled (mnemonic : String)
  deriving DecidableEq, Repr

/-- The fuses of a full part (R37; log entry 7). -/
def Fuses.full : Fuses where
  cores := Vector.replicate 4 (BitVec.allOnes 64)
  pch := Vector.replicate 4 (BitVec.allOnes 64)
  bulk := Vector.replicate 4 (BitVec.allOnes 8)
  fab := Vector.replicate 4 (BitVec.allOnes 4)
  cxl := Vector.replicate 4 (BitVec.allOnes 2)
  step := 0
  keyDigest := 0
  minSvn := 0

/-- The boot logic after power-up (R359, R363). -/
def Boot.reset : Boot := ⟨true, 0, 0, 0, 0, Vector.replicate 4 0, [], 0, 0, none⟩

/-- The machine of a part with the given fuses, after power-up (R9, R360). -/
def Mach.reset (f : Fuses) : Mach where
  seq := 0
  nextId := 0
  focus := .none
  fuses := f
  cores := Vector.replicate 256 Core.reset
  ctxs := Vector.replicate 64 Ctx.reset
  dies := Vector.replicate 4 Die.reset
  dev := []
  host := []
  devBad := []
  devGlitch := []
  ops := []
  arrivals := []
  signallers := []
  lastCycles := []
  touched := []
  walkAt := 0
  errbase := 0
  errhead := 0
  errtail := 0
  trans := 0
  errlost := 0
  pdec := Vector.replicate 16 0
  regions := Vector.replicate 16 (Vector.replicate 64 0)
  msix := Vector.replicate 130 ⟨0, 0, true⟩
  msiPend := 0
  msiSent := []
  outbox := []
  inbox := []
  streams := []
  outStreams := []
  nextStream := 0

/-- The state after power-up: the boot ROM waits for an image, nothing runs, no memory is written (R360, R361). -/
def State.reset : State := ⟨Boot.reset, Mach.reset Fuses.full, []⟩

end Sys2Proof.Machine
end

