-- ==== Sys2Proof/Machine/Bits.lean ====
section
/-!
DEFINITION. Bit fields, byte order, and access to the parts of the state: the plainest operations of the
machine (spec/00_scope.md R4, R5; spec/01_organisation.md R17).
-/
namespace Sys2Proof.Machine

/-- Component i of a file replaced by f of itself. -/
def upd {α : Type} {n : Nat} (v : Vector α n) (i : Fin n) (f : α → α) : Vector α n :=
  v.set i.val (f v[i.val]) i.isLt

/-- Component i of a file set to x. -/
def put {α : Type} {n : Nat} (v : Vector α n) (i : Fin n) (x : α) : Vector α n := v.set i.val x i.isLt

/-- f of every component of a file. -/
def each {α β : Type} {n : Nat} (v : Vector α n) (f : α → β) : Vector β n := Vector.ofFn fun i => f v[i.val]

/-- Bits lo to lo + w − 1 of a word, as a number (R4). -/
def wf (x : Word) (lo w : Nat) : Nat := fld x.toNat lo w

/-- Bit lo of a word. -/
def wb (x : Word) (lo : Nat) : Bool := x.getLsbD lo

/-- The number of a list of bytes, least significant first (R5). -/
def leVal : List Byte → Nat
  | [] => 0
  | b :: bs => b.toNat + 256 * leVal bs

/-- The words of a block of bytes, in ascending order (R5); n words. -/
def wordsOf : Nat → List Byte → List Word
  | 0, _ => []
  | n + 1, bs => BitVec.ofNat 64 (leVal (bs.take 8)) :: wordsOf n (bs.drop 8)

/-- The eight bytes of a word (R5). -/
def wordBytes (w : Word) : List Byte := leBytes 8 w.toNat

/-- Word k of a block that was read, at byte offset 8·k; 0 beyond it. -/
def blkW (blk : List Word) (k : Nat) : Word := blk.getD k 0

/-- A number reduced to a core number, a die, a context, a register. -/
def toCore (n : Nat) : Fin 256 := Fin.ofNat 256 n
def toDie (n : Nat) : Fin 4 := Fin.ofNat 4 n
def toCtx (n : Nat) : Fin 64 := Fin.ofNat 64 n

/-- A signed 64-bit word as an integer. -/
def sInt (w : Word) : Int := w.toInt

/-- An integer as a word, modulo 2^64. -/
def ofInt64 (x : Int) : Word := BitVec.ofInt 64 x

/-- A counter that saturates at 2^32 − 1 (R293, R313, R335). -/
def sat32 (x : BitVec 32) : BitVec 32 := if x = BitVec.allOnes 32 then x else x + 1

/-! ## Engines, cores, dies -/

/-- The ENG code of an engine (R75). -/
def engIx : Engine → Fin 6
  | .sc => 0 | .ld => 1 | .st => 2 | .vx => 3 | .mx => 4 | .asy => 5

/-- The engines in the order of their codes. -/
def engines : List Engine := [.sc, .ld, .st, .vx, .mx, .asy]

/-- The cores in ascending number. -/
def coreNums : List (Fin 256) := (List.range 256).map toCore

/-- The dies in ascending number. -/
def dieNums : List (Fin 4) := [0, 1, 2, 3]

/-- The die, the cluster within the die and the core within the cluster of a package core number (R17). -/
def dieOf (g : Fin 256) : Fin 4 := toDie (g.val / 64)
def clusterOf (g : Fin 256) : Nat := g.val / 8 % 8
def inClusterOf (g : Fin 256) : Nat := g.val % 8

/-- The state of an engine, and that state updated. -/
def Core.e (c : Core) (e : Engine) : EngState := c.eng[(engIx e).val]
def Core.onE (c : Core) (e : Engine) (f : EngState → EngState) : Core := { c with eng := upd c.eng (engIx e) f }

/-- A core, context or die of the machine, and the machine with it updated. -/
def Mach.core (m : Mach) (g : Fin 256) : Core := m.cores[g.val]
def Mach.onCore (m : Mach) (g : Fin 256) (f : Core → Core) : Mach := { m with cores := upd m.cores g f }
def Mach.ctx (m : Mach) (c : Fin 64) : Ctx := m.ctxs[c.val]
def Mach.onCtx (m : Mach) (c : Fin 64) (f : Ctx → Ctx) : Mach := { m with ctxs := upd m.ctxs c f }
def Mach.die (m : Mach) (d : Fin 4) : Die := m.dies[d.val]
def Mach.onDie (m : Mach) (d : Fin 4) (f : Die → Die) : Mach := { m with dies := upd m.dies d f }
def Mach.onBelfry (m : Mach) (d : Fin 4) (f : Belfry → Belfry) : Mach :=
  m.onDie d fun x => { x with belfry := f x.belfry }
def Mach.onCamp (m : Mach) (d : Fin 4) (f : Campanile → Campanile) : Mach :=
  m.onDie d fun x => { x with camp := f x.camp }
def Mach.onCup (m : Mach) (d : Fin 4) (f : Cupola → Cupola) : Mach :=
  m.onDie d fun x => { x with cup := f x.cup }
def Mach.onLan (m : Mach) (d : Fin 4) (f : Lantern → Lantern) : Mach :=
  m.onDie d fun x => { x with lan := f x.lan }
def Mach.onGat (m : Mach) (d : Fin 4) (f : Gatherer → Gatherer) : Mach :=
  m.onDie d fun x => { x with gat := f x.gat }

/-- The clock count of a core's die (R69). -/
def Mach.clock (m : Mach) (g : Fin 256) : Word := (m.die (dieOf g)).cycle

/-- Whether a core is present (R34, R38). -/
def Mach.present (m : Mach) (g : Fin 256) : Bool :=
  (m.fuses.cores[(dieOf g).val]).getLsbD (g.val % 64)

/-- The number of 1 bits of a word. -/
def popcount {n : Nat} (x : BitVec n) : Nat := ((List.range n).filter fun i => x.getLsbD i).length

/-- S register r: S0 reads zero (R62). -/
def Core.rs (c : Core) (r : Fin 32) : Word := if r.val = 0 then 0 else c.s[r.val]

/-- A write of S register r: a write to S0 is discarded (R62). -/
def Core.ws (c : Core) (r : Fin 32) (x : Word) : Core := if r.val = 0 then c else { c with s := put c.s r x }

/-- Mask k: M0 reads all ones (R67). -/
def Core.rm (c : Core) (k : Fin 8) : BitVec 1024 := if k.val = 0 then BitVec.allOnes 1024 else c.m[k.val]

/-- A write of mask k: a write to M0 is discarded (R67). -/
def Core.wm (c : Core) (k : Fin 8) (x : BitVec 1024) : Core :=
  if k.val = 0 then c else { c with m := put c.m k x }

/-! ## Memories -/

/-- One byte: an unlisted address reads 0 (log entry 2). -/
def Memory.read1 (m : Memory) (a : Nat) : Byte := (List.lookup a m).getD 0

/-- n bytes from address a upward. -/
def Memory.read (m : Memory) (a n : Nat) : List Byte := (List.range n).map fun k => Memory.read1 m (a + k)

/-- A 64-bit word (R5). -/
def Memory.readW (m : Memory) (a : Nat) : Word := BitVec.ofNat 64 (leVal (Memory.read m a 8))

/-- A 32-bit word (R5). -/
def Memory.readL (m : Memory) (a : Nat) : Lane := BitVec.ofNat 32 (leVal (Memory.read m a 4))

/-- The cells of a run of bytes, zero bytes left out. -/
def cellsAt (a : Nat) : List Byte → List Host.Cell
  | [] => []
  | b :: bs => if b = 0 then cellsAt (a + 1) bs else (a, b) :: cellsAt (a + 1) bs

/-- A run of bytes written from address a upward; the canonical form is kept. -/
def Memory.write (m : Memory) (a : Nat) (bs : List Byte) : Memory :=
  m.filter (fun c => c.1 < a) ++ cellsAt a bs ++ m.filter (fun c => a + bs.length ≤ c.1)

/-- A run of n zero bytes written. -/
def Memory.clear (m : Memory) (a n : Nat) : Memory := m.filter fun c => c.1 < a || a + n ≤ c.1

/-- The dirty bits of the 4 KiB regions that n bytes from a touch (R168). -/
def dirtyOf (a n : Nat) : BitVec 768 :=
  if n = 0 then 0 else BitVec.ofNat 768 ((2 ^ ((a + n - 1) / 4096 - a / 4096 + 1) - 1) * 2 ^ (a / 4096))

/-- A write into a core's scratchpad at its port: the bytes, and the dirty bits (R168). -/
def Core.wspad (c : Core) (a : Nat) (bs : List Byte) : Core :=
  { c with spad := Memory.write c.spad a bs, dirty := c.dirty ||| dirtyOf a bs.length }

/-- The same for core g of the machine. -/
def Mach.wspad (m : Mach) (g : Fin 256) (a : Nat) (bs : List Byte) : Mach := m.onCore g fun c => c.wspad a bs

end Sys2Proof.Machine
end

