-- ==== Sys2Proof/Machine/Legal.lean ====
section
/-!
DEFINITION. Which parcels are legal: the engine, length, tokens and operands of an instruction, and the
encoding faults that R94 ranks before an entry's own conditions (spec/03_encoding.md R60, R66, R77, R86 to R94).
-/
namespace Sys2Proof.Machine

/-- The WAIT and SIG fields of a parcel instruction; a Lantern step or an event has none (R75, R346). -/
def tokOf : Instr → Option Tok
  | .nop t | .add t _ _ _ | .addS t _ _ _ | .addUs t _ _ _ | .addI t _ _ _ | .sub t _ _ _ | .subS t _ _ _
  | .subUs t _ _ _ | .mul t _ _ _ | .mulS t _ _ _ | .mulHi t _ _ _ | .mulHu t _ _ _ | .mulI t _ _ _
  | .div t _ _ _ | .divU t _ _ _ | .divR t _ _ _ | .divRu t _ _ _ | .and t _ _ _ | .andI t _ _ _
  | .or t _ _ _ | .orI t _ _ _ | .xor t _ _ _ | .xorI t _ _ _ | .shl t _ _ _ | .shlI t _ _ _ | .shr t _ _ _
  | .shrI t _ _ _ | .shrA t _ _ _ | .shrAi t _ _ _ | .cmp t _ _ _ _ | .sel t _ _ _ _ | .min t _ _ _
  | .minU t _ _ _ | .max t _ _ _ | .maxU t _ _ _ | .bits t _ _ _ _ | .bitsS t _ _ _ _ | .bitsIns t _ _ _ _
  | .bitsCnt t _ _ | .bitsClz t _ _ | .mov t _ _ | .movQw t _ _ | .movQr t _ _ | .movi t _ _ | .moviL t _ _ _
  | .apat t _ _ _ | .br t _ _ _ _ | .jmp t _ | .jmpR t _ | .jmpL t _ | .call t _ _ | .callR t _ _
  | .callL t _ _ | .ret t _ | .loop t _ _ | .loopR t _ _ | .sld t _ _ _ | .sldW t _ _ _ | .sldWs t _ _ _
  | .sst t _ _ _ | .sstW t _ _ _ | .getsr t _ _ | .setsr t _ _ | .trap t _ | .bkpt t _ | .tend t
  | .tspawn t _ | .tjoin t _ | .yield t | .fenceAcq t _ | .fenceRel t _ | .fence t _ | .mark t | .quies t
  | .notify t _ | .gpget t _ _ | .gpset t _ _ | .vld t _ _ _ _ _ _ | .vldx t _ _ _ _ _ _ _
  | .vst t _ _ _ _ _ _ | .vstx t _ _ _ _ _ _ _ | .vadd t _ _ _ _ _ | .vsub t _ _ _ _ _ | .vmul t _ _ _ _ _
  | .vfma t _ _ _ _ _ _ | .vfmaNm t _ _ _ _ _ _ | .vdiv t _ _ _ _ _ | .vsqrt t _ _ _ _ | .vsfExp2 t _ _ _ _
  | .vsfLog2 t _ _ _ _ | .vsfRcp t _ _ _ _ | .vsfRsqrt t _ _ _ _ | .vsfSin t _ _ _ _ | .vsfCos t _ _ _ _
  | .vsfTanh t _ _ _ _ | .vsfErf t _ _ _ _ | .vsfSigm t _ _ _ _ | .vmin t _ _ _ _ _ | .vminP t _ _ _ _ _
  | .vmax t _ _ _ _ _ | .vmaxP t _ _ _ _ _ | .vcmp t _ _ _ _ _ _ | .vicmp t _ _ _ _ _ _ | .vsel t _ _ _ _
  | .vmov t _ _ _ | .vmovI t _ _ _ | .vcvt t _ _ _ _ _ | .viadd t _ _ _ _ _ | .viaddS t _ _ _ _ _
  | .visub t _ _ _ _ _ | .visubS t _ _ _ _ _ | .vimul t _ _ _ _ _ | .vimulS t _ _ _ _ _
  | .vimulHi t _ _ _ _ _ | .vimin t _ _ _ _ _ | .vimax t _ _ _ _ _ | .vand t _ _ _ _ | .vor t _ _ _ _
  | .vxor t _ _ _ _ | .vshl t _ _ _ _ _ | .vshr t _ _ _ _ _ | .vshlI t _ _ _ _ _ | .vshrI t _ _ _ _ _
  | .vpermb t _ _ _ _ | .vrotr t _ _ _ _ | .vrotc t _ _ _ _ | .vbcr t _ _ _ _ | .vbcc t _ _ _ _
  | .vredrAdd t _ _ _ _ | .vredrMax t _ _ _ _ | .vredrMin t _ _ _ _ | .vredcAdd t _ _ _ _
  | .vredcMax t _ _ _ _ | .vredcMin t _ _ _ _ | .vscanrAdd t _ _ _ _ | .vscanrMax t _ _ _ _
  | .vscancAdd t _ _ _ _ | .vscancMax t _ _ _ _ | .vtrn t _ _ _ | .viota t _ _ _ _ | .vspl t _ _ _ _
  | .vext t _ _ _ _ | .vins t _ _ _ _ | .vpack t _ _ _ _ _ | .vunpk t _ _ _ _ _ | .vspz t _ _ _ _ _
  | .vmop t _ _ _ _ | .vmcnt t _ _ _ | .vrand t _ _ | .vrandU t _ _ _ | .mzero t _ _ | .mwld t _ _
  | .mwldS4 t _ _ | .mwldS2 t _ _ | .mwldS1 t _ _ | .mmul t _ _ _ _ _ _ _ | .matt t _ _ _ _ _ _ _ _ _
  | .mdrn t _ _ _ _ | .mdrnF t _ _ _ | .mdrnSm t _ _ _ | .mepi t _ | .macfg t _ | .xcp t _ _ | .xcpCvt t _ _
  | .xcpMc t _ _ | .xcpKv t _ _ | .xaccAdd t _ _ | .xaccMin t _ _ | .xaccMax t _ _ | .xaccAnd t _ _
  | .xaccOr t _ _ | .xaccXor t _ _ | .xatomAdd t _ _ | .xatomMin t _ _ | .xatomMax t _ _ | .xatomAnd t _ _
  | .xatomOr t _ _ | .xatomXor t _ _ | .xatomSwap t _ _ | .xatomCas t _ _ | .xfill t _ _ | .vatomAdd t _ _
  | .vatomMin t _ _ | .vatomMax t _ _ | .vatomAnd t _ _ | .vatomOr t _ _ | .vatomXor t _ _ | .binit t _
  | .barv t _ | .bwait t _ _ | .rngcfg t _ | .rngwf t _ _ | .rngwe t _ _ | .rngpub t _ | .rngrel t _
  | .btld t _ | .btlk t _ | .btinv t _ | .balloc t _ | .bfree t _ | .bref t _ | .btopen t _ | .btclose t _
  | .btapp t _ | .btfork t _ | .bttrim t _ | .btcmt t _ | .bhfind t _ | .bhpub t _ | .itbind t _ | .itgo t _
  | .itstat t _ | .objplace t _ | .objpin t _ | .rgcfg t _ | .rgpush t _ | .rgtakeTake t _
  | .rgtakeRelease t _ | .smbind t _ | .smrun t _ | .clrslow t _ | .addcnt t _ | .clrcnt t _ | .armv t _
  | .setstep t _ | .smstat t _ | .lnrun t _ | .lnstat t _ => some t
  | _ => none

/-- The engine that a parcel's ENG names (R75). -/
def owner : Instr → Option Engine
  | .nop _ | .add _ _ _ _ | .addS _ _ _ _ | .addUs _ _ _ _ | .addI _ _ _ _ | .sub _ _ _ _ | .subS _ _ _ _
  | .subUs _ _ _ _ | .mul _ _ _ _ | .mulS _ _ _ _ | .mulHi _ _ _ _ | .mulHu _ _ _ _ | .mulI _ _ _ _
  | .div _ _ _ _ | .divU _ _ _ _ | .divR _ _ _ _ | .divRu _ _ _ _ | .and _ _ _ _ | .andI _ _ _ _
  | .or _ _ _ _ | .orI _ _ _ _ | .xor _ _ _ _ | .xorI _ _ _ _ | .shl _ _ _ _ | .shlI _ _ _ _ | .shr _ _ _ _
  | .shrI _ _ _ _ | .shrA _ _ _ _ | .shrAi _ _ _ _ | .cmp _ _ _ _ _ | .sel _ _ _ _ _ | .min _ _ _ _
  | .minU _ _ _ _ | .max _ _ _ _ | .maxU _ _ _ _ | .bits _ _ _ _ _ | .bitsS _ _ _ _ _ | .bitsIns _ _ _ _ _
  | .bitsCnt _ _ _ | .bitsClz _ _ _ | .mov _ _ _ | .movQw _ _ _ | .movQr _ _ _ | .movi _ _ _ | .moviL _ _ _ _
  | .apat _ _ _ _ | .br _ _ _ _ _ | .jmp _ _ | .jmpR _ _ | .jmpL _ _ | .call _ _ _ | .callR _ _ _
  | .callL _ _ _ | .ret _ _ | .loop _ _ _ | .loopR _ _ _ | .sld _ _ _ _ | .sldW _ _ _ _ | .sldWs _ _ _ _
  | .sst _ _ _ _ | .sstW _ _ _ _ | .getsr _ _ _ | .setsr _ _ _ | .trap _ _ | .bkpt _ _ | .tend _
  | .tspawn _ _ | .tjoin _ _ | .yield _ | .fenceAcq _ _ | .fenceRel _ _ | .fence _ _ | .mark _ | .quies _
  | .notify _ _ | .gpget _ _ _ | .gpset _ _ _ => some .sc
  | .vld _ _ _ _ _ _ _ | .vldx _ _ _ _ _ _ _ _ => some .ld
  | .vst _ _ _ _ _ _ _ | .vstx _ _ _ _ _ _ _ _ => some .st
  | .vadd _ _ _ _ _ _ | .vsub _ _ _ _ _ _ | .vmul _ _ _ _ _ _ | .vfma _ _ _ _ _ _ _ | .vfmaNm _ _ _ _ _ _ _
  | .vdiv _ _ _ _ _ _ | .vsqrt _ _ _ _ _ | .vsfExp2 _ _ _ _ _ | .vsfLog2 _ _ _ _ _ | .vsfRcp _ _ _ _ _
  | .vsfRsqrt _ _ _ _ _ | .vsfSin _ _ _ _ _ | .vsfCos _ _ _ _ _ | .vsfTanh _ _ _ _ _ | .vsfErf _ _ _ _ _
  | .vsfSigm _ _ _ _ _ | .vmin _ _ _ _ _ _ | .vminP _ _ _ _ _ _ | .vmax _ _ _ _ _ _ | .vmaxP _ _ _ _ _ _
  | .vcmp _ _ _ _ _ _ _ | .vicmp _ _ _ _ _ _ _ | .vsel _ _ _ _ _ | .vmov _ _ _ _ | .vmovI _ _ _ _
  | .vcvt _ _ _ _ _ _ | .viadd _ _ _ _ _ _ | .viaddS _ _ _ _ _ _ | .visub _ _ _ _ _ _ | .visubS _ _ _ _ _ _
  | .vimul _ _ _ _ _ _ | .vimulS _ _ _ _ _ _ | .vimulHi _ _ _ _ _ _ | .vimin _ _ _ _ _ _ | .vimax _ _ _ _ _ _
  | .vand _ _ _ _ _ | .vor _ _ _ _ _ | .vxor _ _ _ _ _ | .vshl _ _ _ _ _ _ | .vshr _ _ _ _ _ _
  | .vshlI _ _ _ _ _ _ | .vshrI _ _ _ _ _ _ | .vpermb _ _ _ _ _ | .vrotr _ _ _ _ _ | .vrotc _ _ _ _ _
  | .vbcr _ _ _ _ _ | .vbcc _ _ _ _ _ | .vredrAdd _ _ _ _ _ | .vredrMax _ _ _ _ _ | .vredrMin _ _ _ _ _
  | .vredcAdd _ _ _ _ _ | .vredcMax _ _ _ _ _ | .vredcMin _ _ _ _ _ | .vscanrAdd _ _ _ _ _
  | .vscanrMax _ _ _ _ _ | .vscancAdd _ _ _ _ _ | .vscancMax _ _ _ _ _ | .vtrn _ _ _ _ | .viota _ _ _ _ _
  | .vspl _ _ _ _ _ | .vext _ _ _ _ _ | .vins _ _ _ _ _ | .vpack _ _ _ _ _ _ | .vunpk _ _ _ _ _ _
  | .vspz _ _ _ _ _ _ | .vmop _ _ _ _ _ | .vmcnt _ _ _ _ | .vrand _ _ _ | .vrandU _ _ _ _ => some .vx
  | .mzero _ _ _ | .mwld _ _ _ | .mwldS4 _ _ _ | .mwldS2 _ _ _ | .mwldS1 _ _ _ | .mmul _ _ _ _ _ _ _ _
  | .matt _ _ _ _ _ _ _ _ _ _ | .mdrn _ _ _ _ _ | .mdrnF _ _ _ _ | .mdrnSm _ _ _ _ | .mepi _ _ | .macfg _ _ => some .mx
  | .xcp _ _ _ | .xcpCvt _ _ _ | .xcpMc _ _ _ | .xcpKv _ _ _ | .xaccAdd _ _ _ | .xaccMin _ _ _
  | .xaccMax _ _ _ | .xaccAnd _ _ _ | .xaccOr _ _ _ | .xaccXor _ _ _ | .xatomAdd _ _ _ | .xatomMin _ _ _
  | .xatomMax _ _ _ | .xatomAnd _ _ _ | .xatomOr _ _ _ | .xatomXor _ _ _ | .xatomSwap _ _ _ | .xatomCas _ _ _
  | .xfill _ _ _ | .vatomAdd _ _ _ | .vatomMin _ _ _ | .vatomMax _ _ _ | .vatomAnd _ _ _ | .vatomOr _ _ _
  | .vatomXor _ _ _ | .binit _ _ | .barv _ _ | .bwait _ _ _ | .rngcfg _ _ | .rngwf _ _ _ | .rngwe _ _ _
  | .rngpub _ _ | .rngrel _ _ | .btld _ _ | .btlk _ _ | .btinv _ _ | .balloc _ _ | .bfree _ _ | .bref _ _
  | .btopen _ _ | .btclose _ _ | .btapp _ _ | .btfork _ _ | .bttrim _ _ | .btcmt _ _ | .bhfind _ _
  | .bhpub _ _ | .itbind _ _ | .itgo _ _ | .itstat _ _ | .objplace _ _ | .objpin _ _ | .rgcfg _ _
  | .rgpush _ _ | .rgtakeTake _ _ | .rgtakeRelease _ _ | .smbind _ _ | .smrun _ _ | .clrslow _ _
  | .addcnt _ _ | .clrcnt _ _ | .armv _ _ | .setstep _ _ | .smstat _ _ | .lnrun _ _ | .lnstat _ _ => some .asy
  | _ => none

/-- A long instruction has a second parcel (R76). -/
def isLong : Instr → Bool
  | .moviL _ _ _ _ | .jmpL _ _ | .callL _ _ _ | .vldx _ _ _ _ _ _ _ _ | .vstx _ _ _ _ _ _ _ _
  | .vmovI _ _ _ _ | .matt _ _ _ _ _ _ _ _ _ _ => true
  | _ => false

/-- Parcels the instruction occupies (R75, R76). -/
def parcels (i : Instr) : Nat := if isLong i then 2 else 1

/-- The source specifiers a VX instruction reads, in the order A, B, C (R66, R437). -/
def vxSources : Instr → List VSpec
  | .vadd _ _ a b _ _ | .vsub _ _ a b _ _ | .vmul _ _ a b _ _ | .vdiv _ _ a b _ _ | .vmin _ _ a b _ _
  | .vminP _ _ a b _ _ | .vmax _ _ a b _ _ | .vmaxP _ _ a b _ _ | .vcmp _ _ a b _ _ _ | .vicmp _ _ a b _ _ _
  | .vsel _ _ a b _ | .viadd _ _ a b _ _ | .viaddS _ _ a b _ _ | .visub _ _ a b _ _ | .visubS _ _ a b _ _
  | .vimul _ _ a b _ _ | .vimulS _ _ a b _ _ | .vimulHi _ _ a b _ _ | .vimin _ _ a b _ _ | .vimax _ _ a b _ _
  | .vand _ _ a b _ | .vor _ _ a b _ | .vxor _ _ a b _ | .vshl _ _ a b _ _ | .vshr _ _ a b _ _
  | .vpermb _ _ a b _ | .vspl _ _ a b _ | .vext _ _ a b _ | .vins _ _ a b _ | .vpack _ _ a b _ _
  | .vunpk _ _ a b _ _ => [a, b]
  | .vfma _ _ a b c _ _ | .vfmaNm _ _ a b c _ _ => [a, b, c]
  | .vsqrt _ _ a _ _ | .vsfExp2 _ _ a _ _ | .vsfLog2 _ _ a _ _ | .vsfRcp _ _ a _ _ | .vsfRsqrt _ _ a _ _
  | .vsfSin _ _ a _ _ | .vsfCos _ _ a _ _ | .vsfTanh _ _ a _ _ | .vsfErf _ _ a _ _ | .vsfSigm _ _ a _ _
  | .vmov _ _ a _ | .vcvt _ _ a _ _ _ | .vshlI _ _ a _ _ _ | .vshrI _ _ a _ _ _ | .vrotr _ _ a _ _
  | .vrotc _ _ a _ _ | .vbcr _ _ a _ _ | .vbcc _ _ a _ _ | .vredrAdd _ _ a _ _ | .vredrMax _ _ a _ _
  | .vredrMin _ _ a _ _ | .vredcAdd _ _ a _ _ | .vredcMax _ _ a _ _ | .vredcMin _ _ a _ _
  | .vscanrAdd _ _ a _ _ | .vscanrMax _ _ a _ _ | .vscancAdd _ _ a _ _ | .vscancMax _ _ a _ _ | .vtrn _ _ a _
  | .viota _ _ a _ _ | .vspz _ _ a _ _ _ => [a]
  | _ => []

/-- The destination specifier of a VX instruction that writes V, W or a queue (R66). -/
def vxDest : Instr → Option VSpec
  | .vadd _ d _ _ _ _ | .vsub _ d _ _ _ _ | .vmul _ d _ _ _ _ | .vfma _ d _ _ _ _ _ | .vfmaNm _ d _ _ _ _ _
  | .vdiv _ d _ _ _ _ | .vsqrt _ d _ _ _ | .vsfExp2 _ d _ _ _ | .vsfLog2 _ d _ _ _ | .vsfRcp _ d _ _ _
  | .vsfRsqrt _ d _ _ _ | .vsfSin _ d _ _ _ | .vsfCos _ d _ _ _ | .vsfTanh _ d _ _ _ | .vsfErf _ d _ _ _
  | .vsfSigm _ d _ _ _ | .vmin _ d _ _ _ _ | .vminP _ d _ _ _ _ | .vmax _ d _ _ _ _ | .vmaxP _ d _ _ _ _
  | .vsel _ d _ _ _ | .vmov _ d _ _ | .vmovI _ d _ _ | .vcvt _ d _ _ _ _ | .viadd _ d _ _ _ _
  | .viaddS _ d _ _ _ _ | .visub _ d _ _ _ _ | .visubS _ d _ _ _ _ | .vimul _ d _ _ _ _ | .vimulS _ d _ _ _ _
  | .vimulHi _ d _ _ _ _ | .vimin _ d _ _ _ _ | .vimax _ d _ _ _ _ | .vand _ d _ _ _ | .vor _ d _ _ _
  | .vxor _ d _ _ _ | .vshl _ d _ _ _ _ | .vshr _ d _ _ _ _ | .vshlI _ d _ _ _ _ | .vshrI _ d _ _ _ _
  | .vpermb _ d _ _ _ | .vrotr _ d _ _ _ | .vrotc _ d _ _ _ | .vbcr _ d _ _ _ | .vbcc _ d _ _ _
  | .vredrAdd _ d _ _ _ | .vredrMax _ d _ _ _ | .vredrMin _ d _ _ _ | .vredcAdd _ d _ _ _
  | .vredcMax _ d _ _ _ | .vredcMin _ d _ _ _ | .vscanrAdd _ d _ _ _ | .vscanrMax _ d _ _ _
  | .vscancAdd _ d _ _ _ | .vscancMax _ d _ _ _ | .vtrn _ d _ _ | .viota _ d _ _ _ | .vspl _ d _ _ _
  | .vext _ d _ _ _ | .vins _ d _ _ _ | .vpack _ d _ _ _ _ | .vunpk _ d _ _ _ _ | .vspz _ d _ _ _ _
  | .vmcnt _ d _ _ | .vrand _ d _ | .vrandU _ d _ _ => some d
  | _ => none

/-- The named encoding faults of an instruction whose fields all decode (R93, R94). -/
inductive Ill where
  /-- A reserved or unaccepted field value (R93, step 2 of R94). -/
  | reservedValue
  /-- WAIT or SIG names the executing engine (R60, step 3). -/
  | selfToken
  /-- A third V source (R66, step 4). -/
  | thirdV
  /-- A destination specifier that names Z (R66, step 4). -/
  | zDest
  /-- A queue in a position of the wrong direction (R86, step 5). -/
  | queueDir
  deriving DecidableEq, Repr

/-- The types that VADD, VSUB, VMUL, VFMA, VMIN, VMAX and VCMP accept (R439, R445, R455). -/
def arithTy : FTy → Bool
  | .f32 | .bf16 | .f16 | .e4m3 | .e5m2 => true
  | .e2m1 | .e8m0 => false

/-- The types that VDIV, VSQRT, VSF and VRAND.U accept (R439, R460, R461). -/
def wideTy : FTy → Bool
  | .f32 | .bf16 | .f16 => true
  | .e4m3 | .e5m2 | .e2m1 | .e8m0 => false

/-- The types that the reductions and scans accept (R443). -/
def axisTy : DTy → Bool
  | .f t => wideTy t
  | .i .i4 | .i .ui4 => false
  | .i _ => true

/-- The types that VPACK and VUNPK accept: those of width 16, 8 and 4 (R459). -/
def packTy : DTy → Bool
  | .f .f32 => false
  | .i .i32 | .i .ui32 => false
  | _ => true

/-- The pairs that VCVT accepts: not equal, and E8M0 only with F32 (R446). -/
def cvtOk (dst src : DTy) : Bool :=
  dst ≠ src && (dst ≠ .f .e8m0 || src = .f .f32) && (src ≠ .f .e8m0 || dst = .f .f32)

/-- The special-register numbers that are assigned (R69). -/
def srAssigned (n : BitVec 12) : Bool :=
  n.toNat ∈ [0, 1, 2, 3, 4, 5, 0x10, 0x11, 0x12, 0x13, 0x20, 0x21]

/-- LOOP's offset is at least 1 (R97). -/
def loopOffOk (off : BitVec 16) : Bool := 0 < off.toInt

/-- What R450, R451 and R155 accept of a load's register, element type, repeat and space, queue direction
aside. -/
def loadRegOk (long : Bool) (r : VSpec) (rep : BitVec 6) (sp : Space) (et : EtM) : Bool :=
  (match r with
   | .v n => n.val + rep.toNat < 32 && (!long || et ∈ [.b32, .b16, .b16s, .b8, .b8s])
   | .w n => n.val + rep.toNat < 8 && (!long || et ∈ [.b32, .b16, .b16s, .b8, .b8s])
   | .z _ => true
   | .q n => if n.val = 0 ∨ n.val = 1 then !long || et ∈ [.b32, .b16, .b16s, .b8, .b8s]
             else if n.val = 2 ∨ n.val = 7 then !long && et = .raw else true) &&
  (sp ≠ .acc || et = .b32)

/-- What R450, R154 and R155 accept of a store's register, element type and space, queue direction aside. -/
def storeRegOk (long : Bool) (r : VSpec) (sp : Space) (et : EtM) : Bool :=
  (match r with
   | .q n => n.val ≠ 3 || (if long then et ∈ [.b32, .b16, .b8] else et ∈ [.b32, .b16, .b8, .b4, .raw])
   | _ => false) &&
  (sp = .loc || (sp = .acc && et = .b32))

/-- The conditions that an instruction's entry puts on its own fields, which count as reserved codes of step 2 of R94, and
so come before QUEUE_DIR (log entry 100). -/
def fieldsOk : Instr → Bool
  | .bits _ _ _ pos wid | .bitsS _ _ _ pos wid | .bitsIns _ _ _ pos wid => pos.toNat + wid.toNat + 1 ≤ 64
  | .getsr _ _ n => srAssigned n
  | .setsr _ _ n => srAssigned n
  | .tend t => t.sig.isNone
  | .loop _ _ off => loopOffOk off
  | .loopR _ _ off => loopOffOk off
  | .vld _ r _ rep _ sp et => loadRegOk false r rep sp et
  | .vldx _ r _ rep _ sp et _ => loadRegOk true r rep sp et
  | .vst _ r _ _ _ sp et => storeRegOk false r sp et
  | .vstx _ r _ _ _ sp et _ => storeRegOk true r sp et
  | .vadd _ _ _ _ _ ty | .vsub _ _ _ _ _ ty | .vmul _ _ _ _ _ ty | .vfma _ _ _ _ _ _ ty | .vfmaNm _ _ _ _ _ _ ty
  | .vmin _ _ _ _ _ ty | .vminP _ _ _ _ _ ty | .vmax _ _ _ _ _ ty | .vmaxP _ _ _ _ _ ty
  | .vcmp _ _ _ _ _ _ ty => arithTy ty
  | .vdiv _ _ _ _ _ ty | .vsqrt _ _ _ _ ty | .vsfExp2 _ _ _ _ ty | .vsfLog2 _ _ _ _ ty | .vsfRcp _ _ _ _ ty
  | .vsfRsqrt _ _ _ _ ty | .vsfSin _ _ _ _ ty | .vsfCos _ _ _ _ ty | .vsfTanh _ _ _ _ ty | .vsfErf _ _ _ _ ty
  | .vsfSigm _ _ _ _ ty | .vrandU _ _ _ ty => wideTy ty
  | .vcvt _ _ _ _ dst src => cvtOk dst src
  | .vicmp _ _ _ _ c _ _ => c ≠ .unord && c ≠ .ord
  | .vrotc _ _ _ k _ | .vbcc _ _ _ k _ => k.toNat < 16
  | .vredrAdd _ _ _ _ ty | .vredrMax _ _ _ _ ty | .vredrMin _ _ _ _ ty | .vredcAdd _ _ _ _ ty | .vredcMax _ _ _ _ ty
  | .vredcMin _ _ _ _ ty | .vscanrAdd _ _ _ _ ty | .vscanrMax _ _ _ _ ty | .vscancAdd _ _ _ _ ty
  | .vscancMax _ _ _ _ ty => axisTy ty
  | .vpack _ _ _ _ _ ty | .vunpk _ _ _ _ _ ty => packTy ty
  | .vspz _ _ _ k _ ty => ty ≠ .e8m0 && k.toNat ∈ [1, 2, 4]
  | .vmop _ _ a b op =>
    (match op with
     | .and | .or | .xor | .andn => true
     | .not | .mov => b.val = 0
     | .set | .clr => a.val = 0 && b.val = 0)
  | .vmcnt _ _ k _ => k.toNat < 2
  | .mmul _ _ p _ _ _ srcq _ => !srcq || p.val = 0
  | .matt _ _ _ _ it _ _ _ _ _ => it ∈ [.e4m3, .e5m2, .bf16, .f16]
  | .vatomAdd _ _ v | .vatomMin _ _ v | .vatomMax _ _ v | .vatomAnd _ _ v | .vatomOr _ _ v | .vatomXor _ _ v =>
    (match v with | .q _ => false | _ => true)
  | .lnsend f => f.cv.toNat < 2 && f.ca ≠ 3 && f.rop = 0 && (!f.px || f.pb = 0)
  | .lnrecv f => f.cv.toNat < 2 && f.ca ≠ 3 && f.rop = 0 && !f.px && f.pb = 0
  | .lnrrs f => f.cv.toNat < 2 && f.ca ≠ 3 && f.rop ≠ 3 && (!f.px || f.pb = 0)
  | .lncopy f => f.cv ≠ 3 && f.ca ≠ 3 && f.rop = 0 && !f.px && f.pb = 0 && f.ch = 0
  | .lnwait cell _ | .lnsig cell => cell.toNat % 8 = 0
  | _ => true

/-- WAIT or SIG naming the engine that ENG names (R60). -/
def selfTok (i : Instr) : Bool :=
  match tokOf i, owner i with
  | some t, some e => t.wait = some e || t.sig = some e
  | _, _ => false

/-- The number of V sources (R66). -/
def vCount (l : List VSpec) : Nat := (l.filter fun x => match x with | .v _ => true | _ => false).length

/-- A destination that names Z: a VX destination, or the register of a load (R66, R86). -/
def zDestOf (i : Instr) : Bool :=
  match i with
  | .vld _ (.z _) _ _ _ _ _ | .vldx _ (.z _) _ _ _ _ _ _ => true
  | _ => match vxDest i with | some (.z _) => true | _ => false

/-- VX may read Q0, Q1 and Q4, and write Q3 and Q5 (R86). -/
def vxQueueOk (i : Instr) : Bool :=
  (vxSources i).all (fun x => match x with | .q n => n.val ∈ [0, 1, 4] | _ => true) &&
  (match vxDest i with | some (.q n) => n.val = 3 || n.val = 5 | _ => true)

/-- The queue directions of every position (R55, R86). -/
def queueOk (i : Instr) : Bool :=
  match i with
  | .movQw _ _ q => q.val = 4 || q.val = 6
  | .movQr _ _ q => q.val = 5 || q.val = 7
  | .vld _ (.q n) _ _ _ _ _ | .vldx _ (.q n) _ _ _ _ _ _ => n.val ∈ [0, 1, 2, 7]
  | .vst _ (.q n) _ _ _ _ _ | .vstx _ (.q n) _ _ _ _ _ _ => n.val = 3
  | _ => vxQueueOk i

/-- The first encoding fault of an instruction, in the order of R94. SHAPE against the gang size, also of
step 4, depends on the task and stands with the MX meanings (R89). -/
def illForm (i : Instr) : Option Ill :=
  if !fieldsOk i then some .reservedValue
  else if selfTok i then some .selfToken
  else if 2 < vCount (vxSources i) then some .thirdV
  else if zDestOf i then some .zDest
  else if !queueOk i then some .queueDir
  else none

end Sys2Proof.Machine
end

