-- ==== Sys2Proof/Machine/Scope.lean ====
section
/-!
DEFINITION. Scopes: which ordering points lie within a scope of an agent, and the scope of a barrier or ring operation
(spec/07_consistency.md R203).
-/
namespace Sys2Proof.Machine

/-- The agents that R203 takes a scope of: a core, or, of what a unit started, its die. -/
inductive Actor where
  | core (g : Fin 256)
  | die (d : Fin 4)
  deriving DecidableEq, Repr

/-- The die of an agent. -/
def Actor.die' : Actor → Fin 4
  | .core g => dieOf g
  | .die d => d

/-- The ordering points that R203 tells apart: a core's port, the memory controllers and units of a die, the GP file,
what other packages hold behind the fabric, pool and host memory. -/
inductive Point where
  | port (g : Fin 256)
  | unit (d : Fin 4)
  | gp
  | fabric
  | pool
  | host
  deriving DecidableEq, Repr

/-- A point of the package itself. -/
def Point.inPackage : Point → Bool
  | .port _ | .unit _ | .gp => true
  | .fabric | .pool | .host => false

/-- The point lies within scope s of agent x (R203). -/
def Point.within (p : Point) (s : Scope) (x : Actor) : Bool :=
  match s with
  | .core => (match x, p with | .core g, .port t => t = g | _, _ => false)
  | .cluster =>
    (match x, p with
     | .core g, .port t => dieOf t = dieOf g && clusterOf t = clusterOf g
     | _, _ => false)
  | .die => (match p with | .port t => dieOf t = x.die' | .unit d => d = x.die' | _ => false)
  | .package => p.inPackage
  | .fabric => p.inPackage || p = .fabric
  | .system => true

/-- The scope of a barrier or ring operation of agent x on a cell or ring whose core's port is point p: the narrowest of
CORE, CLUSTER, DIE, PACKAGE and FABRIC that holds both (R203). -/
def opScope (x : Actor) (p : Point) : Scope :=
  (([.core, .cluster, .die, .package] : List Scope).find? fun s => p.within s x).getD .fabric

/-- Engine e of a core stands behind a FENCE.REL that orders the access which SC has presented before later writes
(R204). -/
def Core.pastRel (c : Core) (e : Engine) : Bool :=
  match c.pend with
  | some p =>
    (match p.rel with
     | some w => ((c.e .sc).walk - (c.e e).walk).toNat ≤ ((c.e .sc).walk - w).toNat
     | none => false)
  | none => false

/-- Every access of core g that happens before a release of engine e, and whose point lies within the release's
scope, has been performed: of the accesses of a core only one of SC can still be under way, which SC's own releases
follow, and another engine's where a FENCE.REL stands between (R199, R204, R205). -/
def Core.releaseReady (c : Core) (g : Fin 256) (e : Engine) (s : Scope) : Bool :=
  match c.pend with
  | some p => !((e = .sc || c.pastRel e) && (Point.port p.core).within s (.core g))
  | none => true

/-- The access that SC has presented is marked where a FENCE.REL of scope s, which SC has just completed, is the first
that orders it before later writes (R204). -/
def Core.markRel (c : Core) (g : Fin 256) (s : Scope) : Core :=
  { c with pend := c.pend.map fun p =>
      if p.rel.isNone && (Point.port p.core).within s (.core g) then { p with rel := some (c.e .sc).walk } else p }

/-- No access within scope s of core g is under way (R204). -/
def Core.quietIn (c : Core) (g : Fin 256) (s : Scope) : Bool :=
  match c.pend with
  | some p => !(Point.port p.core).within s (.core g)
  | none => true

/-- SC has presented a load that is not performed. -/
def Core.loading (c : Core) : Bool := c.pend.any fun p => p.load.isSome

/-- No read within scope s of core g is under way (R204). -/
def Core.readsIn (c : Core) (g : Fin 256) (s : Scope) : Bool := !c.loading || c.quietIn g s

end Sys2Proof.Machine
end

