-- ==== Sys2Proof/Machine/Ops.lean ====
section
/-!
DEFINITION. The operations the meanings share: device memory and worlds (spec/01_organisation.md R495,
spec/14_host_security.md R365 to R368, R496), reports and interrupts (R357, R367), barrier arrivals
(spec/06_copy_engines.md R189), tokens, retirement and loop stacks (spec/02_execution.md R50, R52, R59), taking
a trap (R13, R72, R234) and the return from one (spec/08_scheduling.md R236), the end of a launch (R228, R240)
and the kill of a context (R194).
-/
namespace Sys2Proof.Machine

/-! ## Device addresses, worlds and memory errors -/

/-- Frames of a die's stage or bulk (R23, R24, R37). -/
def Mach.frames (m : Mach) (tier : Nat) (d : Fin 4) : Nat :=
  if tier = 1 then popcount m.fuses.pch[d.val] * 12288 else popcount m.fuses.bulk[d.val] * 1048576

/-- A package-wide CXL port is present (R36). -/
def Mach.cxlPresent (m : Mach) (p : Nat) : Bool := (m.fuses.cxl[(toDie (p / 2)).val]).getLsbD (p % 2)

/-- A pool decoder maps frame f to a present port (R496). -/
def decMaps (m : Mach) (f : Nat) (w : Word) : Bool :=
  wb w 63 && wf w 0 30 ≤ f && f ≤ wf w 30 30 && m.cxlPresent (wf w 60 3)

/-- The CXL port that serves a pool frame: the lowest-numbered decoder that maps it decides (R368, R496). -/
def Mach.poolPort (m : Mach) (f : Nat) : Option Nat := (m.pdec.toList.find? (decMaps m f)).map fun w => wf w 60 3

/-- The frame and the controller of a device address: stage 0 to 3, bulk 4 to 7, CXL port 8 to 15; none where
the address names no memory (R495). -/
def Mach.frameOf (m : Mach) (a : Nat) : Option (Fin 16 × Nat) :=
  let tier := a / 2 ^ 46 % 4
  let d := toDie (a / 2 ^ 44)
  if tier = 1 || tier = 2 then
    let f := a / 2 ^ 16 % 2 ^ 28
    if f < m.frames tier d then some (Fin.ofNat 16 (4 * (tier - 1) + d.val), f) else none
  else if tier = 3 then
    let f := a / 2 ^ 16 % 2 ^ 30
    (m.poolPort f).map fun p => (Fin.ofNat 16 (8 + p), f)
  else none

/-- A region register covers frame f as secure (R365). -/
def secureReg (f : Nat) (w : Word) : Bool := wb w 61 && wb w 60 && wf w 0 30 ≤ f && f ≤ wf w 30 30

/-- A byte's frame is secure (R365). -/
def Mach.secureAt (m : Mach) (a : Nat) : Bool :=
  match m.frameOf a with
  | some (k, f) => m.regions[k.val].toList.any (secureReg f)
  | none => false

/-- A byte names memory (R495). -/
def Mach.named (m : Mach) (a : Nat) : Bool := (m.frameOf a).isSome

/-- An agent of a world may touch a byte (R365, R495). -/
def Mach.mayTouch (m : Mach) (sec : Bool) (a : Nat) : Bool := m.named a && (sec || !m.secureAt a)

/-- One byte of device memory as an agent of a world reads it (R365, R495). -/
def Mach.devByte (m : Mach) (sec : Bool) (a : Nat) : Byte := if m.mayTouch sec a then Memory.read1 m.dev a else 0

/-- n bytes of device memory as an agent of a world reads them. -/
def Mach.devRead (m : Mach) (sec : Bool) (a n : Nat) : List Byte := (List.range n).map fun k => m.devByte sec (a + k)

def Mach.devW (m : Mach) (sec : Bool) (a : Nat) : Word := BitVec.ofNat 64 (leVal (m.devRead sec a 8))
def Mach.devL (m : Mach) (sec : Bool) (a : Nat) : Lane := BitVec.ofNat 32 (leVal (m.devRead sec a 4))

/-- A write of device memory by an agent of a world: a byte it may not touch keeps its value (R365, R495). -/
def Mach.devWrite (m : Mach) (sec : Bool) (a : Nat) : List Byte → Mach
  | [] => m
  | b :: bs =>
    if (List.range (bs.length + 1)).all (fun k => m.mayTouch sec (a + k)) then
      { m with dev := Memory.write m.dev a (b :: bs) }
    else
      let m' := if m.mayTouch sec a then { m with dev := Memory.write m.dev a [b] } else m
      Mach.devWrite m' sec (a + 1) bs

/-- The world of a context (R365). -/
def Mach.sec (m : Mach) (c : Fin 64) : Bool := (m.ctx c).secure

/-- Unit l of a memory of units of u bytes is one that an access of n bytes at a touches. -/
def touches (u a n l : Nat) : Bool := n ≠ 0 && a / u ≤ l && l ≤ (a + n - 1) / u

/-- The pieces of n bytes from a that lie in one unit of u bytes each. -/
def cutBy (u a n : Nat) : List (Nat × Nat) :=
  (List.range ((a % u + n + u - 1) / u)).map fun k =>
    let lo := max a (u * (a / u + k))
    (lo, min (a + n) (u * (a / u + k) + u) - lo)

/-- The access of context c to n bytes at a breaks the worlds: it touches a secure frame (R365). -/
def Mach.violates (m : Mach) (c : Fin 64) (a n : Nat) : Bool :=
  !m.sec c && n ≠ 0 && (cutBy 65536 a n).any fun p => m.secureAt p.1

/-- A read of n bytes at a meets a lasting memory error; a line that names no memory has none (R366, R495). -/
def Mach.badAt (m : Mach) (a n : Nat) : Bool := m.devBad.any fun l => touches 64 a n l && m.named (64 * l)

/-- TRANS counts k transient faults (R366). -/
def Mach.transient (m : Mach) (k : Nat) : Mach := { m with trans := (List.range k).foldl (fun x _ => sat32 x) m.trans }

/-- Transient errors that a read of n bytes at a meets are retried, each line counted, and gone (R366, R495). -/
def Mach.retried (m : Mach) (a n : Nat) : Mach :=
  let hit := fun l => touches 64 a n l && m.named (64 * l)
  if m.devGlitch.any hit then
    ({ m with devGlitch := m.devGlitch.filter fun l => !hit l }).transient (m.devGlitch.filter hit).length else m

/-! ## Interrupts and error records -/

/-- A write of host memory by the device. -/
def Mach.hostWrite (m : Mach) (a : Nat) (bs : List Byte) : Mach := { m with host := Memory.write m.host a bs }

/-- Vector n is raised: sent, or kept pending while it is masked (R357). -/
def Mach.raise (m : Mach) (n : Fin 130) : Mach :=
  let e := m.msix[n.val]
  if e.mask then { m with msiPend := m.msiPend ||| BitVec.ofNat 130 (2 ^ n.val) }
  else { (m.hostWrite e.addr.toNat (leBytes 4 e.data.toNat)) with msiSent := n :: m.msiSent }

/-- A lasting fault is reported: a 32-byte record in the error ring and vector 128, or ERRLOST (R367). -/
def Mach.errRecord (m : Mach) (kind : Nat) (c : Fin 64) (d : Fin 4) (wh : Nat) : Mach :=
  if m.errhead - m.errtail = 1024 then { m with errlost := sat32 m.errlost }
  else
    let w0 := kind + c.val * 2 ^ 8 + d.val * 2 ^ 14 + m.errhead.toNat * 2 ^ 32
    let m := m.hostWrite (m.errbase.toNat + 32 * (m.errhead.toNat % 1024)) (leBytes 8 w0 ++ leBytes 8 wh ++ leBytes 16 0)
    ({ m with errhead := sat32 m.errhead }).raise 128

/-- The die of a controller of device memory: that of a stage or bulk controller, or of the CXL root port 2d + i (R17, R495). -/
def ctlDie (k : Fin 16) : Fin 4 := if k.val < 8 then toDie k.val else toDie ((k.val - 8) / 2)

/-- A report of a fault at byte a of device memory, with the frame and the die of its controller, for a pool frame that of its
root port (R367; log entry 96). -/
def Mach.frameRecord (m : Mach) (kind : Nat) (c : Fin 64) (a : Nat) : Mach :=
  match m.frameOf a with
  | some (k, f) => m.errRecord kind c (ctlDie k) f
  | none => m

/-- The WORLD record of a non-secure access for context c that touches a secure frame: it names the first such frame
(R365, R367). -/
def Mach.worldRecord (m : Mach) (c : Fin 64) (a n : Nat) : Mach :=
  match (cutBy 65536 a n).find? fun p => m.secureAt p.1 with
  | some p => m.frameRecord 8 c p.1
  | none => m

/-- The first byte of a read of n bytes at a that a lasting memory error meets (R366, R367). -/
def Mach.badByte (m : Mach) (a n : Nat) : Nat :=
  ((List.range n).find? fun k => m.badAt (a + k) 1).map (a + ·) |>.getD a

/-- The WORLD record of an access of context c that breaks the worlds (R365, R367). -/
def Mach.noteWorld (m : Mach) (c : Fin 64) (a n : Nat) : Mach := if m.violates c a n then m.worldRecord c a n else m

/-- A read by context c: the bytes, and the machine after retries and reports (R365, R366). -/
def Mach.access (m : Mach) (c : Fin 64) (a n : Nat) : List Byte × Mach :=
  (m.devRead (m.sec c) a n, (m.retried a n).noteWorld c a n)

/-- Reads by context c whose bytes are used elsewhere: the retries and the reports of each (R365, R366). -/
def Mach.noteReads (m : Mach) (c : Fin 64) (ps : List (Nat × Nat)) : Mach :=
  ps.foldl (fun m p => (m.retried p.1 p.2).noteWorld c p.1 p.2) m

/-- A write by context c, with its report (R365). -/
def Mach.ctxWrite (m : Mach) (c : Fin 64) (a : Nat) (bs : List Byte) : Mach :=
  (m.devWrite (m.sec c) a bs).noteWorld c a bs.length

/-- STRAY of a context counts, saturating (R192). -/
def Mach.stray (m : Mach) (c : Fin 64) : Mach := m.onCtx c fun x => { x with stray := sat32 x.stray }

/-! ## Tokens, walks and retirement -/

/-- The place of the FIFO from engine p to engine q in `tok`. -/
def tokIx (p q : Engine) : Fin 36 := Fin.ofNat 36 (6 * (engIx p).val + (engIx q).val)

/-- Tokens in the FIFO from p to q (R59). -/
def Core.tokens (c : Core) (p q : Engine) : Nat := c.tok[(tokIx p q).val]

/-- The token that engine e must pop before it issues is there (R59). -/
def Core.hasTok (c : Core) (e : Engine) (t : Tok) : Bool :=
  match t.wait with | none => true | some p => 0 < c.tokens p e

/-- The WAIT token popped, unless the word has popped it already (R54, R59). -/
def Core.popTok (c : Core) (e : Engine) (t : Tok) : Core :=
  match t.wait with
  | none => c
  | some p => if (c.e e).tokp then c else { c with tok := upd c.tok (tokIx p e) (· - 1) }

/-- A token pushed by engine e at retirement; where the FIFO is full, e owes it and issues nothing (R59). -/
def Core.pushTok (c : Core) (e : Engine) (s : Option Engine) : Core :=
  match s with
  | none => c
  | some q =>
    if c.tokens e q < 8 then { c with tok := upd c.tok (tokIx e q) (· + 1) }
    else c.onE e fun x => { x with owed := some q }

/-- An owed token pushed once there is room (R59). -/
def Core.payTok (c : Core) (e : Engine) : Core :=
  match (c.e e).owed with
  | none => c
  | some q =>
    if c.tokens e q < 8 then
      ({ c with tok := upd c.tok (tokIx e q) (· + 1) }).onE e fun x => { x with owed := none }
    else c

/-- The end of an instruction that lies in parcels pc to lastPc and continues in sequence: the bodies that it
ends, innermost first, each counting down (R50, R398). -/
def endBodies (pc lastPc : Nat) : List LoopEntry → PAddr × List LoopEntry
  | [] => (BitVec.ofNat 22 (lastPc + 1), [])
  | l :: rest =>
    if pc ≤ l.last.toNat && l.last.toNat ≤ lastPc then
      if 1 < l.count.toNat then (l.first, { l with count := l.count - 1 } :: rest) else endBodies pc lastPc rest
    else (BitVec.ofNat 22 (lastPc + 1), l :: rest)

/-- An engine past an instruction of len parcels that continues in sequence (R50, R52). -/
def EngState.advance (x : EngState) (len : Nat) : EngState :=
  let r := endBodies x.pc.toNat (x.pc.toNat + len - 1) x.loops
  { x with pc := r.1, loops := r.2, walk := x.walk + BitVec.ofNat 32 len, rep := 0, tokp := false, tgt := none,
           wait := none, job := none }

/-- A parcel address lies inside a body. -/
def inBody (t : PAddr) (l : LoopEntry) : Bool := l.first.toNat ≤ t.toNat && t.toNat ≤ l.last.toNat

/-- The loop stack after a BR or JMP to t: entries popped while t lies outside the innermost body (R50, R381). -/
def popBodies (t : PAddr) : List LoopEntry → List LoopEntry
  | [] => []
  | l :: rest => if inBody t l then l :: rest else popBodies t rest

/-- An engine past a transfer of len parcels to t; `pops` for BR and JMP, not for CALL and RET (R50). -/
def EngState.jump (x : EngState) (len : Nat) (t : PAddr) (pops : Bool) : EngState :=
  { x with pc := t, loops := if pops then popBodies t x.loops else x.loops, walk := x.walk + BitVec.ofNat 32 len,
           rep := 0, tokp := false, tgt := none, wait := none, job := none }

/-- An engine retires an instruction of len parcels: WAIT popped, past the parcel, SIG pushed (R59). -/
def Core.retire (c : Core) (e : Engine) (len : Nat) (t : Tok) : Core :=
  ((c.popTok e t).onE e fun x => x.advance len).pushTok e t.sig

/-- An outcome entry posted toward engine e ≠ SC (R48). FIFO toward LD is 0, toward AS is 4. -/
def outIx : Engine → Fin 5
  | .sc => 0 | .ld => 0 | .st => 1 | .vx => 2 | .mx => 3 | .asy => 4

/-- Room for one more entry in each of the named outcome FIFOs (R48). -/
def Core.outRoom (c : Core) (es : List Engine) : Bool := es.all fun e => (c.out[(outIx e).val]).length < 64

/-- An entry posted toward each of the named engines, at the tail. -/
def Core.post (c : Core) (es : List Engine) (x : BitVec 128) : Core :=
  es.foldl (fun c e => { c with out := upd c.out (outIx e) (· ++ [x]) }) c

/-- The head of the outcome FIFO toward an engine, and the FIFO without it. -/
def Core.outHead (c : Core) (e : Engine) : Option (BitVec 128) := (c.out[(outIx e).val]).head?
def Core.popOut (c : Core) (e : Engine) : Core := { c with out := upd c.out (outIx e) (·.tail) }

/-- A parcel's wait is over and it retires; an AS parcel leaves its operands and its command-queue entry (R59,
R172). -/
def Core.endWait (c : Core) (e : Engine) (t : Tok) : Core :=
  if e = .asy then { (c.popOut .asy).retire .asy 1 t with cq := c.cq - 1 } else c.retire e 1 t

/-! ## Ports and barrier cells -/

/-- The context of the task on core g. -/
def Mach.ctxOf (m : Mach) (g : Fin 256) : Fin 64 := match (m.core g).task with | some k => k.ctx | none => 0

/-- A task of context c occupies core g, started or restored (R213). -/
def Mach.occupied (m : Mach) (g : Fin 256) (c : Fin 64) : Bool :=
  match (m.core g).task with
  | some t => t.running && t.ctx = c
  | none => false

/-- The fields of a scalar or cell address (R153). -/
def eaByte (x : Word) : Nat := wf x 0 22
def eaSpace (x : Word) : Nat := wf x 22 2
def eaCore (x : Word) : Nat := wf x 24 8

/-- The core that a cell or end address names from core g: SPACE 0, 2 or 3; none where a bit that must be zero
is set, the space is 1, or the core is absent (R153, R175). -/
def Mach.cellCore (m : Mach) (g : Fin 256) (x : Word) : Option (Fin 256) :=
  if wf x 32 32 ≠ 0 then none
  else match eaSpace x with
    | 0 => if eaCore x = 0 then some g else none
    | 2 => if 8 ≤ eaCore x then none else
        let t := toCore (64 * (dieOf g).val + 8 * clusterOf g + eaCore x)
        if m.present t then some t else none
    | 3 => let t := toCore (eaCore x); if m.present t then some t else none
    | _ => none

/-- A waiting BWAIT on cell (g, a) of context x for parity p retires (R378). -/
def satisfyBar (x : Fin 64) (g : Fin 256) (a : Nat) (p : Bool) (c : Core) : Core :=
  match (c.e .asy).wait, c.task with
  | some w, some t => if w.on = .bar g a p && t.ctx = x && c.halt.isNone then c.endWait .asy w.tok else c
  | _, _ => c

/-- The cell of a BAR word of a command of core g: enabled or not, its core and byte. -/
def Mach.barOf (m : Mach) (g : Fin 256) (bar : Word) (en : Bool) : Option (Fin 256 × Nat) :=
  if en then (m.cellCore g (BitVec.ofNat 64 (wf bar 0 32))).map fun t => (t, eaByte bar) else none

/-! ## Requests that wait in their places -/

/-- The presenter of a request still makes it (R149). -/
def Mach.live (m : Mach) : Who → Bool
  | .eng g e => ((m.core g).e e).wait.isSome
  | .op k => m.ops.any fun o => o.id = k
  | .shard d s _ _ _ => ((m.die d).belfry.slots[s.val]).running
  | .ent d k => m.arrivals.any fun a => a.who = Who.ent d k
  | .row d k => (m.die d).cup.accepted.any fun r => r.acc = k
  | .lan d => (m.die d).lan.run.isSome
  | .msg x => m.inbox.any (fun h => h.msg = x) || m.outbox.any fun o => o.msg = x

/-- The requests of context c that the port of core t keeps, oldest first (R149, R213). -/
def Mach.queued (m : Mach) (t : Fin 256) (c : Fin 64) : List PortReq :=
  (m.core t).portq.filter fun r => r.ctx = c && m.live r.who

/-- The place of a unit among the agents of its die (R237). -/
def unitNo : UnitKind → Nat
  | .copy e => e.val
  | .belfry => 4
  | .campanile => 5
  | .cupola => 6
  | .lantern => 7
  | .gatherer => 8
  | .dispatcher => 9

/-- That place as an index. -/
def unitIx (u : UnitKind) : Fin 10 := Fin.ofNat 10 (unitNo u)

/-- The place of a unit among the requests that a port accepts in one clock: copy engines before die units, each by die
(R149). -/
def unitPlace (d : Fin 4) (u : UnitKind) : Nat :=
  (match u with | .copy _ => 0x100 | _ => 0x200) + 0x10 * d.val + unitNo u

/-- The place of a presenter among the requests that the port of core t accepts in one clock (R149). A fabric message
has none. -/
def Mach.portRank (m : Mach) (t : Fin 256) : Who → Option Nat
  | .eng g e =>
    if g ≠ t then some (0x300 + g.val)
    else match e with | .sc => some 1 | .ld => some 2 | .st => some 3 | .mx => some 4 | .asy => some 5 | .vx => none
  | .op k => (m.ops.find? fun o => o.id = k).map fun o => unitPlace o.die o.unit
  | .shard d _ _ _ _ => some (unitPlace d .belfry)
  | .ent d _ => some (unitPlace d .belfry)
  | .row d _ => some (unitPlace d .cupola)
  | .lan d => some (unitPlace d .lantern)
  | .msg _ => none

/-- An arbiter that accepted a request at `last`, a clock and a place, accepts one of place `r` at clock `now`: not after one
of a later place in the same clock (R11). -/
def inTurn (last : Option (Word × Nat)) (now : Word) (r : Nat) : Bool :=
  match last with | some (k, q) => k ≠ now || q ≤ r | none => true

/-- An arbiter of die d accepts a request of place r: in this clock, or, where that would put it before what it has accepted
in this clock already, in the next (R11; log entry 102). -/
def Mach.inOrder (m : Mach) (d : Fin 4) (last : Option (Word × Nat)) (r : Nat) : Mach :=
  if inTurn last (m.die d).cycle r then m else m.onDie d fun x => { x with cycle := x.cycle + 1 }

/-- The port of core t accepts a request of w, in the order of R149. -/
def Mach.noteReq (m : Mach) (t : Fin 256) (w : Who) : Mach :=
  match m.portRank t w with
  | some r =>
    let m := m.inOrder (dieOf t) (m.core t).lastReq r
    let now := m.clock t
    m.onCore t fun k => { k with lastReq := some (now, r) }
  | none => m

/-- The GP file of context c accepts a request of place r, in the order of R391. -/
def Mach.atGp (m : Mach) (c : Fin 64) (r : Nat) : Mach :=
  let m := m.inOrder 0 (m.ctx c).gpLast r
  let now := (m.die 0).cycle
  m.onCtx c fun x => { x with gpLast := some (now, r) }

/-- The places of R391: a post of Campanile or of Cupola, a host write, an access of core g. -/
def gpCamp (d : Fin 4) : Nat := 2 * d.val
def gpCup (d : Fin 4) : Nat := 2 * d.val + 1
def gpHost : Nat := 8
def gpCore (g : Fin 256) : Nat := 9 + g.val

/-- The core whose command a unit is carrying out for w. -/
def Mach.issuer (m : Mach) : Who → Option (Fin 256)
  | .op k => (m.ops.find? fun o => o.id = k).map fun o => o.core
  | .row d k => (((m.die d).cup.accepted.find? fun r => r.acc = k).bind fun r => r.op).bind fun i =>
      (m.ops.find? fun o => o.id = i).map fun o => o.core
  | _ => none

/-- A saved task of context c waits for core g, so no other task of c may take it (R213). -/
def Mach.keptFor (m : Mach) (c : Fin 64) (g : Fin 256) : Bool :=
  (m.die (dieOf g)).recs.any fun q => q.state = .saved && q.ctx = c && q.cores.contains g

/-- A command that reports by barrier outlives its task, and its accesses to the core that issued it are not remote: that
core is idle, and no saved task of the context waits for it (R44, R213; log entry 107). -/
def Mach.outlived (m : Mach) (t : Fin 256) (c : Fin 64) (w : Who) : Bool :=
  m.issuer w = some t && (m.core t).task.isNone && !m.keptFor c t

/-- The port of core t serves w's request for context c now: no request of the context that it accepted earlier waits, and a
task of the context occupies the core, or w is a command that has outlived it (R149, R213). -/
def Mach.admits (m : Mach) (t : Fin 256) (c : Fin 64) (w : Who) : Bool :=
  (m.occupied t c || m.outlived t c w) && (match (m.queued t c).head? with | some r => r.who = w | none => true)

/-- A request that the port cannot serve yet takes its place behind those that wait (R149). -/
def Mach.enqueue (m : Mach) (t : Fin 256) (c : Fin 64) (w : Who) : Mach :=
  if (m.core t).portq.contains ⟨c, w⟩ then m else m.onCore t fun k => { k with portq := k.portq ++ [⟨c, w⟩] }

/-- A request leaves the place where it waited. -/
def Mach.unqueue (m : Mach) (t : Fin 256) (c : Fin 64) (w : Who) : Mach :=
  if (m.core t).portq.isEmpty then m else m.onCore t fun k => { k with portq := k.portq.filter (· ≠ ⟨c, w⟩) }

/-- A request that is served leaves its place, as the last that the port has accepted (R149). -/
def Mach.dequeue (m : Mach) (t : Fin 256) (c : Fin 64) (w : Who) : Mach := (m.unqueue t c w).noteReq t w

/-- A port keeps a request of w for context c that it cannot serve yet (R149, R213). -/
def Mach.stuck (m : Mach) (c : Fin 64) (w : Who) : Bool :=
  coreNums.any fun t => (m.core t).portq.contains ⟨c, w⟩ && !m.admits t c w

/-- A request presented to a port: served now, or left in its place (R149, R213). -/
def Mach.request1 (m : Mach) (t : Fin 256) (c : Fin 64) (w : Who) (serve : Mach → Mach) : Mach :=
  if m.admits t c w then serve (m.dequeue t c w) else m.enqueue t c w

/-! ## Stores that SC has presented -/

/-- A store at a port: of a scratchpad with its dirty bit (R168), or of an accumulator store, whose words the store
replaces. -/
def Mach.portStore (m : Mach) (t : Fin 256) (isAcc : Bool) (a : Nat) (bs : List Byte) : Mach :=
  if isAcc then m.onCore t fun c => { c with acc := Memory.write c.acc a bs } else m.wspad t a bs

/-- A store that SC of core g has presented is performed, and its instruction retires (R59, R199). -/
def Mach.performStore (m : Mach) (g : Fin 256) : Mach :=
  match (m.core g).pend with
  | none => m
  | some p =>
    if p.load.isSome then m
    else (m.portStore p.core p.acc p.addr p.bytes).onCore g fun c => ({ c with pend := none } : Core).pushTok .sc p.sig

/-! ## Stopping a task -/

/-- What engine g had presented to ports is withdrawn from every port (R72, R232). -/
def Core.forget (g : Fin 256) (c : Core) : Core :=
  let other (w : Who) : Bool := match w with | .eng k _ => k ≠ g | _ => true
  { c with ringWaits := c.ringWaits.filter (fun r => other r.who), portq := c.portq.filter fun r => other r.who }

/-- A repetition of which nothing has taken effect is not issued after all (R54, R72). -/
def EngState.unissued (x : EngState) : EngState :=
  { x with job := match x.job with | some j => if j.begun then some j else none | none => none }

/-- The Q2 entries that a repetition of MMUL has popped are back at the head of Q2 (R13, R54, R72). -/
def Core.untake (c : Core) : Core :=
  { c with qt := upd c.qt 2 (c.mx.taken ++ ·), mx := { c.mx with taken := [] } }

/-- The engines of core g stop: SC's store, which its port has accepted, is performed; what they had presented and has
not been accepted is withdrawn, and a repetition that has not taken effect leaves nothing (R54, R72, R232). -/
def Mach.withdraw (m : Mach) (g : Fin 256) : Mach :=
  let m := m.performStore g
  let m := { m with arrivals := m.arrivals.filter fun a => a.who ≠ Who.eng g .asy, cores := each m.cores (Core.forget g) }
  m.onCore g fun c => ({ c with eng := each c.eng EngState.unissued, mx := { c.mx with present := none } } : Core).untake

/-- The members of the task on core g, g itself where it runs none. -/
def Mach.members (m : Mach) (g : Fin 256) : List (Fin 256) :=
  match (m.core g).task with | some t => t.members | none => [g]

/-- Every member of the task on core g stops, at parcel and repetition boundaries, for reason h (R72, R232). -/
def Mach.haltTask (m : Mach) (g : Fin 256) (h : Halt) : Mach :=
  (m.members g).foldl (fun m k => (m.withdraw k).onCore k fun c => { c with halt := some h }) m

/-- Taking a trap (R13, R72, R234): the parcel of engine e on core g has no effect, every member of the task
stops, and the trap waits for the save that the dispatcher makes. What is saved, and where, is TASK_SAVE
(R229, R230); the record is TRAP_RECORD (R235). -/
def Mach.takeTrap (m : Mach) (g : Fin 256) (e : Engine) (cause : Cause) (code : BitVec 32) (info : Word) : Mach :=
  let c := m.core g
  let x := c.e e
  let rank := match c.task with | some t => t.rank | none => 0
  m.haltTask g (.trap ⟨cause, e, x.pc, x.rep, g, rank, code, info⟩)

/-! ## Ends of launches, and kills -/

/-- The count of completions of context c, with the message it may send (R240). -/
def Mach.coalesce (m : Mach) (c : Fin 64) : Mach :=
  let x := m.ctx c
  if x.coalCnt ≠ 0 && x.coalCnt.toNat ≤ x.pendCnt then
    (m.onCtx c fun x => { x with pendCnt := 0 }).raise (Fin.ofNat 130 c.val) else m

/-- The end of a launch with a cause: the completion word, RUN, and one pending completion (R240). -/
def Mach.endLaunch (m : Mach) (c : Fin 64) (cause : Nat) : Mach :=
  let x := m.ctx c
  let q := x.lseq + 1
  let m := if x.cwaddr = 0 then m else
    m.hostWrite x.cwaddr.toNat (leBytes 8 (q.toNat + cause * 2 ^ 32) ++ leBytes 8 (x.trhead - x.trseen).toNat)
  let m := m.onCtx c fun x =>
    { x with lseq := q, run := false, cause := BitVec.ofNat 8 cause, nodes := [], pendCnt := x.pendCnt + 1,
             pendAt := if x.pendCnt = 0 then (m.die 0).cycle else x.pendAt }
  m.coalesce c

/-- The code of an agent in the wait-for table (R237). -/
def unitCode (d : Fin 4) (u : UnitKind) : BitVec 16 := BitVec.ofNat 16 (0x100 + 0x10 * d.val + unitNo u)

/-- The units that acknowledge a kill: copy engines, Belfry, Campanile, Cupola, Lantern, gatherer of every die
(R194). -/
def killUnits : List (BitVec 16) :=
  dieNums.flatMap fun d => ([.copy 0, .copy 1, .copy 2, .copy 3, .belfry, .campanile, .cupola, .lantern, .gatherer] :
    List UnitKind).map (unitCode d)

/-- The cores whose task belongs to context c. -/
def Mach.coresOf (m : Mach) (c : Fin 64) : List (Fin 256) :=
  coreNums.filter fun g => match (m.core g).task with | some t => t.ctx = c | none => false

/-- STATE, EPRI and CREDIT as a number (R221). -/
def dstate (r : Rec) : Nat :=
  (match r.state with | .built => 0 | .waiting => 1 | .ready => 2 | .running => 3 | .saved => 4 | .retired => 5) +
  r.epri * 8 + r.credit * 32

/-- DSTATE and JOIN of a record written back to where it is kept (R221, R435). -/
def Mach.writeRec (m : Mach) (r : Rec) : Mach :=
  match r.addr with
  | some a => (m.ctxWrite r.ctx (a.toNat + 0x14) (leBytes 4 (dstate r))).ctxWrite r.ctx (a.toNat + 0x0E) (leBytes 2 r.join.toNat)
  | none => m

/-- Record k of die d, if its dispatcher holds it. -/
def Mach.getRec (m : Mach) (d : Fin 4) (k : Nat) : Option Rec := (m.die d).recs.find? fun r => r.id = k

/-- A record replaced by its update, and written back (R221). -/
def Mach.onRec (m : Mach) (d : Fin 4) (k : Nat) (f : Rec → Rec) : Mach :=
  match m.getRec d k with
  | none => m
  | some r =>
    (m.onDie d fun x => { x with recs := x.recs.map fun q => if q.id = k then f q else q }).writeRec (f r)

/-- A record leaves its dispatcher as retired (R221). -/
def Mach.dropRec (m : Mach) (d : Fin 4) (r : Rec) : Mach :=
  (m.onDie d fun x => { x with recs := x.recs.filter fun q => q.id ≠ r.id }).writeRec { r with state := .retired }

/-- The records of context c on every die. -/
def Mach.recsOf (m : Mach) (c : Fin 64) : List (Fin 4 × Rec) :=
  dieNums.flatMap fun d => ((m.die d).recs.filter fun r => r.ctx = c).map fun r => (d, r)

/-- ITHROT.RATE of every core of die d: the least rate of the running itineraries that name it (R257). -/
def Mach.setRates (m : Mach) (d : Fin 4) : Mach :=
  (List.range 64).foldl (fun m k =>
    let rs := ((m.die d).belfry.slots.toList.filter fun (b : BSlot) => b.running && b.subs.getLsbD k).map fun (b : BSlot) => b.rt
    let r := rs.foldl Nat.min 16
    m.onCore (toCore (64 * d.val + k)) fun c => { c with ithrot := BitVec.ofNat 5 r }) m

/-! ## Messages counted -/

/-- The package's fabric number, which die 0's block holds (R335). -/
def Mach.fabid (m : Mach) : BitVec 10 := (m.die 0).lan.fabid

/-- The messages that a stream counts, KIND 1, 3 and 6, and those that wait for them, KIND 2, 4 and 7 (R337, R338). -/
def isData (x : FMsg) : Bool := x.kind = 1 || x.kind = 3 || x.kind = 6
def isArrival (x : FMsg) : Bool := x.kind = 2 || x.kind = 4 || x.kind = 7

/-- Data messages of a stream and a package, as a list counts them (R338). -/
def countOf (l : List StreamCount) (p : BitVec 10) (s : BitVec 16) : BitVec 32 :=
  match l.find? fun c => c.pkg = p && c.stream = s with | some c => c.count | none => 0

/-- One more data message of a stream and a package. -/
def countUp (l : List StreamCount) (p : BitVec 10) (s : BitVec 16) : List StreamCount :=
  ⟨p, s, countOf l p s + 1⟩ :: l.filter fun c => !(c.pkg = p && c.stream = s)

/-- A data message counts as accepted (R338, R339). -/
def Mach.counted (m : Mach) (x : FMsg) : Mach :=
  if isData x then { m with streams := countUp m.streams x.spkg x.stream } else m

/-- The messages of a killed context that a port of this package holds or that come from the package itself; a message
of its own that is held is still among those sent (R194, R336). -/
def Mach.lostMsgs (m : Mach) (c : Fin 64) : List FMsg :=
  (m.outbox.filter fun o => o.msg.ctx = c && o.msg.dpkg = m.fabid).map (·.msg) ++
    ((m.inbox.filter fun h => h.msg.ctx = c && h.msg.spkg ≠ m.fabid).map (·.msg))

/-- Writes of killed context c that ports of this package hold are discarded, and what it holds open in the units ends: copy
commands, Belfry's shards and itineraries, Lantern's and Cupola's runs; Campanile keeps only the operations it
has begun; the gatherer's pushes end. A discarded data message counts as accepted, so that what its stream still brings is not
held for ever (R194, steps 3 to 5, R338, R339). -/
def Mach.dropOps (m : Mach) (c : Fin 64) : Mach :=
  let own := m.fabid
  let m := (m.lostMsgs c).foldl Mach.counted m
  let m := { m with ops := m.ops.filter fun o => o.ctx ≠ c || (o.unit = .campanile && o.begun),
                    arrivals := m.arrivals.filter fun a => a.ctx ≠ c,
                    outbox := m.outbox.filter fun o => !(o.msg.ctx = c && o.msg.dpkg = own),
                    inbox := m.inbox.filter (fun h => h.msg.ctx ≠ c),
                    cores := each m.cores fun (k : Core) =>
                      { k with portq := k.portq.filter (fun r => r.ctx ≠ c), ringWaits := k.ringWaits.filter fun r => r.ctx ≠ c } }
  dieNums.foldl (fun m d =>
    let m := m.onBelfry d fun b =>
      { b with slots := each b.slots (fun (s : BSlot) => if s.bound && s.ctx = c then { s with running := false } else s),
               shards := b.shards.filter fun h => (b.slots[h.slot.val]).ctx ≠ c
               fills := b.fills.filter fun f => f.ctx ≠ c }
    let m := m.setRates d
    let m := m.onCup d fun u =>
      { u with port := u.port.filter (fun s => s.ctx ≠ c), bufs := u.bufs.filter (fun s => s.ctx ≠ c),
               accepted := u.accepted.filter fun s => s.ctx ≠ c }
    m.onLan d fun l =>
      { l with queue := l.queue.filter (fun p => p.ctx ≠ c),
               run := match l.run with | some r => if r.prog.ctx = c then none else l.run | none => none }) m

/-- An engine's core after a kill: stopped, no load of SC's under way. -/
def Core.killed (c : Core) : Core := { c with halt := some .killed, pend := none }

/-- The kill of context c (R194, steps 1 to 3): no record of it is placed, every record is discarded as retired, that of
a running task as well, of which step 1 does not speak (log entry 90), its tasks stop, its units stop, and every agent
owes an acknowledgement. -/
def Mach.kill (m : Mach) (c : Fin 64) : Mach :=
  let running := m.coresOf c
  let m := (m.recsOf c).foldl (fun m r => m.dropRec r.1 r.2) m
  let m := running.foldl (fun m g => (m.withdraw g).onCore g Core.killed) m
  let m := m.dropOps c
  m.onCtx c fun x =>
    { x with killing := true, quiet := false, pendTraps := [],
             killOwed := running.map (fun g => BitVec.ofNat 16 g.val) ++ killUnits }

/-- A launch of context c ends with an abort cause: its outstanding work is killed, the completion word written
(R228). A context without a launch is only killed. -/
def Mach.abort (m : Mach) (c : Fin 64) (cause : Nat) : Mach :=
  if (m.ctx c).killing then m
  else
    let m := m.kill c
    if (m.ctx c).run then m.endLaunch c cause else m

/-! ## Scratchpad and accumulator errors -/

/-- A read of n scratchpad bytes at a cannot be rebuilt: a data line of it is bad, and another line of its group
at the same bank row, or the group's parity line, is bad as well (R148, R151). -/
def Core.spadLost (c : Core) (a n : Nat) : Bool :=
  c.badLines.any fun l => touches 64 a n l &&
    (c.badLines.any (fun k => k ≠ l && k / 4 = l / 4) || c.badPar.any fun p => p.1 = l % 32 / 4 && p.2 = l / 32)

/-- A scratchpad read repairs the lines it touches: each is rebuilt and counted, and an uncorrectable parity line of a
group that it touches is recomputed once the group's data lines are good (R151; log entry 16). -/
def Core.repair (c : Core) (a n : Nat) : Core :=
  let bad := c.badLines.filter fun l => !touches 64 a n l
  let lines (p : Nat × Nat) : List Nat := (List.range 4).map fun k => 32 * p.2 + 4 * p.1 + k
  { c with badLines := bad, rebuilt := c.rebuilt + (c.badLines.length - bad.length),
           badPar := c.badPar.filter fun p => !((lines p).any (touches 64 a n) && (lines p).all fun l => !bad.contains l),
           glitch := c.glitch.filter fun l => !touches 64 a n l }

/-- A read of n accumulator bytes at a meets a word that stays uncorrectable (R155). -/
def Core.accLost (c : Core) (a n : Nat) : Bool := c.badAcc.any (touches 8 a n)

/-- No memory of the core holds an error. -/
def Core.clean (c : Core) : Bool :=
  c.badLines.isEmpty && c.badPar.isEmpty && c.badAcc.isEmpty && c.glitch.isEmpty && c.glitchAcc.isEmpty

/-- The read of n bytes of a memory of core g by context c: transient errors are counted, lines rebuilt; false where an
error kills the context, which it does here with its report (R151, R155, R228, R366, R367). -/
def Mach.portRead (m : Mach) (c : Fin 64) (g : Fin 256) (isAcc : Bool) (a n : Nat) : Mach × Bool :=
  let k := m.core g
  if k.clean then (m, true)
  else if isAcc then
    let m := m.transient (k.glitchAcc.filter (touches 8 a n)).length
    if k.accLost a n then ((m.errRecord 2 c (dieOf g) g.val).abort c 6, false)
    else (m.onCore g fun k => { k with glitchAcc := k.glitchAcc.filter fun l => !touches 8 a n l }, true)
  else
    let m := m.transient (k.glitch.filter (touches 64 a n)).length
    if k.spadLost a n then ((m.errRecord 1 c (dieOf g) g.val).abort c 5, false)
    else (m.onCore g fun k => k.repair a n, true)

/-- The reads of several runs of bytes of one memory, one after the other. -/
def Mach.portReads (m : Mach) (c : Fin 64) (g : Fin 256) (isAcc : Bool) : List (Nat × Nat) → Mach × Bool
  | [] => (m, true)
  | r :: rs =>
    let x := m.portRead c g isAcc r.1 r.2
    if x.2 then x.1.portReads c g isAcc rs else x

/-- n bytes of a core's scratchpad or accumulator store, as a number. -/
def Mach.portLoad (m : Mach) (t : Fin 256) (isAcc : Bool) (a n : Nat) : Nat :=
  leVal (Memory.read (if isAcc then (m.core t).acc else (m.core t).spad) a n)

/-- The access that SC of core g has presented is performed, and its instruction retires: a store, or a load, whose value
Sd takes unless an error kills the context (R59, R151, R199, R428). -/
def Mach.performNow (m : Mach) (g : Fin 256) : Mach :=
  match (m.core g).pend with
  | none => m
  | some p =>
    match p.load with
    | none => m.performStore g
    | some l =>
      let r := m.portRead (m.ctxOf g) p.core p.acc p.addr l.size
      if r.2 then
        let n := r.1.portLoad p.core p.acc p.addr l.size
        let v : Word := if l.signed then (BitVec.ofNat (8 * l.size) n).signExtend 64 else BitVec.ofNat 64 n
        r.1.onCore g fun c => (({ c with pend := none } : Core).ws l.reg v).pushTok .sc p.sig
      else r.1

/-- A port performs the access that SC of core g has presented, in its turn (R149, R199). -/
def Mach.performAccess (m : Mach) (g : Fin 256) : Mach :=
  match (m.core g).pend with
  | none => m
  | some p => (m.noteReq p.core (.eng g .sc)).performNow g

/-- The accesses presented to the port of core t are performed before its task leaves it (R59, R212). -/
def Mach.drainStores (m : Mach) (t : Fin 256) : Mach :=
  coreNums.foldl (fun m g => match (m.core g).pend with | some p => if p.core = t then m.performNow g else m | none => m) m

/-- One arrival at the cell at byte a of core g, by context c, which the port reads and writes as one access (R151,
R189). A flip satisfies the waiting BWAITs. -/
def Mach.arrive (m : Mach) (g : Fin 256) (a : Nat) (c : Fin 64) : Mach :=
  let r := m.portRead c g false a 8
  if !r.2 then r.1
  else
    let m := { r.1 with touched := (g, a) :: r.1.touched }
    let w := Memory.readW (m.core g).spad a
    let rem := wf w 0 32
    if rem = 0 then m.stray c
    else if rem = 1 then
      let p := !(wb w 63)
      let w' := wf w 32 31 + wf w 32 31 * 2 ^ 32 + p.toNat * 2 ^ 63
      let m := m.wspad g a (leBytes 8 w')
      { m with cores := each m.cores (satisfyBar c g a p) }
    else m.wspad g a (leBytes 8 (w.toNat - 1))

/-! ## The shape of a parcel's meaning -/

/-- What the effect of a parcel comes to: done, with the machine after it; a trap before any effect, with its
cause, CODE and INFO; or a wait, with the machine after what the wait itself records (R13, R231). -/
inductive Eff where
  | done (m : Mach)
  | trap (cause : Cause) (code : BitVec 32) (info : Word)
  | wait (m : Mach)

/-- A trap whose record carries CODE 0 and the parcel in INFO (R235). -/
def Eff.fail (cause : Cause) : Eff := .trap cause 0 0

/-- The cause of an encoding fault (R93, R94). -/
def Ill.cause : Ill → Cause
  | .queueDir => .queueDir
  | _ => .illegal

/-- The first parcel of an instruction, as INFO holds it (R235). -/
def infoOf (i : Instr) : Word := BitVec.ofNat 64 ((encode i).headD 0)

/-- The INFO of a trap: the effect's own where it has one, the parcel otherwise (R235). -/
def infoOr (cause : Cause) (info : Word) (i : Instr) : Word :=
  match cause with
  | .btmMiss | .deadlock => info
  | _ => infoOf i

/-- An instruction of SC that does not retire before the access that SC has presented is performed: each but a fence and
MARK, which SC completes at once and which retire at the end of their hold (R199, R202, R204). -/
def afterStore (i : Instr) : Bool :=
  match i with
  | .fenceAcq .. | .fenceRel .. | .fence .. | .mark .. => false
  | _ => owner i = some .sc

/-- The instructions that count as writes for a FENCE.REL: of ST, of MX, of AS but BWAIT, and of SC the stores, GPSET,
NOTIFY, TSPAWN and TJOIN (R204). -/
def writesMem (i : Instr) : Bool :=
  match i with
  | .vst .. | .vstx .. | .mzero .. | .mmul .. | .matt .. | .mdrn .. | .mdrnF .. | .mdrnSm .. => true
  | .sst .. | .sstW .. | .gpset .. | .notify .. | .tspawn .. | .tjoin .. => true
  | .bwait .. => false
  | _ => owner i = some .asy

/-- Engine e of core g may not issue parcel i yet, as the access that SC has presented has not been performed (R199,
R204). -/
def Core.storeFirst (c : Core) (e : Engine) (i : Instr) : Bool :=
  c.pend.isSome && ((e = .sc && afterStore i) || (writesMem i && c.pastRel e))

/-- A wait registered for engine e of core g, keeping the clock of a wait already standing (R231). -/
def Mach.waitOn (m : Mach) (g : Fin 256) (e : Engine) (on : WaitOn) (t : Tok) : Mach :=
  let now := m.clock g
  m.onCore g fun c => c.onE e fun x =>
    match x.wait with
    | some w => if w.on = on then x else { x with wait := some ⟨on, t, now⟩ }
    | none => { x with wait := some ⟨on, t, now⟩ }

/-- An engine that skips a parcel steps over it (R45). -/
def Mach.skip (m : Mach) (g : Fin 256) (e : Engine) (len : Nat) : Mach :=
  m.onCore g fun c => c.onE e fun x => x.advance len

/-- The parcel i at engine e of core g, which its ENG names: the encoding faults in the order of R94, then the
wait for the access that SC has presented, then the conditions that rest on the engine's own registers (`pre`), then the
WAIT token, then the effect, which may trap on what it reads before the token is popped. The effect gives the machine before
retirement; `fin` retires it. -/
def issue (i : Instr) (g : Fin 256) (e : Engine) (pre : Mach → Option Cause) (eff : Mach → Eff)
    (fin : Mach → Mach) (m : Mach) : Mach :=
  match illForm i with
  | some f => m.takeTrap g e f.cause 0 (infoOf i)
  | none =>
    if (m.core g).storeFirst e i then m
    else
      match pre m with
      | some c => m.takeTrap g e c 0 (infoOf i)
      | none =>
        if !(((m.core g).e e).tokp || (m.core g).hasTok e ((tokOf i).getD ⟨none, none⟩)) then m
        else
          match eff m with
          | .trap c code info => m.takeTrap g e c code (infoOr c info i)
          | .wait m' => m'
          | .done m' => fin m'

/-- Retirement in sequence of parcel i (R59). -/
def retireSeq (i : Instr) (g : Fin 256) (e : Engine) (m : Mach) : Mach :=
  m.onCore g fun c => c.retire e (parcels i) ((tokOf i).getD ⟨none, none⟩)

/-- No entry condition of its own. -/
def noPre (_ : Mach) : Option Cause := none

/-- What a meaning answers. -/
abbrev Out := Host.Outcome State Fault Refusal

/-- A meaning that belongs to the running machine: it acts once the boot has made the module ready, and before
that nothing runs (R361). -/
def ready (f : Mach → Mach) (s : State) : Out :=
  if s.boot.state = 2 then .next { s with m := f s.m } else .next s

/-- A parcel instruction of engine o that no other engine shares: o executes it, every other engine steps over
it, and no unit acts on it (R45). -/
def soloParcel (i : Instr) (o : Engine) (act : Fin 256 → Mach → Mach) (s : State) : Out :=
  ready (fun m =>
    match m.focus with
    | .engine g e => if e = o then act g m else m.skip g e (parcels i)
    | _ => m) s

end Sys2Proof.Machine
end

