-- ==== Sys2Proof/Machine/Messages.lean ====
section
/-!
DEFINITION. Fabric messages: groups, sending, the fate of a message at the receiving port, and the messages that
write scratchpads and arrive at cells there (spec/13_collectives.md R335 to R340; spec/07_consistency.md R213).

A message that flow control holds is not taken: it stays with its sender, or in `inbox` where another package sent it, and
the same event presents it again.
-/
namespace Sys2Proof.Machine

/-- Fabric port p of die d is present (R36). -/
def Mach.fabPort (m : Mach) (d : Fin 4) (p : Nat) : Bool := (m.fuses.fab[d.val]).getLsbD p

/-! ## Groups -/

/-- The members of a group entry read as 32 words: fabric number and core number each; none where the entry is not
usable (R336). -/
def groupOf (ws : List Word) : Option (List (BitVec 10 × Fin 256)) :=
  let w0 := blkW ws 0
  let n := wf w0 0 6
  let mem (k : Nat) : Nat := wf (blkW ws (8 + k / 2)) (32 * (k % 2)) 32
  if wb w0 6 && wf w0 7 57 = 0 && 1 ≤ n && n ≤ 32 && (List.range 7).all (fun k => blkW ws (k + 1) = 0) &&
     (List.range 32).all (fun k => fld (mem k) 18 14 = 0 && (k < n || mem k = 0)) then
    some ((List.range n).map fun k => (BitVec.ofNat 10 (fld (mem k) 0 10), toCore (fld (mem k) 10 8)))
  else none

/-- The entry of group GID (R336). -/
def Mach.groupAddr (m : Mach) (gid : Nat) : Nat := (m.die 0).lan.gtbase.toNat + 256 * gid

/-- Group GID as context c reads the table (R336). -/
def Mach.group (m : Mach) (c : Fin 64) (gid : Nat) : Option (List (BitVec 10 × Fin 256)) :=
  groupOf (wordsOf 32 (m.devRead (m.sec c) (m.groupAddr gid) 256))

/-- The read of the entry of a group; GID 0 names none (R336, R365, R366). -/
def Mach.noteGroup (m : Mach) (c : Fin 64) (gid : Nat) : Mach := if gid = 0 then m else m.noteReads c [(m.groupAddr gid, 256)]

/-! ## Sending -/

/-- A message handed to a fabric port of die d, for the holder of `tag`, or to the die-to-die network where the package
itself is its destination (R263, R336, R348). A data message is counted, and an arrival carries in COUNT the number
of data messages of its stream that its destination package has been sent before it (R337, R338; log entry 94). -/
def Mach.send (m : Mach) (d : Fin 4) (tag : Nat) (x : FMsg) : Mach :=
  let x := if isArrival x then { x with count := countOf m.outStreams x.dpkg x.stream } else x
  { m with outbox := m.outbox ++ [⟨tag, d, x.dpkg = m.fabid, x⟩],
           outStreams := if isData x then countUp m.outStreams x.dpkg x.stream else m.outStreams }

/-- Messages of a holder that their receivers have not accepted yet (R263, R348). -/
def Mach.sending (m : Mach) (tag : Nat) : Bool := m.outbox.any fun o => o.tag = tag

/-- A stream number for one instruction: the numbers below 0xFF00 in turn; Lantern's streams have the others (log entry
94). -/
def Mach.freshStream (m : Mach) : BitVec 16 × Mach :=
  (m.nextStream, { m with nextStream := if m.nextStream.toNat + 1 < 0xFF00 then m.nextStream + 1 else 0 })

/-- A message of context c, its other fields as given (R337, R339). -/
def Mach.mkMsg (m : Mach) (kind : Nat) (c : Fin 64) (dst : BitVec 10) (dcore : BitVec 8) (stream : BitVec 16)
    (addr count ch : Nat) (payload : List Byte) : FMsg :=
  ⟨BitVec.ofNat 4 kind, m.fabid, dst, dcore, stream, BitVec.ofNat 16 payload.length, BitVec.ofNat 48 addr,
   BitVec.ofNat 32 count, BitVec.ofNat 4 ch, c, m.sec c, false, payload, []⟩

/-! ## Arriving -/

/-- A message is at a port of this package: from another package, or its own on the way. Through which fabric port it comes in
is not stated; the model ties it to none, also where every fabric port is fused, and this is its choice (R38, R336; log entry
112). -/
def Mach.arrives (m : Mach) (x : FMsg) : Bool :=
  x.dpkg = m.fabid && (x.spkg ≠ m.fabid || m.outbox.any fun o => o.msg = x)

/-- The message is accepted: it leaves its sender. -/
def Mach.taken (m : Mach) (x : FMsg) : Mach :=
  { m with outbox := m.outbox.eraseP (fun o => o.msg = x), inbox := m.inbox.filter fun h => h.msg ≠ x }

/-- The port holds a message by flow control, until FRES where it waits for a tile (R213, R339, R352). -/
def Mach.holdMsg (m : Mach) (x : FMsg) (stop : Option (BitVec 20 × Nat × Bool)) : Mach :=
  { m with inbox := (m.inbox.filter fun h => h.msg ≠ x) ++ [⟨x, stop⟩] }

/-- Data messages accepted of a message's source and stream (R338). -/
def Mach.accepted (m : Mach) (x : FMsg) : BitVec 32 := countOf m.streams x.spkg x.stream

/-- One COUNT lies before another, of counts that go on modulo 2^32 (log entry 94). -/
def countBefore (a b : BitVec 32) : Bool := a ≠ b && (b - a).toNat < 2 ^ 31

/-- An arrival may be applied: COUNT data messages of its stream are accepted, and no arrival of the stream with a smaller
COUNT waits at a port of this package (R338; log entry 94). -/
def Mach.due (m : Mach) (x : FMsg) : Bool :=
  !countBefore (m.accepted x) x.count &&
  !((m.outbox.map (·.msg) ++ m.inbox.map (·.msg)).any fun y =>
    isArrival y && y.spkg = x.spkg && y.dpkg = x.dpkg && y.stream = x.stream && countBefore y.count x.count)

/-- FDROP counts a discarded message (R339). -/
def Mach.fdrop (m : Mach) : Mach := m.onLan 0 fun l => { l with fdrop := sat32 l.fdrop }

/-- PSNRX of die d counts n poisoned beats (R335, R340). -/
def Mach.psnrx (m : Mach) (d : Fin 4) (n : Nat) : Mach :=
  m.onLan d fun l => { l with psnrx := (List.range n).foldl (fun x _ => sat32 x) l.psnrx }

/-- A discarded message: FDROP counts it, and a data message counts as accepted (R339). -/
def Mach.drop (m : Mach) (x : FMsg) : Mach := ((m.taken x).fdrop).counted x

/-- A message with a reserved KIND or bit is discarded and counted as poisoned (R337, R339). -/
def Mach.reservedMsg (m : Mach) (x : FMsg) : Mach := (m.drop x).psnrx 0 1

/-- The payload as written: BYTES bytes, uncorrectable beats zero (R340). -/
def payloadOf (x : FMsg) : List Byte :=
  (List.range x.bytes.toNat).map fun k => if k / 64 ∈ x.bad then 0 else x.payload.getD k 0

/-- The payload beats that are uncorrectable. -/
def badBeats (x : FMsg) : Nat := ((List.range ((x.bytes.toNat + 63) / 64)).filter fun k => k ∈ x.bad).length

/-- The report of uncorrectable beats, at die d (R340, R367). -/
def Mach.noteBeats (m : Mach) (x : FMsg) (d : Fin 4) (wh : Nat) : Mach :=
  if badBeats x = 0 then m else (m.psnrx d (badBeats x)).errRecord 7 x.ctx d wh

/-- A message whose world is not that of its context here is discarded with a report (R339). -/
def Mach.worldDrop (m : Mach) (x : FMsg) : Mach :=
  (m.errRecord 8 x.ctx (dieOf (toCore x.dcore.toNat)) x.dcore.toNat).drop x

/-- A message for a scratchpad that does not lie in it, or for a core that is not present (R339). -/
def Mach.offSpad (m : Mach) (x : FMsg) : Bool :=
  !m.present (toCore x.dcore.toNat) || 0x300000 < x.addr.toNat + max 1 x.bytes.toNat

/-- A message for a scratchpad, at its port: its fate in the order of R337 and R339; an arrival waits until it is due, and
either waits its turn at the core's port (R149, R213); `apply` is what it does once it may. -/
def Mach.spadMsg (m : Mach) (x : FMsg) (apply : Mach → Fin 256 → Mach) : Mach :=
  let t := toCore x.dcore.toNat
  if !m.arrives x then m
  else if x.resv then m.reservedMsg x
  else if x.sec ≠ m.sec x.ctx then m.worldDrop x
  else if m.offSpad x then m.drop x
  else if isArrival x && !m.due x then m.holdMsg x none
  else if !m.admits t x.ctx (.msg x) then (m.holdMsg x none).enqueue t x.ctx (.msg x)
  else ((apply ((m.dequeue t x.ctx (.msg x)).taken x) t).noteBeats x (dieOf t) t.val).counted x

/-- Data for a scratchpad, KIND 1 and 6 (R337). -/
def Mach.spadData (m : Mach) (x : FMsg) : Mach :=
  m.spadMsg x fun m t => m.wspad t x.addr.toNat (payloadOf x)

/-- An arrival at a cell, KIND 2 and 7 (R338). -/
def Mach.spadArrival (m : Mach) (x : FMsg) : Mach :=
  m.spadMsg x fun m t => m.arrive t x.addr.toNat x.ctx

end Sys2Proof.Machine
end

