-- ==== Sys2Proof/Machine/Num.lean ====
section
/-!
DEFINITION. Number formats, exact values, rounding, the rounding mixer, NaNs, scaled blocks and the matrix
sum (spec/04_arithmetic.md R122 to R145).
-/
namespace Sys2Proof.Machine

/-! ## Formats -/

/-- Widths of the element types in bits (R122, R125). -/
def FTy.width : FTy → Nat
  | .f32 => 32 | .bf16 | .f16 => 16 | .e4m3 | .e5m2 | .e8m0 => 8 | .e2m1 => 4
def ITy.width : ITy → Nat
  | .i32 | .ui32 => 32 | .i16 | .ui16 => 16 | .i8 | .ui8 => 8 | .i4 | .ui4 => 4
def DTy.width : DTy → Nat
  | .f t => FTy.width t | .i t => ITy.width t

/-- The I types are signed, the UI types are not (R125). -/
def ITy.signed : ITy → Bool
  | .i32 | .i16 | .i8 | .i4 => true
  | .ui32 | .ui16 | .ui8 | .ui4 => false

/-- Fraction width f, bias b, and the code of the largest finite magnitude (R122). E8M0 stands apart. -/
def FTy.frac : FTy → Nat
  | .f32 => 23 | .bf16 => 7 | .f16 => 10 | .e5m2 => 2 | .e4m3 => 3 | .e2m1 => 1 | .e8m0 => 0
def FTy.bias : FTy → Nat
  | .f32 | .bf16 | .e8m0 => 127 | .f16 | .e5m2 => 15 | .e4m3 => 7 | .e2m1 => 1
def FTy.maxCode : FTy → Nat
  | .f32 => 0x7F7FFFFF | .bf16 => 0x7F7F | .f16 => 0x7BFF | .e5m2 => 0x7B | .e4m3 => 0x7E | .e2m1 => 7
  | .e8m0 => 0xFE

/-- The code of positive infinity of the formats that have one (R122). -/
def FTy.infCode : FTy → Option Nat
  | .f32 => some 0x7F800000 | .bf16 => some 0x7F80 | .f16 => some 0x7C00 | .e5m2 => some 0x7C
  | .e4m3 | .e2m1 | .e8m0 => none

/-- The exponent of the smallest step: the value of a subnormal's last fraction bit (R122). -/
def FTy.qmin (t : FTy) : Int := 1 - (FTy.bias t : Int) - (FTy.frac t : Int)

/-- The sign bit of a code, set or clear. -/
def FTy.signed (t : FTy) (neg : Bool) (code : Nat) : Nat := if neg then code + 2 ^ (FTy.width t - 1) else code

/-! ## Exact values -/

/-- A real number, exactly: the sign (which a zero has too), and man · 2^exp, or, with `more`, a value strictly
between man · 2^exp and (man + 1) · 2^exp. Only quotients and square roots set `more`, and they give man at
least 45 bits, more than any format's fraction and the 16 bits of R132 take. -/
structure Exact where
  neg : Bool
  man : Nat
  exp : Int
  more : Bool
  deriving DecidableEq, Repr

/-- The value of an operand or of an operation before rounding. A NaN is held as F32 bits (R137). -/
inductive Val where
  | nan (b : Lane)
  | inf (neg : Bool)
  | fin (x : Exact)
  deriving DecidableEq, Repr

/-- man · 2^exp with a sign. -/
def Val.num (neg : Bool) (man : Nat) (exp : Int) : Val := .fin ⟨neg, man, exp, false⟩

/-- An integer, exactly. -/
def Val.ofInt (x : Int) : Val := .num (x < 0) x.natAbs 0

/-- F32 NaN bits placed from a narrower format: sign, and the fraction's bits at the top (R137). -/
def nanBits (neg : Bool) (frac : Nat) : Lane := BitVec.ofNat 32 ((if neg then 0xFF800000 else 0x7F800000) + frac)

/-- The value of a code of a floating-point type (R122, R123). -/
def Val.ofF (t : FTy) (code : Nat) : Val :=
  let w := FTy.width t
  let f := FTy.frac t
  let neg := bit code (w - 1)
  let e := fld code f (w - 1 - f)
  let m := fld code 0 f
  let top := 2 ^ (w - 1 - f) - 1
  match t with
  | .e8m0 => if fld code 0 8 = 255 then .nan 0x7FC00000 else .num false 1 ((fld code 0 8 : Int) - 127)
  | .e4m3 => if e = 15 ∧ m = 7 then .nan (nanBits neg 0x400000) else
      if e = 0 then .num neg m (FTy.qmin t) else .num neg (m + 2 ^ f) (FTy.qmin t + e - 1)
  | .e2m1 => if e = 0 then .num neg m (FTy.qmin t) else .num neg (m + 2 ^ f) (FTy.qmin t + e - 1)
  | .f32 | .bf16 | .f16 | .e5m2 =>
    if e = top then (if m = 0 then .inf neg else .nan (nanBits neg (m * 2 ^ (23 - f))))
    else if e = 0 then .num neg m (FTy.qmin t) else .num neg (m + 2 ^ f) (FTy.qmin t + e - 1)

/-- The integer that the low bits of a lane hold (R125). -/
def intOf (t : ITy) (code : Nat) : Int :=
  let w := ITy.width t
  let n := fld code 0 w
  if ITy.signed t && bit n (w - 1) then (n : Int) - 2 ^ w else n

/-- The value of a code of any element type. -/
def Val.ofD (t : DTy) (code : Nat) : Val :=
  match t with
  | .f t => Val.ofF t code
  | .i t => .ofInt (intOf t code)

/-! ## Rounding -/

/-- The rounding modes (R129). -/
inductive RMode where
  | rne | rz | ru | rd | rsr
  deriving DecidableEq, Repr

/-- The mode that ROUND.MODE holds (R69, R129). SETSR refuses 5 to 7, so they are never held. -/
def rmodeOf (x : BitVec 3) : RMode :=
  match x.toNat with | 0 => .rne | 1 => .rz | 2 => .ru | 3 => .rd | _ => .rsr

/-- Whether a magnitude base + part, 0 < part < 1, rounds away from zero; `part` is rem / 2^sh and more (R129,
R132). `even` says that base is the one to take at a tie. -/
def roundsUp (md : RMode) (draw : Nat) (neg even : Bool) (rem sh : Nat) (more : Bool) : Bool :=
  match md with
  | .rz => false
  | .ru => !neg
  | .rd => neg
  | .rne => if 2 * rem = 2 ^ sh then more || !even else 2 ^ sh < 2 * rem
  | .rsr => draw < rem * 65536 / 2 ^ sh

/-- The magnitude of x in units of 2^q, rounded to an integer. -/
def roundUnits (md : RMode) (draw : Nat) (q : Int) (x : Exact) : Nat :=
  if q ≤ x.exp && !x.more then x.man * 2 ^ (x.exp - q).toNat
  else
    let sh := (q - x.exp).toNat
    let base := x.man / 2 ^ sh
    let rem := x.man % 2 ^ sh
    if (rem ≠ 0 || x.more) && roundsUp md draw x.neg (base % 2 = 0) rem sh x.more then base + 1 else base

/-- A finite value rounded to E8M0 (R129, R131). -/
def roundE8 (md : RMode) (draw : Nat) (x : Exact) : Nat :=
  if x.neg || x.man = 0 then 0xFF
  else
    let e := (Nat.log2 x.man : Int) + x.exp
    if e < -127 then 0
    else
      let c := (e + 127).toNat
      let sh := Nat.log2 x.man
      let rem := x.man % 2 ^ sh
      let c := if (rem ≠ 0 || x.more) && roundsUp md draw false (c % 2 = 0) rem sh x.more then c + 1 else c
      min c 254

/-- The code of a finite magnitude of u units of 2^q, unbounded above (R122). -/
def magCode (t : FTy) (u : Nat) (q : Int) : Nat :=
  if u < 2 ^ FTy.frac t then u else (q - FTy.qmin t + 1).toNat * 2 ^ FTy.frac t + (u - 2 ^ FTy.frac t)

/-- Round of R129 to R132 for a finite value; with `sat`, RoundSat. -/
def roundF (sat : Bool) (t : FTy) (md : RMode) (draw : Nat) (x : Exact) : Nat :=
  if t = .e8m0 then roundE8 md draw x
  else
    let e := (Nat.log2 x.man : Int) + x.exp
    let q := max (e - FTy.frac t) (FTy.qmin t)
    let u := if x.man = 0 then 0 else roundUnits md draw q x
    let code := magCode t u q
    let big :=
      match FTy.infCode t with
      | none => FTy.maxCode t
      | some i =>
        if sat then FTy.maxCode t
        else match md with
          | .rne | .rsr => i
          | .rz => FTy.maxCode t
          | .ru => if x.neg then FTy.maxCode t else i
          | .rd => if x.neg then i else FTy.maxCode t
    FTy.signed t x.neg (if FTy.maxCode t < code then big else code)

/-- A NaN, quietened (R137). -/
def quiet (b : Lane) : Lane := b ||| 0x400000

/-- A NaN is signalling (R123). -/
def isSignal (b : Lane) : Bool := !b.getLsbD 22

/-- A NaN held as F32 bits written to a type, quietened: the top payload bits (R131, R136, R137). -/
def nanTo (t : FTy) (b : Lane) : Nat :=
  let n := (quiet b).toNat
  let s := bit n 31
  match t with
  | .f32 => n
  | .bf16 => n / 2 ^ 16
  | .f16 => FTy.signed .f16 s (0x7E00 + fld n 13 9)
  | .e5m2 => FTy.signed .e5m2 s (0x7E + fld n 21 1)
  | .e4m3 => FTy.signed .e4m3 s 0x7F
  | .e2m1 => 0
  | .e8m0 => 0xFF

/-- An infinity written to a type (R131). -/
def infTo (sat : Bool) (t : FTy) (neg : Bool) : Nat :=
  match t, FTy.infCode t with
  | .e8m0, _ => 0xFF
  | _, some i => FTy.signed t neg (if sat then FTy.maxCode t else i)
  | _, none => FTy.signed t neg (FTy.maxCode t)

/-- A value rounded to a floating-point type. -/
def Val.toF (sat : Bool) (t : FTy) (md : RMode) (draw : Nat) : Val → Nat
  | .nan b => nanTo t b
  | .inf neg => infTo sat t neg
  | .fin x => roundF sat t md draw x

/-- The least and the greatest value of an integer type (R125). -/
def ITy.lo (t : ITy) : Int := if ITy.signed t then -(2 ^ (ITy.width t - 1)) else 0
def ITy.hi (t : ITy) : Int := if ITy.signed t then 2 ^ (ITy.width t - 1) - 1 else 2 ^ ITy.width t - 1

/-- An integer held between bounds. -/
def clamp (lo hi x : Int) : Int := if x < lo then lo else if hi < x then hi else x

/-- An integer as a code of w bits, modulo 2^w. -/
def wrapTo (w : Nat) (x : Int) : Nat := (x % (2 ^ w : Int)).toNat

/-- A value rounded to an integer type, saturating (R131). -/
def Val.toI (t : ITy) (md : RMode) (draw : Nat) : Val → Nat
  | .nan _ => 0
  | .inf neg => wrapTo (ITy.width t) (if neg then ITy.lo t else ITy.hi t)
  | .fin x =>
    let n : Int := roundUnits md draw 0 x
    wrapTo (ITy.width t) (clamp (ITy.lo t) (ITy.hi t) (if x.neg then -n else n))

/-- A value rounded to any element type. -/
def Val.toD (t : DTy) (md : RMode) (draw : Nat) (v : Val) : Nat :=
  match t with
  | .f t => v.toF false t md draw
  | .i t => v.toI t md draw

/-! ## The rounding mixer -/

/-- Fold of R133. -/
def mixFold (x : Word) : Word :=
  let x := (x ^^^ (x >>> 31)) * 0xBF58476D1CE4E5B9#64
  let x := (x ^^^ (x >>> 27)) * 0x94D049BB133111EB#64
  x ^^^ (x >>> 33)

/-- Mix of R133. -/
def mix (key c0 c1 : Word) : Word := mixFold (mixFold (key ^^^ c0) ^^^ c1 ^^^ 0x9E3779B97F4A7C15#64)

/-- The word c0 of R133. -/
def mixC0 (taskid : BitVec 32) (padr : PAddr) (rank : Fin 8) (use : Nat) : Word :=
  BitVec.ofNat 64 (Sys2Proof.put taskid.toNat 32 + Sys2Proof.put padr.toNat 10 + Sys2Proof.put rank.val 7 + use)

/-- The word c1 of R133. -/
def mixC1 (elem rep part : Nat) : Word := BitVec.ofNat 64 (Sys2Proof.put part 22 + Sys2Proof.put rep 16 + elem)

/-- The draw of an RSR rounding (R133). -/
def drawOf (h : Word) : Nat := wf h 0 16

/-- The device NaN of a parcel and a lane (R136). -/
def devNan (padr : PAddr) (lane : Nat) : Lane :=
  let p := padr.toNat
  0x7FC00000#32 ||| BitVec.ofNat 32 (Sys2Proof.put (fld p 0 12 ^^^ fld p 12 10) 10) ||| BitVec.ofNat 32 (fld lane 0 10)

/-! ## Exact operations -/

/-- A value negated. A NaN keeps its sign (R137). -/
def Val.neg : Val → Val
  | .nan b => .nan b
  | .inf s => .inf (!s)
  | .fin x => .fin { x with neg := !x.neg }

/-- The signed mantissa of x in units of 2^q, where q ≤ x.exp. -/
def Exact.units (x : Exact) (q : Int) : Int :=
  let n : Int := x.man * 2 ^ (x.exp - q).toNat
  if x.neg then -n else n

/-- The exact sum of two values; the sign of an exact zero is R130's. -/
def Exact.add (md : RMode) (x y : Exact) : Exact :=
  let q := min x.exp y.exp
  let s := x.units q + y.units q
  if s = 0 then ⟨if x.neg = y.neg then x.neg else md = .rd, 0, q, false⟩ else ⟨s < 0, s.natAbs, q, false⟩

def Exact.mul (x y : Exact) : Exact := ⟨x.neg ≠ y.neg, x.man * y.man, x.exp + y.exp, false⟩

/-- x + y before rounding; `dv` is the device NaN of the place (R130, R136, R137). -/
def Val.add (md : RMode) (dv : Lane) (x y : Val) : Val :=
  match x, y with
  | .nan b, _ => .nan (quiet b)
  | _, .nan b => .nan (quiet b)
  | .inf s, .inf r => if s = r then .inf s else .nan dv
  | .inf s, _ => .inf s
  | _, .inf s => .inf s
  | .fin a, .fin b => .fin (a.add md b)

/-- x − y before rounding. -/
def Val.sub (md : RMode) (dv : Lane) (x y : Val) : Val := x.add md dv y.neg

/-- x · y before rounding (R136, R137). -/
def Val.mul (dv : Lane) (x y : Val) : Val :=
  match x, y with
  | .nan b, _ => .nan (quiet b)
  | _, .nan b => .nan (quiet b)
  | .inf s, .inf r => .inf (s ≠ r)
  | .inf s, .fin b => if b.man = 0 then .nan dv else .inf (s ≠ b.neg)
  | .fin a, .inf r => if a.man = 0 then .nan dv else .inf (a.neg ≠ r)
  | .fin a, .fin b => .fin (a.mul b)

/-- a · b + c, or c − a · b, with no rounding between (R136, R137, R143). -/
def Val.fma (md : RMode) (dv : Lane) (nm : Bool) (a b c : Val) : Val :=
  match a, b, c with
  | .nan x, _, _ => .nan (quiet x)
  | _, .nan x, _ => .nan (quiet x)
  | _, _, .nan x => .nan (quiet x)
  | a, b, c =>
    match a.mul dv b with
    | .nan x => .nan x
    | p => if nm then c.sub md dv p else p.add md dv c

/-- a / b before rounding. A finite nonzero value over zero is an infinity (R136, R143). -/
def Val.div (dv : Lane) (x y : Val) : Val :=
  match x, y with
  | .nan b, _ => .nan (quiet b)
  | _, .nan b => .nan (quiet b)
  | .inf _, .inf _ => .nan dv
  | .inf s, .fin b => .inf (s ≠ b.neg)
  | .fin a, .inf s => .num (a.neg ≠ s) 0 0
  | .fin a, .fin b =>
    if b.man = 0 then (if a.man = 0 then .nan dv else .inf (a.neg ≠ b.neg))
    else
      let n := a.man * 2 ^ 80
      .fin ⟨a.neg ≠ b.neg, n / b.man, a.exp - b.exp - 80, n % b.man ≠ 0⟩

/-- The integer square root of n < 2^128, bit by bit. -/
def isqrt (n : Nat) : Nat :=
  (List.range 64).reverse.foldl (fun r k => if (r + 2 ^ k) * (r + 2 ^ k) ≤ n then r + 2 ^ k else r) 0

/-- The square root before rounding (R136, R143); the root of −0 is −0. -/
def Val.sqrt (dv : Lane) (x : Val) : Val :=
  match x with
  | .nan b => .nan (quiet b)
  | .inf s => if s then .nan dv else .inf false
  | .fin a =>
    if a.man = 0 then .fin a
    else if a.neg then .nan dv
    else
      let sh : Nat := if a.exp % 2 = 0 then 100 else 101
      let n := a.man * 2 ^ sh
      let r := isqrt n
      .fin ⟨false, r, (a.exp - sh) / 2, r * r ≠ n⟩

/-- Numbers compared, −0 equal to +0 (R139): x < y, for values that are no NaN. -/
def Val.lt (x y : Val) : Bool :=
  match x, y with
  | .inf s, .inf r => s && !r
  | .inf s, .fin _ => s
  | .fin _, .inf r => !r
  | .fin a, .fin b => let q := min a.exp b.exp; a.units q < b.units q
  | _, _ => false

/-- x and y are equal as numbers (R139). -/
def Val.eqv (x y : Val) : Bool :=
  match x, y with
  | .nan _, _ => false
  | _, .nan _ => false
  | _, _ => !x.lt y && !y.lt x

/-- The sign bit of a value. -/
def Val.isNeg : Val → Bool
  | .nan b => b.getLsbD 31
  | .inf s => s
  | .fin x => x.neg

/-- The lesser of two numbers, −0 below +0; of equals, the first (R138). -/
def Val.lesser (x y : Val) : Val := if y.lt x || (!x.lt y && y.isNeg && !x.isNeg) then y else x

/-- The greater of two numbers, +0 above −0; of equals, the first (R138). -/
def Val.greater (x y : Val) : Val := if x.lt y || (!y.lt x && x.isNeg && !y.isNeg) then y else x

/-- VMIN, VMAX and the MIN and MAX of a port; `pick` is the lesser or the greater; `prop` the .P forms (R138). -/
def Val.minmax (pick : Val → Val → Val) (prop : Bool) (dv : Lane) (x y : Val) : Val :=
  match x, y with
  | .nan a, .nan b =>
    if prop then .nan (quiet a) else if isSignal a || isSignal b then .nan dv else .nan a
  | .nan a, v => if prop then .nan (quiet a) else if isSignal a then .nan dv else v
  | v, .nan b => if prop then .nan (quiet b) else if isSignal b then .nan dv else v
  | x, y => pick x y

/-! ## F32 steps -/

/-- One F32 operation rounded to nearest even (R144, R145, R283, R290). -/
def f32 (b : Lane) : Val := Val.ofF .f32 b.toNat
def toF32 (v : Val) : Lane := BitVec.ofNat 32 (v.toF false .f32 .rne 0)
def f32Add (dv x y : Lane) : Lane := toF32 ((f32 x).add .rne dv (f32 y))
def f32Sub (dv x y : Lane) : Lane := toF32 ((f32 x).sub .rne dv (f32 y))
def f32Mul (dv x y : Lane) : Lane := toF32 ((f32 x).mul dv (f32 y))

/-! ## Scaled blocks -/

/-- floor(log2 |x|) of a nonzero finite value. -/
def Exact.lg (x : Exact) : Int := (Nat.log2 x.man : Int) + x.exp

/-- The exponent of the largest magnitude of a block; none where every element is zero (R128). -/
def blockLg (xs : List Exact) : Option Int :=
  xs.foldl (fun a x => if x.man = 0 then a else
    match a with | none => some x.lg | some l => some (max l x.lg)) none

/-- The exponent of a format's largest element (R128). -/
def FTy.emax : FTy → Int
  | .e4m3 => 8 | .e5m2 => 15 | _ => 2

/-- The finite value that a Val holds. -/
def Val.fin? : Val → Option Exact
  | .fin x => some x
  | _ => none

/-- MX quantisation of a block of F32 values: the scale code and the element codes (R128). -/
def quantise (t : FTy) (xs : List Lane) : Nat × List Nat :=
  let vs := xs.map fun x => (f32 x).fin?
  if vs.any (·.isNone) then (255, xs.map fun _ => 0)
  else
    let es := vs.filterMap id
    let k := match blockLg es with | none => (-127 : Int) | some l => max (-127) (l - FTy.emax t)
    ((k + 127).toNat, es.map fun x => roundF true t .rne 0 { x with exp := x.exp - k })

/-- Element of a scaled block read back as F32 (R126). -/
def expandMx (t : FTy) (scale code : Nat) : Lane :=
  if scale = 255 then 0x7FC00000
  else match Val.ofF t code with
    | .fin x => toF32 (.fin { x with exp := x.exp + scale - 127 })
    | v => toF32 v

/-! ## F32 constants -/

/-- The F32 constants of R146. -/
def f32One (neg : Bool) : Lane := if neg then 0xBF800000 else 0x3F800000
def f32Inf (neg : Bool) : Lane := if neg then 0xFF800000 else 0x7F800000

/-! ## The matrix sum -/

/-- The product of an activation and a weight; a removed weight gives +0 (R145). -/
def matProd (dv : Lane) (a : Val) (w : Option Val) : Val :=
  match w with
  | none => .num false 0 0
  | some w => a.mul dv w

/-- The first NaN among the elements of the formed products, activation before weight (R145). -/
def firstNan : List (Val × Option Val) → Option Lane
  | [] => none
  | (a, w) :: rest =>
    match w with
    | none => firstNan rest
    | some v =>
      match a, v with
      | .nan b, _ => some b
      | _, .nan b => some b
      | _, _ => firstNan rest

/-- The exact sum of finite values; an exact zero is −0 where every value is −0, else +0 (R145). -/
def sumExact (xs : List Exact) : Exact :=
  let q := xs.foldl (fun (q : Int) x => min q x.exp) 0
  let s : Int := (xs.map fun x => x.units q).sum
  if s = 0 then ⟨xs.all fun x => x.neg && x.man = 0, 0, q, false⟩ else ⟨s < 0, s.natAbs, q, false⟩

/-- The sum of one group of 32 products, as F32 (R145). -/
def groupSum (dv : Lane) (ps : List (Val × Option Val)) : Lane :=
  match firstNan ps with
  | some b => quiet b
  | none =>
    let vs := ps.map fun p => matProd dv p.1 p.2
    let isInf (s : Bool) : Bool := vs.any fun v => v = .inf s
    if vs.any (fun v => match v with | .nan _ => true | _ => false) || (isInf true && isInf false) then dv
    else if isInf true then f32Inf true
    else if isInf false then f32Inf false
    else toF32 (.fin (sumExact (vs.filterMap Val.fin?)))

/-- The sum over 128 values of K (R145). -/
def dotSum (dv : Lane) (ps : List (Val × Option Val)) : Lane :=
  let g (k : Nat) : Lane := groupSum dv ((ps.drop (32 * k)).take 32)
  f32Add dv (f32Add dv (f32Add dv (g 0) (g 1)) (g 2)) (g 3)

/-- The sum of one output element, added to the accumulator (R145). -/
def matSum (dv acc : Lane) (ps : List (Val × Option Val)) : Lane := f32Add dv acc (dotSum dv ps)

end Sys2Proof.Machine
end

