-- ==== Sys2Proof/Machine/Flags.lean ====
section
/-!
DEFINITION. Conditions, saturation and shifts: everything that decides or bounds a result (spec/03_encoding.md R90,
R91; spec/04_arithmetic.md R139 to R142). The machine keeps no flags (R137).
-/
namespace Sys2Proof.Machine

/-- A scalar condition (R90). -/
def Cond.holds (c : Cond) (a b : Word) : Bool :=
  match c with
  | .eq => a = b
  | .ne => a ≠ b
  | .lt => a.slt b
  | .ge => b.sle a
  | .ltu => a.ult b
  | .geu => b.ule a
  | .gt => b.slt a
  | .le => a.sle b
  | .gtu => b.ult a
  | .leu => a.ule b

/-- A vector condition of two integers (R91). -/
def VCond.int (c : VCond) (a b : Int) : Bool :=
  match c with
  | .eq => a = b
  | .ne => a ≠ b
  | .lt => a < b
  | .le => a ≤ b
  | .gt => b < a
  | .ge => b ≤ a
  | .unord => false
  | .ord => true

/-- A vector condition of two floating-point values; a NaN makes the pair unordered (R139). -/
def VCond.flt (c : VCond) (a b : Val) : Bool :=
  let nan : Bool := match a, b with | .nan _, _ => true | _, .nan _ => true | _, _ => false
  match c with
  | .eq => !nan && a.eqv b
  | .ne => nan || !a.eqv b
  | .lt => !nan && a.lt b
  | .le => !nan && !b.lt a
  | .gt => !nan && b.lt a
  | .ge => !nan && !a.lt b
  | .unord => nan
  | .ord => !nan

/-- An exact result saturated to the signed, or the unsigned, 64-bit range (R140). -/
def satS (x : Int) : Word := ofInt64 (clamp (-(2 ^ 63)) (2 ^ 63 - 1) x)
def satU (x : Int) : Word := ofInt64 (clamp 0 (2 ^ 64 - 1) x)

/-- An S register read unsigned, as an integer. -/
def uInt (w : Word) : Int := w.toNat

/-- A shift amount held to 64, which every larger amount acts like (R142). -/
def shAmt (w : Word) : Nat := min w.toNat 64

/-- Division (R141): never a trap; a divisor of zero gives all ones and the dividend. -/
def divS (a b : Word) : Word := if b = 0 then BitVec.allOnes 64 else ofInt64 (Int.tdiv a.toInt b.toInt)
def divU (a b : Word) : Word := if b = 0 then BitVec.allOnes 64 else a / b
def remS (a b : Word) : Word := if b = 0 then a else ofInt64 (Int.tmod a.toInt b.toInt)
def remU (a b : Word) : Word := if b = 0 then a else a % b

/-- A field of a word, of `wid` + 1 bits at `pos` (R379). -/
def bitField (a : Word) (pos wid : BitVec 6) : Nat := wf a pos.toNat (wid.toNat + 1)

/-- A field of n bits read as a signed number. -/
def signField (x n : Nat) : Int := if bit x (n - 1) then (x : Int) - 2 ^ n else x

/-- The low bits of `a` inserted into a field of `d` (R379). -/
def insertField (d a : Word) (pos wid : BitVec 6) : Word :=
  let mask : Word := BitVec.ofNat 64 ((2 ^ (wid.toNat + 1) - 1) * 2 ^ pos.toNat)
  (d &&& ~~~mask) ||| ((a <<< pos.toNat) &&& mask)

/-- The zero bits above the highest 1 bit (R379). -/
def clz (a : Word) : Nat := if a = 0 then 64 else 63 - Nat.log2 a.toNat

end Sys2Proof.Machine
end

