-- ==== Sys2Proof/Machine/Tensor.lean ====
section
/-!
DEFINITION. Tensors: descriptors, tile-table entries, translation caches, and the fault records of a context
(spec/06_copy_engines.md R181, R182, R185 to R187; spec/01_organisation.md R495).
-/
namespace Sys2Proof.Machine

/-- A usable descriptor (R181). -/
structure Desc where
  ttab : Nat
  rowb : Nat
  nrow : Nat
  ltw : Nat
  deriving DecidableEq, Repr

/-- The descriptor that four words hold, if it is usable (R181). -/
def descOf (ws : List Word) : Option Desc :=
  let w0 := blkW ws 0
  let w1 := blkW ws 1
  let w2 := blkW ws 2
  if wf w0 48 16 = 0 && wf w0 0 6 = 0 && wf w1 0 32 % 64 = 0 && wf w1 0 32 ≠ 0 && wf w1 32 32 ≠ 0 &&
     6 ≤ wf w2 0 5 && wf w2 0 5 ≤ 16 && wf w2 5 3 = 0 && wb w2 8 && wf w2 9 55 = 0 && blkW ws 3 = 0 then
    some ⟨wf w0 0 48, wf w1 0 32, wf w1 32 32, wf w2 0 5⟩
  else none

/-- Bytes of the tensor (R178). -/
def Desc.size (d : Desc) : Nat := d.rowb * d.nrow

/-- Tile number and byte within the tile of offset x (R181). -/
def Desc.tile (d : Desc) (x : Nat) : Nat × Nat :=
  let tw := 2 ^ d.ltw
  let th := 65536 / tw
  let y := x / d.rowb
  let xc := x % d.rowb
  let ntx := (d.rowb + tw - 1) / tw
  (y / th * ntx + xc / tw, y % th * tw + xc % tw)

/-- Bytes from offset x on that lie in one tile and one of its rows (R181). -/
def Desc.run (d : Desc) (x : Nat) : Nat := min (d.rowb - x % d.rowb) (2 ^ d.ltw - x % d.rowb % 2 ^ d.ltw)

/-- The device address of a frame (R495). -/
def frameAddr (tier die frame : Nat) : Nat :=
  tier * 2 ^ 46 + (if tier = 3 then frame * 65536 else die * 2 ^ 44 + frame * 65536)

/-- The frame address that a tile-table entry names, where the entry is present (R181). -/
def Mach.entryAddr (m : Mach) (w : Word) : Option Nat :=
  let tier := wf w 1 2
  let a := frameAddr tier (wf w 3 2) (wf w 6 30)
  if wb w 0 && tier ≠ 0 && !(wb w 5) && wf w 36 28 = 0 && (tier ≠ 3 || wf w 3 2 = 0) &&
     (tier = 3 || wf w 6 30 < 2 ^ 28) && m.named a then some a else none

/-! ## Translation caches -/

/-- Whose translation cache it is (R182). -/
inductive Holder where
  | core (g : Fin 256)
  | belfry (d : Fin 4)
  | lantern (d : Fin 4)
  | cupola (d : Fin 4)
  | gatherer (d : Fin 4)
  deriving DecidableEq, Repr

def Mach.cache (m : Mach) : Holder → List CacheEntry
  | .core g => (m.core g).tcache
  | .belfry d => (m.die d).belfry.tcache
  | .lantern d => (m.die d).lan.tcache
  | .cupola d => (m.die d).cup.tcache
  | .gatherer d => (m.die d).gat.tcache

def Mach.onCache (m : Mach) (h : Holder) (f : List CacheEntry → List CacheEntry) : Mach :=
  match h with
  | .core g => m.onCore g fun c => { c with tcache := f c.tcache }
  | .belfry d => m.onBelfry d fun b => { b with tcache := f b.tcache }
  | .lantern d => m.onLan d fun l => { l with tcache := f l.tcache }
  | .cupola d => m.onCup d fun u => { u with tcache := f u.tcache }
  | .gatherer d => m.onGat d fun g => { g with tcache := f g.tcache }

/-- The key under which a free value says whether a cache still holds an entry. -/
def cacheKey (t : BitVec 20) (n : Nat) : Nat := n * 2 ^ 20 + t.toNat

/-- The descriptor words of tensor t of context c, as holder h sees them: those its cache still holds, or those in
memory, which the cache then keeps (R181, R182). -/
def Mach.lookDesc (m : Mach) (h : Holder) (c : Fin 64) (t : BitVec 20) : List Word × Mach :=
  let cached := (m.cache h).findSome? fun e =>
    match e with
    | .desc c' t' w0 w1 w2 w3 => if c' = c && t' = t then some [w0, w1, w2, w3] else none
    | .tile .. => none
  match (cached.filter fun _ => Config.cacheHolds m.seq (cacheKey t 0)) with
  | some ws => (ws, m)
  | none =>
    let r := m.access c ((m.ctx c).tdbase.toNat + 32 * t.toNat) 32
    let ws := wordsOf 4 r.1
    let keep (l : List CacheEntry) : List CacheEntry :=
      .desc c t (blkW ws 0) (blkW ws 1) (blkW ws 2) (blkW ws 3) ::
        l.filter fun e => match e with | .desc c' t' .. => !(c' = c && t' = t) | .tile .. => true
    (ws, r.2.onCache h keep)

/-- The tile-table entry of tile n of tensor t, as holder h sees it. A cache never keeps an entry that is not
present (R182). -/
def Mach.lookTile (m : Mach) (h : Holder) (c : Fin 64) (t : BitVec 20) (ttab n : Nat) : Word × Mach :=
  let cached := (m.cache h).findSome? fun e =>
    match e with
    | .tile c' t' n' w => if c' = c && t' = t && n' = n then some w else none
    | .desc .. => none
  match (cached.filter fun _ => Config.cacheHolds m.seq (cacheKey t (n + 1))) with
  | some w => (w, m)
  | none =>
    let r := m.access c (ttab + 8 * n) 8
    let w := BitVec.ofNat 64 (leVal r.1)
    if (m.entryAddr w).isSome then
      (w, r.2.onCache h fun l => .tile c t n w ::
        l.filter fun e => match e with | .tile c' t' n' _ => !(c' = c && t' = t && n' = n) | .desc .. => true)
    else (w, r.2)

/-- Where byte x of a tensor lies: its device address, or the tile that is not present (R181, R185). -/
inductive Place where
  | at (a : Nat)
  | absent (tile : Nat)
  deriving DecidableEq, Repr

def Mach.placeOf (m : Mach) (h : Holder) (c : Fin 64) (t : BitVec 20) (d : Desc) (x : Nat) : Place × Mach :=
  let p := d.tile x
  let r := m.lookTile h c t d.ttab p.1
  match r.2.entryAddr r.1 with
  | some a => (.at (a + p.2), r.2)
  | none => (.absent p.1, r.2)

/-- The pieces of n bytes from offset x of a tensor: device address and length each; or the first tile that is not
present. At most `fuel` pieces. -/
def Mach.pieces (m : Mach) (h : Holder) (c : Fin 64) (t : BitVec 20) (d : Desc) :
    Nat → Nat → Nat → List (Nat × Nat) → Except Nat (List (Nat × Nat)) × Mach
  | 0, _, _, acc => (.ok acc.reverse, m)
  | fuel + 1, x, n, acc =>
    if n = 0 then (.ok acc.reverse, m)
    else
      let r := m.placeOf h c t d x
      match r.1 with
      | .absent k => (.error k, r.2)
      | .at a =>
        let l := min n (d.run x)
        r.2.pieces h c t d fuel (x + l) (n - l) ((a, l) :: acc)

/-- Pieces enough for n bytes: a tile row holds at least 64. -/
def pieceFuel (n : Nat) : Nat := n / 64 + 3

/-- n bytes of a tensor read by context c: the bytes, and whether a lasting error or a world was met (R188, R365);
or the tile that is not present (R185). -/
def Mach.tensorRead (m : Mach) (h : Holder) (c : Fin 64) (t : BitVec 20) (d : Desc) (x n : Nat) :
    Except Nat (List Byte × Bool) × Mach :=
  let r := m.pieces h c t d (pieceFuel n) x n []
  match r.1 with
  | .error k => (.error k, r.2)
  | .ok ps =>
    let bs := ps.flatMap fun p => r.2.devRead (r.2.sec c) p.1 p.2
    let bad := ps.any fun p => r.2.badAt p.1 p.2 || r.2.violates c p.1 p.2
    (.ok (bs, bad), ps.foldl (fun m p => (m.retried p.1 p.2).noteWorld c p.1 p.2) r.2)

/-- A run of bytes dealt out over pieces and written. -/
def Mach.writePieces (m : Mach) (c : Fin 64) : List (Nat × Nat) → List Byte → Mach
  | [], _ => m
  | (a, l) :: ps, bs => (m.ctxWrite c a (bs.take l)).writePieces c ps (bs.drop l)

/-- Bytes written to a tensor by context c: whether a world was met; or the tile that is not present. -/
def Mach.tensorWrite (m : Mach) (h : Holder) (c : Fin 64) (t : BitVec 20) (d : Desc) (x : Nat) (bs : List Byte) :
    Except Nat Bool × Mach :=
  let r := m.pieces h c t d (pieceFuel bs.length) x bs.length []
  match r.1 with
  | .error k => (.error k, r.2)
  | .ok ps => (.ok (ps.any fun p => r.2.violates c p.1 p.2), r.2.writePieces c ps bs)

/-! ## Fault records -/

/-- The index of the first element of a list that meets a condition. -/
def firstIx {α : Type} (p : α → Bool) (l : List α) : Option Nat :=
  let n := (l.takeWhile fun x => !p x).length
  if n < l.length then some n else none

/-- BLOCK of a tile: the low 32 bits of tile SHR 6 (R186; log entry 95). -/
def tileBlock (n : Nat) : BitVec 32 := BitVec.ofNat 32 (n / 64)

/-- A stop on tile n of tensor t is recorded; false where all records are valid (R186). -/
def Mach.faultOn (m : Mach) (c : Fin 64) (t : BitVec 20) (n : Nat) : Bool × Mach :=
  let rs := (m.ctx c).frec.toList
  let hit (r : FaultRec) : Bool := r.valid && r.tensor = t && r.block = tileBlock n
  let set (r : FaultRec) : FaultRec :=
    { r with bitmap := r.bitmap ||| BitVec.ofNat 64 (2 ^ (n % 64)), nstop := r.nstop + 1 }
  match firstIx hit rs with
  | some i => (true, m.onCtx c fun x => { x with frec := upd x.frec (Fin.ofNat 16 i) set })
  | none =>
    match firstIx (fun r => !r.valid) rs with
    | some i =>
      (true, (m.onCtx c fun x =>
        { x with frec := put x.frec (Fin.ofNat 16 i) (set ⟨t, true, tileBlock n, 0, 0⟩) }).raise
          (Fin.ofNat 130 (64 + c.val)))
    | none => (false, m)

/-- Consuming record i frees what is stopped on a tile of it, and what found no free record (R186, R187). -/
def freed (r : FaultRec) (s : Option (BitVec 20 × Nat × Bool)) : Option (BitVec 20 × Nat × Bool) :=
  match s with
  | none => none
  | some (t, n, recorded) =>
    if !recorded || (r.valid && t = r.tensor && tileBlock n = r.block) then none else s

/-- FRES: the record is cleared, and every stopped operation, program, hop and held message of the context that it covers may
try again (R187, R252, R268, R352). -/
def Mach.consume (m : Mach) (c : Fin 64) (i : Fin 16) : Mach :=
  let r := (m.ctx c).frec[i.val]
  let m := m.onCtx c fun x => { x with frec := put x.frec i FaultRec.reset }
  let m := { m with ops := m.ops.map fun (o : Op) => if o.ctx = c then { o with stop := freed r o.stop } else o,
                    inbox := m.inbox.map fun (h : HeldMsg) => if h.msg.ctx = c then { h with stop := freed r h.stop } else h }
  dieNums.foldl (fun m d =>
    let m := m.onBelfry d fun b => { b with slots := each b.slots fun (s : BSlot) =>
      if s.ctx = c then { s with hops := each s.hops fun (h : HopState) => { h with stop := freed r h.stop } } else s }
    m.onLan d fun l => { l with run := l.run.map fun (x : LnRun) =>
      if x.prog.ctx = c then { x with stop := freed r x.stop } else x }) m

/-- Where a stop leaves its operation: the tile, and whether a record holds it (R185, R186). -/
def Mach.stopped (m : Mach) (c : Fin 64) (t : BitVec 20) (n : Nat) : Option (BitVec 20 × Nat × Bool) × Mach :=
  let r := m.faultOn c t n
  (some (t, n, r.1), r.2)

end Sys2Proof.Machine
end

