-- ==== Sys2Proof/Machine/Objects.lean ====
section
/-!
DEFINITION. Objects and their copies, the frame stacks, and invalidations with their acknowledgements
(spec/09_tiers.md R242 to R247, R260, R261, R266; spec/06_copy_engines.md R191, R192, R194).
-/
namespace Sys2Proof.Machine

/-- Bits lo to lo + w − 1 of a word replaced. -/
def setF (x : Word) (lo w v : Nat) : Word :=
  let mask : Word := BitVec.ofNat 64 ((2 ^ w - 1) * 2 ^ lo)
  (x &&& ~~~mask) ||| (BitVec.ofNat 64 (v * 2 ^ lo) &&& mask)

/-! ## Object records -/

/-- The device address of the record of object i of context c (R242). -/
def Mach.objAddr (m : Mach) (c : Fin 64) (i : Nat) : Nat := (m.ctx c).otbase.toNat + 64 * i

/-- The record of object i: its eight words (R243). -/
def Mach.objRec (m : Mach) (c : Fin 64) (i : Nat) : List Word :=
  wordsOf 8 (m.devRead (m.sec c) (m.objAddr c i) 64)

/-- Fields of a record (R243). -/
def objLsh (ws : List Word) : Nat := wf (blkW ws 0) 0 4
def objHome (ws : List Word) (tier : Nat) : Bool := wb (blkW ws 0) (4 + (tier - 1))
def objOwner (ws : List Word) : Fin 4 := toDie (wf (blkW ws 0) 8 2)
def objValid (ws : List Word) : Bool := wb (blkW ws 0) 10
def objPoison (ws : List Word) : Bool := wb (blkW ws 0) 11
def objNsh (ws : List Word) : Nat := wf (blkW ws 0) 32 32
def objTensor (ws : List Word) (tier : Nat) : BitVec 20 := (blkW ws 1).extractLsb' (if tier = 3 then 0 else if tier = 2 then 20 else 40) 20
def objRep (ws : List Word) (i : Nat) : BitVec 20 := (blkW ws 2).extractLsb' (20 * (i - 1)) 20
def objRepValid (ws : List Word) (i : Nat) : Bool := wb (blkW ws 2) (60 + (i - 1))

/-- The word of a record that holds the copy state of a tier: CS2 at 0x18, CS1 at 0x20 (R243). -/
def csWord (tier : Nat) : Nat := 5 - tier

/-- Object i of context c is in the table and its record in use (R245). The reserved bits of the record are not looked at: R10
calls such a record malformed, no rule names the error, and this is the model's choice (R243; log entry 111). -/
def Mach.objUsed (m : Mach) (c : Fin 64) (i : Nat) : Bool := i < (m.ctx c).nobj.toNat && objValid (m.objRec c i)

def Mach.cs (m : Mach) (c : Fin 64) (i tier : Nat) : Word := blkW (m.objRec c i) (csWord tier)
def Mach.setCs (m : Mach) (c : Fin 64) (i tier : Nat) (w : Word) : Mach :=
  m.ctxWrite c (m.objAddr c i + 8 * csWord tier) (wordBytes w)

/-- Fields of a copy-state word (R243). -/
def csState (w : Word) : Nat := wf w 0 2
def csRet (w : Word) : Bool := wb w 2
def csEvp (w : Word) : Bool := wb w 3
def csPins (w : Word) : Nat := wf w 4 16
def csUsers (w : Word) : Nat := wf w 20 16
def csFills (w : Word) : Nat := wf w 36 16
def csFree (w : Word) : Bool := csPins w = 0 && csUsers w = 0 && csFills w = 0
def csPut (w : Word) (st : Nat) (evp : Bool) (fills : Nat) : Word :=
  setF (setF (setF w 0 3 st) 3 1 evp.toNat) 36 16 fills

/-! ## Frame stacks -/

/-- The stack of a die and a tier 1 or 2 (R245). -/
def stackIx (d : Fin 4) (tier : Nat) : Fin 8 := Fin.ofNat 8 (2 * d.val + (tier - 1))

/-- A frame pushed; a full stack discards it and counts it as stray (R244). -/
def Mach.pushFrame (m : Mach) (c : Fin 64) (d : Fin 4) (tier frame : Nat) : Mach :=
  let k := stackIx d tier
  let x := m.ctx c
  if x.fcnt[k.val] = x.fcap[k.val] then m.stray c
  else
    (m.ctxWrite c ((x.fsb[k.val]).toNat + 4 * (x.fcnt[k.val]).toNat) (leBytes 4 frame)).onCtx c fun x =>
      { x with fcnt := upd x.fcnt k (· + 1) }

/-- A frame popped, if the stack holds one (R244). -/
def Mach.popFrame (m : Mach) (c : Fin 64) (d : Fin 4) (tier : Nat) : Option (Nat × Mach) :=
  let k := stackIx d tier
  let x := m.ctx c
  if x.fcnt[k.val] = 0 then none
  else
    let a := (x.fsb[k.val]).toNat + 4 * ((x.fcnt[k.val]).toNat - 1)
    let w := m.devL (m.sec c) a
    some (w.toNat, (m.noteReads c [(a, 4)]).onCtx c fun x => { x with fcnt := upd x.fcnt k (· - 1) })

/-! ## Invalidations -/

/-- A range covers a cached entry of its context (R191, R192). -/
def Inval.covers (iv : Inval) (c : Fin 64) : CacheEntry → Bool
  | .desc c' t .. => c' = c && (iv.all || iv.tensor = t)
  | .tile c' t n _ => c' = c && (iv.all || iv.tensor = t) && (iv.whole || (iv.first ≤ n && n < iv.first + iv.nt))

/-- A cache drops what the running invalidation of a context covers (R191). -/
def Mach.dropCovered (m : Mach) (c : Fin 64) (h : Holder) : Mach :=
  let ivs := (m.ctx c).invals
  m.onCache h fun l => l.filter fun e => !(ivs.any fun iv => iv.covers c e)

/-- The operations of context c that a unit has started and not completed: Belfry's hops by their entries, Lantern's program,
the commands that Cupola or the gatherer has begun or applied, and Cupola's rows that have run and not ended (R191). -/
def Mach.openIds (m : Mach) (d : Fin 4) (u : UnitKind) (c : Fin 64) : List Nat :=
  let begun := (m.ops.filter fun o => o.die = d && o.unit = u && o.ctx = c && (o.begun || o.fin)).map (·.id)
  let cup := (m.die d).cup
  let ran := (cup.accepted.filter fun (r : Row) => r.ctx = c && (r.res.isSome || cup.stall.contains r.acc)).map (·.acc)
  match u with
  | .belfry =>
    (m.die d).belfry.slots.toList.flatMap fun s =>
      if s.running && s.ctx = c then s.ents.filterMap fun e => if e.complete then none else e.sid else []
  | .lantern => match (m.die d).lan.run with | some r => if r.prog.ctx = c then [r.prog.id] else [] | none => []
  | .cupola => begun ++ ran
  | _ => begun

/-- The units that keep a translation cache, on every die. -/
def cacheUnits : List (Fin 4 × UnitKind) :=
  dieNums.flatMap fun d => [(d, .belfry), (d, .cupola), (d, .lantern), (d, .gatherer)]

/-- Whose cache a unit's is. -/
def holderOf (d : Fin 4) : UnitKind → Holder
  | .belfry => .belfry d | .lantern => .lantern d | .cupola => .cupola d | _ => .gatherer d

/-- The code of a core's task (R237). -/
def coreCode (g : Fin 256) : BitVec 16 := BitVec.ofNat 16 g.val

/-- The invalidation of an eviction has completed: RET becomes 1, and the frames of the copy are to be returned (R260). -/
def Mach.startReturn (m : Mach) (e : Evict) : Mach :=
  m.setCs e.ctx e.obj e.tier (setF (m.cs e.ctx e.obj e.tier) 2 1 1)

/-- Belfry of die d pushes the next frame of a copy whose invalidation has completed; after the last one the copy is ABSENT
(R260). -/
def Mach.returnFrame (m : Mach) (d : Fin 4) : Mach :=
  match (m.die d).belfry.evicts.find? (·.ret) with
  | none => m
  | some e =>
    let m := match e.tiles with | p :: _ => m.pushFrame e.ctx d e.tier (wf p.2 6 30) | [] => m
    if e.tiles.length ≤ 1 then
      let w := m.cs e.ctx e.obj e.tier
      (m.setCs e.ctx e.obj e.tier (csPut w 0 false (csFills w))).onBelfry d fun b => { b with evicts := b.evicts.erase e }
    else m.onBelfry d fun b => { b with evicts := b.evicts.map fun (x : Evict) => if x = e then { e with tiles := e.tiles.tail } else x }

/-- The invalidation of a context completes when nobody owes an acknowledgement (R191, R192, R260). -/
def Mach.finishInval (m : Mach) (c : Fin 64) : Mach :=
  let x := m.ctx c
  if x.busy && x.owed.isEmpty then
    let m := m.onCtx c fun x =>
      { x with busy := false, done := x.done + BitVec.ofNat 32 x.invals.length, invals := [], invSnap := [] }
    dieNums.foldl (fun m d =>
      let mine := (m.die d).belfry.evicts.filter fun e => e.ctx = c && !e.ret
      let m := m.onBelfry d fun b => { b with evicts := b.evicts.map fun (e : Evict) => if e.ctx = c then { e with ret := true } else e }
      mine.foldl Mach.startReturn m) m
  else m

/-- One agent acknowledges: it drops what is covered and owes no more (R191). -/
def Mach.ackOne (m : Mach) (c : Fin 64) (code : BitVec 16) (h : Holder) : Mach :=
  (m.dropCovered c h).onCtx c fun x => { x with owed := x.owed.filter (· ≠ code) }

/-- The units that have completed what they had started before the invalidation acknowledge it (R191, step 3). -/
def Mach.settleUnits (m : Mach) (c : Fin 64) : Mach :=
  let m := cacheUnits.foldl (fun m p =>
    let code := unitCode p.1 p.2
    if (m.ctx c).owed.contains code && !((m.openIds p.1 p.2 c).any fun k => (m.ctx c).invSnap.contains k) then
      m.ackOne c code (holderOf p.1 p.2)
    else m) m
  m.finishInval c

/-- The core acknowledges for its task's context (R191, R415). -/
def Mach.ackCore (m : Mach) (g : Fin 256) : Mach :=
  match (m.core g).task with
  | none => m
  | some t =>
    if (m.ctx t.ctx).owed.contains (coreCode g) then
      ((m.ackOne t.ctx (coreCode g) (.core g)).onCore g fun c => { c with owes := none, wdog := none }).finishInval t.ctx
    else m

/-- An invalidation starts, or adds its range to the one that runs: who runs a task of the context, or has started
an operation for it, owes; everyone else drops what is covered at once. A core that still owes counts its TWDOG clocks from the
earlier write (R191). -/
def Mach.startInval (m : Mach) (c : Fin 64) (iv : Inval) : Mach :=
  let cores := coreNums.filter fun g => match (m.core g).task with | some t => t.ctx = c && t.running | none => false
  let units := cacheUnits.filter fun p => !(m.openIds p.1 p.2 c).isEmpty
  let m := m.onCtx c fun x =>
    { x with busy := true, invals := iv :: x.invals,
             owed := cores.map coreCode ++ units.map fun p => unitCode p.1 p.2,
             invSnap := x.invSnap ++ cacheUnits.flatMap fun p => m.openIds p.1 p.2 c,
             invAt := each m.dies (fun (d : Die) => d.cycle) }
  let m := coreNums.foldl (fun m g =>
    if cores.contains g then
      let now := m.clock g
      m.onCore g fun k => { k with owes := some (k.owes.getD now) }
    else if (m.core g).tcache.isEmpty then m
    else m.dropCovered c (.core g)) m
  let m := cacheUnits.foldl (fun m p => if units.contains p then m else m.dropCovered c (holderOf p.1 p.2)) m
  m.finishInval c

/-! ## Copy states -/

/-- Every tile of a copy: its number, and its entry as it stands (R242, R260). -/
def Mach.copyTiles (m : Mach) (c : Fin 64) (t : BitVec 20) : Nat × List (Nat × Word) :=
  match descOf (wordsOf 4 (m.devRead (m.sec c) ((m.ctx c).tdbase.toNat + 32 * t.toNat) 32)) with
  | none => (0, [])
  | some d => (d.ttab, (List.range d.nrow).map fun y => (y, m.devW (m.sec c) (d.ttab + 8 * y)))

/-- The eviction of a free copy begins: P of every tile is cleared, and the invalidation starts (R260). -/
def Mach.evict (m : Mach) (c : Fin 64) (i tier : Nat) : Mach :=
  let ws := m.objRec c i
  let t := objTensor ws tier
  let ts := m.copyTiles c t
  let set := ts.2.filter fun p => wb p.2 0
  let m := set.foldl (fun m p => m.ctxWrite c (ts.1 + 8 * p.1) (wordBytes (setF p.2 0 1 0))) m
  let m := m.setCs c i tier (csPut (m.cs c i tier) 3 false 0)
  let m := m.onBelfry (objOwner ws) fun b => { b with evicts := b.evicts ++ [⟨c, i, tier, set, false⟩] }
  m.startInval c ⟨t, false, 0, 0, true⟩

/-- An eviction request (R260). One for a home tier is ignored by an itinerary's caller. -/
def Mach.evictReq (m : Mach) (c : Fin 64) (i tier : Nat) : Mach :=
  let w := m.cs c i tier
  if objHome (m.objRec c i) tier then m
  else match csState w with
    | 1 => m.setCs c i tier (setF w 3 1 1)
    | 2 => if csFree w then m.evict c i tier else m.setCs c i tier (setF w 3 1 1)
    | _ => m

/-- A change of PINS or USERS may start a deferred eviction (R260). -/
def Mach.recheck (m : Mach) (c : Fin 64) (i tier : Nat) : Mach :=
  let w := m.cs c i tier
  if csState w = 2 && csEvp w && csFree w then m.evict c i tier else m

/-- USERS of a copy rises or falls. It wraps modulo 2^16: for more than 65,535 entries that read one copy nothing is stated, and
this is the model's choice (R243, R261; log entry 119). -/
def Mach.useCopy (m : Mach) (c : Fin 64) (i tier : Nat) (up : Bool) : Mach :=
  let w := m.cs c i tier
  let n := csUsers w
  (m.setCs c i tier (setF w 20 16 (if up then n + 1 else n - 1))).recheck c i tier

/-- A fill request: FILLS rises, a running eviction is rescued; none where the copy is being returned (R260). -/
def Mach.fillReq (m : Mach) (c : Fin 64) (i tier : Nat) : Option Mach :=
  let w := m.cs c i tier
  match csState w with
  | 3 =>
    if csRet w then none
    else
      let d := objOwner (m.objRec c i)
      let mine (e : Evict) : Bool := e.ctx = c && e.obj = i && e.tier = tier
      let ttab := (m.copyTiles c (objTensor (m.objRec c i) tier)).1
      let m := ((m.die d).belfry.evicts.filter mine).foldl (fun m e =>
        e.tiles.foldl (fun m p => m.ctxWrite c (ttab + 8 * p.1) (wordBytes p.2)) m) m
      let m := m.onBelfry d fun b => { b with evicts := b.evicts.filter fun e => !mine e }
      some (m.setCs c i tier (csPut w 1 false (csFills w + 1)))
  | _ => some (m.setCs c i tier (csPut w 1 false (csFills w + 1)))

/-- A fill completes (R260). -/
def Mach.fillDone (m : Mach) (c : Fin 64) (i tier : Nat) : Mach :=
  let w := m.cs c i tier
  if 1 < csFills w then m.setCs c i tier (setF w 36 16 (csFills w - 1))
  else
    let w' := setF w 36 16 0
    if csEvp w && csFree w' then (m.setCs c i tier w').evict c i tier
    else m.setCs c i tier (csPut w 2 (csEvp w) 0)

/-- The copies of a killed context that a Belfry owns: P of every FILLING copy cleared and its frames returned,
FILLS and USERS cleared in every copy (R266). -/
def Mach.dropCopies (m : Mach) (c : Fin 64) (d : Fin 4) : Mach :=
  (List.range (m.ctx c).nobj.toNat).foldl (fun m i =>
    let ws := m.objRec c i
    if objValid ws && objOwner ws = d then
      [1, 2].foldl (fun m tier =>
        let w := m.cs c i tier
        let m :=
          if csState w = 1 then
            let ts := m.copyTiles c (objTensor ws tier)
            (ts.2.filter fun p => wb p.2 0).foldl (fun m p =>
              (m.ctxWrite c (ts.1 + 8 * p.1) (wordBytes (setF p.2 0 1 0))).pushFrame c d tier (wf p.2 6 30)) m
          else m
        let st := if csState w = 1 then 0 else csState w
        m.setCs c i tier (setF (setF (setF w 0 2 st) 20 16 0) 36 16 0)) m
    else m) m

/-- Every translation cache of the package drops the entries of context c: at a kill, and at a write of TDBASE, after
which no command is answered with what was read through the old value (R192, R194). -/
def Mach.dropCached (m : Mach) (c : Fin 64) : Mach :=
  let keep (e : CacheEntry) : Bool := match e with | .desc c' .. => c' ≠ c | .tile c' .. => c' ≠ c
  let m := coreNums.foldl (fun m g =>
    if (m.core g).tcache.isEmpty then m else m.onCore g fun k => { k with tcache := k.tcache.filter keep }) m
  cacheUnits.foldl (fun m p => m.onCache (holderOf p.1 p.2) fun l => l.filter keep) m

/-! ## The arbiter -/

/-- The place of a hop's request among those that an owner accepts in one clock: own die first, then dies, slots, the
increments of an ITGO (hop 0 here) before the hops, entries, shards (R262). -/
def hopRank (own d s : Fin 4) (hop ent sh : Nat) : Nat :=
  ((((if d = own then 0 else d.val + 1) * 4 + s.val) * 4 + hop) * 2 ^ 20 + ent) * 2 ^ 17 + sh

/-- The place of an OBJPLACE or OBJPIN of core g: after every hop's request (R262). -/
def objRank (g : Fin 256) : Nat := 2 ^ 45 + g.val

/-- The owner's Belfry accepts a request of rank k now: none of a later rank came before it in this clock (R262). -/
def Mach.arbiter (m : Mach) (own : Fin 4) (k : Nat) : Bool :=
  match (m.die own).belfry.last with
  | some (t, r) => t ≠ (m.die own).cycle || r ≤ k
  | none => true

/-- The request accepted. -/
def Mach.accepts (m : Mach) (own : Fin 4) (k : Nat) : Mach :=
  let now := (m.die own).cycle
  m.onBelfry own fun b => { b with last := some (now, k) }

/-- A waiting fill request stands: its hop still makes it (R260). -/
def Mach.fillLive (m : Mach) (w : FillWait) : Bool :=
  let s := (m.die w.die).belfry.slots[w.slot.val]
  s.running && s.ctx = w.ctx && (s.hops[w.hop.val]).stop.isNone

/-- A fill request of a hop comes in its turn: the waiting fills of a copy proceed in the order of acceptance (R260). -/
def Mach.fillTurn (m : Mach) (own : Fin 4) (w : FillWait) : Bool :=
  match (m.die own).belfry.fills.find? fun x => x.ctx = w.ctx && x.obj = w.obj && x.tier = w.tier && m.fillLive x with
  | some x => x = w
  | none => true

/-- Step 6 of a kill: Belfry's copies, and every translation cache of the package drops the context (R194, R266). -/
def Mach.killStep6 (m : Mach) (c : Fin 64) : Mach :=
  (dieNums.foldl (fun m d => m.dropCopies c d) m).dropCached c

end Sys2Proof.Machine
end

