-- ==== Sys2Proof/Machine/Records.lean ====
section
/-!
DEFINITION. Continuation records and the dispatcher's choices: R41's layout, effective priorities, aging, the
scan that places records or lets them claim cores, and pre-emption requests (spec/02_execution.md R41, R42;
spec/01_organisation.md R30, R39; spec/08_scheduling.md R221 to R226, R231).
-/
namespace Sys2Proof.Machine

/-! ## The layout of a record -/

/-- A record image breaks R42's checks: a reserved bit, FRAME[5:0] or DSTATE set. -/
def recBad (ws : List Word) : Bool :=
  wf (blkW ws 1) 0 6 ≠ 0 || wf (blkW ws 2) 10 54 ≠ 0 || wf (blkW ws 3) 32 32 ≠ 0

/-- GANG and CTX of a record image (R41). -/
def recGang (ws : List Word) : BitVec 2 := (blkW ws 2).extractLsb' 2 2
def recCtx (ws : List Word) : Fin 64 := toCtx (wf (blkW ws 2) 4 6)

/-- The record that an image names, held in state `st` at address `a` (R41, R221). -/
def mkRec (m : Mach) (a : Option (BitVec 48)) (ws : List Word) (c : Fin 64) (node : Option Nat) : Rec where
  id := m.nextId
  addr := a
  entry := (blkW ws 0).extractLsb' 0 22
  text := (blkW ws 0).extractLsb' 22 42
  frame := (blkW ws 1).extractLsb' 0 48
  join := (blkW ws 1).extractLsb' 48 16
  pri := (blkW ws 2).extractLsb' 0 2
  gang := recGang ws
  ctx := c
  taskid := (blkW ws 3).extractLsb' 0 32
  state := if wf (blkW ws 1) 48 16 = 0 then .ready else .waiting
  apri := wf (blkW ws 2) 0 2
  epri := wf (blkW ws 2) 0 2
  credit := 0
  count := 0
  cores := []
  node := node
  reason := 0
  order := m.nextId
  tseq := none
  past := none
  passOver := false
  forRec := none
  priv := []

/-- A record enters the queue of a die (R221). -/
def Mach.addRec (m : Mach) (d : Fin 4) (r : Rec) : Mach :=
  (({ m with nextId := m.nextId + 1 }).onDie d fun x => { x with recs := x.recs ++ [r] }).writeRec r

/-! ## Gangs and clusters -/

/-- Members of a gang code (R41). -/
def gangSize (g : BitVec 2) : Nat := 2 ^ g.toNat

/-- The present cores of cluster k of die d, ascending. -/
def Mach.clusterCores (m : Mach) (d : Fin 4) (k : Nat) : List (Fin 256) :=
  ((List.range 8).map fun j => toCore (64 * d.val + 8 * k + j)).filter fun g => m.present g

/-- A gang that no cluster of the die can ever hold (R39). -/
def Mach.unplaceable (m : Mach) (d : Fin 4) (g : BitVec 2) : Bool :=
  (List.range 8).all fun k => (m.clusterCores d k).length < gangSize g

/-- A core that runs nothing and may take a task (R42). -/
def Mach.idle (m : Mach) (g : Fin 256) : Bool := m.present g && (m.core g).task.isNone

/-! ## Effective priority and aging -/

/-- One round of donation: every record of context c takes the least of its APRI and the EPRI of its waiting
successors. It reaches the other dies at once: R223 states no bound on the delay, and this is the model's choice (R223; log
entry 118). -/
def Mach.donate (m : Mach) (c : Fin 64) : Mach :=
  let nodes := (m.ctx c).nodes
  let prio (k : Nat) : Option Nat :=
    (nodes[k]?).bind fun n => (m.getRec n.die n.recId).bind fun r => if r.state = .waiting then some r.epri else none
  let eff (r : Rec) : Nat :=
    match r.node with
    | none => r.apri
    | some k => ((((nodes[k]?).map (·.succs)).getD []).filterMap prio).foldl min r.apri
  { m with dies := each m.dies fun (x : Die) =>
      { x with recs := x.recs.map fun (r : Rec) => if r.ctx = c then { r with epri := eff r } else r } }

/-- Rounds of donation, enough for the longest path of the graph (R223). -/
def Mach.donateN (m : Mach) (c : Fin 64) : Nat → Mach
  | 0 => m
  | n + 1 => (m.donate c).donateN c n

/-- EPRI recomputed for a context, and the records written back (R221, R223). -/
def Mach.refresh (m : Mach) (c : Fin 64) : Mach :=
  let m := m.donateN c ((m.ctx c).nodes.length + 1)
  (m.recsOf c).foldl (fun m r => m.writeRec r.2) m

/-- The state of record k of die d changes (R221). -/
def Mach.setState (m : Mach) (d : Fin 4) (k : Nat) (st : RState) : Mach :=
  match m.getRec d k with
  | none => m
  | some r => (m.onRec d k fun r => { r with state := st }).refresh r.ctx

/-- A record that ages: ready, or saved and placeable (R222, R224). A trap's save is placeable once TRES has
resumed it, which sets its reason to 5. -/
def Rec.placeable (r : Rec) : Bool := r.state = .ready || (r.state = .saved && r.reason ≠ 3)

/-- One placement passed a record by. A move puts the record at the end of its part also where donation keeps its EPRI where it
was; that is not stated and is the model's choice (R222, R223; log entry 117). -/
def Rec.age (r : Rec) (fresh : Nat) : Rec :=
  if r.count + 1 < 4096 then { r with count := r.count + 1 }
  else if r.credit + 1 < 8 then { r with count := 0, credit := r.credit + 1 }
  else { r with count := 0, credit := 0, apri := r.apri - 1, epri := if r.epri = r.apri then r.apri - 1 else r.epri,
                order := if r.apri = 0 then r.order else fresh }

/-! ## The scan -/

/-- The front part of a level holds saves by pre-emption, by a forced save, and by traps resumed (R224). -/
def Rec.front (r : Rec) : Bool := r.state = .saved && r.reason ≠ 2

/-- Scan order: EPRI, then front before back, then the order within the part (R224). -/
def Rec.before (a b : Rec) : Bool :=
  a.epri < b.epri ||
  (a.epri = b.epri && ((a.front && !b.front) || (a.front = b.front && a.order < b.order)))

/-- A record put into its place in a list in scan order. -/
def insertRec (r : Rec) : List Rec → List Rec
  | [] => [r]
  | x :: xs => if r.before x then r :: x :: xs else x :: insertRec r xs

/-- The records of a die that a scan considers, in scan order; none of a suspended context (R224, R467). -/
def Mach.scanList (m : Mach) (d : Fin 4) : List Rec :=
  (((m.die d).recs.filter fun r => r.placeable && !r.passOver && !(m.ctx r.ctx).susp)).foldl
    (fun l r => insertRec r l) []

/-- The cores a record fits on, of those that are idle and unclaimed (R213, R224). -/
def Mach.fits (m : Mach) (d : Fin 4) (r : Rec) (claimed : List (Fin 256)) : Option (List (Fin 256)) :=
  let free (g : Fin 256) : Bool := m.idle g && !(claimed.contains g)
  if r.state = .saved then (if r.cores.all free then some r.cores else none)
  else
    ((List.range 8).map fun k => (m.clusterCores d k).filter fun g => free g && !m.keptFor r.ctx g).findSome? fun l =>
      if gangSize r.gang ≤ l.length then some (l.take (gangSize r.gang)) else none

/-- The cluster of a die with the most idle present cores, the lowest on a tie (R224). -/
def Mach.idlest (m : Mach) (d : Fin 4) : Nat :=
  let n (k : Nat) : Nat := ((m.clusterCores d k).filter fun g => m.idle g).length
  (List.range 8).foldl (fun b k => if n b < n k then k else b) 0

/-- The cores under request for record k of die d, or saved under one and not yet given to it (R225). -/
def Mach.promised (m : Mach) (d : Fin 4) (k : Nat) : List (Fin 256) :=
  ((m.die d).recs.filter fun r => r.forRec = some k).flatMap (·.cores)

/-- The cores that a record which does not fit claims (R224, R225). -/
def Mach.claims (m : Mach) (d : Fin 4) (r : Rec) : List (Fin 256) :=
  (if r.state = .saved then r.cores else m.clusterCores d (m.idlest d)) ++ m.promised d r.id

/-- The task that a record gives a core, before its start or restore (R43). -/
def taskOf (r : Rec) (rank : Nat) (cores : List (Fin 256)) : CoreTask where
  recId := r.id
  ctx := r.ctx
  rank := Fin.ofNat 8 rank
  gang := r.gang
  taskid := r.taskid
  frame := r.frame
  text := r.text
  entry := r.entry
  nparcel := 0
  mapaddr := 0
  mapcount := 0
  members := cores
  running := false

/-- Each core of a list with its place in it. -/
def ranked (l : List (Fin 256)) : List (Fin 256 × Nat) := l.zip (List.range l.length)

/-- A record is placed on cores: it is running, no core is promised to it any more, and every other placeable
record of the die ages (R222, R224). The start or the restore itself is TASK_START or TASK_RESUME. -/
def Mach.place (m : Mach) (d : Fin 4) (r : Rec) (cores : List (Fin 256)) : Mach :=
  let m := (ranked cores).foldl (fun m p => m.onCore p.1 fun c => { c with task := some (taskOf r p.2 cores), halt := none }) m
  let fresh := m.nextId
  let m := ({ m with nextId := fresh + 1 }).onDie d fun x =>
    { x with recs := x.recs.map fun (q : Rec) =>
        if q.id = r.id then { q with cores := cores, forRec := none }
        else
          let q := if q.forRec = some r.id then { q with forRec := none } else q
          if q.placeable then q.age fresh else q }
  m.setState d r.id .running

/-- The scan over a list of records: each that fits is placed, each that does not claims cores; the ready ones
that did not fit come out in scan order (R224). -/
def Mach.scanGo (m : Mach) (d : Fin 4) : List Rec → List (Fin 256) → List Rec → Mach × List Rec
  | [], _, missed => (m, missed.reverse)
  | r :: rs, claimed, missed =>
    match m.fits d r claimed with
    | some cores => Mach.scanGo (m.place d r cores) d rs claimed missed
    | none => Mach.scanGo m d rs (claimed ++ m.claims d r) (if r.state = .ready then r :: missed else missed)

/-- Running records of die d that record x may pre-empt: of greater EPRI, under no request (R225). -/
def Mach.victims (m : Mach) (d : Fin 4) (x : Rec) (k : Nat) : List Rec :=
  (m.die d).recs.filter fun r =>
    r.state = .running && x.epri < r.epri && r.forRec.isNone &&
    r.cores.all (fun g => !(m.core g).req && clusterOf g = k)

/-- Largest EPRI first, then highest core number (R225). -/
def insertVictim (r : Rec) : List Rec → List Rec
  | [] => [r]
  | x :: xs =>
    let top (q : Rec) : Nat := (q.cores.map (·.val)).foldl max 0
    if x.epri < r.epri || (x.epri = r.epri && top x < top r) then r :: x :: xs else x :: insertVictim r xs

/-- A pre-emption request to the task on a core reaches every member (R225, R226). -/
def Mach.request (m : Mach) (cores : List (Fin 256)) : Mach :=
  cores.foldl (fun m g => m.onCore g fun c => { c with req := true }) m

/-- Victims taken one at a time until `have` cores reach `need` (R225). -/
def Mach.takeVictims (m : Mach) (d : Fin 4) (x : Rec) (need : Nat) : List Rec → Nat → Mach
  | [], _ => m
  | v :: vs, have' =>
    if need ≤ have' then m
    else
      let m := (m.onDie d fun y =>
        { y with recs := y.recs.map fun (q : Rec) => if q.id = v.id then { q with forRec := some x.id } else q }).request v.cores
      m.takeVictims d x need vs (have' + v.cores.length)

/-- Cores of cluster k whose running task is under a request for record x (R225). -/
def Mach.under (m : Mach) (d : Fin 4) (x : Rec) (k : Nat) : Nat :=
  ((((m.die d).recs.filter fun r => r.state = .running && r.forRec = some x.id).flatMap (·.cores)).filter
    fun g => clusterOf g = k).length

/-- The requests for one ready record that does not fit; none while the cores already under request for it suffice in their
cluster (R225). -/
def Mach.demand (m : Mach) (d : Fin 4) (x : Rec) : Mach :=
  let need := gangSize x.gang
  let under := m.under d x
  let idle (k : Nat) : Nat := ((m.clusterCores d k).filter fun g => m.idle g).length
  let cand (k : Nat) : Nat := ((m.victims d x k).map fun r => r.cores.length).sum
  let enough (k : Nat) : Bool := (m.promised d x.id).any (fun g => clusterOf g = k) && need ≤ idle k + under k
  match (List.range 8).find? fun k => need ≤ idle k + under k + cand k with
  | none => m
  | some k =>
    if (List.range 8).any enough then m
    else m.takeVictims d x need ((m.victims d x k).foldl (fun l r => insertVictim r l) []) (idle k + under k)

/-- The dispatcher's scan of a die (R224, R225). A record passed over is considered again from the next scan on. -/
def Mach.scan (m : Mach) (d : Fin 4) : Mach :=
  let r := m.scanGo d (m.scanList d) [] []
  let m := r.2.foldl (fun m x => m.demand d x) r.1
  m.onDie d fun x => { x with recs := x.recs.map fun (q : Rec) => { q with passOver := false } }

/-- A running task of die d as a swap would leave it: its cores idle, its record saved by a yield (R231). -/
def Mach.vacate (d : Fin 4) (m : Mach) (r : Rec) : Mach :=
  let m := r.cores.foldl (fun m g => m.onCore g fun c => { c with task := none }) m
  ({ m with nextId := m.nextId + 1 }).onDie d fun x =>
    { x with recs := x.recs.map fun (q : Rec) =>
        if q.id = r.id then { q with state := .saved, reason := 2, order := m.nextId } else q }

/-- An engine has waited SPIN clocks in BWAIT, RNGWF, RNGWE or at a held access (R231). -/
def Mach.spun (m : Mach) (g : Fin 256) (x : EngState) : Bool :=
  match (m.core g).task, x.wait with
  | some t, some w =>
    (match w.on with | .bar .. | .ring .. | .arrival .. | .held .. => true | .lantern | .spawn => false) &&
    (m.ctx t.ctx).spin.toNat ≤ (m.clock g - w.since).toNat
  | _, _ => false

/-- The yieldable tasks of die d whose EPRI is numerically at least e: one of their members still waits (R231, R233). -/
def Mach.yieldables (m : Mach) (d : Fin 4) (e : Nat) : List Rec :=
  (m.die d).recs.filter fun r => r.state = .running && e ≤ r.epri && r.cores.all (fun g => (m.core g).halt.isNone) &&
    r.cores.any fun g => (m.core g).yieldable && (m.core g).eng.toList.any (m.spun g)

/-- The cores on which the scan would place record x of die d if the tasks `ts` had been saved (R224, R231). -/
def Mach.wouldTake (m : Mach) (d : Fin 4) (ts : List Rec) (x : Rec) : List (Fin 256) :=
  let m := ts.foldl (Mach.vacate d) m
  match (m.scanGo d (m.scanList d) [] []).1.getRec d x.id with
  | some y => if y.state = .running then y.cores else []
  | none => []

/-- The tasks that are swapped out together so that the next scan places record x on a core of t's: t alone where that is
enough, else t with the yieldable tasks of x's priority or lower whose cores x takes besides (R231, R233; log entry 86). -/
def Mach.swapFor (m : Mach) (d : Fin 4) (t x : Rec) : Option (List Rec) :=
  let hits (l : List (Fin 256)) : Bool := l.any fun g => t.cores.contains g
  if hits (m.wouldTake d [t] x) then some [t]
  else
    let ys := (m.yieldables d x.epri).filter fun r => r.id ≠ t.id
    let cs := m.wouldTake d (t :: ys) x
    let s := t :: ys.filter fun r => r.cores.any fun g => cs.contains g
    if hits cs && hits (m.wouldTake d s x) then some s else none

/-- The tasks of die d that have stopped to be swapped out and are not saved yet (R231, R467). -/
def Mach.leaving (m : Mach) (d : Fin 4) : List Rec :=
  (m.die d).recs.filter fun r =>
    r.state = .running && r.cores.any fun g => (m.core g).halt = some .swap || (m.core g).halt = some .yield

/-- Die d as the swaps under way and the scan after them will leave it: a record that they serve needs no further task
(R224, R231; log entry 86). -/
def Mach.afterSwaps (m : Mach) (d : Fin 4) : Mach :=
  match m.leaving d with
  | [] => m
  | ts =>
    let m := ts.foldl (Mach.vacate d) m
    (m.scanGo d (m.scanList d) [] []).1

/-- The first record in scan order, of t's priority or higher, for which the task with record t may be swapped out, and what
is swapped out for it (R213, R224, R231, R233, R467; log entry 86). -/
def Mach.qualifies (m : Mach) (d : Fin 4) (t : Rec) : Option (Rec × List Rec) :=
  (m.scanList d).findSome? fun x => if x.epri ≤ t.epri then (m.swapFor d t x).map fun s => (x, s) else none

/-- What may be swapped out with the task on core g, and for which record (R231, R467). -/
def Mach.swappable (m : Mach) (g : Fin 256) : Option (Rec × List Rec) :=
  ((m.core g).task.bind fun t => m.getRec (dieOf g) t.recId).bind (m.qualifies (dieOf g))

/-- The tasks `p.2` of core g's die stop to be saved for record `p.1`, to which their cores are promised: that of core g
for reason h (R231, R467). -/
def Mach.swapOut (m : Mach) (g : Fin 256) (h : Halt) (p : Rec × List Rec) : Mach :=
  let m := m.onDie (dieOf g) fun x =>
    { x with recs := x.recs.map fun (q : Rec) => if p.2.any (fun r => r.id = q.id) then { q with forRec := some p.1.id } else q }
  p.2.foldl (fun m r => m.haltTask (r.cores.headD g) (if r.cores.contains g then h else .swap)) m

/-- The record of the task on a core. -/
def Mach.taskRec (m : Mach) (g : Fin 256) : Option Rec :=
  (m.core g).task.bind fun t => m.getRec (dieOf g) t.recId

/-- The die and record that a dispatcher holds for a device address (R221). -/
def Mach.findRec (m : Mach) (a : BitVec 48) : Option (Fin 4 × Rec) :=
  dieNums.findSome? fun d => ((m.die d).recs.find? fun r => r.addr = some a).map fun r => (d, r)

/-- A JOIN decrement of record k of die d (R218, R433): at zero the record is ready; a decrement of a zero JOIN, or
of a record that is not waiting, counts as stray. -/
def Mach.decJoin (m : Mach) (c : Fin 64) (d : Fin 4) (k : Nat) : Mach :=
  match m.getRec d k with
  | none => m.stray c
  | some r =>
    if r.state ≠ .waiting || r.join = 0 then m.stray c
    else if r.join = 1 then
      let fresh := m.nextId
      ((({ m with nextId := fresh + 1 }).onRec d k fun r => { r with join := 0, order := fresh }).setState d k .ready).scan d
    else m.onRec d k fun r => { r with join := r.join - 1 }

end Sys2Proof.Machine
end

