-- ==== Sys2Proof/Machine/Walk.lean ====
section
/-!
DEFINITION. One move of an engine along its text, and which operation a unit acts on: fetching, skipping, the
slip window, safe points and the end of the text (spec/02_execution.md R45 to R53, R73; spec/03_encoding.md R95,
R120; spec/06_copy_engines.md R171).
-/
namespace Sys2Proof.Machine

/-- The device address of parcel p of a text (R41). -/
def parcelAddr (t : CoreTask) (p : Nat) : Nat := t.text.toNat * 64 + 6 * p

/-- The bytes of parcels p and p + 1 of the text of the task on a core, as its context reads them. -/
def Mach.fetch (m : Mach) (t : CoreTask) (p : Nat) : List Byte := m.devRead (m.sec t.ctx) (parcelAddr t p) 12

/-- Which engines execute a parcel besides the engine that ENG names (R46); SC's share of an AS parcel is the
posting of its operands and the command-queue entry (R48, R172). -/
def shares (i : Instr) (e : Engine) : Bool :=
  match i with
  | .br .. | .jmp .. | .jmpR .. | .jmpL .. | .call .. | .callR .. | .callL .. | .ret .. | .loop .. | .loopR .. => true
  | .tend .. | .fenceAcq .. | .fenceRel .. | .fence .. | .quies .. | .yield .. => true
  | .mark .. => e = .ld || e = .st
  | .apat .. => e = .ld || e = .st || e = .mx
  | .setsr _ _ n =>
    if n = 0x011 || n = 0x012 then e = .vx || e = .mx else if n = 0x013 then e = .asy else false
  | .vatomAdd .. | .vatomMin .. | .vatomMax .. | .vatomAnd .. | .vatomOr .. | .vatomXor .. => e = .vx || e = .sc
  | _ => owner i = some .asy && e = .sc

/-- The live mask's reserved bits are zero (R120, R121). -/
def liveOk (w : Word) : Bool := wf w 9 7 = 0 && wf w 24 8 = 0 && wf w 48 16 = 0

/-- Entries of the pre-emption map from index i on, with the PADDR before it, while they are in effect: the live
mask of the entry for parcel p. They are read when they are looked for, so that a map rewritten during the task is the map at
once: when the entries are read is not stated, and this is the model's choice (R119, R120; log entry 110). -/
def mapFind (m : Mach) (sec : Bool) (base np p : Nat) : Nat → Nat → Option Nat → Option Word
  | 0, _, _ => none
  | n + 1, i, prev =>
    let a := m.devW sec (base + 16 * i)
    let l := m.devW sec (base + 16 * i + 8)
    let q := wf a 0 22
    if wf a 22 42 = 0 && liveOk l && q < np && (match prev with | some x => decide (x < q) | none => true) then
      if q = p then some l else mapFind m sec base np p n (i + 1) (some q)
    else none

/-- The live mask of a safe point at parcel p of the task, if the map in effect lists it (R120). -/
def Mach.safeAt (m : Mach) (t : CoreTask) (p : Nat) : Option Word :=
  mapFind m (m.sec t.ctx) t.mapaddr.toNat t.nparcel.toNat p t.mapcount.toNat 0 none

/-- SC of core g, under a request, reads the pre-emption map, at each of its moves (R73, R120, R365, R366; log entry 110). -/
def Mach.noteMap (m : Mach) (g : Fin 256) : Mach :=
  match (m.core g).task with
  | some t => if (m.core g).req then m.noteReads t.ctx [(t.mapaddr.toNat, 16 * t.mapcount.toNat)] else m
  | none => m

/-- How far SC's walk count lies above the smallest of the other five engines (R52). -/
def Core.slip (c : Core) : Nat :=
  ([Engine.ld, .st, .vx, .mx, .asy].map fun e => ((c.e .sc).walk - (c.e e).walk).toNat).foldl max 0

/-- Every engine stands at the end of the text (R95). -/
def Core.allAtEnd (c : Core) (n : PAddr) : Bool := c.eng.toList.all fun x => n.toNat ≤ x.pc.toNat

/-- The engines of a list have reached the parcel before the walk count of a hold. -/
def Core.gathered (c : Core) (h : Hold) (es : List Engine) : Bool :=
  es.all fun e => (c.e e).walk = h.walk - 1 || (c.e e).walk = h.walk

/-- A hold of SC is over: the engines it waits for have reached the parcel, and every earlier access that a MARK, or a
FENCE or FENCE.ACQ within its scope, waits for is performed; a FENCE.REL holds back later writes only; or AS has passed a
QUIES; a YIELD is ended by the dispatcher (R202 to R204, R415, R467). -/
def Core.holdOver (c : Core) (g : Fin 256) (h : Hold) : Bool :=
  match h.kind with
  | .acq => c.gathered h [.ld, .st, .vx, .mx, .asy] && c.readsIn g h.scope
  | .rel => c.gathered h [.ld, .st, .vx, .mx, .asy]
  | .fence => c.gathered h [.ld, .st, .vx, .mx, .asy] && c.quietIn g h.scope
  | .mark => c.gathered h [.ld, .st] && c.pend.isNone
  | .quies => h.walk - (c.e .asy).walk = 0
  | .yield => false

/-- What a move of an engine comes to. -/
inductive WalkAct where
  /-- The engine waits, stands, or has no task. -/
  | stay
  /-- It pushes the token it owes (R59). -/
  | pay
  /-- SC's hold is over (R204). -/
  | release
  /-- SC traps: every engine stands at NPARCEL (R95). -/
  | endOfText
  /-- The parcel is no instruction for the engine that must execute it (R93). -/
  | illegal (info : Word)
  /-- The engine steps over the parcel (R45). -/
  | skip (len : Nat)
  /-- The engine executes the instruction, or its share of it. -/
  | run (i : Instr)
  deriving DecidableEq, Repr

/-- Waits that their port ends; the engine does not present the parcel again (R164, R213). -/
def portWait (x : EngState) : Bool :=
  match x.wait with
  | some w => (match w.on with | .ring .. | .arrival .. => true | _ => false)
  | none => false

/-- The frame of a parcel's bytes is not present (R51). -/
def Mach.noText (m : Mach) (t : CoreTask) (p : Nat) : Bool :=
  !m.named (parcelAddr t p) || !m.named (parcelAddr t p + 5)

/-- The parcel at an engine's program counter: run, step over, or trap (R45, R93, R95); the engine waits while a frame of
it is not present (R51). What does not decode is stepped over by every engine that ENG does not name: SC posts nothing for
such an AS-tagged parcel and takes no command-queue entry for it (log entry 89). -/
def readParcel (m : Mach) (t : CoreTask) (x : EngState) (e : Engine) : WalkAct :=
  if m.noText t x.pc.toNat then .stay
  else
  let bs := m.fetch t x.pc.toNat
  let p := leVal (bs.take 6)
  let len := if bit p 47 then 2 else 1
  let eng := fld p 44 3
  let mine := eng = (engIx e).val
  if len = 2 && x.pc.toNat + 1 < t.nparcel.toNat && m.noText t (x.pc.toNat + 1) then .stay
  else if 6 ≤ eng then (if e = .sc then .illegal (BitVec.ofNat 64 p) else .skip len)
  else if len = 2 && x.pc.toNat + 1 = t.nparcel.toNat then (if mine then .illegal (BitVec.ofNat 64 p) else .skip 1)
  else if mine || eng = 0 || (eng = 5 && (e = .sc || e = .vx)) then
    match decodeBytes bs with
    | .error _ => if mine then .illegal (BitVec.ofNat 64 p) else .skip len
    | .ok (i, _) => if mine || shares i e then .run i else .skip len
  else .skip len

/-- Parcels the act completes, for the slip window (R52). -/
def actLen : WalkAct → Nat
  | .skip n => n
  | .run i => parcels i
  | _ => 0

/-- The engine has presented a request to another core's port, which keeps it (R213). -/
def EngState.presented (x : EngState) : Bool :=
  match x.wait with
  | some w => (match w.on with | .held _ | .arrival _ => true | _ => false)
  | none => false

/-- What a move of engine e of core g comes to. A repetition that has issued goes on to its end (R72). Requests that the
core's port has kept for the task's context are served before its engines' own (R149). No engine passes SC (R47), SC stays
inside the slip window (R52) and, under a pre-emption request, goes no further than the next safe point it reaches, where
SAFE_POINT_STOP stops the core (R73). -/
def walkAct (m : Mach) (g : Fin 256) (e : Engine) : WalkAct :=
  let c := m.core g
  match c.task with
  | none => .stay
  | some t =>
    let x := c.e e
    if t.running && x.job.isSome then readParcel m t x e
    else if !t.running || c.halt.isSome then .stay
    else if !(m.queued g t.ctx).isEmpty && !x.presented then .stay
    else if x.owed.isSome then .pay
    else if x.ended || portWait x then .stay
    else if e = .sc then
      match c.hold with
      | some h => if c.holdOver g h && (h.sig.isNone || c.pend.isNone) then .release else .stay
      | none =>
        if t.nparcel.toNat ≤ x.pc.toNat then (if c.allAtEnd t.nparcel then .endOfText else .stay)
        else if c.safe.isSome then .stay
        else if c.req && (m.safeAt t x.pc.toNat).isSome then .stay
        else
          let a := readParcel m t x e
          if c.slipw.toNat < c.slip + actLen a then .stay else a
    else if t.nparcel.toNat ≤ x.pc.toNat then .stay
    else if x.walk = (c.e .sc).walk then .stay
    else readParcel m t x e

/-- The engine presents requests to its own core's port as it executes the instruction: SC with TSPAWN's block, its scalar
accesses being presented apart (R149, R199). -/
def usesPort (i : Instr) (e : Engine) : Bool :=
  match e with
  | .vx => false
  | .sc => (match i with | .tspawn .. => true | _ => false)
  | _ => owner i = some e

/-- The core's own port accepts what the engine presents for the instruction, in its turn (R149). -/
def Mach.noteTurn (m : Mach) (g : Fin 256) (e : Engine) (i : Instr) : Mach :=
  if usesPort i e then m.noteReq g (.eng g e) else m

/-- The operand values of the AS parcel at the head of AS's outcome FIFO: Sa in [63:0], Sb in [127:64] (R48, R84). -/
def Core.opSa (c : Core) : Word := ((c.outHead .asy).getD 0).extractLsb' 0 64
def Core.opSb (c : Core) : Word := ((c.outHead .asy).getD 0).extractLsb' 64 64

/-- The operation of a parcel that holds several: RGTAKE's by OPR in word 0x00 [0] of its block, SMTAB's by
OPR in [19:16] (R332, R421; log entry 15). Every other instruction is itself. -/
def resolve (m : Mach) (g : Fin 256) (e : Engine) (i : Instr) : Instr :=
  if e ≠ .asy then i
  else
    let c := m.core g
    let w := Memory.readW c.spad c.opSa.toNat
    match i with
    | .rgtakeTake t sa => if wb w 0 then .rgtakeRelease t sa else i
    | .clrslow t sa =>
      (match wf w 16 4 with
       | 1 => .addcnt t sa | 2 => .clrcnt t sa | 3 => .armv t sa | 4 => .setstep t sa | _ => i)
    | _ => i

/-- No port keeps a request of the operation (R149, R213). -/
def Mach.canMove (m : Mach) (o : Op) : Bool := !m.stuck o.ctx (.op o.id)

/-- The completion of an operation that has been applied whole can move on: no port keeps its report or its arrival (R174,
R213). -/
def Mach.canFinish (m : Mach) (o : Op) : Bool := o.fin && m.canMove o

/-- An operation that the gatherer applies past a push that waits (R268). -/
def isTake (o : Op) : Bool := match o.instr with | .rgtakeTake .. | .rgtakeRelease .. => true | _ => false

/-- The bucket at which a push stands (R268, R269, R420). -/
def pushBucket (o : Op) : Nat :=
  let i := o.idx / 8
  let w := o.blk.getD 0 0
  if wf w 0 13 ≠ 0 then ((o.handles[i]?).map (·.1)).getD 0 else if wb w 16 then i else wf w 18 10

/-- A push waits in R268's loop: for room in the descriptor queue, or for the release of its bucket's other buffer. `idx`
holds the phase of the push, 3 at Post, 5 before the switch of buffers (R268, R270). -/
def Mach.pushHeld (m : Mach) (o : Op) : Bool :=
  let g := (m.die o.die).gat
  let b := pushBucket o
  (o.idx % 8 = 3 && 256 ≤ g.dq.length) || (o.idx % 8 = 5 && g.held.contains (b, !g.fill[(Fin.ofNat 1024 b).val]))

/-- The gatherer applies a push whole before a later take; but while the push waits, in its loop, on a tile or at a port, it
applies takes (R268, R421). -/
def Mach.pushWaits (m : Mach) (o : Op) : Bool := o.stop.isSome || m.pushHeld o || !m.canMove o

/-- The place of a row in its slot's acceptance order: that of the SMRUN that gave it, if one did (R318, R334). -/
def Row.place (r : Row) : Nat := r.op.getD r.acc

/-- A row that Cupola accepted for a command's slot before the command is still to run (R316, R334). -/
def Mach.rowsBefore (m : Mach) (o : Op) : Bool :=
  (m.die o.die).cup.accepted.any fun (r : Row) => r.slot.toNat = wf (o.blk.getD 0 0) 0 16 && r.place < o.id

/-- SMBIND, which answers BUSY while a row of its slot is still to run (R316). -/
def isBind (o : Op) : Bool := match o.instr with | .smbind .. => true | _ => false

/-- A command of Cupola is next among what its slot has accepted: no command of the slot accepted before it is still to be
applied, and but for an SMBIND no row is still to run (R316, R334). -/
def Mach.cupNext (m : Mach) (o : Op) : Bool :=
  !(m.ops.any fun q => q.die = o.die && q.unit = .cupola && !q.begun && !q.fin && q.id < o.id &&
    wf (q.blk.getD 0 0) 0 16 = wf (o.blk.getD 0 0) 0 16) && (isBind o || !m.rowsBefore o)

/-- An operation of Campanile is next among its core's: each that the core issued before it has been applied whole, on every
die (R311, R376). -/
def Mach.campNext (m : Mach) (o : Op) : Bool :=
  !(m.ops.any fun q => q.die = o.die && q.unit = .campanile && q.core = o.core && q.id < o.id && !q.fin)

/-- A BTAPP whose list the other dies have checked, so that its own die can go on with it (R304, R311). -/
def listChecked (o : Op) : Bool := o.begun && !o.sdesc.isEmpty && o.idx ≤ o.elems.length

/-- Lantern of a die stands between two steps (R344). -/
def Mach.lanBetween (m : Mach) (d : Fin 4) : Bool :=
  match (m.die d).lan.run with | some r => r.idx = 0 && !r.got && r.done = 0 | none => true

/-- The operation of a unit that it acts on: one whose completion can move on, else the oldest that is not applied
whole. Campanile turns to the next once it has begun one, each core's in order, Cupola takes each slot's in order, Lantern
takes a snapshot between two steps, and the gatherer applies an RGTAKE past a push that waits (R268, R311, R334, R344). -/
def Mach.unitOp (m : Mach) (d : Fin 4) (u : UnitKind) : Option Op :=
  let mine := m.ops.filter fun o => o.die = d && o.unit = u
  let todo := mine.filter fun o => !o.fin
  (mine.find? m.canFinish).or
    (match u with
     | .campanile => todo.find? fun o => listChecked o || (!o.begun && m.campNext o && m.canMove o)
     | .lantern => if m.lanBetween d then todo.head? else none
     | .cupola => todo.find? fun o => !o.begun && m.cupNext o
     | .gatherer =>
       (match todo with
        | [] => none
        | o :: rest => if m.pushWaits o then (rest.find? isTake).or (some o) else some o)
     | _ => todo.head?)

/-- The instruction a unit runs next: Lantern's running step where no LNSTAT waits, else its oldest operation. A
copy engine applies the next element of its oldest command that is neither stopped nor held at a port, or completes it. -/
def Mach.unitInstr (m : Mach) (d : Fin 4) (u : UnitKind) : Option Instr :=
  match u with
  | .copy e =>
    let l := m.ops.filter fun o => o.die = d && o.unit = .copy e
    match l.findIdx? fun o => o.stop.isNone && m.canMove o with
    | some k => if (l[k]?.map (·.fin)).getD false then some (.commandComplete d e k) else some (.copyElement d e k)
    | none => none
  | .dispatcher => none
  | _ =>
    match m.unitOp d u with
    | some o => some o.instr
    | none =>
      if u = .lantern then
        match (m.die d).lan.run with
        | some r => (decodeStep ((r.words.getD r.pc 0).toNat)).toOption
        | none => none
      else none

end Sys2Proof.Machine
end

