-- ==== Sys2Proof/Machine/ScCtl.lean ====
section
/-!
DEFINITION. SC's transfers, loops, special registers, traps, fences and the ends of a task's walk
(spec/02_execution.md R44 to R50, R69, R70; spec/07_consistency.md R202, R204; spec/15_reference_a_l.md R373, R380,
R381, R385, R388, R389, R395, R397; spec/16_reference_m_u.md R415, R417, R426, R432, R434;
spec/17_reference_v_y.md R467, R468).
-/
namespace Sys2Proof.Machine

/-! ## Shared shapes -/

/-- The tokens of a parcel. -/
def tk (i : Instr) : Tok := (tokOf i).getD ⟨none, none⟩

/-- A parcel that SC executes and other engines share: each engine's part, and a step over it for those that do
not share it (R45, R46). -/
def sharedParcel (i : Instr) (sc : Fin 256 → Mach → Mach) (other : Fin 256 → Engine → Mach → Mach) (s : State) : Out :=
  ready (fun m =>
    match m.focus with
    | .engine g e => if e = .sc then sc g m else if shares i e then other g e m else m.skip g e (parcels i)
    | _ => m) s

/-- The part of an engine other than SC: WAIT and SIG act for SC only (R45). -/
def noTok : Tok := ⟨none, none⟩

/-- An engine other than SC past a shared parcel in sequence. -/
def passBy (i : Instr) (g : Fin 256) (e : Engine) (m : Mach) : Mach :=
  m.onCore g fun c => c.retire e (parcels i) noTok

/-- An engine transfers from parcel i to t: WAIT popped, SIG pushed (R49, R59). -/
def Core.transfer (c : Core) (e : Engine) (len : Nat) (k : Tok) (t : PAddr) (pops : Bool) : Core :=
  ((c.popTok e k).onE e fun x => x.jump len t pops).pushTok e k.sig

/-- The task of core g has a parcel t (R49). -/
def goodTarget (m : Mach) (g : Fin 256) (t : Int) : Bool :=
  match (m.core g).task with
  | some k => 0 ≤ t && t < k.nparcel.toNat
  | none => false

/-- The engines to which SC posts an outcome for all (R48). -/
def fiveEngines : List Engine := [.ld, .st, .vx, .mx, .asy]

/-- The target of an offset from the parcel at which engine e stands (R381, R385, R395). -/
def offTarget (m : Mach) (g : Fin 256) (e : Engine) (off : BitVec 16) : Int :=
  (((m.core g).e e).pc.toNat : Int) + off.toInt

/-- A parcel address. -/
def pad (t : Int) : PAddr := BitVec.ofInt 22 t

/-! ## Transfers -/

/-- A value that a writable special register accepts (R70). -/
def srValueOk (n : BitVec 12) (x : Word) : Bool :=
  match n.toNat with
  | 0x010 => 16 ≤ x.toNat && x.toNat ≤ 4096
  | 0x011 => x.toNat ≤ 4
  | 0x013 => x.toNat ≤ 1
  | _ => true

/-- A special register that SETSR may not write (R69). -/
def srReadOnly (n : BitVec 12) : Bool := n.toNat < 0x10 || 0x20 ≤ n.toNat

/-- The target of a transfer as SC resolves it, that of a BR if it is taken, that of a LOOP its last parcel (R381, R385,
R395, R397, R417). -/
def jumpTarget (m : Mach) (g : Fin 256) (i : Instr) : Int :=
  let c := m.core g
  match i with
  | .br _ _ _ _ off | .jmp _ off | .call _ _ off | .loop _ _ off | .loopR _ _ off => offTarget m g .sc off
  | .jmpR _ a | .ret _ a => (c.rs a).toNat
  | .callR _ _ b => (c.rs b).toNat
  | .jmpL _ t | .callL _ _ t => t.toNat
  | _ => 0

/-- The trap of a loop of n iterations on SC (R397). -/
def loopFault (m : Mach) (g : Fin 256) (t : Int) (n : Nat) : Option Cause :=
  if !goodTarget m g t || 2 ^ 32 ≤ n || (n ≠ 0 && 4 ≤ ((m.core g).e .sc).loops.length) then some .illegal else none

/-- The trap that SC's registers give a transfer, a loop or a SETSR at its parcel (R49, R69, R70, R94, R381, R397, R426). -/
def ctlFault (m : Mach) (g : Fin 256) (i : Instr) : Option Cause :=
  let c := m.core g
  let t := jumpTarget m g i
  match i with
  | .br _ k a b _ => if Cond.holds k (c.rs a) (c.rs b) && !goodTarget m g t then some .illegal else none
  | .jmp .. | .jmpR .. | .jmpL .. | .call .. | .callR .. | .callL .. | .ret .. => if goodTarget m g t then none else some .illegal
  | .loop _ n _ => loopFault m g t n.toNat
  | .loopR _ a _ => loopFault m g t (c.rs a).toNat
  | .setsr _ a n => if srReadOnly n then some .priv else if srValueOk n (c.rs a) then none else some .illegal
  | _ => none

/-- A transfer that SC resolves: the link it writes, and whether it is posted (R48, R381, R385). -/
def scJump (i : Instr) (link : Option (Fin 32)) (posted pops : Bool) (g : Fin 256) (m : Mach) : Mach :=
  issue i g .sc (fun m => ctlFault m g i)
    (fun m =>
      let t := jumpTarget m g i
      if posted && !(m.core g).outRoom fiveEngines then .wait m
      else .done (m.onCore g fun c =>
        let x := c.e .sc
        let c := if posted then c.post fiveEngines (BitVec.ofInt 128 t) else c
        let c := match link with
          | some d => c.ws d (BitVec.ofNat 64 (x.pc.toNat + parcels i))
          | none => c
        c.transfer .sc (parcels i) (tk i) (pad t) pops)) id m

/-- Another engine follows a posted transfer (R48, R49). -/
def followPosted (i : Instr) (pops : Bool) (g : Fin 256) (e : Engine) (m : Mach) : Mach :=
  m.onCore g fun c =>
    match c.outHead e with
    | none => c
    | some x => (c.popOut e).transfer e (parcels i) noTok (x.setWidth 22) pops

/-- Another engine follows a transfer whose target it computes (R49). -/
def followOff (i : Instr) (pops : Bool) (target : Mach → Fin 256 → Engine → Int) (g : Fin 256) (e : Engine) (m : Mach) : Mach :=
  m.onCore g fun c => c.transfer e (parcels i) noTok (pad (target m g e)) pops

/-- BR on SC: the outcome is posted, and a taken branch transfers (R381). -/
def brSc (i : Instr) (c : Cond) (a b : Fin 32) (g : Fin 256) (m : Mach) : Mach :=
  issue i g .sc (fun m => ctlFault m g i)
    (fun m =>
      let k := m.core g
      let taken := Cond.holds c (k.rs a) (k.rs b)
      let t := jumpTarget m g i
      if !k.outRoom fiveEngines then .wait m
      else .done (m.onCore g fun c =>
        let c := c.post fiveEngines (if taken then 1 else 0)
        if taken then c.transfer .sc 1 (tk i) (pad t) true else c.retire .sc 1 (tk i))) id m

/-- BR on another engine: it takes the posted outcome (R48, R49). -/
def brOther (off : BitVec 16) (g : Fin 256) (e : Engine) (m : Mach) : Mach :=
  m.onCore g fun c =>
    match c.outHead e with
    | none => c
    | some x =>
      if x = 1 then (c.popOut e).transfer e 1 noTok (pad (offTarget m g e off)) true
      else (c.popOut e).retire e 1 noTok

/-- BR: a conditional branch (R381). -/
def execBr (t : Tok) (c : Cond) (a b : Fin 32) (off : BitVec 16) : State → Out :=
  sharedParcel (.br t c a b off) (brSc (.br t c a b off) c a b) (brOther off)

/-- JMP: a transfer by an offset (R395). -/
def execJmp (t : Tok) (off : BitVec 16) : State → Out :=
  sharedParcel (.jmp t off) (scJump (.jmp t off) none false true)
    (followOff (.jmp t off) true fun m g e => offTarget m g e off)

/-- JMP.R: a transfer to the parcel in Sa (R395). -/
def execJmpR (t : Tok) (a : Fin 32) : State → Out :=
  sharedParcel (.jmpR t a) (scJump (.jmpR t a) none true true)
    (followPosted (.jmpR t a) true)

/-- JMP.L: a transfer to the parcel that the second parcel names (R395). -/
def execJmpL (t : Tok) (tgt : BitVec 22) : State → Out :=
  sharedParcel (.jmpL t tgt) (scJump (.jmpL t tgt) none false true)
    (followOff (.jmpL t tgt) true fun _ _ _ => tgt.toNat)

/-- CALL: a link, and a transfer by an offset (R385). -/
def execCall (t : Tok) (a : Fin 32) (off : BitVec 16) : State → Out :=
  sharedParcel (.call t a off) (scJump (.call t a off) (some a) false false)
    (followOff (.call t a off) false fun m g e => offTarget m g e off)

/-- CALL.R: a link, and a transfer to the parcel in Sb, which is read first (R385). -/
def execCallR (t : Tok) (a b : Fin 32) : State → Out :=
  sharedParcel (.callR t a b) (scJump (.callR t a b) (some a) true false)
    (followPosted (.callR t a b) false)

/-- CALL.L: a link, and a transfer to the parcel that the second parcel names (R385). -/
def execCallL (t : Tok) (a : Fin 32) (tgt : BitVec 22) : State → Out :=
  sharedParcel (.callL t a tgt) (scJump (.callL t a tgt) (some a) false false)
    (followOff (.callL t a tgt) false fun _ _ _ => tgt.toNat)

/-- RET: a transfer to the link in Sa (R417). -/
def execRet (t : Tok) (a : Fin 32) : State → Out :=
  sharedParcel (.ret t a) (scJump (.ret t a) none true false)
    (followPosted (.ret t a) false)

/-! ## Loops -/

/-- The parcel after the instruction that occupies parcel `last`, walking by the L bits from parcel p (R397). -/
def afterLast (m : Mach) (t : CoreTask) (last : Nat) : Nat → Nat → Nat
  | 0, p => p
  | n + 1, p => if t.nparcel.toNat ≤ p + 1 then p + 1 else
    let q := p + (if bit (leVal ((m.fetch t p).take 6)) 47 then 2 else 1)
    if last < q then q else afterLast m t last n q

/-- An engine opens a counted body, or steps past it where the count is zero (R50, R397). A LOOP that is itself the last
instruction of an enclosing body goes on at its own body or past it, and ends no iteration there (log entry 31). -/
def openLoop (m : Mach) (e : Engine) (k : Tok) (off : BitVec 16) (count : Nat) (c : Core) : Core :=
  let x := c.e e
  let p := x.pc.toNat
  let last := p + off.toNat
  if count = 0 then
    let q := match c.task with | some t => afterLast m t last (off.toNat + 1) (p + 1) | none => last + 1
    c.transfer e 1 k (BitVec.ofNat 22 q) false
  else
    (c.onE e fun x => { x with loops := ⟨BitVec.ofNat 22 (p + 1), BitVec.ofNat 22 last, BitVec.ofNat 32 count⟩ :: x.loops }).transfer
      e 1 k (BitVec.ofNat 22 (p + 1)) false

/-- A loop on SC (R397): its checks, the posting of a register count, the entry. -/
def loopSc (i : Instr) (off : BitVec 16) (posted : Bool) (count : Mach → Fin 256 → Nat) (g : Fin 256) (m : Mach) : Mach :=
  issue i g .sc (fun m => ctlFault m g i)
    (fun m =>
      let n := count m g
      let c := m.core g
      if posted && !c.outRoom fiveEngines then .wait m
      else .done (m.onCore g fun c =>
        let c := if posted then c.post fiveEngines (BitVec.ofNat 128 n) else c
        openLoop m .sc (tk i) off n c)) id m

/-- LOOP: a counted body, the count in the parcel (R397). -/
def execLoop (t : Tok) (n : BitVec 10) (off : BitVec 16) : State → Out :=
  sharedParcel (.loop t n off) (loopSc (.loop t n off) off false fun _ _ => n.toNat)
    (fun g e m => m.onCore g fun c => openLoop m e noTok off n.toNat c)

/-- LOOP.R: a counted body, the count in Sa and posted (R397). -/
def execLoopR (t : Tok) (a : Fin 32) (off : BitVec 16) : State → Out :=
  sharedParcel (.loopR t a off) (loopSc (.loopR t a off) off true fun m g => ((m.core g).rs a).toNat)
    (fun g e m => m.onCore g fun c =>
      match c.outHead e with
      | none => c
      | some x => openLoop m e noTok off (x.toNat % 2 ^ 32) (c.popOut e))

/-! ## Address patterns and special registers -/

/-- The place in `a` of the copy that LD, ST or MX holds. -/
def patIx : Engine → Fin 3
  | .st => 1 | .mx => 2 | _ => 0

/-- A pair of an engine's copy written (R63, R373). -/
def Core.setPat (c : Core) (e : Engine) (p : Fin 8) (even odd : Word) : Core :=
  { c with a := upd c.a (patIx e) fun f => put (put f (Fin.ofNat 16 (2 * p.val)) even) (Fin.ofNat 16 (2 * p.val + 1)) odd }

/-- APAT: SC posts the pair, and LD, ST and MX write their copies (R373). -/
def execApat (t : Tok) (a b : Fin 32) (p : Fin 8) : State → Out :=
  sharedParcel (.apat t a b p)
    (fun g => issue (.apat t a b p) g .sc noPre
      (fun m =>
        let c := m.core g
        if c.outRoom [.ld, .st, .mx] then .done (m.onCore g fun c => c.post [.ld, .st, .mx] (c.rs b ++ c.rs a))
        else .wait m)
      (retireSeq (.apat t a b p) g .sc))
    (fun g e m => m.onCore g fun c =>
      match c.outHead e with
      | none => c
      | some x => ((c.popOut e).setPat e p (x.extractLsb' 0 64) (x.extractLsb' 64 64)).retire e 1 noTok)

/-- A special register as SC reads it at this moment (R69, R389). -/
def readSr (m : Mach) (g : Fin 256) (n : BitVec 12) : Word :=
  let c := m.core g
  match c.task with
  | none => 0
  | some t =>
    match n.toNat with
    | 0x000 => t.taskid.setWidth 64
    | 0x001 => BitVec.ofNat 64 t.ctx.val
    | 0x002 => BitVec.ofNat 64 g.val
    | 0x003 => BitVec.ofNat 64 (t.rank.val + t.gang.toNat * 16)
    | 0x004 => t.frame.setWidth 64
    | 0x005 => BitVec.ofNat 64 (t.text.toNat * 64)
    | 0x010 => c.slipw.setWidth 64
    | 0x011 => (c.round[0]).setWidth 64
    | 0x012 => c.seed[0]
    | 0x013 => BitVec.ofNat 64 (c.btmcfg[0]).toNat
    | 0x020 => c.ithrot.setWidth 64
    | 0x021 => m.clock g
    | _ => 0

/-- GETSR: a special register into Sd (R389). -/
def execGetsr (t : Tok) (d : Fin 32) (n : BitVec 12) : State → Out :=
  soloParcel (.getsr t d n) .sc fun g => issue (.getsr t d n) g .sc noPre
    (fun m => .done (m.onCore g fun c => c.ws d (readSr m g n))) (retireSeq (.getsr t d n) g .sc)

/-- The readers of a writable special register besides SC (R69). -/
def srReaders (n : BitVec 12) : List Engine :=
  match n.toNat with
  | 0x011 | 0x012 => [.vx, .mx]
  | 0x013 => [.asy]
  | _ => []

/-- An engine's copy of a special register written: `round` and `seed` stand at SC 0, VX 1, MX 2, `btmcfg` at SC 0,
AS 1 (R46, R69). -/
def Core.setSr (c : Core) (e : Engine) (n : BitVec 12) (x : Word) : Core :=
  let k : Fin 3 := match e with | .vx => 1 | .mx => 2 | _ => 0
  match n.toNat with
  | 0x010 => { c with slipw := x.setWidth 13 }
  | 0x011 => { c with round := put c.round k (x.setWidth 3) }
  | 0x012 => { c with seed := put c.seed k x }
  | 0x013 => { c with btmcfg := put c.btmcfg (if e = .asy then 1 else 0) (wb x 0) }
  | _ => c

/-- SETSR: SC writes its copy and posts the value to the register's readers (R426). -/
def execSetsr (t : Tok) (a : Fin 32) (n : BitVec 12) : State → Out :=
  sharedParcel (.setsr t a n)
    (fun g => issue (.setsr t a n) g .sc (fun m => ctlFault m g (.setsr t a n))
      (fun m =>
        let c := m.core g
        let x := c.rs a
        if !c.outRoom (srReaders n) then .wait m
        else .done (m.onCore g fun c => (c.post (srReaders n) (x.setWidth 128)).setSr .sc n x))
      (retireSeq (.setsr t a n) g .sc))
    (fun g e m => m.onCore g fun c =>
      match c.outHead e with
      | none => c
      | some x => ((c.popOut e).setSr e n (x.extractLsb' 0 64)).retire e 1 noTok)

/-! ## Traps by instruction, and the end of a task's text -/

/-- TRAP: a trap with the code (R434). -/
def execTrap (t : Tok) (n : BitVec 12) : State → Out :=
  soloParcel (.trap t n) .sc fun g => issue (.trap t n) g .sc noPre
    (fun _ => .trap .trap (n.setWidth 32) 0) id

/-- BKPT: a trap with the code (R380). -/
def execBkpt (t : Tok) (n : BitVec 12) : State → Out :=
  soloParcel (.bkpt t n) .sc fun g => issue (.bkpt t n) g .sc noPre
    (fun _ => .trap .bkpt (n.setWidth 32) 0) id

/-- An engine stops at TEND, which completes its parcel (R44, R52). -/
def Core.stopAtEnd (c : Core) (e : Engine) (k : Tok) : Core :=
  (c.popTok e k).onE e fun x => { x with ended := true, walk := x.walk + 1, tokp := false, wait := none }

/-- Operations of core g that will push a token (R44, R60). -/
def Mach.signalling (m : Mach) (g : Fin 256) : List Op := m.ops.filter fun o => o.core = g && o.sig.isSome

/-- An operation is a command of its core; the program that an LNRUN has started is none (R342). -/
def isCommand (o : Op) : Bool := match o.instr with | .lnrun .. => false | _ => true

/-- TEND: each engine stops; AS first waits for its commands that report by token (R44, R432). -/
def execTend (t : Tok) : State → Out :=
  sharedParcel (.tend t)
    (fun g => issue (.tend t) g .sc noPre (fun m => .done (m.onCore g fun c => c.stopAtEnd .sc t)) id)
    (fun g e m =>
      if e = .asy && !(m.signalling g).isEmpty then m else m.onCore g fun c => c.stopAtEnd e noTok)

/-! ## Fences, MARK, QUIES and YIELD -/

/-- SC completes a gathering parcel at once and holds; its SIG waits for the end of the hold, and a FENCE.REL marks the
store that SC has presented within its scope (R202 to R204, R415). -/
def scHold (i : Instr) (kind : HoldKind) (s : Scope) (g : Fin 256) (m : Mach) : Mach :=
  issue i g .sc noPre
    (fun m => .done (m.onCore g fun c =>
      let c := c.retire .sc 1 ⟨(tk i).wait, none⟩
      let c := if kind = .rel then c.markRel g s else c
      { c with hold := some ⟨kind, (c.e .sc).walk, s, (tk i).sig⟩ })) id m

/-- Engine e stands at the parcel for which SC holds. -/
def Core.atHold (c : Core) (h : Hold) (e : Engine) : Bool := (c.e e).walk = h.walk - 1

/-- Another engine at a fence or MARK: it passes once everyone stands there (R202, R204). -/
def passHold (i : Instr) (g : Fin 256) (e : Engine) (m : Mach) : Mach :=
  let c := m.core g
  match c.hold with
  | some h => if c.atHold h e && !c.holdOver g h then m else passBy i g e m
  | none => passBy i g e m

/-- FENCE.ACQ: the engines gather, and every earlier read within the scope is performed; of the reads only a load of SC can
outlast its parcel (R199, R204). -/
def execFenceAcq (t : Tok) (sc : Scope) : State → Out :=
  sharedParcel (.fenceAcq t sc) (scHold (.fenceAcq t sc) .acq sc) (passHold (.fenceAcq t sc))

/-- FENCE.REL: later writes of the core wait for the earlier accesses within the scope (R204). -/
def execFenceRel (t : Tok) (sc : Scope) : State → Out :=
  sharedParcel (.fenceRel t sc) (scHold (.fenceRel t sc) .rel sc) (passHold (.fenceRel t sc))

/-- FENCE: later accesses wait for every earlier access within the scope (R204). -/
def execFence (t : Tok) (sc : Scope) : State → Out :=
  sharedParcel (.fence t sc) (scHold (.fence t sc) .fence sc) (passHold (.fence t sc))

/-- MARK: SC, LD and ST gather (R202). -/
def execMark (t : Tok) : State → Out :=
  sharedParcel (.mark t) (scHold (.mark t) .mark .core) (passHold (.mark t))

/-- QUIES: SC holds until AS has passed; AS waits for every earlier command of the core and acknowledges; the
others pass (R415). -/
def execQuies (t : Tok) : State → Out :=
  sharedParcel (.quies t) (scHold (.quies t) .quies .core)
    (fun g e m =>
      if e ≠ .asy then passBy (.quies t) g e m
      else if m.ops.any fun o => o.core = g && isCommand o then m
      else passBy (.quies t) g e (m.ackCore g))

/-- Every engine of core k stands at its YIELD (R467). -/
def Core.yieldReady (c : Core) : Bool :=
  match c.hold with
  | some h => h.kind = .yield && fiveEngines.all fun e => c.atHold h e
  | none => false

/-- Every engine of core k passes its YIELD; SC's token is owed, so that a saved task pushes it at resumption
(R467). -/
def Core.yieldPass (c : Core) : Core :=
  let sig := match c.hold with | some h => h.sig | none => none
  let c := fiveEngines.foldl (fun (c : Core) e => c.retire e 1 noTok) { c with hold := none }
  c.onE .sc fun x => { x with owed := sig }

/-- The YIELD of the task on core g is decided, once every member stands at it (R467, R468): the task stops to be
saved where a record qualifies, and runs on otherwise. -/
def Mach.decideYield (m : Mach) (g : Fin 256) : Mach :=
  let cores := m.members g
  let out := m.swappable g
  let m := cores.foldl (fun m k => m.onCore k Core.yieldPass) m
  match out with
  | some p => m.swapOut g .yield p
  | none => m

/-- YIELD: the engines of every member gather, and the dispatcher decides (R467, R468). -/
def execYield (t : Tok) : State → Out :=
  sharedParcel (.yield t) (scHold (.yield t) .yield .core)
    (fun g e m =>
      let c := m.core g
      match c.hold with
      | some h =>
        if !(h.kind = .yield && c.atHold h e) then passBy (.yield t) g e m
        else if (m.members g).any fun k => ((m.core k).e .sc).ended then m.takeTrap g e .illegal 0 (infoOf (.yield t))
        else if (m.members g).all fun k => (m.core k).yieldReady then m.decideYield g
        else m
      | none => passBy (.yield t) g e m)

end Sys2Proof.Machine
end

