-- ==== Sys2Proof/Machine/ScMem.lean ====
section
/-!
DEFINITION. SC's loads and stores, task spawns and joins, notices, and the GP registers (spec/05_onchip_memory.md
R153, R155; spec/15_reference_a_l.md R390; spec/16_reference_m_u.md R410, R428, R430, R433, R435).
-/
namespace Sys2Proof.Machine

/-! ## Scalar accesses -/

/-- The effective address of a scalar access (R153). -/
def effAddr (a : Word) (fn : BitVec 15) : Word := a + fn.signExtend 64

/-- Where a scalar access of core g goes: the core, whether its accumulator store, and the byte; or the trap
(R94, R153). -/
def scTarget (m : Mach) (g : Fin 256) (x : Word) (n : Nat) : Except Cause (Fin 256 × Bool × Nat) :=
  let b := eaByte x
  if b % n ≠ 0 then .error .align
  else if eaSpace x = 1 then
    (if wf x 24 40 ≠ 0 || 0x200000 ≤ b then .error .spadRange else .ok (g, true, b))
  else
    match m.cellCore g x with
    | none => .error .spadRange
    | some t => if 0x300000 ≤ b then .error .spadRange else .ok (t, false, b)

/-- The cause of a check that failed. -/
def causeOf {α : Type} (x : Except Cause α) : Option Cause := match x with | .error c => some c | .ok _ => none

/-- The trap that SC's registers give an access, a TSPAWN or a TJOIN at its parcel (R94, R153, R433, R435). -/
def memFault (m : Mach) (g : Fin 256) (i : Instr) : Option Cause :=
  let c := m.core g
  match i with
  | .sld _ _ a fn | .sst _ a _ fn => causeOf (scTarget m g (effAddr (c.rs a) fn) 8)
  | .sldW _ _ a fn | .sldWs _ _ a fn | .sstW _ a _ fn => causeOf (scTarget m g (effAddr (c.rs a) fn) 4)
  | .tspawn _ a =>
    if wf (c.rs a) 0 6 ≠ 0 then some .align else if 0x300000 < (c.rs a).toNat + 64 then some .spadRange else none
  | .tjoin _ a => if wf (c.rs a) 0 5 ≠ 0 then some .align else if wf (c.rs a) 48 16 ≠ 0 then some .illegal else none
  | _ => none

/-- A remote access of engine e waits while no task of its context occupies the target, or the target's port keeps an
earlier request of the context (R149, R213). -/
def heldBy (m : Mach) (g : Fin 256) (e : Engine) (t : Fin 256) : Bool := g ≠ t && !m.admits t (m.ctxOf g) (.eng g e)

/-- A held access of engine e: the target's port keeps it in its place, and the engine waits (R149, R213). -/
def Mach.heldAt (m : Mach) (g : Fin 256) (e : Engine) (t : Fin 256) (k : Tok) : Eff :=
  .wait ((m.enqueue t (m.ctxOf g) (.eng g e)).waitOn g e (.held t) k)

/-- The access of engine e is served, and leaves the place where it waited. -/
def Mach.servedAt (m : Mach) (g : Fin 256) (e : Engine) (t : Fin 256) : Mach := m.dequeue t (m.ctxOf g) (.eng g e)

/-- An access of n bytes at an address, presented to its port, which performs it at a later move; SC goes on, and the
token follows when the access is performed (R59, R199). -/
def scAccess (i : Instr) (a : Fin 32) (fn : BitVec 15) (n : Nat) (bytes : Core → List Byte) (load : Option PendLoad) : State → Out :=
  soloParcel i .sc fun g => issue i g .sc (fun m => memFault m g i)
    (fun m =>
      let c := m.core g
      match scTarget m g (effAddr (c.rs a) fn) n with
      | .error c => .fail c
      | .ok (t, isAcc, x) =>
        if heldBy m g .sc t then m.heldAt g .sc t (tk i)
        else .done ((m.unqueue t (m.ctxOf g) (.eng g .sc)).onCore g fun k =>
          { k with pend := some ⟨t, isAcc, x, bytes c, load, (tk i).sig, none⟩ }))
    (fun m => m.onCore g fun c => c.retire .sc 1 ⟨(tk i).wait, none⟩)

/-- A load of n bytes into Sd (R428). -/
def scLoad (i : Instr) (d a : Fin 32) (fn : BitVec 15) (n : Nat) (signed : Bool) : State → Out :=
  scAccess i a fn n (fun _ => []) (some ⟨d, n, signed⟩)

/-- A store of the n low bytes of Sb (R430). -/
def scStore (i : Instr) (a b : Fin 32) (fn : BitVec 15) (n : Nat) : State → Out :=
  scAccess i a fn n (fun c => leBytes n (c.rs b).toNat) none

/-- SLD: a 64-bit load (R428). -/
def execSld (t : Tok) (d a : Fin 32) (fn : BitVec 15) : State → Out := scLoad (.sld t d a fn) d a fn 8 false

/-- SLD.W: a 32-bit load, zero-extended (R428). -/
def execSldW (t : Tok) (d a : Fin 32) (fn : BitVec 15) : State → Out := scLoad (.sldW t d a fn) d a fn 4 false

/-- SLD.WS: a 32-bit load, sign-extended (R428). -/
def execSldWs (t : Tok) (d a : Fin 32) (fn : BitVec 15) : State → Out := scLoad (.sldWs t d a fn) d a fn 4 true

/-- SST: a 64-bit store (R430). -/
def execSst (t : Tok) (a b : Fin 32) (fn : BitVec 15) : State → Out := scStore (.sst t a b fn) a b fn 8

/-- SST.W: a 32-bit store (R430). -/
def execSstW (t : Tok) (a b : Fin 32) (fn : BitVec 15) : State → Out := scStore (.sstW t a b fn) a b fn 4

/-! ## Tasks -/

/-- The records that a dispatcher can hold. That running and waiting records count, and that a replay or a trap continuation
enters past the limit, is not stated and is the model's choice (R221; log entry 116). -/
def recLimit : Nat := 2 ^ 21

/-- TSPAWN's block is refused as malformed (R42, R435). -/
def spawnBad (m : Mach) (g : Fin 256) (ws : List Word) : Bool :=
  recBad ws || recCtx ws ≠ m.ctxOf g || m.unplaceable (dieOf g) (recGang ws) ||
  wf (blkW ws 4) 48 16 ≠ 0 || wf (blkW ws 4) 0 5 ≠ 0 || blkW ws 5 ≠ 0 || blkW ws 6 ≠ 0 || blkW ws 7 ≠ 0

/-- The spawned record is written at RADDR and enters the die's queue (R435, R221). -/
def Mach.spawn (m : Mach) (g : Fin 256) (ws : List Word) : Mach :=
  let a : BitVec 48 := (blkW ws 4).extractLsb' 0 48
  let m := m.ctxWrite (m.ctxOf g) a.toNat ((ws.take 4).flatMap wordBytes)
  (m.addRec (dieOf g) (mkRec m (some a) ws (m.ctxOf g) none)).scan (dieOf g)

/-- TSPAWN: a record from a spawn block (R435). -/
def execTspawn (t : Tok) (a : Fin 32) : State → Out :=
  soloParcel (.tspawn t a) .sc fun g => issue (.tspawn t a) g .sc (fun m => memFault m g (.tspawn t a))
    (fun m =>
      let x := (m.core g).rs a
      let r := m.portRead (m.ctxOf g) g false x.toNat 64
      if !r.2 then .wait r.1
      else
        let m := r.1
        let ws := wordsOf 8 (Memory.read (m.core g).spad x.toNat 64)
        if spawnBad m g ws then .fail .cmdMalformed
        else if recLimit ≤ (m.die (dieOf g)).recs.length then .wait (m.waitOn g .sc .spawn (tk (.tspawn t a)))
        else .done (m.spawn g ws))
    (retireSeq (.tspawn t a) g .sc)

/-- TJOIN: a decrement of the JOIN of the record at Sa (R433). -/
def execTjoin (t : Tok) (a : Fin 32) : State → Out :=
  soloParcel (.tjoin t a) .sc fun g => issue (.tjoin t a) g .sc (fun m => memFault m g (.tjoin t a))
    (fun m =>
      let c := m.ctxOf g
      match m.findRec (((m.core g).rs a).setWidth 48) with
      | some (d, r) => .done (if r.ctx = c then m.decJoin c d r.id else m.stray c)
      | none => .done (m.stray c))
    (retireSeq (.tjoin t a) g .sc)

/-! ## Notices and GP registers -/

/-- A notice record into the host's notice ring (R410). -/
def Mach.notify (m : Mach) (g : Fin 256) (v : Word) : Mach :=
  let k := m.ctxOf g
  let x := m.ctx k
  if !x.nen then m
  else if (x.nrhead - x.nrtail).toNat = 2 ^ x.cur.lnr.toNat then m.onCtx k fun x => { x with nlost := sat32 x.nlost }
  else
    let id := match (m.core g).task with | some t => t.taskid.toNat | none => 0
    let m := m.hostWrite (x.cur.nrbase.toNat + 16 * (x.nrhead.toNat % 2 ^ x.cur.lnr.toNat))
      (wordBytes v ++ leBytes 4 id ++ leBytes 1 g.val ++ leBytes 3 x.nrhead.toNat)
    m.onCtx k fun x => { x with nrhead := x.nrhead + 1 }

/-- NOTIFY: a notice record (R410). -/
def execNotify (t : Tok) (a : Fin 32) : State → Out :=
  soloParcel (.notify t a) .sc fun g => issue (.notify t a) g .sc noPre
    (fun m => .done (m.notify g ((m.core g).rs a))) (retireSeq (.notify t a) g .sc)

/-- GPGET: a GP register of the task's context into Sd (R390). -/
def execGpget (t : Tok) (d : Fin 32) (n : Fin 64) : State → Out :=
  soloParcel (.gpget t d n) .sc fun g => issue (.gpget t d n) g .sc noPre
    (fun m => .done ((m.atGp (m.ctxOf g) (gpCore g)).onCore g fun c => c.ws d ((m.ctx (m.ctxOf g)).gp[n.val])))
    (retireSeq (.gpget t d n) g .sc)

/-- GPSET: Sa into a GP register of the task's context (R390). -/
def execGpset (t : Tok) (a : Fin 32) (n : Fin 64) : State → Out :=
  soloParcel (.gpset t a n) .sc fun g => issue (.gpset t a n) g .sc noPre
    (fun m => .done ((m.atGp (m.ctxOf g) (gpCore g)).onCtx (m.ctxOf g) fun x => { x with gp := put x.gp n ((m.core g).rs a) }))
    (retireSeq (.gpset t a n) g .sc)

end Sys2Proof.Machine
end

