-- ==== Sys2Proof/Machine/AsIssue.lean ====
section
/-!
DEFINITION. Asynchronous parcels: SC's share, the issue on AS, command blocks, and the completion of an operation
(spec/02_execution.md R44, R48, R59, R60; spec/06_copy_engines.md R171 to R174; spec/15_reference_a_l.md R370).
-/
namespace Sys2Proof.Machine

/-! ## SC's share and the issue -/

/-- The registers sa and sb of an AS parcel; S0 where it names none (R84). -/
def asRegs (i : Instr) : Fin 32 × Fin 32 :=
  match i with
  | .xcp _ a b | .xcpCvt _ a b | .xcpMc _ a b | .xcpKv _ a b | .xaccAdd _ a b | .xaccMin _ a b | .xaccMax _ a b
  | .xaccAnd _ a b | .xaccOr _ a b | .xaccXor _ a b | .xatomAdd _ a b | .xatomMin _ a b | .xatomMax _ a b
  | .xatomAnd _ a b | .xatomOr _ a b | .xatomXor _ a b | .xatomSwap _ a b | .xatomCas _ a b | .xfill _ a b => (a, b)
  | .vatomAdd _ a _ | .vatomMin _ a _ | .vatomMax _ a _ | .vatomAnd _ a _ | .vatomOr _ a _ | .vatomXor _ a _ => (a, 0)
  | .barv _ b | .bwait _ b _ | .rngwf _ b _ | .rngwe _ b _ | .rngpub _ b | .rngrel _ b => (0, b)
  | .binit _ a | .rngcfg _ a | .btld _ a | .btlk _ a | .btinv _ a | .balloc _ a | .bfree _ a | .bref _ a | .btopen _ a
  | .btclose _ a | .btapp _ a | .btfork _ a | .bttrim _ a | .btcmt _ a | .bhfind _ a | .bhpub _ a | .itbind _ a
  | .itgo _ a | .itstat _ a | .objplace _ a | .objpin _ a | .rgcfg _ a | .rgpush _ a | .rgtakeTake _ a
  | .rgtakeRelease _ a | .smbind _ a | .smrun _ a | .clrslow _ a | .addcnt _ a | .clrcnt _ a | .armv _ a
  | .setstep _ a | .smstat _ a | .lnrun _ a | .lnstat _ a => (a, 0)
  | _ => (0, 0)

/-- SC at an AS parcel: it posts the operands and takes a command-queue entry, and waits while there is no room, or a load
of its own that a register takes is under way (R48, R172, R199). -/
def scPost (i : Instr) (g : Fin 256) (m : Mach) : Mach :=
  m.onCore g fun c =>
    if c.loading || 8 ≤ c.cq || !c.outRoom [.asy] then c
    else
      let r := asRegs i
      ({ c.post [.asy] (c.rs r.2 ++ c.rs r.1) with cq := c.cq + 1 }).onE .sc fun x => x.advance (parcels i)

/-- A token toward Q would have no room: tokens and operations still to signal Q number 8 (R60). -/
def sigFull (m : Mach) (g : Fin 256) (s : Option Engine) : Bool :=
  match s with
  | none => false
  | some q => 8 ≤ (m.core g).tokens .asy q + ((m.signalling g).filter fun o => o.sig = some q).length

/-- The cell that an address names from core g (R153, R377). -/
def cellAt (m : Mach) (g : Fin 256) (x : Word) : Option (Fin 256 × Nat) :=
  if eaByte x % 8 ≠ 0 || 0x300000 < eaByte x + 8 then none else (m.cellCore g x).map fun t => (t, eaByte x)

/-- The ring that Sb names (R422). -/
def ringAt (m : Mach) (x : Word) : Option (Fin 256 × Fin 16) :=
  if wf x 4 4 ≠ 0 || wf x 16 48 ≠ 0 then none
  else
    let t := toCore (wf x 8 8)
    if m.present t then some (t, Fin.ofNat 16 (wf x 0 4)) else none

/-- A local scratchpad range of n bytes below 0x30_0000. -/
def inSpad (a n : Nat) : Bool := a + n ≤ 0x300000

/-- The trap of the address of a block of n bytes (R370). -/
def blockFault (x : Word) (n : Nat) : Option Cause :=
  if wf x 0 6 ≠ 0 then some .align else if 0x300000 < x.toNat + n then some .spadRange else none

/-- The bytes of a parcel's block, that of a VATOM apart, which AS reads once its buffer is filled (R370, R442). -/
def blockBytes (i : Instr) : Nat :=
  match i with
  | .xcp .. | .xcpCvt .. | .xcpMc .. | .xcpKv .. | .xaccAdd .. | .xaccMin .. | .xaccMax .. | .xaccAnd .. | .xaccOr ..
  | .xaccXor .. | .xfill .. => 256
  | .itbind .. | .smbind .. => 128
  | _ => 64

/-- The trap that the operands of an AS parcel give it, once SC has posted them (R94, R370, R377, R422). -/
def asFault (m : Mach) (g : Fin 256) (i : Instr) : Option Cause :=
  let c := m.core g
  if (c.outHead .asy).isNone then none
  else
    match i with
    | .barv .. | .bwait .. => if (cellAt m g c.opSb).isNone then some .spadRange else none
    | .rngpub .. | .rngrel .. => if (ringAt m c.opSb).isNone then some .spadRange else none
    | .rngwf _ _ a | .rngwe _ _ a => if (ringAt m c.opSb).isNone || !inSpad (8 * a.toNat) 8 then some .spadRange else none
    | .vatomAdd .. | .vatomMin .. | .vatomMax .. | .vatomAnd .. | .vatomOr .. | .vatomXor .. => none
    | _ => blockFault c.opSa (blockBytes i)

/-- The issue of an AS parcel: encoding faults, what its operands trap, the WAIT token, its operands and room for its token,
then its own checks and effect (R94, R173). -/
def asIssue (i : Instr) (eff : Fin 256 → Mach → Eff) (fin : Fin 256 → Mach → Mach) (g : Fin 256) : Mach → Mach :=
  issue i g .asy (fun m => asFault m g i)
    (fun m =>
      if ((m.core g).outHead .asy).isNone || sigFull m g (tk i).sig then .wait m else eff g m)
    (fin g)

/-- An AS parcel: each engine's part, and the unit's work on an operation of it that has issued. -/
def asParcel (i : Instr) (eff : Fin 256 → Mach → Eff) (fin : Fin 256 → Mach → Mach) (work : Fin 4 → UnitKind → Mach → Mach)
    (s : State) : Out :=
  ready (fun m =>
    match m.focus with
    | .engine g e => if e = .sc then scPost i g m else if e = .asy then asIssue i eff fin g m else m.skip g e (parcels i)
    | .unit d u => work d u m
    | .none => m) s

/-- No unit acts on the parcel. -/
def noWork (_ : Fin 4) (_ : UnitKind) (m : Mach) : Mach := m

/-- AS past a parcel whose work is done: its SIG is pushed and its entry is free (R59, R172). -/
def asRetire (i : Instr) (g : Fin 256) (m : Mach) : Mach :=
  m.onCore g fun c => c.endWait .asy (tk i)

/-- AS past a command it has issued: the token and the entry stay with the operation (R172 to R174). -/
def asIssued (i : Instr) (g : Fin 256) (m : Mach) : Mach :=
  m.onCore g fun c => (c.popOut .asy).retire .asy (parcels i) ⟨(tk i).wait, none⟩

/-! ## Command blocks -/

/-- The block of n bytes that Sa names, as words, or the trap of its address (R370). -/
def asBlock (m : Mach) (g : Fin 256) (n : Nat) (k : Mach → Nat → List Word → Eff) : Eff :=
  let x := (m.core g).opSa
  match blockFault x n with
  | some f => .fail f
  | none =>
    let r := m.portRead (m.ctxOf g) g false x.toNat n
    if r.2 then k r.1 x.toNat (wordsOf (n / 8) (Memory.read (m.core g).spad x.toNat n)) else .wait r.1

/-- Bits lo to 63 of word k of a block are zero. -/
def hiZero (ws : List Word) (k lo : Nat) : Bool := wf (blkW ws k) lo (64 - lo) = 0

/-- A BAR field names a cell: SPACE 0, 2 or 3, a present core, BYTE a multiple of 8 inside the scratchpad (R175). -/
def barOk (m : Mach) (g : Fin 256) (w : Word) : Bool :=
  let a := BitVec.ofNat 64 (wf w 0 32)
  (m.cellCore g a).isSome && eaByte a % 8 = 0 && eaByte a + 8 ≤ 0x300000

/-- The operation of parcel i issued by core g, with its block at byte `base`; `en` says whether its completion arrives
at the cell of its BAR word (R173, R174). -/
def mkOp (m : Mach) (g : Fin 256) (i : Instr) (u : UnitKind) (base : Nat) (ws : List Word) (en : Bool) : Op where
  id := m.nextId
  instr := i
  core := g
  ctx := m.ctxOf g
  rank := match (m.core g).task with | some t => t.rank | none => 0
  taskid := match (m.core g).task with | some t => t.taskid | none => 0
  die := dieOf g
  unit := u
  pc := ((m.core g).e .asy).pc
  sig := (tk i).sig
  base := base
  blk := ws
  bar := m.barOf g (blkW ws 2) en
  sb := (m.core g).opSb
  lanes := []
  sdesc := []
  ddesc := []
  handles := []
  rcvs := []
  stream := 0
  idx := 0
  stop := none
  nfault := 0
  poison := none
  elems := []
  src := []
  begun := false
  fin := false
  said := false
  entry := true

/-- Unit u of die d accepts what has place r among what it accepts in one clock (R11; log entry 102). -/
def Mach.takesIn (m : Mach) (d : Fin 4) (u : UnitKind) (r : Nat) : Mach :=
  let m := m.inOrder d (m.die d).took[(unitIx u).val] r
  let now := (m.die d).cycle
  m.onDie d fun x => { x with took := put x.took (unitIx u) (some (now, r)) }

/-- The unit of core g's die accepts a command of the core: after those of lower cores in one clock, and after the rows that
close in it (R271, R311, R334, R342, R394). -/
def Mach.takesCmd (m : Mach) (g : Fin 256) (u : UnitKind) : Mach := m.takesIn (dieOf g) u (1 + g.val)

/-- An operation begins: CODE 0 is written, and it belongs to its unit (R173). -/
def Mach.startOp (m : Mach) (o : Op) : Mach :=
  ({ m with nextId := m.nextId + 1, ops := m.ops ++ [o] }).wspad o.core (o.base + 8) (leBytes 8 0)

/-! ## Completion -/

/-- The operation with a number, if it is still open. -/
def Mach.findOp (m : Mach) (k : Nat) : Option Op := m.ops.find? fun o => o.id = k

/-- Operation k replaced by its update. -/
def Mach.onOp (m : Mach) (k : Nat) (f : Op → Op) : Mach := { m with ops := m.ops.map fun (o : Op) => if o.id = k then f o else o }

/-- The last steps of a completion: the arrival, the token, the entry (R174, R301). -/
def Mach.closeOp (m : Mach) (o : Op) : Mach :=
  let m := match o.bar with | some (t, a) => m.arrive t a o.ctx | none => m
  let m := { m with ops := m.ops.filter fun q => q.id ≠ o.id }
  m.onCore o.core fun c =>
    let c := c.pushTok .asy o.sig
    if o.entry then { c with cq := c.cq - 1 } else c

/-- The completion of an operation that has been applied whole: its report is written once its core can take it, and
the arrival, the token and the entry follow once the cell's core can take the arrival (R174, R213). `rep` writes the
report. -/
def Mach.complete (m : Mach) (o : Op) (rep : Mach → Mach) : Mach :=
  let m :=
    if o.said then m
    else m.request1 o.core o.ctx (.op o.id) fun m => (rep m).onOp o.id fun o => { o with said := true }
  match m.findOp o.id with
  | none => m
  | some o =>
    if !o.said then m
    else
      match o.bar with
      | some (t, _) => m.request1 t o.ctx (.op o.id) fun m => m.closeOp o
      | none => m.closeOp o

/-- Operation k has been applied whole. -/
def Mach.finish (m : Mach) (k : Nat) : Mach := m.onOp k fun o => { o with fin := true }

/-- The write of a report word at byte 8 of an operation's block (R174, R301). -/
def Mach.putRes (m : Mach) (o : Op) (w : Word) : Mach := m.wspad o.core (o.base + 8) (wordBytes w)

end Sys2Proof.Machine
end

