-- ==== Sys2Proof/Machine/AsBar.lean ====
section
/-!
DEFINITION. Barrier cells, hardware rings and the block translation memory (spec/06_copy_engines.md R189;
spec/05_onchip_memory.md R162 to R167; spec/15_reference_a_l.md R377, R378, R382 to R384; spec/16_reference_m_u.md
R422 to R424; spec/08_scheduling.md R237).
-/
namespace Sys2Proof.Machine

/-- The copy engine that carries the commands of core g (R171). -/
def engineOf (g : Fin 256) : UnitKind := .copy (Fin.ofNat 4 (clusterOf g % 4))

/-- A code that names an agent, or no one (R237). -/
def agentCode (n : Nat) : Bool :=
  n < 0x100 || (0x100 ≤ n && n < 0x140 && n % 16 ≤ 9) || n = 0x200 || n = 0x201 || n = 0xFFFF

/-! ## Barrier cells -/

/-- BINIT's cell set: REM and RELOAD the count, PAR 0, its signaller registered; a waiter for parity 0 passes (R189,
R378). -/
def Mach.initCell (m : Mach) (x : Fin 64) (t : Fin 256) (a count : Nat) (sig : BitVec 16) : Mach :=
  let m := m.wspad t a (leBytes 8 (count + count * 2 ^ 32))
  { m with signallers := ((x, t, a), sig) :: m.signallers.filter (fun s => s.1 ≠ (x, t, a)),
           cores := each m.cores (satisfyBar x t a false) }

/-- BINIT: a cell initialised, its signaller registered (R377). -/
def execBinit (t : Tok) (sa : Fin 32) : State → Out :=
  asParcel (.binit t sa)
    (fun g m => asBlock m g 64 fun m _ ws =>
      match cellAt m g (BitVec.ofNat 64 (wf (blkW ws 0) 0 32)) with
      | none => .fail .spadRange
      | some (d, a) =>
        let n := wf (blkW ws 1) 0 31
        if !hiZero ws 0 32 || !hiZero ws 1 31 || !hiZero ws 2 16 || n = 0 || !agentCode (wf (blkW ws 2) 0 16) ||
           (List.range 5).any (fun k => blkW ws (3 + k) ≠ 0) then .fail .cmdMalformed
        else if heldBy m g .asy d then m.heldAt g .asy d t
        else .done ((m.servedAt g .asy d).initCell (m.ctxOf g) d a n ((blkW ws 2).extractLsb' 0 16)))
    (asRetire (.binit t sa)) noWork

/-- BARV: one arrival at a cell; the port keeps it in its place while the cell's core runs no task of the context, and AS
presents it once the accesses that it releases, within the scope of the two cores, are performed (R189, R203, R205,
R213). -/
def execBarv (t : Tok) (sb : Fin 32) : State → Out :=
  asParcel (.barv t sb)
    (fun g m =>
      match cellAt m g (m.core g).opSb with
      | none => .fail .spadRange
      | some (d, a) =>
        if !(m.core g).releaseReady g .asy (opScope (.core g) (.port d)) then .wait m
        else if heldBy m g .asy d then
          let x : Arrival := ⟨d, a, .eng g .asy, m.ctxOf g⟩
          .wait ((({ m with arrivals := m.arrivals ++ [x] } : Mach).enqueue d (m.ctxOf g) (.eng g .asy)).waitOn g .asy (.arrival d) t)
        else .done ((m.servedAt g .asy d).arrive d a (m.ctxOf g)))
    (asRetire (.barv t sb)) noWork

/-- BARRIER_ARRIVAL: the port of the cell's core applies arrival k that it holds, once a task of its context occupies
the core and nothing that the port accepted earlier for the context waits, and the BARV that presented it retires (R149,
R189, R213, R253). -/
def Mach.applyArrival (m : Mach) (k : Nat) : Mach :=
  match m.arrivals[k]? with
  | none => m
  | some x =>
    if !m.admits x.cell x.ctx x.who then m
    else
      let m := (({ m with arrivals := m.arrivals.eraseIdx k }).dequeue x.cell x.ctx x.who).arrive x.cell x.addr x.ctx
      match x.who with
      | .eng g _ =>
        m.onCore g fun c =>
          match (c.e .asy).wait with
          | some w => if w.on = .arrival x.cell then c.endWait .asy w.tok else c
          | none => c
      | _ => m

/-- BARRIER_ARRIVAL (R189). -/
def execBarrierArrival (k : Nat) : State → Out := ready fun m => m.applyArrival k

/-- BWAIT: AS waits until the cell's parity is p (R377, R378). -/
def execBwait (t : Tok) (sb : Fin 32) (p : Bool) : State → Out :=
  asParcel (.bwait t sb p)
    (fun g m =>
      match cellAt m g (m.core g).opSb with
      | none => .fail .spadRange
      | some (d, a) =>
        if heldBy m g .asy d then m.heldAt g .asy d t
        else
          let m := m.servedAt g .asy d
          let r := m.portRead (m.ctxOf g) d false a 8
          if !r.2 then .wait r.1
          else if wb (Memory.readW (m.core d).spad a) 63 = p then .done r.1
          else .wait (r.1.waitOn g .asy (.bar d a p) t))
    (asRetire (.bwait t sb p)) noWork

/-! ## Rings -/

/-- A request of a kind can be granted now (R163). -/
def Ring.ready (r : Ring) (k : RingKind) : Bool :=
  match k with
  | .we => (r.pclaim - r.crel).toNat < r.nslot.toNat
  | .wf => 0 < (r.ppub - r.cclaim).toNat

/-- The slot that a grant gives, and the ring after it (R163). -/
def Ring.grant (r : Ring) (k : RingKind) : BitVec 32 × Ring :=
  match k with
  | .we => (r.pclaim, { r with pclaim := r.pclaim + 1 })
  | .wf => (r.cclaim, { r with cclaim := r.cclaim + 1 })

/-- The grant word for slot n (R163). -/
def Ring.word (r : Ring) (n : BitVec 32) : Nat :=
  n.toNat + (r.base.toNat + 64 * r.slotsz.toNat * (n.toNat % r.nslot.toNat)) * 2 ^ 32

/-- Ring r of core t, and that ring updated. -/
def Mach.ring (m : Mach) (t : Fin 256) (r : Fin 16) : Ring := (m.core t).rings[r.val]
def Mach.onRing (m : Mach) (t : Fin 256) (r : Fin 16) (f : Ring → Ring) : Mach :=
  m.onCore t fun c => { c with rings := upd c.rings r f }

/-- A grant to core g: the claim, and the grant word at `addr` of g's scratchpad (R163, R168). -/
def Mach.grantRing (m : Mach) (t : Fin 256) (r : Fin 16) (k : RingKind) (g : Fin 256) (addr : Nat) : Mach :=
  let x := (m.ring t r).grant k
  (m.onRing t r fun _ => x.2).wspad g addr (leBytes 8 ((m.ring t r).word x.1))

/-- The oldest request of a kind that waits on a ring and whose context occupies the ring's core (R164, R213). -/
def Mach.ringFirst (m : Mach) (t : Fin 256) (r : Fin 16) (k : RingKind) : Option RingWait :=
  (m.core t).ringWaits.find? fun w => w.ring = r && w.kind = k && m.occupied t w.ctx && m.live w.who

/-- A request of a kind can be granted now, and none that the port accepted earlier waits (R163, R164). -/
def Mach.ringFree (m : Mach) (t : Fin 256) (r : Fin 16) (k : RingKind) (w : Who) : Bool :=
  (m.ring t r).ready k && (match m.ringFirst t r k with | some x => x.who = w | none => true)

/-- Waiting requests of a kind granted in the order of their acceptance, while the counts allow (R164); at most n. A
unit takes what it waits for at its own move, and none behind it is granted before. -/
def Mach.serveRing (m : Mach) (t : Fin 256) (r : Fin 16) (k : RingKind) : Nat → Mach
  | 0 => m
  | n + 1 =>
    match m.ringFirst t r k with
    | none => m
    | some w =>
      match w.who with
      | .eng g _ =>
        if !(m.ring t r).ready k then m
        else
          let m := m.onCore t fun c => { c with ringWaits := c.ringWaits.erase w }
          let m := m.grantRing t r k g w.addr
          let m := m.onCore g fun c =>
            match (c.e .asy).wait with
            | some x => if x.on = .ring t r k then c.endWait .asy x.tok else c
            | none => c
          m.serveRing t r k n
      | _ => m

/-- A request that a unit makes on a ring at one of its moves, for context c: the port keeps it while no task of the
context occupies the core, the ring keeps it while it cannot be granted, and in its turn `take` grants it, and what waits
behind it is granted as the counts allow (R149, R163, R164, R213, R253, R328); the second part says whether it has been. -/
def Mach.unitRing (m : Mach) (t : Fin 256) (r : Fin 16) (k : RingKind) (c : Fin 64) (w : Who) (take : Mach → Mach) : Mach × Bool :=
  if !m.admits t c w then (m.enqueue t c w, false)
  else
    let m := m.dequeue t c w
    if m.ringFree t r k w then
      let m := take (m.onCore t fun x => { x with ringWaits := x.ringWaits.filter fun y => !(y.who = w && y.ring = r && y.kind = k) })
      (m.serveRing t r k (m.core t).ringWaits.length, true)
    else if (m.core t).ringWaits.any fun y => y.who = w && y.ring = r && y.kind = k then (m, false)
    else (m.onCore t fun x => { x with ringWaits := x.ringWaits ++ [⟨r, k, c, w, 0⟩] }, false)

/-- RNGWF and RNGWE: a slot granted, or a request that waits at the owning port (R163, R164, R422). -/
def ringTake (i : Instr) (k : RingKind) (addr : BitVec 19) : State → Out :=
  asParcel i
    (fun g m =>
      match ringAt m (m.core g).opSb with
      | none => .fail .spadRange
      | some (t, r) =>
        if !inSpad (8 * addr.toNat) 8 then .fail .spadRange
        else if heldBy m g .asy t then m.heldAt g .asy t (tk i)
        else if (m.ring t r).nslot = 0 then .fail .cmdMalformed
        else
          let m := m.servedAt g .asy t
          if m.ringFree t r k (.eng g .asy) then .done (m.grantRing t r k g (8 * addr.toNat))
          else
            .wait ((m.onCore t fun c =>
              { c with ringWaits := c.ringWaits ++ [⟨r, k, m.ctxOf g, .eng g .asy, 8 * addr.toNat⟩] }).waitOn g .asy (.ring t r k) (tk i)))
    (asRetire i) noWork

/-- RNGWF: a consumer takes a published slot (R163). -/
def execRngwf (t : Tok) (sb : Fin 32) (addr : BitVec 19) : State → Out := ringTake (.rngwf t sb addr) .wf addr

/-- RNGWE: a producer takes a free slot (R163). -/
def execRngwe (t : Tok) (sb : Fin 32) (addr : BitVec 19) : State → Out := ringTake (.rngwe t sb addr) .we addr

/-- RNGPUB and RNGREL: a count moves on, and waiting requests of the other side may be granted (R163). `bad` is the
condition that makes it malformed; the ring counts as reached for the wait-for walk (R239). -/
def ringGive (i : Instr) (bad : Ring → Bool) (step : Ring → Ring) (serves : RingKind) : State → Out :=
  asParcel i
    (fun g m =>
      match ringAt m (m.core g).opSb with
      | none => .fail .spadRange
      | some (t, r) =>
        if !(m.core g).releaseReady g .asy (opScope (.core g) (.port t)) then .wait m
        else if heldBy m g .asy t then m.heldAt g .asy t (tk i)
        else if (m.ring t r).nslot = 0 || bad (m.ring t r) then .fail .cmdMalformed
        else
          let m := m.servedAt g .asy t
          let m := { m.onRing t r step with touched := (t, 0x400000 + r.val) :: m.touched }
          .done (m.serveRing t r serves (m.core t).ringWaits.length))
    (asRetire i) noWork

/-- RNGPUB: the oldest claimed slot is published (R163). -/
def execRngpub (t : Tok) (sb : Fin 32) : State → Out :=
  ringGive (.rngpub t sb) (fun r => r.ppub = r.pclaim) (fun r => { r with ppub := r.ppub + 1 }) .wf

/-- RNGREL: the oldest granted slot is free again (R163). -/
def execRngrel (t : Tok) (sb : Fin 32) : State → Out :=
  ringGive (.rngrel t sb) (fun r => r.crel = r.cclaim) (fun r => { r with crel := r.crel + 1 }) .we

/-- The descriptor of an RNGCFG block (R162, R423). -/
def ringOf (ws : List Word) : Ring :=
  let d0 := blkW ws 3
  let d3 := blkW ws 4
  ⟨d0.extractLsb' 0 22, d0.extractLsb' 32 16, d0.extractLsb' 48 13, 0, 0, 0, 0, d3.extractLsb' 0 16, d3.extractLsb' 16 16⟩

/-- An RNGCFG block is malformed (R162, R423). -/
def ringBad (m : Mach) (g : Fin 256) (ws : List Word) : Bool :=
  let d0 := blkW ws 3
  let r := ringOf ws
  !hiZero ws 0 4 || !hiZero ws 2 33 || (wb (blkW ws 2) 32 && !barOk m g (blkW ws 2)) || wf d0 22 10 ≠ 0 || wf d0 61 3 ≠ 0 ||
  r.base.toNat % 64 ≠ 0 || r.slotsz = 0 || 49152 < r.slotsz.toNat || r.nslot = 0 || 4096 < r.nslot.toNat ||
  0x300000 < r.base.toNat + 64 * r.slotsz.toNat * r.nslot.toNat || !hiZero ws 4 32 ||
  !agentCode r.proda.toNat || !agentCode r.consa.toNat || (List.range 3).any (fun k => blkW ws (5 + k) ≠ 0) ||
  (m.core g).ringWaits.any fun w => w.ring.val = wf (blkW ws 0) 0 4 && m.live w.who

/-- RNGCFG: a descriptor of the core's own, its counts zeroed (R162, R423). The report, the arrival and the token
follow as COMMAND_COMPLETE. -/
def execRngcfg (t : Tok) (sa : Fin 32) : State → Out :=
  asParcel (.rngcfg t sa)
    (fun g m => asBlock m g 64 fun m base ws =>
      if ringBad m g ws then .fail .cmdMalformed
      else
        let o := { mkOp m g (.rngcfg t sa) (engineOf g) base ws (wb (blkW ws 2) 32) with fin := true }
        .done ((m.onRing g (Fin.ofNat 16 (wf (blkW ws 0) 0 4)) fun _ => ringOf ws).startOp o))
    (asIssued (.rngcfg t sa)) noWork

/-! ## The block translation memory -/

/-- The set of a key (R165). -/
def btmSet (s k : BitVec 16) : Nat := (s.extractLsb' 0 8 ^^^ k.extractLsb' 0 8).toNat

/-- The entry of a way of a set. -/
def btmIx (set way : Nat) : Fin 1024 := Fin.ofNat 1024 (4 * set + way)

/-- The ways of a set in the order of the replacement pointer. -/
def btmWays (rp : BitVec 2) : List Nat := (List.range 4).map fun k => (rp.toNat + k) % 4

/-- The place of a valid entry with a key (R165). -/
def Core.btmFind (c : Core) (s k : BitVec 16) : Option (Fin 1024) :=
  ((List.range 4).map (btmIx (btmSet s k))).find? fun i =>
    let e := c.btm[i.val]
    e.valid && e.slot = s && e.ord = k

/-- BTLD's install of one key and handle; true where all four ways are locked (R166). -/
def Core.btmInstall (c : Core) (s k : BitVec 16) (h : BitVec 32) : Core × Bool :=
  match c.btmFind s k with
  | some i => ({ c with btm := upd c.btm i fun e => if e.lock then e else { e with handle := h } }, false)
  | none =>
    let set := btmSet s k
    let rp := (c.rp[set]?).getD 0
    let ways := btmWays rp
    let free := ways.find? fun w => !(c.btm[(btmIx set w).val]).valid
    let open' := ways.find? fun w => !(c.btm[(btmIx set w).val]).lock
    match free.or open' with
    | none => (c, true)
    | some w =>
      ({ c with btm := put c.btm (btmIx set w) ⟨s, k, h, true, false⟩,
                rp := put c.rp (Fin.ofNat 256 set) (BitVec.ofNat 2 (w + 1)) }, false)

/-- Entries invalidated and unlocked where a condition holds (R383). -/
def Core.btmDrop (c : Core) (p : BtmEntry → Bool) : Core :=
  { c with btm := each c.btm fun (e : BtmEntry) => if e.valid && p e then { e with valid := false, lock := false } else e }

/-- A block of a block-translation command is malformed (R382): `w` is the size of a list entry, `list` whether it has a
list. -/
def btmBad (m : Mach) (g : Fin 256) (ws : List Word) (w : Nat) (lock mode : Bool) : Bool :=
  let w0 := blkW ws 0
  let n := wf w0 0 11
  let md := wf w0 17 2
  let a := wf (blkW ws 3) 0 22
  wf w0 11 5 ≠ 0 || wf w0 19 13 ≠ 0 || wf w0 48 16 ≠ 0 || (!lock && wb w0 16) || (!mode && md ≠ 0) || md = 3 ||
  (md ≠ 1 && wf w0 32 16 ≠ 0) || !hiZero ws 2 33 || (wb (blkW ws 2) 32 && !barOk m g (blkW ws 2)) ||
  !hiZero ws 3 22 || (List.range 4).any (fun k => blkW ws (4 + k) ≠ 0) ||
  (if md = 0 then n = 0 || 1024 < n || a % w ≠ 0 || !inSpad a (w * n) else n ≠ 0 || a ≠ 0)

/-- A block-translation command: applied whole at issue; the report, the arrival and the token follow as
COMMAND_COMPLETE (R384). `f` takes the list's entries as 64-bit words and gives the core and NOTINST. -/
def btmCmd (i : Instr) (w : Nat) (lock mode : Bool) (f : List Word → List Word → Core → Core × Nat) : State → Out :=
  asParcel i
    (fun g m => asBlock m g 64 fun m base ws =>
      if btmBad m g ws w lock mode then .fail .cmdMalformed
      else
        let n := wf (blkW ws 0) 0 11
        let a := wf (blkW ws 3) 0 22
        let r := m.portRead (m.ctxOf g) g false a (w * n)
        if !r.2 then .wait r.1
        else
          let m := r.1
          let es := (List.range n).map fun k => BitVec.ofNat 64 (leVal (Memory.read (m.core g).spad (a + w * k) w))
          let x := f ws es (m.core g)
          let o := { mkOp m g i (engineOf g) base ws (wb (blkW ws 2) 32) with fin := true, idx := x.2 }
          .done ((m.onCore g fun _ => x.1).startOp o))
    (asIssued i) noWork

/-- BTLD: keys and handles installed in list order (R166, R383). -/
def execBtld (t : Tok) (sa : Fin 32) : State → Out :=
  btmCmd (.btld t sa) 8 false false fun _ es c =>
    es.foldl (fun (x : Core × Nat) e =>
      let r := x.1.btmInstall (e.extractLsb' 0 16) (e.extractLsb' 16 16) (e.extractLsb' 32 32)
      (r.1, x.2 + r.2.toNat)) (c, 0)

/-- BTLK: LOCK written on the present entries listed (R383). -/
def execBtlk (t : Tok) (sa : Fin 32) : State → Out :=
  btmCmd (.btlk t sa) 4 true false fun ws es c =>
    (es.foldl (fun (c : Core) e =>
      match c.btmFind (e.extractLsb' 0 16) (e.extractLsb' 16 16) with
      | some i => { c with btm := upd c.btm i fun x => { x with lock := wb (blkW ws 0) 16 } }
      | none => c) c, 0)

/-- BTINV: entries invalidated, by list, by slot or all (R383). -/
def execBtinv (t : Tok) (sa : Fin 32) : State → Out :=
  btmCmd (.btinv t sa) 4 false true fun ws es c =>
    let md := wf (blkW ws 0) 17 2
    let slot : BitVec 16 := (blkW ws 0).extractLsb' 32 16
    (if md = 0 then c.btmDrop fun e => es.any fun x => e.slot = x.extractLsb' 0 16 && e.ord = x.extractLsb' 16 16
     else if md = 1 then c.btmDrop fun e => e.slot = slot else c.btmDrop fun _ => true, 0)

end Sys2Proof.Machine
end

