-- ==== Sys2Proof/Machine/Blocks.lean ====
section
/-!
DEFINITION. Block handles and the bytes they name, and read-modify-write at a memory port
(spec/11_kv_paging.md R294, R295; spec/06_copy_engines.md R183, R184; spec/04_arithmetic.md R138, R140, R144).
-/
namespace Sys2Proof.Machine

/-! ## Block handles -/

/-- Die, pool and index of a handle (R295). -/
def hDie (h : BitVec 32) : Fin 4 := toDie (fld h.toNat 30 2)
def hPool (h : BitVec 32) : Fin 16 := Fin.ofNat 16 (fld h.toNat 26 4)
def hIdx (h : BitVec 32) : Nat := fld h.toNat 0 26

/-- The handle of an index of a pool. -/
def mkHandle (d : Fin 4) (p : Fin 16) (ix : Nat) : BitVec 32 := BitVec.ofNat 32 (d.val * 2 ^ 30 + p.val * 2 ^ 26 + ix)

/-- The pool that a handle names. -/
def Mach.poolOf (m : Mach) (h : BitVec 32) : Pool := (m.die (hDie h)).camp.pools[(hPool h).val]

/-- Bytes of a block of a pool (R294). -/
def Pool.bytes (p : Pool) : Nat := 2 ^ (14 + p.bsz.toNat)

/-- A handle names a block of a pool of context c (R295). -/
def Mach.handleOk (m : Mach) (c : Fin 64) (h : BitVec 32) : Bool :=
  let p := m.poolOf h
  p.pen && p.ctx.toNat = c.val && hIdx h < p.nblk.toNat

/-- The device address of byte x of the block that a handle names (R295). -/
def Mach.blockAt (m : Mach) (h : BitVec 32) (x : Nat) : Nat :=
  let p := m.poolOf h
  let o := hIdx h * p.bytes + x
  frameAddr p.tier.toNat (hDie h).val (p.frame0.toNat + o / 65536) + o % 65536

/-- The address of a handle's block word (R296). -/
def Mach.bwAddr (m : Mach) (h : BitVec 32) : Nat := (m.poolOf h).bwbase.toNat + 4 * hIdx h

/-- Fields of a block word (R296). -/
def bwRef (w : Nat) : Nat := fld w 0 16
def bwCmt (w : Nat) : Bool := bit w 16
def bwErr (w : Nat) : Bool := bit w 17
def bwRet (w : Nat) : Bool := bit w 18
def bwPub (w : Nat) : Bool := bit w 19

/-- The block of an enabled pool that holds byte a of device memory (R294, R295, R309). -/
def Mach.blockOf (m : Mach) (a : Nat) : Option (BitVec 32) :=
  dieNums.findSome? fun d => ((List.range 16).map (Fin.ofNat 16)).findSome? fun (k : Fin 16) =>
    let p := (m.die d).camp.pools[k.val]
    let f := a / 2 ^ 16 % 2 ^ 28
    let x := ((f - p.frame0.toNat) * 65536 + a % 65536) / p.bytes
    if p.pen && p.tier.toNat = a / 2 ^ 46 % 4 && toDie (a / 2 ^ 44) = d && p.frame0.toNat ≤ f && x < p.nblk.toNat then
      some (mkHandle d k x)
    else none

/-- A block is speculative: CMT 0 and REF above 0 (R309). -/
def Mach.speculative (m : Mach) (h : BitVec 32) : Bool :=
  let w := leVal (m.devRead (m.sec (toCtx (m.poolOf h).ctx.toNat)) (m.bwAddr h) 4)
  !bwCmt w && bwRef w ≠ 0

/-- An uncorrectable read of byte a: of a pool's frame, it is reported to the block's Campanile; false where the block is
speculative, so that nothing goes to the host (R309). -/
def Mach.reportBlock (m : Mach) (a : Nat) : Bool × Mach :=
  match m.blockOf a with
  | some h => (!m.speculative h, m.onCamp (hDie h) fun c => { c with reports := c.reports ++ [h] })
  | none => (true, m)

/-- A read of n bytes at a that stayed bad: each block that a bad line lies in is reported once to its Campanile; true where the
host is told, since some bad line lies in no speculative block (R309). -/
def Mach.reportBlocks (m : Mach) (a n : Nat) : Bool × Mach :=
  let bs := (m.devBad.filter fun l => touches 64 a n l && m.named (64 * l)).map fun l => m.blockOf (64 * l)
  let tell := bs.any fun h => match h with | some h => !m.speculative h | none => true
  (tell, (bs.dedup.filterMap id).foldl (fun m h => m.onCamp (hDie h) fun c => { c with reports := c.reports ++ [h] }) m)

/-! ## Operations at a port -/

/-- The operations of a port (R179, R184). -/
inductive PortOp where
  | add | min | max | and | or | xor | swap | cas
  deriving DecidableEq, Repr

/-- An integer of w bits, read signed or unsigned. -/
def intVal (w : Nat) (uns : Bool) (n : Nat) : Int := if !uns && bit n (w - 1) then (n : Int) - 2 ^ w else n

/-- The new value of a w-bit integer under an operation (R140, R184). -/
def intPort (w : Nat) (uns : Bool) (op : PortOp) (cmpv old s : Nat) : Nat :=
  match op with
  | .add => (old + s) % 2 ^ w
  | .min => if intVal w uns s < intVal w uns old then s else old
  | .max => if intVal w uns old < intVal w uns s then s else old
  | .and => Nat.land old s
  | .or => Nat.lor old s
  | .xor => Nat.xor old s
  | .swap => s
  | .cas => if old = cmpv then s else old

/-- The new value of a floating-point element under ADD, MIN or MAX (R138, R144). -/
def fltPort (t : FTy) (op : PortOp) (dv : Lane) (old s : Nat) : Nat :=
  let a := Val.ofF t old
  let b := Val.ofF t s
  let r := match op with
    | .min => a.minmax Val.lesser false dv b
    | .max => a.minmax Val.greater false dv b
    | _ => a.add .rne dv b
  r.toF false t .rne 0

end Sys2Proof.Machine
end

