-- ==== Sys2Proof/Machine/Itinerary.lean ====
section
/-!
DEFINITION. Itineraries as Belfry walks them: entries and their checks, marks and rates, the start and the move of a
shard, the completion of an entry, shared streams, and poisoned weights (spec/09_tiers.md R248, R249, R252 to R258,
R263 to R266).
-/
namespace Sys2Proof.Machine

/-! ## Entries -/

/-- An itinerary entry: its four words (R248). -/
abbrev ItEnt := List Word

def ItEnt.obj (e : ItEnt) : Nat := wf (blkW e 0) 0 20
def ItEnt.sh0 (e : ItEnt) : Nat := wf (blkW e 0) 32 32
def ItEnt.nshr (e : ItEnt) : Nat := wf (blkW e 1) 0 16
def ItEnt.src (e : ItEnt) : Nat := wf (blkW e 1) 16 3
def ItEnt.dst (e : ItEnt) : Nat := wf (blkW e 1) 19 3
def ItEnt.wcls (e : ItEnt) : Fin 4 := Fin.ofNat 4 (wf (blkW e 1) 22 2)
def ItEnt.eva (e : ItEnt) : Bool := wb (blkW e 1) 24
def ItEnt.dmark (e : ItEnt) : Nat := wf (blkW e 1) 32 32
def ItEnt.bar (e : ItEnt) : Word := blkW e 2
def ItEnt.ben (e : ItEnt) : Bool := wb (blkW e 2) 32
def ItEnt.rcore (e : ItEnt) : Fin 256 := toCore (wf (blkW e 2) 33 8)
def ItEnt.ring (e : ItEnt) : Fin 16 := Fin.ofNat 16 (wf (blkW e 2) 41 4)
def ItEnt.gid (e : ItEnt) : Nat := wf (blkW e 3) 0 16
def ItEnt.alt (e : ItEnt) : Nat := wf (blkW e 3) 16 3

/-- The hop that an entry belongs to: 0 writes bulk, 1 stage, 2 a ring; one with a reserved DST is found by hop 0
(R252; log entry 41). -/
def ItEnt.hop (e : ItEnt) : Fin 3 := match ItEnt.dst e with | 0 => 2 | 1 => 1 | _ => 0

/-- An entry that sends its shards to a group (R263). -/
def ItEnt.leader (e : ItEnt) : Bool := ItEnt.src e = 3 && ItEnt.gid e ≠ 0

def Mach.bslot (m : Mach) (d : Fin 4) (s : Fin 4) : BSlot := (m.die d).belfry.slots[s.val]
def Mach.onSlotB (m : Mach) (d : Fin 4) (s : Fin 4) (f : BSlot → BSlot) : Mach :=
  m.onBelfry d fun b => { b with slots := upd b.slots s f }
def Mach.onHop (m : Mach) (d : Fin 4) (s : Fin 4) (h : Fin 3) (f : HopState → HopState) : Mach :=
  m.onSlotB d s fun x => { x with hops := upd x.hops h f }

/-- Entry k of a bound itinerary, as its context reads it (R248, R251). -/
def Mach.itEnt (m : Mach) (b : BSlot) (k : Nat) : ItEnt := wordsOf 4 (m.devRead (m.sec b.ctx) (b.addr.toNat + 32 * k) 32)

/-- Reads of entries of an itinerary, as its context makes them, and of the object records that they name (R248, R365, R366). -/
def Mach.noteItin (m : Mach) (b : BSlot) (ks : List Nat) : Mach :=
  m.noteReads b.ctx (ks.flatMap fun k =>
    let i := ItEnt.obj (m.itEnt b k)
    (b.addr.toNat + 32 * k, 32) :: if i < (m.ctx b.ctx).nobj.toNat then [(m.objAddr b.ctx i, 64)] else [])

/-- The tensor of a copy of an object is there and as R242 wants it: its descriptor. -/
def Mach.copyDesc (m : Mach) (d : Fin 4) (c : Fin 64) (ws : List Word) (t : BitVec 20) : Option Desc × Mach :=
  let r := m.lookDesc (.belfry d) c t
  match descOf r.1 with
  | some x => (if x.rowb = 65536 && x.ltw = 16 && objNsh ws * 2 ^ objLsh ws ≤ x.nrow then some x else none, r.2)
  | none => (none, r.2)

/-- The copy of an object that a source or destination code names: the tensor; none for a ring or the fabric. -/
def copyTensor (ws : List Word) (code : Nat) : Option (BitVec 20) :=
  if 1 ≤ code && code ≤ 3 then some (objTensor ws code) else none

/-- A BAR that an entry arrives at is an 8-byte-aligned cell of a present core, in SPACE 3 (R248, R249). -/
def entBar (m : Mach) (e : ItEnt) : Bool :=
  let a := BitVec.ofNat 64 (wf (ItEnt.bar e) 0 32)
  eaSpace a = 3 && barOk m 0 (ItEnt.bar e)

/-- An entry is malformed (R249; log entry 42 for NSHR 0). -/
def entBad (m : Mach) (d : Fin 4) (b : BSlot) (e : ItEnt) : Bool × Mach :=
  let src := ItEnt.src e
  let dst := ItEnt.dst e
  let ws := m.objRec b.ctx (ItEnt.obj e)
  let plain :=
    wf (blkW e 0) 20 12 ≠ 0 || wf (blkW e 1) 25 7 ≠ 0 || wf (blkW e 2) 45 19 ≠ 0 || wf (blkW e 3) 19 45 ≠ 0 ||
    src = 0 || 4 < src || 2 < dst || src ≤ dst || 4 < ItEnt.alt e || ItEnt.nshr e = 0 || !m.objUsed b.ctx (ItEnt.obj e) ||
    objNsh ws < ItEnt.sh0 e + ItEnt.nshr e || (ItEnt.ben e && !entBar m e) ||
    (dst = 0 && ((m.ring (ItEnt.rcore e) (ItEnt.ring e)).slotsz.toNat * 64 < 65536 * 2 ^ objLsh ws || !m.present (ItEnt.rcore e))) ||
    (ItEnt.gid e ≠ 0 && src < 3) || (src = 4 && (ItEnt.gid e = 0 || ItEnt.alt e ≠ 0)) ||
    (1 ≤ ItEnt.alt e && ItEnt.alt e ≤ 3 && !objRepValid ws (ItEnt.alt e)) || (ItEnt.alt e = 4 && src = 3) ||
    (ItEnt.leader e && (m.group b.ctx (ItEnt.gid e)).isNone)
  if plain then (true, m)
  else
    let ts := [copyTensor ws src, copyTensor ws dst, if ItEnt.alt e = 4 then copyTensor ws (src + 1) else none]
    ts.foldl (fun (x : Bool × Mach) t =>
      match t with
      | none => x
      | some t => let r := x.2.copyDesc d b.ctx ws t; (x.1 || r.1.isNone, r.2)) (false, m)

/-! ## Rates -/

/-- An entry of hop h becomes late (R256). -/
def BSlot.becomeLate (b : BSlot) (h : Fin 3) : BSlot :=
  let b := { b with onrun := 0, hops := upd b.hops h fun x => { x with late := sat32 x.late } }
  if 4 < b.rt then { b with rt := b.rt - 1 }
  else { b with hops := upd b.hops h fun x => { x with lstall := sat32 x.lstall } }

/-- An entry of hop h completes on time (R256). -/
def BSlot.onTime (b : BSlot) (h : Fin 3) : BSlot :=
  let b := { b with hops := upd b.hops h fun x => { x with ontime := sat32 x.ontime } }
  if b.onrun + 1 = 64 then { b with onrun := 0, rt := if b.rt < 16 then b.rt + 1 else b.rt }
  else { b with onrun := b.onrun + 1 }

/-- The state of entry k of an itinerary. -/
def BSlot.ent (b : BSlot) (k : Nat) : EntState := b.ents.getD k ⟨false, none, 0, false, false, []⟩
def BSlot.onEnt (b : BSlot) (k : Nat) (f : EntState → EntState) : BSlot := { b with ents := b.ents.modify k f }

/-- The entries that a subscriber's count n demands, in order, become late unless they have completed (R255, R256). -/
def Mach.demand1 (m : Mach) (b : BSlot) (n : Nat) : BSlot :=
  (List.range b.ents.length).foldl (fun (b : BSlot) k =>
    let e := m.itEnt b k
    let x := b.ent k
    if ItEnt.dmark e ≠ 0 && ItEnt.dmark e ≤ n && !x.complete && !x.late then
      (b.onEnt k fun x => { x with late := true }).becomeLate (ItEnt.hop e)
    else b) b

/-- A mark from core g reaches Belfry of its die: it counts for the itineraries that it was sent to, those of the ITGOs `runs`
(R255). -/
def Mach.takeMark (m : Mach) (g : Fin 256) (runs : List Nat) : Mach :=
  let d := dieOf g
  let k : Fin 64 := Fin.ofNat 64 g.val
  let m := dieNums.foldl (fun m (s : Fin 4) =>
    let b := m.bslot d s
    if b.running && runs.contains b.run then
      let m := m.noteItin b (List.range b.nent)
      let n := b.marks[k.val] + 1
      let b := { b with marks := put b.marks k n }
      m.onSlotB d s fun _ => m.demand1 b n
    else m) m
  m.setRates d

/-! ## Poisoned weights -/

/-- A shard of an entry is poisoned: the object's record and the status record say so, the launch ends, and the host is
told; `wh` is the frame whose read failed, or, where no read did, the binding slot, and none where the host is not told
(R266, R228, R309, R367; log entry 96). -/
def Mach.poisonShard (m : Mach) (d : Fin 4) (s : Fin 4) (h : Fin 3) (k : Nat) (wh : Option Nat) : Mach :=
  let b := m.bslot d s
  let e := m.itEnt b k
  let a := m.objAddr b.ctx (ItEnt.obj e)
  let m := if m.objUsed b.ctx (ItEnt.obj e) then
      m.ctxWrite b.ctx a (wordBytes (setF (blkW (m.objRec b.ctx (ItEnt.obj e)) 0) 11 1 1)) else m
  let m := m.onSlotB d s fun b =>
    { b with poison := true, pent := if b.poison then b.pent else BitVec.ofNat 32 k }
  let m := m.onHop d s h fun x => { x with psn := sat32 x.psn }
  (match wh with | some f => m.errRecord 4 b.ctx d f | none => m).abort b.ctx 4

/-! ## Starting a shard -/

/-- Some open shard of the package fills tile y of the copy of object i in a tier, and has not written it (R252). -/
def Mach.filling (m : Mach) (c : Fin 64) (i tier y : Nat) : Bool :=
  dieNums.any fun d =>
    (m.die d).belfry.shards.any fun (x : Shard) =>
      let b := m.bslot d x.slot
      let e := m.itEnt b x.ent
      let n := 2 ^ objLsh (m.objRec c i)
      x.tag = 0 && b.ctx = c && ItEnt.obj e = i && ItEnt.dst e = tier && (ItEnt.sh0 e + x.sh) * n ≤ y && y < (ItEnt.sh0 e + x.sh + 1) * n

/-- The tiles of shard k of an entry (R242). -/
def shardTiles (ws : List Word) (e : ItEnt) (k : Nat) : List Nat :=
  (List.range (2 ^ objLsh ws)).map fun y => (ItEnt.sh0 e + k) * 2 ^ objLsh ws + y

/-- The first source tile of a shard that is neither present nor the target of an open fill (R252). -/
def Mach.missing (m : Mach) (d : Fin 4) (c : Fin 64) (t : BitVec 20) (x : Desc) (i tier : Nat) :
    List Nat → Option Nat × Mach
  | [] => (none, m)
  | y :: ys =>
    let r := m.lookTile (.belfry d) c t x.ttab y
    if (r.2.entryAddr r.1).isSome || r.2.filling c i tier y then r.2.missing d c t x i tier ys else (some y, r.2)

/-- The tiles of a shard that are not present in the destination copy (R252, R253). -/
def Mach.absent (m : Mach) (c : Fin 64) (ttab : Nat) (ys : List Nat) : List Nat :=
  ys.filter fun y => (m.entryAddr (m.devW (m.sec c) (ttab + 8 * y))).isNone

/-- Frames of a stack that started shards are still to pop (R252). -/
def Mach.promisedFrames (m : Mach) (c : Fin 64) (own : Fin 4) (tier : Nat) : Nat :=
  (dieNums.flatMap fun d => (m.die d).belfry.shards.map fun (x : Shard) =>
    let b := m.bslot d x.slot
    let e := m.itEnt b x.ent
    if b.ctx = c && ItEnt.dst e = tier && objOwner (m.objRec c (ItEnt.obj e)) = own then x.fresh.length else 0).sum

/-- Causes of a stall (R258). -/
inductive Stall where
  | window | evict
  deriving DecidableEq, Repr

/-- A stall of the next shard of a hop, counted once for that shard (R254, R258). `stalled` keeps bit 0 for WINDOW_FULL
and bit 1 for EVICT_WAIT. -/
def Mach.stall (m : Mach) (d : Fin 4) (s : Fin 4) (h : Fin 3) (c : Stall) : Mach :=
  m.onHop d s h fun x =>
    match c with
    | .window => if bit x.stalled 0 then x else { x with stalled := x.stalled + 1, wfull := sat32 x.wfull }
    | .evict => if bit x.stalled 1 then x else { x with stalled := x.stalled + 2, evw := sat32 x.evw }

/-- A shard is in flight: its data is not in place, or a member has not accepted it (R254, R263). -/
def Mach.flies (m : Mach) (x : Shard) : Bool := x.tag = 0 || m.sending x.tag

/-- Bytes in flight of a hop and class of a slot (R254). -/
def Mach.inFlight (m : Mach) (d : Fin 4) (s : Fin 4) (h : Fin 3) (c : Fin 4) : Nat :=
  (((m.die d).belfry.shards.filter fun (x : Shard) => m.flies x && x.slot = s && x.hop = h && x.cls = c).map
    fun (x : Shard) => x.bytes).sum

/-- The next entry of a hop at or after entry k. -/
def Mach.nextEnt (m : Mach) (b : BSlot) (h : Fin 3) (k : Nat) : Option Nat :=
  ((List.range b.nent).drop k).find? fun j => ItEnt.hop (m.itEnt b j) = h

/-- The shard is opened: it is in flight, and the hop stands at the next (R252). -/
def Mach.openShard (m : Mach) (d : Fin 4) (s : Fin 4) (h : Fin 3) (k n bytes : Nat) (e : ItEnt) (claim : Option Nat)
    (fresh : List Nat) : Mach :=
  let last := n + 1 = ItEnt.nshr e
  let id := m.nextId
  let m := if n = 0 then
      ({ m with nextId := id + 1 }).onSlotB d s fun b =>
        { (b.onEnt k fun x => { x with sid := some id }) with started := sat32 b.started }
    else m
  let m := m.onBelfry d fun b =>
    { b with shards := b.shards ++
        [⟨s, h, k, n, ItEnt.wcls e, bytes, claim, fresh, 0, if ItEnt.src e = 4 then some [] else none, false⟩] }
  m.onHop d s h fun x =>
    { x with ent := if last then k + 1 else k, sh := if last then 0 else n + 1, seen := !last, stalled := 0, stop := none }

/-- A hop reads entry k to start it: it checks the entry and, for a leader, reads its group (R249, R336); true where the
entry is malformed. -/
def Mach.readEnt (m : Mach) (d : Fin 4) (s : Fin 4) (h : Fin 3) (k : Nat) : Bool × Mach :=
  let b := m.bslot d s
  let e := m.itEnt b k
  let r := entBad (if ItEnt.leader e then m.noteGroup b.ctx (ItEnt.gid e) else m) d b e
  let dsts := if ItEnt.leader e then (m.group b.ctx (ItEnt.gid e)).getD [] else []
  (r.1, (r.2.onSlotB d s fun b => b.onEnt k fun x => { x with dsts := dsts }).onHop d s h fun x =>
    { x with ent := k, sh := 0, seen := true })

/-! ## Leaders -/

/-- The place of an entry among those of its itinerary that lead, or that follow, a group (R264). -/
def Mach.ordinal (m : Mach) (b : BSlot) (k : Nat) (gid src : Nat) : Nat :=
  ((List.range k).filter fun j => let e := m.itEnt b j; ItEnt.gid e = gid && ItEnt.src e = src).length

/-- The header fields by which a member matches a shard: ADDR holds the byte offset, the size and the ordinal of the
entry, COUNT the shard, STREAM the group (R264; log entry 43). -/
def streamAddr (off lsh k : Nat) : Nat := off + lsh * 2 ^ 24 + k % 2 ^ 20 * 2 ^ 28

/-- Messages to every member of the group of entry k, as its hop read it: shard n in pieces of 4,096 bytes, or one poison
notice (R263, R265, R336). -/
def Mach.sendShard (m : Mach) (d : Fin 4) (s : Fin 4) (k n : Nat) (data : Option (List Byte)) (tag : Nat) : Mach :=
  let b := m.bslot d s
  let e := m.itEnt b k
  let o := m.ordinal b k (ItEnt.gid e) 3
  let lsh := objLsh (m.objRec b.ctx (ItEnt.obj e))
  (b.ent k).dsts.foldl (fun m p =>
    let msg (kind off : Nat) (bs : List Byte) : FMsg :=
      m.mkMsg kind b.ctx p.1 (BitVec.ofNat 8 (dieOf p.2).val) (BitVec.ofNat 16 (ItEnt.gid e)) (streamAddr off lsh o) n 0 bs
    match data with
    | none => m.send d tag { msg 8 0 [] with dcore := BitVec.ofNat 8 p.2.val }
    | some bs => (List.range (bs.length / 4096)).foldl (fun m j => m.send d tag (msg 5 (4096 * j) ((bs.drop (4096 * j)).take 4096))) m) m

/-- A shard that its own Belfry poisons: a leader's members get a notice (R265, R266). -/
def Mach.poisonOwn (m : Mach) (d : Fin 4) (s : Fin 4) (h : Fin 3) (k n : Nat) (wh : Option Nat) : Mach :=
  (m.sendShard d s k n none 0).poisonShard d s h k wh

/-! ## Starting the next shard -/

/-- The next shard of a hop moves data into a ring: the ring's claim, as RNGWE makes it (R252 to R254). -/
def Mach.startRing (m : Mach) (d : Fin 4) (s : Fin 4) (h : Fin 3) (k n bytes : Nat) (e : ItEnt) (room : Bool) : Mach :=
  let g := ItEnt.rcore e
  let r := ItEnt.ring e
  let c := (m.bslot d s).ctx
  let w := Who.shard d s h k n
  if !room then (if m.admits g c w && m.ringFree g r .we w then m.stall d s h .window else m)
  else
    let x := m.unitRing g r .we c w fun m => m.onRing g r fun q => (q.grant .we).2
    if x.2 then x.1.openShard d s h k n bytes e (some (m.ring g r).pclaim.toNat) [] else x.1.stall d s h .window

/-- The next shard of a hop fills a copy: a request to the owner's Belfry, which waits its turn (R252, R260, R262, R266). -/
def Mach.startFill (m : Mach) (d : Fin 4) (s : Fin 4) (h : Fin 3) (k n bytes : Nat) (e : ItEnt) (room : Bool) : Mach :=
  let c := (m.bslot d s).ctx
  let i := ItEnt.obj e
  let dst := ItEnt.dst e
  let ws := m.objRec c i
  let own := objOwner ws
  let rank := hopRank own d s (h.val + 1) k n
  let ttab := match descOf (m.lookDesc (.belfry d) c (objTensor ws dst)).1 with | some x => x.ttab | none => 0
  let ys := shardTiles ws e n
  let m := m.noteReads c (ys.map fun y => (ttab + 8 * y, 8))
  let need := m.absent c ttab ys
  let frames := need.length + m.promisedFrames c own dst ≤ ((m.ctx c).fcnt[(stackIx own dst).val]).toNat
  let me : FillWait := ⟨c, i, dst, d, s, h⟩
  if !room then (if frames then m.stall d s h .window else m)
  else if objPoison ws then (if m.arbiter own rank then (m.accepts own rank).poisonOwn d s h k n (some s.val) else m)
  else if !frames then m.stall d s h .evict
  else if !m.arbiter own rank || !m.fillTurn own me then m
  else
    let m := m.accepts own rank
    match m.fillReq c i dst with
    | none =>
      (m.onBelfry own fun b => { b with fills := if b.fills.contains me then b.fills else b.fills ++ [me] }).stall d s h .evict
    | some m => (m.onBelfry own fun b => { b with fills := b.fills.filter (· ≠ me) }).openShard d s h k n bytes e none (m.absent c ttab ys)

/-- The next shard of a hop starts, or stalls, or stops the hop on a tile (R252 to R254, R260, R266). -/
def Mach.startShard (m : Mach) (d : Fin 4) (s : Fin 4) (h : Fin 3) : Mach :=
  let b := m.bslot d s
  let x := b.hops[h.val]
  if !b.running || x.stop.isSome then m
  else match m.nextEnt b h x.ent with
  | none => m
  | some k =>
    let m := m.noteItin b ((List.range (k + 1)).drop x.ent)
    let fst := !(x.seen && k = x.ent)
    let chk := if fst then m.readEnt d s h k else (false, m)
    let m := chk.2
    let e := m.itEnt b k
    let n := if fst then 0 else x.sh
    let c := b.ctx
    if chk.1 then m.abort c 1
    else
      let i := ItEnt.obj e
      let ws := m.objRec c i
      let src := ItEnt.src e
      let bytes := 65536 * 2 ^ objLsh ws
      let fl := m.inFlight d s h (ItEnt.wcls e)
      let room := fl = 0 || fl + bytes ≤ (b.win[h.val])[(ItEnt.wcls e).val] * 65536
      let t := objTensor ws src
      let sd := if src = 1 || src = 2 then m.copyDesc d c ws t else (none, m)
      let mis := match sd.1 with
        | some x => sd.2.missing d c t x i src (shardTiles ws e n)
        | none => (none, sd.2)
      let m := mis.2
      match mis.1 with
      | some y =>
        let r := m.stopped c t y
        r.2.onHop d s h fun x => { x with stop := r.1 }
      | none => if ItEnt.dst e = 0 then m.startRing d s h k n bytes e room else m.startFill d s h k n bytes e room

/-! ## Moving a shard -/

/-- A read that stays bad: the frame, and whether the host is told (R309). -/
abbrev BadRead := Nat × Bool

/-- A tile read by Belfry for context c: its bytes, whether the read was retried, and the frame of a read that stayed bad, which
the Campanile of its block hears of; or none where the tile is not present (R265, R309, R366). -/
def Mach.tileRead (m : Mach) (d : Fin 4) (c : Fin 64) (t : BitVec 20) (ttab y : Nat) :
    Option (List Byte × Bool × Option BadRead) × Mach :=
  let r := m.lookTile (.belfry d) c t ttab y
  match r.2.entryAddr r.1 with
  | none => (none, r.2)
  | some a =>
    let hit := r.2.devGlitch.any (touches 64 a 65536)
    let q := r.2.access c a 65536
    if r.2.badAt a 65536 then
      let w := q.2.reportBlocks a 65536
      (some (q.1, true, (m.frameOf a).map fun p => (p.2, w.1)), w.2)
    else (some (q.1, hit, none), q.2)

/-- The tiles of a shard read from one copy, in order: whether a read was retried, and their bytes with the first read that
stayed bad, or the first tile that is not present. -/
def Mach.tilesRead (m : Mach) (d : Fin 4) (c : Fin 64) (t : BitVec 20) (ttab : Nat) :
    List Nat → Bool × Except Nat (List (List Byte) × Option BadRead) × Mach
  | [] => (false, .ok ([], none), m)
  | y :: ys =>
    let r := m.tileRead d c t ttab y
    match r.1 with
    | none => (false, .error y, r.2)
    | some (bs, re, bad) =>
      let q := r.2.tilesRead d c t ttab ys
      (re || q.1, q.2.1.map (fun x => (bs :: x.1, bad.or x.2)), q.2.2)

/-- The table of a copy of an object. An alternate whose descriptor is not usable, which R249 does not test, has its table at
address 0; this is the model's choice (R249, R265; log entry 120). -/
def Mach.tabOf (m : Mach) (d : Fin 4) (c : Fin 64) (t : BitVec 20) : Nat :=
  match descOf (m.lookDesc (.belfry d) c t).1 with | some x => x.ttab | none => 0

/-- What reading a shard comes to; `bad` names the frame whose read stayed bad, where the host is told. -/
inductive ShardData where
  | got (tiles : List (List Byte))
  | wait
  | absent (t : BitVec 20) (y : Nat)
  | bad (frame : Option Nat)

/-- ECC_RETRY of a shard, counted once (R258, R265). -/
def Mach.noteRetry (m : Mach) (d : Fin 4) (x : Shard) (re : Bool) : Mach :=
  if re && !x.eccr then
    (m.onHop d x.slot x.hop fun h => { h with eccr := sat32 h.eccr }).onBelfry d fun b =>
      { b with shards := b.shards.map fun (y : Shard) => if y = x then { y with eccr := true } else y }
  else m

/-- The data of a shard from its source, or from its alternate after a lasting error, and whether the source's read was
retried (R253, R265). -/
def Mach.shardData (m : Mach) (d : Fin 4) (x : Shard) : ShardData × Bool × Mach :=
  let b := m.bslot d x.slot
  let c := b.ctx
  let e := m.itEnt b x.ent
  let i := ItEnt.obj e
  let ws := m.objRec c i
  let ys := shardTiles ws e x.sh
  match x.rx with
  | some bs =>
    if bs.length < x.bytes then (.wait, false, m)
    else (.got ((List.range ys.length).map fun k => (bs.drop (65536 * k)).take 65536), false, m)
  | none =>
    let t := objTensor ws (ItEnt.src e)
    let r := m.tilesRead d c t (m.tabOf d c t) ys
    let tell (f : BadRead) : Option Nat := if f.2 then some f.1 else none
    let re := r.1
    let m := r.2.2
    match r.2.1 with
    | .error y => (if m.filling c i (ItEnt.src e) y then .wait else .absent t y, re, m)
    | .ok (tiles, none) => (.got tiles, re, m)
    | .ok (_, some f) =>
      if ItEnt.alt e = 0 then (.bad (tell f), re, m)
      else
        let t := if ItEnt.alt e = 4 then objTensor ws (ItEnt.src e + 1) else objRep ws (ItEnt.alt e)
        let q := m.tilesRead d c t (m.tabOf d c t) ys
        match q.2.1 with
        | .error y => (.absent t y, re, q.2.2)
        | .ok (tiles, none) => (.got tiles, re, q.2.2)
        | .ok (_, some f) => (.bad (tell f), re, q.2.2)

/-- A tile written to a copy in bulk or stage: a frame popped, the bytes, then the entry with P 1; a tile already
present is skipped (R244, R253). None where no frame is left. -/
def Mach.putTile (m : Mach) (c : Fin 64) (own : Fin 4) (tier ttab y : Nat) (bs : List Byte) : Option Mach :=
  let m := m.noteReads c [(ttab + 8 * y, 8)]
  if (m.entryAddr (m.devW (m.sec c) (ttab + 8 * y))).isSome then some m
  else
    match m.popFrame c own tier with
    | none => none
    | some (f, m) =>
      let m := m.ctxWrite c (frameAddr tier own.val f) bs
      some (m.ctxWrite c (ttab + 8 * y) (leBytes 8 (1 + tier * 2 + own.val * 8 + f % 2 ^ 30 * 64)))

/-- The tiles of a shard written to a copy, in order. -/
def Mach.putTiles (m : Mach) (c : Fin 64) (own : Fin 4) (tier ttab : Nat) : List (Nat × List Byte) → Option Mach
  | [] => some m
  | (y, bs) :: rest => (m.putTile c own tier ttab y bs).bind fun m => m.putTiles c own tier ttab rest

/-- Belfry of die d arrives at the BAR of entry e, the n-th to start, for context c: at once, or the port keeps the arrival in
its place (R149, R213, R253). -/
def Mach.postBar (m : Mach) (d : Fin 4) (c : Fin 64) (n : Nat) (e : ItEnt) : Mach :=
  if !ItEnt.ben e then m
  else
    match m.barOf 0 (ItEnt.bar e) true with
    | none => m
    | some (t, a) =>
      let w := Who.ent d n
      if m.admits t c w then (m.dequeue t c w).arrive t a c
      else ({ m with arrivals := m.arrivals ++ [⟨t, a, w, c⟩] } : Mach).enqueue t c w

/-- The entry of a moved shard has all its shards moved: it completes (R253, R256, R261). -/
def Mach.completeEnt (m : Mach) (d : Fin 4) (s : Fin 4) (k : Nat) : Mach :=
  let b := m.bslot d s
  let c := b.ctx
  let e := m.itEnt b k
  let h := ItEnt.hop e
  let x := b.ent k
  let src := ItEnt.src e
  let m := if x.users && src < 3 then m.useCopy c (ItEnt.obj e) src false else m
  let m := if ItEnt.eva e && src < 3 then m.evictReq c (ItEnt.obj e) src else m
  let m := m.postBar d c (x.sid.getD 0) e
  let m := m.onSlotB d s fun b =>
    let b := if x.late then b else b.onTime h
    let b := { (b.onEnt k fun x => { x with complete := true }) with done := sat32 b.done }
    { b with running := !b.ents.all fun x => x.complete }
  m.setRates d

/-- The owner's Belfry takes the requests that an entry's completion makes (R253, R262). -/
def Mach.endArbiter (m : Mach) (d : Fin 4) (s : Fin 4) (k : Nat) : Option (Fin 4 × Nat) :=
  let b := m.bslot d s
  let e := m.itEnt b k
  let own := objOwner (m.objRec b.ctx (ItEnt.obj e))
  if ItEnt.src e < 3 && ((b.ent k).users || ItEnt.eva e) then
    some (own, hopRank own d s ((ItEnt.hop e).val + 1) k 65536)
  else none

/-- A shard has moved: its fill completes or its slot is published, and its entry may complete (R253, R260). -/
def Mach.finishShard (m : Mach) (d : Fin 4) (x : Shard) : Mach :=
  let b := m.bslot d x.slot
  let e := m.itEnt b x.ent
  let m := m.onBelfry d fun b => { b with shards := b.shards.erase x }
  let m := m.onSlotB d x.slot fun b => b.onEnt x.ent fun y => { y with moved := y.moved + 1 }
  let b' := m.bslot d x.slot
  if (b'.ent x.ent).moved = ItEnt.nshr e && b.running then m.completeEnt d x.slot x.ent else m

/-- The last shard of an entry, if this one moves. -/
def lastShard (b : BSlot) (x : Shard) (e : ItEnt) : Bool := (b.ent x.ent).moved + 1 = ItEnt.nshr e

/-- The shard's data written at its destination, tiles, or a ring slot that is then published in shard order, as RNGPUB
does; false where it is not written yet, since an earlier slot is to be published, the ring's port keeps the request, or a
frame is wanting (R149, R213, R253). -/
def Mach.landShard (m : Mach) (d : Fin 4) (x : Shard) (tiles : List (List Byte)) : Mach × Bool :=
  let b := m.bslot d x.slot
  let c := b.ctx
  let e := m.itEnt b x.ent
  let i := ItEnt.obj e
  let ws := m.objRec c i
  match x.claim with
  | some n =>
    let g := ItEnt.rcore e
    let r := ItEnt.ring e
    let w := Who.shard d x.slot x.hop x.ent x.sh
    let earlier := ((m.die d).belfry.shards.takeWhile fun y => y ≠ x).any fun y =>
      y.slot = x.slot && y.hop = x.hop && y.tag = 0 && (let f := m.itEnt b y.ent; ItEnt.rcore f = g && ItEnt.ring f = r)
    if earlier then (m, false)
    else if !m.admits g c w then (m.enqueue g c w, false)
    else
      let m := m.dequeue g c w
      let q := m.ring g r
      let m := m.wspad g (q.base.toNat + 64 * q.slotsz.toNat * (n % q.nslot.toNat)) tiles.flatten
      let m := { m.onRing g r fun q => { q with ppub := q.ppub + 1 } with touched := (g, 0x400000 + r.val) :: m.touched }
      (m.serveRing g r .wf (m.core g).ringWaits.length, true)
  | none =>
    let dst := ItEnt.dst e
    let t := objTensor ws dst
    match m.putTiles c (objOwner ws) dst (m.tabOf d c t) ((shardTiles ws e x.sh).zip tiles) with
    | some m => (m.fillDone c i dst, true)
    | none => (m, false)

/-- A shard whose data is in place and whose members have accepted it ends, and with the last one its entry, whose requests
come to the owner's Belfry in their turn (R253, R262). -/
def Mach.endShard (m : Mach) (d : Fin 4) (x : Shard) : Mach :=
  let b := m.bslot d x.slot
  let e := m.itEnt b x.ent
  match (if lastShard b x e then m.endArbiter d x.slot x.ent else none) with
  | some p => if m.arbiter p.1 p.2 then (m.accepts p.1 p.2).finishShard d x else m
  | none => m.finishShard d x

/-- A started shard moves, as far as it can: its data is read and written, a leader's is sent, and it ends once every
member has accepted it (R253, R263 to R266). A shard that has landed has a `tag`. -/
def Mach.moveShard (m : Mach) (d : Fin 4) (x : Shard) : Mach :=
  let b := m.bslot d x.slot
  let e := m.itEnt b x.ent
  let m := if b.running then m.noteItin b [x.ent] else m
  if !b.running || (b.hops[x.hop.val]).stop.isSome then m
  else if x.tag ≠ 0 then (if m.sending x.tag then m else m.endShard d x)
  else
    let r := m.shardData d x
    let m := r.2.2.noteRetry d x r.2.1
    let x := { x with eccr := x.eccr || r.2.1 }
    match r.1 with
    | .wait => m
    | .absent t y =>
      let q := m.stopped b.ctx t y
      q.2.onHop d x.slot x.hop fun h => { h with stop := q.1 }
    | .bad f => m.poisonOwn d x.slot x.hop x.ent x.sh f
    | .got tiles =>
      let q := m.landShard d x tiles
      if !q.2 then q.1
      else
        let tag := q.1.nextId + 1
        let y := { x with tag := tag, fresh := [] }
        let m := ({ q.1 with nextId := q.1.nextId + 1 }).onBelfry d fun b =>
          { b with shards := b.shards.map fun (z : Shard) => if z = x then y else z }
        if ItEnt.leader e && !(b.ent x.ent).dsts.isEmpty then
          (m.sendShard d x.slot x.ent x.sh (some tiles.flatten) tag).onHop d x.slot x.hop fun h => { h with fabp := sat32 h.fabp }
        else m.endShard d y

/-! ## Members -/

/-- The die that a message for Belfry names: KIND 5 by its number, a poison notice by a core of it (R337; log entry 43). -/
def belfryDie (x : FMsg) : Fin 4 := if x.kind = 8 then dieOf (toCore x.dcore.toNat) else toDie x.dcore.toNat

/-- The started shard of a member that a message matches (R264). -/
def Mach.matchShard (m : Mach) (x : FMsg) : Option (Fin 4 × Shard) :=
  let d := belfryDie x
  ((m.die d).belfry.shards.find? fun y =>
    let b := m.bslot d y.slot
    let e := m.itEnt b y.ent
    b.running && b.ctx = x.ctx && ItEnt.src e = 4 && ItEnt.gid e = x.stream.toNat && y.sh = x.count.toNat &&
    m.ordinal b y.ent (ItEnt.gid e) 4 % 2 ^ 20 = x.addr.toNat / 2 ^ 28).map fun y => (d, y)

/-- A message for Belfry, at its port: its fate in the order of R337 and R339; held while no shard matches. -/
def Mach.belfryMsg (m : Mach) (x : FMsg) (apply : Mach → Fin 4 → Shard → Mach) : Mach :=
  if !m.arrives x then m
  else if x.resv then m.reservedMsg x
  else if x.sec ≠ m.sec x.ctx then (m.errRecord 8 x.ctx (belfryDie x) x.dcore.toNat).drop x
  else
    match m.matchShard x with
    | none => m.holdMsg x none
    | some (d, y) => apply m d y

/-- A piece of a leader's shard: taken in the order of its offsets; a shard of another size is poisoned (R264, R340). -/
def Mach.takeShard (m : Mach) (x : FMsg) : Mach :=
  m.belfryMsg x fun m d y =>
    let b := m.bslot d y.slot
    let e := m.itEnt b y.ent
    if fld x.addr.toNat 24 4 ≠ objLsh (m.objRec b.ctx (ItEnt.obj e)) then (m.taken x).poisonShard d y.slot y.hop y.ent (some y.slot.val)
    else
      let have' := y.rx.getD []
      if fld x.addr.toNat 0 24 ≠ have'.length then m.holdMsg x none
      else
        let m := (m.taken x).noteBeats x d y.slot.val
        m.onBelfry d fun b => { b with shards := b.shards.map fun (z : Shard) => if z = y then { z with rx := some (have' ++ payloadOf x) } else z }

/-- A poison notice: the member's matching shard is poisoned (R265, R266). -/
def Mach.takeNotice (m : Mach) (x : FMsg) : Mach :=
  m.belfryMsg x fun m d y => (m.taken x).poisonShard d y.slot y.hop y.ent (some y.slot.val)

end Sys2Proof.Machine
end

