-- ==== Sys2Proof/Machine/AsBelfry.lean ====
section
/-!
DEFINITION. The commands of Belfry, and the events of its hops, marks and messages (spec/09_tiers.md R246, R247, R251 to
R256, R259, R261, R264 to R266; spec/15_reference_a_l.md R392 to R394; spec/16_reference_m_u.md R412, R413).
-/
namespace Sys2Proof.Machine

/-! ## Blocks -/

/-- Words lo to hi − 1 of a block are zero. -/
def zeroWords (ws : List Word) (lo hi : Nat) : Bool := (List.range (hi - lo)).all fun k => blkW ws (lo + k) = 0

/-- The BAR word of a block whose BAREN is bit 32: its upper bits zero, and its cell there where it is used (R175). -/
def barWord (m : Mach) (g : Fin 256) (ws : List Word) : Bool :=
  hiZero ws 2 33 && (!wb (blkW ws 2) 32 || barOk m g (blkW ws 2))

/-- A command whose block breaks a check of its own traps CMD_MALFORMED; one that passes belongs to unit u, which accepts the
commands of one clock in ascending core number (R173, R271, R311, R334, R394). -/
def unitParcel (i : Instr) (n : Nat) (u : UnitKind) (bad : Mach → Fin 256 → List Word → Bool)
    (work : Fin 4 → UnitKind → Mach → Mach) : State → Out :=
  asParcel i
    (fun g m => asBlock m g n fun m base ws =>
      if bad m g ws then .fail .cmdMalformed
      else .done ((m.takesCmd g u).startOp (mkOp m g i u base ws (wb (blkW ws 2) 32))))
    (asIssued i) work

/-- What a command comes to at its unit: the machine, CODE and VALUE. -/
structure CmdOut where
  m : Mach
  code : Nat
  value : BitVec 32

/-- A command that changes nothing and whose VALUE is not stated (R393, R413; log entry 19). -/
def CmdOut.no (m : Mach) (code : Nat) : CmdOut := ⟨m, code, Config.freeValue m.seq⟩

/-- A command applied whole: its result waits to be written. -/
def Mach.applied (r : CmdOut) (k : Nat) : Mach :=
  r.m.onOp k fun o => { o with fin := true, lanes := [BitVec.ofNat 32 r.code, r.value] }

/-- The result word of an operation that has been applied. -/
def resultWord (o : Op) : Word := (o.lanes.getD 1 0) ++ (o.lanes.getD 0 0)

/-- A unit's turn at a command that it applies whole: applied, or completed (R174, R394). -/
def cmdWork (run : Mach → Op → CmdOut) (d : Fin 4) (u : UnitKind) (m : Mach) : Mach :=
  match m.unitOp d u with
  | none => m
  | some o => if o.fin then m.complete o fun m => m.putRes o (resultWord o) else Mach.applied (run m o) o.id

/-! ## Binding slots -/

def itSlot (ws : List Word) : Fin 4 := Fin.ofNat 4 (wf (blkW ws 0) 0 2)
def itWin (ws : List Word) (h c : Nat) : Nat := let k := 4 * h + c; wf (blkW ws (7 + k / 4)) (16 * (k % 4)) 16

/-- An ITBIND block is malformed (R392). -/
def itbindBad (m : Mach) (g : Fin 256) (ws : List Word) : Bool :=
  !hiZero ws 0 3 || !barWord m g ws || !hiZero ws 3 48 || !hiZero ws 4 21 || !hiZero ws 6 48 || !zeroWords ws 10 16 ||
  (if wb (blkW ws 0) 2 then !zeroWords ws 3 10 else wf (blkW ws 3) 0 5 ≠ 0 || wf (blkW ws 6) 0 8 ≠ 0)

/-- An ITGO or ITSTAT block is malformed (R392). -/
def itgoBad (m : Mach) (g : Fin 256) (ws : List Word) : Bool := !hiZero ws 0 2 || !barWord m g ws || !zeroWords ws 3 8

/-- The values of an ITBIND are out of range (R393). -/
def itbindRange (m : Mach) (o : Op) : Bool :=
  let ws := o.blk
  let n := wf (blkW ws 4) 0 21
  let a := wf (blkW ws 3) 0 48
  n = 0 || 2 ^ 20 < n || (List.range 3).any (fun h => (List.range 4).any fun c => itWin ws h c = 0) ||
  (List.range 64).any (fun k => wb (blkW ws 5) k && !m.present (toCore (64 * o.die.val + k))) ||
  !m.named a || !m.named (wf (blkW ws 6) 0 48)

/-- The binding that an ITBIND loads; the final counts of the one that it replaces stay until the next ITGO (R251, R393). -/
def bindOf (old : BSlot) (c : Fin 64) (ws : List Word) : BSlot :=
  { old with
    bound := true, ctx := c, addr := BitVec.ofNat 48 (wf (blkW ws 3) 0 48), nent := wf (blkW ws 4) 0 21,
    subs := blkW ws 5, stat := BitVec.ofNat 48 (wf (blkW ws 6) 0 48),
    win := Vector.ofFn fun h : Fin 3 => Vector.ofFn fun c : Fin 4 => itWin ws h.val c.val }

/-- What stands against a slot for an operation's context: NOTOWN, then, but for ITSTAT, BUSY (R393). -/
def slotBusy (b : BSlot) (c : Fin 64) (busy : Bool) : Option Nat :=
  if b.bound && b.ctx ≠ c then some 5 else if busy && b.running then some 2 else none

/-- ITBIND at Belfry (R251, R393). -/
def doItbind (m : Mach) (o : Op) : CmdOut :=
  let s := itSlot o.blk
  let b := m.bslot o.die s
  let v := BitVec.ofNat 32 s.val
  match slotBusy b o.ctx true with
  | some k => .no m k
  | none =>
    if wb (blkW o.blk 0) 2 then
      (if b.bound then ⟨m.onSlotB o.die s fun _ => BSlot.reset, 1, v⟩ else .no m 4)
    else if itbindRange m o then .no m 3
    else ⟨m.onSlotB o.die s fun b => bindOf b o.ctx o.blk, 1, v⟩

/-- An entry's source copy gets a USERS increment at ITGO (R261). -/
def Mach.readsCopy (m : Mach) (b : BSlot) (e : ItEnt) : Bool :=
  (ItEnt.src e = 1 || ItEnt.src e = 2) && m.objUsed b.ctx (ItEnt.obj e)

/-- The owners of the copies that an itinerary's entries read (R261). -/
def Mach.usersOwners (m : Mach) (b : BSlot) : List (Fin 4) :=
  dieNums.filter fun d => (List.range b.nent).any fun k =>
    let e := m.itEnt b k
    m.readsCopy b e && objOwner (m.objRec b.ctx (ItEnt.obj e)) = d

/-- The USERS increments of an itinerary's entries, in order, and the entries' states before any has started (R261). -/
def Mach.claimUsers (m : Mach) (b : BSlot) : Nat → Nat → Mach × List EntState
  | 0, _ => (m, [])
  | n + 1, k =>
    let e := m.itEnt b k
    let up := m.readsCopy b e
    let r := (if up then m.useCopy b.ctx (ItEnt.obj e) (ItEnt.src e) true else m).claimUsers b n (k + 1)
    (r.1, ⟨up, none, 0, false, false, []⟩ :: r.2)

/-- ITGO at Belfry (R251, R261, R393). -/
def doItgo (m : Mach) (o : Op) : CmdOut :=
  let s := itSlot o.blk
  let b := m.bslot o.die s
  match slotBusy b o.ctx true with
  | some k => .no m k
  | none =>
    if !b.bound then .no m 4
    else
      let m := (m.usersOwners b).foldl (fun m d => m.accepts d (hopRank d o.die s 0 0 0)) m
      let m := m.noteItin b (List.range b.nent)
      let r := m.claimUsers b b.nent 0
      let m := ({ r.1 with nextId := m.nextId + 1 }).onSlotB o.die s fun b =>
        { b with running := true, run := m.nextId, started := 0, done := 0, rt := 16, onrun := 0, poison := false, pent := 0,
                 hops := Vector.replicate 3 HopState.reset, marks := Vector.replicate 64 0, ents := r.2 }
      ⟨m.setRates o.die, 1, BitVec.ofNat 32 b.nent⟩

/-- The status record of a slot, 256 bytes (R259). -/
def Mach.statRecord (m : Mach) (d : Fin 4) (s : Fin 4) : List Byte :=
  let b := m.bslot d s
  let pair (x y : BitVec 32) : List Byte := leBytes 4 x.toNat ++ leBytes 4 y.toNat
  let infl (h : Fin 3) : Nat :=
    (((m.die d).belfry.shards.filter fun (x : Shard) => m.flies x && x.slot = s && x.hop = h).map fun (x : Shard) => x.bytes).sum / 65536
  let hop (h : Fin 3) : List Byte :=
    let x := b.hops[h.val]
    pair x.late x.ontime ++ pair (BitVec.ofNat 32 (infl h)) 0 ++ pair x.lstall x.wfull ++ pair x.eccr x.psn ++
    pair x.fabp x.evw ++ leBytes 24 0
  pair b.started b.done ++
  pair (BitVec.ofNat 32 (b.rt + b.onrun * 2 ^ 8 + b.running.toNat * 2 ^ 16 + b.poison.toNat * 2 ^ 17)) b.pent ++
  hop 0 ++ hop 1 ++ hop 2 ++ leBytes 48 0

/-- ITSTAT at Belfry (R259, R393). -/
def doItstat (m : Mach) (o : Op) : CmdOut :=
  let s := itSlot o.blk
  let b := m.bslot o.die s
  match slotBusy b o.ctx false with
  | some k => .no m k
  | none =>
    if !b.bound then .no m 4 else ⟨m.ctxWrite b.ctx b.stat.toNat (m.statRecord o.die s), 1, b.done⟩

/-! ## Objects -/

def obObj (ws : List Word) : Nat := wf (blkW ws 0) 0 20
def obTier (ws : List Word) : Nat := wf (blkW ws 0) 20 2
def obUnpin (ws : List Word) : Bool := wb (blkW ws 0) 22

/-- An OBJPLACE block is malformed (R412). -/
def objplaceBad (m : Mach) (g : Fin 256) (ws : List Word) : Bool :=
  !hiZero ws 0 20 || !barWord m g ws || !zeroWords ws 6 8

/-- An OBJPIN block is malformed (R412). -/
def objpinBad (m : Mach) (g : Fin 256) (ws : List Word) : Bool :=
  !hiZero ws 0 23 || obTier ws = 0 || obTier ws = 3 || !barWord m g ws || !zeroWords ws 3 8

/-- The image of a record is out of range (R243, R413). -/
def imageBad (i0 i1 i2 : Word) : Bool :=
  6 < wf i0 0 4 || wb i0 7 || wf i0 10 22 ≠ 0 || wf i0 32 32 = 0 || 2 ^ 24 < wf i0 32 32 || wf i1 60 4 ≠ 0 || wb i2 63

/-- The fields of a record that may not change under a copy: LSH, OWNER and NSH, TBULK and TSTAGE (R246). -/
def placeKey (w0 w1 : Word) : Nat × Nat × Nat × Nat := (wf w0 0 4, wf w0 8 2, wf w0 32 32, wf w1 20 40)

/-- OBJPLACE at the owner's Belfry (R246, R413). -/
def doObjplace (m : Mach) (o : Op) : CmdOut :=
  let c := o.ctx
  let i := obObj o.blk
  let i0 := blkW o.blk 3
  let i1 := blkW o.blk 4
  let i2 := blkW o.blk 5
  let a := m.objAddr c i
  if (m.ctx c).nobj.toNat ≤ i || imageBad i0 i1 i2 then .no m 3
  else
    let old := m.objRec c i
    let held := csState (m.cs c i 1) ≠ 0 || csState (m.cs c i 2) ≠ 0
    if objValid old && held && placeKey i0 i1 ≠ placeKey (blkW old 0) (blkW old 1) then .no m 4
    else
      let m := m.ctxWrite c a (wordBytes (setF i0 10 1 1) ++ wordBytes i1 ++ wordBytes i2)
      let m :=
        if objValid old then
          ([1, 2].filter fun t => objHome old t && !wb i0 (4 + (t - 1))).foldl (fun m t => m.evictReq c i t) m
        else m.ctxWrite c (a + 0x18) (leBytes 16 0)
      ⟨m, 1, BitVec.ofNat 32 i⟩

/-- OBJPIN at the owner's Belfry (R247, R413). -/
def doObjpin (m : Mach) (o : Op) : CmdOut :=
  let c := o.ctx
  let i := obObj o.blk
  let t := obTier o.blk
  if (m.ctx c).nobj.toNat ≤ i then .no m 3
  else if !objValid (m.objRec c i) then .no m 4
  else
    let w := m.cs c i t
    let n := csPins w
    if obUnpin o.blk then
      (if n = 0 then ⟨m.stray c, 1, 0⟩
       else ⟨(m.setCs c i t (setF w 4 16 (n - 1))).recheck c i t, 1, BitVec.ofNat 32 (n - 1)⟩)
    else if n = 65535 then .no m 3
    else ⟨m.setCs c i t (setF w 4 16 (n + 1)), 1, BitVec.ofNat 32 (n + 1)⟩

/-! ## Arbitration -/

/-- The Belfries whose arbiters a command needs, and its rank with each: every owner of a copy that an ITGO's itinerary
reads, and the owner of an object (R262, R413). -/
def cmdArbiters (m : Mach) (o : Op) : List (Fin 4 × Nat) :=
  let i := obObj o.blk
  let old := m.objRec o.ctx i
  match o.instr with
  | .itgo .. => (m.usersOwners (m.bslot o.die (itSlot o.blk))).map fun d => (d, hopRank d o.die (itSlot o.blk) 0 0 0)
  | .objplace .. => [(if objValid old then objOwner old else toDie (wf (blkW o.blk 3) 8 2), objRank o.core)]
  | .objpin .. => [(objOwner old, objRank o.core)]
  | _ => []

/-- Belfry's turn at a command, which waits while a later request of this clock came first (R262, R394). -/
def belfryWork (run : Mach → Op → CmdOut) (d : Fin 4) (u : UnitKind) (m : Mach) : Mach :=
  match m.unitOp d u with
  | none => m
  | some o => if !o.fin && !(cmdArbiters m o).all (fun p => m.arbiter p.1 p.2) then m else cmdWork run d u m

/-- A command applied at an object's owner (R262, R413). -/
def atOwner (run : Mach → Op → CmdOut) (m : Mach) (o : Op) : CmdOut :=
  run ((cmdArbiters m o).foldl (fun m p => m.accepts p.1 p.2) (m.noteReads o.ctx [(m.objAddr o.ctx (obObj o.blk), 64)])) o

/-! ## The meanings -/

/-- ITBIND (R392, R393). -/
def execItbind (t : Tok) (sa : Fin 32) : State → Out := unitParcel (.itbind t sa) 128 .belfry itbindBad (cmdWork doItbind)

/-- ITGO (R392, R393). -/
def execItgo (t : Tok) (sa : Fin 32) : State → Out := unitParcel (.itgo t sa) 64 .belfry itgoBad (belfryWork doItgo)

/-- ITSTAT (R392, R393). -/
def execItstat (t : Tok) (sa : Fin 32) : State → Out := unitParcel (.itstat t sa) 64 .belfry itgoBad (cmdWork doItstat)

/-- OBJPLACE (R246, R412). -/
def execObjplace (t : Tok) (sa : Fin 32) : State → Out :=
  unitParcel (.objplace t sa) 64 .belfry objplaceBad (belfryWork (atOwner doObjplace))

/-- OBJPIN (R247, R412). -/
def execObjpin (t : Tok) (sa : Fin 32) : State → Out :=
  unitParcel (.objpin t sa) 64 .belfry objpinBad (belfryWork (atOwner doObjpin))

/-- SHARD_START: a hop of a slot starts its next shard, or notes why it does not (R252). -/
def execShardStart (d : Fin 4) (sl : Fin 4) (h : Fin 3) : State → Out := ready fun m => m.startShard d sl h

/-- SHARD_MOVED: the k-th open shard of a die moves (R253). -/
def execShardMoved (d : Fin 4) (k : Nat) : State → Out :=
  ready fun m => match (m.die d).belfry.shards[k]? with | some x => m.moveShard d x | none => m

/-- DEMAND_MARK: the oldest mark on its way to Belfry of a die reaches it (R255). -/
def execDemandMark (d : Fin 4) : State → Out :=
  ready fun m =>
    match (m.die d).belfry.marks with
    | [] => m
    | x :: rest => (m.onBelfry d fun b => { b with marks := rest }).takeMark x.1 x.2

/-- BELFRY_SHARD: a piece of a leader's shard reaches a member, KIND 5 (R264, R337). -/
def execBelfryShard (msg : FMsg) : State → Out := ready fun m => if msg.kind = 5 then m.takeShard msg else m

/-- POISON_NOTICE: a poison notice reaches a member, KIND 8 (R265, R266, R337). -/
def execPoisonNotice (msg : FMsg) : State → Out := ready fun m => if msg.kind = 8 then m.takeNotice msg else m

end Sys2Proof.Machine
end

