-- ==== Sys2Proof/Machine/Shake.lean ====
section
/-!
DEFINITION. SHAKE256, which the spec names and does not define: the function of FIPS 202 (spec/11_kv_paging.md R307;
spec/14_host_security.md R361, R363; log entry 9, PRESUMED). The constants are computed from the rules that give
them, none is listed.
-/
namespace Sys2Proof.Machine

/-- The shift register of the round constants: polynomials over GF(2) modulo x^8 + x^6 + x^5 + x^4 + 1, times x. -/
def lfsrNext (r : BitVec 8) : BitVec 8 := if r.msb then (r <<< 1) ^^^ 0x71 else r <<< 1

/-- The next seven bits that the register gives, the bit of rank j going to bit 2^j − 1, and the register after. -/
def roundConst (r : BitVec 8) : Word × BitVec 8 :=
  (List.range 7).foldl (fun (p : Word × BitVec 8) j =>
    (if p.2.getLsbD 0 then p.1 ||| (1#64 <<< (2 ^ j - 1)) else p.1, lfsrNext p.2)) (0, r)

/-- Where each lane comes from and by how much it is rotated: n places of the walk that takes (x, y) to
(y, 2x + 3y), the lane met at place t turned by (t + 1)(t + 2)/2. A lane (x, y) has the number 5·y + x. -/
def laneWalk : Nat → Nat → Nat → Nat → List (Nat × Nat × Nat)
  | 0, _, _, _ => []
  | n + 1, t, x, y =>
    (5 * ((2 * x + 3 * y) % 5) + y, 5 * y + x, (t + 1) * (t + 2) / 2 % 64) :: laneWalk n (t + 1) y ((2 * x + 3 * y) % 5)

/-- The parity of column x of the 25 lanes. -/
def columnParity (a : List Word) (x : Nat) : Word :=
  (List.range 5).foldl (fun p y => p ^^^ a.getD (5 * y + x % 5) 0) 0

/-- Lane k after the columns have been mixed in. -/
def mixed (a : List Word) (k : Nat) : Word :=
  a.getD k 0 ^^^ columnParity a (k + 4) ^^^ (columnParity a (k + 1)).rotateLeft 1

/-- Lane k after mixing, turning and moving: lane 0 stays where it is. -/
def moved (a : List Word) (k : Nat) : Word :=
  match (laneWalk 24 0 1 0).find? fun w => w.1 = k with
  | some (_, src, by') => (mixed a src).rotateLeft by'
  | none => mixed a k

/-- One round with the constant c. -/
def sponge1 (a : List Word) (c : Word) : List Word :=
  let b := (List.range 25).map (moved a)
  (List.range 25).map fun k =>
    let row := k / 5 * 5
    b.getD k 0 ^^^ (~~~(b.getD (row + (k + 1 - row) % 5) 0) &&& b.getD (row + (k + 2 - row) % 5) 0) ^^^
      (if k = 0 then c else 0)

/-- n rounds, the register of the constants carried along. -/
def spongeRounds : Nat → BitVec 8 → List Word → List Word
  | 0, _, a => a
  | n + 1, r, a => spongeRounds n (roundConst r).2 (sponge1 a (roundConst r).1)

/-- A message of n blocks of 136 bytes taken into the 25 lanes, 24 rounds after each. -/
def spongeTake : Nat → List Byte → List Word → List Word
  | 0, _, a => a
  | n + 1, bs, a =>
    let block := wordsOf 17 (bs.take 136)
    spongeTake n (bs.drop 136) (spongeRounds 24 1 ((List.range 25).map fun k => a.getD k 0 ^^^ block.getD k 0))

/-- The bytes appended to a message of n bytes: bits 1111, a one, zeros and a one at the end of a block. -/
def shakeTail (n : Nat) : List Byte :=
  let k := 136 - n % 136
  (List.range k).map fun j => (if j = 0 then 0x1F else 0) ||| (if j + 1 = k then 0x80 else 0)

/-- SHAKE256, its first n bytes, for n up to 136. -/
def shake256 (n : Nat) (bs : List Byte) : List Byte :=
  ((spongeTake (bs.length / 136 + 1) (bs ++ shakeTail bs.length) []).flatMap wordBytes).take n

end Sys2Proof.Machine
end

