-- ==== Sys2Proof/Machine/AsCamp.lean ====
section
/-!
DEFINITION. Campanile: block words, free stacks, slot records and the prefix index, its operations, and the events of
its own (spec/11_kv_paging.md R293 to R312; spec/15_reference_a_l.md R374 to R376).
-/
namespace Sys2Proof.Machine

/-! ## Metadata in memory -/

/-- The pool of a handle has failed (R310). -/
def Mach.failPool (m : Mach) (h : BitVec 32) : Mach :=
  m.onCamp (hDie h) fun c => { c with pools := upd c.pools (hPool h) fun p => { p with fail := true } }

/-- n bytes of a pool's metadata: the number, and the machine after the read; a lasting error is noted, so that what needs
the word is given up (R310). -/
def Mach.metaRead (m : Mach) (c : Fin 64) (h : BitVec 32) (a n : Nat) : Nat × Mach :=
  let r := m.access c a n
  (leVal r.1, if m.badAt a n then r.2.onCamp (hDie h) fun c => { c with lost := hPool h :: c.lost } else r.2)

/-- A handle's block word, read and written (R296). -/
def Mach.bw (m : Mach) (c : Fin 64) (h : BitVec 32) : Nat × Mach := m.metaRead c h (m.bwAddr h) 4
/-- The block words of several handles, read one after the other. -/
def Mach.bws (m : Mach) (c : Fin 64) : List (BitVec 32) → List Nat × Mach
  | [] => ([], m)
  | h :: hs =>
    let r := m.bw c h
    let q := r.2.bws c hs
    (r.1 :: q.1, q.2)

def Mach.setBw (m : Mach) (c : Fin 64) (h : BitVec 32) (w : Nat) : Mach := m.ctxWrite c (m.bwAddr h) (leBytes 4 w)

/-- A block word of its fields. -/
def bwOf (ref : Nat) (cmt err ret pub : Bool) : Nat :=
  ref + cmt.toNat * 2 ^ 16 + err.toNat * 2 ^ 17 + ret.toNat * 2 ^ 18 + pub.toNat * 2 ^ 19

/-- CMT of a block set (R304). -/
def Mach.commitBlk (m : Mach) (c : Fin 64) (h : BitVec 32) : Mach :=
  let r := m.bw c h
  r.2.setBw c h (bwOf (bwRef r.1) true (bwErr r.1) (bwRet r.1) (bwPub r.1))

/-- A handle popped from the free stack of a pool (R296). -/
def Mach.popBlk (m : Mach) (c : Fin 64) (d : Fin 4) (p : Fin 16) : BitVec 32 × Mach :=
  let x := (m.die d).camp.pools[p.val]
  let r := m.metaRead c (mkHandle d p 0) (x.flbase.toNat + 4 * (x.fcnt.toNat - 1)) 4
  (BitVec.ofNat 32 r.1,
   r.2.onCamp d fun k => { k with pools := upd k.pools p fun x => { x with fcnt := x.fcnt - 1 } })

/-- A handle pushed onto its pool's free stack (R296). -/
def Mach.pushBlk (m : Mach) (c : Fin 64) (h : BitVec 32) : Mach :=
  let x := m.poolOf h
  (m.ctxWrite c (x.flbase.toNat + 4 * x.fcnt.toNat) (leBytes 4 h.toNat)).onCamp (hDie h) fun k =>
    { k with pools := upd k.pools (hPool h) fun x => { x with fcnt := x.fcnt + 1 } }

/-! ## The prefix index -/

/-- The address of a way of a bucket of die d's index (R307). -/
def Mach.wayAddr (m : Mach) (d : Fin 4) (b w : Nat) : Nat := (m.die d).camp.hibase.toNat + 128 * b + 32 * w

/-- The bucket of a digest (R307). -/
def bucketOf (dg : List Byte) : Nat := leVal (dg.take 3) % 2 ^ 18

/-- An entry of the index: its digest, handle and VALID. -/
def Mach.way (m : Mach) (c : Fin 64) (d : Fin 4) (b w : Nat) : List Byte × BitVec 32 × Bool :=
  let bs := m.devRead (m.sec c) (m.wayAddr d b w) 32
  (bs.take 16, BitVec.ofNat 32 (leVal ((bs.drop 16).take 4)), bit (leVal ((bs.drop 16).take 8)) 32)

/-- The ways of a digest's bucket are read (R307, R365, R366). -/
def Mach.noteWays (m : Mach) (c : Fin 64) (d : Fin 4) (dg : List Byte) : Mach := m.noteReads c [(m.wayAddr d (bucketOf dg) 0, 128)]

/-- The index entries of a handle leave the index: every enabled die's, as a handle may be published on any (R293, R297). -/
def Mach.unpublish (m : Mach) (c : Fin 64) (h : BitVec 32) : Mach :=
  dieNums.foldl (fun m d =>
    if !(m.die d).camp.en then m
    else match (List.range (2 ^ 20)).find? fun k => let e := m.way c d (k / 4) (k % 4); e.2.2 && e.2.1 = h with
    | some k =>
      let a := m.wayAddr d (k / 4) (k % 4)
      (m.noteReads c [(a, 32)]).ctxWrite c a (List.replicate 32 0)
    | none => m) m

/-- The way of a bucket that matches a digest for context c (R307). -/
def Mach.hfind (m : Mach) (c : Fin 64) (d : Fin 4) (dg : List Byte) : Option (BitVec 32) :=
  (List.range 4).findSome? fun w =>
    let e := m.way c d (bucketOf dg) w
    if e.2.2 && e.1 = dg && (m.poolOf e.2.1).ctx.toNat = c.val then some e.2.1 else none

/-! ## Release and references -/

/-- Release of a block whose REF has fallen to zero; `w` is its block word. The read-back of a scrub is a read like any other,
retried once (R297, R366). -/
def Mach.release (m : Mach) (c : Fin 64) (h : BitVec 32) (w : Nat) : Mach :=
  let m := if bwPub w then m.unpublish c h else m
  if bwRet w then m.setBw c h (bwOf 0 false (bwErr w) true false)
  else if bwErr w then
    let n := (m.poolOf h).bytes
    let m := (m.ctxWrite c (m.blockAt h 0) (List.replicate n 0)).noteReads c [(m.blockAt h 0, n)]
    if m.badAt (m.blockAt h 0) n then
      (m.setBw c h (bwOf 0 false true true false)).onCamp (hDie h) fun k => { k with retired := sat32 k.retired }
    else
      ((m.setBw c h 0).pushBlk c h).onCamp (hDie h) fun k => { k with scrub := sat32 k.scrub }
  else (m.setBw c h 0).pushBlk c h

/-- What applying one reference comes to: its code, whether the block was released, the machine (R303). -/
structure RefOut where
  code : Nat
  freed : Bool
  m : Mach

/-- One reference dropped (R303, R297). -/
def Mach.dropRef (m : Mach) (c : Fin 64) (h : BitVec 32) : RefOut :=
  let r := m.bw c h
  let n := bwRef r.1
  if n = 0 then ⟨7, false, r.2⟩
  else if n = 1 then ⟨1, true, r.2.release c h (bwOf 0 (bwCmt r.1) (bwErr r.1) (bwRet r.1) (bwPub r.1))⟩
  else ⟨1, false, r.2.setBw c h (bwOf (n - 1) (bwCmt r.1) (bwErr r.1) (bwRet r.1) (bwPub r.1))⟩

/-- One reference added (R303). -/
def Mach.addRef (m : Mach) (c : Fin 64) (h : BitVec 32) : RefOut :=
  let r := m.bw c h
  let n := bwRef r.1
  if n = 0 then ⟨7, false, r.2⟩
  else if n = 65535 then ⟨6, false, r.2⟩
  else ⟨1, false, r.2.setBw c h (bwOf (n + 1) (bwCmt r.1) (bwErr r.1) (bwRet r.1) (bwPub r.1))⟩

/-- REF := REF + 1, whatever REF is; what a REF above 65,535 reads as is not stated (R305, R308; log entry 109). -/
def Mach.raiseRef (m : Mach) (c : Fin 64) (h : BitVec 32) : Mach :=
  let r := m.bw c h
  let n := if bwRef r.1 = 65535 then (Config.freeValue m.seq).toNat % 65536 else bwRef r.1 + 1
  r.2.setBw c h (bwOf n (bwCmt r.1) (bwErr r.1) (bwRet r.1) (bwPub r.1))

/-- What stands against a list handle: NOTOWN first, then DISABLED (R302). -/
def Mach.handleCode (m : Mach) (c : Fin 64) (h : BitVec 32) : Nat :=
  if !m.handleOk c h then 8 else if !(m.die (hDie h)).camp.en then 12 else 1

/-- The pools whose metadata a change could not read (R310). -/
def lostPools (m : Mach) : List (Fin 4 × Fin 16) :=
  dieNums.flatMap fun d => ((m.die d).camp.lost.dedup).map fun p => (d, p)

/-- A change that met unreadable metadata is given up: the pools fail, and the host is told, also of a pool that had failed
before (R310, R367). -/
def Mach.giveUp (m : Mach) (c : Fin 64) (ps : List (Fin 4 × Fin 16)) : Mach :=
  ps.foldl (fun m p => (m.failPool (mkHandle p.1 p.2 0)).errRecord 6 c p.1 (mkHandle p.1 p.2 0).toNat) m

/-- What a list element does at its block (R303, R304). -/
def Mach.refStep (m : Mach) (c : Fin 64) (h : BitVec 32) (s : RefStep) : RefOut :=
  match s with
  | .add => m.addRef c h
  | .drop => m.dropRef c h
  | .check => let r := m.bw c h; ⟨if bwRef r.1 = 0 then 7 else 1, false, r.2⟩
  | .commit => ⟨1, false, m.commitBlk c h⟩

/-- One list element, or one entry dropped, at the Campanile that owns its block (R302, R303, R310, R311). -/
def Mach.applyRef (m : Mach) (c : Fin 64) (h : BitVec 32) (s : RefStep) : RefOut :=
  let code := m.handleCode c h
  if code ≠ 1 then ⟨code, false, m⟩
  else
    let r := m.refStep c h s
    match lostPools r.m with
    | [] => r
    | ps => ⟨11, false, m.giveUp c ps⟩

/-! ## Slots -/

/-- A slot record (R298). -/
structure Slot where
  tbase : Nat
  cap : Nat
  pool : Fin 16
  ltpb : Nat
  ctx : Nat
  opened : Bool
  quar : Bool
  nct : Nat
  nst : Nat
  deriving DecidableEq, Repr

def Mach.slotAddr (m : Mach) (d : Fin 4) (n : Nat) : Nat := (m.die d).camp.sdbase.toNat + 32 * n

/-- The slot that four words hold (R298). -/
def slotOf (ws : List Word) : Slot :=
  let w := blkW ws 1
  ⟨wf (blkW ws 0) 0 48, wf w 0 17, Fin.ofNat 16 (wf w 17 4), wf w 21 4, wf w 25 6, wb w 31, wb w 32,
   wf (blkW ws 2) 0 32, wf (blkW ws 2) 32 32⟩

/-- The 32 bytes of a slot record (R298). -/
def Slot.bytes (s : Slot) : List Byte :=
  leBytes 8 s.tbase ++
  leBytes 8 (s.cap + s.pool.val * 2 ^ 17 + s.ltpb * 2 ^ 21 + s.ctx * 2 ^ 25 + s.opened.toNat * 2 ^ 31 + s.quar.toNat * 2 ^ 32) ++
  leBytes 8 (s.nct + s.nst * 2 ^ 32) ++ leBytes 8 0

def Mach.slotRead (m : Mach) (c : Fin 64) (d : Fin 4) (n : Nat) : Slot :=
  slotOf (wordsOf 4 (m.devRead (m.sec c) (m.slotAddr d n) 32))
def Mach.slotWrite (m : Mach) (c : Fin 64) (d : Fin 4) (n : Nat) (s : Slot) : Mach := m.ctxWrite c (m.slotAddr d n) s.bytes

/-- A slot is quarantined, and the host is told (R310, R367). -/
def Mach.quarantine (m : Mach) (c : Fin 64) (d : Fin 4) (n : Nat) : Mach :=
  let s := m.slotRead c d n
  if s.quar then m
  else
    ((m.slotWrite c d n { s with quar := true }).onCamp d fun k =>
      { k with qslot := BitVec.ofNat 16 n, qcnt := sat32 k.qcnt }).errRecord 5 c d n

/-- A slot as an operation reads it: a record that stays unreadable is quarantined (R310). -/
def Mach.slotGet (m : Mach) (c : Fin 64) (d : Fin 4) (n : Nat) : Slot × Mach :=
  let a := m.slotAddr d n
  let m := (m.retried a 32).noteWorld c a 32
  let m := if !m.badAt a 32 then m else if (m.slotRead c d n).quar then m.errRecord 5 c d n else m.quarantine c d n
  (m.slotRead c d n, m)

/-- Tokens per block, entries, committed entries (R298). -/
def Slot.tpb (s : Slot) : Nat := 2 ^ s.ltpb
def ceilDiv (a b : Nat) : Nat := (a + b - 1) / b
def Slot.ne (s : Slot) : Nat := ceilDiv (s.nct + s.nst) s.tpb
def Slot.nec (s : Slot) : Nat := ceilDiv s.nct s.tpb

/-- Entry e of a table, and that entry written (R298). -/
def Mach.entry (m : Mach) (c : Fin 64) (s : Slot) (e : Nat) : BitVec 32 := m.devL (m.sec c) (s.tbase + 4 * e)
def Mach.setEntry (m : Mach) (c : Fin 64) (s : Slot) (e : Nat) (h : BitVec 32) : Mach :=
  m.ctxWrite c (s.tbase + 4 * e) (leBytes 4 h.toNat)

/-- Entries lo to hi − 1 of a table. -/
def Mach.entries (m : Mach) (c : Fin 64) (s : Slot) (lo hi : Nat) : List (BitVec 32) :=
  (List.range (hi - lo)).map fun k => m.entry c s (lo + k)

/-- The read of those entries (R298, R365, R366). -/
def Mach.noteEntries (m : Mach) (c : Fin 64) (s : Slot) (lo hi : Nat) : Mach := m.noteReads c [(s.tbase + 4 * lo, 4 * (hi - lo))]

/-! ## The block of an operation -/

/-- What an operation reads of its block: slot, pool, SPEC, APP, N, LIST, GPI, the table's place and shape, the source
slot, PREV; the range of N, and the bytes of its list (R374). -/
structure CampUse where
  slot : Bool := false
  pool : Bool := false
  flags : Bool := false
  app : Bool := false
  n : Bool := false
  gpi : Bool := false
  table : Bool := false
  ltpb : Bool := false
  src : Bool := false
  prev : Bool := false
  lo : Nat := 0
  hi : Nat := 0
  list : Option Nat := none

/-- R374's table; `n` is the N of the block and `app` its APP. -/
def campUse (i : Instr) (n : Nat) (app : Bool) : CampUse :=
  match i with
  | .balloc .. => { pool := true, n := true, lo := 1, hi := 4096, list := some (4 * n) }
  | .bfree .. | .bref .. => { n := true, lo := 1, hi := 4096, list := some (4 * n) }
  | .btopen .. => { slot := true, pool := true, table := true, ltpb := true }
  | .btapp .. =>
    if app then { slot := true, flags := true, app := true, n := true, lo := 1, hi := 4096, list := some (4 * n) }
    else { slot := true, flags := true, app := true, n := true, gpi := true, lo := 1, hi := 2 ^ 24 }
  | .btfork .. => { slot := true, table := true, src := true }
  | .bttrim .. => { slot := true, n := true, gpi := true, lo := 1, hi := 2 ^ 24 }
  | .btcmt .. => { slot := true, n := true, gpi := true, lo := 0, hi := 2 ^ 32 - 1 }
  | .bhfind .. => { slot := true, app := true, prev := true, list := some 1024 }
  | .bhpub .. => { slot := true, n := true, prev := true, lo := 0, hi := 2 ^ 32 - 1, list := some 1024 }
  | _ => { slot := true }

def cbN (ws : List Word) : Nat := wf (blkW ws 0) 32 32
def cbSlot (ws : List Word) : Nat := wf (blkW ws 0) 0 16
def cbPool (ws : List Word) : Fin 16 := Fin.ofNat 16 (wf (blkW ws 0) 16 4)
def cbSpec (ws : List Word) : Bool := wb (blkW ws 0) 20
def cbApp (ws : List Word) : Bool := wb (blkW ws 0) 21
def cbGpi (ws : List Word) : Option (Fin 64) := if wb (blkW ws 2) 46 then some (Fin.ofNat 64 (wf (blkW ws 2) 40 6)) else none
def cbGpo (ws : List Word) : Option (Fin 64) := if wb (blkW ws 2) 38 then some (Fin.ofNat 64 (wf (blkW ws 2) 32 6)) else none
def cbList (ws : List Word) : Nat := wf (blkW ws 3) 0 22

/-- A block of a Campanile operation is malformed (R300, R374, R375). -/
def campBad (m : Mach) (g : Fin 256) (i : Instr) (ws : List Word) : Bool :=
  let w0 := blkW ws 0
  let w2 := blkW ws 2
  let u := campUse i (cbN ws) (cbApp ws)
  let gpien := wb w2 46
  wf w0 22 10 ≠ 0 || (!u.slot && wf w0 0 16 ≠ 0) || (!u.pool && wf w0 16 4 ≠ 0) || (!u.flags && wb w0 20) ||
  (!u.app && wb w0 21) || wb w2 39 || wf w2 47 17 ≠ 0 || (!u.gpi && (gpien || wf w2 40 6 ≠ 0)) ||
  !barOk m g (blkW ws 2) || !hiZero ws 3 22 || cbList ws % 4 ≠ 0 ||
  (match u.list with | some n => !inSpad (cbList ws) n | none => cbList ws ≠ 0) ||
  (if gpien || !u.n then cbN ws ≠ 0 else cbN ws < u.lo || u.hi < cbN ws) ||
  (if u.prev then false
   else
    !hiZero ws 4 48 || !hiZero ws 5 21 || blkW ws 7 ≠ 0 || !hiZero ws 6 16 || (!u.src && wf (blkW ws 6) 0 16 ≠ 0) ||
    (if u.table then wf (blkW ws 5) 0 17 = 0 || 65536 < wf (blkW ws 5) 0 17 || (wf (blkW ws 4) 0 2 ≠ 0)
     else wf (blkW ws 4) 0 48 ≠ 0 || wf (blkW ws 5) 0 17 ≠ 0) ||
    (if u.ltpb then 8 < wf (blkW ws 5) 17 4 else wf (blkW ws 5) 17 4 ≠ 0))

/-! ## The operations -/

/-- What applying an operation at its own die comes to: the machine; CODE, VALUE, DUP and DONE, as far as they are
known; handles for LIST; a digest for DOUT; the references to drop or to add, in order; a list whose blocks on other dies
are to be checked there before the operation goes on (R301, R303, R311). -/
structure CampOut where
  m : Mach
  code : Nat
  value : Nat := 0
  dup : Bool := false
  done : Nat := 0
  give : List (BitVec 32) := []
  dout : Option (List Byte) := none
  refs : List (BitVec 32 × Bool) := []
  check : List (BitVec 32) := []

/-- An operation that changes nothing: its VALUE is not stated (R301; log entry 19). -/
def CampOut.no (m : Mach) (code : Nat) : CampOut := { m := m, code := code, value := (Config.freeValue m.seq).toNat }

/-- The list of n words of an operation, as its core's scratchpad holds it. -/
def opList (m : Mach) (o : Op) (n : Nat) : List (BitVec 32) :=
  (List.range n).map fun k => Memory.readL (m.core o.core).spad (cbList o.blk + 4 * k)

/-- A named pool is there for context c (R302, second check). -/
def Mach.poolCode (m : Mach) (c : Fin 64) (d : Fin 4) (p : Fin 16) : Nat :=
  let x := (m.die d).camp.pools[p.val]
  if x.fail then 11 else if !x.pen || x.ctx.toNat ≠ c.val then 8 else 1

/-- The third and fourth checks of a named slot (R302). -/
def slotCode (s : Slot) (c : Fin 64) (wantOpen close : Bool) : Nat :=
  if s.opened && s.ctx ≠ c.val then 8
  else if s.opened ≠ wantOpen then 4
  else if s.quar && !close then 4
  else 1

/-- Entries ne to ne + k − 1 of a slot filled with fresh blocks, in pop order (R304). -/
def Mach.fillEntries (m : Mach) (c : Fin 64) (d : Fin 4) (s : Slot) (ne : Nat) : Nat → Mach
  | 0 => m
  | k + 1 =>
    let r := m.popBlk c d s.pool
    ((r.2.setBw c r.1 (bwOf 1 false false false false)).setEntry c s ne r.1).fillEntries c d s (ne + 1) k

/-- CMT set in every block below entry n of a slot (R304, R306). -/
def Mach.commitBelow (m : Mach) (c : Fin 64) (s : Slot) (n : Nat) : Mach :=
  (m.entries c s 0 n).foldl (fun m h => m.commitBlk c h) (m.noteEntries c s 0 n)

/-- The entries from lo up to hi − 1, the last first, each to be dropped (R303). -/
def Mach.dropList (m : Mach) (c : Fin 64) (s : Slot) (lo hi : Nat) : List (BitVec 32 × Bool) :=
  ((m.entries c s lo hi).reverse).map fun h => (h, false)

/-- n handles popped, each with REF 1 (R303). -/
def Mach.allocN (m : Mach) (c : Fin 64) (d : Fin 4) (p : Fin 16) : Nat → List (BitVec 32) × Mach
  | 0 => ([], m)
  | n + 1 =>
    let r := m.popBlk c d p
    let q := (r.2.setBw c r.1 (bwOf 1 false false false false)).allocN c d p n
    (r.1 :: q.1, q.2)

/-- BALLOC (R303). -/
def doBalloc (m : Mach) (o : Op) (n : Nat) : CampOut :=
  let p := cbPool o.blk
  let code := m.poolCode o.ctx o.die p
  if code ≠ 1 then .no m code
  else if ((m.die o.die).camp.pools[p.val]).fcnt.toNat < n then .no m 2
  else
    let r := m.allocN o.ctx o.die p n
    { m := r.2, code := 1, value := (r.1.headD 0).toNat, done := n, give := r.1 }

/-- BTOPEN (R303). -/
def doOpen (m : Mach) (o : Op) : CampOut :=
  let ws := o.blk
  let code := m.poolCode o.ctx o.die (cbPool ws)
  if code ≠ 1 then .no m code
  else
    let r := m.slotGet o.ctx o.die (cbSlot ws)
    let code := slotCode r.1 o.ctx false false
    if code ≠ 1 then .no r.2 code
    else
      let s : Slot := ⟨wf (blkW ws 4) 0 48, wf (blkW ws 5) 0 17, cbPool ws, wf (blkW ws 5) 17 4, o.ctx.val, true, false, 0, 0⟩
      { m := r.2.slotWrite o.ctx o.die (cbSlot ws) s, code := 1, value := cbSlot ws }

/-- An operation on an open slot (R302). -/
def onSlot (m : Mach) (o : Op) (close : Bool) (f : Mach → Slot → CampOut) : CampOut :=
  let r := m.slotGet o.ctx o.die (cbSlot o.blk)
  let code := slotCode r.1 o.ctx true close
  if code ≠ 1 then .no r.2 code else f r.2 r.1

/-- The slot of an operation written back. -/
def Mach.putSlot (m : Mach) (o : Op) (s : Slot) : Mach := m.slotWrite o.ctx o.die (cbSlot o.blk) s

/-- BTCLOSE (R303). -/
def doClose (m : Mach) (o : Op) : CampOut :=
  onSlot m o true fun m s =>
    { m := (m.noteEntries o.ctx s 0 s.ne).putSlot o { s with opened := false, quar := false }, code := 1, refs := m.dropList o.ctx s 0 s.ne }

/-- BTAPP with APP 0: n tokens (R304; log entry 37 for the slot's pool). -/
def doAppTokens (m : Mach) (o : Op) (n : Nat) : CampOut :=
  let c := o.ctx
  onSlot m o false fun m s =>
    let spec := cbSpec o.blk
    let t := s.nct + s.nst
    let need := ceilDiv (t + n) s.tpb - s.ne
    let b := m.entry c s (s.ne - 1)
    let pc := m.poolCode c o.die s.pool
    let w := if t % s.tpb ≠ 0 then (m.noteEntries c s (s.ne - 1) s.ne).bw c b else (0, m)
    let m := w.2
    if !spec && 0 < s.nst then .no m 4
    else if s.cap < s.ne + need then .no m 3
    else if 1 < bwRef w.1 then .no m 5
    else if 0 < need && pc ≠ 1 then .no m pc
    else if ((m.die o.die).camp.pools[s.pool.val]).fcnt.toNat < need then .no m 2
    else
      let m := m.fillEntries c o.die s s.ne need
      let s' := if spec then { s with nst := s.nst + n } else { s with nct := s.nct + n }
      let m := if spec then m else m.commitBelow c s' s'.nec
      { m := m.putSlot o s', code := 1, value := s.ne + need }

/-- The codes of handles to append: NOTOWN, DISABLED, REFZERO or OK; `known` gives those of handles that other dies have
checked, by their places in the list (R304, R310, R311). -/
def appendCodes (c : Fin 64) (known : List (Nat × Nat)) : List (BitVec 32) → Nat → Mach → List Nat × Mach
  | [], _, m => ([], m)
  | h :: hs, i, m =>
    let x := match known.lookup i with
      | some k => (k, m)
      | none => let r := m.applyRef c h .check; (r.code, r.m)
    let q := appendCodes c known hs (i + 1) x.2
    (x.1 :: q.1, q.2)

/-- The code of the first that fails. -/
def firstCode (cs : List Nat) : Nat := (cs.find? (· ≠ 1)).getD 1

/-- The checks of an append of k handles to a slot (R304). -/
def appendSlotCode (s : Slot) (k : Nat) : Nat :=
  if 0 < s.nst || s.nct % s.tpb ≠ 0 then 4 else if s.cap < s.ne + k then 3 else 1

/-- Handles appended to a slot as committed entries; the table takes over their references. A block of another die gets its
CMT there, by a step of its own (R304, R311). -/
def Mach.append (m : Mach) (o : Op) (s : Slot) (hs : List (BitVec 32)) (remote : Bool) : Mach :=
  let m := (hs.zip (List.range hs.length)).foldl (fun m p =>
    let m := m.setEntry o.ctx s (s.ne + p.2) p.1
    if remote && hDie p.1 ≠ o.die then m else m.commitBlk o.ctx p.1) m
  m.putSlot o { s with nct := s.nct + hs.length * s.tpb }

/-- BTAPP with APP 1, whose blocks on other dies those dies have checked (R304, R311). -/
def appList (m : Mach) (o : Op) (hs : List (BitVec 32)) (known : List (Nat × Nat)) : CampOut :=
  onSlot m o false fun m s =>
    let code := appendSlotCode s hs.length
    if code ≠ 1 then .no m code
    else
      let r := appendCodes o.ctx known hs 0 m
      if firstCode r.1 ≠ 1 then .no r.2 (firstCode r.1)
      else { m := r.2.append o s hs true, code := 1, value := s.ne + hs.length, done := hs.length }

/-- BTAPP with APP 1: applied at once, or, where a listed block belongs to another die, once that die has checked it (R304,
R311; log entry 99). -/
def doAppList (m : Mach) (o : Op) (n : Nat) : CampOut :=
  let hs := opList m o n
  if hs.all fun h => hDie h = o.die then appList m o hs []
  else
    onSlot m o false fun m s =>
      let code := appendSlotCode s n
      if code ≠ 1 then .no m code else { m := m, code := 1, check := hs }

/-- BTFORK (R305). -/
def doFork (m : Mach) (o : Op) : CampOut :=
  let ws := o.blk
  let c := o.ctx
  let r := m.slotGet c o.die (cbSlot ws)
  let q := r.2.slotGet c o.die (wf (blkW ws 6) 0 16)
  let m := q.2
  let src := q.1
  let codes := [slotCode r.1 c false false, slotCode src c true false]
  let code := if codes.contains 8 then 8 else firstCode codes
  if code ≠ 1 then .no m code
  else if wf (blkW ws 5) 0 17 < src.nec then .no m 3
  else
    let hs := m.entries c src 0 src.nec
    let w := (m.noteEntries c src 0 src.nec).bws c hs
    let m := w.2
    if w.1.any fun x => bwRef x = 65535 then .no m 6
    else
      let s : Slot := ⟨wf (blkW ws 4) 0 48, wf (blkW ws 5) 0 17, src.pool, src.ltpb, c.val, true, false, src.nct, 0⟩
      let m := (hs.zip (List.range hs.length)).foldl (fun m p => (m.setEntry c s p.2 p.1).raiseRef c p.1) m
      { m := m.putSlot o s, code := 1, value := s.ne }

/-- BTTRIM (R303). -/
def doTrim (m : Mach) (o : Op) (n : Nat) : CampOut :=
  onSlot m o false fun m s =>
    if s.nst < n then .no m 3
    else
      let s' := { s with nst := s.nst - n }
      { m := (m.noteEntries o.ctx s s'.ne s.ne).putSlot o s', code := 1, value := s'.nct + s'.nst, refs := m.dropList o.ctx s s'.ne s.ne }

/-- BTCMT (R306, R309). -/
def doCommit (m : Mach) (o : Op) (n : Nat) : CampOut :=
  onSlot m o false fun m s =>
    let c := o.ctx
    let w := (m.noteEntries c s s.nec s.ne).bws c (m.entries c s s.nec s.ne)
    let m := w.2
    let erred := w.1.any bwErr
    let m := if erred then m.onCamp o.die fun k => { k with specerr := sat32 k.specerr } else m
    let k := if erred then 0 else min n s.nst
    let s' := { s with nct := s.nct + k, nst := 0 }
    let refs := m.dropList c s s'.nec s.ne
    { m := (m.commitBelow c s' s'.nec).putSlot o s', code := 1, value := k, refs := refs }

/-- The digest of R307 of the tokens of an operation's list, for a slot; a record that holds no LTPB of R298 counts as
having the largest (log entry 98). -/
def digestOf (m : Mach) (o : Op) (s : Slot) : List Byte :=
  shake256 16 (wordBytes (blkW o.blk 4) ++ wordBytes (blkW o.blk 5) ++ leBytes 1 (min 8 s.ltpb) ++
    Memory.read (m.core o.core).spad (cbList o.blk) (4 * 2 ^ min 8 s.ltpb))

/-- BHFIND and BHPUB write DOUT in every case, from the slot's record as it stands (R301; log entry 98). -/
def CampOut.withDout (o : Op) (x : CampOut) : CampOut :=
  match o.instr with
  | .bhfind .. | .bhpub .. =>
    { x with dout := x.dout.or (some (digestOf x.m o (x.m.slotRead o.ctx o.die (cbSlot o.blk)))) }
  | _ => x

/-- BHFIND (R308). -/
def doHfind (m : Mach) (o : Op) : CampOut :=
  onSlot m o false fun m s =>
    let c := o.ctx
    let dg := digestOf m o s
    let no (m : Mach) (k : Nat) : CampOut := { CampOut.no m k with dout := some dg }
    let m := m.noteWays c o.die dg
    match m.hfind c o.die dg with
    | none => { m := m, code := 10, value := 0xFFFFFFFF, dout := some dg }
    | some h =>
      let w := m.bw c h
      if bwRef w.1 = 65535 then no w.2 6
      else
        let k := if cbApp o.blk then appendSlotCode s 1 else 1
        let r := if cbApp o.blk && k = 1 then appendCodes c [] [h] 0 w.2 else ([k], w.2)
        if firstCode r.1 ≠ 1 then no r.2 (firstCode r.1)
        else
          let m := r.2.raiseRef c h
          { m := if cbApp o.blk then m.append o s [h] false else m, code := 1, value := h.toNat, dout := some dg }

/-- BHPUB (R308). -/
def doHpub (m : Mach) (o : Op) (n : Nat) : CampOut :=
  onSlot m o false fun m s =>
    let c := o.ctx
    let h := BitVec.ofNat 32 n
    let dg := digestOf m o s
    let no (m : Mach) (k : Nat) : CampOut := { CampOut.no m k with dout := some dg }
    let hc := m.handleCode c h
    if hc ≠ 1 then no m hc
    else
      let r := m.bw c h
      let w := r.1
      let m := r.2
      if bwRef w = 0 then no m 7
      else if bwPub w then no m 4
      else
        let m := m.noteWays c o.die dg
        match m.hfind c o.die dg with
        | some e => { m := m, code := 1, value := e.toNat, dup := true, dout := some dg }
        | none =>
          match (List.range 4).find? fun k => !(m.way c o.die (bucketOf dg) k).2.2 with
          | none => no (m.onCamp o.die fun k => { k with hfull := sat32 k.hfull }) 9
          | some k =>
            let m := m.ctxWrite c (m.wayAddr o.die (bucketOf dg) k) (dg ++ leBytes 8 (n + 2 ^ 32) ++ leBytes 8 0)
            { m := m.setBw c h (bwOf (bwRef w) (bwCmt w) (bwErr w) (bwRet w) true), code := 1, value := n, dout := some dg }

/-- The N of an operation when it is applied: its own, or the GP register's low half; none where that lies outside the
operation's range (R375). -/
def campN (m : Mach) (o : Op) : Option Nat :=
  match cbGpi o.blk with
  | none => some (cbN o.blk)
  | some k =>
    let n := wf ((m.ctx o.ctx).gp[k.val]) 0 32
    let u := campUse o.instr 0 (cbApp o.blk)
    if n < u.lo || u.hi < n then none else some n

/-- BFREE and BREF: every handle of the list, one by one (R303). -/
def doRefs (m : Mach) (o : Op) (n : Nat) (add : Bool) : CampOut :=
  { m := m, code := 1, refs := (opList m o n).map fun h => (h, add) }

/-- An operation on its die (R302, R303). -/
def campDo (m : Mach) (o : Op) (n : Nat) : CampOut :=
  match o.instr with
  | .balloc .. => doBalloc m o n
  | .bfree .. => doRefs m o n false
  | .bref .. => doRefs m o n true
  | .btopen .. => doOpen m o
  | .btclose .. => doClose m o
  | .btapp .. => if cbApp o.blk then doAppList m o n else doAppTokens m o n
  | .btfork .. => doFork m o
  | .bttrim .. => doTrim m o n
  | .btcmt .. => doCommit m o n
  | .bhfind .. => doHfind m o
  | _ => doHpub m o n

/-- What an operation comes to, given up where it met unreadable metadata (R310). -/
def orGiveUp (m : Mach) (o : Op) (r : CampOut) : CampOut :=
  match lostPools r.m with
  | [] => r
  | ps => .no (m.giveUp o.ctx ps) 11

/-- The first checks of every operation, and what gives up on unreadable metadata (R302, R310, R375). An N outside its
range ends the operation with RANGE once the slot's checks have passed. -/
def campApply (m : Mach) (o : Op) : CampOut :=
  (if !(m.die o.die).camp.en then .no m 12
   else orGiveUp m o (match campN m o with
     | some n => campDo m o n
     | none => onSlot m o false fun m _ => .no m 3)).withDout o

/-! ## References on other dies, and completion -/

/-- The outcome of one reference of an operation is noted: its index, its code, and 256 where the block was released;
with the last one the operation has been applied whole, unless it was a check (R303, R304, R311). -/
def Mach.noteRef (m : Mach) (k ix code : Nat) (freed : Bool) : Mach :=
  m.onOp k fun o =>
    let es := o.elems ++ [(ix, code + if freed then 256 else 0)]
    { o with elems := es, fin := o.sdesc.isEmpty && o.idx ≤ es.length }

/-- A list element goes to the die that owns its block (R311). -/
def Mach.sendElem (m : Mach) (o : Op) (ix : Nat) (h : BitVec 32) (s : RefStep) : Mach :=
  m.onCamp (hDie h) fun c => { c with remote := c.remote ++ [⟨o.id, o.core, ix, h, s⟩] }

/-- The references of an operation: those on its own die applied in order, the others sent to their dies (R311). -/
def Mach.sendRefs (m : Mach) (o : Op) (rs : List (BitVec 32 × Bool)) : Mach :=
  (rs.zip (List.range rs.length)).foldl (fun m p =>
    let h := p.1.1
    if hDie h = o.die then
      let r := m.applyRef o.ctx h (if p.1.2 then .add else .drop)
      r.m.noteRef o.id p.2 r.code r.freed
    else m.sendElem o p.2 h (if p.1.2 then .add else .drop)) m

/-- A BTAPP has its blocks of other dies dealt with there: checked, or committed (R304, R311). -/
def Mach.sendList (m : Mach) (o : Op) (hs : List (BitVec 32)) (s : RefStep) : Mach :=
  (hs.zip (List.range hs.length)).foldl (fun m p => if hDie p.1 = o.die then m else m.sendElem o p.2 p.1 s) m

/-- Blocks of a list that belong to other dies than the operation's. -/
def remoteCount (o : Op) (hs : List (BitVec 32)) : Nat := (hs.filter fun h => hDie h ≠ o.die).length

/-- The bytes of an operation's list that Campanile reads or writes. -/
def listBytes (m : Mach) (o : Op) : Nat :=
  match o.instr with
  | .bhfind .. | .bhpub .. => 1024
  | .balloc .. => 0
  | _ => (campUse o.instr ((campN m o).getD 0) (cbApp o.blk)).list.getD 0

/-- The words of a result that wait to be written: CODE, VALUE, DUP, DONE, and DOUT. -/
def CampOut.words (r : CampOut) : List Lane :=
  [BitVec.ofNat 32 r.code, BitVec.ofNat 32 r.value, if r.dup then 1 else 0, BitVec.ofNat 32 r.done] ++
    (match r.dout with | some d => (List.range 4).map fun k => BitVec.ofNat 32 (leVal ((d.drop (4 * k)).take 4)) | none => [])

/-- The handles whose block words an operation reads or changes within its own step: BHPUB's, BHFIND's match, and those of the
tables of a BTFORK, BTAPP or BTCMT (R304 to R306, R308). -/
def stepHandles (m : Mach) (o : Op) : List (BitVec 32) :=
  let s := m.slotRead o.ctx o.die (cbSlot o.blk)
  let q := m.slotRead o.ctx o.die (wf (blkW o.blk 6) 0 16)
  match o.instr with
  | .bhpub .. => [BitVec.ofNat 32 (cbN o.blk)]
  | .bhfind .. => (m.hfind o.ctx o.die (digestOf m o s)).toList
  | .btfork .. => m.entries o.ctx q 0 q.nec
  | .btapp .. | .btcmt .. => m.entries o.ctx s 0 s.ne
  | _ => []

/-- Campanile accepts an operation as it begins it, and so do the Campaniles of the blocks that its step reads or changes,
each in ascending core number within a clock (R311; log entry 99). -/
def Mach.acceptStep (m : Mach) (o : Op) : Mach :=
  let hs := stepHandles m o
  (dieNums.filter fun d => d = o.die || hs.any fun h => hDie h = d).foldl (fun m d => m.takesIn d .campanile (1 + o.core.val)) m

/-- Campanile applies an operation that it has not begun (R302 to R311). It waits for the core whose list it reads. -/
def campBegin (m : Mach) (o : Op) : Mach :=
  let n := listBytes m o
  let start (m : Mach) : Mach :=
    let m := m.acceptStep o
    let q := m.portRead o.ctx o.core false (cbList o.blk) n
    if !q.2 then q.1
    else
      let r := campApply q.1 o
      if r.check.isEmpty then
        (r.m.onOp o.id fun o =>
          { o with begun := true, lanes := r.words, idx := r.refs.length, handles := r.give.map fun h => (0, h),
                   fin := r.refs.isEmpty }).sendRefs o r.refs
      else
        (r.m.onOp o.id fun o =>
          { o with begun := true, sdesc := [1], idx := remoteCount o r.check,
                   handles := r.check.map fun h => (0, h) }).sendList o r.check .check
  if n = 0 then start m else m.request1 o.core o.ctx (.op o.id) start

/-- A BTAPP goes on once the other dies have checked its list: it is applied at its own die, and its blocks are committed at
theirs (R304, R311). -/
def campList (m : Mach) (o : Op) : Mach :=
  let hs := o.handles.map (·.2)
  let r := orGiveUp m o (appList m o hs (o.elems.map fun e => (e.1, e.2 % 256)))
  let n := if r.code = 1 then remoteCount o hs else 0
  let m := r.m.onOp o.id fun o =>
    { o with sdesc := [], lanes := r.words, idx := n, elems := [], handles := [], fin := n = 0 }
  if n = 0 then m else m.sendList o hs .commit

/-- The codes of an operation's references, in list order. -/
def refCodes (o : Op) : List Nat := (List.range o.idx).map fun k => ((o.elems.find? fun e => e.1 = k).map (·.2)).getD 1

/-- CODE, DONE and VALUE of the report (R301, R303). -/
def campResult (o : Op) : Nat × Nat × Nat :=
  let code := (o.lanes.getD 0 0).toNat
  let value := (o.lanes.getD 1 0).toNat
  let cs := refCodes o
  let freed := (cs.filter fun c => 256 ≤ c).length
  let ok := (cs.filter fun c => c % 256 = 1).length
  let first := ((cs.find? fun c => c % 256 ≠ 1).map (· % 256)).getD 1
  match o.instr with
  | .bfree .. => if code = 1 then (first, ok, freed) else (code, 0, 0)
  | .bref .. => if code = 1 then (first, ok, ok) else (code, 0, 0)
  | .btclose .. => (code, 0, if code = 1 then freed else value)
  | _ => (code, (o.lanes.getD 3 0).toNat, value)

/-- The report: LIST and DOUT, RESULT, and VALUE to GPO (R301). -/
def Mach.campReport (m : Mach) (o : Op) : Mach :=
  let r := campResult o
  let m := if o.handles.isEmpty then m else m.wspad o.core (cbList o.blk) (o.handles.flatMap fun h => leBytes 4 h.2.toNat)
  let d := o.lanes.drop 4
  let m := if d.isEmpty then m else m.wspad o.core (o.base + 0x30) (d.flatMap fun x => leBytes 4 x.toNat)
  let dup := (o.lanes.getD 2 0).toNat
  let m := m.putRes o (BitVec.ofNat 64 (r.1 + dup * 2 ^ 8 + r.2.1 % 65536 * 2 ^ 16 + r.2.2 % 2 ^ 32 * 2 ^ 32))
  match cbGpo o.blk with
  | some k => (m.atGp o.ctx (gpCamp o.die)).onCtx o.ctx fun x => { x with gp := Machine.put x.gp k (BitVec.ofNat 64 (r.2.2 % 2 ^ 32)) }
  | none => m

/-- Campanile's turn at an operation: applied, or completed; one of a killed context completes without a report
(R194, R301, R311). -/
def campWork (d : Fin 4) (u : UnitKind) (m : Mach) : Mach :=
  match m.unitOp d u with
  | none => m
  | some o =>
    if !o.fin then (if o.begun then campList m o else campBegin m o)
    else if (m.ctx o.ctx).killing then { m with ops := m.ops.filter fun q => q.id ≠ o.id }
    else m.complete o fun m => m.campReport o

/-- A Campanile operation, issued with CODE 0 (R299 to R301). -/
def campParcel (i : Instr) : State → Out :=
  asParcel i
    (fun g m => asBlock m g 64 fun m base ws =>
      if campBad m g i ws then .fail .cmdMalformed
      else .done (m.startOp (mkOp m g i .campanile base ws true)))
    (asIssued i) campWork

/-- BALLOC: N handles popped (R303). -/
def execBalloc (t : Tok) (sa : Fin 32) : State → Out := campParcel (.balloc t sa)

/-- BFREE: one reference of each listed block dropped (R303). -/
def execBfree (t : Tok) (sa : Fin 32) : State → Out := campParcel (.bfree t sa)

/-- BREF: one reference added to each listed block (R303). -/
def execBref (t : Tok) (sa : Fin 32) : State → Out := campParcel (.bref t sa)

/-- BTOPEN: a slot opened (R303). -/
def execBtopen (t : Tok) (sa : Fin 32) : State → Out := campParcel (.btopen t sa)

/-- BTCLOSE: every entry of a slot dropped, the slot closed (R303). -/
def execBtclose (t : Tok) (sa : Fin 32) : State → Out := campParcel (.btclose t sa)

/-- BTAPP: tokens or handles appended (R304). -/
def execBtapp (t : Tok) (sa : Fin 32) : State → Out := campParcel (.btapp t sa)

/-- BTFORK: a slot opened as a copy of another's committed part (R305). -/
def execBtfork (t : Tok) (sa : Fin 32) : State → Out := campParcel (.btfork t sa)

/-- BTTRIM: speculative tokens removed (R303). -/
def execBttrim (t : Tok) (sa : Fin 32) : State → Out := campParcel (.bttrim t sa)

/-- BTCMT: speculative tokens committed (R306). -/
def execBtcmt (t : Tok) (sa : Fin 32) : State → Out := campParcel (.btcmt t sa)

/-- BHFIND: a digest looked up (R308). -/
def execBhfind (t : Tok) (sa : Fin 32) : State → Out := campParcel (.bhfind t sa)

/-- BHPUB: a handle published (R308). -/
def execBhpub (t : Tok) (sa : Fin 32) : State → Out := campParcel (.bhpub t sa)

/-! ## Campanile's own events -/

/-- REMOTE_LIST_ELEMENT: the k-th element waiting at die d from other dies is applied, unless an earlier one of its
core still waits there (R311, R376). -/
def execRemoteListElement (d : Fin 4) (k : Nat) : State → Out :=
  ready fun m =>
    let q := (m.die d).camp.remote
    match q[k]? with
    | none => m
    | some x =>
      if (q.take k).any fun y => y.core = x.core then m
      else
        let m := (m.onCamp d fun c => { c with remote := c.remote.eraseIdx k }).takesIn d .campanile (1 + x.core.val)
        match m.findOp x.op with
        | none => m
        | some o =>
          let r := m.applyRef o.ctx x.handle x.what
          r.m.noteRef o.id x.idx r.code r.freed

/-- UNCORRECTABLE_REPORT: the oldest report at die d marks its block erred, or retires it; a block word that stays unreadable
fails the pool (R309, R310). -/
def execUncorrectableReport (d : Fin 4) : State → Out :=
  ready fun m =>
    match (m.die d).camp.reports with
    | [] => m
    | h :: rest =>
      let m := m.onCamp d fun c => { c with reports := rest }
      let c := toCtx (m.poolOf h).ctx.toNat
      let r := m.bw c h
      let w := r.1
      if !(lostPools r.2).isEmpty then m.giveUp c (lostPools r.2)
      else if bwRef w = 0 || bwRet w then r.2
      else if bwCmt w then
        let m := r.2.setBw c h (bwOf (bwRef w) true (bwErr w) true (bwPub w))
        let m := m.onCamp d fun k => { k with retired := sat32 k.retired }
        dieNums.foldl (fun m e => m.onCamp e fun k => { k with quar := k.quar ++ [h] }) m
      else r.2.setBw c h (bwOf (bwRef w) false true false (bwPub w))

/-- QUARANTINE: the oldest retired handle at die d quarantines every open slot of the block's context whose committed
entries hold it (R310). -/
def execQuarantine (d : Fin 4) : State → Out :=
  ready fun m =>
    match (m.die d).camp.quar with
    | [] => m
    | h :: rest =>
      let m := m.onCamp d fun c => { c with quar := rest }
      let c := toCtx (m.poolOf h).ctx.toNat
      if !(m.die d).camp.en then m
      else
        (List.range 65536).foldl (fun m n =>
          let r := m.slotGet c d n
          let s := r.1
          if s.opened && s.ctx = c.val then
            let m := r.2.noteEntries c s 0 s.nec
            if (m.entries c s 0 s.nec).contains h then m.quarantine c d n else m
          else r.2) m

end Sys2Proof.Machine
end

