-- ==== Sys2Proof/Machine/Compress.lean ====
section
/-!
DEFINITION. The zero-and-repeat coder and the compressed view of a scratchpad region (spec/05_onchip_memory.md R156 to
R161), which the context-save image shares (R169).
-/
namespace Sys2Proof.Machine

/-! ## The coder -/

/-- A line of 64 bytes cut from a list. -/
def lineOf (bs : List Byte) (i : Nat) : List Byte := (bs.drop (64 * i)).take 64

/-- The code of a line and its payload, given the line before it (R157). -/
def codeLine (prev : Option (List Byte)) (l : List Byte) : Nat × List Byte :=
  if l.all (· = 0) then (0, [])
  else if prev = some l then (3, [])
  else
    let w := l.take 4
    if (List.range 16).all (fun k => (l.drop (4 * k)).take 4 = w) then (1, w) else (2, l)

/-- The codes and payloads of the lines of a tile, in line order. -/
def codeLines : Option (List Byte) → List (List Byte) → List (Nat × List Byte)
  | _, [] => []
  | prev, l :: ls => codeLine prev l :: codeLines (some l) ls

/-- The 16 bytes of the code map (R157). -/
def codeMap (cs : List Nat) : List Byte :=
  (List.range 16).map fun b =>
    BitVec.ofNat 8 (cs.getD (4 * b) 0 + 4 * cs.getD (4 * b + 1) 0 + 16 * cs.getD (4 * b + 2) 0 + 64 * cs.getD (4 * b + 3) 0)

/-- Bytes padded with zeros to a multiple of n. -/
def padTo (n : Nat) (bs : List Byte) : List Byte := bs ++ List.replicate ((n - bs.length % n) % n) 0

/-- A tile of 4,096 bytes as it is stored: its bytes, and whether it is raw (R157). -/
def zrEncode (bs : List Byte) : List Byte × Bool :=
  let cs := codeLines none ((List.range 64).map (lineOf bs))
  let s := padTo 64 (codeMap (cs.map (·.1)) ++ cs.flatMap (·.2))
  if 3584 ≤ s.length then (bs, true) else (s, false)

/-- The lines that a coded stream holds: codes from line i on, the line before, the payload that is left. A payload
byte beyond the stream reads zero (R157). -/
def decodeLines (map : List Byte) : Nat → Nat → List Byte → List Byte → List Byte
  | 0, _, _, _ => []
  | n + 1, i, prev, rest =>
    let code := fld ((map.getD (i / 4) 0).toNat) (2 * (i % 4)) 2
    let zeros := List.replicate 64 (0 : Byte)
    let take (k : Nat) : List Byte := (rest ++ List.replicate k 0).take k
    let l :=
      if code = 0 then zeros
      else if code = 1 then (List.replicate 16 (take 4)).flatten
      else if code = 2 then take 64
      else if i = 0 then zeros else prev
    let rest := if code = 1 then rest.drop 4 else if code = 2 then rest.drop 64 else rest
    l ++ decodeLines map n (i + 1) l rest

/-- The 4,096 bytes of a stored tile; bytes beyond what is stored read zero (R157). -/
def zrDecode (raw : Bool) (bs : List Byte) : List Byte :=
  if raw then (bs ++ List.replicate 4096 0).take 4096
  else decodeLines ((bs.take 16 ++ List.replicate 16 0).take 16) 64 0 [] (bs.drop 16)

/-! ## The compressed view -/

/-- What a region's header and one tile word say (R156). -/
structure CtEntry where
  free : Nat
  cap : Nat
  off : Nat
  len : Nat
  raw : Bool
  deriving DecidableEq, Repr

/-- The address of tile word t of region R. -/
def ctWordAt (r t : Nat) : Nat := r + 64 + 4 * t

/-- The header and tile word of tile t of the region at r, as the port validates them (R148, R159). An NT above 4,096, and
a tile word whose LEN is 0 or above 64, are used as they stand (log entry 91). -/
def ctLook (spad : Memory) (r : Nat) (t : Int) : Option CtEntry :=
  let w0 := Memory.readW spad r
  let w1 := Memory.readW spad (r + 8)
  let nt := wf w0 0 16
  let free := wf w1 0 16
  let cap := wf w1 16 16
  if wf w0 16 48 ≠ 0 || wf w1 32 32 ≠ 0 || (Memory.read spad (r + 16) 48).any (· ≠ 0) || nt = 0 ||
     0x300000 < r + 64 * cap || free < 1 + (4 * nt + 63) / 64 || t < 0 || nt ≤ t.toNat || 0x300000 < ctWordAt r t.toNat + 4 then none
  else
    let w := (Memory.readL spad (ctWordAt r t.toNat)).toNat
    let off := fld w 0 16
    let len := fld w 16 7
    if fld w 24 8 ≠ 0 || (off ≠ 0 && cap < off + len) then none else some ⟨free, cap, off, len, bit w 23⟩

/-- The bytes that an access to a tile of a compressed region reads: the header, the tile's word, its lines (R151,
R156, R161). -/
def ctRuns (r : Nat) (t : Nat) (x : CtEntry) : List (Nat × Nat) :=
  [(r, 64), (ctWordAt r t, 4), (r + 64 * x.off, if x.off = 0 then 0 else 64 * x.len)]

/-- The bytes that the check of R159 reads: the header, and the tile's word where the tile index can name one. -/
def ctHead (r : Nat) (t : Int) : List (Nat × Nat) :=
  (r, 64) :: (if 0 ≤ t && ctWordAt r t.toNat + 4 ≤ 0x300000 then [(ctWordAt r t.toNat, 4)] else [])

/-- The 4,096 bytes of tile t; a tile never written reads as zeros (R156). -/
def ctRead (spad : Memory) (r : Nat) (t : Int) : Option (List Byte) :=
  (ctLook spad r t).map fun x =>
    if x.off = 0 then List.replicate 4096 0 else zrDecode x.raw (Memory.read spad (r + 64 * x.off) (64 * x.len))

/-- Tile t written (R160): in place where it fits, else at FREE; none where the region is full or fails R159. -/
def ctWrite (c : Core) (r : Nat) (t : Int) (bs : List Byte) : Option Core :=
  match ctLook c.spad r t with
  | none => none
  | some x =>
    let e := zrEncode bs
    let len := e.1.length / 64
    let word (off : Nat) : List Byte := leBytes 4 (off + len * 2 ^ 16 + e.2.toNat * 2 ^ 23)
    if x.off ≠ 0 && len ≤ x.len then
      some ((c.wspad (r + 64 * x.off) e.1).wspad (ctWordAt r t.toNat) (word x.off))
    else if x.cap < x.free + len then none
    else
      some (((c.wspad (r + 64 * x.free) e.1).wspad (ctWordAt r t.toNat) (word x.free)).wspad (r + 8) (leBytes 2 (x.free + len)))

end Sys2Proof.Machine
end

