-- ==== Sys2Proof/Machine/CopyBlock.lean ====
section
/-!
DEFINITION. The command block of a copy program: its fields, its ends, the place of every element, and its validation
at issue (spec/06_copy_engines.md R175 to R182, R190; spec/13_collectives.md R336; spec/17_reference_v_y.md R441,
R463).
-/
namespace Sys2Proof.Machine

/-- The forms of the copy program (R179). -/
inductive CForm where
  | cp | cvt | mc | kv | fill
  | acc (op : PortOp)
  | vat (op : PortOp)
  deriving DecidableEq, Repr

/-- The form that a parcel runs (R179). -/
def formOf : Instr → CForm
  | .xcpCvt .. => .cvt
  | .xcpMc .. => .mc
  | .xcpKv .. => .kv
  | .xfill .. => .fill
  | .xaccAdd .. => .acc .add | .xaccMin .. => .acc .min | .xaccMax .. => .acc .max
  | .xaccAnd .. => .acc .and | .xaccOr .. => .acc .or | .xaccXor .. => .acc .xor
  | .vatomAdd .. => .vat .add | .vatomMin .. => .vat .min | .vatomMax .. => .vat .max
  | .vatomAnd .. => .vat .and | .vatomOr .. => .vat .or | .vatomXor .. => .vat .xor
  | _ => .cp

/-! ## Fields and types -/

/-- Element sizes in nibbles, by type code (R177). -/
def nibbles (ty : Nat) : Nat := [2, 8, 4, 4, 2, 2, 1, 2, 2, 1, 8, 16].getD ty 2

/-- The types with scales (R177). -/
def isMx (ty : Nat) : Bool := ty = 7 || ty = 8 || ty = 9

/-- The floating-point type of a code, of an MX code that of its elements (R177). -/
def fltOf (ty : Nat) : FTy :=
  match ty with | 2 => .bf16 | 3 => .f16 | 4 | 7 => .e4m3 | 5 | 8 => .e5m2 | 6 | 9 => .e2m1 | _ => .f32

/-- The pairs that XCP.CVT accepts (R180). -/
def cvtPair (s d : Nat) : Bool :=
  (s = 1 && 2 ≤ d && d ≤ 9) || (d = 1 && 2 ≤ s && s ≤ 9) || (s = 2 && d = 3) || (s = 3 && d = 2) || (isMx s && d = 2)

def ckRun (ws : List Word) : Nat := wf (blkW ws 0) 0 17
def ckLev (ws : List Word) : Nat := wf (blkW ws 0) 17 3
def ckSk (ws : List Word) : Nat := wf (blkW ws 0) 20 2
def ckDk (ws : List Word) : Nat := wf (blkW ws 0) 22 2
def ckSt (ws : List Word) : Nat := wf (blkW ws 0) 24 4
def ckDt (ws : List Word) : Nat := wf (blkW ws 0) 28 4
def ckAux (ws : List Word) : Word := blkW ws 7
def ckRben (ws : List Word) : Bool := wb (blkW ws 26) 22
def ckRbar (ws : List Word) : Nat := wf (blkW ws 26) 0 22

/-- Count, source stride and destination stride of a level (R175). -/
def ckCount (ws : List Word) (l : Nat) : Nat := wf (blkW ws (8 + 3 * l)) 0 21
def ckSstr (ws : List Word) (l : Nat) : Word := blkW ws (9 + 3 * l)
def ckDstr (ws : List Word) (l : Nat) : Word := blkW ws (10 + 3 * l)

/-- Runs and elements of the command (R175). -/
def ckRuns (ws : List Word) : Nat := ((List.range (ckLev ws)).map (ckCount ws)).prod
def ckTotal (ws : List Word) : Nat := ckRuns ws * ckRun ws

/-- An end: its kind and location, its start, its levels innermost first, and its type (R175, R176). -/
structure CEnd where
  kind : Nat
  loc : Word
  start : Int
  levels : List (Nat × Int)
  ty : Nat
  deriving DecidableEq, Repr

def srcEnd (ws : List Word) : CEnd :=
  ⟨ckSk ws, blkW ws 3, sInt (blkW ws 4), (List.range (ckLev ws)).map fun l => (ckCount ws l, sInt (ckSstr ws l)), ckSt ws⟩

/-- The destination end, its start moved by the offset in Sb (R175, R463). -/
def dstEnd (ws : List Word) (off : Word) : CEnd :=
  ⟨ckDk ws, blkW ws 5, sInt (blkW ws 6) + sInt off,
   (List.range (ckLev ws)).map fun l => (ckCount ws l, sInt (ckDstr ws l)), ckDt ws⟩

/-! ## The nest -/

/-- The offset of run n: the innermost level is fastest (R175). -/
def runOff (start : Int) : List (Nat × Int) → Nat → Int
  | [], _ => start
  | (c, s) :: ls, n => runOff (start + (n % c : Nat) * s) ls (n / c)

/-- The byte of element i of an end, and its nibble in that byte (R175, R177). -/
def elemAt (e : CEnd) (rl i : Nat) : Int × Nat :=
  let k := i % rl * nibbles e.ty
  (runOff e.start e.levels (i / rl) + (k / 2 : Nat), k % 2)

/-- Bytes of a run at an end. -/
def runBytes (e : CEnd) (rl : Nat) : Nat := (rl * nibbles e.ty + 1) / 2

/-- The scale byte of the block that starts at element i of a run of the command (R177). -/
def scaleAt (ws : List Word) (i : Nat) : Int :=
  let rl := ckRun ws
  sInt (ckAux ws) + (i / rl * ((rl + 31) / 32) + i % rl / 32 : Nat)

/-- The least and the greatest byte that the nest touches at an end, scales among them (R178). -/
def extremes (ws : List Word) (e : CEnd) : Int × Int :=
  let lo := e.levels.foldl (fun (x : Int) p => x + min 0 (((p.1 : Int) - 1) * p.2)) e.start
  let hi := e.levels.foldl (fun (x : Int) p => x + max 0 (((p.1 : Int) - 1) * p.2)) (e.start + runBytes e (ckRun ws) - 1)
  if isMx e.ty then
    let a := sInt (ckAux ws)
    (min lo a, max hi (a + (ckRuns ws * ((ckRun ws + 31) / 32) : Nat) - 1))
  else (lo, hi)

/-! ## KV ends -/

def kvSlot (loc : Word) : BitVec 16 := loc.extractLsb' 0 16
def kvLtpb (loc : Word) : Nat := wf loc 16 4
def kvTb (loc : Word) : Nat := 64 * wf loc 32 10

/-- The ordinals that a KV end touches with runs of rl elements, each once: the tokens of a run's first and last byte, as Off
may move a run over the end of a token (R176, R178, R463). -/
def kvOrds (e : CEnd) (rl : Nat) : List Nat :=
  let tb : Int := kvTb e.loc
  let toks := e.levels.foldl (fun (ts : List Int) p => (List.range p.1).flatMap fun (i : Nat) => ts.map fun t => t + (i : Int) * (p.2 / tb))
    [e.start / tb, (e.start + runBytes e rl - 1) / tb]
  (toks.map fun t => t.toNat / 2 ^ kvLtpb e.loc).eraseDups

/-- The handle of an ordinal, as AS looks it up (R165, R167). -/
def kvFind (c : Core) (loc : Word) (k : Nat) : Option (BitVec 32) :=
  if !c.btmcfg[1] || 65536 ≤ k then none
  else (c.btmFind (kvSlot loc) (BitVec.ofNat 16 k)).map fun i => (c.btm[i.val]).handle

/-- The handles of the ordinals of a KV end that are present. -/
def kvHandles (c : Core) (e : CEnd) (rl : Nat) : List (Nat × BitVec 32) :=
  (kvOrds e rl).filterMap fun k => (kvFind c e.loc k).map fun h => (k, h)

/-- The lowest ordinal that is absent (R167; log entry 34). -/
def kvMiss (c : Core) (e : CEnd) (rl : Nat) : Option Nat :=
  ((kvOrds e rl).filter fun k => (kvFind c e.loc k).isNone).foldl
    (fun (b : Option Nat) k => match b with | none => some k | some x => some (min x k)) none

/-! ## Validation -/

/-- The core of a scratchpad end (R153, R176). -/
def spadCore (m : Mach) (g : Fin 256) (loc : Word) : Option (Fin 256) := m.cellCore g (BitVec.ofNat 64 (wf loc 0 32))

/-- Every run of the nest at an end: its first byte and its length, and that of its scales (R175, R177). -/
def endRuns (ws : List Word) (e : CEnd) : List (Nat × Nat) :=
  (List.range (ckRuns ws)).flatMap fun n =>
    (runOff e.start e.levels n |>.toNat, runBytes e (ckRun ws)) ::
      (if isMx e.ty then [((scaleAt ws (n * ckRun ws)).toNat, (ckRun ws + 31) / 32)] else [])

/-- The logical tiles that the nest touches at an end in the compressed view (R159, R161). -/
def tilesOf (ws : List Word) (e : CEnd) : List Nat :=
  ((endRuns ws e).flatMap fun r => (cutBy 4096 r.1 r.2).map fun p => p.1 / 4096).eraseDups

/-- A scratchpad end's location is malformed or out of range; in the compressed view, the header and every named tile word
pass the port's checks (R156, R159, R176, R178). -/
def spadBad (m : Mach) (g : Fin 256) (ws : List Word) (e : CEnd) (lo hi : Int) : Bool :=
  wf e.loc 33 31 ≠ 0 ||
  match spadCore m g e.loc with
  | none => true
  | some t =>
    let r := eaByte e.loc
    if wb e.loc 32 then
      r % 4096 ≠ 0 || 0x300000 < r + 64 || lo < 0 || 4096 * (wf (Memory.readW (m.core t).spad r) 0 16 : Int) ≤ hi ||
      (tilesOf ws e).any fun n => (ctLook (m.core t).spad r n).isNone
    else r ≠ 0 || lo < 0 || 0x300000 ≤ hi

/-- The bytes that the port reads at issue of an end in the compressed view: the header and the words of the named tiles
(R151, R159). -/
def viewWords (m : Mach) (t : Fin 256) (ws : List Word) (e : CEnd) : List (Nat × Nat) :=
  let r := eaByte e.loc
  let x := extremes ws e
  if r % 4096 ≠ 0 || 0x300000 < r + 64 then []
  else if x.1 < 0 || 4096 * (wf (Memory.readW (m.core t).spad r) 0 16 : Int) ≤ x.2 then [(r, 64)]
  else (r, 64) :: (tilesOf ws e).map fun n => (ctWordAt r n, 4)

/-- A KV end is malformed; START is taken without Off where R463 does not say otherwise (R176, R178, R295, R463). -/
def kvBad (m : Mach) (g : Fin 256) (e : CEnd) (start : Int) (rl : Nat) (lo : Int) : Bool :=
  let tb := kvTb e.loc
  wf e.loc 20 12 ≠ 0 || wf e.loc 42 22 ≠ 0 || tb = 0 || lo < 0 || e.levels.any (fun p => p.2 % (tb : Int) ≠ 0) ||
  (tb : Int) < start % (tb : Int) + runBytes e rl || 4096 < (kvOrds e rl).length ||
  (kvHandles (m.core g) e rl).any fun p => !m.handleOk (m.ctxOf g) p.2 || (m.poolOf p.2).bytes < 2 ^ kvLtpb e.loc * tb

/-- An end is malformed (R176, R178, R181). `start` is its START, to which `e` adds Off for the extremes only (R463), and
`desc` holds the descriptor words that a tensor end names. -/
def endBad (m : Mach) (g : Fin 256) (ws : List Word) (e : CEnd) (start : Int) (desc : List Word) : Bool :=
  let x := extremes ws e
  let w : Int := max 1 (nibbles e.ty / 2)
  131072 < ckRun ws * nibbles e.ty || (nibbles e.ty = 1 && ckRun ws % 2 = 1) || start % w ≠ 0 ||
  e.levels.any (fun p => p.2 % w ≠ 0) ||
  match e.kind with
  | 0 => spadBad m g ws e x.1 x.2
  | 1 =>
    wf e.loc 20 44 ≠ 0 || x.1 < 0 ||
    (match descOf desc with | some d => (d.size : Int) ≤ x.2 | none => true)
  | 2 => kvBad m g e start (ckRun ws) x.1
  | _ => e.loc ≠ 0

/-- An operation has no bitwise form on floating-point types (R179). -/
def bitwise : PortOp → Bool
  | .and | .or | .xor => true
  | _ => false

/-- The kinds and types that a form takes (R179). -/
def formOk (f : CForm) (ws : List Word) : Bool :=
  let sk := ckSk ws
  let dk := ckDk ws
  let st := ckSt ws
  let dt := ckDt ws
  let view := dk = 0 && wb (blkW ws 5) 32
  let noSstr := (List.range (ckLev ws)).all fun l => ckSstr ws l = 0
  match f with
  | .cp => sk ≤ 1 && dk ≤ 1 && st = dt && !isMx st
  | .cvt => sk ≤ 1 && dk ≤ 1 && cvtPair st dt
  | .mc => sk ≤ 1 && dk = 0 && eaSpace (blkW ws 5) = 0 && !view && st = dt && !isMx st
  | .kv => sk ≤ 2 && dk ≤ 2 && (sk = 2) ≠ (dk = 2) && st = dt && !isMx st
  | .acc op => sk ≤ 1 && dk ≤ 1 && !view && st = dt && (st = 10 || st = 11 || ((st = 1 || st = 2) && !bitwise op))
  | .fill => sk = 0 && blkW ws 3 = 0 && blkW ws 4 = 0 && noSstr && st = 0 && dk ≤ 1 && !isMx dt
  | .vat op =>
    sk = 3 && dk ≤ 1 && !view && st = dt && (st = 10 || ((st = 1 || st = 2) && !bitwise op)) && ckTotal ws = 1024 &&
    blkW ws 4 = 0 && noSstr

/-- AUX is malformed for a form (R179, R190). -/
def auxBad (f : CForm) (ws : List Word) : Bool :=
  let a := ckAux ws
  match f with
  | .fill => false
  | .mc => wf a 2 14 ≠ 0 || wf a 32 32 ≠ 0 || wf a 0 2 = 3 || (wf a 0 2 ≤ 1 && wf a 16 16 ≠ 0)
  | .cvt => !(isMx (ckSt ws) || isMx (ckDt ws)) && a ≠ 0
  | _ => a ≠ 0

/-- The receivers of an XCP.MC, ascending for GK 0 and 1; none where its group is not usable (R190, R336). -/
def receivers (m : Mach) (g : Fin 256) (ws : List Word) : Option (List (BitVec 10 × Fin 256)) :=
  let a := ckAux ws
  let mates (p : Fin 256 → Bool) := (coreNums.filter fun t => t ≠ g && m.present t && p t).map fun t => (m.fabid, t)
  match wf a 0 2 with
  | 0 => some (mates fun t => t.val / 8 = g.val / 8)
  | 1 => some (mates fun t => dieOf t = dieOf g)
  | _ => if wf a 16 16 = 0 then none else m.group (m.ctxOf g) (wf a 16 16)

/-- The tensor of an end, if it is one. -/
def CEnd.tensor (e : CEnd) : Option (BitVec 20) := if e.kind = 1 then some (e.loc.extractLsb' 0 20) else none

/-- The descriptor words of an end, read at issue by the core's cache (R181, R182). -/
def endDesc (m : Mach) (g : Fin 256) (e : CEnd) : List Word × Mach :=
  match e.tensor with
  | some t => if wf e.loc 20 44 = 0 then m.lookDesc (.core g) (m.ctxOf g) t else ([], m)
  | none => ([], m)

/-- A block of a copy program is malformed (R178, R463). -/
def copyBad (m : Mach) (g : Fin 256) (f : CForm) (ws : List Word) (off : Word) (sd dd : List Word) : Bool :=
  let lev := ckLev ws
  let w26 := blkW ws 26
  wf (blkW ws 0) 33 31 ≠ 0 || lev = 0 || 6 < lev || ckRun ws = 0 || 65536 < ckRun ws || 11 < ckSt ws || 11 < ckDt ws ||
  !hiZero ws 2 32 || (wb (blkW ws 0) 32 && !barOk m g (blkW ws 2)) ||
  (List.range lev).any (fun l => !hiZero ws (8 + 3 * l) 21 || ckCount ws l = 0 || 2 ^ 20 < ckCount ws l) ||
  (List.range 18).any (fun k => 3 * lev ≤ k && blkW ws (8 + k) ≠ 0) || (List.range 5).any (fun k => blkW ws (27 + k) ≠ 0) ||
  (if f = .mc then
    !hiZero ws 26 23 || (ckRben ws && (ckRbar ws % 8 ≠ 0 || !inSpad (ckRbar ws) 8)) || (receivers m g ws).isNone
   else w26 ≠ 0) ||
  !formOk f ws || auxBad f ws || (f ≠ .fill && endBad m g ws (srcEnd ws) (sInt (blkW ws 4)) sd) ||
  endBad m g ws (dstEnd ws off) (sInt (blkW ws 6)) dd

/-- The INFO of a BTM_MISS of a KV end, if an ordinal is absent: the least one. For an ordinal of 65,536 or more, which no entry
and no field of INFO can hold, nothing is stated; the model's choice is that it is absent and reported modulo 65,536 (R165,
R167, R235; log entries 34 and 114). -/
def missOf (c : Core) (e : CEnd) (rl : Nat) : Option Word :=
  if e.kind ≠ 2 then none
  else (kvMiss c e rl).map fun k => BitVec.ofNat 64 ((kvSlot e.loc).toNat + k % 65536 * 65536)

/-- The core whose port answers at issue, for the header and the tile words of a compressed region (R159). -/
def viewPort (m : Mach) (g : Fin 256) (e : CEnd) : Option (Fin 256) :=
  if e.kind = 0 && wb e.loc 32 then spadCore m g e.loc else none

/-- AS, which waits at the port of core t, holds no place at the port of another end. -/
def Mach.leaveOther (m : Mach) (g t : Fin 256) (e : CEnd) : Mach :=
  match viewPort m g e with | some u => if u = t then m else m.servedAt g .asy u | none => m

/-- The reads that AS makes at issue of the compressed ends `es`, one port after the other: `none` where an error has killed
the context, and the port that keeps the request where one cannot answer yet (R149, R151, R159, R213). -/
def viewIssue (g : Fin 256) (ws : List Word) : List CEnd → Mach → Except (Option (Fin 256)) Unit × Mach
  | [], m => (.ok (), m)
  | e :: es, m =>
    match viewPort m g e with
    | none => viewIssue g ws es m
    | some t =>
      if heldBy m g .asy t then (.error (some t), m)
      else
        let r := (m.servedAt g .asy t).portReads (m.ctxOf g) t false (viewWords m t ws e)
        if r.2 then viewIssue g ws es r.1 else (.error none, r.1)

end Sys2Proof.Machine
end

