-- ==== Sys2Proof/Machine/Operands.lean ====
section
/-!
DEFINITION. Every operand form: the vector sources and destinations of VX (spec/02_execution.md R57, R58, R65 to R67;
spec/17_reference_v_y.md R437), element types of loads and stores (spec/03_encoding.md R88), and the address patterns
of LD, ST and MX (R63; spec/05_onchip_memory.md R152, R155, R158).
-/
namespace Sys2Proof.Machine

/-! ## Tiles -/

/-- A tile given lane by lane. -/
def tileOf (f : Nat → Lane) : Tile := Vector.ofFn fun l : Fin 1024 => f l.val

/-- Lane l of a tile. -/
def laneOf (t : Tile) (l : Nat) : Lane := t[l]?.getD 0

/-- A tile of 4,096 bytes: lane k holds bytes 4k to 4k + 3 (R158, R452). -/
def tileOfBytes (bs : List Byte) : Tile := Vector.ofFn fun l : Fin 1024 =>
  BitVec.ofNat 32 (leVal ((bs.drop (4 * l.val)).take 4))

/-- The bytes of a tile. -/
def tileBytes (t : Tile) : List Byte := t.toList.flatMap fun x => leBytes 4 x.toNat

/-- The low w bits of a lane. -/
def low (w : Nat) (x : Lane) : Lane := BitVec.ofNat 32 (fld x.toNat 0 w)

/-- The low w bits of a number, sign-extended to a lane. -/
def signLane (w : Nat) (n : Nat) : Lane := BitVec.ofInt 32 (signField n w)

/-- The place of Q4 to Q7 in `qw` (R55). -/
def qwIx (q : Fin 8) : Fin 4 := Fin.ofNat 4 q.val

/-! ## VX sources and destinations -/

/-- A VX source read: its 1,024 lanes, and the core after a queue entry is popped; none where the queue is empty
(R56 to R58). -/
def Core.readSpec (c : Core) (w : Nat) (x : VSpec) : Option (Tile × Core) :=
  match x with
  | .v n => some (c.v[n.val], c)
  | .w n => some (c.w[n.val], c)
  | .z n => some (c.z[n.val], c)
  | .q n =>
    if 4 ≤ n.val then
      match c.qw[(qwIx n).val] with
      | [] => none
      | e :: rest => some (tileOf fun _ => low w (e.setWidth 32), { c with qw := put c.qw (qwIx n) rest })
    else
      let k : Fin 4 := Fin.ofNat 4 n.val
      match c.qt[k.val] with
      | [] => none
      | e :: rest => some (e, { c with qt := put c.qt k rest })

/-- The sources of an instruction, read in the order A, B, C (R57, R437). -/
def Core.readSpecs (c : Core) (w : Nat) : List VSpec → Option (List Tile × Core)
  | [] => some ([], c)
  | x :: xs =>
    match c.readSpec w x with
    | none => none
    | some (t, c') => (c'.readSpecs w xs).map fun r => (t :: r.1, r.2)

/-- Room for the result: a queue destination that is full blocks (R56). -/
def Core.destRoom (c : Core) (d : VSpec) : Bool :=
  match d with
  | .q n => if 4 ≤ n.val then (c.qw[(qwIx n).val]).length < 16 else (c.qt[(Fin.ofNat 4 n.val).val]).length < 4
  | _ => true

/-- What a masked-off lane of a destination holds: the register's value, or zero in a pushed entry (R67). -/
def Core.oldDest (c : Core) (d : VSpec) : Tile :=
  match d with
  | .v n => c.v[n.val]
  | .w n => c.w[n.val]
  | _ => Tile.zero

/-- A result, already masked, written to its destination; Z1 takes Z0, and Z0 the result (R58, R66). -/
def Core.writeDest (c : Core) (d : VSpec) (r : Tile) : Core :=
  let c := { c with z := put (put c.z 1 c.z[0]) 0 r }
  match d with
  | .v n => { c with v := put c.v n r }
  | .w n => { c with w := put c.w n r }
  | .z _ => c
  | .q n =>
    if 4 ≤ n.val then { c with qw := upd c.qw (qwIx n) (· ++ [(laneOf r 0).setWidth 64]) }
    else { c with qt := upd c.qt (Fin.ofNat 4 n.val) (· ++ [r]) }

/-- Mask k lets lane l through (R67). -/
def Core.on (c : Core) (k : Fin 8) (l : Nat) : Bool := (c.rm k).getLsbD l

/-- A result under a mask: `f l` where the mask is 1, the old lane elsewhere (R437). -/
def Core.masked (c : Core) (k : Fin 8) (old : Tile) (f : Nat → Lane) : Tile :=
  tileOf fun l => if c.on k l then f l else laneOf old l

/-- What VX rounds and draws with: the mode, the key, c0, the parcel address (R70, R133, R136). -/
structure VxEnv where
  md : RMode
  seed : Word
  c0 : Word
  c0r : Word
  padr : PAddr
  deriving DecidableEq, Repr

/-- The rounding inputs of an engine's current parcel; `k` is the place of its copies of ROUND and SEED. -/
def Core.env (c : Core) (e : Engine) (k : Fin 3) : VxEnv :=
  let p := (c.e e).pc
  let id := match c.task with | some t => (t.taskid, t.rank) | none => (0, 0)
  ⟨rmodeOf c.round[k.val], c.seed[k.val], mixC0 id.1 p id.2 0, mixC0 id.1 p id.2 1, p⟩

/-- The draw of an element of a part (R133, R134). -/
def VxEnv.draw (v : VxEnv) (elem rep part : Nat) : Nat :=
  if v.md = .rsr then drawOf (mix v.seed v.c0 (mixC1 elem rep part)) else 0

/-- The device NaN of a lane (R136). -/
def VxEnv.dv (v : VxEnv) (lane : Nat) : Lane := devNan v.padr lane

/-- A value rounded to a type in a lane (R129, R437). -/
def VxEnv.round (v : VxEnv) (t : DTy) (lane part : Nat) (x : Val) : Lane :=
  BitVec.ofNat 32 (x.toD t v.md (v.draw lane 0 part))

/-! ## Element types of loads and stores -/

/-- Bytes of an element in scratchpad, 0 for a half byte; .RAW moves lanes as .B32 (R88, R452). -/
def EtM.bytes : EtM → Nat
  | .b32 => 4 | .b16 => 2 | .b16s => 2 | .b8 => 1 | .b8s => 1 | .b4 => 0 | .b4s => 0 | .raw => 4

/-- Bytes of a tile row of 64 elements (R452). -/
def EtM.rowBytes (t : EtM) : Nat := if EtM.bytes t = 0 then 32 else 64 * EtM.bytes t

/-- The byte of element e within its row (R452). -/
def EtM.byteOf (t : EtM) (e : Nat) : Nat := if EtM.bytes t = 0 then e / 2 else e * EtM.bytes t

/-- The lane that an element's bytes give: n the number its bytes hold, e its index in the row (R88). -/
def EtM.widen (t : EtM) (e n : Nat) : Lane :=
  match t with
  | .b32 | .raw => BitVec.ofNat 32 n
  | .b16 | .b8 => BitVec.ofNat 32 n
  | .b16s => signLane 16 n
  | .b8s => signLane 8 n
  | .b4 => BitVec.ofNat 32 (fld n (4 * (e % 2)) 4)
  | .b4s => signLane 4 (fld n (4 * (e % 2)) 4)

/-! ## Address patterns -/

/-- The fields of an address-pattern pair (R63). -/
structure Pat where
  base : Nat
  rowp : Nat
  tilep : Nat
  rot : Nat
  bad : Bool
  deriving DecidableEq, Repr

/-- The pair that two A registers hold. -/
def patOf (even odd : Word) : Pat where
  base := wf even 0 22
  rowp := wf even 24 16
  tilep := wf odd 0 22
  rot := wf odd 24 3
  bad := wf even 22 2 ≠ 0 || wf even 40 24 ≠ 0 || wf odd 22 2 ≠ 0 || wf odd 27 37 ≠ 0

/-- Pair p of the copy that LD (0), ST (1) or MX (2) holds (R64). -/
def Core.pat (c : Core) (k : Fin 3) (p : Fin 8) : Pat :=
  let f := c.a[k.val]
  patOf (f[(Fin.ofNat 16 (2 * p.val)).val]) (f[(Fin.ofNat 16 (2 * p.val + 1)).val])

/-- The alignment that the pair itself needs (R63, R152); the compressed view asks for more (R158). -/
def Pat.aligned (p : Pat) : Bool :=
  p.rowp % 4 = 0 && (!(1 ≤ p.rot && p.rot ≤ 5) || (p.base % 64 = 0 && p.rowp % 2048 = 0))

/-- The address of byte c of row j, before a repeat or tile advance (R152). -/
def Pat.addr (p : Pat) (j c : Nat) : Nat :=
  if p.rot = 0 then p.base + j * p.rowp + c
  else p.base + j * p.rowp + 64 * ((c / 64 + j * 2 ^ (p.rot - 1) % 32) % 32) + c % 64

/-- The first addresses of the runs of bytes that lie together in a row of n bytes: one run, or 64-byte lines. -/
def Pat.runs (p : Pat) (j n : Nat) : List (Nat × Nat) :=
  if p.rot = 0 then [(p.addr j 0, n)]
  else (List.range ((n + 63) / 64)).map fun l => (p.addr j (64 * l), min 64 (n - 64 * l))

/-- The runs of a whole access of `rows` rows of n bytes, moved by `adv` bytes, as integers. -/
def Pat.allRuns (p : Pat) (rows n : Nat) (adv : Int) : List (Int × Nat) :=
  (List.range rows).flatMap fun j => (p.runs j n).map fun r => ((r.1 : Int) + adv, r.2)

/-- Every run lies in a memory of `lim` bytes. -/
def runsIn (lim : Nat) (rs : List (Int × Nat)) : Bool := rs.all fun r => 0 ≤ r.1 && r.1 + r.2 ≤ lim

/-- The fault of an access of `rows` rows of n bytes through a pair that is not the compressed view, with elements of
s bytes, moved by `adv`, in a memory of `lim` bytes (R63, R94, R152, R155). -/
def Pat.fault (p : Pat) (acc : Bool) (s rows n : Nat) (adv : Int) (lim : Nat) : Option Cause :=
  if !p.aligned || (s ≠ 0 && p.base % s ≠ 0) then some .align
  else if p.bad || 6 ≤ p.rot || (acc && p.rot ≠ 0) || (p.rot ≠ 0 && 2048 < n) || !runsIn lim (p.allRuns rows n adv) then
    some .spadRange
  else none

/-- A repetition of a repeating word is complete: the next one follows, or the word retires (R54, R59). -/
def repEnd (i : Instr) (g : Fin 256) (e : Engine) (rep : BitVec 6) (m : Mach) : Mach :=
  if ((m.core g).e e).rep = rep then retireSeq i g e m
  else m.onCore g fun c =>
    (c.popTok e ((tokOf i).getD ⟨none, none⟩)).onE e fun x => { x with rep := x.rep + 1, tokp := true, wait := none, job := none }

end Sys2Proof.Machine
end

