-- ==== Sys2Proof/Machine/AsCopy.lean ====
section
/-!
DEFINITION. Copy programs, atomics and vector atomics: their issue, their elements at the ports, and their completion
(spec/06_copy_engines.md R171 to R190; spec/17_reference_v_y.md R441, R442, R463, R465; spec/13_collectives.md R337).
-/
namespace Sys2Proof.Machine

/-! ## Issue -/

/-- The commands that a copy engine holds (R171). -/
def Mach.engineOps (m : Mach) (d : Fin 4) (e : Fin 4) : List Op := m.ops.filter fun o => o.die = d && o.unit = .copy e

/-- A parcel that leaves a command at a copy engine, of which it holds up to 64 (R171). -/
def isCopyCmd : Instr → Bool
  | .rngcfg .. | .btld .. | .btlk .. | .btinv .. => false
  | _ => true

/-- The copy engine of core g holds 64 open commands (R171). -/
def engineFull (m : Mach) (g : Fin 256) : Bool :=
  64 ≤ (m.ops.filter fun o => o.die = dieOf g && o.unit = engineOf g && isCopyCmd o.instr).length

/-- Stream numbers for a multicast's receivers, one each (R337, R338; log entry 94). -/
def mcStream (s : BitVec 16) (k : Nat) : BitVec 16 := BitVec.ofNat 16 ((s.toNat + k) % 0xFF00)

/-- The operation of a copy program that passes its checks (R173, R175, R176, R190). -/
def copyOp (m : Mach) (i : Instr) (g : Fin 256) (base : Nat) (ws : List Word) (off : Word) (lanes : List Lane)
    (sd dd : List Word) : Op :=
  let se := srcEnd ws
  let de := dstEnd ws off
  let rl := ckRun ws
  { mkOp m g i (engineOf g) base ws (wb (blkW ws 0) 32) with
    sb := off, lanes := lanes, sdesc := sd, ddesc := dd, stream := m.nextStream,
    handles := if se.kind = 2 then kvHandles (m.core g) se rl else if de.kind = 2 then kvHandles (m.core g) de rl else [],
    rcvs := if formOf i = .mc then (receivers m g ws).getD [] else [] }

/-- The issue of a copy program whose block has been read: the compressed ends' headers and tile words, its checks in the
order of R463, its descriptors, handles and receivers, CODE 0, and its copy engine (R173). -/
def copyIssue (i : Instr) (off : Mach → Fin 256 → Word) (lanes : List Lane) (g : Fin 256) (m : Mach) : Eff :=
  asBlock m g 256 fun m base ws =>
    let f := formOf i
    let se := srcEnd ws
    let de := dstEnd ws (off m g)
    let es := if f = .fill then [de] else [se, de]
    let v := viewIssue g ws es m
    match v.1 with
    | .error (some t) => (es.foldl (fun m e => m.leaveOther g t e) v.2).heldAt g .asy t (tk i)
    | .error none => .wait v.2
    | .ok _ =>
      let sd := endDesc v.2 g se
      let dd := endDesc sd.2 g de
      let m := dd.2
      if copyBad m g f ws (off m g) sd.1 dd.1 then .fail .cmdMalformed
      else
        match (missOf (m.core g) se (ckRun ws)).or (missOf (m.core g) de (ckRun ws)) with
        | some x => .trap .btmMiss 0 x
        | none =>
          let o := copyOp m i g base ws (off m g) lanes sd.1 dd.1
          let m := m.noteGroup (m.ctxOf g) (if f = .mc && wf (ckAux ws) 0 2 = 2 then wf (ckAux ws) 16 16 else 0)
          .done (({ m with nextStream := mcStream m.nextStream o.rcvs.length }).startOp o)

/-- The offset that a copy program takes from Sb; zero where no Sb is named, since S0 reads zero (R175). -/
def sbOff (m : Mach) (g : Fin 256) : Word := (m.core g).opSb

/-- A copy program of Format C (R463). -/
def copyParcel (i : Instr) : State → Out :=
  asParcel i (fun g m => if engineFull m g then .wait m else copyIssue i sbOff [] g m) (asIssued i) noWork

/-- XCP: a copy of element bits (R179). -/
def execXcp (t : Tok) (a b : Fin 32) : State → Out := copyParcel (.xcp t a b)

/-- XCP.CVT: a copy that converts (R180). -/
def execXcpCvt (t : Tok) (a b : Fin 32) : State → Out := copyParcel (.xcpCvt t a b)

/-- XCP.MC: a copy to a group of receivers (R190). -/
def execXcpMc (t : Tok) (a b : Fin 32) : State → Out := copyParcel (.xcpMc t a b)

/-- XCP.KV: a copy with a KV end (R176). -/
def execXcpKv (t : Tok) (a b : Fin 32) : State → Out := copyParcel (.xcpKv t a b)

/-- XACC.ADD: additions at the destination port (R183). -/
def execXaccAdd (t : Tok) (a b : Fin 32) : State → Out := copyParcel (.xaccAdd t a b)

/-- XACC.MIN: minima at the destination port (R183). -/
def execXaccMin (t : Tok) (a b : Fin 32) : State → Out := copyParcel (.xaccMin t a b)

/-- XACC.MAX: maxima at the destination port (R183). -/
def execXaccMax (t : Tok) (a b : Fin 32) : State → Out := copyParcel (.xaccMax t a b)

/-- XACC.AND: bitwise AND at the destination port (R183). -/
def execXaccAnd (t : Tok) (a b : Fin 32) : State → Out := copyParcel (.xaccAnd t a b)

/-- XACC.OR: bitwise OR at the destination port (R183). -/
def execXaccOr (t : Tok) (a b : Fin 32) : State → Out := copyParcel (.xaccOr t a b)

/-- XACC.XOR: bitwise exclusive OR at the destination port (R183). -/
def execXaccXor (t : Tok) (a b : Fin 32) : State → Out := copyParcel (.xaccXor t a b)

/-- XFILL: the fill value to every destination element (R179). -/
def execXfill (t : Tok) (a b : Fin 32) : State → Out := copyParcel (.xfill t a b)

/-! ## Vector atomics -/

/-- The VATOM buffer of core g emptied (R442). -/
def Mach.freeVbuf (m : Mach) (g : Fin 256) : Mach := m.onCore g fun c => { c with vbuf := none }

/-- VX at a VATOM: the lanes of Vb into the buffer, once it is empty (R442). -/
def vatomVx (i : Instr) (v : VSpec) (g : Fin 256) (m : Mach) : Mach :=
  match v with
  | .q _ => m.skip g .vx (parcels i)
  | _ =>
    match (m.core g).vbuf, (m.core g).readSpec 32 v with
    | none, some (x, _) => (m.onCore g fun c => { c with vbuf := some x }).skip g .vx (parcels i)
    | _, _ => m

/-- AS at a VATOM: the command issues once the buffer is filled, and the entry is freed, at a trap as well (R442). -/
def vatomAs (i : Instr) (g : Fin 256) (m : Mach) : Eff :=
  match (m.core g).vbuf with
  | none => .wait m
  | some x =>
    if engineFull m g then .wait m
    else
      match copyIssue i (fun _ _ => 0) x.toList g m with
      | .done m => .done (m.freeVbuf g)
      | .trap c code info => .wait ((m.freeVbuf g).takeTrap g .asy c code (infoOr c info i))
      | .wait m => .wait m

/-- VATOM, its three shares: SC posts, VX reads Vb, AS issues, and frees the buffer where the parcel's own tokens make it
trap (R46, R94, R442). -/
def vatomParcel (i : Instr) (v : VSpec) (s : State) : Out :=
  match s.m.focus with
  | .engine g .vx => ready (vatomVx i v g) s
  | .engine g .asy =>
    ready (fun m =>
      let m := asIssue i (fun g m => vatomAs i g m) (asIssued i) g m
      if (illForm i).isSome then m.freeVbuf g else m) s
  | _ => asParcel i (vatomAs i) (asIssued i) noWork s

/-- VATOM.ADD (R441). -/
def execVatomAdd (t : Tok) (a : Fin 32) (v : VSpec) : State → Out := vatomParcel (.vatomAdd t a v) v

/-- VATOM.MIN (R441). -/
def execVatomMin (t : Tok) (a : Fin 32) (v : VSpec) : State → Out := vatomParcel (.vatomMin t a v) v

/-- VATOM.MAX (R441). -/
def execVatomMax (t : Tok) (a : Fin 32) (v : VSpec) : State → Out := vatomParcel (.vatomMax t a v) v

/-- VATOM.AND (R441). -/
def execVatomAnd (t : Tok) (a : Fin 32) (v : VSpec) : State → Out := vatomParcel (.vatomAnd t a v) v

/-- VATOM.OR (R441). -/
def execVatomOr (t : Tok) (a : Fin 32) (v : VSpec) : State → Out := vatomParcel (.vatomOr t a v) v

/-- VATOM.XOR (R441). -/
def execVatomXor (t : Tok) (a : Fin 32) (v : VSpec) : State → Out := vatomParcel (.vatomXor t a v) v

/-! ## Atomics -/

/-- The operation of an XATOM (R184). -/
def atomOp : Instr → PortOp
  | .xatomMin .. => .min | .xatomMax .. => .max | .xatomAnd .. => .and | .xatomOr .. => .or | .xatomXor .. => .xor
  | .xatomSwap .. => .swap | .xatomCas .. => .cas | _ => .add

/-- Bytes of an XATOM's target. -/
def atomBytes (ws : List Word) : Nat := if wb (blkW ws 0) 0 then 8 else 4

/-- The target of an XATOM as an end (R184). -/
def atomEnd (ws : List Word) : CEnd := ⟨if wb (blkW ws 0) 2 then 1 else 0, blkW ws 3, 0, [], 0⟩

/-- The byte of the target in its space. -/
def atomAt (ws : List Word) : Nat := if wb (blkW ws 0) 2 then (blkW ws 4).toNat else eaByte (blkW ws 3)

/-- An XATOM block is malformed (R184, R465). -/
def atomBad (m : Mach) (g : Fin 256) (op : PortOp) (ws : List Word) (desc : List Word) : Bool :=
  let w0 := blkW ws 0
  let n := atomBytes ws
  wf w0 3 29 ≠ 0 || wf w0 33 31 ≠ 0 || (wb w0 1 && op ≠ .min && op ≠ .max) || !hiZero ws 2 32 ||
  (wb w0 32 && !barOk m g (blkW ws 2)) || (op ≠ .cas && blkW ws 5 ≠ 0) || !hiZero ws 6 22 || wf (blkW ws 6) 0 3 ≠ 0 ||
  !inSpad (wf (blkW ws 6) 0 22) 8 || blkW ws 7 ≠ 0 ||
  (if wb w0 2 then
    !hiZero ws 3 20 || (match descOf desc with | some d => d.size < atomAt ws + n | none => true)
   else blkW ws 4 ≠ 0)

/-- XATOM's issue, its checks in the order of R465. -/
def atomIssue (i : Instr) (g : Fin 256) (m : Mach) : Eff :=
  if engineFull m g then .wait m
  else
    asBlock m g 64 fun m base ws =>
      let n := atomBytes ws
      let e := atomEnd ws
      if atomAt ws % n ≠ 0 then .fail .align
      else if e.kind = 0 && ((m.cellCore g (blkW ws 3)).isNone || 0x300000 < atomAt ws + n) then .fail .spadRange
      else
        let r := endDesc m g e
        let m := r.2
        if atomBad m g (atomOp i) ws r.1 then .fail .cmdMalformed
        else .done (m.startOp { mkOp m g i (engineOf g) base ws (wb (blkW ws 0) 32) with ddesc := r.1 })

/-- An XATOM parcel (R465). -/
def atomParcel (i : Instr) : State → Out := asParcel i (atomIssue i) (asIssued i) noWork

/-- XATOM.ADD (R184). -/
def execXatomAdd (t : Tok) (a b : Fin 32) : State → Out := atomParcel (.xatomAdd t a b)

/-- XATOM.MIN (R184). -/
def execXatomMin (t : Tok) (a b : Fin 32) : State → Out := atomParcel (.xatomMin t a b)

/-- XATOM.MAX (R184). -/
def execXatomMax (t : Tok) (a b : Fin 32) : State → Out := atomParcel (.xatomMax t a b)

/-- XATOM.AND (R184). -/
def execXatomAnd (t : Tok) (a b : Fin 32) : State → Out := atomParcel (.xatomAnd t a b)

/-- XATOM.OR (R184). -/
def execXatomOr (t : Tok) (a b : Fin 32) : State → Out := atomParcel (.xatomOr t a b)

/-- XATOM.XOR (R184). -/
def execXatomXor (t : Tok) (a b : Fin 32) : State → Out := atomParcel (.xatomXor t a b)

/-- XATOM.SWAP (R184). -/
def execXatomSwap (t : Tok) (a b : Fin 32) : State → Out := atomParcel (.xatomSwap t a b)

/-- XATOM.CAS (R184). -/
def execXatomCas (t : Tok) (a b : Fin 32) : State → Out := atomParcel (.xatomCas t a b)

/-! ## Locations -/

/-- Where a byte of an end lies: a scratchpad, a compressed region's logical bytes, or device memory (R176). -/
inductive CLoc where
  | spad (t : Fin 256) (a : Nat)
  | view (t : Fin 256) (r x : Nat)
  | dev (a : Nat)
  deriving DecidableEq, Repr

/-- The core at whose port an end of operation o lies. -/
def CEnd.port (m : Mach) (o : Op) (e : CEnd) : Option (Fin 256) :=
  if e.kind = 0 then some ((spadCore m o.core e.loc).getD o.core) else none

/-- The location of byte x of an end of operation o; or the tile that is not present (R176, R181, R185). -/
def Mach.locate (m : Mach) (o : Op) (e : CEnd) (desc : List Word) (x : Nat) : Except (BitVec 20 × Nat) CLoc × Mach :=
  match e.kind with
  | 0 =>
    let t := (spadCore m o.core e.loc).getD o.core
    (.ok (if wb e.loc 32 then .view t (eaByte e.loc) x else .spad t x), m)
  | 1 =>
    let t : BitVec 20 := e.loc.extractLsb' 0 20
    (match descOf desc with
     | none => (.ok (.dev 0), m)
     | some d =>
       let r := m.placeOf (.core o.core) o.ctx t d x
       match r.1 with
       | .at a => (.ok (.dev a), r.2)
       | .absent n => (.error (t, n), r.2))
  | _ =>
    let tb := kvTb e.loc
    let k := x / tb / 2 ^ kvLtpb e.loc
    let h := (o.handles.lookup k).getD 0
    (.ok (.dev (m.blockAt h (x / tb % 2 ^ kvLtpb e.loc * tb + x % tb))), m)

/-- Bytes of an end that lie together wherever the end puts them: a scratchpad, a tile of the view, or a 64-byte piece of a
tile row or of a token (R176, R181). -/
def CEnd.unit (e : CEnd) : Nat := if e.kind = 0 then (if wb e.loc 32 then 4096 else 2 ^ 22) else 64

/-- The locations of runs of bytes of an end, with their lengths, or the first tile that is not present. -/
def Mach.locateAll (m : Mach) (o : Op) (e : CEnd) (desc : List Word) :
    List (Nat × Nat) → Except (BitVec 20 × Nat) (List (CLoc × Nat)) × Mach
  | [] => (.ok [], m)
  | (x, n) :: rest =>
    let l := m.locate o e desc x
    match l.1 with
    | .error p => (.error p, l.2)
    | .ok y =>
      let r := l.2.locateAll o e desc rest
      (r.1.map fun ys => (y, n) :: ys, r.2)

/-- The locations of n bytes from x of an end. -/
def Mach.locateRun (m : Mach) (o : Op) (e : CEnd) (desc : List Word) (x n : Nat) :
    Except (BitVec 20 × Nat) (List (CLoc × Nat)) × Mach :=
  m.locateAll o e desc (cutBy e.unit x n)

/-- The port of an end serves operation o now: the port's core runs a task of the context, and no earlier request waits there
(R149, R213). -/
def Mach.reach (m : Mach) (o : Op) (e : CEnd) : Bool :=
  match e.port m o with | some t => m.admits t o.ctx (.op o.id) | none => true

/-- Operation o takes its place at the port of an end, and leaves it once it is served (R149). -/
def Mach.await (m : Mach) (o : Op) (e : CEnd) : Mach :=
  match e.port m o with | some t => m.enqueue t o.ctx (.op o.id) | none => m
def Mach.reached (m : Mach) (o : Op) (e : CEnd) : Mach :=
  match e.port m o with | some t => m.dequeue t o.ctx (.op o.id) | none => m

/-- Element i of operation o is poisoned: PIDX keeps the first (R188). -/
def Mach.poisoned (m : Mach) (o : Op) (i : Nat) : Mach :=
  m.onOp o.id fun o => { o with poison := match o.poison with | none => some i | some k => some (min k i) }

/-- A lasting memory error that operation o meets in n bytes at a: the report to the block's Campanile, and its one report
to the host, which a speculative block does not get (R188, R309, R367; log entry 35). -/
def Mach.noteLasting (m : Mach) (o : Op) (a n : Nat) : Mach :=
  let b := m.badByte a n
  let r := m.reportBlock b
  match r.2.findOp o.id with
  | some q =>
    if q.begun || !r.1 then r.2
    else
      (r.2.frameRecord 3 o.ctx b).onOp o.id fun o => { o with begun := true }
  | none => r.2

/-- n bytes read at a location: the bytes, and whether they are good; none where an error has killed the context. A
bad read gives zeros (R151, R188, R365, R366). -/
def Mach.locRead (m : Mach) (o : Op) (l : CLoc) (n : Nat) : Option (List Byte × Bool) × Mach :=
  match l with
  | .spad t a =>
    let r := m.portRead o.ctx t false a n
    if r.2 then (some (Memory.read (m.core t).spad a n, true), r.1) else (none, r.1)
  | .view t r x =>
    let k : Int := (x / 4096 : Nat)
    (match ctLook (m.core t).spad r k, ctRead (m.core t).spad r k with
     | some y, some bs =>
       let q := m.portReads o.ctx t false (ctRuns r (x / 4096) y)
       if q.2 then (some ((bs.drop (x % 4096)).take n, true), q.1) else (none, q.1)
     | _, _ =>
       let q := m.portReads o.ctx t false (ctHead r k)
       (if q.2 then some (List.replicate n 0, false) else none, q.1))
  | .dev a =>
    let m' := m.noteWorld o.ctx a n
    if m.badAt a n then (some (List.replicate n 0, false), m'.noteLasting o a n)
    else (some (m.devRead (m.sec o.ctx) a n, !m.violates o.ctx a n), m'.retried a n)

/-- Runs of bytes read one after the other, as one value (R185, R188). -/
def Mach.locReads (m : Mach) (o : Op) : List (CLoc × Nat) → Option (List Byte × Bool) × Mach
  | [] => (some ([], true), m)
  | (l, n) :: rest =>
    let r := m.locRead o l n
    match r.1 with
    | none => (none, r.2)
    | some (bs, good) =>
      let q := r.2.locReads o rest
      (q.1.map fun x => (bs ++ x.1, good && x.2), q.2)

/-- What one request covers: a logical tile of the view, or the bytes themselves (R161). -/
def CLoc.request : CLoc → CLoc
  | .view t r x => .view t r (x / 4096 * 4096)
  | l => l

/-- A logical tile with bytes put into it. -/
def mergeInto (old : List Byte) (ps : List (Nat × List Byte)) : List Byte :=
  ps.foldl (fun old p => old.take p.1 ++ p.2 ++ old.drop (p.1 + p.2.length)) old

/-- One request that writes bytes: at a scratchpad, at device memory, or into a tile of the view, which its port decodes,
merges and places once; none where an error has killed the context, else whether the write was good (R151, R160, R161, R168,
R365). -/
def Mach.locWrite (m : Mach) (o : Op) (l : CLoc) (ps : List (CLoc × List Byte)) : Option Bool × Mach :=
  let bs := ps.flatMap (·.2)
  match l with
  | .spad t a => (some true, m.wspad t a bs)
  | .dev a => (some (!m.violates o.ctx a bs.length), m.ctxWrite o.ctx a bs)
  | .view t r x =>
    let k : Int := (x / 4096 : Nat)
    (match ctLook (m.core t).spad r k, ctRead (m.core t).spad r k with
     | some y, some old =>
       let new := mergeInto old (ps.map fun p => ((match p.1 with | .view _ _ z => z % 4096 | _ => 0), p.2))
       let q := m.portReads o.ctx t false (if bs.length = 4096 then [(r, 64), (ctWordAt r (x / 4096), 4)] else ctRuns r (x / 4096) y)
       if !q.2 then (none, q.1)
       else
         (match ctWrite (q.1.core t) r k new with
          | some c => (some true, q.1.onCore t fun _ => c)
          | none => (some false, q.1))
     | _, _ =>
       let q := m.portReads o.ctx t false (ctHead r k)
       (if q.2 then some false else none, q.1))

/-- The writes of a step, those into one tile of a view as one request: the requests that were not good; none where an error
has killed the context. -/
def Mach.locWrites (m : Mach) (o : Op) (ws : List (CLoc × List Byte)) : List CLoc → Option (List CLoc) × Mach
  | [] => (some [], m)
  | l :: ls =>
    let r := m.locWrite o l (ws.filter fun p => p.1.request = l)
    match r.1 with
    | none => (none, r.2)
    | some ok =>
      let q := r.2.locWrites o ws ls
      (q.1.map fun bad => if ok then bad else l :: bad, q.2)

/-! ## Elements -/

/-- Bytes of an element, a nibble's byte counting as one. -/
def elemBytes (ty : Nat) : Nat := max 1 (nibbles ty / 2)

/-- The code of an element in its bytes: low nibble first (R177). -/
def elemCode (ty nib : Nat) (bs : List Byte) : Nat := if nibbles ty = 1 then fld (leVal bs) (4 * nib) 4 else leVal bs

/-- What reading source elements comes to: a code, and whether it is good, for each; or fewer of them, where a tile is not
present, or an error has killed the context. -/
structure SrcRead where
  vals : List (Nat × Bool)
  absent : Option (BitVec 20 × Nat)
  m : Mach

/-- n bytes of an end read as one element. -/
def Mach.readAt (m : Mach) (o : Op) (e : CEnd) (desc : List Word) (x n : Nat) (code : List Byte → Nat) : SrcRead :=
  let l := m.locateRun o e desc x n
  match l.1 with
  | .error p => ⟨[], some p, l.2⟩
  | .ok ls =>
    let r := l.2.locReads o ls
    match r.1 with
    | none => ⟨[], none, r.2⟩
    | some (bs, good) => ⟨[(code bs, good)], none, r.2⟩

/-- Source element i of a command: memory, the fill value, or a lane (R175, R179, R441). -/
def Mach.srcElem (m : Mach) (o : Op) (f : CForm) (i : Nat) : SrcRead :=
  let e := srcEnd o.blk
  match f with
  | .fill => ⟨[(fld (ckAux o.blk).toNat 0 (4 * nibbles (ckDt o.blk)), true)], none, m⟩
  | .vat _ => ⟨[(fld (o.lanes.getD i 0).toNat 0 (4 * nibbles e.ty), true)], none, m⟩
  | _ =>
    let x := elemAt e (ckRun o.blk) i
    m.readAt o e o.sdesc x.1.toNat (elemBytes e.ty) (elemCode e.ty x.2)

/-- Source elements i to i + n − 1, up to the first that is absent or killed. -/
def Mach.srcElems (m : Mach) (o : Op) (f : CForm) : Nat → Nat → SrcRead
  | 0, _ => ⟨[], none, m⟩
  | n + 1, i =>
    let s := m.srcElem o f i
    if s.vals.isEmpty then s
    else
      let r := s.m.srcElems o f n (i + 1)
      ⟨s.vals ++ r.vals, r.absent, r.m⟩

/-- The source elements of a step of n, with the scale of their block behind them where the source has scales (R177). -/
def Mach.srcStep (m : Mach) (o : Op) (f : CForm) (n : Nat) : SrcRead :=
  let r := m.srcElems o f n o.idx
  if r.vals.length < n || !isMx (ckSt o.blk) then r
  else
    let s := r.m.readAt o (srcEnd o.blk) o.sdesc (scaleAt o.blk o.idx).toNat 1 leVal
    ⟨r.vals ++ s.vals, s.absent, s.m⟩

/-- An element converted by XCP.CVT without an MX end (R134, R180). -/
def cvtElem (s d code : Nat) : Nat := (Val.ofF (fltOf s) code).toF false (fltOf d) .rne 0

/-- The value that a form writes where the old element is `old` and the source `s` (R144, R179, R183). -/
def newElem (o : Op) (f : CForm) (i old s : Nat) : Nat :=
  let ty := ckDt o.blk
  match f with
  | .cvt => cvtElem (ckSt o.blk) ty s
  | .acc op | .vat op =>
    if ty = 1 || ty = 2 then fltPort (fltOf ty) op (devNan o.pc (i % ckRun o.blk % 1024)) old s
    else intPort (4 * nibbles ty) false op 0 old s
  | _ => s

/-- A form reads its destination (R183). -/
def readsDest : CForm → Bool
  | .acc _ | .vat _ => true
  | _ => false

/-- The codes that a block writes, its scale where the destination has one, from source codes of F32 or of an MX type
with its scale (R126, R128, R180, R188). -/
def blockCodes (o : Op) (vs : List (Nat × Bool)) (scale : Option Nat) : List Nat × Option Nat :=
  let st := ckSt o.blk
  let dt := ckDt o.blk
  if isMx dt then
    let q := quantise (fltOf dt) (vs.map fun p => if p.2 then BitVec.ofNat 32 p.1 else 0)
    (((q.2.zip vs).map fun p => if p.2.2 then p.1 else 0), some q.1)
  else
    (vs.map fun p =>
      match scale with
      | some s => if p.2 then (f32 (expandMx (fltOf st) s p.1)).toF false (fltOf dt) .rne 0 else 0
      | none => 0, none)

/-- The codes that a step writes, and its scale, where the old element is `old` (R179, R180, R183, R188). -/
def stepCodes (o : Op) (f : CForm) (vs : List (Nat × Bool)) (old : Nat) : List Nat × Option Nat :=
  if isMx (ckDt o.blk) then blockCodes o vs none
  else if isMx (ckSt o.blk) then
    let s := vs.getLastD (0, false)
    blockCodes o vs.dropLast (if s.2 then some s.1 else none)
  else ((vs.zip (List.range vs.length)).map fun p => if p.1.2 then newElem o f (o.idx + p.2) old p.1.1 else 0, none)

/-- Codes of a type put into bytes from nibble `nib` on: low nibble first (R177). -/
def codesInto (ty nib : Nat) (codes : List Nat) (old : List Byte) : List Byte :=
  let w := 4 * nibbles ty
  leBytes old.length ((codes.zip (List.range codes.length)).foldl
    (fun (b : Nat) p => b - fld b (4 * nib + p.2 * w) w * 2 ^ (4 * nib + p.2 * w) + p.1 % 2 ^ w * 2 ^ (4 * nib + p.2 * w)) (leVal old))

/-! ## Steps -/

/-- The command stops on a tile that is not present, and nothing read ahead of it is kept (R185, R186). -/
def Mach.stopOp (m : Mach) (o : Op) (p : BitVec 20 × Nat) : Mach :=
  let r := m.stopped o.ctx p.1 p.2
  r.2.onOp o.id fun o => { o with stop := r.1, nfault := o.nfault + 1, src := [] }

/-- The command has applied n elements more. -/
def Mach.passed (m : Mach) (o : Op) (n : Nat) : Mach := m.onOp o.id fun o => { o with idx := o.idx + n, src := [], elems := [] }

/-- Elements of a step: a block with scales, those of a run that lie in one tile of a compressed destination, two nibbles of
a multicast, or one (R161, R180, R183). -/
def stepSize (o : Op) (f : CForm) : Nat :=
  let ws := o.blk
  let left := ckRun ws - o.idx % ckRun ws
  let x := elemAt (dstEnd ws o.sb) (ckRun ws) o.idx
  if f = .mc then (if nibbles (ckDt ws) = 1 then 2 else 1)
  else if isMx (ckSt ws) || isMx (ckDt ws) then min 32 left
  else if ckDk ws = 0 && wb (blkW ws 5) 32 then max 1 (min ((2 * (4096 - x.1.toNat % 4096) - x.2) / nibbles (ckDt ws)) left)
  else 1

/-- The port of a form's source. -/
def Mach.srcReach (m : Mach) (o : Op) (f : CForm) : Bool := f = .fill || m.reach o (srcEnd o.blk)

/-- The source of a step: what was read before, or a read now, in its turn at its port; none where the command waits or stops.
A run that meets an absent tile goes on with the elements before it, a block does not (R149, R180, R185, R213). -/
def Mach.stepSource (m : Mach) (o : Op) (f : CForm) : Option (List (Nat × Bool)) × Mach :=
  let n := stepSize o f
  if !o.src.isEmpty then (some o.src, m)
  else if !m.srcReach o f then (none, m.await o (srcEnd o.blk))
  else
    let r := (if f = .fill then m else m.reached o (srcEnd o.blk)).srcStep o f n
    let whole := n + (isMx (ckSt o.blk)).toNat
    if r.vals.length = whole then (some r.vals, r.m)
    else
      match r.absent with
      | none => (none, r.m)
      | some p =>
        if r.vals.isEmpty || isMx (ckSt o.blk) || isMx (ckDt o.blk) || f = .mc then (none, r.m.stopOp o p) else (some r.vals, r.m)

/-- The pieces of n bytes that locations hold. -/
def trimLocs : List (CLoc × Nat) → Nat → List (CLoc × Nat)
  | [], _ => []
  | (l, k) :: rest, n => if n = 0 then [] else (l, min k n) :: trimLocs rest (n - k)

/-- Bytes dealt out over locations. -/
def dealBytes : List (CLoc × Nat) → List Byte → List (CLoc × List Byte)
  | [], _ => []
  | (l, k) :: rest, bs => (l, bs.take k) :: dealBytes rest (bs.drop k)

/-- The elements of a step whose bytes a bad request was to write: from and to which byte of the step each request's pieces
reach, and the first element that lies there. -/
def badElem (ty nib : Nat) (bad : List CLoc) : List (CLoc × Nat) → Nat → Option Nat
  | [], _ => none
  | (l, k) :: rest, at' => if l.request ∈ bad then some ((2 * at' - nib) / nibbles ty) else badElem ty nib bad rest (at' + k)

/-- A step applied at its destination: the old bytes read where the form or a nibble needs them, the new ones written, each
request whole. A poisoned scale poisons its block from the first element on (R161, R183 to R185, R188). -/
def Mach.applyStep (m : Mach) (o : Op) (f : CForm) (vs : List (Nat × Bool)) (ds xs : List (CLoc × Nat)) : Mach :=
  let ws := o.blk
  let ty := ckDt ws
  let n := vs.length - (isMx (ckSt ws)).toNat
  let nib := (elemAt (dstEnd ws o.sb) (ckRun ws) o.idx).2
  let nb := (n * nibbles ty + nib + 1) / 2
  let ds := trimLocs ds nb
  let odd := nibbles ty = 1 && (nib ≠ 0 || (n + nib) % 2 = 1)
  let r := if readsDest f || odd then m.locReads o ds else (some (List.replicate nb 0, true), m)
  match r.1 with
  | none => r.2
  | some (old, fine) =>
    let use := if readsDest f && !fine then vs.map fun p => (p.1, false) else vs
    let out := stepCodes o f use (elemCode ty nib old)
    let puts := dealBytes ds (codesInto ty nib out.1 old) ++
      (match out.2 with | some s => dealBytes xs (leBytes 1 s) | none => [])
    let w := r.2.locWrites o puts ((puts.map fun p => p.1.request).eraseDups)
    match w.1 with
    | none => w.2
    | some bad =>
      let first := if n < use.length && (use.getLast?).any (fun p => !p.2) then some 0 else use.findIdx? fun p => !p.2
      let m := match first with | some k => w.2.poisoned o (o.idx + k) | none => w.2
      let m := match badElem ty nib bad ds 0 with | some k => m.poisoned o (o.idx + k) | none => m
      let m := if out.2.isSome && xs.any (fun x => x.1.request ∈ bad) then m.poisoned o o.idx else m
      m.passed o n

/-- The next step of a command with one destination: its locations, its source, and then its destination, each in its turn at
its port. Where both the destination's and the source's tile are absent, the destination's stops it (R149, R185; log entry
93). -/
def Mach.copyNext (m : Mach) (o : Op) (f : CForm) : Mach :=
  let ws := o.blk
  let e := dstEnd ws o.sb
  let n := stepSize o f
  let x := elemAt e (ckRun ws) o.idx
  let l := m.locateRun o e o.ddesc x.1.toNat ((n * nibbles e.ty + x.2 + 1) / 2)
  let k := if isMx e.ty then l.2.locateRun o e o.ddesc (scaleAt ws o.idx).toNat 1 else (.ok [], l.2)
  match l.1, k.1 with
  | .error p, _ => l.2.stopOp o p
  | _, .error p => k.2.stopOp o p
  | .ok ds, .ok xs =>
    let s := k.2.stepSource o f
    match s.1 with
    | none => s.2
    | some vs =>
      if s.2.reach o e then (s.2.reached o e).applyStep o f vs ds xs
      else (s.2.onOp o.id fun o => { o with src := vs }).await o e

/-! ## Multicast -/

/-- The number by which an operation's messages go. -/
def Op.tag (o : Op) : Nat := o.id + 1

/-- The bytes of a unit of a multicast: two nibbles, or one element. -/
def mcBytes (ws : List Word) (vs : List (Nat × Bool)) : List Byte :=
  let code (k : Nat) : Nat := match vs[k]? with | some (c, true) => c | _ => 0
  if nibbles (ckDt ws) = 1 then leBytes 1 (code 0 % 16 + code 1 % 16 * 16) else leBytes (nibbles (ckDt ws) / 2) (code 0)

/-- The unit at hand goes to receiver k of this package, at its port; the receivers that have it are noted in `elems` (R149,
R190). -/
def Mach.mcGive (m : Mach) (o : Op) (x : Nat) (bs : List Byte) (p : (BitVec 10 × Fin 256) × Nat) : Mach :=
  if o.elems.any fun e => e.1 = p.2 then m
  else m.request1 p.1.2 o.ctx (.op o.id) fun m => (m.wspad p.1.2 x bs).onOp o.id fun o => { o with elems := (p.2, 1) :: o.elems }

/-- A unit of a multicast, to every receiver: at its port in this package, or as a message of KIND 6, one stream to each
receiver (R190, R337; log entry 4). -/
def Mach.copyMc (m : Mach) (o : Op) : Mach :=
  let ws := o.blk
  let x := (elemAt (dstEnd ws o.sb) (ckRun ws) o.idx).1.toNat
  let s := m.stepSource o .mc
  match s.1 with
  | none => s.2
  | some vs =>
    let n := stepSize o .mc
    let bs := mcBytes ws vs
    let m := s.2.onOp o.id fun o => { o with src := vs }
    let m := match vs.findIdx? fun p => !p.2 with | some k => m.poisoned o (o.idx + k) | none => m
    let rs := o.rcvs.zip (List.range o.rcvs.length)
    if wf (ckAux ws) 0 2 = 2 then
      (rs.foldl (fun m p =>
        m.send o.die o.tag (m.mkMsg 6 o.ctx p.1.1 (BitVec.ofNat 8 p.1.2.val) (mcStream o.stream p.2) x 0 0 bs)) m).passed o n
    else
      let m := rs.foldl (fun m p => m.mcGive o x bs p) m
      match m.findOp o.id with
      | some q => if rs.all fun p => q.elems.any fun e => e.1 = p.2 then m.passed o n else m
      | none => m

/-- The arrival of a multicast at its k-th receiver, after all of that receiver's data (R190, R338). -/
def Mach.mcArrive (m : Mach) (o : Op) (k : Nat) : Mach :=
  match o.rcvs[k]? with
  | none => m.passed o 1
  | some r =>
    if wf (ckAux o.blk) 0 2 = 2 then
      (m.send o.die o.tag
        (m.mkMsg 7 o.ctx r.1 (BitVec.ofNat 8 r.2.val) (mcStream o.stream k) (ckRbar o.blk) 0 0 [])).passed o 1
    else m.request1 r.2 o.ctx (.op o.id) fun m => (m.arrive r.2 (ckRbar o.blk) o.ctx).passed o 1

/-! ## The steps of a copy engine -/

/-- XATOM at its port: the target read, changed, written; its old value kept (R184). -/
def Mach.atomStep (m : Mach) (o : Op) : Mach :=
  let ws := o.blk
  let n := atomBytes ws
  let e := atomEnd ws
  let l := m.locate o e o.ddesc (atomAt ws)
  match l.1 with
  | .error p => l.2.stopOp o p
  | .ok loc =>
    if !l.2.reach o e then l.2.await o e
    else
      let r := (l.2.reached o e).locRead o loc n
      match r.1 with
      | none => r.2
      | some (bs, good) =>
        let old := leVal bs
        let new := if good then
          intPort (8 * n) (wb (blkW ws 0) 1) (atomOp o.instr) (fld (blkW ws 5).toNat 0 (8 * n)) old (fld o.sb.toNat 0 (8 * n))
          else 0
        let w := r.2.locWrite o loc [(loc, leBytes n new)]
        let m := if good then w.2 else w.2.poisoned o 0
        m.onOp o.id fun o => { o with lanes := [BitVec.ofNat 32 old, BitVec.ofNat 32 (old / 2 ^ 32)], fin := true }

/-- The next step, or arrival, of copy program o (R175, R190). -/
def Mach.copyStep (m : Mach) (o : Op) : Mach :=
  let ws := o.blk
  let f := formOf o.instr
  let n := ckTotal ws
  if o.idx < n then (if f = .mc then m.copyMc o else m.copyNext o f)
  else if f = .mc && ckRben ws && o.idx < n + o.rcvs.length then m.mcArrive o (o.idx - n)
  else if m.sending o.tag then m
  else m.finish o.id

/-- A command that is an atomic. -/
def isAtom : Instr → Bool
  | .xatomAdd .. | .xatomMin .. | .xatomMax .. | .xatomAnd .. | .xatomOr .. | .xatomXor .. | .xatomSwap .. | .xatomCas .. => true
  | _ => false

/-- COPY_ELEMENT: copy engine e of die d applies the next element of its k-th command, unless it is stopped or applied
whole (R171, R175, R185). -/
def execCopyElement (d e : Fin 4) (k : Nat) : State → Out :=
  ready fun m =>
    match (m.engineOps d e)[k]? with
    | none => m
    | some o =>
      if o.fin || o.stop.isSome then m
      else if isAtom o.instr then m.atomStep o
      else m.copyStep o

/-! ## Completion -/

/-- The STATUS word of a completed copy command (R174). -/
def copyStatus (o : Op) : Word :=
  BitVec.ofNat 64 ((if o.poison.isSome then 2 else 1) + min o.nfault 65535 * 2 ^ 16 + o.poison.getD 0 % 2 ^ 32 * 2 ^ 32)

/-- The report of a command: STATUS, and XATOM's return value; a ring or translation command's RESULT (R174, R384). -/
def Mach.report (m : Mach) (o : Op) : Mach :=
  if isAtom o.instr then
    (m.putRes o (copyStatus o)).wspad o.core (wf (blkW o.blk 6) 0 22)
      (leBytes 4 (o.lanes.getD 0 0).toNat ++ leBytes 4 (o.lanes.getD 1 0).toNat)
  else if isCopyCmd o.instr then m.putRes o (copyStatus o)
  else m.putRes o (BitVec.ofNat 64 (1 + o.idx * 2 ^ 32))

/-- COMMAND_COMPLETE: the k-th command of copy engine e of die d, all of it applied, completes (R174, R384). -/
def execCommandComplete (d e : Fin 4) (k : Nat) : State → Out :=
  ready fun m =>
    match (m.engineOps d e)[k]? with
    | none => m
    | some o => if o.fin then m.complete o fun m => m.report o else m

end Sys2Proof.Machine
end

