-- ==== Sys2Proof/Machine/AsGather.lean ====
section
/-!
DEFINITION. The request gatherer: its commands, pushes row by row, flushes, takes and releases (spec/09_tiers.md R267
to R271; spec/16_reference_m_u.md R418 to R421).
-/
namespace Sys2Proof.Machine

/-! ## Blocks -/

/-- Bytes of one batch buffer (R267). -/
def batchBytes (thr rowb : Nat) : Nat := thr * rowb + 64 * ((4 * thr + 63) / 64)

def GCfg.bsz (c : GCfg) : Nat := batchBytes c.thr c.rowb

/-- The byte of BUFT at which buffer (b, k) begins (R267). -/
def GCfg.bufAt (c : GCfg) (b k : Nat) : Nat := (2 * b + k) * c.bsz

/-- The configuration of the gatherer of die d, where context c holds one (R418). -/
def Mach.gcfg (m : Mach) (d : Fin 4) (c : Fin 64) : Option GCfg := (m.die d).gat.cfg.filter fun x => x.ctx = c

def gcUnload (ws : List Word) : Bool := wb (blkW ws 0) 63

/-- An RGCFG block is malformed (R419). -/
def rgcfgBad (m : Mach) (g : Fin 256) (ws : List Word) : Bool :=
  wf (blkW ws 0) 11 21 ≠ 0 || wf (blkW ws 0) 45 18 ≠ 0 || !barWord m g ws || !hiZero ws 3 15 || !hiZero ws 4 20 ||
  !hiZero ws 5 48 || !zeroWords ws 6 8 ||
  (if gcUnload ws then wf (blkW ws 0) 0 63 ≠ 0 || !zeroWords ws 3 6 else !agentCode (wf (blkW ws 5) 32 16))

def rpN (ws : List Word) : Nat := wf (blkW ws 0) 0 13
def rpAll (ws : List Word) : Bool := wb (blkW ws 0) 16
def rpFb (ws : List Word) : Nat := wf (blkW ws 0) 18 10
def rpRows (ws : List Word) : Nat := wf (blkW ws 3) 0 22
def rpTags (ws : List Word) : Nat := wf (blkW ws 3) 32 22

/-- The buckets and the extent of a push fit a configuration (R420). -/
def pushFits (c : GCfg) (ws : List Word) (tags : List Word) : Bool :=
  tags.all (fun w => wf w 0 10 < c.nbkt) && (rpN ws ≠ 0 || rpAll ws || rpFb ws < c.nbkt) &&
  (rpN ws = 0 || inSpad (rpRows ws) (c.rowb * rpN ws))

/-- An RGPUSH block with its tag words is malformed (R420). -/
def rgpushBad (m : Mach) (g : Fin 256) (ws : List Word) (tags : List Word) : Bool :=
  let n := rpN ws
  wf (blkW ws 0) 13 3 ≠ 0 || wb (blkW ws 0) 17 || !hiZero ws 0 28 || !barWord m g ws || wf (blkW ws 3) 22 10 ≠ 0 ||
  !hiZero ws 3 54 || !zeroWords ws 4 8 || 4096 < n ||
  (n ≠ 0 && (!inSpad (rpTags ws) (8 * n) || !inSpad (rpRows ws) (64 * n) || rpAll ws || rpFb ws ≠ 0)) || rpRows ws % 64 ≠ 0 || rpTags ws % 8 ≠ 0 || tags.any (fun w => wf w 10 22 ≠ 0) ||
  (match m.gcfg (dieOf g) (m.ctxOf g) with | some c => !pushFits c ws tags | none => false)

/-- An RGTAKE block is malformed; a take's OUT is checked (R421). -/
def rgtakeBad (take : Bool) (m : Mach) (g : Fin 256) (ws : List Word) : Bool :=
  wf (blkW ws 0) 1 15 ≠ 0 || !hiZero ws 0 27 || !barWord m g ws || !hiZero ws 3 22 || !zeroWords ws 4 8 ||
  (take && (wf (blkW ws 3) 0 22 % 32 ≠ 0 || !inSpad (wf (blkW ws 3) 0 22) 32))

/-! ## RGCFG -/

/-- A bucket holds rows, or a buffer is held (R267). -/
def Gatherer.busy (g : Gatherer) : Bool := g.cnt.toList.any (· ≠ 0) || !g.held.isEmpty

/-- The configuration that a block gives, where every field is in range and BUFT is large enough (R419). -/
def cfgOf (m : Mach) (o : Op) : Option GCfg × Mach :=
  let ws := o.blk
  let nb := wf (blkW ws 0) 0 11
  let thr := wf (blkW ws 0) 32 13
  let rowb := wf (blkW ws 3) 0 15
  let t := (blkW ws 4).extractLsb' 0 20
  let pbar := BitVec.ofNat 64 (wf (blkW ws 5) 0 32)
  let r := m.lookDesc (.gatherer o.die) o.ctx t
  let size := match descOf r.1 with | some d => d.size | none => 0
  if nb = 0 || 1024 < nb || thr = 0 || 4096 < thr || rowb < 64 || 16384 < rowb || rowb % 64 ≠ 0 || eaSpace pbar ≠ 3 ||
     !barOk m o.core pbar || size < 2 * nb * batchBytes thr rowb || (descOf r.1).isNone then (none, r.2)
  else (some ⟨o.ctx, nb, rowb, thr, t, pbar.setWidth 32, BitVec.ofNat 16 (wf (blkW ws 5) 32 16)⟩, r.2)

/-- A gatherer with a configuration and nothing gathered; its cache stays (R419). -/
def Gatherer.fresh (g : Gatherer) (c : Option GCfg) : Gatherer := { Gatherer.reset with cfg := c, tcache := g.tcache }

/-- RGCFG at the gatherer (R419). -/
def doRgcfg (m : Mach) (o : Op) : CmdOut :=
  let g := (m.die o.die).gat
  if g.cfg.any (fun c => c.ctx ≠ o.ctx) then .no m 5
  else if g.cfg.isSome && g.busy then .no m 2
  else if gcUnload o.blk then ⟨if g.cfg.isSome then m.onGat o.die fun g => g.fresh none else m, 1, 0⟩
  else
    let r := cfgOf m o
    match r.1 with
    | none => .no r.2 3
    | some c => ⟨r.2.onGat o.die fun g => g.fresh (some c), 1, BitVec.ofNat 32 c.nbkt⟩

/-! ## RGPUSH -/

/-- Where a push stands within a row or a bucket: its row, its tag, the mark of Post, the descriptor, the arrival, the
other buffer (R268, R270). `idx` holds 8·i plus the phase. -/
inductive PushPhase where
  | row | tag | mark | post | arrive | flip
  deriving DecidableEq, Repr

def phaseOf (n : Nat) : PushPhase :=
  match n % 8 with | 0 => .row | 1 => .tag | 2 => .mark | 3 => .post | 4 => .arrive | _ => .flip

/-- The buckets that a push names in order: its tags', or those it flushes (R268, R269). -/
def pushBuckets (c : GCfg) (o : Op) : List Nat :=
  if rpN o.blk ≠ 0 then o.handles.map (·.1) else if rpAll o.blk then List.range c.nbkt else [rpFb o.blk]

/-- The bucket of a push's place i. -/
def bktAt (c : GCfg) (o : Op) (i : Nat) : Fin 1024 := Fin.ofNat 1024 ((pushBuckets c o).getD i 0)

/-- Bytes written to BUFT: the machine, or the machine with the push stopped on a tile (R185, R268). A descriptor that
is no longer usable stops it on tile 0 (log entry 44). -/
def Mach.putBatch (m : Mach) (o : Op) (c : GCfg) (x : Nat) (bs : List Byte) : Bool × Mach :=
  let r := m.lookDesc (.gatherer o.die) o.ctx c.buft
  let halt (m : Mach) (n : Nat) : Bool × Mach :=
    let q := m.stopped o.ctx c.buft n
    (false, q.2.onOp o.id fun o => { o with stop := q.1 })
  match descOf r.1 with
  | none => halt r.2 0
  | some d =>
    let q := r.2.tensorWrite (.gatherer o.die) o.ctx c.buft d x bs
    match q.1 with
    | .error n => halt q.2 n
    | .ok _ => (true, q.2)

/-- The descriptor of a batch: its four words (R270). -/
def batchDesc (c : GCfg) (b k n : Nat) (seq : BitVec 32) : List Word :=
  let at0 := c.bufAt b k
  [BitVec.ofNat 64 (b + k * 2 ^ 10 + 2 ^ 11 + n * 2 ^ 16 + seq.toNat * 2 ^ 32), c.buft.setWidth 64,
   BitVec.ofNat 64 at0, BitVec.ofNat 64 (at0 + c.thr * c.rowb)]

/-- A push moves to phase p of its place, or to its next place. -/
def Mach.phase (m : Mach) (o : Op) (p : Nat) : Mach := m.onOp o.id fun o => { o with idx := o.idx / 8 * 8 + p }
def Mach.nextPlace (m : Mach) (o : Op) : Mach := m.onOp o.id fun o => { o with idx := (o.idx / 8 + 1) * 8 }

/-- The tag of a push's row written, and the row counted: the buffer may be full, or the next row is next (R268). -/
def tagStep (m : Mach) (o : Op) (c : GCfg) : Mach :=
  let i := o.idx / 8
  let g := (m.die o.die).gat
  let b := bktAt c o i
  let n := g.cnt[b.val]
  let w := ((o.handles[i]?).map (·.2)).getD 0
  let r := m.putBatch o c (c.bufAt b.val (g.fill[b.val]).toNat + c.thr * c.rowb + 4 * n) (leBytes 4 w.toNat)
  if r.1 then
    let m := r.2.onGat o.die fun g => { g with cnt := Machine.put g.cnt b (n + 1) }
    if n + 1 = c.thr then m.phase o 2 else m.nextPlace o
  else r.2

/-- One act of a push that is under way: a row is written with its tag, unless the tag's tile stops the push, so that a kill
finds no row half written (R194, R268 to R270). -/
def pushStep (m : Mach) (o : Op) (c : GCfg) : Mach :=
  let i := o.idx / 8
  let g := (m.die o.die).gat
  let b := bktAt c o i
  let k := (g.fill[b.val]).toNat
  let n := g.cnt[b.val]
  match phaseOf o.idx with
  | .row =>
    if rpN o.blk = 0 then (if n = 0 then m.nextPlace o else m.phase o 2)
    else if !m.admits o.core o.ctx (.op o.id) then m.enqueue o.core o.ctx (.op o.id)
    else
      let a := rpRows o.blk + c.rowb * i
      let q := (m.dequeue o.core o.ctx (.op o.id)).portRead o.ctx o.core false a c.rowb
      if !q.2 then q.1
      else
        let r := q.1.putBatch o c (c.bufAt b.val k + c.rowb * n) (Memory.read (m.core o.core).spad a c.rowb)
        if r.1 then tagStep (r.2.phase o 1) o c else r.2
  | .tag => tagStep m o c
  | .mark => (m.onGat o.die fun g => { g with held := (b.val, k = 1) :: g.held }).phase o 3
  | .post =>
    if 256 ≤ g.dq.length then m
    else
      let m := m.onGat o.die fun g => { g with dq := g.dq ++ [batchDesc c b.val k n g.gseq], gseq := g.gseq + 1 }
      (m.onOp o.id fun o => { o with nfault := o.nfault + 1 }).phase o 4
  | .arrive =>
    (match m.barOf o.core (c.pbar.setWidth 64) true with
     | some (t, a) => m.request1 t o.ctx (.op o.id) fun m => (m.arrive t a o.ctx).phase o 5
     | none => m.phase o 5)
  | .flip =>
    if g.held.contains (b.val, k = 0) then m
    else
      (m.onGat o.die fun g => { g with fill := Machine.put g.fill b (k = 0), cnt := Machine.put g.cnt b 0 }).nextPlace o

/-- The gatherer's turn at a push: begun once, then act by act; VALUE counts its batches, which `nfault` keeps (R418,
R420; log entry 44 for a push that its configuration, loaded since, does not fit). -/
def pushWork (m : Mach) (o : Op) : Mach :=
  match m.gcfg o.die o.ctx with
  | none => Mach.applied ⟨m, 5, 0⟩ o.id
  | some c =>
    let tags : List Word := o.handles.map fun h => BitVec.ofNat 64 h.1
    if !o.begun then
      (if pushFits c o.blk tags then m.onOp o.id fun o => { o with begun := true } else Mach.applied (.no m 3) o.id)
    else if o.stop.isSome then m
    else if (pushBuckets c o).length ≤ o.idx / 8 then Mach.applied ⟨m, 1, BitVec.ofNat 32 o.nfault⟩ o.id
    else pushStep m o c

/-- The gatherer's turn: the operation that it acts on is completed, or applied as `run` says. -/
def gatherWork (run : Mach → Op → Mach) (d : Fin 4) (u : UnitKind) (m : Mach) : Mach :=
  match m.unitOp d u with
  | none => m
  | some o =>
    if o.fin then
      m.complete o fun m =>
        let m := if o.sdesc.isEmpty then m else m.wspad o.core (wf (blkW o.blk 3) 0 22) (o.sdesc.flatMap wordBytes)
        m.putRes o (resultWord o)
    else run m o

/-! ## RGTAKE -/

/-- A take or a release counts as reaching the gatherer for the wait-for walk (R239). -/
def Mach.touchGat (m : Mach) (d : Fin 4) : Mach := { m with touched := (toCore (64 * d.val), 0x700000) :: m.touched }

/-- A take: the oldest descriptor, or one with VALID 0, to be written at OUT (R270, R421). -/
def doTake (m : Mach) (o : Op) : Mach :=
  match m.gcfg o.die o.ctx with
  | none => Mach.applied (.no m 5) o.id
  | some _ =>
    let q := (m.die o.die).gat.dq
    let m := (m.onGat o.die fun g => { g with dq := g.dq.tail }).touchGat o.die
    Mach.applied ⟨m.onOp o.id fun o => { o with sdesc := q.headD [0, 0, 0, 0] }, 1, if q.isEmpty then 0 else 1⟩ o.id

/-- A release: the held mark of a buffer is cleared (R270, R421). -/
def doRelease (m : Mach) (o : Op) : Mach :=
  let b := wf (blkW o.blk 0) 16 10
  let k := wb (blkW o.blk 0) 26
  match m.gcfg o.die o.ctx with
  | none => Mach.applied (.no m 5) o.id
  | some c =>
    if c.nbkt ≤ b then Mach.applied (.no m 3) o.id
    else if (m.die o.die).gat.held.contains (b, k) then
      Mach.applied ⟨(m.onGat o.die fun g => { g with held := g.held.erase (b, k) }).touchGat o.die, 1, 1⟩ o.id
    else Mach.applied ⟨m.stray o.ctx, 1, 0⟩ o.id

/-! ## The meanings -/

/-- RGCFG (R419). -/
def execRgcfg (t : Tok) (sa : Fin 32) : State → Out := unitParcel (.rgcfg t sa) 64 .gatherer rgcfgBad (cmdWork doRgcfg)

/-- RGPUSH: AS reads the tag words at issue (R420). -/
def execRgpush (t : Tok) (sa : Fin 32) : State → Out :=
  asParcel (.rgpush t sa)
    (fun g m => asBlock m g 64 fun m base ws =>
      let n := if inSpad (rpTags ws) (8 * rpN ws) then rpN ws else 0
      let q := m.portRead (m.ctxOf g) g false (rpTags ws) (8 * n)
      if !q.2 then .wait q.1
      else
        let tags := wordsOf n (Memory.read (m.core g).spad (rpTags ws) (8 * n))
        if rgpushBad m g ws tags then .fail .cmdMalformed
        else
          let o := mkOp q.1 g (.rgpush t sa) .gatherer base ws (wb (blkW ws 2) 32)
          .done ((q.1.takesCmd g .gatherer).startOp { o with handles := tags.map fun w => (wf w 0 10, BitVec.ofNat 32 (wf w 32 32)) }))
    (asIssued (.rgpush t sa)) (gatherWork pushWork)

/-- RGTAKE, taking (R421). -/
def execRgtakeTake (t : Tok) (sa : Fin 32) : State → Out :=
  unitParcel (.rgtakeTake t sa) 64 .gatherer (rgtakeBad true) (gatherWork doTake)

/-- RGTAKE, releasing (R421). -/
def execRgtakeRelease (t : Tok) (sa : Fin 32) : State → Out :=
  unitParcel (.rgtakeRelease t sa) 64 .gatherer (rgtakeBad false) (gatherWork doRelease)

end Sys2Proof.Machine
end

