-- ==== Sys2Proof/Machine/Lines.lean ====
section
/-!
DEFINITION. A repetition of LD, ST or MX as the accesses of its 64-byte lines, performed one at a time and in any order
(spec/07_consistency.md R198, R199, R200; spec/10_matrix_attention.md R280; spec/17_reference_v_y.md R454; log entry 87).
-/
namespace Sys2Proof.Machine

/-! ## Lines -/

/-- The pieces of n bytes from a that lie in one line each. -/
def cutRun (a n : Nat) : List (Nat × Nat) := cutBy 64 a n

/-- Pieces that lie in the same line, together, in the order of their first pieces. -/
def byLine {α : Type} (ps : List (Nat × α)) : List (List (Nat × α)) :=
  ((ps.map fun p => p.1 / 64).eraseDups).map fun l => ps.filter fun p => p.1 / 64 = l

/-- The lines of runs of bytes, to be read for a row. -/
def readsOf (tag : Nat) (acc : Bool) (runs : List (Nat × Nat)) : List LineRead :=
  (byLine (runs.flatMap fun r => cutRun r.1 r.2)).map fun ps => ⟨tag, acc, ps⟩

/-- The lines of runs of bytes, to be written. -/
def writesOf (acc : Bool) (runs : List (Nat × List Byte)) : List LineWrite :=
  (byLine (runs.flatMap fun r => (cutRun r.1 r.2.length).map fun p => (p.1, (r.2.drop (p.1 - r.1)).take p.2))).map fun ps =>
    ⟨acc, ps⟩

/-- Where the byte at address a that a row has read is kept. -/
def gotKey (tag : Nat) (acc : Bool) (a : Nat) : Nat := tag * 2 ^ 24 + acc.toNat * 2 ^ 23 + a

/-- What a row has read of a memory, under the addresses it was read from. -/
def Job.mem (j : Job) (tag : Nat) (acc : Bool) : Memory :=
  (j.got.filter fun c => c.1 / 2 ^ 23 = gotKey tag acc 0 / 2 ^ 23).map fun c => (c.1 % 2 ^ 23, c.2)

/-- A core as row k finds it: its memories as the row has read them. -/
def Job.core (j : Job) (k : Nat) (c : Core) : Core := { c with spad := j.mem (k + 1) false, acc := j.mem (k + 1) true }

/-- The job of an engine changed. -/
def Core.onJob (c : Core) (e : Engine) (f : Job → Job) : Core := c.onE e fun x => { x with job := x.job.map f }

/-- A repetition of engine e issues: its WAIT token is popped, and its accesses are presented (R54, R59, R199). -/
def Core.beginJob (c : Core) (e : Engine) (t : Tok) (j : Job) : Core :=
  (c.popTok e t).onE e fun x => { x with tokp := true, wait := none, job := some j }

/-! ## One access -/

/-- A line of core t read at its port by context c, for the job of engine e of core g; false where an error kills the
context (R151, R155). -/
def Mach.readLine (m : Mach) (c : Fin 64) (g : Fin 256) (e : Engine) (t : Fin 256) (r : LineRead) : Mach :=
  let x := m.portReads c t r.acc r.runs
  if !x.2 then x.1
  else
    let mem := if r.acc then (m.core t).acc else (m.core t).spad
    x.1.onCore g fun k => k.onJob e fun j =>
      { j with reads := j.reads.erase r,
               got := r.runs.foldl (fun (s : Memory) u => Memory.write s (gotKey r.tag r.acc u.1) (Memory.read mem u.1 u.2)) j.got }

/-- A line of a core written at its port (R168). -/
def Core.putLine (c : Core) (w : LineWrite) : Core :=
  w.runs.foldl (fun (c : Core) u => if w.acc then { c with acc := Memory.write c.acc u.1 u.2 } else c.wspad u.1 u.2) c

/-- The rows whose results may be taken: those that have read all their lines, or, unless `eager`, any once nothing is
left to read. -/
def Job.open (eager : Bool) (j : Job) : List Nat :=
  if eager then j.rows.filter fun k => j.reads.all fun r => r.tag ≠ 0 && r.tag ≠ k + 1
  else if j.reads.isEmpty then j.rows else []

/-- Row k has given its result, which is to be written. -/
def Job.rowDone (j : Job) (k : Nat) (ws : List LineWrite) : Job :=
  { j with rows := j.rows.erase k, writes := j.writes ++ ws, begun := true }

/-- What of a list of acts may be next: any, or, of a drain, whose rows go in order, the first (R284). -/
def inRowOrder {α : Type} (drain : Bool) (l : List α) : List α := if drain then l.take 1 else l

/-- One act of the repetition of engine e of core g: a pending line is read from core t, a row's result taken, or a
pending line written, whichever `Config.pick` says; MX takes and writes the rows of a drain in order (R199, R280, R284).
With nothing left the repetition ends. -/
def Mach.jobAct (m : Mach) (g : Fin 256) (e : Engine) (t : Fin 256) (eager : Bool) (row : Nat → Job → Mach → Mach)
    (fin : Mach → Mach) (j : Job) : Mach :=
  let drain := e = .mx && !eager
  let rows := inRowOrder drain (j.open eager)
  let writes := inRowOrder drain j.writes
  let n := Config.pick m.seq % (j.reads.length + rows.length + writes.length)
  let m :=
    match j.reads[n]? with
    | some r => m.readLine (m.ctxOf g) g e t r
    | none =>
      match rows[n - j.reads.length]? with
      | some k => row k j m
      | none =>
        match writes[n - j.reads.length - rows.length]? with
        | some w => m.onCore g fun c => (c.putLine w).onJob e fun j => { j with writes := j.writes.erase w, begun := true }
        | none => m
  match ((m.core g).e e).job with
  | some j => if j.reads.isEmpty && j.rows.isEmpty && j.writes.isEmpty then fin m else m
  | none => m

/-- The parcel i of engine e, one repetition: its next act where it has issued, its issue otherwise. -/
def repetition (i : Instr) (g : Fin 256) (e : Engine) (go : Job → Mach → Mach) (pre : Mach → Option Cause) (eff : Mach → Eff)
    (fin : Mach → Mach) (m : Mach) : Mach :=
  match ((m.core g).e e).job with
  | some j => go j m
  | none => issue i g e pre eff fin m

/-- The effect of a repetition that issues with a job. -/
def Mach.begins (m : Mach) (i : Instr) (g : Fin 256) (e : Engine) (j : Job) : Eff :=
  .wait (m.onCore g fun c => c.beginJob e (tk i) j)

end Sys2Proof.Machine
end

