-- ==== Sys2Proof/Machine/Special.lean ====
section
/-!
DEFINITION. The special functions of VSF: the special operands and exact cases of R146, and between them the free
function of R147 held inside R146's bounds. The bounds are checked against rational approximations in fixed
point, of 512 fraction bits (spec/04_arithmetic.md R146, R147; log entry 8).
-/
namespace Sys2Proof.Machine

/-! ## Fixed point -/

/-- One, in units of 2^-512. -/
def fxOne : Int := 2 ^ 512

/-- The magnitude of a finite F32 value in units of 2^-512, which every such value is a multiple of. -/
def Exact.fx (x : Exact) : Int := x.man * 2 ^ (512 + x.exp).toNat

/-- A fixed-point number times 2^e, as an exact value. -/
def fxExact (y e : Int) : Exact := ⟨y < 0, y.natAbs, e - 512, false⟩

def fxMul (a b : Int) : Int := a * b / fxOne
def fxDiv (a b : Int) : Int := a * fxOne / b

/-- The sum of n terms, each got from the one before. -/
def fxSeries (n : Nat) (first : Int) (next : Nat → Int → Int) : Int :=
  ((List.range n).foldl (fun (a : Int × Int) k => (a.1 + a.2, next k a.2)) (0, first)).1

/-- z − s·z³/3 + z⁵/5 − …: the arctangent of z for s = −1, and the area tangent for s = 1. -/
def fxAtan (s z : Int) : Int :=
  ((List.range 170).foldl
    (fun (a : Int × Int) k => (a.1 + a.2 / (2 * (k : Int) + 1), s * fxMul a.2 (fxMul z z))) (0, z)).1

def fxLn2 : Int := 2 * fxAtan 1 (fxOne / 3)
def fxPi : Int := 16 * fxAtan (-1) (fxOne / 5) - 4 * fxAtan (-1) (fxOne / 239)

/-- e^r for r of magnitude less than one. -/
def fxExp (r : Int) : Int := fxSeries 120 fxOne fun k t => fxMul t r / ((k : Int) + 1)

/-- 2^y. -/
def fxPow2 (y : Int) : Exact := fxExact (fxExp (fxMul (y % fxOne) fxLn2)) (y / fxOne)

/-- e^y as a fixed-point number, for y of magnitude less than 256. -/
def fxExpOf (y : Int) : Int :=
  let p := fxPow2 (fxDiv y fxLn2)
  if 0 ≤ p.exp + 512 then (p.man : Int) * 2 ^ (p.exp + 512).toNat else (p.man : Int) / 2 ^ (-(p.exp + 512)).toNat

/-- An angle brought between −π and π. -/
def fxTurn (y : Int) : Int :=
  let r := y % (2 * fxPi)
  if fxPi < r then r - 2 * fxPi else r

/-- The sine and the cosine of an angle between −π and π. -/
def fxSin (r : Int) : Int :=
  fxSeries 100 r fun k t => -(fxMul (fxMul t r) r / ((2 * (k : Int) + 2) * (2 * (k : Int) + 3)))
def fxCos (r : Int) : Int :=
  fxSeries 100 fxOne fun k t => -(fxMul (fxMul t r) r / ((2 * (k : Int) + 1) * (2 * (k : Int) + 2)))

/-- The integer square root of n below 2^(2b), bit by bit. -/
def rootBits (b n : Nat) : Nat :=
  (List.range b).reverse.foldl (fun r k => if (r + 2 ^ k) * (r + 2 ^ k) ≤ n then r + 2 ^ k else r) 0

/-- erf z for z of magnitude less than four: 2/√π times the sum of (−1)^k z^(2k+1) / (k!·(2k+1)). -/
def fxErf (z : Int) : Int :=
  let sum := ((List.range 240).foldl
    (fun (a : Int × Int) k =>
      (a.1 + a.2 / (2 * (k : Int) + 1), -(fxMul (fxMul a.2 z) z / ((k : Int) + 1)))) (0, z)).1
  fxDiv (2 * sum) (rootBits 516 (fxPi * fxOne).toNat)

/-! ## The bounds -/

/-- The value is at least the integer k in magnitude. -/
def Exact.magGe (x : Exact) (k : Nat) : Bool :=
  if 0 ≤ x.exp then k ≤ x.man * 2 ^ x.exp.toNat else k * 2 ^ (-x.exp).toNat ≤ x.man

/-- The exponent of a power of two, if the value is one. -/
def Exact.pow? (x : Exact) : Option Int :=
  if x.man ≠ 0 && x.man = 2 ^ Nat.log2 x.man then some x.lg else none

/-- 1/√x of a positive value, from the root of 2^400 / x. -/
def rsqrtOf (x : Exact) : Exact :=
  let odd : Bool := x.exp % 2 ≠ 0
  let m := if odd then 2 * x.man else x.man
  ⟨false, rootBits 201 (2 ^ 400 / m), -200 - (if odd then x.exp - 1 else x.exp) / 2, false⟩

/-- The exact result y of a special function of a finite operand, near enough to check a bound against (R146). -/
def vsfNear (fn : VsfFn) (x : Exact) : Exact :=
  let z := x.fx
  let signed (y : Int) : Exact := fxExact (if x.neg then -y else y) 0
  match fn with
  | .exp2 => fxPow2 (if x.neg then -z else z)
  | .log2 =>
    let t : Int := 2 ^ Nat.log2 x.man
    let a := fxAtan 1 (fxDiv (x.man - t) (x.man + t))
    fxExact (fxDiv (2 * a) fxLn2 + x.lg * fxOne) 0
  | .rcp => ⟨x.neg, 2 ^ 400 / x.man, -400 - x.exp, false⟩
  | .rsqrt => rsqrtOf x
  | .sin => signed (fxSin (fxTurn z))
  | .cos => fxExact (fxCos (fxTurn z)) 0
  | .tanh => let e := fxExpOf (2 * z); signed (fxDiv (e - fxOne) (e + fxOne))
  | .erf => signed (fxErf z)
  | .sigm =>
    if x.neg && x.magGe 128 then ⟨false, 1, -200, false⟩
    else fxExact (fxDiv fxOne (fxOne + fxExpOf (if x.neg then z else -z))) 0

/-- |v − y| is at most k · 2^e. -/
def nearTo (v y : Exact) (k : Nat) (e : Int) : Bool :=
  let q := min (min v.exp y.exp) e
  (v.units q - y.units q).natAbs ≤ k * 2 ^ (e - q).toNat

/-- The bound of R146, in units of ulp(y). -/
def VsfFn.ulps : VsfFn → Nat
  | .rcp => 1
  | .exp2 | .log2 | .rsqrt | .sin | .cos | .tanh | .erf | .sigm => 2

/-- An F32 result v for an operand x whose exact result is y keeps the bound of a narrower type of which x is a value:
rounded into the type either way, it lies within 1 ulp of y, unless y lies beyond the type's greatest value (R147). -/
def narrowOk (t : FTy) (x y v : Exact) : Bool :=
  let into (md : RMode) (z : Exact) : Val := Val.ofF t (roundF false t md 0 z)
  !(into .rz x).eqv (.fin x) || (Val.ofF t (FTy.maxCode t)).lt (.fin { y with neg := false }) ||
  [RMode.ru, .rd].all fun md =>
    match into md v with | .fin z => nearTo z y 1 (max (y.lg - FTy.frac t) (FTy.qmin t)) | _ => false

/-- A finite F32 value v is an allowed result for an operand x whose exact result is y: within the bounds of R146, and
within that of R147 for the types of which x is a value. -/
def vsfAllows (fn : VsfFn) (x y v : Exact) : Bool :=
  if (fn = .sin || fn = .cos) && x.magGe (2 ^ 20) && x.pow? ≠ some 20 then
    nearTo v y 1 (-20) && nearTo v ⟨false, 0, 0, false⟩ 1 0
  else nearTo v y (VsfFn.ulps fn) (max y.lg (-126) - 23) && narrowOk .bf16 x y v && narrowOk .f16 x y v

/-- The result bits of a finite operand away from the exact cases: those of the free function where R146 and R147
allow them, else the exact result rounded to nearest (R146, R147; log entry 8). -/
def vsfFree (fn : VsfFn) (b : Lane) (x : Exact) : Lane :=
  let y := vsfNear fn x
  match f32 (Config.vsf fn b) with
  | .fin v => if vsfAllows fn x y v then Config.vsf fn b else toF32 (.fin y)
  | _ => toF32 (.fin y)

/-! ## The function -/

/-- 2^e for an integer e from −149 to 127, as F32. -/
def pow2F32 (e : Int) : Lane := toF32 (.num false 1 e)

/-- The integer that an exact value is, if it is one. -/
def Exact.int? (x : Exact) : Option Int :=
  let u (n : Nat) : Int := if x.neg then -(n : Int) else n
  if 0 ≤ x.exp then some (u (x.man * 2 ^ x.exp.toNat))
  else if x.man % 2 ^ (-x.exp).toNat = 0 then some (u (x.man / 2 ^ (-x.exp).toNat)) else none

/-- VSF on F32 bits: the special operands and exact cases of R146, and elsewhere a free result within its bounds
(R147). `dv` is the device NaN of the place. -/
def vsf (fn : VsfFn) (dv b : Lane) : Lane :=
  match f32 b with
  | .nan n => quiet n
  | .inf s =>
    match fn with
    | .exp2 => if s then 0 else f32Inf false
    | .log2 => if s then dv else f32Inf false
    | .rcp => if s then 0x80000000 else 0
    | .rsqrt => if s then dv else 0
    | .sin | .cos => dv
    | .tanh | .erf => f32One s
    | .sigm => if s then 0 else f32One false
  | .fin x =>
    let free := vsfFree fn b x
    match fn with
    | .exp2 =>
      if !x.neg && x.magGe 128 then f32Inf false
      else if x.neg && x.magGe 150 then 0
      else match x.int? with | some e => pow2F32 e | none => free
    | .log2 =>
      if x.man = 0 then f32Inf true
      else if x.neg then dv
      else match x.pow? with | some e => toF32 (.ofInt e) | none => free
    | .rcp => if x.man = 0 then f32Inf x.neg else free
    | .rsqrt => if x.man = 0 then f32Inf x.neg else if x.neg then dv else free
    | .sin => if x.man = 0 then b else free
    | .cos => if x.man = 0 then f32One false else free
    | .tanh => if x.magGe 10 then f32One x.neg else free
    | .erf => if x.magGe 4 then f32One x.neg else free
    | .sigm => if x.man = 0 then 0x3F000000 else if !x.neg && x.magGe 18 then f32One false else free

end Sys2Proof.Machine
end

