-- ==== Sys2Proof/Machine/MxOps.lean ====
section
/-!
DEFINITION. What the matrix engine computes: input types and packed rows, weight layouts, the epilogue and its
output formats, and the attention rows (spec/10_matrix_attention.md R276, R281 to R284, R289 to R291;
spec/04_arithmetic.md R128, R145).
-/
namespace Sys2Proof.Machine

/-! ## Input types, shapes and rows -/

/-- Bits of an element of an input type (R89, R276). -/
def InTy.width : InTy → Nat
  | .e4m3 | .e5m2 | .i8 => 8 | .e2m1 | .i4 => 4 | .bf16 | .f16 => 16

/-- The value of a code of an input type (R122, R125). An integer 0 is +0, and its product with a negative element is
taken as −0, as the signs of R145's products say (log entry 92). -/
def InTy.val (t : InTy) (n : Nat) : Val :=
  match t with
  | .e4m3 => Val.ofF .e4m3 n | .e5m2 => Val.ofF .e5m2 n | .e2m1 => Val.ofF .e2m1 n
  | .bf16 => Val.ofF .bf16 n | .f16 => Val.ofF .f16 n
  | .i8 => .ofInt (intOf .i8 n) | .i4 => .ofInt (intOf .i4 n)

/-- Bytes of a row of 128 elements (R276, R278). -/
def InTy.rowBytes (t : InTy) : Nat := 16 * InTy.width t

/-- IT matches the active weight type (R277). -/
def InTy.fits (a b : InTy) : Bool := a = b || ((a = .e4m3 || a = .e5m2) && (b = .e4m3 || b = .e5m2))

/-- Quadrant rows and columns of a shape (R89). -/
def Shape.rows : Shape → Nat
  | .s11 | .s12 | .s14 => 1 | .s21 | .s22 | .s24 => 2
def Shape.cols : Shape → Nat
  | .s11 | .s21 => 1 | .s12 | .s22 => 2 | .s14 | .s24 => 4
def Shape.cores (s : Shape) : Nat := Shape.rows s * Shape.cols s

/-- Element k of a packed row: the first element lowest, nibbles low first (R276). -/
def packed (w : Nat) (bs : Nat) (k : Nat) : Nat := fld bs (w * k) w

/-- The 128 values of a packed row. -/
def rowVals (t : InTy) (bs : List Byte) : List Val :=
  let n := leVal bs
  (List.range 128).map fun k => InTy.val t (packed (InTy.width t) n k)

/-- n bytes of row j of a pattern, moved by `adv` (R152). -/
def Core.patRow (c : Core) (p : Pat) (j n adv : Nat) : List Byte :=
  (p.runs j n).flatMap fun r => Memory.read c.spad (r.1 + adv) r.2

/-! ## Accumulator rows -/

/-- Column k of accumulator row n (R155). -/
def Core.accAt (c : Core) (n k : Nat) : Lane := Memory.readL c.acc (512 * n + 4 * k)

/-- Columns from 0 of accumulator row n written (R155). -/
def Core.setRow (c : Core) (n : Nat) (xs : List Lane) : Core :=
  { c with acc := Memory.write c.acc (512 * n) (xs.flatMap fun x => leBytes 4 x.toNat) }

/-- The runs of the n bytes of row j of a pattern, moved by `adv` (R152). -/
def Pat.rowAt (p : Pat) (j n adv : Nat) : List (Nat × Nat) := (p.runs j n).map fun u => (u.1 + adv, u.2)

/-- Bytes dealt out over runs. -/
def dealRuns : List (Nat × Nat) → List Byte → List (Nat × List Byte)
  | [], _ => []
  | u :: us, bs => (u.1, bs.take u.2) :: dealRuns us (bs.drop u.2)

/-! ## Weights -/

/-- Weight k of a row that holds a dense column (R276). -/
def denseAt (t : InTy) (bs k : Nat) : Option (BitVec 16) := some (BitVec.ofNat 16 (packed (InTy.width t) bs k))

/-- Weight k of a row that keeps n of every 8: the last kept element of its group that names its place (R276). -/
def sparseAt (t : InTy) (n bs k : Nat) : Option (BitVec 16) :=
  let w := InTy.width t
  let ix (i : Nat) : Nat := fld bs (16 * n * w + 3 * i) 3
  ((List.range n).reverse.find? fun i => ix (n * (k / 8) + i) = k % 8).map fun i =>
    BitVec.ofNat 16 (packed w bs (n * (k / 8) + i))

/-- Bytes of a row of an MWLD that keeps n of 8; 8 of 8 is dense (R276). -/
def weightRow (t : InTy) (n : Nat) : Nat := 16 * n * InTy.width t / 8 + (if n < 8 then 6 * n else 0)

/-- Weight k of a packed row of which n of every 8 are kept, as its code; none where sparsity removed it (R276). -/
def weightAt (t : InTy) (n bs k : Nat) : Option (BitVec 16) := if n = 8 then denseAt t bs k else sparseAt t n bs k

/-- Weight (k, col) as a value; none where sparsity removed it (R272, R276). -/
def MxState.weight (x : MxState) (k col : Nat) : Option Val :=
  (weightAt x.wty x.keep.val ((x.w[col]?.getD 0).toNat) k).map fun n => InTy.val x.wty n.toNat

/-- An activation row added through a core's weights into its accumulator row n (R145, R278, R279). -/
def mmulRow (rank n : Nat) (row : List Val) (c : Core) : Core :=
  c.setRow n ((List.range 128).map fun col =>
    matSum (devNan (c.e .mx).pc (128 * rank + col)) (c.accAt n col) (row.zipIdx.map fun a => (a.1, c.mx.weight a.2 col)))

/-! ## Configuration -/

/-- The configuration a block holds, if it is legal (R281). -/
def macfgOf (ws : List Word) : Option MxCfg :=
  let w0 := blkW ws 0
  let w1 := blkW ws 1
  let w2 := blkW ws 2
  let w3 := blkW ws 3
  if wf w0 9 55 = 0 && 1 ≤ wf w0 0 8 && wf w0 0 8 ≤ 128 && wf w2 21 11 = 0 && wf w2 53 11 = 0 && wf w3 21 43 = 0 &&
     (List.range 4).all (fun k => blkW ws (4 + k) = 0) then
    some ⟨w0.extractLsb' 0 8, wb w0 8, w1.extractLsb' 0 32, w1.extractLsb' 32 32, w2.extractLsb' 0 21,
          w2.extractLsb' 32 21, w3.extractLsb' 0 21⟩
  else none

/-- Bytes of a scale of kind 1, 2 or 3 (R282). -/
def scaleSize (k : Nat) : Nat := match k with | 1 => 1 | 2 => 2 | 3 => 4 | _ => 0

/-- A scale of kind 1, 2 or 3 as F32 bits; 1 for kind 0 (R282). -/
def scaleOf (k n : Nat) : Lane :=
  match k with
  | 1 => toF32 (Val.ofF .e8m0 n) | 2 => toF32 (Val.ofF .bf16 n) | 3 => BitVec.ofNat 32 n | _ => f32One false

/-- The addresses an epilogue descriptor uses: address, entry size, bytes checked (R282). -/
def mepiUses (ws : List Word) : List (Nat × Nat × Nat) :=
  let w0 := blkW ws 0
  let cs := wf w0 0 3
  let rs := wf w0 3 3
  (if cs = 0 then [] else [(wf (blkW ws 1) 0 22, scaleSize cs, 128 * scaleSize cs)]) ++
  (if wb w0 6 then [(wf (blkW ws 2) 0 22, 4, 512)] else []) ++
  (if rs = 0 || rs = 4 then [] else [(wf (blkW ws 3) 0 22, scaleSize rs, 0)])

/-- The trap of an epilogue descriptor (R282). Only the address fields in use are checked. -/
def mepiFault (ws : List Word) : Option Cause :=
  let w0 := blkW ws 0
  let hi (k : Nat) (w : Nat) : Bool := wf (blkW ws k) w (64 - w) = 0
  if 3 < wf w0 0 3 || 4 < wf w0 3 3 || 5 < wf w0 7 4 || 6 < wf w0 11 4 || wf w0 15 49 ≠ 0 ||
     !(hi 1 22 && hi 2 22 && hi 3 22 && hi 4 13 && hi 5 0 && hi 6 0 && hi 7 0) then some .illegal
  else if (mepiUses ws).any fun u => u.1 % u.2.1 ≠ 0 then some .align
  else if (mepiUses ws).any fun u => u.2.2 ≠ 0 && 0x300000 < u.1 + u.2.2 then some .spadRange
  else none

/-- The epilogue registers loaded from a descriptor (R282). -/
def epilogueOf (c : Core) (ws : List Word) : Epilogue :=
  let w0 := blkW ws 0
  let k := wf w0 0 3
  let n := scaleSize k
  let cs (i : Nat) : Lane := scaleOf k (leVal (Memory.read c.spad (wf (blkW ws 1) 0 22 + n * i) n))
  let bias (i : Nat) : Lane := Memory.readL c.spad (wf (blkW ws 2) 0 22 + 4 * i)
  ⟨w0.extractLsb' 0 3, w0.extractLsb' 3 3, wb w0 6, w0.extractLsb' 7 4, w0.extractLsb' 11 4,
   (blkW ws 1).extractLsb' 0 22, (blkW ws 2).extractLsb' 0 22, (blkW ws 3).extractLsb' 0 22, (blkW ws 4).extractLsb' 0 13,
   Vector.ofFn fun i : Fin 128 => cs i.val, Vector.ofFn fun i : Fin 128 => if wb w0 6 then bias i.val else 0⟩

/-! ## The epilogue -/

/-- The first NaN among values. -/
def firstNanOf : List Val → Option Lane
  | [] => none
  | .nan b :: _ => some b
  | _ :: rest => firstNanOf rest

/-- An exact product of factors: the first NaN factor, or a device NaN where 0 meets an infinity (R136, R137). -/
def prodAll (dv : Lane) (xs : List Val) : Val :=
  match firstNanOf xs with
  | some b => .nan (quiet b)
  | none => xs.foldl (fun p x => p.mul dv x) (.num false 1 0)

/-- An exact product of factors over a divisor, on the same terms. -/
def prodOver (dv : Lane) (xs : List Val) (d : Val) : Val :=
  match firstNanOf (xs ++ [d]) with
  | some b => .nan (quiet b)
  | none =>
    match prodAll dv xs with
    | .nan b => .nan b
    | p => p.div dv d

/-- What a row brings to the epilogue besides its values: its scale, and with RSK 4 its DHI and DLO (R283). -/
structure RowScale where
  rs : Lane
  stat : Option (Lane × Lane)

/-- The value of column `col` of row j of repetition i after the epilogue, before its delivery (R283). -/
def epiVal (v : VxEnv) (ep : Epilogue) (rank i j : Nat) (r : RowScale) (a : Lane) (col : Nat) : Lane :=
  let dv := v.dv (128 * rank + col)
  let rnd (part : Nat) (x : Val) : Lane := BitVec.ofNat 32 (x.toF false .f32 v.md (v.draw (128 * j + col) i part))
  let cs := if ep.csk = 0 then f32One false else (ep.cs[col]?).getD 0
  let x :=
    match r.stat with
    | some (hi, lo) =>
      let d := f32Add dv hi lo
      if d &&& 0x7FFFFFFF = 0 then 0 else rnd 0 (prodOver dv [f32 a, f32 cs] (f32 d))
    | none => rnd 0 (prodAll dv [f32 a, f32 cs, f32 r.rs])
  let x := if ep.ben then rnd 1 ((f32 x).add v.md dv (f32 ((ep.bias[col]?).getD 0))) else x
  match ep.act.toNat with
  | 1 => if (f32 x).lt (.num false 0 0) then 0 else x
  | 2 => rnd 2 ((f32 x).mul dv (f32 (vsf .sigm dv x)))
  | 3 =>
    let e := vsf .erf dv (rnd 2 ((f32 x).mul dv (f32 0x3F3504F3)))
    rnd 4 (prodAll dv [.num false 1 (-1), f32 x, (Val.num false 1 0).add v.md dv (f32 e)])
  | 4 => vsf .tanh dv x
  | 5 => vsf .sigm dv x
  | _ => x

/-- Bytes of a delivered row (R283, R284). -/
def outBytes (ofmt : BitVec 4) : Nat :=
  match ofmt.toNat with | 0 => 512 | 1 | 2 => 256 | 5 => 132 | _ => 128

/-- A row delivered by OFMT (R283). -/
def deliver (v : VxEnv) (ofmt : BitVec 4) (i j : Nat) (xs : List Lane) : List Byte :=
  let each (n : Nat) (f : Nat → Val → Nat) : List Byte :=
    xs.zipIdx.flatMap fun x => leBytes n (f (v.draw (128 * j + x.2) i 3) (f32 x.1))
  match ofmt.toNat with
  | 0 => xs.flatMap fun x => leBytes 4 x.toNat
  | 1 => each 2 (Val.toF false .bf16 v.md)
  | 2 => each 2 (Val.toF false .f16 v.md)
  | 3 => each 1 (Val.toF false .e4m3 v.md)
  | 4 => each 1 (Val.toF false .e5m2 v.md)
  | 5 =>
    let bs := (List.range 4).map fun b => quantise .e4m3 ((xs.drop (32 * b)).take 32)
    (bs.flatMap fun b => b.2.map (BitVec.ofNat 8)) ++ bs.map fun b => BitVec.ofNat 8 b.1
  | _ => each 1 (Val.toI .i8 v.md)

/-- The statistics row of row n, with RSK 4 (R282). -/
def Epilogue.statRow (ep : Epilogue) (n : Nat) : Int := n + ep.soff.toInt

/-- The address of the scale of row n, with RSK 1 to 3 (R282). -/
def Epilogue.rowAddr (ep : Epilogue) (n : Nat) : Nat := ep.rsaddr.toNat + scaleSize ep.rsk.toNat * n

/-- Rows n to n + k − 1 find their scales or statistics rows (R282). -/
def Epilogue.rowsOk (ep : Epilogue) (n k : Nat) : Bool :=
  (List.range k).all fun j =>
    if ep.rsk = 4 then 0 ≤ ep.statRow (n + j) && ep.statRow (n + j) < 4096
    else ep.rsk = 0 || ep.rowAddr (n + j) < 0x300000

/-- What row n brings to the epilogue (R282, R283). -/
def rowScale (c : Core) (n : Nat) : RowScale :=
  let ep := c.mx.epi
  if ep.rsk = 4 then
    let s := (ep.statRow n).toNat
    ⟨f32One false, some (c.accAt s 1, c.accAt s 2)⟩
  else ⟨scaleOf ep.rsk.toNat (leVal (Memory.read c.spad (ep.rowAddr n) (scaleSize ep.rsk.toNat))), none⟩

/-- The values of row j that repetition i of a drain takes from row n0 on (R283, R284). -/
def drainRow (c : Core) (rank i n0 j : Nat) : List Lane :=
  (List.range 128).map fun col =>
    epiVal (c.env .mx 2) c.mx.epi rank i j (rowScale c (n0 + j)) (c.accAt (n0 + j) col) col

/-! ## Attention -/

/-- What an attention row carries: M, DHI, DLO and the output row (R290, R291). -/
structure AttRow where
  mx : Lane
  hi : Lane
  lo : Lane
  out : List Lane

def negInf : Lane := 0xFF800000

/-- The score of a query at position qp for the key at position kp (R289). -/
def attScore (cfg : MxCfg) (dv : Lane) (q k : List Val) (qp kp : Nat) : Lane :=
  let d := dotSum dv ((q.zip k).map fun p => (p.1, some p.2))
  toF32 (((f32 d).mul dv (f32 cfg.sscl)).sub .rne dv ((f32 cfg.slope).mul dv (.ofInt ((qp : Int) - kp))))

/-- The compensated step: DHI and DLO after the term p (R290). -/
def attAdd (dv hi lo p : Lane) : Lane × Lane :=
  let s := f32Add dv hi p
  let e :=
    match f32 hi, f32 p, f32 s with
    | .fin a, .fin b, .fin r => ((Val.fin a).add .rne dv (.fin b)).sub .rne dv (.fin r)
    | _, _, _ => .num false 0 0
  (s, toF32 ((f32 lo).add .rne dv e))

/-- The probability that the value half uses (R290). -/
def attProb (pfmt : Bool) (p : Lane) : Val :=
  if pfmt then Val.ofF .bf16 ((f32 p).toF false .bf16 .rne 0)
  else if (f32 p).lt (.num false 1 (-9)) then .num false 0 0
  else Val.ofF .e4m3 ((f32 p).toF false .e4m3 .rne 0)

/-- One block for one query row, of the scores of its keys, masked ones absent; none where the row is skipped (R290,
R291). `vals` are the 64 value rows; `dv` gives the device NaN of a column. -/
def attBlock (pfmt : Bool) (dv : Nat → Lane) (scores : List (Option Lane)) (vals : List (List Val)) (r : AttRow) :
    Option AttRow :=
  let step (a : Lane) (x : Option Lane × Nat) : Lane :=
    match x.1 with
    | none => a
    | some y => toF32 ((f32 a).minmax Val.greater true (dv x.2) (f32 y))
  let top := scores.zipIdx.foldl step r.mx
  if top = negInf then none
  else
    let r :=
      if r.mx = negInf then r
      else
        let a := vsf .exp2 (dv 0) (f32Sub (dv 0) r.mx top)
        { r with hi := f32Mul (dv 0) r.hi a, lo := f32Mul (dv 0) r.lo a,
                 out := r.out.zipIdx.map fun o => f32Mul (dv o.2) o.1 a }
    let term (s : Lane × Lane × List Val) (x : Option Lane × Nat) : Lane × Lane × List Val :=
      match x.1 with
      | none => (s.1, s.2.1, s.2.2 ++ [.num false 0 0])
      | some y =>
        let p := vsf .exp2 (dv x.2) (f32Sub (dv x.2) y top)
        let h := attAdd (dv x.2) s.1 s.2.1 p
        (h.1, h.2, s.2.2 ++ [attProb pfmt p])
    let s := scores.zipIdx.foldl term (r.hi, r.lo, [])
    let col (t : Nat) : List (Val × Option Val) := (s.2.2.zip vals).map fun x => (x.1, some (x.2.getD t (.num false 0 0)))
    some ⟨top, s.1, s.2.1, r.out.zipIdx.map fun o =>
      f32Add (dv o.2) o.1 (f32Add (dv o.2) (groupSum (dv o.2) ((col o.2).take 32)) (groupSum (dv o.2) ((col o.2).drop 32)))⟩

end Sys2Proof.Machine
end

