-- ==== Sys2Proof/Machine/Logit.lean ====
section
/-!
DEFINITION. Logit programs and the coarse stage: the check of a program, the transforms, the two passes, the cuts, the
draw and the test of a draft (spec/12_sampler.md R319 to R321, R325 to R327, R330).
-/
namespace Sys2Proof.Machine

/-! ## Words -/

def lgOp (w : BitVec 32) : Nat := fld w.toNat 28 4
def lgArg (w : BitVec 32) : Nat := fld w.toNat 0 28

/-- The BF16 operand of a word, as F32 (R319). -/
def lgLane (w : BitVec 32) : Lane := BitVec.ofNat 32 (fld w.toNat 0 16 * 2 ^ 16)

/-- The operand bits that a word of an operation assigns (R319). -/
def lgMask (op : Nat) : Nat :=
  match op with
  | 1 | 2 | 6 | 8 | 9 => 2 ^ 16 - 1
  | 3 => 2 ^ 17 - 1
  | 7 => 2 ^ 11 - 1
  | 14 => 2 ^ 7 - 1
  | _ => 0

def one : Val := .num false 1 0
def zero : Val := .num false 0 0

/-- The operand of a word is in its range (R319). -/
def lgRange (w : BitVec 32) : Bool :=
  let v := f32 (lgLane w)
  let fin := v.fin?.isSome
  match lgOp w with
  | 1 | 6 => fin && zero.lt v
  | 2 => fin && !v.lt one
  | 3 => fin
  | 7 => 1 ≤ lgArg w && lgArg w ≤ 1024
  | 8 => fin && zero.lt v && !one.lt v
  | 9 => fin && !v.lt zero && !one.lt v
  | _ => true

/-- The first word from place i on that breaks R320; `cut` and `pick` say what has come before. LGMASK fails where the
bitmap is off (R316). -/
def badWord (aen : Bool) : List (BitVec 32) → Nat → Bool → Bool → Option Nat
  | [], _, _, _ => none
  | w :: ws, i, cut, pick =>
    let op := lgOp w
    let isCut := 7 ≤ op && op ≤ 9
    let isPick := 10 ≤ op && op ≤ 12
    if Nat.land (lgArg w) (lgMask op) ≠ lgArg w || (op = 15) ≠ ws.isEmpty || !lgRange w || (op = 5 && !aen) ||
       (1 ≤ op && op ≤ 6 && (cut || pick)) || ((isCut || isPick) && pick) || ((op = 13 || op = 14) && !pick) then some i
    else badWord aen ws (i + 1) (cut || isCut) (pick || isPick)

/-! ## The coarse stage -/

/-- floor(|x| · 2^k · n). -/
def Exact.floor (x : Exact) (k : Int) (n : Nat) : Nat := x.man * n * 2 ^ (x.exp + k).toNat / 2 ^ (-(x.exp + k)).toNat

/-- floor(v · 2^40) of a finite value that is not below 0; 0 of any other. -/
def fix40 (v : Val) : Nat := match v with | .fin x => if x.neg then 0 else x.floor 40 1 | _ => 0

/-- A logit that counts: a NaN counts as −∞ (R321). -/
def lgClean (x : Lane) : Lane := match f32 x with | .nan _ => negInf | _ => x

/-- A token with its e, its integer weight E, and whether the shortlist holds it (R321). -/
structure LgTok where
  t : Nat
  e : Lane
  w : Nat
  sl : Bool
  deriving DecidableEq, Repr

/-- What the two passes find (R321). -/
structure Coarse where
  m : Lane
  g : Nat
  x : Nat
  eout : Lane
  hi : Lane
  lo : Lane
  df : Nat
  ms : Nat
  toks : List LgTok
  deriving DecidableEq, Repr

/-- The bin of a logit above −∞ (R321, pass one). -/
def lgBin (dv m x : Lane) : Nat :=
  if m = f32Inf false then (if x = f32Inf false then 0 else 4095)
  else match f32 (f32Sub dv m x) with
    | .fin d => min 4095 (d.floor 4 1)
    | _ => 4095

/-- e(t) (R321, pass two). -/
def lgExp (dv m x : Lane) : Lane :=
  if x = negInf then 0
  else if m = f32Inf false then (if x = f32Inf false then f32One false else 0)
  else vsf .exp2 dv (f32Sub dv x m)

/-- The greatest value of a list and its first place: m and g (R321). -/
def lgTop : List Lane → Nat → Lane × Nat → Lane × Nat
  | [], _, b => b
  | x :: xs, t, b => lgTop xs (t + 1) (if (f32 b.1).lt (f32 x) then (x, t) else b)

/-- B*, one more than the rule has it: 0 where bin 0 alone exceeds S (R321). -/
def lgCutBin (bins : List (Nat × Nat)) (s : Nat) : Nat :=
  ((List.range 4096).find? fun b => s < (bins.filter fun p => p.2 ≤ b).length).getD 4096

/-- floor((DHI + DLO) · 2^40) (R321). -/
def lgMass (dv hi lo : Lane) : Nat := fix40 ((f32 hi).add .rne dv (f32 lo))

/-- The two passes over a row for a shortlist of S; none where every logit is −∞ (R321). -/
def coarse (dv : Lane) (s : Nat) (row : List Lane) : Option Coarse :=
  let xs := row.map lgClean
  let top := lgTop xs 0 (negInf, 0)
  let m := top.1
  if m = negInf then none
  else
    let bins := (xs.zipIdx.filter fun p => p.1 ≠ negInf).map fun p => (p.2, lgBin dv m p.1)
    let b := lgCutBin bins s
    let sl := if b = 0 then ((bins.filter fun p => p.2 = 0).take s).map (·.1) else (bins.filter fun p => p.2 < b).map (·.1)
    let es := xs.map fun x => lgExp dv m x
    let d := es.foldl (fun (d : Lane × Lane) e => attAdd dv d.1 d.2 e) (0, 0)
    let toks := es.zipIdx.map fun p => (⟨p.2, p.1, fix40 (f32 p.1), sl.contains p.2⟩ : LgTok)
    some ⟨m, top.2, bins.length - sl.length, vsf .exp2 dv (toF32 (.num true b (-4))), d.1, d.2, lgMass dv d.1 d.2,
      ((toks.filter (·.sl)).map (·.w)).sum, toks⟩

/-! ## Cuts and draws -/

/-- A token put into its place in sort order: descending e, then ascending token (R325). -/
def lgInsert (x : LgTok) : List LgTok → List LgTok
  | [] => [x]
  | y :: ys => if (f32 y.e).lt (f32 x.e) then x :: y :: ys else y :: lgInsert x ys

/-- The kept set as it starts, in sort order (R325). -/
def lgKept (c : Coarse) : List LgTok := (c.toks.filter fun x => zero.lt (f32 x.e)).foldl (fun l x => lgInsert x l) []

/-- n is at least v · k, for a finite v that is not below 0, exactly. -/
def geTimes (v : Val) (n k : Nat) : Bool :=
  match v with
  | .fin x => decide (x.man * 2 ^ x.exp.toNat * k ≤ n * 2 ^ (-x.exp).toNat)
  | _ => false

/-- The place of the first token whose running sum of weights meets a condition. -/
def firstSum (p : Nat → Bool) : List Nat → Nat → Nat → Option Nat
  | [], _, _ => none
  | w :: ws, run, i => if p (run + w) then some i else firstSum p ws (run + w) (i + 1)

/-- What a cut comes to: the kept set after it, or none where the row is diverted (R325). -/
def lgCut (c : Coarse) (out : Bool) (w : BitVec 32) (k : List LgTok) : Option (List LgTok) :=
  let v := f32 (lgLane w)
  match lgOp w with
  | 7 =>
    let n := lgArg w
    let ks := k.filter (·.sl)
    if out && (match ks[n - 1]? with | some x => !(f32 c.eout).lt (f32 x.e) | none => true) then none else some (k.take n)
  | 8 =>
    let mk := if out then c.df else (k.map (·.w)).sum
    let ct := firstSum (fun r => geTimes v r mk) (k.map (·.w)) 0 0
    if out && (!geTimes v c.ms c.df || (match ct.bind fun i => k[i]? with | some x => !(f32 c.eout).lt (f32 x.e) | none => false)) then none
    else
      match ct.bind fun i => (k[i]?).map fun x => (i, x.e) with
      | none => some k
      | some (i, e) => some ((k.zipIdx.filter fun p => p.2 < i || p.1.e = e).map (·.1))
  | _ => if out && !(f32 c.eout).lt v then none else some (k.filter fun x => !(f32 x.e).lt v)

/-- The random number u of a row (R327). -/
def lgRandom (seed : Word) (step slot use : Nat) : Nat :=
  wf (mix seed (BitVec.ofNat 64 (step * 2 ^ 32 + slot * 2 ^ 10 + use)) 0) 32 32

/-- A draw among candidates in sort order with integer weights; none where every weight is 0 (R327). -/
def lgDraw (u : Nat) (cs : List (Nat × Nat)) : Option Nat :=
  let t := u * (cs.map (·.2)).sum / 2 ^ 32
  if (cs.map (·.2)).sum = 0 then none
  else (firstSum (fun r => t < r) (cs.map (·.2)) 0 0).bind fun i => (cs[i]?).map (·.1)

/-- The diversion rule of LGDRAW (R326). -/
def lgShort (c : Coarse) (out : Bool) : Bool := out && decide (c.ms * 2 ^ 20 < (2 ^ 20 - 1) * c.df)

/-- The candidates of a draw: K ∩ SL with their weights (R326). -/
def lgCands (k : List LgTok) : List (Nat × Nat) := (k.filter (·.sl)).map fun x => (x.t, x.w)

/-- A pair of a draft line: its token and its q (R329). -/
abbrev LgPair := Nat × Lane

/-- A draft line is usable for a row of V tokens: its pair 0 has q in (0, 1] and a token below V (R330). -/
def lineOk (v : Nat) (ps : List LgPair) : Bool :=
  match ps.head? with
  | some p => (match f32 p.2 with | .fin x => zero.lt (.fin x) && !one.lt (.fin x) | _ => false) && decide (p.1 < v)
  | none => false

/-- floor(q · n) of a finite q, which may lie below 0. -/
def qTimes (b : Lane) (n : Nat) : Option Int :=
  match f32 b with
  | .fin x =>
    let k : Int := (x.man * n * 2 ^ x.exp.toNat : Nat)
    some ((if x.neg then -k else k) / (2 ^ (-x.exp).toNat : Nat))
  | _ => none

/-- What a draft line takes from the weight of token t: none where the line states no probability for it, a q that is not
finite, or two of them (R329, R330; log entry 45). -/
def draftPart (ps : List LgPair) (t mk : Nat) : Option Int :=
  match ps.filter fun p => p.1 = t && p.2 ≠ 0 with
  | [] => some 0
  | [p] => qTimes p.2 mk
  | _ => none

/-- The draft of a line is accepted: u · q(d) · MK < E(d) · 2^32 (R330). -/
def draftTaken (u : Nat) (q : Lane) (mk ed : Nat) : Bool :=
  match f32 q with
  | .fin x => decide (x.man * 2 ^ x.exp.toNat * (u * mk) < ed * 2 ^ 32 * 2 ^ (-x.exp).toNat)
  | _ => false

/-! ## Transforms -/

/-- A transform of every logit (R319). `dv` is the NaN of an invalid operation, `cnt` a token's count, `bias` the bias
entries in order, `allow` the bitmap. -/
def lgTransform (dv : Lane) (cnt : Nat → Nat) (bias : List (Nat × Lane)) (allow : Nat → Bool) (w : BitVec 32)
    (xs : List Lane) : List Lane :=
  let c := lgLane w
  let each (f : Nat → Lane → Lane) : List Lane := xs.zipIdx.map fun p => f p.2 p.1
  match lgOp w with
  | 1 => each fun _ x => f32Mul dv x c
  | 2 => each fun t x =>
      if cnt t = 0 then x else if zero.lt (f32 x) then toF32 ((f32 x).div dv (f32 c)) else f32Mul dv x c
  | 3 =>
    if bit w.toNat 16 then each fun t x => if cnt t = 0 then x else f32Sub dv x c
    else each fun t x => toF32 ((f32 x).sub .rne dv ((f32 c).mul dv (.ofInt (cnt t))))
  | 4 => bias.foldl (fun xs b => xs.modify b.1 fun x => f32Add dv x b.2) xs
  | 5 => each fun t x => if allow t then x else negInf
  | 6 => each fun _ x => f32Mul dv c (vsf .tanh dv (toF32 ((f32 x).div dv (f32 c))))
  | _ => xs

end Sys2Proof.Machine
end

