-- ==== Sys2Proof/Machine/AsCupola.lean ====
section
/-!
DEFINITION. Cupola: binding records and tables, its commands, segments, and the run of a row (spec/12_sampler.md R313 to
R318, R322 to R334; spec/16_reference_m_u.md R429).
-/
namespace Sys2Proof.Machine

/-! ## Binding records -/

/-- A binding record: its sixteen words (R314). -/
abbrev Bind := List Word

def bdProg (b : Bind) : Nat := wf (blkW b 0) 0 48
def bdNw (b : Bind) : Nat := wf (blkW b 0) 48 6 + 1
def bdCtb (b : Bind) : Nat := wf (blkW b 1) 0 48
def bdLct (b : Bind) : Nat := wf (blkW b 1) 48 4
def bdBib (b : Bind) : Nat := wf (blkW b 2) 0 48
def bdNbias (b : Bind) : Nat := wf (blkW b 2) 48 11
def bdAlb (b : Bind) : Nat := wf (blkW b 3) 0 48
def bdAen (b : Bind) : Bool := wb (blkW b 3) 48
def bdV (b : Bind) : Nat := wf (blkW b 5) 0 19
def bdSlc (b : Bind) : Nat := wf (blkW b 5) 19 3
def bdNlast (b : Bind) : Nat := wf (blkW b 5) 22 3 + 1
def bdStep (b : Bind) : Nat := wf (blkW b 5) 32 32
def bdRben (b : Bind) : Bool := wb (blkW b 6) 32
def bdDrb (b : Bind) : Nat := wf (blkW b 7) 0 48
def bdBound (b : Bind) : Bool := wb (blkW b 8) 0
def bdSlow (b : Bind) : Bool := wb (blkW b 8) 1
def bdVst (b : Bind) : Nat := wf (blkW b 8) 2 2
def bdVpos (b : Bind) : Nat := wf (blkW b 8) 4 4
def bdVacc (b : Bind) : Nat := wf (blkW b 8) 8 4
def bdNd (b : Bind) : Nat := wf (blkW b 8) 12 4
def bdCtx (b : Bind) : Nat := wf (blkW b 8) 16 6

/-- A word of a record replaced, and a field of one. -/
def setW (b : Bind) (k : Nat) (w : Word) : Bind := b.set k w
def setB (b : Bind) (k lo w v : Nat) : Bind := b.set k (setF (blkW b k) lo w v)

/-- A 32-bit counter of a record that saturates (R313). -/
def incB (b : Bind) (k lo : Nat) : Bind :=
  setB b k lo 32 (sat32 (BitVec.ofNat 32 (wf (blkW b k) lo 32))).toNat

def Mach.bindAddr (m : Mach) (d : Fin 4) (slot : Nat) : Nat := (m.die d).cup.sbbase.toNat + 128 * slot

/-- The record of a slot of die d, as context c reads it, that read, and the record written (R314, R365, R366). -/
def Mach.bind (m : Mach) (c : Fin 64) (d : Fin 4) (slot : Nat) : Bind :=
  wordsOf 16 (m.devRead (m.sec c) (m.bindAddr d slot) 128)
def Mach.noteBind (m : Mach) (c : Fin 64) (d : Fin 4) (slot : Nat) : Mach := m.noteReads c [(m.bindAddr d slot, 128)]
def Mach.putBind (m : Mach) (c : Fin 64) (d : Fin 4) (slot : Nat) (b : Bind) : Mach :=
  m.ctxWrite c (m.bindAddr d slot) (b.flatMap wordBytes)

/-! ## The count table -/

/-- Where a probe for token t ends: its place, and whether its entry matches; none where the table is full (R315). -/
def probe (rd : Nat → Word) (lct t : Nat) : Nat → Nat → Option (Nat × Bool)
  | 0, _ => none
  | n + 1, i =>
    let w := rd i
    if !wb w 31 then some (i, false) else if wf w 0 18 = t then some (i, true) else probe rd lct t n ((i + 1) % 2 ^ lct)

/-- The probe of the count table of a record (R315). -/
def Mach.findCount (m : Mach) (c : Fin 64) (b : Bind) (t : Nat) : Option (Nat × Bool) :=
  probe (fun i => m.devW (m.sec c) (bdCtb b + 8 * i)) (bdLct b) t (2 ^ bdLct b)
    (t * 0x9E3779B1 % 2 ^ 32 / 2 ^ (32 - bdLct b))

/-- count(t) (R315). -/
def Mach.countOf (m : Mach) (c : Fin 64) (b : Bind) (t : Nat) : Nat :=
  match m.findCount c b t with
  | some (i, true) => wf (m.devW (m.sec c) (bdCtb b + 8 * i)) 32 32
  | _ => 0

/-- count(t) raised by n, saturating, and the new count; none where a full table has no room (R315, R319, R332). -/
def Mach.addCount (m : Mach) (c : Fin 64) (b : Bind) (t n : Nat) : Option (Nat × Mach) :=
  (m.findCount c b t).map fun p =>
    let k := min (m.countOf c b t + n) (2 ^ 32 - 1)
    (k, m.ctxWrite c (bdCtb b + 8 * p.1) (leBytes 8 (t + 2 ^ 31 + k * 2 ^ 32)))

/-- The count table of a record is read (R315, R365, R366). -/
def Mach.noteCounts (m : Mach) (c : Fin 64) (b : Bind) : Mach := m.noteReads c [(bdCtb b, 8 * 2 ^ bdLct b)]

/-- Every entry of a count table written as zero. -/
def Mach.clearCounts (m : Mach) (c : Fin 64) (b : Bind) : Mach := m.ctxWrite c (bdCtb b) (leBytes (8 * 2 ^ bdLct b) 0)

/-! ## Commands -/

def smSlot (ws : List Word) : Nat := wf (blkW ws 0) 0 16

/-- The binding words of an SMBIND block (R316). -/
def smWord (ws : List Word) (k : Nat) : Word := blkW ws (4 + k)

/-- An SMBIND block has a reserved field set (R314, R316). -/
def smbindBad (m : Mach) (g : Fin 256) (ws : List Word) : Bool :=
  !hiZero ws 0 18 || !barWord m g ws || blkW ws 3 ≠ 0 || !hiZero ws 4 54 || !hiZero ws 5 52 || !hiZero ws 6 59 ||
  !hiZero ws 7 49 || wf (blkW ws 9) 25 7 ≠ 0 || !hiZero ws 10 33 || !hiZero ws 11 48 || !zeroWords ws 12 16

/-- An SMRUN block is malformed (R318). -/
def smrunBad (m : Mach) (g : Fin 256) (ws : List Word) : Bool :=
  !hiZero ws 0 16 || !barWord m g ws || !hiZero ws 3 22 || wf (blkW ws 3) 0 6 ≠ 0 || !zeroWords ws 4 8

/-- An SMTAB block is malformed (R332). -/
def smtabBad (m : Mach) (g : Fin 256) (ws : List Word) : Bool :=
  4 < wf (blkW ws 0) 16 4 || wf (blkW ws 0) 20 12 ≠ 0 || !barWord m g ws || !hiZero ws 3 18 || !zeroWords ws 4 8

/-- An SMSTAT block is malformed (R316, R333). -/
def smstatBad (m : Mach) (g : Fin 256) (ws : List Word) : Bool :=
  !hiZero ws 0 17 || !barWord m g ws || !hiZero ws 3 22 || !zeroWords ws 4 8

/-- A command of a Cupola that is not enabled changes nothing (R316). -/
def cupRun (run : Mach → Op → CmdOut) (m : Mach) (o : Op) : CmdOut :=
  if !(m.die o.die).cup.en then .no m 9 else run m o

/-- The slot of an operation is bound to its context: STATE and NOTOWN otherwise (R316). -/
def onBind (m : Mach) (o : Op) (f : Mach → Bind → CmdOut) : CmdOut :=
  let b := m.bind o.ctx o.die (smSlot o.blk)
  let m := m.noteBind o.ctx o.die (smSlot o.blk)
  if !bdBound b then .no m 4 else if bdCtx b ≠ o.ctx.val then .no m 5 else f m b

/-- The fields of a binding are out of range or misaligned (R314, R316). -/
def bindRange (m : Mach) (o : Op) (b : Bind) : Bool :=
  let rbar := BitVec.ofNat 64 (wf (blkW b 6) 0 32)
  bdV b < 16 || 262144 < bdV b || 5 < bdSlc b || bdLct b < 4 || 12 < bdLct b || 1024 < bdNbias b || bdProg b % 4 ≠ 0 ||
  bdCtb b % 8 ≠ 0 || bdBib b % 8 ≠ 0 || bdAlb b % 8 ≠ 0 || bdDrb b % 64 ≠ 0 ||
  (bdRben b && (eaSpace rbar ≠ 3 || !barOk m o.core rbar))

/-- The slow-path ring is there and large enough for a row of V logits (R328). -/
def Mach.slowRing (m : Mach) (d : Fin 4) (v : Nat) : Bool :=
  let u := (m.die d).cup
  let g := toCore u.score.toNat
  u.sren && m.present g && 64 + 4 * v ≤ 64 * (m.ring g (Fin.ofNat 16 u.srng.toNat)).slotsz.toNat

/-- The slot has a row buffer open, or a row accepted before the command still to run (R316). -/
def slotOpen (m : Mach) (o : Op) : Bool :=
  let u := (m.die o.die).cup
  let s := smSlot o.blk
  (u.bufs.any fun (r : RowBuf) => r.slot.toNat = s) || m.rowsBefore o

/-- SMBIND at Cupola (R316). -/
def doSmbind (m : Mach) (o : Op) : CmdOut :=
  let c := o.ctx
  let s := smSlot o.blk
  let old := m.bind c o.die s
  let m := m.noteBind c o.die s
  let v := BitVec.ofNat 32 s
  let b : Bind := (List.range 8).map (smWord o.blk)
  let setProg (ws : Option (List (BitVec 32))) (m : Mach) : Mach :=
    m.onCup o.die fun u =>
      let rest := u.progs.filter fun p => p.1 ≠ BitVec.ofNat 16 s
      { u with progs := match ws with | some ws => (BitVec.ofNat 16 s, ws) :: rest | none => rest }
  if bdBound old && bdCtx old ≠ c.val then .no m 5
  else if slotOpen m o then .no m 2
  else if wb (blkW o.blk 0) 16 then ⟨setProg none (m.putBind c o.die s (List.replicate 16 0)), 1, v⟩
  else if bindRange m o b then .no m 3
  else if !m.slowRing o.die (bdV b) then .no m 7
  else
    let r := m.access c (bdProg b) (4 * bdNw b)
    let ws := (List.range (bdNw b)).map fun k => BitVec.ofNat 32 (leVal ((r.1.drop (4 * k)).take 4))
    match badWord (bdAen b) ws 0 false false with
    | some k => ⟨r.2, 6, BitVec.ofNat 32 k⟩
    | none =>
      let m := setProg (some ws) (r.2.putBind c o.die s
        (b ++ [BitVec.ofNat 64 (1 + c.val * 2 ^ 16), 0x3FFFF, 0, 0, 0, 0, 0, 0]))
      ⟨if wb (blkW o.blk 0) 17 then m else m.clearCounts c b, 1, v⟩

/-- CLRSLOW (R332). -/
def doClrslow (m : Mach) (o : Op) : CmdOut :=
  onBind m o fun m b => ⟨m.putBind o.ctx o.die (smSlot o.blk) (setB b 8 1 1 0), 1, if bdSlow b then 1 else 0⟩

def stN (ws : List Word) : Nat := wf (blkW ws 0) 32 32
def stTok (ws : List Word) : Nat := wf (blkW ws 3) 0 18

/-- ADDCNT (R332). -/
def doAddcnt (m : Mach) (o : Op) : CmdOut :=
  onBind m o fun m b =>
    if bdV b ≤ stTok o.blk then .no m 3
    else match (m.noteCounts o.ctx b).addCount o.ctx b (stTok o.blk) (stN o.blk) with
      | none => .no m 8
      | some (k, m) => ⟨m, 1, BitVec.ofNat 32 k⟩

/-- CLRCNT (R332). -/
def doClrcnt (m : Mach) (o : Op) : CmdOut := onBind m o fun m b => ⟨m.clearCounts o.ctx b, 1, 0⟩

/-- ARMV (R329, R332). -/
def doArmv (m : Mach) (o : Op) : CmdOut :=
  onBind m o fun m b =>
    let n := stN o.blk
    if 15 < n then .no m 3
    else
      ⟨m.putBind o.ctx o.die (smSlot o.blk) (setB (setB (setB (setB b 8 2 2 1) 8 4 4 0) 8 8 4 0) 8 12 4 n), 1, BitVec.ofNat 32 n⟩

/-- SETSTEP (R332). -/
def doSetstep (m : Mach) (o : Op) : CmdOut :=
  onBind m o fun m b => ⟨m.putBind o.ctx o.die (smSlot o.blk) (setB b 5 32 32 (stN o.blk)), 1, BitVec.ofNat 32 (bdStep b)⟩

/-- The register words 0x000 to 0x028 (R313). -/
def Cupola.words (u : Cupola) : List Word :=
  [if u.en then 1 else 0, u.sbbase.setWidth 64, u.asbase.setWidth 64,
   BitVec.ofNat 64 (u.score.toNat + u.srng.toNat * 2 ^ 8 + u.sren.toNat * 2 ^ 12), u.diverts ++ u.rows, u.ctfull ++ u.segdrop]

/-- SMSTAT: the snapshot, to be written at OUT (R333). -/
def doSmstat (m : Mach) (o : Op) : CmdOut :=
  let out := wf (blkW o.blk 3) 0 22
  let put (m : Mach) (ws : List Word) (v : Nat) : CmdOut :=
    if out % 64 ≠ 0 || !inSpad out (8 * ws.length) then .no m 3
    else ⟨m.onOp o.id fun o => { o with sdesc := ws }, 1, BitVec.ofNat 32 v⟩
  if wb (blkW o.blk 0) 16 then put m (m.die o.die).cup.words 0 else onBind m o fun m b => put m b (smSlot o.blk)

/-- SMRUN: the row is accepted, in its slot at the command's own place, and the command waits for its run; other codes end
it (R318, R334). -/
def doSmrun (m : Mach) (o : Op) : Mach :=
  let b := m.bind o.ctx o.die (smSlot o.blk)
  let on := (m.die o.die).cup.en
  let m := if on then m.noteBind o.ctx o.die (smSlot o.blk) else m
  let no (k : Nat) : Mach := Mach.applied (.no m k) o.id
  if !on then no 9
  else if !bdBound b then no 4
  else if bdCtx b ≠ o.ctx.val then no 5
  else if !inSpad (wf (blkW o.blk 3) 0 22) (4 * bdV b) then no 3
  else
    let r : Row := ⟨BitVec.ofNat 16 (smSlot o.blk), m.nextId, o.ctx, [], some o.id, none⟩
    ({ m with nextId := m.nextId + 1 }.onCup o.die fun u => { u with accepted := u.accepted ++ [r] }).onOp o.id fun o => { o with begun := true }

/-! ## Segments -/

/-- SEGDROP counts n drops (R317). -/
def Mach.segdrop (m : Mach) (d : Fin 4) (n : Nat) : Mach :=
  m.onCup d fun u => { u with segdrop := (List.range n).foldl (fun x _ => sat32 x) u.segdrop }

/-- A segment is for a slot that is not bound to its context, or comes while Cupola is not enabled (R317). -/
def Mach.segmentLost (m : Mach) (d : Fin 4) (s : Segment) : Bool :=
  let b := m.bind s.ctx d s.slot.toNat
  !(m.die d).cup.en || !bdBound b || bdCtx b ≠ s.ctx.val

/-- The buffer of a slot's row, an empty one where none is open (R317). -/
def Mach.rowBuf (m : Mach) (d : Fin 4) (s : Segment) : RowBuf :=
  ((m.die d).cup.bufs.find? fun r => r.slot = s.slot).getD ⟨s.slot, s.ctx, [], 0⟩

/-- The LAST segments that a row has received with a segment (R317). -/
def Mach.lastsWith (m : Mach) (d : Fin 4) (s : Segment) : Nat := (m.rowBuf d s).lasts + if s.last then 1 else 0

/-- A segment enters its row's buffer; the row that it closes is accepted, before the commands of the clock (R317, R334). -/
def Mach.takeSegment (m : Mach) (d : Fin 4) (s : Segment) : Mach :=
  let b := m.bind s.ctx d s.slot.toNat
  let m := if (m.die d).cup.en then m.noteBind s.ctx d s.slot.toNat else m
  if m.segmentLost d s then m.segdrop d 1
  else
    let es := s.vals.zipIdx.map fun p => (s.vidx + p.2, p.1)
    let good := es.filter fun e => e.1 < bdV b
    let old := m.rowBuf d s
    let n := m.lastsWith d s
    let rest := (m.die d).cup.bufs.filter fun r => r.slot ≠ s.slot
    let m := m.segdrop d (es.length - good.length)
    if bdNlast b ≤ n then
      let m := m.takesIn d .cupola 0
      let r : Row := ⟨s.slot, m.nextId, s.ctx, good.reverse ++ old.ents, none, none⟩
      { m.onCup d fun u => { u with bufs := rest, accepted := u.accepted ++ [r] } with nextId := m.nextId + 1 }
    else m.onCup d fun u => { u with bufs := rest ++ [⟨s.slot, s.ctx, good.reverse ++ old.ents, n⟩] }

/-! ## The run of a row -/

/-- A row as it runs: the logits, the coarse stage's findings (none before it, some none for an empty row), the kept set,
OUT, the token, the outcome, whether the row ends a verify group (R319 to R331). -/
structure LgRun where
  m : Mach
  b : Bind
  xs : List Lane
  cs : Option (Option Coarse)
  kept : List LgTok
  out : Bool
  tok : Option Nat
  outc : Nat
  ended : Bool

/-- How a row ends: at LGEND or at a discarding LGVERIFY, or diverted at a word (R323, R328, R330). -/
inductive LgEnd where
  | stop (r : LgRun)
  | divert (w : Nat) (r : LgRun)

/-- The free bits of a NaN that an invalid operation of Cupola gives: the spec names no parcel and no lane for it (R136;
log entry 19). -/
def cupNan (m : Mach) : Lane := 0x7FC00000 ||| (Config.freeValue m.seq &&& 0x3FFFFF)

/-- The coarse stage, run once, after the transforms (R321, R325). -/
def LgRun.stage (r : LgRun) : LgRun :=
  match r.cs with
  | some _ => r
  | none =>
    let c := coarse (cupNan r.m) (32 * 2 ^ bdSlc r.b) r.xs
    match c with
    | none => { r with cs := some none }
    | some c => { r with cs := some (some c), kept := lgKept c, out := 0 < c.x }

/-- A pick that draws: the token, or EMPTY where every weight is 0 (R326, R327). -/
def LgRun.draw (r : LgRun) (slot outc : Nat) (cs : List (Nat × Nat)) : LgRun :=
  match lgDraw (lgRandom (blkW r.b 4) (bdStep r.b) slot 2) cs with
  | some t => { r with tok := some t, outc := outc }
  | none => { r with tok := none, outc := 7 }

/-- The verify state is done: the row ends its group (R330). -/
def LgRun.endGroup (r : LgRun) : LgRun := { r with b := setB r.b 8 2 2 2, ended := true }

/-- The pairs of the draft line of the armed position; bits [31:18] of a pair are not tested (R329; log entry 97). -/
def LgRun.line (r : LgRun) (c : Fin 64) : List LgPair :=
  (List.range 8).map fun i =>
    let w := r.m.devW (r.m.sec c) (bdDrb r.b + 64 * bdVpos r.b + 8 * i)
    (wf w 0 18, BitVec.ofNat 32 (wf w 32 32))

/-- The test of the armed draft position (R330). -/
def LgRun.verify (r : LgRun) (slot : Nat) (ps : List LgPair) : LgRun :=
  let cs := lgCands r.kept
  let mk := (cs.map (·.2)).sum
  let p := ps.headD (0, 0)
  let ed := ((cs.find? fun x => x.1 = p.1).map (·.2)).getD 0
  if draftTaken (lgRandom (blkW r.b 4) (bdStep r.b) slot 3) p.2 mk ed then
    { r with tok := some p.1, outc := 3, b := setB (setB r.b 8 8 4 (bdVacc r.b + 1)) 8 4 4 (bdVpos r.b + 1) }
  else
    let free (t : Nat) : Nat := (Config.freeValue (r.m.seq + t)).toNat
    (r.draw slot 4 (cs.map fun x =>
      (x.1, match draftPart ps x.1 mk with | some q => (x.2 - q).toNat | none => free x.1))).endGroup

/-- A word from the coarse stage on; `i` is its place (R325, R326, R330). -/
def LgRun.late (r : LgRun) (c : Fin 64) (slot i : Nat) (w : BitVec 32) : LgEnd ⊕ LgRun :=
  let r := r.stage
  let op := lgOp w
  match r.cs with
  | some (some k) =>
    if op ≤ 9 then
      (match lgCut k r.out w r.kept with
       | none => .inl (.divert i r)
       | some l => .inr { r with kept := l, out := false })
    else if op = 10 then .inr { r with tok := some k.g, outc := 2 }
    else
      let vst := if op = 12 then bdVst r.b else 0
      if vst = 2 then .inl (.stop { r with outc := 5 })
      else
        let ps := r.line c
        let use := vst = 1 && bdVpos r.b < bdNd r.b && lineOk (bdV r.b) ps
        if lgShort k r.out then .inl (.divert i r)
        else if use then .inr (r.verify slot ps)
        else
          let q := r.draw slot 1 (lgCands r.kept)
          .inr (if vst = 1 then q.endGroup else q)
  | _ => .inr (if 10 ≤ op then { r with tok := none, outc := 7 } else r)

/-- LGCOUNT (R319). -/
def LgRun.count (r : LgRun) (c : Fin 64) (d : Fin 4) : LgRun :=
  match r.tok with
  | none => r
  | some t =>
    match r.m.addCount c r.b t 1 with
    | some (_, m) => { r with m := m }
    | none => { r with m := r.m.onCup d fun u => { u with ctfull := sat32 u.ctfull } }

/-- The token as 32 bits (R324). -/
def tokWord (t : Option Nat) : BitVec 32 := match t with | some t => BitVec.ofNat 32 t | none => BitVec.allOnes 32

/-- LGEMIT (R319, R324, R331). -/
def LgRun.emit (r : LgRun) (c : Fin 64) (d : Fin 4) (w : BitVec 32) : LgRun :=
  let k : Fin 64 := Fin.ofNat 64 (fld w.toNat 0 6)
  let post (v : Nat) : LgRun :=
    { r with m := (r.m.atGp c (gpCup d)).onCtx c fun x => { x with gp := Machine.put x.gp k (BitVec.ofNat 64 v) } }
  if bit w.toNat 6 then (if r.ended then post (bdVacc r.b) else r) else post (tokWord r.tok).toNat

/-- The words of a program from place i on; bits [31:18] of a bias entry are not tested (R315, R319, R323; log entry
97). -/
def LgRun.go (c : Fin 64) (d : Fin 4) (slot : Nat) : List (BitVec 32) → Nat → LgRun → LgEnd
  | [], _, r => .stop r
  | w :: ws, i, r =>
    let op := lgOp w
    if op = 0 then LgRun.go c d slot ws (i + 1) r
    else if op ≤ 6 then
      let bias := (List.range (bdNbias r.b)).filterMap fun k =>
        let e := r.m.devW (r.m.sec c) (bdBib r.b + 8 * k)
        if wf e 0 18 < bdV r.b then some (wf e 0 18, BitVec.ofNat 32 (wf e 32 32)) else none
      let allow (t : Nat) : Bool := (r.m.devByte (r.m.sec c) (bdAlb r.b + t / 8)).getLsbD (t % 8)
      LgRun.go c d slot ws (i + 1)
        { r with xs := lgTransform (cupNan r.m) (r.m.countOf c r.b) (if op = 4 then bias else []) allow w r.xs }
    else if op ≤ 12 then
      match r.late c slot i w with
      | .inl e => e
      | .inr r => LgRun.go c d slot ws (i + 1) r
    else if op = 13 then LgRun.go c d slot ws (i + 1) (r.count c d)
    else if op = 14 then LgRun.go c d slot ws (i + 1) (r.emit c d w)
    else .stop r

/-- The V logits of a row: −∞ where nothing was written (R317, R318). -/
def rowLogits (r : Row) (v : Nat) : List Lane :=
  r.ents.reverse.foldl (fun xs e => xs.set e.1 e.2) (List.replicate v negInf)

/-- The bytes of a slow-path slot (R328). -/
def slowBytes (slot w step v : Nat) (k : Option Coarse) (xs : List Lane) : List Byte :=
  let f (g : Coarse → Lane) : Nat := if w = 0 then 0 else match k with | some c => (g c).toNat | none => 0
  leBytes 8 (slot + w * 2 ^ 16 + step * 2 ^ 32) ++ leBytes 8 v ++ leBytes 8 (f (·.hi) + f (·.lo) * 2 ^ 32) ++
  leBytes 8 (f (·.m)) ++ leBytes 32 0 ++ xs.flatMap fun x => leBytes 4 x.toNat

/-- A row accepted on die d replaced by its update. -/
def Mach.onRow (m : Mach) (d : Fin 4) (r : Row) (f : Row → Row) : Mach :=
  m.onCup d fun u => { u with accepted := u.accepted.map fun x => if x.acc = r.acc then f x else x }

/-- A row's last act: its arrival at RBAR, which the port may keep in its place, and its SMRUN's result (R318, R323). -/
def Mach.closeRow (m : Mach) (d : Fin 4) (r : Row) (tok : Option Nat) : Mach :=
  let close (m : Mach) : Mach :=
    let m := m.onCup d fun u => { u with accepted := u.accepted.filter fun x => x.acc ≠ r.acc }
    match r.op with
    | some k => Mach.applied ⟨m, 1, tokWord tok⟩ k
    | none => m
  let b := m.bind r.ctx d r.slot.toNat
  match m.barOf 0 (blkW b 6) (bdRben b) with
  | some (t, a) => m.request1 t r.ctx (.row d r.acc) fun m => close (m.arrive t a r.ctx)
  | none => close m

/-- The end of a row's run: its record, the counts, and then its last act (R323, R328). -/
def Mach.endRow (m : Mach) (d : Fin 4) (r : Row) (b : Bind) (tok : Option Nat) (outc : Nat) : Mach :=
  let b := setW b 9 (BitVec.ofNat 64 (tok.getD 0x3FFFF + outc * 2 ^ 18 + bdStep b * 2 ^ 32))
  let b := if outc = 6 then incB (setB b 8 1 1 1) 10 32 else incB b 10 0
  let b := if 5 ≤ outc then b else setB b 5 32 32 (bdStep b + 1)
  let m := m.putBind r.ctx d r.slot.toNat b
  let m := m.onCup d fun u =>
    { u with stall := u.stall.filter (· ≠ r.acc),
             rows := if outc = 6 then u.rows else sat32 u.rows, diverts := if outc = 6 then sat32 u.diverts else u.diverts }
  (m.onRow d r fun x => { x with res := some tok }).closeRow d r tok

/-- The slow-path slot that a row has claimed, written and published (R163, R328). -/
def Mach.fillSlow (m : Mach) (g : Fin 256) (n : Fin 16) (bs : List Byte) : Mach :=
  let q := (m.ring g n).grant .we
  let a := q.2.base.toNat + 64 * q.2.slotsz.toNat * (q.1.toNat % q.2.nslot.toNat)
  let m := m.wspad g a bs
  let m := { m.onRing g n fun _ => { q.2 with ppub := q.2.ppub + 1 } with touched := (g, 0x400000 + n.val) :: m.touched }
  m.serveRing g n .wf (m.core g).ringWaits.length

/-- A diverted row: a slot of the slow-path ring claimed, written and published. While there is none, the row waits in its
place, and it holds the die's later rows (R149, R164, R328). -/
def Mach.divertRow (m : Mach) (d : Fin 4) (r : Row) (b : Bind) (w : Nat) (k : Option Coarse) (xs : List Lane) : Mach :=
  let u := (m.die d).cup
  let g := toCore u.score.toNat
  let n : Fin 16 := Fin.ofNat 16 u.srng.toNat
  let q := m.unitRing g n .we r.ctx (.row d r.acc) fun m =>
    m.fillSlow g n (slowBytes r.slot.toNat w (bdStep b) (bdV b) k xs)
  if q.2 then q.1.endRow d r b none 6
  else q.1.onCup d fun u => { u with stall := if u.stall.contains r.acc then u.stall else r.acc :: u.stall }

/-- A row is next: nothing its slot accepted before it is outstanding, and no row of the die accepted before it waits for
the slow-path ring, unless it waits there itself (R328, R334). -/
def Mach.rowNext (m : Mach) (d : Fin 4) (r : Row) : Bool :=
  let u := (m.die d).cup
  !(u.accepted.any fun (x : Row) => x.slot = r.slot && x.place < r.place) &&
  !(m.ops.any fun (o : Op) => o.die = d && o.unit = .cupola && !o.begun && !o.fin && o.id < r.place && smSlot o.blk = r.slot.toNat) &&
  (u.stall.contains r.acc || !(u.accepted.any fun (x : Row) => x.acc < r.acc && u.stall.contains x.acc))

/-- The logits of an SMRUN's row, which Cupola reads from the core's scratchpad as the run begins (R149, R318). -/
def Mach.readRow (m : Mach) (d : Fin 4) (r : Row) (o : Op) : Mach :=
  let a := wf (blkW o.blk 3) 0 22
  let v := bdV (m.bind r.ctx d r.slot.toNat)
  m.request1 o.core r.ctx (.row d r.acc) fun m =>
    let q := m.portRead r.ctx o.core false a (4 * v)
    if !q.2 then q.1
    else
      q.1.onRow d r fun x =>
        { x with ents := (List.range v).map fun t => (t, Memory.readL (q.1.core o.core).spad (a + 4 * t)) }

/-- What the run of a program reads of device memory beside the program: the slot's record, the count table, the bias list, the
bitmap and the armed draft line, each where a word uses it (R315, R319, R329, R365, R366). -/
def Mach.noteRow (m : Mach) (c : Fin 64) (d : Fin 4) (slot : Nat) (b : Bind) (ws : List (BitVec 32)) : Mach :=
  let has (ops : List Nat) : Bool := ws.any fun w => ops.contains (lgOp w)
  let m := m.noteBind c d slot
  let m := if has [2, 3, 13] then m.noteCounts c b else m
  m.noteReads c ((if has [4] then [(bdBib b, 8 * bdNbias b)] else []) ++ (if has [5] then [(bdAlb b, (bdV b + 7) / 8)] else []) ++
    (if has [12] && bdVst b = 1 then [(bdDrb b + 64 * bdVpos b, 64)] else []))

/-- Cupola runs the program of an accepted row's slot over it (R322 to R331): the row's logits are read, if an SMRUN gave
it, then the program runs, and the arrival ends it. -/
def Mach.runRow (m : Mach) (d : Fin 4) (r : Row) : Mach :=
  let c := r.ctx
  let slot := r.slot.toNat
  let b := m.bind c d slot
  if !m.rowNext d r then m
  else
    match r.res with
    | some tok => m.closeRow d r tok
    | none =>
      match (if r.ents.isEmpty then r.op.bind m.findOp else none) with
      | some o => m.readRow d r o
      | none =>
        let xs := rowLogits r (bdV b)
        if bdSlow b then m.divertRow d r b 0 none xs
        else
          let ws := (((m.die d).cup.progs.find? fun p => p.1 = r.slot).map (·.2)).getD []
          match LgRun.go c d slot ws 0 ⟨m.noteRow c d slot b ws, b, xs, none, [], false, none, 0, false⟩ with
          | .stop x => x.m.endRow d r x.b x.tok x.outc
          | .divert w x => m.divertRow d r b w (x.cs.bind id) (if w = 0 then xs else x.xs)

/-! ## The meanings -/

/-- Cupola's turn at a command: applied, or completed with its snapshot (R316, R333). -/
def cupWork (run : Mach → Op → CmdOut) : Fin 4 → UnitKind → Mach → Mach :=
  gatherWork fun m o => Mach.applied (cupRun run m o) o.id

/-- SMBIND (R316). -/
def execSmbind (t : Tok) (sa : Fin 32) : State → Out := unitParcel (.smbind t sa) 128 .cupola smbindBad (cupWork doSmbind)

/-- SMRUN (R318). -/
def execSmrun (t : Tok) (sa : Fin 32) : State → Out :=
  unitParcel (.smrun t sa) 64 .cupola smrunBad (gatherWork doSmrun)

/-- SMTAB, CLRSLOW (R332). -/
def execClrslow (t : Tok) (sa : Fin 32) : State → Out := unitParcel (.clrslow t sa) 64 .cupola smtabBad (cupWork doClrslow)

/-- SMTAB, ADDCNT (R332). -/
def execAddcnt (t : Tok) (sa : Fin 32) : State → Out := unitParcel (.addcnt t sa) 64 .cupola smtabBad (cupWork doAddcnt)

/-- SMTAB, CLRCNT (R332). -/
def execClrcnt (t : Tok) (sa : Fin 32) : State → Out := unitParcel (.clrcnt t sa) 64 .cupola smtabBad (cupWork doClrcnt)

/-- SMTAB, ARMV (R329, R332). -/
def execArmv (t : Tok) (sa : Fin 32) : State → Out := unitParcel (.armv t sa) 64 .cupola smtabBad (cupWork doArmv)

/-- SMTAB, SETSTEP (R332). -/
def execSetstep (t : Tok) (sa : Fin 32) : State → Out := unitParcel (.setstep t sa) 64 .cupola smtabBad (cupWork doSetstep)

/-- SMSTAT (R333). -/
def execSmstat (t : Tok) (sa : Fin 32) : State → Out := unitParcel (.smstat t sa) 64 .cupola smstatBad (cupWork doSmstat)

/-- SEGMENT: the oldest segment at a die's sampler port is taken, unless it needs a row buffer and none is free (R317). -/
def execSegment (d : Fin 4) : State → Out :=
  ready fun m =>
    let u := (m.die d).cup
    match u.port with
    | [] => m
    | s :: rest =>
      if u.en && 64 ≤ u.bufs.length && !(u.bufs.any fun r => r.slot = s.slot) then m
      else (m.onCup d fun u => { u with port := rest }).takeSegment d s

/-- ROW_RUN: the k-th accepted row of a die runs (R322, R323). -/
def execRowRun (d : Fin 4) (k : Nat) : State → Out :=
  ready fun m => match (m.die d).cup.accepted[k]? with | some r => m.runRow d r | none => m

end Sys2Proof.Machine
end

