-- ==== Sys2Proof/Machine/AsLantern.lean ====
section
/-!
DEFINITION. Lantern: its commands, the check and the start of a program, its steps, and the messages that reach it
(spec/13_collectives.md R335, R337 to R354; spec/15_reference_a_l.md R396).
-/
namespace Sys2Proof.Machine

/-! ## Commands -/

def lnNw (ws : List Word) : Nat := wf (blkW ws 0) 48 10 + 1
def lnRank (ws : List Word) : Nat := wf (blkW ws 4) 0 12
def lnN (ws : List Word) : Nat := wf (blkW ws 4) 16 12 + 1
def lnNd (ws : List Word) : Nat := wf (blkW ws 5) 48 8 + 1
def lnBstr (ws : List Word) : Nat := wf (blkW ws 6) 0 48

/-- An LNRUN block is malformed (R341; log entry 46 for the alignments). -/
def lnrunBad (m : Mach) (g : Fin 256) (ws : List Word) : Bool :=
  !hiZero ws 0 58 || !barWord m g ws || !hiZero ws 3 48 || wf (blkW ws 4) 12 4 ≠ 0 || !hiZero ws 4 28 || !hiZero ws 5 56 ||
  !hiZero ws 6 48 || blkW ws 7 ≠ 0 || lnN ws ≤ lnRank ws || wf (blkW ws 0) 0 3 ≠ 0 || wf (blkW ws 3) 0 2 ≠ 0 ||
  wf (blkW ws 5) 0 6 ≠ 0 || wf (blkW ws 6) 0 6 ≠ 0

/-- An LNSTAT block is malformed (R344). -/
def lnstatBad (m : Mach) (g : Fin 256) (ws : List Word) : Bool :=
  blkW ws 0 ≠ 0 || !barWord m g ws || !hiZero ws 3 22 || !zeroWords ws 4 8 || wf (blkW ws 3) 0 8 ≠ 0 ||
  !inSpad (wf (blkW ws 3) 0 22) 256

/-- The snapshot of a Lantern, 32 words; the word index of no running step is not stated (R344; log entry 19). -/
def Mach.lanWords (m : Mach) (l : Lantern) : List Word :=
  let widx := match l.run with | some r => r.pc | none => (Config.freeValue m.seq).toNat
  BitVec.ofNat 64 (l.rseq.toNat + widx % 1024 * 2 ^ 32 + l.queue.length % 64 * 2 ^ 42 + l.run.isSome.toNat * 2 ^ 48) ::
    (List.replicate 7 0 ++ (l.arr.toList.zip l.con.toList).map (fun p => p.2 ++ p.1) ++ List.replicate 8 0)

/-- LNSTAT at Lantern (R344, R396). -/
def doLnstat (m : Mach) (o : Op) : Mach :=
  let l := (m.die o.die).lan
  if o.ctx ≠ l.lctx then Mach.applied (.no m 5) o.id
  else Mach.applied ⟨m.onOp o.id fun o => { o with sdesc := m.lanWords l }, 1, l.rseq⟩ o.id

/-- LNRUN: the program enters its die's queue, and the command is complete; while the queue is full AS waits (R342). -/
def execLnrun (t : Tok) (sa : Fin 32) : State → Out :=
  asParcel (.lnrun t sa)
    (fun g m => asBlock m g 64 fun m base ws =>
      if lnrunBad m g ws then .fail .cmdMalformed
      else if 32 ≤ ((m.die (dieOf g)).lan.queue).length then .wait (m.waitOn g .asy .lantern t)
      else
        let p : LnProg := ⟨m.nextId, g, m.ctxOf g, ((m.core g).e .asy).pc, base, ws⟩
        .done (({ m.takesCmd g .lantern with nextId := m.nextId + 1 }.wspad g (base + 8) (leBytes 8 0)).onLan (dieOf g) fun l =>
          { l with queue := l.queue ++ [p] }))
    (asRetire (.lnrun t sa)) (gatherWork fun m _ => m)

/-- LNSTAT (R344). -/
def execLnstat (t : Tok) (sa : Fin 32) : State → Out :=
  unitParcel (.lnstat t sa) 64 .lantern lnstatBad (gatherWork doLnstat)

/-! ## Descriptors and the check of a program -/

def ldSoff (ws : List Word) (k : Nat) : Nat := wf (blkW ws k) 0 48
def ldN (ws : List Word) : Nat := wf (blkW ws 6) 0 24
def ldType (ws : List Word) : Nat := wf (blkW ws 6) 24 4
def ldSpar (ws : List Word) : Bool := wb (blkW ws 6) 28

/-- Bytes of an element; 0 for a reserved code (R345). -/
def ldSize (ws : List Word) : Nat := match ldType ws with | 0 => 1 | 1 => 4 | 2 => 2 | 10 => 4 | 11 => 8 | _ => 0

/-- A descriptor that a step names breaks R345; `img` says that an MX image lies at its landing place (log entry 46 for
its alignments). -/
def ldBad (ws : List Word) (img : Bool) : Bool :=
  (List.range 6).any (fun k => !hiZero ws k 48) || !hiZero ws 6 29 || blkW ws 7 ≠ 0 || ldSize ws = 0 || ldN ws = 0 ||
  (List.range 6).any (fun k => ldSoff ws k % ldSize ws ≠ 0) || (img && (ldSoff ws 2 % 64 ≠ 0 || ldSoff ws 3 % 64 ≠ 0))

/-- A data step breaks the step rules (R346). -/
def dataBad (descs : List (List Word)) (nd : Nat) (f : LnData) (rrs : Bool) : Bool :=
  let ws := descs.getD f.d.toNat []
  nd ≤ f.d.toNat || ldBad ws (f.cv ≠ 0) || (f.cv ≠ 0 && ldType ws ≠ 1) || (rrs && ldType ws = 0)

/-- A cell that a step names is no 8-byte-aligned cell of a present core (R346; log entry 46). -/
def stepCell (m : Mach) (cell : BitVec 32) : Bool := eaSpace (cell.setWidth 64) ≠ 3 || !barOk m 0 (cell.setWidth 64)

/-- The first word from place i on that breaks the step rules; `st` holds the open loops (R346). -/
def lnBadWord (m : Mach) (descs : List (List Word)) (nd : Nat) : List Word → Nat → List (Fin 3) → Option Nat
  | [], _, _ => none
  | w :: ws, i, st =>
    match decodeStep w.toNat with
    | .error _ => some i
    | .ok s =>
      let last := ws.isEmpty
      if (illForm s).isSome then some i
      else match s with
        | .lnend => if last && st.isEmpty then lnBadWord m descs nd ws (i + 1) st else some i
        | .lnloop k _ => if last || st.contains k then some i else lnBadWord m descs nd ws (i + 1) (k :: st)
        | .lnendl k => if last || st.head? ≠ some k then some i else lnBadWord m descs nd ws (i + 1) st.tail
        | .lnwait cell _ | .lnsig cell => if last || stepCell m cell then some i else lnBadWord m descs nd ws (i + 1) st
        | .lnrrs f => if last || dataBad descs nd f true then some i else lnBadWord m descs nd ws (i + 1) st
        | .lnsend f | .lnrecv f | .lncopy f =>
          if last || dataBad descs nd f false then some i else lnBadWord m descs nd ws (i + 1) st
        | _ => some i

/-! ## Starting and ending a program -/

/-- A program ends: its RESULT and its arrival wait to be taken, as a completed operation of its core; the VALUE of a
code that states none is free (R343; log entry 19). -/
def Mach.endProgram (m : Mach) (d : Fin 4) (p : LnProg) (code : Nat) (value : Option Nat) : Mach :=
  let v := match value with | some v => BitVec.ofNat 32 v | none => Config.freeValue m.seq
  let o := { mkOp m p.core (.lnrun ⟨none, none⟩ 0) .lantern p.base p.blk (wb (blkW p.blk 2) 32) with
    ctx := p.ctx, die := d, pc := p.pc, entry := false, fin := true, lanes := [BitVec.ofNat 32 code, v] }
  ({ m with nextId := m.nextId + 1, ops := m.ops ++ [o] }).onLan d fun l => { l with run := none }

/-- The program at the head of a die's queue starts, or ends at its checks (R343). Bits [31:13] of a rank-table entry,
which R341 calls zero and not reserved, are not looked at (log entry 97). -/
def Mach.startProgram (m : Mach) (d : Fin 4) : Mach :=
  let l := (m.die d).lan
  match l.run, l.queue with
  | none, p :: rest =>
    let ws := p.blk
    let c := p.ctx
    let poff := lnBstr ws * (l.rseq.toNat % 2)
    let m := m.onLan d fun l => { l with queue := rest, rseq := sat32 l.rseq }
    let words (a n : Nat) (m : Mach) : List Word × Mach := let r := m.access c a (8 * n); (wordsOf n r.1, r.2)
    let prog := words (wf (blkW ws 0) 0 48) (lnNw ws) m
    let tab := prog.2.access c (wf (blkW ws 3) 0 48) (4 * lnN ws)
    let ranks := (List.range (lnN ws)).map fun k => BitVec.ofNat 32 (leVal ((tab.1.drop (4 * k)).take 4))
    let ds := words (wf (blkW ws 5) 0 48) (8 * lnNd ws) tab.2
    let descs := (List.range (lnNd ws)).map fun j => (ds.1.drop (8 * j)).take 8
    let hd := ds.2.lookDesc (.lantern d) c l.heapt
    let m := hd.2
    let me := (ranks.getD (lnRank ws) 0).toNat
    if !l.en || c ≠ l.lctx || (descOf hd.1).isNone then m.endProgram d p 5 none
    else if !bit me 12 || fld me 0 10 ≠ m.fabid.toNat || fld me 10 2 ≠ d.val then m.endProgram d p 6 none
    else
      match lnBadWord m descs (lnNd ws) prog.1 0 [] with
      | some k => m.endProgram d p 3 (some k)
      | none =>
        m.onLan d fun l =>
          { l with poisonNext := false,
                   run := some ⟨p, prog.1, ranks, descs, poff, 0, Vector.replicate 3 0, l.poisonNext, 0, false, 0, none, none⟩ }
  | _, _ => m

/-! ## Steps -/

/-- The running program updated. -/
def Mach.onRun (m : Mach) (d : Fin 4) (f : LnRun → LnRun) : Mach := m.onLan d fun l => { l with run := l.run.map f }

/-- The program goes on at word k (R348). -/
def Mach.goStep (m : Mach) (d : Fin 4) (k : Nat) : Mach :=
  m.onRun d fun r => { r with pc := k, idx := 0, got := false, done := 0, wait := none }

/-- The running step of a die acts, where it is not stopped on a tile (R352). -/
def lnStep (f : Fin 4 → LnRun → Mach → Mach) : State → Out :=
  ready fun m =>
    match m.focus with
    | .unit d u =>
      if u = .lantern then
        match (m.die d).lan.run with
        | some r => if r.stop.isSome then m else f d r m
        | none => m
      else m
    | _ => m

/-- The last LNLOOP of counter k before word i, and its COUNT (R346, R350). -/
def loopBefore (ws : List Word) (k : Fin 3) (i : Nat) : Option (Nat × Nat) :=
  ((List.range i).reverse).findSome? fun j =>
    match decodeStep ((ws.getD j 0).toNat) with
    | .ok (.lnloop k' n) => if k' = k then some (j, n.toNat) else none
    | _ => none

/-- The first LNENDL of counter k after word i (R346, R350). -/
def loopEnd (ws : List Word) (k : Fin 3) (i : Nat) : Nat :=
  (((List.range ws.length).drop (i + 1)).find? fun j =>
    match decodeStep ((ws.getD j 0).toNat) with
    | .ok (.lnendl k') => k' = k
    | _ => false).getD i

/-- A cell that a step names, reached in its turn at the port of its core (R149, R213). -/
def lnCell (m : Mach) (d : Fin 4) (c : Fin 64) (cell : BitVec 32) (k : Mach → Fin 256 → Nat → Mach) : Mach :=
  match m.cellCore 0 (cell.setWidth 64) with
  | none => m
  | some t => m.request1 t c (.lan d) fun m => k m t (eaByte (cell.setWidth 64))

/-- The pieces of n bytes from x of a tensor up to the first tile that is not present, and that tile. At most `fuel`
pieces. -/
def Mach.piecesTo (m : Mach) (h : Holder) (c : Fin 64) (t : BitVec 20) (d : Desc) :
    Nat → Nat → Nat → List (Nat × Nat) → List (Nat × Nat) × Option Nat × Mach
  | 0, _, _, acc => (acc.reverse, none, m)
  | fuel + 1, x, n, acc =>
    if n = 0 then (acc.reverse, none, m)
    else
      let r := m.placeOf h c t d x
      match r.1 with
      | .absent k => (acc.reverse, some k, r.2)
      | .at a =>
        let l := min n (d.run x)
        r.2.piecesTo h c t d fuel (x + l) (n - l) ((a, l) :: acc)

/-- Where n heap bytes from x of a die lie, up to the first tile that is not present. A place that the heap's descriptor does
not give is not present (R345, R352; log entry 44). -/
def Mach.heapLook (m : Mach) (d : Fin 4) (x n : Nat) : List (Nat × Nat) × Option Nat × Mach :=
  let c := (m.die d).lan.lctx
  let t := (m.die d).lan.heapt
  let r := m.lookDesc (.lantern d) c t
  match descOf r.1 with
  | none => ([], some 0, r.2)
  | some de =>
    let n' := min n (de.size - x)
    let q := r.2.piecesTo (.lantern d) c t de (pieceFuel n') x n' []
    (q.1, if n' < n then q.2.1.or (some (de.tile (x + n')).1) else q.2.1, q.2.2)

/-- The first n bytes of pieces. -/
def trimPieces : List (Nat × Nat) → Nat → List (Nat × Nat)
  | [], _ => []
  | (a, l) :: ps, n => if n = 0 then [] else (a, min l n) :: trimPieces ps (n - l)

/-- The bytes of pieces of the heap, each with whether it stayed uncorrectable, which a pool's Campanile is told (R309, R352,
R366). -/
def Mach.heapRead (m : Mach) (d : Fin 4) (ps : List (Nat × Nat)) : List (Byte × Bool) × Mach :=
  let c := (m.die d).lan.lctx
  (ps.flatMap fun p => (List.range p.2).map fun k => (m.devByte (m.sec c) (p.1 + k), m.badAt (p.1 + k) 1),
   ps.foldl (fun m p =>
     let m := (m.retried p.1 p.2).noteWorld c p.1 p.2
     if m.badAt p.1 p.2 then (m.reportBlock (m.badByte p.1 p.2)).2 else m) m)

/-- Bytes written to the heap of a die; or the tile that is not present (R345, R352; log entry 44). -/
def Mach.heapWrite (m : Mach) (d : Fin 4) (x : Nat) (bs : List Byte) : Option Nat × Mach :=
  let q := m.heapLook d x bs.length
  match q.2.1 with
  | some t => (some t, q.2.2)
  | none => (none, q.2.2.writePieces (m.die d).lan.lctx q.1 bs)

/-- The running step is stopped on a tile of the heap (R352). -/
def Mach.stopRun (m : Mach) (d : Fin 4) (n : Nat) : Mach :=
  let q := m.stopped (m.die d).lan.lctx (m.die d).lan.heapt n
  q.2.onRun d fun r => { r with stop := q.1 }

/-- The result of the running program will be POISONED (R340, R352). -/
def Mach.poisonRun (m : Mach) (d : Fin 4) (b : Bool) : Mach := if b then m.onRun d fun r => { r with poisoned := true } else m

/-- The values of elements of a size: 0 for one that stayed uncorrectable, which the flag tells (R352). -/
def elemsOf (sz : Nat) (bs : List (Byte × Bool)) : List (Nat × Bool) :=
  (List.range (bs.length / sz)).map fun k =>
    let e := (bs.drop (sz * k)).take sz
    if e.any (·.2) then (0, true) else (leVal (e.map (·.1)), false)

/-- Where the scales of an image of n elements begin, and its size (R351). -/
def imgScales (n : Nat) : Nat := 64 * ((n + 63) / 64)
def imgSize (n : Nat) : Nat := imgScales n + (n + 31) / 32

/-- The codes and the scales of the MX image of F32 values, block by block (R351). -/
def imageOf (xs : List Lane) : List Byte × List Byte :=
  let blocks := (List.range ((xs.length + 31) / 32)).map fun j => quantise .e4m3 ((xs.drop (32 * j)).take 32)
  (blocks.flatMap fun b => b.2.map fun c => BitVec.ofNat 8 c, blocks.map fun b => BitVec.ofNat 8 b.1)

/-- The F32 values of codes and the scales of their blocks; 0 where either stayed uncorrectable (R351, R352). -/
def expandOf (cs ss : List (Byte × Bool)) : List (Nat × Bool) :=
  (cs.zip (List.range cs.length)).map fun p =>
    let s := ss.getD (p.2 / 32) (0, false)
    if p.1.2 || s.2 then (0, true) else ((expandMx .e4m3 s.1.toNat p.1.1.toNat).toNat, false)

/-- The bytes of elements of a size. -/
def bytesOf (sz : Nat) (xs : List Nat) : List Byte := xs.flatMap fun x => leBytes sz x

/-- What a data step works on: its descriptor, and the source, landing and expansion offsets of its chunk (R345, R347). -/
structure LnPlace where
  desc : List Word
  i : Nat
  sa : Nat
  da : Nat
  xa : Nat

/-- The loop counter that a step names (R346). -/
def lnIndex (r : LnRun) (f : LnData) : Nat :=
  match f.ls.toNat with | 0 => (r.cnt[0]).toNat | 1 => (r.cnt[1]).toNat | 2 => (r.cnt[2]).toNat | _ => 0

/-- The chunk and the addresses of a data step (R345, R347). -/
def lnPlace (r : LnRun) (f : LnData) : LnPlace :=
  let n : Int := lnN r.prog.blk
  let i := lnIndex r f
  let ca : Int := match f.ca.toNat with | 1 => 1 | 2 => -1 | _ => 0
  let c := (((if f.ck then 0 else (lnRank r.prog.blk : Int)) + ca * i + f.cb.toInt) % n).toNat
  let ds := r.descs.getD f.d.toNat []
  let po := if f.par then r.poff else 0
  ⟨ds, i, ldSoff ds 0 + c * ldSoff ds 1 + (if ldSpar ds then po else 0), ldSoff ds 2 + c * ldSoff ds 3 + po,
   ldSoff ds 4 + c * ldSoff ds 5⟩

/-- The peer of a step: its package and die; none where it is absent (R347). -/
def lnPeer (r : LnRun) (f : LnData) : Option (BitVec 10 × Fin 4) :=
  let n := lnN r.prog.blk
  let k := lnRank r.prog.blk
  let p : Nat :=
    if f.px then Nat.xor k f.pa.toNat else (((k : Int) + f.pa.toInt * lnIndex r f + f.pb.toInt) % (n : Int)).toNat
  let e := (r.ranks.getD p 0).toNat
  if n ≤ p || !bit e 12 then none else some (BitVec.ofNat 10 (fld e 0 10), toDie (fld e 10 2))

/-- The step consumes an arrival on its channel, or waits (R349). -/
def takeArrival (f : LnData) (d : Fin 4) (r : LnRun) (m : Mach) (k : Mach → Mach) : Mach :=
  let l := (m.die d).lan
  let ch : Fin 16 := Fin.ofNat 16 f.ch.toNat
  if r.got then k m
  else if l.arr[ch.val] = l.con[ch.val] then m
  else k ((m.onLan d fun l => { l with con := upd l.con ch (· + 1) }).onRun d fun r => { r with got := true })

/-- A run of heap bytes that the elements of a step lie in: its place, its length, how many elements n of its bytes stand for,
and how many bytes n elements have there. -/
structure HeapRun where
  at' : Nat
  len : Nat
  elems : Nat → Nat
  bytes : Nat → Nat

/-- n elements of sz bytes, or the codes or the scales of n elements of an image, from element e on (R351). -/
def elemRun (x sz e n : Nat) : HeapRun := ⟨x + e * sz, n * sz, fun b => b / sz, fun k => k * sz⟩
def scaleRun (x all e n : Nat) : HeapRun := ⟨x + imgScales all + e / 32, (n + 31) / 32, fun b => 32 * b, fun k => (k + 31) / 32⟩

/-- The runs of elements e to e + n − 1 at an offset: as they are, or as an image of `all` elements. -/
def runsAt (img : Bool) (x sz all e n : Nat) : List HeapRun :=
  if img then [elemRun x 1 e n, scaleRun x all e n] else [elemRun x sz e n]

/-- The places of several runs, and how many elements of n all of them hold before the first tile that is not present; that
tile. -/
def lookRuns (d : Fin 4) (n : Nat) : List HeapRun → Mach → List (List (Nat × Nat)) × Nat × Option Nat × Mach
  | [], m => ([], n, none, m)
  | r :: rs, m =>
    let q := m.heapLook d r.at' r.len
    let k := if q.2.1.isNone then n else min n (r.elems (q.1.map (·.2)).sum)
    let t := lookRuns d n rs q.2.2
    (q.1 :: t.1, min k t.2.1, if k ≤ t.2.1 then q.2.1.or t.2.2.1 else t.2.2.1, t.2.2.2)

/-- The bytes of k elements in several runs. -/
def readRuns (d : Fin 4) (k : Nat) : List (HeapRun × List (Nat × Nat)) → Mach → List (List (Byte × Bool)) × Mach
  | [], m => ([], m)
  | (r, ps) :: rest, m =>
    let q := m.heapRead d (trimPieces ps (r.bytes k))
    let t := readRuns d k rest q.2
    (q.1 :: t.1, t.2)

/-- The values of elements read: as they are, or from an image. -/
def valuesOf (img : Bool) (sz : Nat) (bs : List (List (Byte × Bool))) : List (Nat × Bool) :=
  if img then expandOf (bs.getD 0 []) (bs.getD 1 []) else elemsOf sz (bs.getD 0 [])

/-- One pass of a data step from the element it has come to, `done`: over the elements before the first tile that is not
present, or over all. They are read at `srcs`, each a place and whether it holds an image; `write` puts their values where
they go, at `dsts`, whose tiles must be present as well; then the step stops on the tile, or goes on as `fin` says (R185,
R348, R352). Images, those sent (`blk`) among them, are dealt with in whole blocks (R180, R351). -/
def heapPass (d : Fin 4) (r : LnRun) (sz all : Nat) (blk : Bool) (srcs dsts : List (Bool × Nat))
    (write : List (List (Nat × Bool)) → Nat → Nat → Mach → Mach) (fin : Mach → Mach) (m : Mach) : Mach :=
  let e := r.done
  let n := all - e
  let runs (l : List (Bool × Nat)) : List HeapRun := l.flatMap fun p => runsAt p.1 p.2 sz all e n
  let q := lookRuns d n (runs (srcs ++ dsts)) m
  let img := blk || (srcs ++ dsts).any (·.1)
  let k := if img && q.2.1 < n then q.2.1 / 32 * 32 else q.2.1
  let vals := srcs.zipIdx.foldl (fun (x : List (List (Nat × Bool)) × Nat × Mach) p =>
    let rs := runsAt p.1.1 p.1.2 sz all e n
    let b := readRuns d k (rs.zip (q.1.drop x.2.1)) x.2.2
    (x.1 ++ [valuesOf p.1.1 sz b.1], x.2.1 + rs.length, b.2)) ([], 0, q.2.2.2)
  let m := write vals.1 e k vals.2.2
  match q.2.2.1 with
  | some t => (m.onRun d fun r => { r with done := e + k }).stopRun d t
  | none => fin m

/-- The free bytes of an image's gap (R351; log entry 19). -/
def gapByte (m : Mach) (k : Nat) : Byte := (Config.freeValue (m.seq + k)).setWidth 8

/-- What k elements from e on of `all` come to at offset x, as runs of bytes: the elements, or their part of an image, with the
last of which go the bytes between codes and scales, which are not stated (R348, R351). -/
def bytesAt (m : Mach) (img : Bool) (x sz all e : Nat) (xs : List Nat) : List (Nat × List Byte) :=
  if img then
    let i := imageOf (xs.map fun v => BitVec.ofNat 32 v)
    let gap := if e + xs.length = all then (List.range (imgScales all - all)).map (gapByte m) else []
    [(x + e, i.1 ++ gap), (x + imgScales all + e / 32, i.2)]
  else [(x + e * sz, bytesOf sz xs)]

/-- Those runs of bytes written to the heap of a die, whose tiles are present. -/
def Mach.heapPut (m : Mach) (d : Fin 4) (rs : List (Nat × List Byte)) : Mach := rs.foldl (fun m r => (m.heapWrite d r.1 r.2).2) m

/-- The values of elements, and whether the result is to be POISONED for one (R352). -/
def goodVals (vs : List (Nat × Bool)) : List Nat := vs.map (·.1)
def anyBad (vs : List (Nat × Bool)) : Bool := vs.any (·.2)

/-- The number under which the messages of a running program wait for acceptance. -/
def LnRun.tag (r : LnRun) : Nat := r.prog.id + 1

/-- The stream of a die to a die of another package, or of this one, on a channel (R337, R338, R349; log entry 94). -/
def lanStream (d p : Fin 4) (ch : BitVec 4) : BitVec 16 := BitVec.ofNat 16 (0xFF00 + d.val * 64 + p.val * 16 + ch.toNat)

/-- Runs of bytes sent to the peer's heap, in messages of up to 4,096 bytes (R337, R348). -/
def sendRuns (f : LnData) (d : Fin 4) (r : LnRun) (p : BitVec 10 × Fin 4) (rs : List (Nat × List Byte)) (m : Mach) : Mach :=
  rs.foldl (fun m x =>
    (List.range ((x.2.length + 4095) / 4096)).foldl (fun m k =>
      m.send d r.tag (m.mkMsg 3 (m.die d).lan.lctx p.1 (BitVec.ofNat 8 p.2.val) (lanStream d p.2 f.ch) (x.1 + 4096 * k) 0 f.ch.toNat
        ((x.2.drop (4096 * k)).take 4096))) m) m

/-- The arrival of a send on the peer's channel; the step then waits for the peer's acceptance (R337, R348, R349). -/
def sendArrival (f : LnData) (d : Fin 4) (r : LnRun) (p : BitVec 10 × Fin 4) (m : Mach) : Mach :=
  (m.send d r.tag (m.mkMsg 4 (m.die d).lan.lctx p.1 (BitVec.ofNat 8 p.2.val) (lanStream d p.2 f.ch) 0 0 f.ch.toNat [])).onRun d
    fun r => { r with idx := 2 }

/-- LNSEND from SA, as LNSEND and LNRRS do it; it ends once the peer has accepted everything (R348). -/
def sendStep (f : LnData) (d : Fin 4) (r : LnRun) (m : Mach) : Mach :=
  if r.idx = 2 then (if m.sending r.tag then m else m.goStep d (r.pc + 1))
  else
    match lnPeer r f with
    | none => m.endProgram d r.prog 4 (some r.pc)
    | some p =>
      let a := lnPlace r f
      let sz := ldSize a.desc
      let n := ldN a.desc
      let unit := f.cv ≠ 0
      heapPass d r sz n unit [(false, a.sa)] []
        (fun vs e k m =>
          let v := vs.getD 0 []
          if k = 0 then m
          else sendRuns f d r p (bytesAt m unit a.da sz n e (goodVals v)) (m.poisonRun d (anyBad v)))
        (sendArrival f d r p) m

/-- LNSEND (R348). -/
def execLnsend (f : LnData) : State → Out := lnStep (sendStep f)

/-- A local pass from one place of the heap to another (R348). -/
def movePass (d : Fin 4) (r : LnRun) (sz n : Nat) (src dst : Bool × Nat) (m : Mach) : Mach :=
  heapPass d r sz n false [src] [dst]
    (fun vs e k m =>
      let v := vs.getD 0 []
      if k = 0 then m else (m.heapPut d (bytesAt m dst.1 dst.2 sz n e (goodVals v))).poisonRun d (anyBad v))
    (fun m => m.goStep d (r.pc + 1)) m

/-- LNRECV (R348, R349). -/
def execLnrecv (f : LnData) : State → Out :=
  lnStep fun d r m => takeArrival f d r m fun m =>
    let a := lnPlace r f
    if f.cv = 0 then m.goStep d (r.pc + 1) else movePass d r 4 (ldN a.desc) (true, a.da) (false, a.xa) m

/-- The reduction of LNRRS on one element (R144, R348). -/
def lnReduce (f : LnData) (ty : Nat) (pc : PAddr) (e old t : Nat) : Nat :=
  let op : PortOp := match f.rop.toNat with | 0 => .add | 1 => .min | _ => .max
  match ty with
  | 1 => fltPort .f32 op (devNan pc (e % 1024)) old t
  | 2 => fltPort .bf16 op (devNan pc (e % 1024)) old t
  | 10 => intPort 32 false op 0 old t
  | _ => intPort 64 false op 0 old t

/-- The results of LNRRS from element e on: zero where a source element stayed uncorrectable (R348, R352). -/
def reduceAll (f : LnData) (ty : Nat) (pc : PAddr) (e : Nat) (ss ts : List (Nat × Bool)) : List Nat :=
  (ss.zip ts).zipIdx.map fun p => if p.1.1.2 || p.1.2.2 then 0 else lnReduce f ty pc (e + p.2) p.1.1.1 p.1.2.1

/-- LNRRS: the landed elements are reduced into the source, which is then sent on (R348). An absent peer ends the
program before anything is reduced (R347). -/
def execLnrrs (f : LnData) : State → Out :=
  lnStep fun d r m =>
    if r.idx ≠ 0 then sendStep f d r m
    else if (lnPeer r f).isNone then m.endProgram d r.prog 4 (some r.pc)
    else takeArrival f d r m fun m =>
      let a := lnPlace r f
      let n := ldN a.desc
      let sz := ldSize a.desc
      heapPass d r sz n false [(f.cv ≠ 0, a.da), (false, a.sa)] []
        (fun vs e k m =>
          let ts := vs.getD 0 []
          let ss := vs.getD 1 []
          if k = 0 then m
          else (m.heapPut d (bytesAt m false a.sa sz n e (reduceAll f (ldType a.desc) r.prog.pc e ss ts))).poisonRun d
            (anyBad ss || anyBad ts))
        (fun m => m.onRun d fun r => { r with idx := 1, done := 0 }) m

/-- LNCOPY (R348). -/
def execLncopy (f : LnData) : State → Out :=
  lnStep fun d r m =>
    let a := lnPlace r f
    let n := ldN a.desc
    let sz := ldSize a.desc
    if f.cv = 2 then movePass d r sz n (true, a.da) (false, a.xa) m else movePass d r sz n (false, a.sa) (f.cv = 1, a.da) m

/-- LNWAIT: the program waits until the cell's parity is p (R350). -/
def execLnwait (cell : BitVec 32) (p : Bool) : State → Out :=
  lnStep fun d r m => lnCell m d r.prog.ctx cell fun m t a =>
    let q := m.portRead r.prog.ctx t false a 8
    if !q.2 then q.1
    else if wb (Memory.readW (m.core t).spad a) 63 = p then q.1.goStep d (r.pc + 1)
    else q.1.onRun d fun r => { r with wait := some (t, a) }

/-- LNSIG: one arrival at the cell (R189, R350). -/
def execLnsig (cell : BitVec 32) : State → Out :=
  lnStep fun d r m => lnCell m d r.prog.ctx cell fun m t a => (m.arrive t a r.prog.ctx).goStep d (r.pc + 1)

/-- LNLOOP (R350). -/
def execLnloop (k : Fin 3) (n : BitVec 32) : State → Out :=
  lnStep fun d r m =>
    (m.onRun d fun r => { r with cnt := Machine.put r.cnt k 0 }).goStep d (if n = 0 then loopEnd r.words k r.pc + 1 else r.pc + 1)

/-- LNENDL (R350). -/
def execLnendl (k : Fin 3) : State → Out :=
  lnStep fun d r m =>
    let i := r.cnt[k.val] + 1
    let m := m.onRun d fun r => { r with cnt := Machine.put r.cnt k i }
    match loopBefore r.words k r.pc with
    | some (j, n) => m.goStep d (if i.toNat < n then j + 1 else r.pc + 1)
    | none => m.goStep d (r.pc + 1)

/-- LNEND: the program ends, OK or POISONED (R343). -/
def execLnend : State → Out := lnStep fun d r m => m.endProgram d r.prog (if r.poisoned then 2 else 1) none

/-- LANTERN_PROGRAM_START: the program at the head of a die's queue starts (R343). -/
def execLanternProgramStart (d : Fin 4) : State → Out := ready fun m => m.startProgram d

/-! ## Messages -/

/-- A message for Lantern, at its port: its fate in the order of R337 and R339; held while EN is 0, and an arrival until it is
due (R338, R349). -/
def Mach.lanMsg (m : Mach) (x : FMsg) (apply : Mach → Fin 4 → Mach) : Mach :=
  let d := toDie x.dcore.toNat
  let l := (m.die d).lan
  if !m.arrives x then m
  else if x.resv then m.reservedMsg x
  else if x.sec ≠ m.sec x.ctx then (m.errRecord 8 x.ctx d x.dcore.toNat).drop x
  else if !l.en then m.holdMsg x none
  else if l.lctx ≠ x.ctx then m.drop x
  else if isArrival x && !m.due x then m.holdMsg x none
  else apply m d

/-- The frame of the byte of a die's heap at which data lands, which WHERE of a FABRIC_BEAT names (R367; log entry 96). -/
def Mach.landFrame (m : Mach) (d : Fin 4) (x : Nat) : Nat :=
  match (m.heapLook d x 1).1.head? with
  | some p => ((m.frameOf p.1).map (·.2)).getD 0
  | none => 0

/-- LANTERN_DATA: bytes land in a die's heap, KIND 3. On a tile that is not present the fault is recorded and the message
held, until FRES (R337, R340, R352). -/
def execLanternData (msg : FMsg) : State → Out :=
  ready fun m =>
    if msg.kind ≠ 3 then m
    else m.lanMsg msg fun m d =>
      if m.inbox.any fun h => h.msg = msg && h.stop.isSome then m
      else
        let q := m.heapWrite d msg.addr.toNat (payloadOf msg)
        match q.1 with
        | none =>
          let m := ((q.2.taken msg).noteBeats msg d (m.landFrame d msg.addr.toNat)).counted msg
          if badBeats msg = 0 then m
          else m.onLan d fun l => { l with poisonNext := l.run.isNone || l.poisonNext, run := l.run.map fun r => { r with poisoned := true } }
        | some t =>
          let r := q.2.stopped (m.die d).lan.lctx (m.die d).lan.heapt t
          r.2.holdMsg msg r.1

/-- LANTERN_ARRIVAL: an arrival on a channel of a die's Lantern, KIND 4 (R338, R349). -/
def execLanternArrival (msg : FMsg) : State → Out :=
  ready fun m =>
    if msg.kind ≠ 4 then m
    else m.lanMsg msg fun m d =>
      ((m.taken msg).onLan d fun l => { l with arr := upd l.arr (Fin.ofNat 16 msg.ch.toNat) (· + 1) }).counted msg

end Sys2Proof.Machine
end

