-- ==== Sys2Proof/Machine/LoadStore.lean ====
section
/-!
DEFINITION. The vector loads and stores of LD and ST, one line of a repetition a step (spec/07_consistency.md R198 to
R200; spec/02_execution.md R54;
spec/05_onchip_memory.md R152, R154, R155, R158, R159; spec/17_reference_v_y.md R450 to R454).
-/
namespace Sys2Proof.Machine

/-! ## Targets and addresses -/

/-- The core that a popped Q6 entry names (R154). -/
def q6Target (m : Mach) (g : Fin 256) (sp : Space) (v : Word) : Option (Fin 256) :=
  let t : Fin 256 := if sp = .clu then toCore (g.val / 8 * 8 + wf v 0 3) else toCore (wf v 0 8)
  if (if sp = .clu then wf v 3 61 else wf v 8 56) ≠ 0 then none
  else if m.present t then some t else none

/-- The target of a load's repetition: known, waiting for Q6, or a malformed entry, which is consumed (R154). -/
inductive LdTarget where
  | at (t : Fin 256)
  | empty
  | bad (m : Mach)

/-- The target core of a load word: the issuing core, the one Q6 named, or the one the head of Q6 names (R154). -/
def ldTarget (m : Mach) (g : Fin 256) (sp : Space) : LdTarget :=
  let c := m.core g
  if sp = .loc || sp = .acc then .at g
  else
    match (c.e .ld).tgt with
    | some t => .at (toCore t.toNat)
    | none =>
      match c.qw[2] with
      | [] => .empty
      | v :: rest =>
        match q6Target m g sp v with
        | some t => .at t
        | none => .bad (m.onCore g fun c => { c with qw := put c.qw 2 rest })

/-- The Q6 entry popped and its target kept, where the word has not popped it yet (R54, R154). -/
def keepTarget (sp : Space) (t : Fin 256) (c : Core) : Core :=
  if sp = .loc || sp = .acc || (c.e .ld).tgt.isSome then c
  else ({ c with qw := upd c.qw 2 (·.tail) }).onE .ld fun x => { x with tgt := some (BitVec.ofNat 8 t.val) }

/-- The advance of repetition k of a word with step st, in bytes (R54). -/
def advOf (st : BitVec 10) (k : Nat) : Int := 64 * st.toInt * k

/-- The codes that a word through the compressed view accepts (R158). -/
def viewEtOk (r : VSpec) (et : EtM) : Bool :=
  match r with
  | .v _ | .w _ => et = .b32 || et = .raw
  | .q n => if n.val < 2 then et = .b32 || et = .raw else (n.val = 2 || n.val = 3) && et = .raw
  | .z _ => false

/-- The fault of a repetition through a pair with ROT 7, its tile apart (R63, R158). -/
def viewFault (p : Pat) (r : VSpec) (sp : Space) (et : EtM) : Option Cause :=
  if sp ≠ .acc && !viewEtOk r et then some .illegal
  else if !p.aligned || p.base % 4096 ≠ 0 then some .align
  else if sp = .acc || p.bad || p.rowp ≠ 0 || 0x300000 ≤ p.base then some .spadRange
  else none

/-- The memory limit of a space (R148, R155). -/
def limOf (sp : Space) : Nat := if sp = .acc then 0x200000 else 0x300000

/-- The fault of a VLDX or VSTX repetition, its range apart (R453). -/
def longFault (p : Pat) (et : EtM) (colp : Nat) : Option Cause :=
  let s := EtM.bytes et
  if !p.aligned || p.base % s ≠ 0 || colp % s ≠ 0 then some .align
  else if p.bad || p.rot ≠ 0 then some .spadRange
  else none

/-- The runs of bytes that a repetition touches: rows for the short forms, single elements for the long ones, the
8 bytes of a Q7 entry (R451 to R453). -/
def wordRuns (p : Pat) (r : VSpec) (et : EtM) (colp : Option Nat) (adv : Int) : List (Int × Nat) :=
  match colp with
  | some k => (List.range 1024).map fun l =>
      (((p.addr (l / 64) 0 + k * (l % 64) : Nat) : Int) + adv, EtM.bytes et)
  | none =>
    if r = .q 7 then [((p.addr 0 0 : Int) + adv, 8)]
    else p.allRuns 16 (EtM.rowBytes et) adv

/-- The address of element l of a repetition (R452, R453). -/
def elemAddr (p : Pat) (et : EtM) (colp : Option Nat) (adv : Int) (l : Nat) : Nat :=
  match colp with
  | some k => (((p.addr (l / 64) 0 + k * (l % 64) : Nat) : Int) + adv).toNat
  | none => ((p.addr (l / 64) (EtM.byteOf et (l % 64)) : Int) + adv).toNat

/-- The fault of a repetition that does not go through the compressed view (R63, R94, R152, R155, R452, R453). -/
def wordFault (p : Pat) (r : VSpec) (sp : Space) (et : EtM) (colp : Option Nat) (adv : Int) : Option Cause :=
  match colp with
  | some k =>
    match longFault p et k with
    | some f => some f
    | none => if runsIn (limOf sp) (wordRuns p r et colp adv) then none else some .spadRange
  | none =>
    if r = .q 7 then p.fault (sp = .acc) 8 1 8 adv (limOf sp)
    else p.fault (sp = .acc) (EtM.bytes et) 16 (EtM.rowBytes et) adv (limOf sp)

/-- The fault that its registers give a repetition (R63, R94, R152, R155, R158, R452, R453). -/
def lsFault (p : Pat) (r : VSpec) (sp : Space) (et : EtM) (colp : Option Nat) (adv : Int) : Option Cause :=
  if p.rot = 7 && colp.isNone then viewFault p r sp et else wordFault p r sp et colp adv

/-- The trap that LD's or ST's registers give a word at the repetition at which the engine stands (R54, R94). -/
def wordPre (m : Mach) (g : Fin 256) (i : Instr) : Option Cause :=
  let c := m.core g
  let f (e : Engine) (n : Fin 3) (r : VSpec) (q : Fin 8) (st : BitVec 10) (sp : Space) (et : EtM) (colp : Option Nat) : Option Cause :=
    lsFault (c.pat n q) r sp et colp (advOf st (c.e e).rep.toNat)
  match i with
  | .vld _ r q _ st sp et => f .ld 0 r q st sp et none
  | .vldx _ r q _ st sp et x => f .ld 0 r q st sp et (some x.toNat)
  | .vst _ r q _ st sp et => f .st 1 r q st sp et none
  | .vstx _ r q _ st sp et x => f .st 1 r q st sp et (some x.toNat)
  | _ => none

/-! ## Loads -/

/-- Room for repetition k of a load (R56). -/
def ldRoom (c : Core) (r : VSpec) : Bool :=
  match r with
  | .q n => if n.val = 7 then (c.qw[3]).length < 16 else (c.qt[(Fin.ofNat 4 n.val).val]).length < 4
  | _ => true

/-- The runs of bytes of row j of a repetition that does not go through the compressed view: the row of a short form, the
64 elements of a long one, the 8 bytes of a Q7 entry (R451 to R453). -/
def rowRuns (p : Pat) (r : VSpec) (et : EtM) (colp : Option Nat) (adv : Int) (j : Nat) : List (Nat × Nat) :=
  match colp with
  | some _ => (List.range 64).map fun e => (elemAddr p et colp adv (64 * j + e), EtM.bytes et)
  | none =>
    if r = .q 7 then [(((p.addr 0 0 : Int) + adv).toNat, 8)]
    else (p.runs j (EtM.rowBytes et)).map fun u => (((u.1 : Int) + adv).toNat, u.2)

/-- The destination is a queue. -/
def toQueue (r : VSpec) : Bool := match r with | .q _ => true | _ => false

/-- The job of a load's repetition: every line of its rows to be read; then the rows of a register to be written one by
one, or one queue entry (R199, R200, R454). -/
def ldJob (p : Pat) (r : VSpec) (sp : Space) (et : EtM) (colp : Option Nat) (adv : Int) : Job where
  reads := (List.range (if r = .q 7 then 1 else 16)).flatMap fun j => readsOf (j + 1) (sp = .acc) (rowRuns p r et colp adv j)
  rows := if toQueue r then [0] else List.range 16
  writes := []
  got := []
  blk := []
  begun := false

/-- The job of a repetition through the compressed view: the tile's 4,096 bytes, read at once, to be delivered (R158,
R198). -/
def viewJob (r : VSpec) (bs : List Byte) : Job :=
  ⟨[], if toQueue r then [0] else List.range 16, [], Memory.write [] (gotKey 0 false 0) bs, [], false⟩

/-- The lanes that a load takes from what its rows have read (R88, R158, R452, R453). -/
def ldTile (j : Job) (acc : Bool) (p : Pat) (et : EtM) (colp : Option Nat) (adv : Int) : Tile :=
  if p.rot = 7 && colp.isNone then tileOfBytes (Memory.read (j.mem 0 false) 0 4096)
  else
    let rows := Vector.ofFn fun k : Fin 16 => j.mem (k.val + 1) acc
    tileOf fun l => EtM.widen et (l % 64)
      (leVal (Memory.read (rows[l / 64]?.getD []) (elemAddr p et colp adv l) (max 1 (EtM.bytes et))))

/-- A tile whose row k is that of x, the others those of another. -/
def Tile.withRow (k : Nat) (x old : Tile) : Tile := tileOf fun l => if l / 64 = k then laneOf x l else laneOf old l

/-- Row k of what a load's repetition has read, given to register n + i; or the whole entry pushed (R200, R451, R454). -/
def ldPut (r : VSpec) (i k : Nat) (x : Tile) (c : Core) : Core :=
  match r with
  | .v n => { c with v := upd c.v (Fin.ofNat 32 (n.val + i)) (Tile.withRow k x) }
  | .w n => { c with w := upd c.w (Fin.ofNat 8 (n.val + i)) (Tile.withRow k x) }
  | .z _ => c
  | .q n => { c with qt := upd c.qt (Fin.ofNat 4 n.val) (· ++ [x]) }

/-- The delivery of row k of a load's repetition on core g (R200, R451, R452). -/
def ldGive (g : Fin 256) (r : VSpec) (sp : Space) (et : EtM) (colp : Option Nat) (p : Pat) (adv : Int) (k : Nat) (j : Job)
    (m : Mach) : Mach :=
  m.onCore g fun c =>
    let c :=
      if r = .q 7 then
        let w := leVal (Memory.read (j.mem 1 (sp = .acc)) ((p.addr 0 0 : Int) + adv).toNat 8)
        { c with qw := upd c.qw 3 (· ++ [BitVec.ofNat 64 w]) }
      else ldPut r (c.e .ld).rep.toNat k (ldTile j (sp = .acc) p et colp adv) c
    c.onJob .ld fun j => j.rowDone k []

/-- The issue of a repetition through the compressed view: the port reads the header and the tile word, which may fail its
check, and then the tile whole (R151, R158, R159, R198). -/
def ldView (i : Instr) (m : Mach) (g t : Fin 256) (r : VSpec) (sp : Space) (p : Pat) (k : Nat) (st : BitVec 10) : Eff :=
  let mem := (m.core t).spad
  let ti : Int := p.tilep + st.toInt * k
  let h := m.portReads (m.ctxOf g) t false (ctHead p.base ti)
  if !h.2 then .wait h.1
  else
    match ctLook mem p.base ti, ctRead mem p.base ti with
    | some x, some bs =>
      let e := h.1.portReads (m.ctxOf g) t false (ctRuns p.base ti.toNat x)
      if e.2 then (e.1.onCore g (keepTarget sp t)).begins i g .ld (viewJob r bs) else .wait e.1
    | _, _ => .wait (h.1.takeTrap g .ld .spadRange 0 (infoOf i))

/-- One move of LD on a load word: a repetition issues once its checks pass, its target is known and there is room, and
its lines and rows follow (R54, R56, R154, R199, R450 to R454). -/
def ldWord (i : Instr) (r : VSpec) (q : Fin 8) (rep : BitVec 6) (st : BitVec 10) (sp : Space) (et : EtM) (colp : Option Nat) :
    State → Out :=
  soloParcel i .ld fun g m =>
    let c := m.core g
    let k := (c.e .ld).rep.toNat
    let p := c.pat 0 q
    let adv := advOf st k
    let view := p.rot = 7
    repetition i g .ld
      (fun j m =>
        let t := match (c.e .ld).tgt with | some t => toCore t.toNat | none => g
        if !j.reads.isEmpty && heldBy m g .ld t then
          (m.enqueue t (m.ctxOf g) (.eng g .ld)).waitOn g .ld (.held t) (tk i)
        else ((m.servedAt g .ld t).onCore g fun c => c.onE .ld fun x => { x with wait := none }).jobAct g .ld t false (ldGive g r sp et colp p adv) (repEnd i g .ld rep) j)
      (fun _ => lsFault p r sp et colp adv)
      (fun m =>
        match ldTarget m g sp with
        | .empty => .wait m
        | .bad m' => .wait (m'.takeTrap g .ld .spadRange 0 (infoOf i))
        | .at t =>
          if !ldRoom c r then .wait m
          else if heldBy m g .ld t then m.heldAt g .ld t (tk i)
          else
            let m := m.servedAt g .ld t
            if view then ldView i m g t r sp p k st
            else (m.onCore g (keepTarget sp t)).begins i g .ld (ldJob p r sp et colp adv))
      id m

/-- VLD: repeated tiles from a scratchpad or the accumulator store (R450). -/
def execVld (t : Tok) (r : VSpec) (p : Fin 8) (rep : BitVec 6) (st : BitVec 10) (sp : Space) (et : EtM) : State → Out :=
  ldWord (.vld t r p rep st sp et) r p rep st sp et none

/-- VLDX: the elements of a row lie COLP bytes apart (R453). -/
def execVldx (t : Tok) (r : VSpec) (p : Fin 8) (rep : BitVec 6) (st : BitVec 10) (sp : Space) (et : EtM) (colp : BitVec 22) :
    State → Out :=
  ldWord (.vldx t r p rep st sp et colp) r p rep st sp et (some colp.toNat)

/-! ## Stores -/

/-- The bytes that row j of a tile stores, each run with its address: the low bytes of its elements in ascending order,
4-bit elements two to a byte (R452, R453). -/
def stRuns (p : Pat) (et : EtM) (colp : Option Nat) (adv : Int) (x : Tile) (j : Nat) : List (Nat × List Byte) :=
  (List.range 64).filterMap fun e =>
    let l := 64 * j + e
    let a := elemAddr p et colp adv l
    if EtM.bytes et ≠ 0 then some (a, leBytes (EtM.bytes et) (laneOf x l).toNat)
    else if e % 2 = 0 then some (a, [BitVec.ofNat 8 (fld (laneOf x l).toNat 0 4 + 16 * fld (laneOf x (l + 1)).toNat 0 4)])
    else none

/-- The job of a store's repetition: the lines of its 16 rows to be written (R199). -/
def stJob (p : Pat) (isAcc : Bool) (et : EtM) (colp : Option Nat) (adv : Int) (x : Tile) : Job :=
  ⟨[], [], (List.range 16).flatMap fun j => writesOf isAcc (stRuns p et colp adv x j), [], [], true⟩

/-- One move of ST on a store word: a repetition issues once its checks pass, popping its Q3 entry, and its lines follow;
through the compressed view the tile is stored whole (R54, R160, R198, R199, R450 to R454). -/
def stWord (i : Instr) (r : VSpec) (q : Fin 8) (rep : BitVec 6) (st : BitVec 10) (sp : Space) (et : EtM) (colp : Option Nat) :
    State → Out :=
  soloParcel i .st fun g m =>
    let c := m.core g
    let k := (c.e .st).rep.toNat
    let p := c.pat 1 q
    let adv := advOf st k
    let view := p.rot = 7
    repetition i g .st
      (fun j m => m.jobAct g .st g false (fun _ _ m => m) (repEnd i g .st rep) j)
      (fun _ => lsFault p r sp et colp adv)
      (fun m =>
        match c.qt[3] with
        | [] => .wait m
        | x :: rest =>
          let c' := { c with qt := put c.qt 3 rest }
          if view then
            let t : Int := p.tilep + st.toInt * k
            let h := m.portReads (m.ctxOf g) g false (ctHead p.base t)
            if !h.2 then .wait h.1
            else
              match ctWrite c' p.base t (tileBytes x) with
              | some c'' => .done (h.1.onCore g fun k => { k with qt := c''.qt, spad := c''.spad, dirty := c''.dirty })
              | none => .wait (h.1.takeTrap g .st .spadRange 0 (infoOf i))
          else (m.onCore g fun _ => c').begins i g .st (stJob p (sp = .acc) et colp adv x))
      (repEnd i g .st rep) m

/-- VST: Q3 entries stored as tiles (R450). -/
def execVst (t : Tok) (r : VSpec) (p : Fin 8) (rep : BitVec 6) (st : BitVec 10) (sp : Space) (et : EtM) : State → Out :=
  stWord (.vst t r p rep st sp et) r p rep st sp et none

/-- VSTX: Q3 entries stored with their elements COLP bytes apart (R453). -/
def execVstx (t : Tok) (r : VSpec) (p : Fin 8) (rep : BitVec 6) (st : BitVec 10) (sp : Space) (et : EtM) (colp : BitVec 22) :
    State → Out :=
  stWord (.vstx t r p rep st sp et colp) r p rep st sp et (some colp.toNat)

end Sys2Proof.Machine
end

