-- ==== Sys2Proof/Machine/Matrix.lean ====
section
/-!
DEFINITION. The matrix engine, one line of a repetition a step (spec/10_matrix_attention.md R272 to R292;
spec/16_reference_m_u.md R400 to R404; spec/02_execution.md R54).
-/
namespace Sys2Proof.Machine

/-- The rank and gang size of the task on core g (R30). -/
def rankOf (m : Mach) (g : Fin 256) : Nat := match (m.core g).task with | some t => t.rank.val | none => 0
def gangOf (m : Mach) (g : Fin 256) : Nat := match (m.core g).task with | some t => gangSize t.gang | none => 1

/-- The repetition that MX of core g stands at. -/
def mxRep (m : Mach) (g : Fin 256) : Nat := ((m.core g).e .mx).rep.toNat

/-! ## The traps of an instruction's registers -/

/-- The trap of reading the 64 bytes that a pair names (R281, R282, R285, R401). -/
def mxBlockFault (c : Core) (p : Fin 8) : Option Cause :=
  let pt := c.pat 2 p
  if pt.base % 64 ≠ 0 then some .align else pt.fault false 64 1 64 0 0x300000

/-- The trap of a weight tile of which n of every 8 weights are kept (R276, R401). -/
def weightFault (c : Core) (p : Fin 8) (it : InTy) (n : Nat) : Option Cause :=
  (c.pat 2 p).fault false 0 128 (weightRow it n) 0 0x300000

/-- Where the leader, or a core alone, finds its activation rows: NROWS·QR of them (R278, R279). -/
def mmulRowCount (c : Core) (sh : Shape) : Nat := c.mx.cfg.nrows.toNat * Shape.rows sh

/-- The trap of repetition k of an MMUL on core g (R274, R277, R279, R401). Only rank 0 of a gang reads rows. -/
def mmulFault (m : Mach) (g : Fin 256) (acc : BitVec 12) (p : Fin 8) (sh : Shape) (it : InTy) (srcq : Bool) : Option Cause :=
  let c := m.core g
  let pt := c.pat 2 p
  let k := mxRep m g
  let n := c.mx.cfg.nrows.toNat
  let rows := if Shape.cores sh = 1 || rankOf m g = 0 then mmulRowCount c sh else 0
  if !InTy.fits it c.mx.wty then some .illegal
  else
    match (if srcq then none else pt.fault false 0 rows (InTy.rowBytes it) (pt.tilep * k : Nat) 0x300000) with
    | some f => some f
    | none => if 4096 < acc.toNat + n * (k + 1) then some .spadRange else none

/-- Rows n to n + k − 1 may be drained: they exist, and so do their scales (R274, R282). -/
def drainOk (c : Core) (n k : Nat) : Bool := n + k ≤ 4096 && c.mx.epi.rowsOk n k

/-- The trap of repetition k of an MDRN of n rows from lo on (R274, R282, R284, R401). -/
def mdrnFault (c : Core) (p : Fin 8) (fold : Bool) (n lo k : Nat) : Option Cause :=
  let pt := c.pat 2 p
  let ofmt := c.mx.epi.ofmt
  if fold then
    if ofmt ≠ 0 || pt.rot ≠ 0 then some .illegal
    else if !pt.aligned then some .align
    else if pt.bad || pt.base % 512 ≠ 0 || 0x200000 ≤ pt.base || 4096 < pt.base / 512 + n * k + n || !drainOk c lo n then
      some .spadRange
    else none
  else
    match pt.fault false 0 n (outBytes ofmt) (pt.tilep * k : Nat) 0x300000 with
    | some f => some f
    | none => if drainOk c lo n then none else some .spadRange

/-- The traps of repetition i of a MATT on core g (R288, R401). -/
def mattFault (m : Mach) (g : Fin 256) (acc : BitVec 12) (p : Fin 8) (it : InTy) (acc2 : BitVec 12) (p2 : Fin 8) : Option Cause :=
  let c := m.core g
  let n := c.mx.cfg.nrows.toNat
  let kv := c.pat 2 p
  let q := c.pat 2 p2
  let rb := InTy.rowBytes it
  if acc.toNat < acc2.toNat + n && acc2.toNat < acc.toNat + n then some .illegal
  else
    match kv.fault false 0 128 rb (kv.tilep * mxRep m g : Nat) 0x300000, q.fault false 0 n rb 0 0x300000 with
    | some .align, _ => some .align
    | _, some .align => some .align
    | some f, _ => some f
    | none, some f => some f
    | none, none => if 4096 < acc.toNat + n || 4096 < acc2.toNat + n then some .spadRange else none

/-- The trap that MX's registers give an instruction at the repetition at which MX stands (R54, R89, R94, R274, R401). -/
def mxFault (m : Mach) (g : Fin 256) (i : Instr) : Option Cause :=
  let c := m.core g
  let n := c.mx.cfg.nrows.toNat
  let k := mxRep m g
  match i with
  | .mzero _ acc _ => if 4096 < acc.toNat + n * k + n then some .spadRange else none
  | .mwld _ p it => weightFault c p it 8
  | .mwldS4 _ p it => weightFault c p it 4
  | .mwldS2 _ p it => weightFault c p it 2
  | .mwldS1 _ p it => weightFault c p it 1
  | .macfg _ p | .mepi _ p | .mdrnF _ _ p _ => mxBlockFault c p
  | .mmul _ acc p _ sh it srcq _ =>
    if Shape.cores sh ≠ 1 && Shape.cores sh ≠ gangOf m g then some .illegal else mmulFault m g acc p sh it srcq
  | .mdrn _ acc p _ fold => mdrnFault c p fold n (acc.toNat + n * k) k
  | .mdrnSm _ _ p _ => if c.mx.epi.ofmt ≠ 0 then some .illegal else mxBlockFault c p
  | .matt _ acc p _ it _ _ _ acc2 p2 => mattFault m g acc p it acc2 p2
  | _ => none

/-! ## The shape of an MX instruction -/

/-- An MX instruction of repetitions. -/
def mxWord (i : Instr) (rep : BitVec 6) (eff : Fin 256 → Mach → Eff) : State → Out :=
  soloParcel i .mx fun g => issue i g .mx (fun m => mxFault m g i) (eff g) (repEnd i g .mx rep)

/-- The 64 bytes that a pair names, as words (R281, R282, R285). -/
def mxBlock (m : Mach) (g : Fin 256) (p : Fin 8) (k : Mach → List Word → Eff) : Eff :=
  let pt := (m.core g).pat 2 p
  let r := m.portRead (m.ctxOf g) g false pt.base 64
  if r.2 then k r.1 (wordsOf 8 (Memory.read (m.core g).spad pt.base 64)) else .wait r.1

/-- A repetition of MX: its next act where it has issued, its issue otherwise (R54, R280). -/
def mxLines (i : Instr) (eager : Bool) (row : Fin 256 → Nat → Job → Mach → Mach) (fin : Fin 256 → Mach → Mach)
    (eff : Fin 256 → Mach → Eff) : State → Out :=
  soloParcel i .mx fun g => repetition i g .mx (fun j m => m.jobAct g .mx g eager (row g) (fin g) j)
    (fun m => mxFault m g i) (eff g) id

/-- Row k of MX's repetition on core g has the result that f computes on the core as the row finds it; the accumulator
bytes of the runs are written. -/
def accRow (g : Fin 256) (f : Nat → Core → Core) (runs : Nat → List (Nat × Nat)) (k : Nat) (j : Job) (m : Mach) : Mach :=
  m.onCore g fun c =>
    let c' := f k (j.core k c)
    c.onJob .mx fun j => j.rowDone k (writesOf true ((runs k).map fun u => (u.1, Memory.read c'.acc u.1 u.2)))

/-- The mark of a retiring MMUL or MATT sets out for the itineraries that run now and name its core (R255). -/
def Mach.sendMark (m : Mach) (g : Fin 256) : Mach :=
  let subs (b : BSlot) : Bool := b.running && b.subs.getLsbD (g.val % 64)
  m.onBelfry (dieOf g) fun b => { b with marks := b.marks ++ [(g, (b.slots.toList.filter subs).map (·.run))] }

/-- A repetition of MMUL or MATT is complete; at the last, with MARK, the mark goes out (R255, R402). -/
def markEnd (i : Instr) (g : Fin 256) (rep : BitVec 6) (mark : Bool) (m : Mach) : Mach :=
  let last := ((m.core g).e .mx).rep = rep
  let m := repEnd i g .mx rep m
  if last && mark then m.sendMark g else m

/-! ## MZERO, MWLD, MACFG, MEPI -/

/-- MZERO: +0 in every column of the rows (R287). -/
def execMzero (t : Tok) (acc : BitVec 12) (rep : BitVec 6) : State → Out :=
  let i : Instr := .mzero t acc rep
  mxLines i true (fun _ _ _ m => m) (fun g => repEnd i g .mx rep) fun g m =>
    let n := (m.core g).mx.cfg.nrows.toNat
    let lo := acc.toNat + n * mxRep m g
    m.begins i g .mx ⟨[], [], writesOf true [(512 * lo, List.replicate (512 * n) 0)], [], [], true⟩

/-- The weight tile of 128 rows of packed bytes (R272, R276). -/
def MxState.withWeights (x : MxState) (it : InTy) (n : Nat) (row : Nat → List Byte) : MxState :=
  { x with wty := it, keep := Fin.ofNat 9 n, w := Vector.ofFn fun c : Fin 128 => BitVec.ofNat 2048 (leVal (row c.val)) }

/-- The weight tile taken from the 128 rows that have been read (R276). -/
def takeWeights (g : Fin 256) (p : Fin 8) (it : InTy) (n : Nat) (k : Nat) (j : Job) (m : Mach) : Mach :=
  m.onCore g fun c =>
    let row (r : Nat) : List Byte := (j.core r c).patRow (c.pat 2 p) r (weightRow it n) 0
    { c with mx := c.mx.withWeights it n row }.onJob .mx fun j => j.rowDone k []

/-- MWLD: the weight tile from 128 rows that keep n of every 8 weights (R276, R402). -/
def loadWeights (i : Instr) (p : Fin 8) (it : InTy) (n : Nat) : State → Out :=
  mxLines i false (fun g => takeWeights g p it n) (fun g => repEnd i g .mx 0) fun g m =>
    let pt := (m.core g).pat 2 p
    m.begins i g .mx
      ⟨(List.range 128).flatMap fun k => readsOf (k + 1) false (pt.rowAt k (weightRow it n) 0), [0], [], [], [], false⟩

/-- MWLD: a dense tile (R276). -/
def execMwld (t : Tok) (p : Fin 8) (it : InTy) : State → Out := loadWeights (.mwld t p it) p it 8

/-- MWLD.S4: 4 of every 8 weights (R276). -/
def execMwldS4 (t : Tok) (p : Fin 8) (it : InTy) : State → Out := loadWeights (.mwldS4 t p it) p it 4

/-- MWLD.S2: 2 of every 8 weights (R276). -/
def execMwldS2 (t : Tok) (p : Fin 8) (it : InTy) : State → Out := loadWeights (.mwldS2 t p it) p it 2

/-- MWLD.S1: 1 of every 8 weights (R276). -/
def execMwldS1 (t : Tok) (p : Fin 8) (it : InTy) : State → Out := loadWeights (.mwldS1 t p it) p it 1

/-- MACFG: the configuration from a block (R281). -/
def execMacfg (t : Tok) (p : Fin 8) : State → Out :=
  mxWord (.macfg t p) 0 fun g m => mxBlock m g p fun m ws =>
    match macfgOf ws with
    | none => .fail .illegal
    | some cfg => .done (m.onCore g fun c => { c with mx := { c.mx with cfg := cfg } })

/-- MEPI: the epilogue registers from a descriptor (R282). -/
def execMepi (t : Tok) (p : Fin 8) : State → Out :=
  let i : Instr := .mepi t p
  mxLines i false
    (fun g k j m => m.onCore g fun c =>
      { c with mx := { c.mx with epi := epilogueOf (j.core 0 c) j.blk } }.onJob .mx fun j => j.rowDone k [])
    (fun g => repEnd i g .mx 0) fun g m => mxBlock m g p fun m ws =>
      match mepiFault ws with
      | some f => .fail f
      | none => m.begins i g .mx ⟨readsOf 1 false ((mepiUses ws).map fun u => (u.1, u.2.2)), [0], [], [], ws, false⟩

/-! ## MMUL -/

/-- Q2 entries that a repetition pops (R278). -/
def mmulQ2 (c : Core) (sh : Shape) (it : InTy) : Nat := (mmulRowCount c sh * InTy.rowBytes it + 4095) / 4096

/-- The bytes of activation row j of a repetition, from what MX of core g has read or popped (R278). -/
def mmulRowBytes (c : Core) (p : Fin 8) (it : InTy) (srcq : Bool) (j : Job) (k : Nat) : List Byte :=
  let rb := InTy.rowBytes it
  if srcq then Memory.read (j.mem 0 false) (rb * k) rb
  else (j.core k c).patRow (c.pat 2 p) k rb ((c.pat 2 p).tilep * (c.e .mx).rep.toNat)

/-- The repetition that reads the activation rows issues on core g: it reads them through its pair, or finds them in the
Q2 entries that it has popped (R278). -/
def mmulGather (m : Mach) (i : Instr) (g : Fin 256) (p : Fin 8) (sh : Shape) (it : InTy) (srcq : Bool) : Eff :=
  let c := m.core g
  let pt := c.pat 2 p
  let rb := InTy.rowBytes it
  if srcq then
    m.begins i g .mx
      ⟨[], [0], [], Memory.write [] (gotKey 0 false 0) (c.mx.taken.flatMap tileBytes), [], false⟩
  else
    m.begins i g .mx
      ⟨(List.range (mmulRowCount c sh)).flatMap fun k => readsOf (k + 1) false (pt.rowAt k rb (pt.tilep * mxRep m g)), [0], [], [], [],
        false⟩

/-- The job of a core's part of a repetition: its accumulator rows from `lo` on to be read, its activation rows at
hand (R278, R279). -/
def mmulJob (lo : Nat) (rows : List (List Byte)) : Job where
  reads := (List.range rows.length).flatMap fun k => readsOf (k + 1) true [(512 * (lo + k), 512)]
  rows := List.range rows.length
  writes := []
  got := rows.zipIdx.foldl (fun (s : Memory) r => Memory.write s (gotKey (r.2 + 1) false 0) r.1) []
  blk := []
  begun := true

/-- One row of a core's part of a repetition (R145, R278). -/
def mmulOne (m : Mach) (g : Fin 256) (acc : BitVec 12) (it : InTy) : Nat → Job → Mach → Mach :=
  let n := (m.core g).mx.cfg.nrows.toNat
  let lo := acc.toNat + n * mxRep m g
  accRow g (fun k c => mmulRow (rankOf m g) (lo + k) (rowVals it (Memory.read c.spad 0 (InTy.rowBytes it))) c)
    fun k => [(512 * (lo + k), 512)]

/-- The MMUL at which MX of core k stands, read from its text (R279). -/
def mmulAt (m : Mach) (k : Fin 256) : Option Instr :=
  match (m.core k).task with
  | none => none
  | some t =>
    match readParcel m t ((m.core k).e .mx) .mx with
    | .run i => (match i with | .mmul .. => some i | _ => none)
    | _ => none

/-- Core k's part of a repetition, whose rows parcel i of core g has read, issues: the rows of its quadrant row through its
weights (R279). -/
def mmulPart (i : Instr) (g : Fin 256) (acc : BitVec 12) (sh : Shape) (rows : List (List Byte)) (m : Mach) (k : Fin 256) : Mach :=
  match (if k = g then some i else mmulAt m k) with
  | none => m
  | some i =>
    m.onCore k fun c =>
      let n := c.mx.cfg.nrows.toNat
      let q := if Shape.cores sh = 1 then 0 else rankOf m k / Shape.cols sh
      let c := { c with mx := { c.mx with present := none } }
      c.beginJob .mx (tk i) (mmulJob (acc.toNat + n * (c.e .mx).rep.toNat) ((rows.drop (n * q)).take n))

/-- The activation rows have been read: every member's part of the repetition issues, and the popped entries are used up
(R278, R279). -/
def mmulSpread (i : Instr) (g : Fin 256) (acc : BitVec 12) (p : Fin 8) (sh : Shape) (it : InTy) (srcq : Bool) (_ : Nat) (j : Job) (m : Mach) :
    Mach :=
  let c := m.core g
  let rows := (List.range (mmulRowCount c sh)).map (mmulRowBytes c p it srcq j)
  (if Shape.cores sh = 1 then [g] else m.members g).foldl (mmulPart i g acc sh rows)
    (m.onCore g fun c => { c with mx := { c.mx with taken := [] } })

/-- MX of core g pops the Q2 entries of a repetition as they arrive, and waits for the next (R56, R278); then `use`. A
repetition that stops before its rows are read puts them back (R13, R54, R72). -/
def mmulPop (m : Mach) (g : Fin 256) (n : Nat) (use : Eff) : Eff :=
  let c := m.core g
  if n ≤ c.mx.taken.length then use
  else match c.qt[2] with
    | [] => .wait m
    | x :: rest => .wait (m.onCore g fun c => { c with qt := put c.qt 2 rest, mx := { c.mx with taken := c.mx.taken ++ [x] } })

/-- A repetition of a gang MMUL on core g: it presents itself, and once every member has, the leader reads the rows.
Members that differ, or one that stands at TEND, trap (R279). -/
def mmulGang (m : Mach) (i : Instr) (g : Fin 256) (acc : BitVec 12) (p : Fin 8) (rep : BitVec 6) (sh : Shape) (it : InTy)
    (srcq : Bool) : Eff :=
  let me : Present := ⟨acc, rep, sh, it, (m.core g).mx.cfg.nrows⟩
  let ms := m.members g
  if ms.any fun k => ((m.core k).e .mx).ended then .fail .illegal
  else
    let m := m.onCore g fun c => { c with mx := { c.mx with present := some me } }
    let ps := ms.map fun k => (m.core k).mx.present
    if ps.any fun x => match x with | some y => y ≠ me | none => false then .fail .illegal
    else if ps.any (fun x => x.isNone) || rankOf m g ≠ 0 then .wait m
    else mmulGather m i g p sh it srcq

/-- The end of a repetition of an MMUL on core g (R272). -/
def mmulEnd (i : Instr) (g : Fin 256) (rep : BitVec 6) (mark : Bool) (sh : Shape) (m : Mach) : Mach :=
  markEnd i g rep mark (m.onCore g fun c => { c with mx := { c.mx with shape := sh } })

/-- MMUL: activation rows through the weight tile into accumulator rows: the leader, or the core alone, reads the
rows, and each core then adds its products, row by row (R277 to R279). -/
def execMmul (t : Tok) (acc : BitVec 12) (p : Fin 8) (rep : BitVec 6) (shp : Shape) (it : InTy) (srcq : Bool) (mark : Bool) :
    State → Out :=
  let i : Instr := .mmul t acc p rep shp it srcq mark
  soloParcel i .mx fun g => repetition i g .mx
    (fun j m =>
      if j.begun then m.jobAct g .mx g true (mmulOne m g acc it) (mmulEnd i g rep mark shp) j
      else m.jobAct g .mx g false (mmulSpread i g acc p shp it srcq) id j)
    (fun m => mxFault m g i)
    (fun m =>
      mmulPop m g (if srcq && (Shape.cores shp = 1 || rankOf m g = 0) then mmulQ2 (m.core g) shp it else 0)
        (if Shape.cores shp = 1 then mmulGather m i g p shp it srcq else mmulGang m i g acc p rep shp it srcq))
    id

/-! ## MDRN -/

/-- The reads of row j of a drain of the rows from n on: its accumulator row, its scale or statistics row (R151, R155,
R280, R282). -/
def drainReads (ep : Epilogue) (n j : Nat) : List LineRead :=
  readsOf (j + 1) true ([(512 * (n + j), 512)] ++ (if ep.rsk = 4 then [(512 * (ep.statRow (n + j)).toNat, 12)] else [])) ++
  (if ep.rsk = 0 || ep.rsk = 4 then [] else readsOf (j + 1) false [(ep.rowAddr (n + j), scaleSize ep.rsk.toNat)])

/-- The job of a drain of k rows from n on, before any is delivered: what the rows read besides is `more`, `rows` the
deliveries to come, `blk` the descriptor's words (log entry 50). -/
def drainJob (ep : Epilogue) (n k : Nat) (more : Nat → List LineRead) (rows : List Nat) (blk : List Word) : Job :=
  ⟨(List.range k).flatMap fun j => drainReads ep n j ++ more j, rows, [], [], blk, false⟩

/-- Row k of what repetition i of a drain has read, after the epilogue (R283). -/
def drained (c : Core) (j : Job) (rank i n0 k : Nat) : List Lane := drainRow (j.core k c) rank i n0 k

/-- The rows of repetition i as OFMT delivers them (R283). -/
def delivered (c : Core) (j : Job) (rank i n0 k : Nat) : List Byte :=
  deliver (c.env .mx 2) c.mx.epi.ofmt i k (drained c j rank i n0 k)

/-- A drained row of repetition i folded into accumulator row n (R284). -/
def foldRow (rank i n k : Nat) (row : List Lane) (c : Core) : Core :=
  let v := c.env .mx 2
  c.setRow n (row.zipIdx.map fun x =>
    BitVec.ofNat 32 (((f32 (c.accAt n x.2)).add v.md (v.dv (128 * rank + x.2)) (f32 x.1)).toF false .f32 v.md
      (v.draw (128 * k + x.2) i 3)))

/-- A row of an MDRN delivered: to scratchpad where the pattern's row lies, or folded into another row (R284). -/
def mdrnRow (g : Fin 256) (acc : BitVec 12) (p : Fin 8) (fold : Bool) (k : Nat) (j : Job) (m : Mach) : Mach :=
  let c := m.core g
  let pt := c.pat 2 p
  let i := mxRep m g
  let n := c.mx.cfg.nrows.toNat
  let lo := acc.toNat + n * i
  let rank := rankOf m g
  if fold then
    let dst := pt.base / 512 + n * i
    accRow g (fun k c => foldRow rank i (dst + k) k (drainRow c rank i lo k) c) (fun k => [(512 * (dst + k), 512)]) k j m
  else
    let bs := delivered c j rank i lo k
    m.onCore g fun c => c.onJob .mx fun j => j.rowDone k (writesOf false (dealRuns (pt.rowAt k bs.length (pt.tilep * i)) bs))

/-- MDRN: rows through the epilogue to scratchpad, or folded into other rows (R284). -/
def execMdrn (t : Tok) (acc : BitVec 12) (p : Fin 8) (rep : BitVec 6) (fold : Bool) : State → Out :=
  let i : Instr := .mdrn t acc p rep fold
  mxLines i false (fun g => mdrnRow g acc p fold) (fun g => repEnd i g .mx rep) fun g m =>
    let c := m.core g
    let pt := c.pat 2 p
    let k := mxRep m g
    let n := c.mx.cfg.nrows.toNat
    let lo := acc.toNat + n * k
    let dst := pt.base / 512 + n * k
    m.begins i g .mx
      (drainJob c.mx.epi lo n (fun j => if fold then readsOf (j + 1) true [(512 * (dst + j), 512)] else []) (List.range n) [])

/-- The packages that an MDRN.F descriptor names; none where the group is not usable (R285, R336). -/
def rowTargets (m : Mach) (g : Fin 256) (ws : List Word) : Option (List (BitVec 10)) :=
  let w0 := blkW ws 0
  if wf w0 10 16 = 0 then some [w0.extractLsb' 0 10]
  else (m.group (m.ctxOf g) (wf w0 10 16)).map fun ms => ms.map (·.1)

/-- The trap of an MDRN.F descriptor, its group apart (R285). -/
def rowDescBad (m : Mach) (g : Fin 256) (ws : List Word) : Bool :=
  let w0 := blkW ws 0
  let w1 := blkW ws 1
  let w2 := blkW ws 2
  wf w0 36 28 ≠ 0 || (wf w0 10 16 ≠ 0 && wf w0 0 10 ≠ 0) || wf w1 22 10 ≠ 0 || wf w1 48 16 ≠ 0 || wf w2 33 31 ≠ 0 ||
  wf w2 22 10 ≠ 0 || wf w2 0 3 ≠ 0 || (List.range 5).any (fun k => blkW ws (3 + k) ≠ 0) ||
  !m.fabPort (dieOf g) (wf w0 34 2)

/-- The row messages of repetition i, and after the last row the arrival, handed to the fabric port (R285, R337,
R338). -/
def sendRows (m : Mach) (g : Fin 256) (ws : List Word) (i : Nat) (last : Bool) (rows : List (List Byte)) : Mach :=
  let w0 := blkW ws 0
  let w1 := blkW ws 1
  let w2 := blkW ws 2
  let c := m.ctxOf g
  let r := if i = 0 then m.freshStream else ((m.core g).mx.stream, m)
  let m := r.2.onCore g fun k => { k with mx := { k.mx with stream := r.1 } }
  let dcore : BitVec 8 := w0.extractLsb' 26 8
  let n := rows.length
  let dst := (m.core g).mx.dsts
  let m := rows.zipIdx.foldl (fun m x => dst.foldl (fun m d =>
    m.send (dieOf g) 0 (m.mkMsg 1 c d dcore r.1 (wf w1 0 22 + wf w1 32 16 * (n * i + x.2)) 0 0 x.1)) m) m
  if last && wb w2 32 then
    dst.foldl (fun m d => m.send (dieOf g) 0 (m.mkMsg 2 c d dcore r.1 (wf w2 0 22) 0 0 [])) m
  else m

/-- The fabric port has not taken every message of the MDRN.F on core g yet (R285, R337). -/
def Mach.rowsUntaken (m : Mach) (g : Fin 256) : Bool :=
  m.outbox.any fun o => !o.sent && (o.msg.kind = 1 || o.msg.kind = 2) && o.msg.stream = (m.core g).mx.stream

/-- A repetition of MDRN.F is complete; at the last, once the fabric port has taken every row (R285). -/
def rowsEnd (i : Instr) (g : Fin 256) (rep : BitVec 6) (m : Mach) : Mach :=
  if ((m.core g).e .mx).rep = rep && m.rowsUntaken g then m else repEnd i g .mx rep m

/-- The rows of repetition i that MX of core g has read, after the epilogue. -/
def allDrained (m : Mach) (g : Fin 256) (acc : BitVec 12) (j : Job) : List (List Lane) :=
  let c := m.core g
  let n := c.mx.cfg.nrows.toNat
  (List.range n).map (drained c j (rankOf m g) (mxRep m g) (acc.toNat + n * mxRep m g))

/-- MDRN.F: rows into the fabric; its group's entry is read once, at issue (R285, R336). -/
def execMdrnF (t : Tok) (acc : BitVec 12) (p : Fin 8) (rep : BitVec 6) : State → Out :=
  let i : Instr := .mdrnF t acc p rep
  mxLines i false
    (fun g r j m =>
      let v := (m.core g).env .mx 2
      let k := mxRep m g
      let rows := (allDrained m g acc j).zipIdx.map fun x => deliver v (m.core g).mx.epi.ofmt k x.2 x.1
      (sendRows m g j.blk k (k = rep.toNat) rows).onCore g fun c => c.onJob .mx fun j => j.rowDone r [])
    (fun g => rowsEnd i g rep) fun g m => mxBlock m g p fun m ws =>
      let c := m.core g
      let k := mxRep m g
      let n := c.mx.cfg.nrows.toNat
      let lo := acc.toNat + n * k
      let dst := if k = 0 then rowTargets m g ws else some c.mx.dsts
      if wf (blkW ws 1) 32 6 ≠ 0 then .fail .align
      else if rowDescBad m g ws then .fail .illegal
      else match dst with
        | none => .fail .illegal
        | some ds =>
          if !drainOk c lo n then .fail .spadRange
          else ((m.noteGroup (m.ctxOf g) (if k = 0 then wf (blkW ws 0) 10 16 else 0)).onCore g fun c => { c with mx := { c.mx with dsts := ds } }).begins i g .mx
            (drainJob c.mx.epi lo n (fun _ => []) [0] ws)

/-- The sampler port of a die takes no segment now: rows are open for 64 slots, those counted whose first segment is still
at the port (R317). -/
def Mach.portFull (m : Mach) (d : Fin 4) : Bool :=
  let u := (m.die d).cup
  u.en && 64 ≤ ((u.bufs.map (·.slot) ++ u.port.map (·.slot)).eraseDups).length

/-- The tag of row j of a repetition of MDRN.SM, TAGADDR moved to the repetition's first row (R286). -/
def tagOf (spad : Memory) (ta j : Nat) : Nat := leVal (Memory.read spad (ta + 4 * j) 4)

/-- The segment of row k of a repetition of MDRN.SM (R286, R317). -/
def smSegment (m : Mach) (g : Fin 256) (acc : BitVec 12) (k : Nat) (j : Job) : Segment :=
  let c := m.core g
  let w := (blkW j.blk (8 + k)).toNat
  let i := mxRep m g
  ⟨g, m.ctxOf g, BitVec.ofNat 16 (fld w 0 16), bit w 16,
   wf (blkW j.blk 1) 0 18 + 128 * (rankOf m g % Shape.cols c.mx.shape),
   drained c j (rankOf m g) i (acc.toNat + c.mx.cfg.nrows.toNat * i) k⟩

/-- A segment comes to the sampler port of a die, which drops it while Cupola is not enabled (R317). -/
def Mach.toPort (m : Mach) (d : Fin 4) (s : Segment) : Mach :=
  m.onCup d fun u => if u.en then { u with port := u.port ++ [s] } else { u with segdrop := sat32 u.segdrop }

/-- MDRN.SM: tagged logit rows to the sampler port, one after the other as the port takes them (R284, R286, R317). -/
def execMdrnSm (t : Tok) (acc : BitVec 12) (p : Fin 8) (rep : BitVec 6) : State → Out :=
  let i : Instr := .mdrnSm t acc p rep
  mxLines i false
    (fun g k j m => if m.portFull (dieOf g) then m else
      (m.toPort (dieOf g) (smSegment m g acc k j)).onCore g fun c => c.onJob .mx fun j => j.rowDone k [])
    (fun g => repEnd i g .mx rep) fun g m =>
      mxBlock m g p fun m ws =>
        let c := m.core g
        let n := c.mx.cfg.nrows.toNat
        let lo := acc.toNat + n * mxRep m g
        let ta := wf (blkW ws 0) 0 22 + 4 * (n * mxRep m g)
        if wf (blkW ws 0) 0 2 ≠ 0 then .fail .align
        else if wf (blkW ws 0) 22 42 ≠ 0 || wf (blkW ws 1) 18 46 ≠ 0 || (List.range 6).any (fun k => blkW ws (2 + k) ≠ 0) then
          .fail .illegal
        else if 0x300000 < ta + 4 * n then .fail .spadRange
        else
          let r := m.portRead (m.ctxOf g) g false ta (4 * n)
          let tags := (List.range n).map (tagOf c.spad ta)
          if !r.2 then .wait r.1
          else if tags.any fun x => fld x 17 15 ≠ 0 then .fail .illegal
          else if !drainOk c lo n then .fail .spadRange
          else if m.portFull (dieOf g) then .wait r.1
          else r.1.begins i g .mx (drainJob c.mx.epi lo n (fun _ => []) (List.range n) (ws ++ tags.map (BitVec.ofNat 64)))

/-! ## MATT -/

/-- INIT: the output rows +0, M −∞ and the sums +0 (R290). -/
def mattInit (n o s : Nat) (c : Core) : Core :=
  let c := { c with acc := Memory.clear c.acc (512 * o) (512 * n) }
  (List.range n).foldl (fun (c : Core) j => c.setRow (s + j) [negInf, 0, 0]) c

/-- The reads of a block of MATT: the keys and values for every row, and for row j its query, and its output and
statistics rows unless they start afresh (R280, R288 to R290). -/
def mattReads (it : InTy) (kv q : Pat) (adv n o s : Nat) (fresh : Bool) : List LineRead :=
  let rb := InTy.rowBytes it
  ((List.range 128).flatMap fun k => readsOf 0 false (kv.rowAt k rb adv)) ++
  (List.range n).flatMap fun j =>
    readsOf (j + 1) false (q.rowAt j rb 0) ++
    (if fresh then [] else readsOf (j + 1) true [(512 * (o + j), 512), (512 * (s + j), 12)])

/-- One block for query row j, as the row finds the core; the keys and values lie in `kvs` (R289 to R291). None where
the row is skipped. -/
def mattOne (rank : Nat) (it : InTy) (kv q : Pat) (adv o s : Nat) (causal : Bool) (kvs : Core) (j : Nat) (c : Core) :
    Option AttRow :=
  let cfg := c.mx.cfg
  let rb := InTy.rowBytes it
  let dv (t : Nat) : Lane := devNan (c.e .mx).pc (128 * rank + t)
  let key (k : Nat) : List Val := rowVals it (kvs.patRow kv k rb adv)
  let qv := rowVals it (c.patRow q j rb 0)
  let qp := cfg.qpos0.toNat + j
  let scores := (List.range 64).map fun k =>
    let kp := cfg.kpos.toNat + k
    if cfg.kend.toNat ≤ kp || (causal && qp < kp) then none else some (attScore cfg (dv k) qv (key k) qp kp)
  attBlock cfg.pfmt dv scores ((List.range 64).map fun k => key (64 + k))
    ⟨c.accAt (s + j) 0, c.accAt (s + j) 1, c.accAt (s + j) 2, (List.range 128).map (c.accAt (o + j))⟩

/-- The result of query row j: its output and statistics rows are written; a skipped row that starts afresh is written as
INIT leaves it (R290, R291). -/
def mattRow (g : Fin 256) (acc : BitVec 12) (p : Fin 8) (it : InTy) (causal init : Bool) (acc2 : BitVec 12) (p2 : Fin 8) (k : Nat)
    (j : Job) (m : Mach) : Mach :=
  let o := acc.toNat
  let s := acc2.toNat
  let fresh := init && mxRep m g = 0
  m.onCore g fun c =>
    let kv := c.pat 2 p
    let kvs := { c with spad := j.mem 0 false }
    let row := j.core k c
    let row := if fresh then mattInit 1 (o + k) (s + k) row else row
    let r := mattOne (rankOf m g) it kv (c.pat 2 p2) (kv.tilep * (c.e .mx).rep.toNat) o s causal kvs k row
    let row := match r with | some r => (row.setRow (o + k) r.out).setRow (s + k) [r.mx, r.hi, r.lo] | none => row
    let ws := if r.isNone && !fresh then [] else
      [(512 * (o + k), Memory.read row.acc (512 * (o + k)) 512), (512 * (s + k), Memory.read row.acc (512 * (s + k)) 12)]
    c.onJob .mx fun j => j.rowDone k (writesOf true ws)

/-- The weight tile of task start, which a MATT leaves (R272). -/
def MxState.noWeights (x : MxState) : MxState := { x with wty := .e4m3, keep := 8, w := Vector.replicate 128 0 }

/-- The end of a block of MATT: the next key position, and, after the first block, no weight tile (R272, R281). -/
def mattEnd (i : Instr) (g : Fin 256) (rep : BitVec 6) (mark : Bool) (m : Mach) : Mach :=
  markEnd i g rep mark (m.onCore g fun c =>
    let x := if (c.e .mx).rep = 0 then c.mx.noWeights else c.mx
    { c with mx := { x with cfg := { x.cfg with kpos := x.cfg.kpos + 64 } } })

/-- MATT: attention over one block of keys and values a repetition (R288 to R292). -/
def execMatt (t : Tok) (acc : BitVec 12) (p : Fin 8) (rep : BitVec 6) (it : InTy) (causal : Bool) (init : Bool) (mark : Bool)
    (acc2 : BitVec 12) (p2 : Fin 8) : State → Out :=
  let i : Instr := .matt t acc p rep it causal init mark acc2 p2
  mxLines i true (fun g => mattRow g acc p it causal init acc2 p2) (fun g => mattEnd i g rep mark) fun g m =>
    let c := m.core g
    let n := c.mx.cfg.nrows.toNat
    let kv := c.pat 2 p
    let k := mxRep m g
    m.begins i g .mx ⟨mattReads it kv (c.pat 2 p2) (kv.tilep * k) n acc.toNat acc2.toNat (init && k = 0), List.range n, [], [], [],
      false⟩

end Sys2Proof.Machine
end

