-- ==== Sys2Proof/Machine/Deadlock.lean ====
section
/-!
DEFINITION. Deadlocks: the engines of a core blocked on one another (spec/02_execution.md R74; spec/08_scheduling.md
R227; spec/16_reference_m_u.md R406), and the wait-for table with its walk (R237 to R239; log entries 22 and 23).
-/
namespace Sys2Proof.Machine

/-! ## Within a core -/

/-- How often a list of source specifiers names queue n (R57). -/
def namesOf (n : Nat) (xs : List VSpec) : Nat := (xs.filter fun x => match x with | .q k => k.val = n | _ => false).length

/-- The engine for whose queue entries VX waits (R55, R56). -/
def vxWait (c : Core) (i : Instr) : Option Engine :=
  let xs := vxSources i
  if (c.qt[0]).length < namesOf 0 xs || (c.qt[1]).length < namesOf 1 xs then some .ld
  else if (c.qw[0]).length < namesOf 4 xs then some .sc
  else match vxDest i with
    | some (.q n) =>
      if n.val = 3 && 4 ≤ (c.qt[3]).length then some .st
      else if n.val = 5 && 16 ≤ (c.qw[1]).length then some .sc
      else none
    | _ => none

/-- The engine for which a load waits: SC for its target, or the reader of a full queue (R55, R154). -/
def ldWait (c : Core) (r : VSpec) (sp : Space) : Option Engine :=
  if (sp = .clu || sp = .pkg) && (c.e .ld).tgt.isNone && (c.qw[2]).isEmpty then some .sc
  else match r with
    | .q n =>
      if n.val = 7 then (if 16 ≤ (c.qw[3]).length then some .sc else none)
      else if n.val = 2 then (if 4 ≤ (c.qt[2]).length then some .mx else none)
      else if n.val < 2 then (if 4 ≤ (c.qt[(Fin.ofNat 4 n.val).val]).length then some .vx else none)
      else none
    | _ => none

/-- The engine on the other side of the queue at which instruction i waits at its own engine (R55, R56). -/
def queueWait (m : Mach) (g : Fin 256) (i : Instr) : Option Engine :=
  let c := m.core g
  match i with
  | .movQw _ _ q =>
    if 16 ≤ (c.qw[(qwIx q).val]).length then (if q.val = 4 then some .vx else some .ld) else none
  | .movQr _ _ q =>
    if (c.qw[(qwIx q).val]).isEmpty then (if q.val = 5 then some .vx else some .ld) else none
  | .vld _ r _ _ _ sp _ => ldWait c r sp
  | .vldx _ r _ _ _ sp _ _ => ldWait c r sp
  | .vst .. | .vstx .. => if (c.qt[3]).isEmpty then some .vx else none
  | .mmul _ _ _ _ sh it srcq _ =>
    if srcq && (Shape.cores sh = 1 || rankOf m g = 0) && (c.qt[2]).isEmpty && c.mx.taken.length < mmulQ2 c sh it then some .ld
    else none
  | _ => vxWait c i

/-- A command of the core that is still to push its token toward e: such a token comes from outside the core (R60,
R74; log entry 22). -/
def Mach.willSignal (m : Mach) (g : Fin 256) (e : Engine) : Bool := (m.signalling g).any fun o => o.sig = some e

/-- Instruction i traps at its parcel, by its encoding or by what the registers of its engine hold (R94). -/
def Mach.trapsHere (m : Mach) (g : Fin 256) (i : Instr) : Bool :=
  (illForm i).isSome ||
  (((((ctlFault m g i).or (memFault m g i)).or (wordPre m g i)).or (mxFault m g i)).or
    (if owner i = some .asy then asFault m g i else none)).isSome

/-- The engine for which instruction i of engine e waits once its token is there: that of the queue, or, of AS, that of the
token FIFO in which its completion would find no room (R55, R56, R60). -/
def Mach.effectWait (m : Mach) (g : Fin 256) (e : Engine) (i : Instr) : Option Engine :=
  if e ≠ .asy then queueWait m g i
  else if ((m.core g).outHead .asy).isSome && sigFull m g (tk i).sig then (tk i).sig else none

/-- The other engine of the token or queue on which engine e of core g waits at its parcel (R74). An engine in the midst
of a repetition, behind the requests that its core's port has kept or the access that SC has presented, or at a parcel at
which it traps, is not blocked. -/
def Mach.innerWait (m : Mach) (g : Fin 256) (e : Engine) : Option Engine :=
  let c := m.core g
  let x := c.e e
  match c.task with
  | none => none
  | some t =>
    if !t.running || x.ended || x.job.isSome || t.nparcel.toNat ≤ x.pc.toNat then none
    else if !(m.queued g t.ctx).isEmpty && !x.presented then none
    else
      match x.owed with
      | some q => if 8 ≤ c.tokens e q then some q else none
      | none =>
        if e = .sc && (c.hold.isSome || c.safe.isSome) then none
        else if e ≠ .sc && x.walk = (c.e .sc).walk then none
        else
          match readParcel m t x e with
          | .run i =>
            if owner i ≠ some e || c.storeFirst e i || m.trapsHere g i then none
            else
              (match (tokOf i).bind (·.wait) with
               | some p =>
                 if x.tokp || 0 < c.tokens p e then m.effectWait g e i
                 else if p = .asy && m.willSignal g e then none
                 else some p
               | none => m.effectWait g e i)
          | _ => none

/-- An engine that no longer moves: at TEND, at NPARCEL, or at the safe point where SC has stopped (R74, R227). -/
def Core.atRest (c : Core) (e : Engine) : Bool :=
  let x := c.e e
  x.ended || (match c.task with | some t => t.nparcel.toNat ≤ x.pc.toNat | none => true) ||
  (c.safe.isSome && x.walk = (c.e .sc).walk)

/-- An engine that stands at SC's parcel follows it (R47, R406). -/
def Core.withSc (c : Core) (e : Engine) : Bool := e ≠ .sc && (c.e e).walk = (c.e .sc).walk

/-- One round: the engines of a set whose partner is at rest or in the set. -/
def Mach.prune (m : Mach) (g : Fin 256) (l : List Engine) : List Engine :=
  let c := m.core g
  l.filter fun e =>
    match m.innerWait g e with
    | some q => c.atRest q || l.contains q
    | none => c.withSc e && l.contains .sc

/-- The engines blocked on one another, or following a blocked SC (R74). -/
def Mach.blockedSet (m : Mach) (g : Fin 256) : List Engine :=
  (List.range 6).foldl (fun l _ => m.prune g l) (engines.filter fun e => !(m.core g).atRest e)

/-- The engine of two that lies behind in the walk, the first on a tie. -/
def Core.behind (c : Core) (a : Option Engine) (b : Engine) : Option Engine :=
  match a with
  | none => some b
  | some x => if (c.e b).walk.toNat < (c.e x).walk.toNat then some b else a

/-- SC of core g waits in MOV.QR or MOV.QW (R406). -/
def Mach.scAtQueue (m : Mach) (g : Fin 256) : Bool :=
  let c := m.core g
  match c.task with
  | some t =>
    (match readParcel m t (c.e .sc) .sc with | .run (.movQr ..) => true | .run (.movQw ..) => true | _ => false) &&
    (m.innerWait g .sc).isSome
  | none => false

/-- The engine that reports an internal deadlock of core g, if there is one: the blocked engine furthest behind, but SC
where it waits in MOV.QR or MOV.QW (R74, R406). -/
def Mach.deadlocked (m : Mach) (g : Fin 256) : Option Engine :=
  let c := m.core g
  if c.task.isNone || c.halt.isSome then none
  else
    let l := m.blockedSet g
    if engines.all fun e => c.atRest e || l.contains e then
      if l.contains .sc && m.scAtQueue g then some .sc
      else (l.filter fun e => (m.innerWait g e).isSome).foldl c.behind none
    else none

/-- The trap of an internal deadlock: CODE 0, INFO the task's own code; PADDR the safe point for R227 (R74, R235). -/
def Mach.trapDeadlock (m : Mach) (g : Fin 256) (e : Engine) (at' : Option PAddr) : Mach :=
  let c := m.core g
  let x := c.e e
  let rank := match c.task with | some t => t.rank | none => 0
  m.haltTask g (.trap ⟨.deadlock, e, at'.getD x.pc, x.rep, g, rank, 0, (coreCode g).setWidth 64⟩)

/-- INTERNAL_DEADLOCK: the engines of a member are blocked on one another (R74). -/
def execInternalDeadlock (g : Fin 256) : State → Out := ready fun m =>
  if (m.core g).safe.isSome then m
  else
    match m.deadlocked g with
    | some e => m.trapDeadlock g e none
    | none => m

/-! ## The wait-for table -/

/-- An edge of the table: the agent waited on, the object waited at, the context that waits, and the engine of a core's
task (R238). -/
structure Edge where
  to' : Waiter
  obj : Fin 256 × Nat
  ctx : Fin 64
  engine : Engine
  deriving DecidableEq, Repr

/-- An edge to an agent; 0xFFFF records none (R237). -/
def edgeTo (to' : BitVec 16) (obj : Fin 256 × Nat) (c : Fin 64) (e : Engine) : Option Edge :=
  if to' = 0xFFFF then none else some ⟨⟨to', none⟩, obj, c, e⟩

/-- The signaller registered for a cell of a context (R189, R238). -/
def Mach.signallerOf (m : Mach) (c : Fin 64) (g : Fin 256) (a : Nat) : BitVec 16 :=
  match m.signallers.find? fun s => s.1 = (c, g, a) with | some s => s.2 | none => 0xFFFF

/-- The edge of a request of context c that the port of core t holds: to the saved task of the context that the core
holds, none where it holds none (R213, R238). -/
def Mach.heldEdge (m : Mach) (c : Fin 64) (t : Fin 256) (e : Engine) : Option Edge :=
  ((m.die (dieOf t)).recs.find? fun r => r.state = .saved && r.ctx = c && r.cores.contains t).map fun r =>
    ⟨⟨coreCode t, some r.id⟩, (t, 0x600000), c, e⟩

/-- The edge of a wait of engine e of the task of context c that core g holds (R238). -/
def Mach.waitEdge (m : Mach) (c : Fin 64) (g : Fin 256) (e : Engine) (on : WaitOn) : Option Edge :=
  match on with
  | .bar t a _ => edgeTo (m.signallerOf c t a) (t, a) c e
  | .ring t r .wf => edgeTo (m.ring t r).proda (t, 0x400000 + r.val) c e
  | .ring t r .we => edgeTo (m.ring t r).consa (t, 0x400000 + r.val) c e
  | .spawn => edgeTo (unitCode (dieOf g) .dispatcher) (g, 0x500000) c e
  | .arrival t | .held t => m.heldEdge c t e
  | .lantern => none

/-- The edge of the task on core g: the first that its engines have (R238; log entry 23). -/
def Mach.coreEdge (m : Mach) (g : Fin 256) : Option Edge :=
  let c := m.core g
  if c.task.isNone || c.halt.isSome then none
  else engines.findSome? fun e => match (c.e e).wait with | some w => m.waitEdge (m.ctxOf g) g e w.on | none => none

/-- The edge of a saved task whose record is not placeable: the first of the waits in which it stopped. No cycle runs
through one whose record is placeable (R238, R239; log entry 23). -/
def Mach.savedEdge (m : Mach) (k : Nat) : Option Edge :=
  match dieNums.findSome? fun d => m.getRec d k with
  | none => none
  | some r =>
    if r.state ≠ .saved || (r.placeable && !(m.ctx r.ctx).susp) then none
    else (r.cores.zip r.priv).findSome? fun p => engines.findSome? fun e =>
      match p.2.waits[(engIx e).val] with | some on => m.waitEdge r.ctx p.1 e on | none => none

/-- The agent that has presented a request (R237). -/
def Mach.agentOf (m : Mach) : Who → BitVec 16
  | .eng g _ => coreCode g
  | .op k => match m.findOp k with | some o => unitCode o.die o.unit | none => 0xFFFF
  | .shard d _ _ _ _ => unitCode d .belfry
  | .ent d _ => unitCode d .belfry
  | .row d _ => unitCode d .cupola
  | .lan d => unitCode d .lantern
  | .msg _ => 0xFFFF

/-- The edge of a unit at a port that holds a request of its (R213, R238). -/
def Mach.portEdge (m : Mach) (u : BitVec 16) : Option Edge :=
  coreNums.findSome? fun t => (m.core t).portq.findSome? fun r =>
    if m.agentOf r.who = u && m.live r.who && !m.admits t r.ctx r.who then m.heldEdge r.ctx t .asy else none

/-- The edge of a unit at a ring on which it waits for a slot (R238, R253, R328). -/
def Mach.ringEdge (m : Mach) (u : BitVec 16) : Option Edge :=
  coreNums.findSome? fun t => (m.core t).ringWaits.findSome? fun w =>
    if m.agentOf w.who = u && m.live w.who then m.waitEdge w.ctx t .asy (.ring t w.ring w.kind) else none

/-- The edge of Lantern at a cell, and of the gatherer's waiting push to its configuration's CONS (R238, R268). -/
def Mach.ownEdge (m : Mach) (u : BitVec 16) : Option Edge :=
  dieNums.findSome? fun d =>
    if unitCode d .lantern = u then
      (m.die d).lan.run.bind fun r => r.wait.bind fun w => edgeTo (m.signallerOf r.prog.ctx w.1 w.2) w r.prog.ctx .asy
    else if unitCode d .gatherer = u then
      (m.ops.find? fun o => o.die = d && o.unit = .gatherer && !o.fin && !isTake o && m.pushHeld o).bind fun o =>
        (m.die d).gat.cfg.bind fun c => edgeTo c.cons (toCore (64 * d.val), 0x700000) o.ctx .asy
    else none

/-- The edge of an agent (R238). -/
def Mach.edgeOf (m : Mach) (a : Waiter) : Option Edge :=
  match a.saved with
  | some k => m.savedEdge k
  | none =>
    if a.code.toNat < 0x100 then m.coreEdge (toCore a.code.toNat)
    else ((m.portEdge a.code).or (m.ringEdge a.code)).or (m.ownEdge a.code)

/-- The agents that can be blocked, but for saved tasks. -/
def blockable : List Waiter := ((coreNums.map coreCode) ++ killUnits).map fun c => ⟨c, none⟩

/-- The path of edges from an agent back to where it started; none where it ends elsewhere. At most n edges. -/
def Mach.cycleFrom (m : Mach) (start : Waiter) : Nat → Waiter → List Waiter → Option (List Waiter)
  | 0, _, _ => none
  | n + 1, at', path =>
    match m.edgeOf at' with
    | none => none
    | some e => if e.to' = start then some path.reverse else m.cycleFrom start n e.to' (e.to' :: path)

/-- Two agents in the order in which a cycle is told: tasks that run and units by their codes, saved tasks last. -/
def Waiter.first (a b : Waiter) : Bool := b.saved.isSome || a.code.toNat ≤ b.code.toNat

/-- The cycles of the table, each from its lowest code on (R239). -/
def Mach.cycles (m : Mach) : List (List Waiter) :=
  blockable.filterMap fun a =>
    match m.cycleFrom a 600 a [a] with
    | some p => if p.all a.first then some p else none
    | none => none

/-- No arrival, publish or release has reached an object of the cycle since the last walk (R239). -/
def Mach.still (m : Mach) (p : List Waiter) : Bool :=
  p.all fun a => match m.edgeOf a with | some e => !m.touched.contains e.obj | none => false

/-- The report of a cycle: DEADLOCK at the lowest-numbered core, or, for a cycle with no core, the end of the launch (R228,
R235, R239; log entry 23). -/
def Mach.reportCycle (m : Mach) (p : List Waiter) : Mach :=
  match p with
  | [] => m
  | a :: _ =>
    match m.edgeOf a with
    | none => m
    | some e =>
      if a.code.toNat < 0x100 then
        (m.takeTrap (toCore a.code.toNat) e.engine .deadlock (BitVec.ofNat 32 p.length) (e.to'.code.setWidth 64)).onCtx e.ctx fun x =>
          { x with dlk := true, dlen := BitVec.ofNat 8 p.length }
      else m.abort e.ctx 7

/-- WAITFOR_WALK: Oculus walks the table, 2^20 clocks of die 0 after its last walk, and reports what stood in both
(R239). -/
def execWaitforWalk : State → Out := ready fun m =>
  let now := (m.die 0).cycle
  if (now - m.walkAt).toNat < 2 ^ 20 then m
  else
    let cs := m.cycles
    let m' := (cs.filter fun p => m.lastCycles.contains p && m.still p).foldl Mach.reportCycle m
    { m' with lastCycles := cs, touched := [], walkAt := now }

end Sys2Proof.Machine
end

