-- ==== Sys2Proof/Machine/SaveArea.lean ====
section
/-!
DEFINITION. The save area: what a save writes into a member's slot and what a resumption reads back
(spec/05_onchip_memory.md R169, R170; spec/03_encoding.md R121; spec/08_scheduling.md R229, R230;
spec/10_matrix_attention.md R273; log entries 12 and 21).
-/
namespace Sys2Proof.Machine

/-- Every defined bit of a live mask (R121). -/
def allLive : Word := 0x0000FFFF00FF01FF

/-- Bytes to be written at an offset of a slot. -/
abbrev Patch := List (Nat × List Byte)

/-- The slot of core g in the save area of context c (R229). -/
def Mach.slotAt (m : Mach) (c : Fin 64) (g : Fin 256) : Nat := (m.ctx c).cur.savebase.toNat + 2 ^ 23 * g.val

/-! ## Saving -/

/-- The place of an engine in the order of R230. -/
def engNo (e : Engine) : Nat := (engIx e).val

/-- The words of an engine's loop stack, innermost first, four entries (R230). -/
def loopPatch (x : EngState) : List Byte :=
  (List.range 4).flatMap fun j =>
    match x.loops[j]? with
    | some l => leBytes 8 (l.first.toNat + l.last.toNat * 2 ^ 22) ++ leBytes 8 (l.count.toNat + 2 ^ 32)
    | none => leBytes 16 0

/-- The position of an engine: PC, REPI, TOKP, TGTV, TGT (R230). -/
def posWord (x : EngState) : Nat :=
  x.pc.toNat + x.rep.toNat * 2 ^ 22 + x.tokp.toNat * 2 ^ 28 + x.tgt.isSome.toNat * 2 ^ 29 + ((x.tgt.getD 0).toNat) * 2 ^ 30

/-- CTRL (R230). -/
def ctrlPatch (c : Core) (reason : Nat) (live : Word) (record : Option (BitVec 48)) : Patch :=
  [(0x000, [BitVec.ofNat 8 reason, 1]), (0x008, wordBytes live), (0x010, leBytes 6 (record.getD 0).toNat)] ++
  (engines.flatMap fun e =>
    [(0x040 + 8 * engNo e, leBytes 8 (posWord (c.e e))), (0x080 + 8 * engNo e, leBytes 4 (c.e e).walk.toNat),
     (0x200 + 64 * engNo e, loopPatch (c.e e))]) ++
  [(0x0C0, c.tok.toList.map fun n => BitVec.ofNat 8 n),
   (0x100, leBytes 8 c.slipw.toNat), (0x108, leBytes 8 (c.round[0]).toNat), (0x110, wordBytes (c.seed[0])),
   (0x118, leBytes 8 (c.btmcfg[0]).toNat), (0x120, leBytes 8 (c.round[1]).toNat), (0x128, wordBytes (c.seed[1])),
   (0x130, leBytes 8 (c.round[2]).toNat), (0x138, wordBytes (c.seed[2])), (0x140, leBytes 8 (c.btmcfg[1]).toNat)] ++
  (List.range 5).map fun k => (0x180 + 8 * k, [BitVec.ofNat 8 ((c.out.toList.getD k []).length)])

/-- A list of patches where a class is live. -/
def ifLive (live : Word) (b : Nat) (p : Patch) : Patch := if wb live b then p else []

/-- The tiles of a file from offset a upward. -/
def tilePatch (a : Nat) (ts : List Tile) : Patch := ts.zipIdx.map fun (p : Tile × Nat) => (a + 4096 * p.2, tileBytes p.1)

/-- The register files, queues and outcome FIFOs (R229). -/
def filePatch (c : Core) (live : Word) : Patch :=
  ifLive live 0 [(0x1000, c.s.toList.flatMap wordBytes)] ++
  ifLive live 1 ((List.range 3).map fun k => (0x1100 + 0x80 * k, ((c.a.toList.getD k (Vector.replicate 16 0)).toList).flatMap wordBytes)) ++
  ifLive live 8 [(0x1400, (c.m.toList.drop 1).flatMap fun x => leBytes 128 x.toNat)] ++
  ((List.range 4).flatMap fun k => ifLive live (20 + k) [(0x1800 + 0x80 * k, (c.qw.toList.getD k []).flatMap wordBytes)]) ++
  ((List.range 5).map fun k => (0x2000 + 0x400 * k, (c.out.toList.getD k []).flatMap fun x => leBytes 16 x.toNat)) ++
  ((List.range 4).flatMap fun k => ifLive live (2 + k) (tilePatch (0x4000 + 0x8000 * k) ((c.v.toList.drop (8 * k)).take 8))) ++
  ifLive live 6 (tilePatch 0x24000 c.w.toList) ++
  ifLive live 7 (tilePatch 0x2C000 c.z.toList) ++
  ((List.range 4).flatMap fun k => ifLive live (16 + k) (tilePatch (0x30000 + 0x4000 * k) ((c.qt.toList.getD k []).take 4))) ++
  ((List.range 16).flatMap fun b => ifLive live (32 + b) [(0x40000 + 0x20000 * b, Memory.read c.acc (0x20000 * b) 0x20000)])

/-- A ring descriptor's four words (R162). -/
def ringBytes (r : Ring) : List Byte :=
  leBytes 8 (r.base.toNat + r.slotsz.toNat * 2 ^ 32 + r.nslot.toNat * 2 ^ 48) ++
  leBytes 8 (r.pclaim.toNat + r.ppub.toNat * 2 ^ 32) ++ leBytes 8 (r.cclaim.toNat + r.crel.toNat * 2 ^ 32) ++
  leBytes 8 (r.proda.toNat + r.consa.toNat * 2 ^ 16)

/-- An entry of the block translation memory in the image (R169). -/
def btmBytes (x : BtmEntry) : List Byte :=
  leBytes 8 (x.slot.toNat + x.ord.toNat * 2 ^ 16 + x.handle.toNat * 2 ^ 32) ++ leBytes 8 (x.valid.toNat + x.lock.toNat * 2)

/-- The dirty regions of a core in ascending order, each with its coded bytes and whether they are raw (R157, R169). -/
def dirtyImages (c : Core) : List (Nat × List Byte × Bool) :=
  ((List.range 768).filter fun r => c.dirty.getLsbD r).map fun r => (r, zrEncode (Memory.read c.spad (4096 * r) 4096))

/-- The scratchpad image (R169). -/
def imageBytes (c : Core) : List Byte :=
  let rs := dirtyImages c
  let dir := rs.flatMap fun r => leBytes 4 (r.1 + r.2.1.length / 64 * 2 ^ 16 + r.2.2.toNat * 2 ^ 23)
  leBytes 8 (1 + rs.length * 2 ^ 16) ++ leBytes 96 c.dirty.toNat ++ leBytes 24 0 ++ c.rings.toList.flatMap ringBytes ++
  c.btm.toList.flatMap btmBytes ++ leBytes 64 (c.rp.toList.foldr (fun x n => x.toNat + 4 * n) 0) ++
  padTo 64 dir ++ rs.flatMap fun r => r.2.1

/-- The offset of MX's working state in a slot (R229, R273). -/
def mxAt : Nat := 0x700000

/-- MX's working state in the last MiB of the slot; a member that stops has presented no gang MMUL. `more` are the Q2
entries, put back by a repetition that stopped, for which Q2's place has no room. The layout is the model's own, as R273
leaves it to the device (log entry 12). -/
def mxPatch (x : MxState) (more : List Tile) : Patch :=
  let e := x.epi
  let f := x.cfg
  [(mxAt, leBytes 8 (inTyCode x.wty + x.keep.val * 2 ^ 8 + shapeCode x.shape * 2 ^ 16 + x.stream.toNat * 2 ^ 32)),
   (mxAt + 0x08, leBytes 8 x.dsts.length),
   (mxAt + 0x10, leBytes 8 (e.csk.toNat + e.rsk.toNat * 2 ^ 3 + e.ben.toNat * 2 ^ 6 + e.act.toNat * 2 ^ 7 + e.ofmt.toNat * 2 ^ 11 +
     e.soff.toNat * 2 ^ 16)),
   (mxAt + 0x18, leBytes 8 (e.csaddr.toNat + e.baddr.toNat * 2 ^ 32)),
   (mxAt + 0x20, leBytes 8 (e.rsaddr.toNat + f.nrows.toNat * 2 ^ 32 + f.pfmt.toNat * 2 ^ 40)),
   (mxAt + 0x28, leBytes 8 (f.sscl.toNat + f.slope.toNat * 2 ^ 32)),
   (mxAt + 0x30, leBytes 8 (f.qpos0.toNat + f.kpos.toNat * 2 ^ 21 + f.kend.toNat * 2 ^ 42)),
   (mxAt + 0x100, e.cs.toList.flatMap fun l => leBytes 4 l.toNat), (mxAt + 0x300, e.bias.toList.flatMap fun l => leBytes 4 l.toNat),
   (mxAt + 0x500, x.dsts.flatMap fun d => leBytes 2 d.toNat), (mxAt + 0x1000, x.w.toList.flatMap fun r => leBytes 256 r.toNat)] ++
  tilePatch (mxAt + 0x10000) more

/-- The reads of a save of core g with a live mask: the dirty regions of the scratchpad and the live banks of the accumulator
store, through their ports; false where an error has killed the context (R151, R155, R169). -/
def Mach.saveReads (m : Mach) (c : Fin 64) (g : Fin 256) (live : Word) : Mach × Bool :=
  let k := m.core g
  let r := m.portReads c g false (((List.range 768).filter fun r => k.dirty.getLsbD r).map fun r => (4096 * r, 4096))
  if r.2 then
    r.1.portReads c g true (((List.range 16).filter fun b => wb live (32 + b)).map fun b => (0x20000 * b, 0x20000))
  else r

/-- The slot of core g written for context c: CTRL, the live classes, the scratchpad image, MX's working state (R229,
R273). What the save does not name keeps its bytes (log entry 21). -/
def Mach.saveSlot (m : Mach) (c : Fin 64) (g : Fin 256) (reason : Nat) (live : Word) (record : Option (BitVec 48)) : Mach :=
  let k := m.core g
  let a := m.slotAt c g
  (ctrlPatch k reason live record ++ filePatch k live ++ [(0x240000, imageBytes k)] ++ mxPatch k.mx (if wb live 18 then (k.qt[2]).drop 4 else [])).foldl
    (fun (m : Mach) (p : Nat × List Byte) => m.ctxWrite c (a + p.1) p.2) m

/-- What a save keeps of a member beside its slot (R226; log entries 11 and 12). -/
def privOf (c : Core) : Priv where
  qn := Vector.ofFn fun (q : Fin 8) =>
    if q.val < 4 then (c.qt.toList.getD q.val []).length else (c.qw.toList.getD (q.val - 4) []).length
  owed := each c.eng fun (x : EngState) => x.owed
  ended := each c.eng fun (x : EngState) => x.ended
  hold := c.hold
  vbuf := c.vbuf
  cq := c.cq
  waits := each c.eng fun (x : EngState) => x.wait.map fun w => w.on

/-! ## Restoring -/

/-- A slot as a resumption reads it: n bytes at an offset. -/
abbrev SlotRead := Nat → Nat → List Byte

def SlotRead.w (rd : SlotRead) (a : Nat) : Word := BitVec.ofNat 64 (leVal (rd a 8))

/-- n tiles, words or FIFO entries from an offset. -/
def SlotRead.tiles (rd : SlotRead) (a n : Nat) : List Tile := (List.range n).map fun k => tileOfBytes (rd (a + 4096 * k) 4096)
def SlotRead.words (rd : SlotRead) (a n : Nat) : List Word := (List.range n).map fun k => rd.w (a + 8 * k)

/-- The loop stack that CTRL holds for an engine: the entries up to the first that is not valid (R230). -/
def readLoops (rd : SlotRead) (e : Engine) : List LoopEntry :=
  let at' (j : Nat) : Nat := 0x200 + 64 * engNo e + 16 * j
  ((List.range 4).takeWhile fun j => wb (rd.w (at' j + 8)) 32).map fun j =>
    ⟨(rd.w (at' j)).extractLsb' 0 22, (rd.w (at' j)).extractLsb' 22 22, (rd.w (at' j + 8)).extractLsb' 0 32⟩

/-- An engine as CTRL holds it. Walk counts restart after a pre-emption (R73, R230). -/
def readEng (rd : SlotRead) (p : Priv) (e : Engine) : EngState :=
  let w := rd.w (0x040 + 8 * engNo e)
  { pc := w.extractLsb' 0 22,
    walk := if leVal (rd 0 1) = 1 then 0 else (rd.w (0x080 + 8 * engNo e)).extractLsb' 0 32,
    loops := readLoops rd e, rep := w.extractLsb' 22 6, tokp := wb w 28,
    tgt := if wb w 29 then some (w.extractLsb' 30 8) else none,
    owed := p.owed[(engIx e).val], ended := p.ended[(engIx e).val], wait := none, job := none }

/-- The regions of the image, as a scratchpad; what is not in it reads zero (R169, R170). -/
def readSpad (rd : SlotRead) (base : Nat) : Memory :=
  let n := min (leVal (rd (base + 2) 2)) 768
  let dir := (List.range n).map fun k => leVal (rd (base + 0x42C0 + 4 * k) 4)
  let first := base + 0x42C0 + (4 * n + 63) / 64 * 64
  (dir.foldl (fun (x : Memory × Nat) w =>
    let len := 64 * fld w 16 7
    (Memory.write x.1 (4096 * fld w 0 10) (zrDecode (bit w 23) (rd x.2 len)), x.2 + len)) ([], first)).1

/-- A ring descriptor of the image (R162). -/
def readRing (ws : List Word) : Ring :=
  ⟨(blkW ws 0).extractLsb' 0 22, (blkW ws 0).extractLsb' 32 16, (blkW ws 0).extractLsb' 48 13,
   (blkW ws 1).extractLsb' 0 32, (blkW ws 1).extractLsb' 32 32, (blkW ws 2).extractLsb' 0 32,
   (blkW ws 2).extractLsb' 32 32, (blkW ws 3).extractLsb' 0 16, (blkW ws 3).extractLsb' 16 16⟩

def readBtm (ws : List Word) : BtmEntry :=
  ⟨(blkW ws 0).extractLsb' 0 16, (blkW ws 0).extractLsb' 16 16, (blkW ws 0).extractLsb' 32 32, wb (blkW ws 1) 0, wb (blkW ws 1) 1⟩

/-- MX's working state as a slot holds it (R273; log entry 12). -/
def readMx (rd : SlotRead) : MxState :=
  let w (k : Nat) : Word := rd.w (mxAt + 8 * k)
  let lanes (a : Nat) : Vector Lane 128 := Vector.ofFn fun (k : Fin 128) => BitVec.ofNat 32 (leVal (rd (mxAt + a + 4 * k.val) 4))
  { wty := (inTy (wf (w 0) 0 8)).toOption.getD .e4m3, keep := Fin.ofNat 9 (wf (w 0) 8 8),
    w := Vector.ofFn fun (k : Fin 128) => BitVec.ofNat 2048 (leVal (rd (mxAt + 0x1000 + 256 * k.val) 256)),
    epi := { csk := (w 2).extractLsb' 0 3, rsk := (w 2).extractLsb' 3 3, ben := wb (w 2) 6, act := (w 2).extractLsb' 7 4,
             ofmt := (w 2).extractLsb' 11 4, csaddr := (w 3).extractLsb' 0 22, baddr := (w 3).extractLsb' 32 22,
             rsaddr := (w 4).extractLsb' 0 22, soff := (w 2).extractLsb' 16 13, cs := lanes 0x100, bias := lanes 0x300 },
    cfg := { nrows := (w 4).extractLsb' 32 8, pfmt := wb (w 4) 40, sscl := (w 5).extractLsb' 0 32, slope := (w 5).extractLsb' 32 32,
             qpos0 := (w 6).extractLsb' 0 21, kpos := (w 6).extractLsb' 21 21, kend := (w 6).extractLsb' 42 21 },
    present := none, shape := (shape (wf (w 0) 16 8)).toOption.getD .s11, stream := (w 0).extractLsb' 32 16,
    dsts := (List.range (wf (w 1) 0 16)).map fun k => BitVec.ofNat 10 (leVal (rd (mxAt + 0x500 + 2 * k) 2)),
    taken := [] }

/-- What a resumption reads of a slot: CTRL and the small files, the live classes, the scratchpad image, MX's working state
(R121, R170, R366). -/
def restoreReads (rd : SlotRead) (p : Priv) : List (Nat × Nat) :=
  let on (b : Nat) : Bool := wb (rd.w 8) b
  let img := 0x240000
  let n := min (leVal (rd (img + 2) 2)) 768
  let first := img + 0x42C0 + (4 * n + 63) / 64 * 64
  let len := ((List.range n).map fun k => 64 * fld (leVal (rd (img + 0x42C0 + 4 * k) 4)) 16 7).sum
  let live (lo k base size : Nat) : List (Nat × Nat) :=
    ((List.range k).filter fun j => on (lo + j)).map fun j => (base + size * j, size)
  [(0, 0x4000)] ++ live 2 4 0x4000 0x8000 ++ live 6 1 0x24000 0x8000 ++ live 7 1 0x2C000 0x2000 ++ live 16 4 0x30000 0x4000 ++
    live 32 16 0x40000 0x20000 ++
    [(img, 0x42C0 + 4 * n), (first, len), (mxAt, 0x9000), (mxAt + 0x10000, 4096 * ((p.qn.toList.getD 2 0) - 4))]

/-- A core restored from a slot: every class of CTRL's live mask, the scratchpad image, MX's working state; classes
that are not live read zero, and their queues are empty (R121, R170, R230, R273). -/
def restoreCore (rd : SlotRead) (p : Priv) (c : Core) : Core :=
  let live := rd.w 8
  let on (b : Nat) : Bool := wb live b
  let img := 0x240000
  { c with
    s := Vector.ofFn fun (k : Fin 32) => if on 0 then rd.w (0x1000 + 8 * k.val) else 0
    a := Vector.ofFn fun (e : Fin 3) => Vector.ofFn fun (k : Fin 16) => if on 1 then rd.w (0x1100 + 0x80 * e.val + 8 * k.val) else 0
    m := Vector.ofFn fun (k : Fin 8) =>
      if k.val ≠ 0 && on 8 then BitVec.ofNat 1024 (leVal (rd (0x1400 + 0x80 * (k.val - 1)) 128)) else 0
    qw := Vector.ofFn fun (k : Fin 4) => if on (20 + k.val) then rd.words (0x1800 + 0x80 * k.val) (p.qn.toList.getD (4 + k.val) 0) else []
    out := Vector.ofFn fun (k : Fin 5) => (List.range (leVal (rd (0x180 + 8 * k.val) 1) % 128)).map fun j =>
      BitVec.ofNat 128 (leVal (rd (0x2000 + 0x400 * k.val + 16 * j) 16))
    v := Vector.ofFn fun (k : Fin 32) => if on (2 + k.val / 8) then tileOfBytes (rd (0x4000 + 0x1000 * k.val) 4096) else Tile.zero
    w := Vector.ofFn fun (k : Fin 8) => if on 6 then tileOfBytes (rd (0x24000 + 0x1000 * k.val) 4096) else Tile.zero
    z := Vector.ofFn fun (k : Fin 2) => if on 7 then tileOfBytes (rd (0x2C000 + 0x1000 * k.val) 4096) else Tile.zero
    qt := Vector.ofFn fun (k : Fin 4) =>
      let n := p.qn.toList.getD k.val 0
      if on (16 + k.val) then rd.tiles (0x30000 + 0x4000 * k.val) (min n 4) ++ rd.tiles (mxAt + 0x10000) (n - 4) else []
    acc := (List.range 16).foldl (fun x b => if on (32 + b) then Memory.write x (0x20000 * b) (rd (0x40000 + 0x20000 * b) 0x20000) else x) []
    eng := Vector.ofFn fun (k : Fin 6) => readEng rd p (engines.getD k.val .sc)
    tok := Vector.ofFn fun (k : Fin 36) => leVal (rd (0x0C0 + k.val) 1)
    slipw := (rd.w 0x100).extractLsb' 0 13
    round := Vector.ofFn fun (k : Fin 3) =>
      (rd.w ([0x108, 0x120, 0x130].getD k.val 0)).extractLsb' 0 3
    seed := Vector.ofFn fun (k : Fin 3) => rd.w ([0x110, 0x128, 0x138].getD k.val 0)
    btmcfg := Vector.ofFn fun (k : Fin 2) => wb (rd.w ([0x118, 0x140].getD k.val 0)) 0
    spad := readSpad rd img
    dirty := BitVec.ofNat 768 (leVal (rd (img + 8) 96))
    rings := Vector.ofFn fun (k : Fin 16) => readRing (rd.words (img + 0x80 + 32 * k.val) 4)
    btm := Vector.ofFn fun (k : Fin 1024) => readBtm (rd.words (img + 0x280 + 16 * k.val) 2)
    rp := Vector.ofFn fun (k : Fin 256) => BitVec.ofNat 2 (leVal (rd (img + 0x4280 + k.val / 4) 1) / 4 ^ (k.val % 4))
    mx := readMx rd
    hold := p.hold
    vbuf := p.vbuf
    cq := p.cq
    yieldable := false
    safe := none
    halt := none }

end Sys2Proof.Machine
end

