-- ==== Sys2Proof/Machine/Tasks.lean ====
section
/-!
DEFINITION. The life of a task: its start, its retirement, its stop at a safe point, its save and its resumption
(spec/02_execution.md R43, R44, R73; spec/03_encoding.md R119 to R121; spec/05_onchip_memory.md R168 to R170;
spec/06_copy_engines.md R191, R193; spec/07_consistency.md R212; spec/08_scheduling.md R218, R222 to R232).
-/
namespace Sys2Proof.Machine

/-! ## The text descriptor -/

/-- The descriptor of a text lies 64 bytes before it. That of TEXT 0 would lie below address 0; nothing is stated, and the
model's choice is the address modulo 2^48 (R118; log entry 113). -/
def textDesc (t : BitVec 42) : Nat := (t.toNat * 64 + 2 ^ 48 - 64) % 2 ^ 48

/-- A text descriptor, and the entry of the record, pass the dispatcher's check (R119). -/
def descOk (ws : List Word) (entry : PAddr) : Bool :=
  wf (blkW ws 0) 22 42 = 0 && wf (blkW ws 1) 48 16 = 0 && wf (blkW ws 2) 22 42 = 0 &&
  (List.range 5).all (fun k => blkW ws (3 + k) = 0) && wf (blkW ws 0) 0 22 ≠ 0 && wf (blkW ws 1) 0 4 = 0 &&
  entry.toNat < wf (blkW ws 0) 0 22

/-- A task with what its text descriptor gives, now running (R119). -/
def CoreTask.withDesc (t : CoreTask) (ws : List Word) : CoreTask :=
  { t with nparcel := (blkW ws 0).extractLsb' 0 22, mapaddr := (blkW ws 1).extractLsb' 0 48,
           mapcount := (blkW ws 2).extractLsb' 0 22, running := true }

/-- The trap of a task whose descriptor fails: ILLEGAL at ENTRY, before any engine executes a parcel (R119). Its record
names SC, the core of rank 0 and repetition 0, which the spec leaves open (log entry 32). -/
def Mach.badText (m : Mach) (g : Fin 256) (t : CoreTask) : Mach :=
  let p := BitVec.ofNat 64 (leVal ((m.fetch t t.entry.toNat).take 6))
  m.haltTask g (.trap ⟨.illegal, .sc, t.entry, 0, t.members.headD g, 0, 0, p⟩)

/-- The tasks of a record's members run, with their text's descriptor; they trap where it fails the check. -/
def Mach.runMembers (m : Mach) (g : Fin 256) (t : CoreTask) (set : Mach → Fin 256 → CoreTask → Mach) : Mach :=
  let r := m.access t.ctx (textDesc t.text) 64
  let ws := wordsOf 8 r.1
  let m := t.members.foldl (fun m k =>
    match (m.core k).task with
    | some x => set m k (x.withDesc ws)
    | none => m) r.2
  if descOk ws t.entry then m else m.badText g t

/-- A placed task of core g that has not started or been restored yet, and its record. -/
def Mach.placed (m : Mach) (g : Fin 256) : Option (CoreTask × Rec) :=
  match (m.core g).task with
  | some t => if t.running || (m.core g).halt.isSome then none else (m.getRec (dieOf g) t.recId).map fun r => (t, r)
  | none => none

/-! ## Start -/

/-- An engine at task start (R43). -/
def EngState.start (entry : PAddr) : EngState := { EngState.reset with pc := entry }

/-- A core at the start of a fresh record (R43, R69, R168, R272). -/
def Core.start (c : Core) (t : CoreTask) : Core :=
  { c with
    s := put (Vector.replicate 32 0) 1 (t.frame.setWidth 64)
    a := Vector.replicate 3 (Vector.replicate 16 0)
    v := Vector.replicate 32 Tile.zero
    w := Vector.replicate 8 Tile.zero
    z := Vector.replicate 2 Tile.zero
    m := Vector.replicate 8 0
    eng := Vector.replicate 6 (EngState.start t.entry)
    hold := none
    tok := Vector.replicate 36 0
    out := Vector.replicate 5 []
    qt := Vector.replicate 4 []
    qw := Vector.replicate 4 []
    cq := 0
    vbuf := none
    slipw := 256
    round := Vector.replicate 3 0
    seed := Vector.replicate 3 0
    btmcfg := Vector.replicate 2 true
    dirty := 0
    mx := MxState.reset
    task := some t
    wdog := none
    owes := none
    yieldable := false
    safe := none
    halt := none }

/-- A fresh task takes core k; while an invalidation of its context runs, it owes an acknowledgement (R191). -/
def Mach.startOn (m : Mach) (k : Fin 256) (t : CoreTask) : Mach :=
  let m := m.onCore k fun c => c.start t
  if (m.ctx t.ctx).busy then
    let now := m.clock k
    (m.onCore k fun c => { c with owes := some now }).onCtx t.ctx fun x => { x with owed := coreCode k :: x.owed }
  else m

/-- TASK_START: a placed fresh record starts on its member cores (R43, R119). -/
def execTaskStart (g : Fin 256) : State → Out := ready fun m =>
  match m.placed g with
  | some (t, r) => if r.reason = 0 then m.runMembers g t Mach.startOn else m
  | none => m

/-! ## Resumption -/

/-- SC stands past the TRAP or BKPT of its task (R236). -/
def Core.passTrap (c : Core) : Core := c.onE .sc fun x => x.advance 1

/-- Member k takes its task again from the save area (R170, R230). -/
def Mach.resumeOn (r : Rec) (m : Mach) (k : Fin 256) (t : CoreTask) : Mach :=
  let a := m.slotAt t.ctx k
  let rd : SlotRead := fun o n => m.devRead (m.sec t.ctx) (a + o) n
  let p := (r.priv[t.rank.val]?).getD (privOf (Core.reset))
  (m.noteReads t.ctx ((restoreReads rd p).map fun x => (a + x.1, x.2))).onCore k fun c =>
    let c := { restoreCore rd p c with task := some t }
    if r.past = some t.rank then c.passTrap else c

/-- TASK_RESUME: a placed saved record is restored on the cores it was saved from (R170, R212, R213, R230). -/
def execTaskResume (g : Fin 256) : State → Out := ready fun m =>
  match m.placed g with
  | some (t, r) => if r.reason = 0 then m else m.runMembers g t (Mach.resumeOn r)
  | none => m

/-! ## Leaving a core -/

/-- A core whose task has been saved, has retired or was killed: the stores presented to its port are performed, it
acknowledges what it owes and is idle (R191, R199, R212). -/
def Mach.freeCore (m : Mach) (g : Fin 256) : Mach :=
  ((m.drainStores g).ackCore g).onCore g fun c =>
    { c with task := none, halt := none, req := false, wdog := none, owes := none, yieldable := false, safe := none, hold := none }

/-! ## Retirement -/

/-- Node k of the running launch of context c has retired: the JOIN of each successor is decremented, in order
(R218). -/
def Mach.retireNode (m : Mach) (c : Fin 64) (k : Nat) : Mach :=
  let m := m.onCtx c fun x =>
    { x with nodes := x.nodes.zipIdx.map fun (p : Node × Nat) => if p.2 = k then { p.1 with retired := true } else p.1 }
  match (m.ctx c).nodes[k]? with
  | none => m
  | some n => n.succs.foldl (fun m s =>
      match (m.ctx c).nodes[s]? with
      | some q => m.decJoin c q.die q.recId
      | none => m) m

/-- A record retires (R218, R221, R223). -/
def Mach.retireRec (m : Mach) (d : Fin 4) (r : Rec) : Mach :=
  let m := m.dropRec d r
  let m := match r.node with | some k => m.retireNode r.ctx k | none => m
  (m.refresh r.ctx).scan d

/-- Every engine of the core stands at TEND (R44). -/
def Core.allEnded (c : Core) : Bool := c.eng.toList.all fun x => x.ended

/-- A queue register or token FIFO of the core holds an entry (R44). -/
def Core.leftovers (c : Core) : Bool :=
  c.qt.toList.any (fun l => !l.isEmpty) || c.qw.toList.any (fun l => !l.isEmpty) || c.tok.toList.any fun n => n ≠ 0

/-- A member retires: its commands that report by barrier stay open, and its command queue is free (R44, R172). -/
def Mach.retireCore (m : Mach) (g : Fin 256) : Mach :=
  let m := m.freeCore g
  { m with ops := m.ops.map fun (o : Op) => if o.core = g then { o with entry := false } else o }.onCore g fun c => { c with cq := 0 }

/-- TASK_RETIRE: every member of the task stands at TEND (R44, R218). -/
def execTaskRetire (g : Fin 256) : State → Out := ready fun m =>
  match (m.core g).task with
  | none => m
  | some t =>
    if !t.running || !t.members.all (fun k => (m.core k).allEnded && (m.core k).halt.isNone) then m
    else
      match t.members.find? fun k => (m.core k).leftovers with
      | some k =>
        let p := ((m.core k).e .sc).pc.toNat
        m.takeTrap k .sc .illegal 0 (BitVec.ofNat 64 (leVal ((m.fetch t p).take 6)))
      | none =>
        let m := t.members.foldl Mach.retireCore m
        match m.getRec (dieOf g) t.recId with
        | some r => m.retireRec (dieOf g) r
        | none => m

/-! ## Stopping and saving -/

/-- SC of a core under a request stands at a safe point: its parcel and live mask (R73, R120). -/
def Mach.atSafePoint (m : Mach) (g : Fin 256) : Option (PAddr × Word) :=
  let c := m.core g
  let x := c.e .sc
  match c.task with
  | none => none
  | some t =>
    if c.req && t.running && c.halt.isNone && c.hold.isNone && !x.ended && x.pc.toNat < t.nparcel.toNat then
      (m.safeAt t x.pc.toNat).map fun l => (x.pc, l)
    else none

/-- SAFE_POINT_STOP: SC stops at the safe point it has reached, and where the engines still on the way to it are
blocked on one another, the core traps DEADLOCK there (R73, R227). -/
def execSafePointStop (g : Fin 256) : State → Out := ready fun m =>
  match (m.core g).safe with
  | none => match m.atSafePoint g with
    | some p => (m.noteMap g).onCore g fun c => { c with safe := some p }
    | none => m
  | some (p, _) =>
    match m.deadlocked g with
    | some e => m.trapDeadlock g e (some p)
    | none => m

/-- Every engine of the core stands at the safe point at which SC has stopped (R73). -/
def Core.atSafe (c : Core) : Bool :=
  match c.safe with
  | some (p, _) => c.eng.toList.all fun x => x.pc = p && x.walk = (c.e .sc).walk && !x.ended
  | none => false

/-- The REASON with which the task on core g may be saved: a trap, a yield, a forced save, or a pre-emption whose
members have all stopped, not all of them at TEND (R226, R230, R232, R234). -/
def Mach.saveReason (m : Mach) (t : CoreTask) : Option Nat :=
  match t.members.findSome? fun k => (m.core k).halt with
  | some (.trap _) => some 3
  | some .yield | some .swap => some 2
  | some .forced => some 4
  | some .killed => none
  | none =>
    if t.running && t.members.all (fun k => (m.core k).atSafe || (m.core k).allEnded) &&
       t.members.any (fun k => (m.core k).atSafe) then some 1
    else none

/-- The live mask with which member k is saved (R121, R226, R230). -/
def Core.liveMask (c : Core) (reason : Nat) : Word :=
  match c.safe with
  | some (_, l) => if reason = 1 && !c.allEnded then l else allLive
  | none => allLive

/-- The trap that a saved task reports: the first in the dispatcher's order (R234). -/
def Mach.haltInfo (m : Mach) (t : CoreTask) : Option TrapInfo :=
  t.members.findSome? fun k => match (m.core k).halt with | some (.trap i) => some i | _ => none

/-- TRES may pass the parcel of a TRAP or BKPT (R236). -/
def TrapInfo.passable (i : TrapInfo) : Bool := i.cause = .trap || i.cause = .bkpt

/-- The reads of the save of several members; false where an error has killed the context (R151, R155). -/
def Mach.saveReadsAll (m : Mach) (c : Fin 64) (reason : Nat) : List (Fin 256) → Mach × Bool
  | [] => (m, true)
  | k :: ks =>
    let r := m.saveReads c k ((m.core k).liveMask reason)
    if r.2 then r.1.saveReadsAll c reason ks else r

/-- The save of a task: the slots, the record in state 4, the cores idle, and a scan (R212, R224, R226, R229 to
R232, R235). -/
def Mach.saveTask (m : Mach) (g : Fin 256) (t : CoreTask) (reason : Nat) : Mach :=
  let d := dieOf g
  let addr := (m.getRec d t.recId).bind (·.addr)
  let info := m.haltInfo t
  let yielded := t.members.any fun k => (m.core k).halt = some .yield
  let m := t.members.foldl (fun m k => (m.performStore k).drainStores k) m
  let r := m.saveReadsAll t.ctx reason t.members
  if !r.2 then r.1
  else
  let m := r.1
  let priv := t.members.map fun k => privOf (m.core k)
  let m := t.members.foldl (fun m k => m.saveSlot t.ctx k reason ((m.core k).liveMask reason) addr) m
  let m := t.members.foldl Mach.freeCore m
  let fresh := m.nextId
  let m := ({ m with nextId := fresh + 1 }).onRec d t.recId fun r =>
    { r with reason := reason, order := fresh, priv := priv, tseq := none, passOver := yielded,
             past := info.bind fun i => if i.passable then some i.rank else none }
  let m := match info with
    | some i =>
      let p : PendTrap := ⟨d, t.recId, i⟩
      m.onCtx t.ctx fun x => { x with pendTraps := x.pendTraps ++ [p] }
    | none => m
  (m.setState d t.recId .saved).scan d

/-- Commands that the task on core g has issued and that have not completed (R193). -/
def Mach.openCommands (m : Mach) (t : CoreTask) : Bool := m.ops.any fun o => t.members.contains o.core && o.entry

/-- A repetition or a load that a member has issued has not ended (R72, R199). -/
def Mach.inRepetition (m : Mach) (t : CoreTask) : Bool :=
  t.members.any fun k => (m.core k).loading || (m.core k).eng.toList.any fun x => x.job.isSome

/-- TASK_SAVE: a task that has stopped is saved once its repetitions and its commands have completed (R72, R193, R212). -/
def execTaskSave (g : Fin 256) : State → Out := ready fun m =>
  match (m.core g).task with
  | none => m
  | some t =>
    match m.saveReason t with
    | some r => if m.openCommands t || m.inRepetition t then m else m.saveTask g t r
    | none => m

/-! ## Yieldable waits -/

/-- SPIN_THRESHOLD: a wait of SPIN clocks makes the task yieldable, and it is swapped out where a record qualifies
that the swaps under way do not serve (R231; log entry 86). -/
def execSpinThreshold (g : Fin 256) : State → Out := ready fun m =>
  let c := m.core g
  match c.task with
  | none => m
  | some t =>
    let now := c.halt.isNone && t.running && c.eng.toList.any (fun x => m.spun g x)
    let m := m.onCore g fun c => { c with yieldable := now }
    match (if now then (m.afterSwaps (dieOf g)).swappable g else none) with
    | some p => m.swapOut g .swap p
    | none => m

/-! ## The watchdog of an invalidation -/

/-- WATCHDOG_REQUEST: a core that has owed its acknowledgement for TWDOG clocks is sent a request (R191, R225). -/
def execWatchdogRequest (g : Fin 256) : State → Out := ready fun m =>
  let c := m.core g
  match c.task, c.owes with
  | some t, some since =>
    if c.wdog.isSome || !t.running || (m.clock g - since).toNat < (m.ctx t.ctx).twdog.toNat then m
    else
      let now := m.clock g
      let m := t.members.foldl (fun m k => m.onCore k fun c =>
        { c with req := true, wdog := match c.wdog with | some w => some w | none => some now }) m
      m.onCtx t.ctx fun x => { x with wd := true }
  | _, _ => m

/-- FORCED_SAVE: a member that has not stopped within TWDOG clocks of its watchdog request stops its task where it
stands, to be saved whole (R232). -/
def execForcedSave (g : Fin 256) : State → Out := ready fun m =>
  let c := m.core g
  match c.task, c.wdog with
  | some t, some since =>
    if c.halt.isSome || c.atSafe || c.allEnded || (m.clock g - since).toNat < (m.ctx t.ctx).twdog.toNat then m
    else m.haltTask g .forced
  | _, _ => m

end Sys2Proof.Machine
end

