-- ==== Sys2Proof/Machine/Launch.lean ====
section
/-!
DEFINITION. Launches of a context: replay and its graph, their end, trap records and TRES, suspension, completion
interrupts, invalidations and fault records as the host drives them, kills (spec/08_scheduling.md R214 to R220, R225,
R228, R234 to R236, R240; spec/06_copy_engines.md R187, R191, R194; spec/14_host_security.md R358;
spec/01_organisation.md R27).
-/
namespace Sys2Proof.Machine

/-- An agent may write the control page of context c: the host may not where the context is secure (R365). -/
def Mach.mayWrite (m : Mach) (ag : Agent) (c : Fin 64) : Bool := ag = .oculus || !m.sec c

/-- A register write: the host's at any time, Oculus's once firmware runs (R8, R361). -/
def regWrite (ag : Agent) (f : Mach → Mach) (s : State) : Out :=
  if ag = .host || s.boot.state = 2 then .next { s with m := f s.m } else .next s

/-- A write of a control page by an agent that may write it. -/
def ctlWrite (ag : Agent) (c : Fin 64) (f : Mach → Mach) : State → Out := regWrite ag fun m => if m.mayWrite ag c then f m else m

/-! ## Graphs -/

/-- A node as the graph names it (R215). -/
structure GNode where
  tmpl : List Word
  die : Fin 4
  succs : List Nat
  deriving DecidableEq, Repr

/-- Entry k of a successor array. -/
def Mach.succAt (m : Mach) (c : Fin 64) (a k : Nat) : Nat := leVal (m.devRead (m.sec c) (a + 4 * k) 4)

/-- Node i of a graph, where its own fields are well formed (R42, R215, R216). -/
def Mach.nodeAt (m : Mach) (c : Fin 64) (nodes succs nsucc i : Nat) : Option GNode :=
  let ws := wordsOf 8 (m.devRead (m.sec c) (nodes + 64 * i) 64)
  let first := wf (blkW ws 5) 0 32
  let n := wf (blkW ws 5) 32 16
  if recBad ws || recCtx ws ≠ c || wf (blkW ws 4) 2 62 ≠ 0 || wf (blkW ws 5) 48 16 ≠ 0 || blkW ws 6 ≠ 0 || blkW ws 7 ≠ 0 ||
     (n ≠ 0 && nsucc < first + n) then none
  else some ⟨ws.take 4, toDie (wf (blkW ws 4) 0 2), (List.range n).map fun k => m.succAt c succs (first + k)⟩

/-- The nodes of a list with their indices. -/
def numbered (l : List GNode) : List (Nat × GNode) := (List.range l.length).zip l

/-- Nodes that no remaining node names are taken away until none is left; what is left otherwise holds a cycle (R216). -/
def acyclic : Nat → List (Nat × GNode) → Bool
  | 0, l => l.isEmpty
  | n + 1, l =>
    let named := l.flatMap fun x => x.2.succs
    let rest := l.filter fun x => named.contains x.1
    if rest.isEmpty then true else if rest.length = l.length then false else acyclic n rest

/-- The JOIN of every node is the number of successor entries that name it (R216). -/
def joinsOk (l : List GNode) : Bool :=
  (numbered l).all fun x => wf (blkW x.2.tmpl 1) 48 16 = (l.map fun y => (y.succs.filter fun s => s = x.1).length).sum

/-- The graph at an address, where it is not malformed; an entry of the successor array that belongs to no node's range is
tested for its reserved bits and not for its index. Bits [63:48] of words 0x08 and 0x10 of the header, which R215 does not
list, count as reserved; this is the model's choice (R215, R216; log entries 24, 101 and 115). -/
def Mach.graph (m : Mach) (c : Fin 64) (a : Nat) : Option (List GNode) :=
  let ws := wordsOf 8 (m.devRead (m.sec c) a 64)
  let n := wf (blkW ws 0) 0 17
  let nodes := wf (blkW ws 1) 0 48
  let succs := wf (blkW ws 2) 0 48
  let ns := wf (blkW ws 3) 0 32
  if a % 64 ≠ 0 || n = 0 || 65536 < n || !hiZero ws 0 17 || !hiZero ws 1 48 || !hiZero ws 2 48 || !hiZero ws 3 32 ||
     (List.range 4).any (fun k => blkW ws (4 + k) ≠ 0) || nodes % 64 ≠ 0 || succs % 4 ≠ 0 ||
     (List.range ns).any (fun k => 65536 ≤ m.succAt c succs k) then none
  else
    let l := (List.range n).filterMap fun i => m.nodeAt c nodes succs ns i
    if l.length = n && l.all (fun x => x.succs.all fun s => s < n) && joinsOk l && acyclic n (numbered l) then some l else none

/-- What reading the graph reports and retries (R365, R366). -/
def Mach.noteGraph (m : Mach) (c : Fin 64) (a : Nat) : Mach :=
  let ws := wordsOf 8 (m.devRead (m.sec c) a 64)
  (((m.access c a 64).2.access c (wf (blkW ws 1) 0 48) (64 * wf (blkW ws 0) 0 17)).2.access c (wf (blkW ws 2) 0 48)
    (4 * wf (blkW ws 3) 0 32)).2

/-- Node i is built: its record at RECBASE + 32·i, in the queue of its die (R217). -/
def Mach.buildNode (m : Mach) (c : Fin 64) (i : Nat) (n : GNode) : Mach :=
  let a : BitVec 48 := BitVec.ofNat 48 ((m.ctx c).cur.recbase.toNat + 32 * i)
  let node : Node := ⟨n.die, m.nextId, n.succs, false⟩
  let m := (m.ctxWrite c a.toNat (n.tmpl.flatMap wordBytes)).onCtx c fun x => { x with nodes := x.nodes ++ [node] }
  m.addRec n.die (mkRec m (some a) n.tmpl c (some i))

/-- A graph is built and its ready nodes are placed (R217, R223, R224). -/
def Mach.buildGraph (m : Mach) (c : Fin 64) (l : List GNode) : Mach :=
  let m := (numbered l).foldl (fun m x => m.buildNode c x.1 x.2) m
  dieNums.foldl (fun m d => m.scan d) (m.refresh c)

/-! ## Replay -/

/-- RUN is 1, or a kill is not quiet: a REPLAY is discarded (R217). -/
def Ctx.replayBlocked (x : Ctx) : Bool := x.run || (x.killing && !x.quiet)

/-- A launch begins: RUN, the registers that take effect at a replay, the trap records so far (R214, R217, R240,
R358). -/
def Ctx.launched (x : Ctx) : Ctx :=
  { x with run := true, killing := false, quiet := false, cur := x.regs, trseen := x.trhead, nodes := [] }

/-- A REPLAY write (R217). -/
def Mach.replay (m : Mach) (c : Fin 64) (gaddr : Nat) : Mach :=
  if (m.ctx c).replayBlocked then m.onCtx c fun x => { x with drop := true }
  else
    let m := (m.onCtx c Ctx.launched).noteGraph c gaddr
    match m.graph c gaddr with
    | none => m.abort c 1
    | some l =>
      if l.any fun n => m.unplaceable n.die (recGang n.tmpl) then m.abort c 2
      else m.buildGraph c l

/-- REPLAY: bits [47:0] are the address of the graph; before STATE is 2 no context runs (R214, R361). -/
def execReplay (ag : Agent) (c : Fin 64) (v : BitVec 64) : State → Out :=
  ready fun m => if m.mayWrite ag c then m.replay c (wf v 0 48) else m

/-! ## The end of a launch -/

/-- An operation of context c is under way: a command, a Belfry hop, its arrival included, a Cupola row, a Lantern
program (R207, R219; log entry 108). -/
def Mach.working (m : Mach) (c : Fin 64) : Bool :=
  m.ops.any (fun o => o.ctx = c) || m.arrivals.any (fun a => a.ctx = c) ||
  dieNums.any fun d =>
    let x := m.die d
    x.belfry.slots.toList.any (fun (s : BSlot) => s.running && s.ctx = c) ||
    x.cup.accepted.any (fun r => r.ctx = c) ||
    x.lan.queue.any (fun p => p.ctx = c) || (match x.lan.run with | some r => r.prog.ctx = c | none => false)

/-- The launch of context c may end (R219). -/
def Mach.launchOver (m : Mach) (c : Fin 64) : Bool :=
  (m.ctx c).run && !(m.ctx c).killing && (m.ctx c).nodes.all (fun n => n.retired) && (m.recsOf c).isEmpty && !m.working c

/-- LAUNCH_END: the launch of a context ends with cause NONE (R219, R240). -/
def execLaunchEnd (c : Fin 64) : State → Out := ready fun m => if m.launchOver c then m.endLaunch c 0 else m

/-! ## Suspension and interrupts -/

/-- A write of SUSP: 1 sends a request to every running task of the context, 0 lets its records be placed (R214, R224,
R225). -/
def Mach.suspend (m : Mach) (c : Fin 64) (on : Bool) : Mach :=
  let m := m.onCtx c fun x => { x with susp := on }
  if on then m.request (m.coresOf c) else dieNums.foldl (fun m d => m.scan d) m

/-- SUSP (R214, R225). -/
def execSusp (ag : Agent) (c : Fin 64) (v : BitVec 64) : State → Out := ctlWrite ag c fun m => m.suspend c (wb v 0)

/-- A write of COAL: CNT and WIN, and the message where the count has been reached (R214, R240). -/
def Mach.setCoal (m : Mach) (c : Fin 64) (v : Word) : Mach :=
  (m.onCtx c fun x => { x with coalCnt := v.extractLsb' 0 8, coalWin := v.extractLsb' 8 32 }).coalesce c

/-- COAL (R240). -/
def execCoal (ag : Agent) (c : Fin 64) (v : BitVec 64) : State → Out := ctlWrite ag c fun m => m.setCoal c v

/-- COAL_WINDOW_EXPIRY: WIN clocks of die 0 after the oldest pending completion, the message is sent (R240). -/
def execCoalWindowExpiry (c : Fin 64) : State → Out := ready fun m =>
  let x := m.ctx c
  if x.coalCnt ≠ 0 && x.coalWin ≠ 0 && x.pendCnt ≠ 0 && x.coalWin.toNat ≤ ((m.die 0).cycle - x.pendAt).toNat then
    (m.onCtx c fun x => { x with pendCnt := 0 }).raise (Fin.ofNat 130 c.val)
  else m

/-! ## Trap records -/

/-- The code of a cause (R234). -/
def Cause.code : Cause → Nat
  | .illegal => 1 | .btmMiss => 2 | .spadRange => 3 | .align => 4 | .queueDir => 5 | .priv => 6 | .trap => 7
  | .bkpt => 8 | .cmdMalformed => 9 | .deadlock => 10

/-- The 64 bytes of a trap record (R235). -/
def trapBytes (i : TrapInfo) (r : Rec) (tseq : BitVec 32) : List Byte :=
  leBytes 8 (Cause.code i.cause + (engIx i.engine).val * 2 ^ 8 + tseq.toNat * 2 ^ 32) ++
  leBytes 8 (i.padr.toNat + i.repi.toNat * 2 ^ 22) ++ leBytes 8 (i.core.val + i.rank.val * 2 ^ 8) ++
  leBytes 8 ((r.addr.getD 0).toNat) ++ leBytes 8 (r.taskid.toNat + i.code.toNat * 2 ^ 32) ++ wordBytes i.info ++ leBytes 16 0

/-- The words of the trap continuation: the template with JOIN and DSTATE 0, TASKID the sequence number (R235). -/
def contWords (ws : List Word) (tseq : BitVec 32) : List Word :=
  [blkW ws 0, setF (blkW ws 1) 48 16 0, setF (blkW ws 2) 32 32 0, setF (blkW ws 3) 0 32 tseq.toNat]

/-- After a trap record: the continuation, or the end of the launch (R235). -/
def Mach.continueTrap (m : Mach) (c : Fin 64) (d : Fin 4) (tseq : BitVec 32) : Mach :=
  let x := m.ctx c
  if !x.cur.ten then m.abort c 3
  else
    let r := m.access c x.cur.tcont.toNat 32
    let ws := contWords (wordsOf 4 r.1) tseq
    let m := r.2
    if recBad ws || m.unplaceable d (recGang ws) then m.abort c 3
    else (m.addRec d (mkRec m none ws c none)).scan d

/-- TRAP_RECORD: the oldest trap of the context is recorded once the ring has room (R235). -/
def Mach.recordTrap (m : Mach) (c : Fin 64) : Mach :=
  let x := m.ctx c
  match x.pendTraps with
  | [] => m
  | p :: rest =>
    if (x.trhead - x.trtail).toNat = 2 ^ x.cur.ltrn.toNat then m
    else
      let m := m.onCtx c fun x => { x with pendTraps := rest, trhead := x.trhead + 1 }
      match m.getRec p.die p.recId with
      | none => m
      | some r =>
        let m := m.ctxWrite c (x.cur.trbase.toNat + 64 * (x.trhead.toNat % 2 ^ x.cur.ltrn.toNat)) (trapBytes p.info r x.trhead)
        (m.onRec p.die p.recId fun r => { r with tseq := some x.trhead }).continueTrap c p.die x.trhead

/-- TRAP_RECORD (R235). -/
def execTrapRecord (c : Fin 64) : State → Out := ready fun m => m.recordTrap c

/-- The saved record that a trap's sequence number names (R236). -/
def Mach.trapped (m : Mach) (c : Fin 64) (q : BitVec 32) : Option (Fin 4 × Rec) :=
  (m.recsOf c).find? fun x => x.2.state = .saved && x.2.reason = 3 && x.2.tseq = some q

/-- A trapped task may be placed again, at its parcel or past it (R224, R236). -/
def Mach.tres (m : Mach) (c : Fin 64) (q : BitVec 32) (past : Bool) : Mach :=
  match m.trapped c q with
  | some (d, r) => (m.onRec d r.id fun r => { r with reason := 5, past := if past then r.past else none }).scan d
  | none => m

/-- TRES, ACT 0 (R236). -/
def execTresResume (ag : Agent) (c : Fin 64) (q : BitVec 32) : State → Out := ctlWrite ag c fun m => m.tres c q false

/-- TRES, ACT 1: past a TRAP or BKPT, otherwise as ACT 0 (R236). -/
def execTresResumePast (ag : Agent) (c : Fin 64) (q : BitVec 32) : State → Out := ctlWrite ag c fun m => m.tres c q true

/-- TRES, ACT 2: the task retires as at TEND, its state discarded (R236). -/
def Mach.tresRetire (m : Mach) (c : Fin 64) (q : BitVec 32) : Mach :=
  match m.trapped c q with
  | some (d, r) => m.retireRec d r
  | none => m

/-- TRES, ACT 2 (R236). -/
def execTresRetire (ag : Agent) (c : Fin 64) (q : BitVec 32) : State → Out := ctlWrite ag c fun m => m.tresRetire c q

/-- TRES, ACT 3: the launch ends with HOST_ABORT (R236). -/
def Mach.tresAbort (m : Mach) (c : Fin 64) (q : BitVec 32) : Mach :=
  match m.trapped c q with
  | some _ => m.abort c 8
  | none => m

/-- TRES, ACT 3 (R236). -/
def execTresAbort (ag : Agent) (c : Fin 64) (q : BitVec 32) : State → Out := ctlWrite ag c fun m => m.tresAbort c q

/-! ## Translation: invalidations and fault records -/

/-- A write of TINV starts an invalidation of the range in TINVR (R191, R192). -/
def Mach.tinv (m : Mach) (c : Fin 64) (v : Word) : Mach :=
  let x := m.ctx c
  m.startInval c ⟨v.extractLsb' 0 20, wb v 20, x.tinvrFirst.toNat, x.tinvrNt.toNat, false⟩

/-- TINV (R191). -/
def execTinv (ag : Agent) (c : Fin 64) (v : BitVec 64) : State → Out := ctlWrite ag c fun m => m.tinv c v

/-- FRES: fault record n is consumed (R187). -/
def execFres (ag : Agent) (c : Fin 64) (v : BitVec 64) : State → Out :=
  ctlWrite ag c fun m => m.consume c (Fin.ofNat 16 (wf v 0 4))

/-! ## Kills -/

/-- KILL: GO 1 kills the context, and a running launch ends with HOST_ABORT (R194, R358). -/
def execKill (ag : Agent) (c : Fin 64) (v : BitVec 64) : State → Out := ctlWrite ag c fun m => if wb v 0 then m.abort c 8 else m

/-- An agent can acknowledge the kill: its writes have been accepted, and what it may still finish is finished (R194,
steps 2 to 4). -/
def Mach.canAck (m : Mach) (c : Fin 64) (code : BitVec 16) : Bool :=
  !(m.outbox.any fun o => o.msg.ctx = c) &&
  !(code.toNat < 0x100 && (m.core (toCore code.toNat)).eng.toList.any fun x => x.job.isSome) &&
  !(dieNums.any fun d => unitCode d .belfry = code && (m.die d).belfry.evicts.any fun e => e.ctx = c && e.ret) &&
  !(m.ops.any fun o => o.ctx = c && (coreCode o.core = code || unitCode o.die o.unit = code))

/-- The units of a killed context let go of it: Belfry's slots are unbound, the gatherer's configuration is released
(R394, R419). -/
def Mach.unbindAll (m : Mach) (c : Fin 64) : Mach :=
  dieNums.foldl (fun m d =>
    let m := m.onBelfry d fun b => { b with slots := each b.slots fun (s : BSlot) => if s.bound && s.ctx = c then BSlot.reset else s }
    m.onGat d fun g =>
      match g.cfg with
      | some k => if k.ctx = c then { Gatherer.reset with gseq := g.gseq, tcache := g.tcache } else g
      | none => g) m

/-- The kill is quiet once every agent has acknowledged and step 6 is done (R194, steps 6 and 7). -/
def Mach.settleKill (m : Mach) (c : Fin 64) : Mach :=
  if (m.ctx c).killOwed.isEmpty then ((m.killStep6 c).unbindAll c).onCtx c fun x => { x with quiet := true } else m

/-- KILL_ACKNOWLEDGE: an agent acknowledges; a core becomes idle with it (R194, R224). -/
def Mach.killAck (m : Mach) (c : Fin 64) (code : BitVec 16) : Mach :=
  if !((m.ctx c).killing && (m.ctx c).killOwed.contains code && m.canAck c code) then m
  else
    let m := m.onCtx c fun x => { x with killOwed := x.killOwed.filter (· ≠ code) }
    let m :=
      if code.toNat < 0x100 then
        let g := toCore code.toNat
        ((m.freeCore g).onCore g fun k => { k with cq := 0 }).scan (dieOf g)
      else m
    m.settleKill c

/-- KILL_ACKNOWLEDGE (R194). -/
def execKillAcknowledge (c : Fin 64) (code : BitVec 16) : State → Out := ready fun m => m.killAck c code

/-! ## Power -/

/-- POWER_CONTROLLER_WINDOW: the count of a window restarts. A withheld slot delays an instruction and changes nothing
else, and neither the count nor the slots can be observed (R27). -/
def execPowerControllerWindow (_d : Fin 4) : State → Out := ready id

end Sys2Proof.Machine
end

