-- ==== Sys2Proof/Machine/Registers.lean ====
section
/-!
DEFINITION. The registers that agents outside the cores read and write: control pages, the unit blocks, the region
registers and the MSI-X table (spec/00_scope.md R8, R10; spec/01_organisation.md R32 to R36; spec/06_copy_engines.md
R186, R192; spec/08_scheduling.md R214, R220; spec/09_tiers.md R245; spec/11_kv_paging.md R293, R294;
spec/12_sampler.md R313; spec/13_collectives.md R335; spec/14_host_security.md R357, R358, R365, R496;
spec/16_reference_m_u.md R411; log entries 25 and 26).
-/
namespace Sys2Proof.Machine

/-! ## Words on the bus -/

/-- A write of a 64-bit register: the bits it carries, and their values. -/
structure RegW where
  mask : Word
  v : Word
  deriving DecidableEq, Repr

/-- What a register that stores holds after the write (R8, RW). -/
def RegW.over (w : RegW) (old : Word) : Word := (old &&& ~~~w.mask) ||| (w.v &&& w.mask)

/-- The bits written with 1 (R8, W1C), or the value for a register that acts (R8, WO). -/
def RegW.ones (w : RegW) : Word := w.v &&& w.mask

/-- The bytes of a size. -/
def Size.bytes : Size → Nat
  | .b1 => 1 | .b2 => 2 | .b4 => 4 | .b8 => 8

/-- The write that an access of a size at an offset makes to the register that holds it. -/
def regW (off : Nat) (size : Size) (v : Word) : RegW :=
  let sh := 8 * (off % 8)
  let mask : Word := BitVec.ofNat 64 ((2 ^ (8 * Size.bytes size) - 1) * 2 ^ sh)
  ⟨mask, BitVec.ofNat 64 (v.toNat * 2 ^ sh)⟩

/-- Two 32-bit fields as a word, the first low. -/
def two (lo hi : BitVec 32) : Word := hi ++ lo

/-- A flag as a word's bit. -/
def bitAt (b : Bool) (n : Nat) : Word := BitVec.ofNat 64 (b.toNat * 2 ^ n)

/-! ## Enumeration -/

/-- Cores present on a die and in the package (R33, R36). -/
def coreCount (f : Fuses) (d : Fin 4) : Nat := popcount (f.cores[d.val])

/-- EDEV (R33). -/
def edev (f : Fuses) : Word :=
  BitVec.ofNat 64 (0x2560 + f.step.toNat * 2 ^ 16 + 2 ^ 20 + 4 * 2 ^ 24 + 64 * 2 ^ 27 +
    ((dieNums.map (coreCount f)).sum % 256) * 2 ^ 34)

/-- EPORT of a die (R36). -/
def eport (f : Fuses) (d : Fin 4) : Word :=
  BitVec.ofNat 64 ((f.bulk[d.val]).toNat + (f.fab[d.val]).toNat * 2 ^ 8 + (f.cxl[d.val]).toNat * 2 ^ 12 + coreCount f d * 2 ^ 16)

/-- The device information block (R32 to R36). -/
def infoRead (f : Fuses) (off : Nat) : Word :=
  if off = 0 then edev f
  else
    let d := toDie (off / 0x40 - 1)
    if 0x40 ≤ off && off < 0x140 then
      (match off % 0x40 with
       | 0x00 => f.cores[d.val]
       | 0x08 => f.pch[d.val]
       | 0x10 => eport f d
       | _ => 0)
    else 0

/-! ## Control pages -/

/-- A word of fault record n (R186). -/
def frecWord (r : FaultRec) (k : Nat) : Word :=
  match k with
  | 0 => r.tensor.setWidth 64 ||| bitAt r.valid 63
  | 1 => r.block.setWidth 64
  | 2 => r.bitmap
  | _ => r.nstop.setWidth 64

/-- A word of the frame-stack registers from 0x610 on: FSB, or FCNT and FCAP, of stage and bulk of each die (R245). -/
def stackWord (x : Ctx) (k : Nat) : Word :=
  let i := k / 2
  if k % 2 = 0 then ((x.fsb.toList.getD i 0)).setWidth 64 else two (x.fcnt.toList.getD i 0) (x.fcap.toList.getD i 0)

/-- A control-page register as Oculus reads it, at a multiple of 8 (R192, R214, R220, R245, R358, R411). -/
def Ctx.read (x : Ctx) (off : Nat) : Word :=
  match off with
  | 0x008 => bitAt x.run 0 ||| bitAt x.drop 1 ||| BitVec.ofNat 64 (x.cause.toNat * 2 ^ 8) ||| two 0 x.lseq
  | 0x010 => x.cwaddr
  | 0x018 => BitVec.ofNat 64 (x.coalCnt.toNat + x.coalWin.toNat * 2 ^ 8)
  | 0x020 => BitVec.ofNat 64 (x.regs.trbase.toNat + x.regs.ltrn.toNat * 2 ^ 48)
  | 0x028 => two x.trhead x.trtail
  | 0x030 => x.regs.tcont.setWidth 64 ||| bitAt x.regs.ten 48
  | 0x040 => x.regs.savebase.setWidth 64
  | 0x048 => x.spin.setWidth 64
  | 0x050 => bitAt x.susp 0
  | 0x058 => x.regs.recbase.setWidth 64
  | 0x060 => bitAt x.dlk 0 ||| BitVec.ofNat 64 (x.dlen.toNat * 2 ^ 8)
  | 0x208 => two x.tinvrFirst x.tinvrNt
  | 0x210 => bitAt x.busy 0 ||| bitAt x.wd 1 ||| two 0 x.done
  | 0x218 => x.twdog.setWidth 64
  | 0x220 => x.tdbase.setWidth 64
  | 0x230 => x.stray.setWidth 64
  | 0x238 => bitAt x.killing 0 ||| bitAt x.quiet 1
  | 0x600 => x.otbase.setWidth 64
  | 0x608 => x.nobj.setWidth 64
  | 0x800 => x.regs.nrbase
  | 0x808 => x.regs.lnr.setWidth 64 ||| bitAt x.nen 8
  | 0x810 => two x.nrhead x.nrtail
  | 0x818 => x.nlost.setWidth 64
  | _ =>
    if 0x400 ≤ off && off < 0x600 then frecWord ((x.frec.toList.getD ((off - 0x400) / 32) FaultRec.reset)) ((off - 0x400) / 8 % 4)
    else if 0x610 ≤ off && off < 0x690 then stackWord x ((off - 0x610) / 8)
    else if 0xA00 ≤ off && off < 0xC00 then x.gp.toList.getD ((off - 0xA00) / 8) 0
    else 0

/-- Registers that take effect at a replay: at once while no launch runs (R214, R411). -/
def Ctx.latch (x : Ctx) (f : Latched → Latched) : Ctx :=
  let r := f x.regs
  { x with regs := r, cur := if x.run then x.cur else r }

/-- A write of a control-page register that stores or clears bits and does nothing more (R8, R192, R214, R220, R245,
R411). -/
def Ctx.write (x : Ctx) (off : Nat) (w : RegW) : Ctx :=
  let v := w.over (x.read off)
  let b := w.ones
  match off with
  | 0x008 => { x with drop := x.drop && !wb b 1 }
  | 0x010 => if wf v 0 4 ≠ 0 then x else { x with cwaddr := v }
  | 0x020 =>
    if 13 ≤ wf v 48 4 then x else x.latch fun r => { r with trbase := v.extractLsb' 0 48, ltrn := v.extractLsb' 48 4 }
  | 0x028 => { x with trtail := v.extractLsb' 32 32 }
  | 0x030 => x.latch fun r => { r with tcont := v.extractLsb' 0 48, ten := wb v 48 }
  | 0x040 => x.latch fun r => { r with savebase := v.extractLsb' 0 48 }
  | 0x048 => if wf v 0 32 < 256 then x else { x with spin := v.extractLsb' 0 32 }
  | 0x058 => x.latch fun r => { r with recbase := v.extractLsb' 0 48 }
  | 0x060 => { x with dlk := x.dlk && !wb b 0 }
  | 0x208 => { x with tinvrFirst := v.extractLsb' 0 32, tinvrNt := v.extractLsb' 32 32 }
  | 0x210 => { x with wd := x.wd && !wb b 1 }
  | 0x218 => if wf v 0 32 = 0 then x else { x with twdog := v.extractLsb' 0 32 }
  | 0x220 => { x with tdbase := v.extractLsb' 0 48 }
  | 0x230 => { x with stray := x.stray &&& ~~~(b.extractLsb' 0 32) }
  | 0x600 => { x with otbase := v.extractLsb' 0 48 }
  | 0x608 => { x with nobj := v.extractLsb' 0 20 }
  | 0x800 => if wf v 0 4 ≠ 0 then x else x.latch fun r => { r with nrbase := v }
  | 0x808 =>
    if 12 < wf v 0 4 then x else { x.latch fun r => { r with lnr := v.extractLsb' 0 4 } with nen := wb v 8 }
  | 0x810 => { x with nrtail := v.extractLsb' 32 32 }
  | _ =>
    if 0x610 ≤ off && off < 0x690 then
      let k := (off - 0x610) / 8
      let i := Fin.ofNat 8 (k / 2)
      if k % 2 = 0 then { x with fsb := put x.fsb i (v.extractLsb' 0 48) }
      else { x with fcnt := put x.fcnt i (v.extractLsb' 0 32), fcap := put x.fcap i (v.extractLsb' 32 32) }
    else if 0xA00 ≤ off && off < 0xC00 then { x with gp := put x.gp (Fin.ofNat 64 ((off - 0xA00) / 8)) v }
    else x

/-- TRES with its ACT (R236). -/
def Mach.tresAct (m : Mach) (c : Fin 64) (v : Word) : Mach :=
  let q := v.extractLsb' 0 32
  match wf v 32 2 with
  | 0 => m.tres c q false
  | 1 => m.tres c q true
  | 2 => m.tresRetire c q
  | _ => m.tresAbort c q

/-- A write of any control-page register of context c (R8, R214, R192, R220, R358). -/
def Mach.pageWrite (m : Mach) (c : Fin 64) (off : Nat) (w : RegW) : Mach :=
  match off with
  | 0x000 => m.replay c (wf w.ones 0 48)
  | 0x018 => m.setCoal c (w.over ((m.ctx c).read off))
  | 0x038 => m.tresAct c w.ones
  | 0x050 => m.suspend c (wb (w.over ((m.ctx c).read off)) 0)
  | 0x200 => m.tinv c w.ones
  | 0x220 => (m.onCtx c fun x => x.write off w).dropCached c
  | 0x228 => m.consume c (Fin.ofNat 16 (wf w.ones 0 4))
  | 0x700 => if wb w.ones 0 then m.abort c 8 else m
  | _ =>
    let m := if 0xA00 ≤ off && off < 0xC00 then m.atGp c gpHost else m
    m.onCtx c fun x => x.write off w

/-! ## Zeroing device memory -/

/-- n bytes of device memory written as zero by an agent of a world (R365, R495). -/
def Mach.devZero (m : Mach) (sec : Bool) (a n : Nat) : Mach :=
  { m with dev := m.dev.filter fun x => !(a ≤ x.1 && x.1 < a + n && m.mayTouch sec x.1) }

/-- Oculus writes as secure firmware, the host as the non-secure world (R365). -/
def agentSec (ag : Agent) : Bool := ag = .oculus

/-! ## Campanile -/

/-- The WORLD record of an access of the host, which is non-secure, to n bytes at a (R365; log entry 28). -/
def Mach.hostWorld (m : Mach) (a n : Nat) : Mach := m.worldRecord (toCtx (Config.freeValue m.seq).toNat) a n

/-- n bytes of device memory zeroed for an agent that writes a register, with the record of a host's write that breaks the
worlds (R365). -/
def Mach.agentZero (m : Mach) (ag : Agent) (a n : Nat) : Mach :=
  let m := m.devZero (agentSec ag) a n
  if agentSec ag then m else m.hostWorld a n

/-- Campanile's EN set: every slot record and every prefix-index entry of the die is cleared (R293). -/
def Mach.campEnable (m : Mach) (ag : Agent) (d : Fin 4) : Mach :=
  let k := (m.die d).camp
  let m := (m.agentZero ag k.sdbase.toNat (32 * 65536)).agentZero ag k.hibase.toNat (128 * 2 ^ 18)
  m.onCamp d fun k => { k with en := true }

/-- A write of CCFG (R293). -/
def Mach.campCfg (m : Mach) (ag : Agent) (d : Fin 4) (v : Word) : Mach :=
  if !wb v 0 then m.onCamp d fun k => { k with en := false }
  else if (m.die d).camp.en then m
  else m.campEnable ag d

/-- CAMPANILE_ENABLE (R293). -/
def execCampanileEnable (ag : Agent) (d : Fin 4) (v : BitVec 64) : State → Out := regWrite ag fun m => m.campCfg ag d v

/-- Register +0x00 of a pool (R294). -/
def Pool.cfgWord (p : Pool) : Word :=
  BitVec.ofNat 64 (p.bsz.toNat + p.tier.toNat * 2 ^ 3 + p.ctx.toNat * 2 ^ 5) ||| bitAt p.pen 11 ||| bitAt p.fail 12

/-- A pool with what a write of +0x00 names. -/
def Pool.withCfg (p : Pool) (v : Word) (pen : Bool) : Pool :=
  { p with bsz := v.extractLsb' 0 3, tier := v.extractLsb' 3 2, ctx := v.extractLsb' 5 6, pen := pen }

/-- The write that sets PEN is refused (R294). -/
def Mach.poolRefused (m : Mach) (d : Fin 4) (p : Pool) (v : Word) : Bool :=
  let q := p.withCfg v true
  let n := q.nblk.toNat
  let last := q.frame0.toNat + (n * (16384 * 2 ^ q.bsz.toNat) + 65535) / 65536
  4 < q.bsz.toNat || q.tier = 0 || q.tier = 3 || wf v 13 51 ≠ 0 || n = 0 || m.frames q.tier.toNat d < last

/-- PEN set: the block words zero, the stack full, the first handle popped index 0 (R294). -/
def Mach.poolOpen (m : Mach) (d : Fin 4) (p : Fin 16) (v : Word) : Mach :=
  let q := ((m.die d).camp.pools[p.val]).withCfg v true
  let n := q.nblk.toNat
  let c := toCtx q.ctx.toNat
  let stack := (List.range n).flatMap fun j => leBytes 4 (mkHandle d p (n - 1 - j)).toNat
  let m := (m.ctxWrite c q.bwbase.toNat (List.replicate (4 * n) 0)).ctxWrite c q.flbase.toNat stack
  m.onCamp d fun k => { k with pools := put k.pools p { q with fcnt := BitVec.ofNat 26 n } }

/-- A write of +0x00 of a pool (R294). -/
def Mach.poolCfg (m : Mach) (d : Fin 4) (p : Fin 16) (v : Word) : Mach :=
  let q := (m.die d).camp.pools[p.val]
  if wb v 11 then
    if q.pen || m.poolRefused d q v then m else m.poolOpen d p v
  else m.onCamp d fun k => { k with pools := upd k.pools p fun q => q.withCfg v false }

/-- POOL_ENABLE (R294). -/
def execPoolEnable (ag : Agent) (d : Fin 4) (p : Fin 16) (v : BitVec 64) : State → Out := regWrite ag fun m => m.poolCfg d p v

/-- POOL_DISABLE (R294). -/
def execPoolDisable (ag : Agent) (d : Fin 4) (p : Fin 16) (v : BitVec 64) : State → Out := regWrite ag fun m => m.poolCfg d p v

/-- A word of a pool's registers (R294). -/
def Pool.read (p : Pool) (off : Nat) : Word :=
  match off with
  | 0x00 => p.cfgWord
  | 0x08 => p.frame0.setWidth 64
  | 0x10 => p.nblk.setWidth 64
  | 0x18 => p.flbase.setWidth 64
  | 0x20 => p.bwbase.setWidth 64
  | 0x28 => p.fcnt.setWidth 64
  | _ => 0

/-- A write of a pool's bases and sizes, ignored while PEN is 1 (R294). -/
def Pool.write (p : Pool) (off : Nat) (w : RegW) : Pool :=
  let v := w.over (p.read off)
  if p.pen then p
  else match off with
    | 0x08 => { p with frame0 := v.extractLsb' 0 30 }
    | 0x10 => { p with nblk := v.extractLsb' 0 26 }
    | 0x18 => { p with flbase := v.extractLsb' 0 48 }
    | 0x20 => { p with bwbase := v.extractLsb' 0 48 }
    | _ => p

/-- Campanile's block (R293, R294). -/
def Campanile.read (k : Campanile) (off : Nat) : Word :=
  match off with
  | 0x000 => bitAt k.en 0
  | 0x008 => k.sdbase.setWidth 64
  | 0x010 => k.hibase.setWidth 64
  | 0x018 => two k.specerr k.retired
  | 0x020 => two k.hfull k.scrub
  | 0x028 => two (k.qslot.setWidth 32) k.qcnt
  | _ => if 0x100 ≤ off && off < 0x500 then (k.pools[(Fin.ofNat 16 ((off - 0x100) / 0x40)).val]).read ((off - 0x100) % 0x40) else 0

/-- A write of Campanile's block (R293, R294). -/
def Mach.campWrite (m : Mach) (ag : Agent) (d : Fin 4) (off : Nat) (w : RegW) : Mach :=
  let k := (m.die d).camp
  let v := w.over (k.read off)
  match off with
  | 0x000 => m.campCfg ag d v
  | 0x008 => if k.en then m else m.onCamp d fun k => { k with sdbase := v.extractLsb' 0 48 }
  | 0x010 => if k.en then m else m.onCamp d fun k => { k with hibase := v.extractLsb' 0 48 }
  | _ =>
    if 0x100 ≤ off && off < 0x500 then
      let p := Fin.ofNat 16 ((off - 0x100) / 0x40)
      let o := (off - 0x100) % 0x40
      if o = 0 then m.poolCfg d p (w.over ((k.pools[p.val]).cfgWord &&& ~~~(bitAt true 12)))
      else m.onCamp d fun k => { k with pools := upd k.pools p fun q => q.write o w }
    else m

/-! ## Cupola -/

/-- Cupola's EN set: every binding record of the die is zero (R313). -/
def Mach.cupEnable (m : Mach) (ag : Agent) (d : Fin 4) : Mach :=
  (m.agentZero ag (m.die d).cup.sbbase.toNat (128 * 65536)).onCup d fun u => { u with en := true, progs := [] }

/-- A write of register 0x000 of Cupola (R313). -/
def Mach.cupCfg (m : Mach) (ag : Agent) (d : Fin 4) (v : Word) : Mach :=
  if !wb v 0 then m.onCup d fun u => { u with en := false }
  else if (m.die d).cup.en then m
  else m.cupEnable ag d

/-- CUPOLA_ENABLE (R313). -/
def execCupolaEnable (ag : Agent) (d : Fin 4) (v : BitVec 64) : State → Out := regWrite ag fun m => m.cupCfg ag d v

/-- Cupola's block (R313). -/
def Cupola.read (u : Cupola) (off : Nat) : Word := u.words.getD (off / 8) 0

/-- A write of Cupola's block; the bases are ignored while EN is 1 (R313). -/
def Mach.cupWrite (m : Mach) (ag : Agent) (d : Fin 4) (off : Nat) (w : RegW) : Mach :=
  let u := (m.die d).cup
  let v := w.over (u.read off)
  match off with
  | 0x000 => m.cupCfg ag d v
  | 0x008 => if u.en then m else m.onCup d fun u => { u with sbbase := v.extractLsb' 0 48 }
  | 0x010 => if u.en then m else m.onCup d fun u => { u with asbase := v.extractLsb' 0 48 }
  | 0x018 => m.onCup d fun u => { u with score := v.extractLsb' 0 8, srng := v.extractLsb' 8 4, sren := wb v 12 }
  | _ => m

/-! ## Lantern -/

/-- A write of register 0x000 of Lantern: LCTX is ignored while EN is 1, and EN going to 1 zeroes RSEQ and the
channel counts (R335). -/
def Lantern.setCfg (l : Lantern) (v : Word) : Lantern :=
  if l.en then { l with en := wb v 0 }
  else
    let l := { l with lctx := toCtx (wf v 1 6) }
    if wb v 0 then { l with en := true, rseq := 0, arr := Vector.replicate 16 0, con := Vector.replicate 16 0 } else l

/-- LANTERN_ENABLE (R335). -/
def execLanternEnable (ag : Agent) (d : Fin 4) (v : BitVec 64) : State → Out := regWrite ag fun m => m.onLan d fun l => l.setCfg v

/-- Lantern's block of die d; FABID, GTBASE and FDROP are die 0's (R335). -/
def Mach.lanRead (m : Mach) (d : Fin 4) (off : Nat) : Word :=
  let l := (m.die d).lan
  match off with
  | 0x000 => bitAt l.en 0 ||| BitVec.ofNat 64 (l.lctx.val * 2)
  | 0x008 => l.heapt.setWidth 64
  | 0x010 => (m.die 0).lan.fabid.setWidth 64
  | 0x018 => (m.die 0).lan.gtbase.setWidth 64
  | 0x020 => two l.rseq l.psnrx
  | 0x028 => l.fdrop.setWidth 64
  | _ => 0

/-- A write of Lantern's block (R335). -/
def Mach.lanWrite (m : Mach) (d : Fin 4) (off : Nat) (w : RegW) : Mach :=
  let v := w.over (m.lanRead d off)
  match off with
  | 0x000 => m.onLan d fun l => l.setCfg v
  | 0x008 => m.onLan d fun l => if l.en then l else { l with heapt := v.extractLsb' 0 20 }
  | 0x010 => if d = 0 then m.onLan d fun l => { l with fabid := v.extractLsb' 0 10 } else m
  | 0x018 => if d = 0 then m.onLan d fun l => { l with gtbase := v.extractLsb' 0 48 } else m
  | _ => m

/-! ## The MSI-X table -/

/-- Vector n is unmasked, and sent if it is pending (R357). -/
def Mach.unmask (m : Mach) (n : Fin 130) : Mach :=
  let m := { m with msix := upd m.msix n fun e => { e with mask := false } }
  if m.msiPend.getLsbD n.val then ({ m with msiPend := m.msiPend &&& ~~~(BitVec.ofNat 130 (2 ^ n.val)) }).raise n else m

/-- MSIX_UNMASK (R357). -/
def execMsixUnmask (n : Fin 130) : State → Out := fun s =>
  if s.boot.powered then .next { s with m := s.m.unmask n } else .next s

/-- Words of the table and of the pending bits, laid out as PCIe does (R355, R357; log entry 18). -/
def Mach.msixRead (m : Mach) (off : Nat) : Word :=
  if off < 0x9000 then
    let n := (off - 0x8000) / 16
    match m.msix.toList[n]? with
    | some e => if off % 16 = 0 then e.addr else two e.data (BitVec.ofNat 32 e.mask.toNat)
    | none => 0
  else BitVec.ofNat 64 (m.msiPend.toNat / 2 ^ (8 * (off - 0x9000)))

def Mach.msixWrite (m : Mach) (off : Nat) (w : RegW) : Mach :=
  let k := (off - 0x8000) / 16
  if off < 0x9000 && k < 130 then
    let n := Fin.ofNat 130 k
    let v := w.over (m.msixRead off)
    if off % 16 = 0 then { m with msix := upd m.msix n fun e => { e with addr := v } }
    else
      let m := { m with msix := upd m.msix n fun e => { e with data := v.extractLsb' 0 32 } }
      if wb v 32 then { m with msix := upd m.msix n fun e => { e with mask := true } } else m.unmask n
  else m

/-! ## Region registers and worlds -/

/-- The region registers of the sixteen controllers, and the worlds of the contexts behind them, at the model's own
offsets (R365; log entry 26). -/
def Mach.regionRead (m : Mach) (off : Nat) : Word :=
  if off < 0x2000 then (m.regions.toList.getD (off / 512) (Vector.replicate 64 0)).toList.getD (off / 8 % 64) 0
  else if off < 0x2200 then bitAt (m.sec (toCtx (off / 8))) 0
  else 0

/-- Bits [63:62] of a region register are reserved (R10, R365). -/
def Mach.regionWrite (m : Mach) (off : Nat) (w : RegW) : Mach :=
  let v := w.over (m.regionRead off)
  if off < 0x2000 then
    { m with regions := upd m.regions (Fin.ofNat 16 (off / 512)) fun f => put f (Fin.ofNat 64 (off / 8)) ((v.extractLsb' 0 62).setWidth 64) }
  else if off < 0x2200 then m.onCtx (toCtx (off / 8)) fun x => { x with secure := wb v 0 }
  else m

end Sys2Proof.Machine
end

