-- ==== Sys2Proof/Machine/Boot.lean ====
section
/-!
DEFINITION. Power, restart, boot, measurements, attestation, the system registers, and the host's windows as a whole
(spec/14_host_security.md R355 to R364, R496; log entries 9, 17, 27 and 28).
-/
namespace Sys2Proof.Machine

/-! ## Power and restart -/

/-- A byte of a CXL pool device, which lies outside the module (R368). -/
def inPool (a : Nat) : Bool := 3 * 2 ^ 46 ≤ a && a < 4 * 2 ^ 46

/-- The module as power-up leaves it: every reset value, the fuses as they are; host memory, the pool devices and the
agents' moves are not the module's (R9, R360; log entry 27). -/
def State.repower (s : State) (on : Bool) : State where
  boot := { Boot.reset with powered := on }
  m := { Mach.reset s.m.fuses with
         seq := s.m.seq
         host := s.m.host
         dev := s.m.dev.filter fun x => inPool x.1
         devBad := s.m.devBad.filter fun l => inPool (64 * l)
         devGlitch := s.m.devGlitch.filter fun l => inPool (64 * l) }
  agenda := s.agenda

/-- The key of a restart (R359). -/
def restartKey : BitVec 32 := 0x52545352

/-- A RESTART write (R360). -/
def State.restart (s : State) (key : BitVec 32) : State :=
  if s.boot.powered && key = restartKey then s.repower true else s

/-- POWER_UP (R9, R360). -/
def execPowerUp (s : State) : Out := .next (if s.boot.powered then s else s.repower true)

/-- POWER_LOSS: all state is lost (R360). -/
def execPowerLoss (s : State) : Out := .next (s.repower false)

/-- RESTART (R360). -/
def execRestart (key : BitVec 32) (s : State) : Out := .next (s.restart key)

/-- FUNCTION_LEVEL_RESET (R360). -/
def execFunctionLevelReset (s : State) : Out := .next (if s.boot.powered then s.repower true else s)

/-! ## Boot -/

/-- The device address of byte x of the launch area: a byte of die 0's stage. A frame number that no device address can
hold names, as the last one that it can, no memory (R23, R355, R495). -/
def launchAddr (s : State) (x : Nat) : Nat :=
  2 ^ 46 + 65536 * min (s.boot.laframe.toNat + x / 65536) (2 ^ 28 - 1) + x % 65536

/-- Bytes of the launch area from its start on whose frames a device address can name. -/
def areaSize (s : State) : Nat := 65536 * (2 ^ 28 - s.boot.laframe.toNat)

/-- n bytes of the launch area from offset x, as the boot ROM reads them, which is secure (R361, R365). -/
def areaBytes (s : State) (x n : Nat) : List Byte := (List.range n).map fun k => s.m.devByte true (launchAddr s (x + k))

/-- The little-endian field of n bytes at offset x of the image (R5, R362). -/
def imageField (s : State) (x n : Nat) : Nat := leVal (areaBytes s x n)

/-- The bytes of SIG (R362). -/
def sigLen : Nat := 29792

/-- The largest CODELEN: 8 MiB (R362). -/
def maxCode : Nat := 8388608

/-- The header is good (R362). -/
def headerGood (s : State) : Bool :=
  let n := imageField s 8 4
  let e := imageField s 12 4
  imageField s 0 4 = 0x31534B44 && imageField s 4 2 = 1 && imageField s 6 2 = 0 &&
  n % 64 = 0 && 64 ≤ n && n ≤ maxCode &&
  e % 4 = 0 && e < n &&
  s.m.fuses.minSvn.toNat ≤ imageField s 16 4 &&
  (areaBytes s 0x14 0x2C).all (· = 0) && (areaBytes s 0x80 0x80).all (· = 0) &&
  s.boot.goLen.toNat = 0x100 + n + sigLen

/-- The image bytes that are signed and measured (R361, steps 4 and 5). -/
def signedBytes (s : State) : List Byte := areaBytes s 0 (0x100 + imageField s 8 4)

/-- The CODE with which the boot ends, none where every check passes (R361, steps 2 to 4). -/
def bootCode (s : State) : Option (BitVec 8) :=
  if !headerGood s then some 1
  else if leVal (shake256 32 (areaBytes s 0x40 64)) ≠ s.m.fuses.keyDigest.toNat then some 2
  else if !Config.slhVerify (areaBytes s 0x40 64) (signedBytes s) (areaBytes s (0x100 + imageField s 8 4) sigLen) then some 3
  else none

/-- The 64-byte digest of bytes, as a register holds it (R363). -/
def digest64 (bs : List Byte) : BitVec 512 := BitVec.ofNat 512 (leVal (shake256 64 bs))

/-- A failed boot (R361). -/
def State.bootFail (s : State) (code : BitVec 8) : State :=
  { s with boot := { s.boot with state := 3, code := code }, m := s.m.raise 129 }

/-- A boot in which every check passes: M0, the code in Oculus's memory, STATE 2 (R361, step 5). -/
def State.bootPass (s : State) : State :=
  let n := imageField s 8 4
  { s with boot := { s.boot with state := 2, code := 0, meas := put s.boot.meas 0 (digest64 (signedBytes s)),
                                 ocode := areaBytes s 0x100 n, oentry := BitVec.ofNat 32 (imageField s 12 4) },
           m := s.m.raise 129 }

/-- A BOOTGO write, which the ROM waits for in STATE 0 only (R361). -/
def State.bootGo (s : State) (len : BitVec 32) : State :=
  if s.boot.powered && s.boot.state = 0 then { s with boot := { s.boot with state := 1, goLen := len } } else s

/-- BOOTGO (R361). -/
def execBootgo (len : BitVec 32) (s : State) : Out := .next (s.bootGo len)

/-- BOOT_END (R361). -/
def execBootEnd (s : State) : Out :=
  if s.boot.powered && s.boot.state = 1 then
    let t := { s with m := s.m.retried (launchAddr s 0) (min (areaSize s) (min s.boot.goLen.toNat (0x100 + maxCode + sigLen))) }
    .next (match bootCode t with | some c => t.bootFail c | none => t.bootPass)
  else .next s

/-! ## Measurement and attestation -/

/-- An ATADDR write: ignored unless STATE is 2 and no report is under way (R364). -/
def State.attestGo (s : State) (v : Word) : State :=
  if s.boot.state = 2 && s.boot.attest.isNone then { s with boot := { s.boot with attest := some v } } else s

/-- ATADDR (R364). -/
def execAtaddr (v : BitVec 64) (s : State) : Out := .next (s.attestGo v)

/-- IDPUB as it reads: zero until STATE is 2 (R363). -/
def idpub (b : Boot) : BitVec 512 := if b.state = 2 then Config.idPub else 0

/-- The bytes 0x0000 to 0x017F of a report (R364). -/
def reportBody (s : State) : List Byte :=
  leBytes 32 s.boot.nonce.toNat ++ leBytes 8 (edev s.m.fuses).toNat ++ leBytes 24 0 ++
  (s.boot.meas.toList.flatMap fun x => leBytes 64 x.toNat) ++ leBytes 64 (idpub s.boot).toNat

/-- The bytes of a report's signature (R364). -/
def reportSigLen : Nat := 49856

/-- A report (R364). -/
def reportBytes (s : State) : List Byte :=
  let b := reportBody s
  b ++ (List.range reportSigLen).map (Config.slhSign b)

/-- ATTESTATION_REPORT_END (R364; log entry 28). -/
def execAttestationReportEnd (s : State) : Out :=
  match s.boot.attest with
  | some a =>
    .next { s with boot := { s.boot with attest := none }, m := (s.m.hostWrite a.toNat (reportBytes s)).raise 129 }
  | none => .next s

/-- MEASUREMENT_EXTEND: M1 to M3 by firmware, which runs in STATE 2; M0 is the boot ROM's (R363; log entry 17). -/
def execMeasurementExtend (i : Fin 4) (v : BitVec 512) (s : State) : Out :=
  if s.boot.state = 2 && i ≠ 0 then
    .next { s with boot := { s.boot with meas := upd s.boot.meas i fun x => digest64 (leBytes 64 x.toNat ++ leBytes 64 v.toNat) } }
  else .next s

/-! ## The system registers -/

/-- Word k of a value of up to 64 bytes. -/
def wordOf (n k : Nat) : Word := BitVec.ofNat 64 (n / 2 ^ (64 * k))

/-- A system register as it reads, at a multiple of 8 (R359, R496). -/
def sysRead (s : State) (off : Nat) : Word :=
  match off with
  | 0x1000 => BitVec.ofNat 64 (s.boot.state.toNat + s.boot.code.toNat * 2 ^ 8)
  | 0x1008 => s.boot.laframe.setWidth 64
  | 0x1018 => s.m.errbase
  | 0x1020 => two s.m.errhead s.m.errtail
  | 0x1028 => two s.m.trans s.m.errlost
  | _ =>
    if 0x1040 ≤ off && off < 0x1060 then wordOf s.boot.nonce.toNat ((off - 0x1040) / 8)
    else if 0x1100 ≤ off && off < 0x1140 then wordOf (idpub s.boot).toNat ((off - 0x1100) / 8)
    else if 0x1200 ≤ off && off < 0x1280 then s.m.pdec.toList.getD ((off - 0x1200) / 8) 0
    else 0

/-- The nonce with word k replaced. -/
def nonceWith (n : BitVec 256) (k : Nat) (v : Word) : BitVec 256 :=
  BitVec.ofNat 256 (leVal ((List.range 4).flatMap fun j => leBytes 8 (if j = k then v.toNat else n.toNat / 2 ^ (64 * j))))

/-- A write of a system register (R8, R359, R360, R361, R364, R496). -/
def sysWrite (ag : Agent) (off : Nat) (w : RegW) (s : State) : State :=
  let v := w.over (sysRead s off)
  match off with
  | 0x1008 => { s with boot := { s.boot with laframe := v.extractLsb' 0 30 } }
  | 0x1010 => s.bootGo (w.ones.extractLsb' 0 32)
  | 0x1018 => { s with m := { s.m with errbase := v &&& ~~~0x1F } }
  | 0x1020 => { s with m := { s.m with errtail := v.extractLsb' 32 32 } }
  | 0x1030 => s.restart (w.ones.extractLsb' 0 32)
  | 0x1060 => s.attestGo w.ones
  | _ =>
    if 0x1040 ≤ off && off < 0x1060 then
      { s with boot := { s.boot with nonce := nonceWith s.boot.nonce ((off - 0x1040) / 8) v } }
    else if 0x1200 ≤ off && off < 0x1280 && ag = .oculus then
      { s with m := { s.m with pdec := put s.m.pdec (Fin.ofNat 16 ((off - 0x1200) / 8)) v } }
    else s

/-! ## The windows -/

/-- An access is naturally aligned (R355). -/
def aligned (off : Nat) (size : Size) : Bool := off % Size.bytes size = 0

/-- The blocks of the mailbox window that belong to units of a die (R293, R313, R335). -/
def unitRead (m : Mach) (o : Nat) : Word :=
  if 0x20000 ≤ o && o < 0x60000 then (m.die (toDie ((o - 0x20000) / 0x10000))).camp.read (o % 0x10000)
  else if 0x60000 ≤ o && o < 0xA0000 then (m.die (toDie ((o - 0x60000) / 0x10000))).cup.read (o % 0x10000)
  else if 0xA0000 ≤ o && o < 0xE0000 then m.lanRead (toDie ((o - 0xA0000) / 0x10000)) (o % 0x10000)
  else 0

/-- A write of a unit's block. -/
def unitWrite (ag : Agent) (o : Nat) (w : RegW) (m : Mach) : Mach :=
  if 0x20000 ≤ o && o < 0x60000 then m.campWrite ag (toDie ((o - 0x20000) / 0x10000)) (o % 0x10000) w
  else if 0x60000 ≤ o && o < 0xA0000 then m.cupWrite ag (toDie ((o - 0x60000) / 0x10000)) (o % 0x10000) w
  else if 0xA0000 ≤ o && o < 0xE0000 then m.lanWrite (toDie ((o - 0xA0000) / 0x10000)) (o % 0x10000) w
  else m

/-- The register that holds offset o of a window, as an agent reads it. BAR0 reads zero before STATE is 2 and, to the
host, for a secure context; the host cannot read the region registers (R355, R361, R365). -/
def windowRead (ag : Agent) (w : Window) (o : Nat) (s : State) : Word :=
  match w with
  | .control =>
    let c := toCtx (o / 4096)
    if o < 2 ^ 18 && s.boot.state = 2 && s.m.mayWrite ag c then (s.m.ctx c).read (o % 4096) else 0
  | .mailbox =>
    if o < 0x1000 then infoRead s.m.fuses o
    else if o < 0x8000 then sysRead s o
    else if o < 0xA000 then s.m.msixRead o
    else unitRead s.m o
  | .regions => if ag = .oculus then s.m.regionRead o else 0

/-- The write of the register that holds offset o of a window. Before STATE is 2 no context runs, and a REPLAY starts
nothing (R8, R361; log entry 74). -/
def windowWrite (ag : Agent) (w : Window) (o : Nat) (x : RegW) (s : State) : State :=
  match w with
  | .control =>
    let c := toCtx (o / 4096)
    if o < 2 ^ 18 && (s.boot.state = 2 || o % 4096 ≠ 0) && s.m.mayWrite ag c then { s with m := s.m.pageWrite c (o % 4096) x } else s
  | .mailbox =>
    if o < 0x1000 then s
    else if o < 0x8000 then sysWrite ag o x s
    else if o < 0xA000 then { s with m := s.m.msixWrite o x }
    else { s with m := unitWrite ag o x s.m }
  | .regions => if ag = .oculus then { s with m := s.m.regionWrite o x } else s

/-- A read of a register window: the bytes addressed; all ones where the access is not naturally aligned (R32, R355). -/
def busRead (ag : Agent) (w : Window) (off : BitVec 20) (size : Size) (s : State) : Word :=
  let n := 2 ^ (8 * Size.bytes size)
  if aligned off.toNat size then
    BitVec.ofNat 64 ((windowRead ag w (8 * (off.toNat / 8)) s).toNat / 2 ^ (8 * (off.toNat % 8)) % n)
  else BitVec.ofNat 64 (n - 1)

/-- REGISTER_WRITE: a write through a register window; one that is not naturally aligned is discarded (R8, R32,
R355). -/
def execRegisterWrite (ag : Agent) (w : Window) (off : BitVec 20) (size : Size) (v : BitVec 64) (s : State) : Out :=
  if s.boot.powered && aligned off.toNat size && (ag = .host || s.boot.state = 2) then
    .next (windowWrite ag w (8 * (off.toNat / 8)) (regW off.toNat size v) s)
  else .next s

/-! ## The launch area -/

/-- A read of the launch area through BAR4 (R355, R365). -/
def areaRead (x : BitVec 32) (size : Size) (s : State) : Word × State :=
  let a := launchAddr s x.toNat
  let n := Size.bytes size
  if aligned x.toNat size then
    (BitVec.ofNat 64 (leVal (s.m.devRead false a n)), { s with m := (s.m.retried a n).hostWorld a n })
  else (BitVec.ofNat 64 (2 ^ (8 * n) - 1), s)

/-- LAUNCH_AREA_WRITE: a write of stage frames through BAR4 (R355, R365). -/
def execLaunchAreaWrite (x : BitVec 32) (size : Size) (v : BitVec 64) (s : State) : Out :=
  let a := launchAddr s x.toNat
  let n := Size.bytes size
  if s.boot.powered && aligned x.toNat size then
    .next { s with m := (s.m.devWrite false a (leBytes n v.toNat)).hostWorld a n }
  else .next s

end Sys2Proof.Machine
end

