-- ==== Sys2Proof/Machine/FabricEv.lean ====
section
/-!
DEFINITION. The fabric messages that write scratchpads and arrive at cells, and those of a reserved KIND, as events at
a receiving port (spec/13_collectives.md R337 to R340).
-/
namespace Sys2Proof.Machine

/-- An event of a message of KIND k; a message of another KIND is not this event. -/
def kindEvent (k : Nat) (f : Mach → FMsg → Mach) (msg : FMsg) : State → Out :=
  ready fun m => if msg.kind.toNat = k then f m msg else m

/-- ROW_WRITE: a row of a drain is written, KIND 1 (R337). -/
def execRowWrite (msg : FMsg) : State → Out := kindEvent 1 Mach.spadData msg

/-- ROW_ARRIVAL: an arrival at DBAR once COUNT rows of its stream are accepted, KIND 2 (R338). -/
def execRowArrival (msg : FMsg) : State → Out := kindEvent 2 Mach.spadArrival msg

/-- COPY_DATA: a unit of a multicast copy is written, KIND 6 (R337). -/
def execCopyData (msg : FMsg) : State → Out := kindEvent 6 Mach.spadData msg

/-- COPY_ARRIVAL: an arrival at RBAR once COUNT data messages of its stream are accepted, KIND 7 (R338). -/
def execCopyArrival (msg : FMsg) : State → Out := kindEvent 7 Mach.spadArrival msg

/-- The reserved values of KIND (R337). -/
def kindReserved (k : Nat) : Bool := k = 0 || 8 < k

/-- RESERVED_KIND_MESSAGE: the message is discarded and counted in PSNRX of die 0 (R337). -/
def execReservedKindMessage (msg : FMsg) : State → Out :=
  ready fun m => if kindReserved msg.kind.toNat && m.arrives msg then m.reservedMsg msg else m

end Sys2Proof.Machine
end

