-- ==== Sys2Proof/Machine/ScAlu.lean ====
section
/-!
DEFINITION. SC's arithmetic, logic, shifts, bit fields and moves (spec/15_reference_a_l.md R371, R372, R379, R386,
R387; spec/16_reference_m_u.md R405 to R409, R414, R425, R427, R431; spec/17_reference_v_y.md R466).
-/
namespace Sys2Proof.Machine

/-- An SC parcel that reads and writes S registers only: it always completes (R59, R371). -/
def scAlu (i : Instr) (f : Core → Core) : State → Out :=
  soloParcel i .sc fun g => issue i g .sc noPre (fun m => .done (m.onCore g f)) (retireSeq i g .sc)

/-- NOP: nothing but its tokens (R409). -/
def execNop (t : Tok) : State → Out := scAlu (.nop t) id

/-- ADD: the sum modulo 2^64 (R371). -/
def execAdd (t : Tok) (d a b : Fin 32) : State → Out :=
  scAlu (.add t d a b) fun c => c.ws d (c.rs a + c.rs b)

/-- ADD.S: the signed sum, saturated (R371). -/
def execAddS (t : Tok) (d a b : Fin 32) : State → Out :=
  scAlu (.addS t d a b) fun c => c.ws d (satS (sInt (c.rs a) + sInt (c.rs b)))

/-- ADD.US: the unsigned sum, saturated (R371). -/
def execAddUs (t : Tok) (d a b : Fin 32) : State → Out :=
  scAlu (.addUs t d a b) fun c => c.ws d (satU (uInt (c.rs a) + uInt (c.rs b)))

/-- ADD.I: the sum with the immediate (R371). -/
def execAddI (t : Tok) (d a : Fin 32) (imm : BitVec 20) : State → Out :=
  scAlu (.addI t d a imm) fun c => c.ws d (c.rs a + imm.signExtend 64)

/-- SUB: the difference modulo 2^64 (R431). -/
def execSub (t : Tok) (d a b : Fin 32) : State → Out :=
  scAlu (.sub t d a b) fun c => c.ws d (c.rs a - c.rs b)

/-- SUB.S: the signed difference, saturated (R431). -/
def execSubS (t : Tok) (d a b : Fin 32) : State → Out :=
  scAlu (.subS t d a b) fun c => c.ws d (satS (sInt (c.rs a) - sInt (c.rs b)))

/-- SUB.US: the unsigned difference, saturated (R431). -/
def execSubUs (t : Tok) (d a b : Fin 32) : State → Out :=
  scAlu (.subUs t d a b) fun c => c.ws d (satU (uInt (c.rs a) - uInt (c.rs b)))

/-- MUL: the product modulo 2^64 (R408). -/
def execMul (t : Tok) (d a b : Fin 32) : State → Out :=
  scAlu (.mul t d a b) fun c => c.ws d (c.rs a * c.rs b)

/-- MUL.S: the signed product, saturated (R408). -/
def execMulS (t : Tok) (d a b : Fin 32) : State → Out :=
  scAlu (.mulS t d a b) fun c => c.ws d (satS (sInt (c.rs a) * sInt (c.rs b)))

/-- MUL.HI: the upper half of the signed product (R408). -/
def execMulHi (t : Tok) (d a b : Fin 32) : State → Out :=
  scAlu (.mulHi t d a b) fun c => c.ws d (ofInt64 (sInt (c.rs a) * sInt (c.rs b) / 2 ^ 64))

/-- MUL.HU: the upper half of the unsigned product (R408). -/
def execMulHu (t : Tok) (d a b : Fin 32) : State → Out :=
  scAlu (.mulHu t d a b) fun c => c.ws d (ofInt64 (uInt (c.rs a) * uInt (c.rs b) / 2 ^ 64))

/-- MUL.I: the product with the immediate (R408). -/
def execMulI (t : Tok) (d a : Fin 32) (imm : BitVec 20) : State → Out :=
  scAlu (.mulI t d a imm) fun c => c.ws d (c.rs a * imm.signExtend 64)

/-- DIV: the signed quotient (R387). -/
def execDiv (t : Tok) (d a b : Fin 32) : State → Out :=
  scAlu (.div t d a b) fun c => c.ws d (divS (c.rs a) (c.rs b))

/-- DIV.U: the unsigned quotient (R387). -/
def execDivU (t : Tok) (d a b : Fin 32) : State → Out :=
  scAlu (.divU t d a b) fun c => c.ws d (divU (c.rs a) (c.rs b))

/-- DIV.R: the signed remainder (R387). -/
def execDivR (t : Tok) (d a b : Fin 32) : State → Out :=
  scAlu (.divR t d a b) fun c => c.ws d (remS (c.rs a) (c.rs b))

/-- DIV.RU: the unsigned remainder (R387). -/
def execDivRu (t : Tok) (d a b : Fin 32) : State → Out :=
  scAlu (.divRu t d a b) fun c => c.ws d (remU (c.rs a) (c.rs b))

/-- AND (R372). -/
def execAnd (t : Tok) (d a b : Fin 32) : State → Out :=
  scAlu (.and t d a b) fun c => c.ws d (c.rs a &&& c.rs b)

/-- AND.I (R372). -/
def execAndI (t : Tok) (d a : Fin 32) (imm : BitVec 20) : State → Out :=
  scAlu (.andI t d a imm) fun c => c.ws d (c.rs a &&& imm.signExtend 64)

/-- OR (R414). -/
def execOr (t : Tok) (d a b : Fin 32) : State → Out :=
  scAlu (.or t d a b) fun c => c.ws d (c.rs a ||| c.rs b)

/-- OR.I (R414). -/
def execOrI (t : Tok) (d a : Fin 32) (imm : BitVec 20) : State → Out :=
  scAlu (.orI t d a imm) fun c => c.ws d (c.rs a ||| imm.signExtend 64)

/-- XOR (R466). -/
def execXor (t : Tok) (d a b : Fin 32) : State → Out :=
  scAlu (.xor t d a b) fun c => c.ws d (c.rs a ^^^ c.rs b)

/-- XOR.I (R466). -/
def execXorI (t : Tok) (d a : Fin 32) (imm : BitVec 20) : State → Out :=
  scAlu (.xorI t d a imm) fun c => c.ws d (c.rs a ^^^ imm.signExtend 64)

/-- SHL: left by the whole of Sb (R427). -/
def execShl (t : Tok) (d a b : Fin 32) : State → Out :=
  scAlu (.shl t d a b) fun c => c.ws d (c.rs a <<< shAmt (c.rs b))

/-- SHL.I: left by the immediate (R427). -/
def execShlI (t : Tok) (d a : Fin 32) (k : BitVec 6) : State → Out :=
  scAlu (.shlI t d a k) fun c => c.ws d (c.rs a <<< k.toNat)

/-- SHR: logically right by the whole of Sb (R427). -/
def execShr (t : Tok) (d a b : Fin 32) : State → Out :=
  scAlu (.shr t d a b) fun c => c.ws d (c.rs a >>> shAmt (c.rs b))

/-- SHR.I: logically right by the immediate (R427). -/
def execShrI (t : Tok) (d a : Fin 32) (k : BitVec 6) : State → Out :=
  scAlu (.shrI t d a k) fun c => c.ws d (c.rs a >>> k.toNat)

/-- SHR.A: arithmetically right by the whole of Sb (R427). -/
def execShrA (t : Tok) (d a b : Fin 32) : State → Out :=
  scAlu (.shrA t d a b) fun c => c.ws d ((c.rs a).sshiftRight (shAmt (c.rs b)))

/-- SHR.AI: arithmetically right by the immediate (R427). -/
def execShrAi (t : Tok) (d a : Fin 32) (k : BitVec 6) : State → Out :=
  scAlu (.shrAi t d a k) fun c => c.ws d ((c.rs a).sshiftRight k.toNat)

/-- CMP: 1 when the condition holds, else 0 (R386). -/
def execCmp (t : Tok) (d a b : Fin 32) (k : Cond) : State → Out :=
  scAlu (.cmp t d a b k) fun c => c.ws d (if Cond.holds k (c.rs a) (c.rs b) then 1 else 0)

/-- SEL: Sa where Sc is nonzero, else Sb (R425). -/
def execSel (t : Tok) (d a b k : Fin 32) : State → Out :=
  scAlu (.sel t d a b k) fun c => c.ws d (if c.rs k = 0 then c.rs b else c.rs a)

/-- MIN: the lesser, signed (R405). -/
def execMin (t : Tok) (d a b : Fin 32) : State → Out :=
  scAlu (.min t d a b) fun c => c.ws d (if (c.rs b).slt (c.rs a) then c.rs b else c.rs a)

/-- MIN.U: the lesser, unsigned (R405). -/
def execMinU (t : Tok) (d a b : Fin 32) : State → Out :=
  scAlu (.minU t d a b) fun c => c.ws d (if (c.rs b).ult (c.rs a) then c.rs b else c.rs a)

/-- MAX: the greater, signed (R405). -/
def execMax (t : Tok) (d a b : Fin 32) : State → Out :=
  scAlu (.max t d a b) fun c => c.ws d (if (c.rs a).slt (c.rs b) then c.rs b else c.rs a)

/-- MAX.U: the greater, unsigned (R405). -/
def execMaxU (t : Tok) (d a b : Fin 32) : State → Out :=
  scAlu (.maxU t d a b) fun c => c.ws d (if (c.rs a).ult (c.rs b) then c.rs b else c.rs a)

/-- BITS: a field, zero-extended (R379). -/
def execBits (t : Tok) (d a : Fin 32) (pos wid : BitVec 6) : State → Out :=
  scAlu (.bits t d a pos wid) fun c => c.ws d (BitVec.ofNat 64 (bitField (c.rs a) pos wid))

/-- BITS.S: a field, sign-extended (R379). -/
def execBitsS (t : Tok) (d a : Fin 32) (pos wid : BitVec 6) : State → Out :=
  scAlu (.bitsS t d a pos wid) fun c => c.ws d (ofInt64 (signField (bitField (c.rs a) pos wid) (wid.toNat + 1)))

/-- BITS.INS: the low bits of Sa put into a field of Sd (R379). -/
def execBitsIns (t : Tok) (d a : Fin 32) (pos wid : BitVec 6) : State → Out :=
  scAlu (.bitsIns t d a pos wid) fun c => c.ws d (insertField (c.rs d) (c.rs a) pos wid)

/-- BITS.CNT: the number of 1 bits (R379). -/
def execBitsCnt (t : Tok) (d a : Fin 32) : State → Out :=
  scAlu (.bitsCnt t d a) fun c => c.ws d (BitVec.ofNat 64 (popcount (c.rs a)))

/-- BITS.CLZ: the leading zero bits (R379). -/
def execBitsClz (t : Tok) (d a : Fin 32) : State → Out :=
  scAlu (.bitsClz t d a) fun c => c.ws d (BitVec.ofNat 64 (clz (c.rs a)))

/-- MOV (R406). -/
def execMov (t : Tok) (d a : Fin 32) : State → Out :=
  scAlu (.mov t d a) fun c => c.ws d (c.rs a)

/-- MOV.QW: Sa pushed into Q4 or Q6, waiting while it is full (R406). -/
def execMovQw (t : Tok) (a : Fin 32) (q : Fin 8) : State → Out :=
  soloParcel (.movQw t a q) .sc fun g => issue (.movQw t a q) g .sc noPre
    (fun m =>
      let c := m.core g
      if c.qw[(qwIx q).val].length < 16 then
        .done (m.onCore g fun c => { c with qw := upd c.qw (qwIx q) (· ++ [c.rs a]) })
      else .wait m)
    (retireSeq (.movQw t a q) g .sc)

/-- MOV.QR: Q5 or Q7 popped into Sd, waiting while it is empty (R406). -/
def execMovQr (t : Tok) (d : Fin 32) (q : Fin 8) : State → Out :=
  soloParcel (.movQr t d q) .sc fun g => issue (.movQr t d q) g .sc noPre
    (fun m =>
      match (m.core g).qw[(qwIx q).val] with
      | [] => .wait m
      | x :: rest => .done (m.onCore g fun c => ({ c with qw := put c.qw (qwIx q) rest } : Core).ws d x))
    (retireSeq (.movQr t d q) g .sc)

/-- MOVI: the sign-extended immediate (R407). -/
def execMovi (t : Tok) (d : Fin 32) (imm : BitVec 20) : State → Out :=
  scAlu (.movi t d imm) fun c => c.ws d (imm.signExtend 64)

/-- MOVI.L: the constant of both parcels (R407). -/
def execMoviL (t : Tok) (d : Fin 32) (imm : BitVec 20) (hi : BitVec 44) : State → Out :=
  scAlu (.moviL t d imm hi) fun c => c.ws d (hi ++ imm)

end Sys2Proof.Machine
end

