-- ==== Sys2Proof/Machine/Vector.lean ====
section
/-!
DEFINITION. The vector engine (spec/17_reference_v_y.md R437 to R462; spec/04_arithmetic.md R129 to R147;
spec/02_execution.md R65 to R67).
-/
namespace Sys2Proof.Machine

/-! ## The shape of a VX instruction -/

/-- What a VX instruction computes from: its rounding inputs, the core before it, and its sources. -/
structure VxIn where
  env : VxEnv
  core : Core
  src : List Tile

/-- Source k, lane l. -/
def VxIn.x (v : VxIn) (k l : Nat) : Lane := laneOf (v.src.getD k Tile.zero) l

/-- Source k, lane l, its low w bits as a number (R437). -/
def VxIn.n (v : VxIn) (w k l : Nat) : Nat := fld (v.x k l).toNat 0 w

/-- Source k, lane l, as a value of a floating-point type. -/
def VxIn.f (v : VxIn) (t : FTy) (k l : Nat) : Val := Val.ofF t (v.x k l).toNat

/-- Source k, lane l, as an integer of a type. -/
def VxIn.i (v : VxIn) (t : ITy) (k l : Nat) : Int := intOf t (v.x k l).toNat

/-- A VX instruction with a V, W or queue destination: it waits for its sources and for room, reads every source,
and writes `res` of them and of the destination's old lanes (R437). -/
def vxTo (i : Instr) (w : Nat) (srcs : List VSpec) (d : VSpec) (res : VxIn → Tile → Tile) : State → Out :=
  soloParcel i .vx fun g => issue i g .vx noPre
    (fun m =>
      let c := m.core g
      match c.readSpecs w srcs with
      | none => .wait m
      | some (ts, c') =>
        if !c.destRoom d then .wait m
        else .done (m.onCore g fun _ => c'.writeDest d (res ⟨c.env .vx 1, c, ts⟩ (c.oldDest d))))
    (retireSeq i g .vx)

/-- A VX instruction that writes lane by lane under mask k. -/
def vxLanes (i : Instr) (w : Nat) (srcs : List VSpec) (d : VSpec) (k : Fin 8) (f : VxIn → Nat → Lane) : State → Out :=
  vxTo i w srcs d fun v old => v.core.masked k old (f v)

/-- A VX instruction whose destination is a mask; Z is unchanged (R66). -/
def vxMask (i : Instr) (w : Nat) (srcs : List VSpec) (d : Fin 8) (f : VxIn → Nat → Bool) : State → Out :=
  soloParcel i .vx fun g => issue i g .vx noPre
    (fun m =>
      let c := m.core g
      match c.readSpecs w srcs with
      | none => .wait m
      | some (ts, c') =>
        let v : VxIn := ⟨c.env .vx 1, c, ts⟩
        .done (m.onCore g fun _ => c'.wm d (BitVec.ofBoolListLE ((List.range 1024).map (f v)) |>.setWidth 1024)))
    (retireSeq i g .vx)

/-- A floating-point operation of a lane, its exact value rounded once (R143, R439). -/
def vxFloat (i : Instr) (srcs : List VSpec) (d : VSpec) (k : Fin 8) (t : FTy) (f : VxIn → Nat → Val) : State → Out :=
  vxLanes i (FTy.width t) srcs d k fun v l => v.env.round (.f t) l 0 (f v l)

/-- An integer operation of a lane, kept modulo 2^w (R140, R448). -/
def vxInt (i : Instr) (srcs : List VSpec) (d : VSpec) (k : Fin 8) (t : ITy) (f : VxIn → Nat → Int) : State → Out :=
  vxLanes i (ITy.width t) srcs d k fun v l => BitVec.ofNat 32 (wrapTo (ITy.width t) (f v l))

/-- The exact result held to the type's range (R140). -/
def satI (t : ITy) (x : Int) : Int := clamp (ITy.lo t) (ITy.hi t) x

/-! ## Floating-point arithmetic -/

/-- VADD: the sum (R439). -/
def execVadd (t : Tok) (d a b : VSpec) (m : Fin 8) (ty : FTy) : State → Out :=
  vxFloat (.vadd t d a b m ty) [a, b] d m ty fun v l => (v.f ty 0 l).add v.env.md (v.env.dv l) (v.f ty 1 l)

/-- VSUB: the difference (R439). -/
def execVsub (t : Tok) (d a b : VSpec) (m : Fin 8) (ty : FTy) : State → Out :=
  vxFloat (.vsub t d a b m ty) [a, b] d m ty fun v l => (v.f ty 0 l).sub v.env.md (v.env.dv l) (v.f ty 1 l)

/-- VMUL: the product (R439). -/
def execVmul (t : Tok) (d a b : VSpec) (m : Fin 8) (ty : FTy) : State → Out :=
  vxFloat (.vmul t d a b m ty) [a, b] d m ty fun v l => (v.f ty 0 l).mul (v.env.dv l) (v.f ty 1 l)

/-- VFMA: a × b + c, rounded once (R439). -/
def execVfma (t : Tok) (d a b c : VSpec) (m : Fin 8) (ty : FTy) : State → Out :=
  vxFloat (.vfma t d a b c m ty) [a, b, c] d m ty fun v l => Val.fma v.env.md (v.env.dv l) false (v.f ty 0 l) (v.f ty 1 l) (v.f ty 2 l)

/-- VFMA.NM: c − a × b, rounded once (R439). -/
def execVfmaNm (t : Tok) (d a b c : VSpec) (m : Fin 8) (ty : FTy) : State → Out :=
  vxFloat (.vfmaNm t d a b c m ty) [a, b, c] d m ty fun v l => Val.fma v.env.md (v.env.dv l) true (v.f ty 0 l) (v.f ty 1 l) (v.f ty 2 l)

/-- VDIV: the quotient (R439). -/
def execVdiv (t : Tok) (d a b : VSpec) (m : Fin 8) (ty : FTy) : State → Out :=
  vxFloat (.vdiv t d a b m ty) [a, b] d m ty fun v l => (v.f ty 0 l).div (v.env.dv l) (v.f ty 1 l)

/-- VSQRT: the square root (R439). -/
def execVsqrt (t : Tok) (d a : VSpec) (m : Fin 8) (ty : FTy) : State → Out :=
  vxFloat (.vsqrt t d a m ty) [a] d m ty fun v l => (v.f ty 0 l).sqrt (v.env.dv l)

/-- VSF in a lane: the F32 function of the operand, rounded to a narrower type (R146, R147). -/
def vxSf (fn : VsfFn) (ty : FTy) (v : VxIn) (l : Nat) : Lane :=
  let r := vsf fn (v.env.dv l) (toF32 (v.f ty 0 l))
  if ty = .f32 then r else v.env.round (.f ty) l 0 (f32 r)

/-- VSF.EXP2 (R461). -/
def execVsfExp2 (t : Tok) (d a : VSpec) (m : Fin 8) (ty : FTy) : State → Out :=
  vxLanes (.vsfExp2 t d a m ty) (FTy.width ty) [a] d m (vxSf .exp2 ty)

/-- VSF.LOG2 (R461). -/
def execVsfLog2 (t : Tok) (d a : VSpec) (m : Fin 8) (ty : FTy) : State → Out :=
  vxLanes (.vsfLog2 t d a m ty) (FTy.width ty) [a] d m (vxSf .log2 ty)

/-- VSF.RCP (R461). -/
def execVsfRcp (t : Tok) (d a : VSpec) (m : Fin 8) (ty : FTy) : State → Out :=
  vxLanes (.vsfRcp t d a m ty) (FTy.width ty) [a] d m (vxSf .rcp ty)

/-- VSF.RSQRT (R461). -/
def execVsfRsqrt (t : Tok) (d a : VSpec) (m : Fin 8) (ty : FTy) : State → Out :=
  vxLanes (.vsfRsqrt t d a m ty) (FTy.width ty) [a] d m (vxSf .rsqrt ty)

/-- VSF.SIN (R461). -/
def execVsfSin (t : Tok) (d a : VSpec) (m : Fin 8) (ty : FTy) : State → Out :=
  vxLanes (.vsfSin t d a m ty) (FTy.width ty) [a] d m (vxSf .sin ty)

/-- VSF.COS (R461). -/
def execVsfCos (t : Tok) (d a : VSpec) (m : Fin 8) (ty : FTy) : State → Out :=
  vxLanes (.vsfCos t d a m ty) (FTy.width ty) [a] d m (vxSf .cos ty)

/-- VSF.TANH (R461). -/
def execVsfTanh (t : Tok) (d a : VSpec) (m : Fin 8) (ty : FTy) : State → Out :=
  vxLanes (.vsfTanh t d a m ty) (FTy.width ty) [a] d m (vxSf .tanh ty)

/-- VSF.ERF (R461). -/
def execVsfErf (t : Tok) (d a : VSpec) (m : Fin 8) (ty : FTy) : State → Out :=
  vxLanes (.vsfErf t d a m ty) (FTy.width ty) [a] d m (vxSf .erf ty)

/-- VSF.SIGM (R461). -/
def execVsfSigm (t : Tok) (d a : VSpec) (m : Fin 8) (ty : FTy) : State → Out :=
  vxLanes (.vsfSigm t d a m ty) (FTy.width ty) [a] d m (vxSf .sigm ty)

/-- VMIN (R138, R455). -/
def execVmin (t : Tok) (d a b : VSpec) (m : Fin 8) (ty : FTy) : State → Out :=
  vxFloat (.vmin t d a b m ty) [a, b] d m ty fun v l => Val.minmax Val.lesser false (v.env.dv l) (v.f ty 0 l) (v.f ty 1 l)

/-- VMIN.P (R138, R455). -/
def execVminP (t : Tok) (d a b : VSpec) (m : Fin 8) (ty : FTy) : State → Out :=
  vxFloat (.vminP t d a b m ty) [a, b] d m ty fun v l => Val.minmax Val.lesser true (v.env.dv l) (v.f ty 0 l) (v.f ty 1 l)

/-- VMAX (R138, R455). -/
def execVmax (t : Tok) (d a b : VSpec) (m : Fin 8) (ty : FTy) : State → Out :=
  vxFloat (.vmax t d a b m ty) [a, b] d m ty fun v l => Val.minmax Val.greater false (v.env.dv l) (v.f ty 0 l) (v.f ty 1 l)

/-- VMAX.P (R138, R455). -/
def execVmaxP (t : Tok) (d a b : VSpec) (m : Fin 8) (ty : FTy) : State → Out :=
  vxFloat (.vmaxP t d a b m ty) [a, b] d m ty fun v l => Val.minmax Val.greater true (v.env.dv l) (v.f ty 0 l) (v.f ty 1 l)

/-! ## Comparison, selection, moves, conversion -/

/-- VCMP: floating-point lanes compared into a mask (R445). -/
def execVcmp (t : Tok) (d : Fin 8) (a b : VSpec) (c : VCond) (m : Fin 8) (ty : FTy) : State → Out :=
  vxMask (.vcmp t d a b c m ty) (FTy.width ty) [a, b] d fun v l =>
    if v.core.on m l then VCond.flt c (v.f ty 0 l) (v.f ty 1 l) else v.core.on d l

/-- VICMP: integer lanes compared into a mask (R445). -/
def execVicmp (t : Tok) (d : Fin 8) (a b : VSpec) (c : VCond) (m : Fin 8) (ty : ITy) : State → Out :=
  vxMask (.vicmp t d a b c m ty) (ITy.width ty) [a, b] d fun v l =>
    if v.core.on m l then VCond.int c (v.i ty 0 l) (v.i ty 1 l) else v.core.on d l

/-- VSEL: lanes of A or B by a mask, every lane written (R458). -/
def execVsel (t : Tok) (d a b : VSpec) (m : Fin 8) : State → Out :=
  vxTo (.vsel t d a b m) 32 [a, b] d fun v _ => tileOf fun l => if v.core.on m l then v.x 0 l else v.x 1 l

/-- VMOV: lanes moved under a mask (R458). -/
def execVmov (t : Tok) (d a : VSpec) (m : Fin 8) : State → Out :=
  vxLanes (.vmov t d a m) 32 [a] d m fun v l => v.x 0 l

/-- VMOV.I: an immediate into every lane under a mask (R458). -/
def execVmovI (t : Tok) (d : VSpec) (m : Fin 8) (imm : BitVec 32) : State → Out :=
  vxLanes (.vmovI t d m imm) 32 [] d m fun _ _ => imm

/-- VCVT: each lane converted (R446). -/
def execVcvt (t : Tok) (d a : VSpec) (m : Fin 8) (dst src : DTy) : State → Out :=
  vxLanes (.vcvt t d a m dst src) (DTy.width src) [a] d m fun v l =>
    v.env.round dst l 0 (Val.ofD src (v.x 0 l).toNat)

/-! ## Integer arithmetic and logic -/

/-- VIADD (R448). -/
def execViadd (t : Tok) (d a b : VSpec) (m : Fin 8) (ty : ITy) : State → Out :=
  vxInt (.viadd t d a b m ty) [a, b] d m ty fun v l => v.i ty 0 l + v.i ty 1 l

/-- VIADD.S, saturated (R448). -/
def execViaddS (t : Tok) (d a b : VSpec) (m : Fin 8) (ty : ITy) : State → Out :=
  vxInt (.viaddS t d a b m ty) [a, b] d m ty fun v l => satI ty (v.i ty 0 l + v.i ty 1 l)

/-- VISUB (R448). -/
def execVisub (t : Tok) (d a b : VSpec) (m : Fin 8) (ty : ITy) : State → Out :=
  vxInt (.visub t d a b m ty) [a, b] d m ty fun v l => v.i ty 0 l - v.i ty 1 l

/-- VISUB.S, saturated (R448). -/
def execVisubS (t : Tok) (d a b : VSpec) (m : Fin 8) (ty : ITy) : State → Out :=
  vxInt (.visubS t d a b m ty) [a, b] d m ty fun v l => satI ty (v.i ty 0 l - v.i ty 1 l)

/-- VIMUL (R448). -/
def execVimul (t : Tok) (d a b : VSpec) (m : Fin 8) (ty : ITy) : State → Out :=
  vxInt (.vimul t d a b m ty) [a, b] d m ty fun v l => v.i ty 0 l * v.i ty 1 l

/-- VIMUL.S, saturated (R448). -/
def execVimulS (t : Tok) (d a b : VSpec) (m : Fin 8) (ty : ITy) : State → Out :=
  vxInt (.vimulS t d a b m ty) [a, b] d m ty fun v l => satI ty (v.i ty 0 l * v.i ty 1 l)

/-- VIMUL.HI: the upper half of the product (R448). -/
def execVimulHi (t : Tok) (d a b : VSpec) (m : Fin 8) (ty : ITy) : State → Out :=
  vxInt (.vimulHi t d a b m ty) [a, b] d m ty fun v l => v.i ty 0 l * v.i ty 1 l / 2 ^ ITy.width ty

/-- VIMIN (R448). -/
def execVimin (t : Tok) (d a b : VSpec) (m : Fin 8) (ty : ITy) : State → Out :=
  vxInt (.vimin t d a b m ty) [a, b] d m ty fun v l => if v.i ty 0 l ≤ v.i ty 1 l then v.i ty 0 l else v.i ty 1 l

/-- VIMAX (R448). -/
def execVimax (t : Tok) (d a b : VSpec) (m : Fin 8) (ty : ITy) : State → Out :=
  vxInt (.vimax t d a b m ty) [a, b] d m ty fun v l => if v.i ty 1 l ≤ v.i ty 0 l then v.i ty 0 l else v.i ty 1 l

/-- VAND on whole lanes (R440). -/
def execVand (t : Tok) (d a b : VSpec) (m : Fin 8) : State → Out :=
  vxLanes (.vand t d a b m) 32 [a, b] d m fun v l => v.x 0 l &&& v.x 1 l

/-- VOR on whole lanes (R440). -/
def execVor (t : Tok) (d a b : VSpec) (m : Fin 8) : State → Out :=
  vxLanes (.vor t d a b m) 32 [a, b] d m fun v l => v.x 0 l ||| v.x 1 l

/-- VXOR on whole lanes (R440). -/
def execVxor (t : Tok) (d a b : VSpec) (m : Fin 8) : State → Out :=
  vxLanes (.vxor t d a b m) 32 [a, b] d m fun v l => v.x 0 l ^^^ v.x 1 l

/-- A lane shifted left, or right by the type's signedness, an amount of the width or more clearing it or leaving
copies of the sign (R142). -/
def shiftL (t : ITy) (x : Int) (k : Nat) : Int := x * 2 ^ min k (ITy.width t)
def shiftR (t : ITy) (x : Int) (k : Nat) : Int := x / 2 ^ min k (ITy.width t)

/-- VSHL by a lane (R448). -/
def execVshl (t : Tok) (d a b : VSpec) (m : Fin 8) (ty : ITy) : State → Out :=
  vxInt (.vshl t d a b m ty) [a, b] d m ty fun v l => shiftL ty (v.i ty 0 l) (v.n (ITy.width ty) 1 l)

/-- VSHR by a lane (R448). -/
def execVshr (t : Tok) (d a b : VSpec) (m : Fin 8) (ty : ITy) : State → Out :=
  vxInt (.vshr t d a b m ty) [a, b] d m ty fun v l => shiftR ty (v.i ty 0 l) (v.n (ITy.width ty) 1 l)

/-- VSHL.I (R448). -/
def execVshlI (t : Tok) (d a : VSpec) (k : BitVec 6) (m : Fin 8) (ty : ITy) : State → Out :=
  vxInt (.vshlI t d a k m ty) [a] d m ty fun v l => shiftL ty (v.i ty 0 l) k.toNat

/-- VSHR.I (R448). -/
def execVshrI (t : Tok) (d a : VSpec) (k : BitVec 6) (m : Fin 8) (ty : ITy) : State → Out :=
  vxInt (.vshrI t d a k m ty) [a] d m ty fun v l => shiftR ty (v.i ty 0 l) k.toNat

/-- VIOTA: the lane index added (R449). -/
def execViota (t : Tok) (d a : VSpec) (m : Fin 8) (ty : ITy) : State → Out :=
  vxInt (.viota t d a m ty) [a] d m ty fun v l => v.i ty 0 l + l

/-! ## Lane moves -/

/-- Byte i of row r of a source (R447). -/
def VxIn.rowByte (v : VxIn) (k r i : Nat) : Nat := fld (v.x k (64 * r + i / 4)).toNat (8 * (i % 4)) 8

/-- VPERMB: the bytes of each row permuted (R447). -/
def execVpermb (t : Tok) (d a b : VSpec) (m : Fin 8) : State → Out :=
  vxLanes (.vpermb t d a b m) 32 [a, b] d m fun v l =>
    let r := l / 64
    let pick (n : Nat) : Nat := v.rowByte 0 r (v.rowByte 1 r (4 * (l % 64) + n))
    BitVec.ofNat 32 (pick 0 + pick 1 * 2 ^ 8 + pick 2 * 2 ^ 16 + pick 3 * 2 ^ 24)

/-- VROTR: rows rotated along their columns (R443). -/
def execVrotr (t : Tok) (d a : VSpec) (k : BitVec 6) (m : Fin 8) : State → Out :=
  vxLanes (.vrotr t d a k m) 32 [a] d m fun v l => v.x 0 (l / 64 * 64 + (l % 64 + 64 - k.toNat) % 64)

/-- VROTC: columns rotated along their rows (R443). -/
def execVrotc (t : Tok) (d a : VSpec) (k : BitVec 6) (m : Fin 8) : State → Out :=
  vxLanes (.vrotc t d a k m) 32 [a] d m fun v l => v.x 0 ((l / 64 + 16 - k.toNat) % 16 * 64 + l % 64)

/-- VBCR: a column broadcast across each row (R443). -/
def execVbcr (t : Tok) (d a : VSpec) (k : BitVec 6) (m : Fin 8) : State → Out :=
  vxLanes (.vbcr t d a k m) 32 [a] d m fun v l => v.x 0 (l / 64 * 64 + k.toNat)

/-- VBCC: a row broadcast down each column (R443). -/
def execVbcc (t : Tok) (d a : VSpec) (k : BitVec 6) (m : Fin 8) : State → Out :=
  vxLanes (.vbcc t d a k m) 32 [a] d m fun v l => v.x 0 (k.toNat * 64 + l % 64)

/-- VTRN: each 16 by 16 block transposed (R447). -/
def execVtrn (t : Tok) (d a : VSpec) (m : Fin 8) : State → Out :=
  vxLanes (.vtrn t d a m) 32 [a] d m fun v l => v.x 0 (64 * (l % 16) + l % 64 / 16 * 16 + l / 64)

/-- VSPL: one indexed lane to every lane (R447). -/
def execVspl (t : Tok) (d a b : VSpec) (m : Fin 8) : State → Out :=
  vxLanes (.vspl t d a b m) 32 [a, b] d m fun v _ => v.x 0 (v.n 10 1 0)

/-- VEXT: lanes gathered by index (R447). -/
def execVext (t : Tok) (d a b : VSpec) (m : Fin 8) : State → Out :=
  vxLanes (.vext t d a b m) 32 [a, b] d m fun v l => v.x 0 (v.n 10 1 l)

/-- VINS: lanes scattered by index into the destination; the mask selects source lanes (R447). -/
def execVins (t : Tok) (d a b : VSpec) (m : Fin 8) : State → Out :=
  vxTo (.vins t d a b m) 32 [a, b] d fun v old =>
    (List.range 1024).foldl
      (fun (x : Tile) l => if v.core.on m l then put x (Fin.ofNat 1024 (v.n 10 1 l)) (v.x 0 l) else x) old

/-- VPACK: narrow elements into part q of the lanes; lanes outside it count as masked off (R459). -/
def execVpack (t : Tok) (d a b : VSpec) (m : Fin 8) (ty : DTy) : State → Out :=
  let w := DTy.width ty
  let n := 32 / w
  vxTo (.vpack t d a b m ty) w [a, b] d fun v old => tileOf fun l =>
    let part := 1024 / n
    let q := v.n 3 1 0 % n
    if v.core.on m l && l / part = q then
      BitVec.ofNat 32 (((List.range n).map fun k => v.n w 0 (l % part * n + k) * 2 ^ (k * w)).sum)
    else laneOf old l

/-- VUNPK: part q to one element per lane, sign-extended for signed integers (R459). -/
def execVunpk (t : Tok) (d a b : VSpec) (m : Fin 8) (ty : DTy) : State → Out :=
  let w := DTy.width ty
  let n := 32 / w
  vxLanes (.vunpk t d a b m ty) w [a, b] d m fun v l =>
    let x := fld (v.x 0 (v.n 3 1 0 % n * (1024 / n) + l / n)).toNat (l % n * w) w
    match ty with
    | .i s => if ITy.signed s then signLane w x else BitVec.ofNat 32 x
    | .f _ => BitVec.ofNat 32 x

/-! ## Reductions and scans -/

/-- One step of a reduction or a scan (R444): elements are codes of the type; `lane` and `part` are those of the
draw, and `lane` that of a device NaN. -/
inductive AxisOp where
  | add | max | min
  deriving DecidableEq, Repr

def axisStep (op : AxisOp) (ty : DTy) (env : VxEnv) (lane part : Nat) (x y : Lane) : Lane :=
  match ty with
  | .f t =>
    let a := Val.ofF t x.toNat
    let b := Val.ofF t y.toNat
    let dv := env.dv lane
    match op with
    | .add => env.round ty lane part (a.add env.md dv b)
    | .max => env.round ty lane part (Val.minmax Val.greater false dv a b)
    | .min => env.round ty lane part (Val.minmax Val.lesser false dv a b)
  | .i t =>
    let a := intOf t x.toNat
    let b := intOf t y.toNat
    BitVec.ofNat 32 (wrapTo (ITy.width t)
      (match op with | .add => a + b | .max => if b ≤ a then a else b | .min => if a ≤ b then a else b))

/-- Neighbours combined; f takes the index of the pair. -/
def pairUp (f : Nat → Lane → Lane → Lane) : Nat → List Lane → List Lane
  | j, a :: b :: rest => f j a b :: pairUp f (j + 1) rest
  | _, l => l

/-- The tree of R444 from level lv on, n levels. -/
def treeUp (f : Nat → Nat → Lane → Lane → Lane) : Nat → Nat → List Lane → Lane
  | 0, _, l => l.headD 0
  | n + 1, lv, l => treeUp f n (lv + 1) (pairUp (f lv) 0 l)

/-- The sequence of R444: the value before, the element's index and the elements from it on. -/
def scanOn (f : Nat → Lane → Lane → Lane) : Nat → Lane → List Lane → List Lane
  | _, _, [] => []
  | t, x, y :: ys => let z := f t x y; z :: scanOn f (t + 1) z ys

/-- Element t of line n, along a row or down a column, and its lane (R443). -/
def axisLane (row : Bool) (n t : Nat) : Nat := if row then 64 * n + t else 64 * t + n

/-- The elements of line n of source A (R444). -/
def axisLine (v : VxIn) (w : Nat) (row : Bool) (n : Nat) : List Lane :=
  (List.range (if row then 64 else 16)).map fun t => BitVec.ofNat 32 (v.n w 0 (axisLane row n t))

/-- A reduction of every line, written in every place of the line (R444). -/
def vxReduce (i : Instr) (a : VSpec) (d : VSpec) (m : Fin 8) (ty : DTy) (op : AxisOp) (row : Bool) : State → Out :=
  vxTo i (DTy.width ty) [a] d fun v old =>
    let res := (List.range (if row then 16 else 64)).map fun n =>
      treeUp (fun lv j x y => axisStep op ty v.env (axisLane row n (2 ^ lv * j)) lv x y) (if row then 6 else 4) 1
        (axisLine v (DTy.width ty) row n)
    v.core.masked m old fun l => res.getD (if row then l / 64 else l % 64) 0

/-- An inclusive scan of every line (R444). -/
def vxScan (i : Instr) (a : VSpec) (d : VSpec) (m : Fin 8) (ty : DTy) (op : AxisOp) (row : Bool) : State → Out :=
  vxTo i (DTy.width ty) [a] d fun v old =>
    let res := (List.range (if row then 16 else 64)).map fun n =>
      match axisLine v (DTy.width ty) row n with
      | [] => []
      | x :: xs => x :: scanOn (fun t p y => axisStep op ty v.env (axisLane row n t) 0 p y) 1 x xs
    v.core.masked m old fun l =>
      if row then (res.getD (l / 64) []).getD (l % 64) 0 else (res.getD (l % 64) []).getD (l / 64) 0

/-- VREDR.ADD (R444). -/
def execVredrAdd (t : Tok) (d a : VSpec) (m : Fin 8) (ty : DTy) : State → Out :=
  vxReduce (.vredrAdd t d a m ty) a d m ty .add true

/-- VREDR.MAX (R444). -/
def execVredrMax (t : Tok) (d a : VSpec) (m : Fin 8) (ty : DTy) : State → Out :=
  vxReduce (.vredrMax t d a m ty) a d m ty .max true

/-- VREDR.MIN (R444). -/
def execVredrMin (t : Tok) (d a : VSpec) (m : Fin 8) (ty : DTy) : State → Out :=
  vxReduce (.vredrMin t d a m ty) a d m ty .min true

/-- VREDC.ADD (R444). -/
def execVredcAdd (t : Tok) (d a : VSpec) (m : Fin 8) (ty : DTy) : State → Out :=
  vxReduce (.vredcAdd t d a m ty) a d m ty .add false

/-- VREDC.MAX (R444). -/
def execVredcMax (t : Tok) (d a : VSpec) (m : Fin 8) (ty : DTy) : State → Out :=
  vxReduce (.vredcMax t d a m ty) a d m ty .max false

/-- VREDC.MIN (R444). -/
def execVredcMin (t : Tok) (d a : VSpec) (m : Fin 8) (ty : DTy) : State → Out :=
  vxReduce (.vredcMin t d a m ty) a d m ty .min false

/-- VSCANR.ADD (R444). -/
def execVscanrAdd (t : Tok) (d a : VSpec) (m : Fin 8) (ty : DTy) : State → Out :=
  vxScan (.vscanrAdd t d a m ty) a d m ty .add true

/-- VSCANR.MAX (R444). -/
def execVscanrMax (t : Tok) (d a : VSpec) (m : Fin 8) (ty : DTy) : State → Out :=
  vxScan (.vscanrMax t d a m ty) a d m ty .max true

/-- VSCANC.ADD (R444). -/
def execVscancAdd (t : Tok) (d a : VSpec) (m : Fin 8) (ty : DTy) : State → Out :=
  vxScan (.vscancAdd t d a m ty) a d m ty .add false

/-- VSCANC.MAX (R444). -/
def execVscancMax (t : Tok) (d a : VSpec) (m : Fin 8) (ty : DTy) : State → Out :=
  vxScan (.vscancMax t d a m ty) a d m ty .max false

/-! ## Sparsity, masks, random bits -/

/-- The rank of a magnitude: NaN above infinity, equal NaNs (R462). -/
def magRank (t : FTy) (code : Nat) : Nat :=
  match Val.ofF t code with
  | .nan _ => 2 ^ 32
  | _ => fld code 0 (FTy.width t - 1)

/-- The place of element k of a group of eight in the ranking by magnitude, equals by lower lane first (R462). -/
def groupPlace (ms : List Nat) (k : Nat) : Nat :=
  let x := ms.getD k 0
  ((List.range 8).filter fun j => x < ms.getD j 0 || (x = ms.getD j 0 && j < k)).length

/-- The lanes of a group that are kept, ascending (R462). -/
def kept (ms : List Nat) (n : Nat) : List Nat := (List.range 8).filter fun k => groupPlace ms k < n

/-- VSPZ: the n largest of each group of eight, and their indices (R462). -/
def execVspz (t : Tok) (d a : VSpec) (k : BitVec 6) (m : Fin 8) (ty : FTy) : State → Out :=
  let w := FTy.width ty
  vxTo (.vspz t d a k m ty) w [a] d fun v old =>
    let ks := (List.range 128).map fun g => kept ((List.range 8).map fun j => magRank ty (v.n w 0 (8 * g + j))) k.toNat
    v.core.masked m old fun l =>
      let l8 := l / 8 * 8
      let ix := ks.getD (l / 8) []
      if l % 8 = 7 then BitVec.ofNat 32 (((List.range k.toNat).map fun i => ix.getD i 0 * 2 ^ (3 * i)).sum)
      else if l % 8 < k.toNat then BitVec.ofNat 32 (v.n w 0 (l8 + ix.getD (l % 8) 0))
      else 0

/-- A bit of a mask operation (R456). -/
def mopBit (op : MOp) (i j : Bool) : Bool :=
  match op with
  | .and => i && j | .or => i || j | .xor => i ^^ j | .andn => i && !j | .not => !i | .mov => i | .set => true | .clr => false

/-- VMOP: masks combined (R456). -/
def execVmop (t : Tok) (d a b : Fin 8) (op : MOp) : State → Out :=
  vxMask (.vmop t d a b op) 32 [] d fun v l => mopBit op (v.core.on a l) (v.core.on b l)

/-- VMCNT: the bits of a mask counted, in all or below each lane; every lane is written (R457). -/
def execVmcnt (t : Tok) (d : VSpec) (k : BitVec 6) (m : Fin 8) : State → Out :=
  vxTo (.vmcnt t d k m) 32 [] d fun v _ => tileOf fun l =>
    BitVec.ofNat 32 ((List.range (if k = 0 then 1024 else l)).filter fun j => v.core.on m j).length

/-- The random bits of a lane (R460). -/
def randBits (v : VxIn) (l : Nat) : Word := mix v.env.seed v.env.c0r (mixC1 l 0 0)

/-- VRAND: 32 random bits in each lane (R460). -/
def execVrand (t : Tok) (d : VSpec) (m : Fin 8) : State → Out :=
  vxLanes (.vrand t d m) 32 [] d m fun v l => (randBits v l).setWidth 32

/-- A uniform value in [0, 1), exact in its type (R460). -/
def uniform (ty : FTy) (h : Word) : Val :=
  match ty with
  | .f32 => .num false (wf h 40 24) (-24)
  | .bf16 => .num false (wf h 56 8) (-8)
  | _ => .num false (wf h 53 11) (-11)

/-- VRAND.U: a uniform value in each lane (R460). -/
def execVrandU (t : Tok) (d : VSpec) (m : Fin 8) (ty : FTy) : State → Out :=
  vxLanes (.vrandU t d m ty) (FTy.width ty) [] d m fun v l => v.env.round (.f ty) l 0 (uniform ty (randBits v l))

end Sys2Proof.Machine
end

