-- ==== Sys2Proof/Machine/Dispatch.lean ====
section
/-!
DEFINITION. The one dispatch from an instruction, Lantern step or event to its meaning.
-/
namespace Sys2Proof.Machine

/-- The meaning of an instruction in a state. -/
def exec (i : Instr) (s : State) : Host.Outcome State Fault Refusal :=
  match i with
  | .nop t => Sys2Proof.Machine.execNop t s
  | .add t d a b => Sys2Proof.Machine.execAdd t d a b s
  | .addS t d a b => Sys2Proof.Machine.execAddS t d a b s
  | .addUs t d a b => Sys2Proof.Machine.execAddUs t d a b s
  | .addI t d a imm => Sys2Proof.Machine.execAddI t d a imm s
  | .sub t d a b => Sys2Proof.Machine.execSub t d a b s
  | .subS t d a b => Sys2Proof.Machine.execSubS t d a b s
  | .subUs t d a b => Sys2Proof.Machine.execSubUs t d a b s
  | .mul t d a b => Sys2Proof.Machine.execMul t d a b s
  | .mulS t d a b => Sys2Proof.Machine.execMulS t d a b s
  | .mulHi t d a b => Sys2Proof.Machine.execMulHi t d a b s
  | .mulHu t d a b => Sys2Proof.Machine.execMulHu t d a b s
  | .mulI t d a imm => Sys2Proof.Machine.execMulI t d a imm s
  | .div t d a b => Sys2Proof.Machine.execDiv t d a b s
  | .divU t d a b => Sys2Proof.Machine.execDivU t d a b s
  | .divR t d a b => Sys2Proof.Machine.execDivR t d a b s
  | .divRu t d a b => Sys2Proof.Machine.execDivRu t d a b s
  | .and t d a b => Sys2Proof.Machine.execAnd t d a b s
  | .andI t d a imm => Sys2Proof.Machine.execAndI t d a imm s
  | .or t d a b => Sys2Proof.Machine.execOr t d a b s
  | .orI t d a imm => Sys2Proof.Machine.execOrI t d a imm s
  | .xor t d a b => Sys2Proof.Machine.execXor t d a b s
  | .xorI t d a imm => Sys2Proof.Machine.execXorI t d a imm s
  | .shl t d a b => Sys2Proof.Machine.execShl t d a b s
  | .shlI t d a k => Sys2Proof.Machine.execShlI t d a k s
  | .shr t d a b => Sys2Proof.Machine.execShr t d a b s
  | .shrI t d a k => Sys2Proof.Machine.execShrI t d a k s
  | .shrA t d a b => Sys2Proof.Machine.execShrA t d a b s
  | .shrAi t d a k => Sys2Proof.Machine.execShrAi t d a k s
  | .cmp t d a b c => Sys2Proof.Machine.execCmp t d a b c s
  | .sel t d a b c => Sys2Proof.Machine.execSel t d a b c s
  | .min t d a b => Sys2Proof.Machine.execMin t d a b s
  | .minU t d a b => Sys2Proof.Machine.execMinU t d a b s
  | .max t d a b => Sys2Proof.Machine.execMax t d a b s
  | .maxU t d a b => Sys2Proof.Machine.execMaxU t d a b s
  | .bits t d a pos wid => Sys2Proof.Machine.execBits t d a pos wid s
  | .bitsS t d a pos wid => Sys2Proof.Machine.execBitsS t d a pos wid s
  | .bitsIns t d a pos wid => Sys2Proof.Machine.execBitsIns t d a pos wid s
  | .bitsCnt t d a => Sys2Proof.Machine.execBitsCnt t d a s
  | .bitsClz t d a => Sys2Proof.Machine.execBitsClz t d a s
  | .mov t d a => Sys2Proof.Machine.execMov t d a s
  | .movQw t a q => Sys2Proof.Machine.execMovQw t a q s
  | .movQr t d q => Sys2Proof.Machine.execMovQr t d q s
  | .movi t d imm => Sys2Proof.Machine.execMovi t d imm s
  | .moviL t d imm hi => Sys2Proof.Machine.execMoviL t d imm hi s
  | .apat t a b p => Sys2Proof.Machine.execApat t a b p s
  | .br t c a b off => Sys2Proof.Machine.execBr t c a b off s
  | .jmp t off => Sys2Proof.Machine.execJmp t off s
  | .jmpR t a => Sys2Proof.Machine.execJmpR t a s
  | .jmpL t tgt => Sys2Proof.Machine.execJmpL t tgt s
  | .call t a off => Sys2Proof.Machine.execCall t a off s
  | .callR t a b => Sys2Proof.Machine.execCallR t a b s
  | .callL t a tgt => Sys2Proof.Machine.execCallL t a tgt s
  | .ret t a => Sys2Proof.Machine.execRet t a s
  | .loop t n off => Sys2Proof.Machine.execLoop t n off s
  | .loopR t a off => Sys2Proof.Machine.execLoopR t a off s
  | .sld t d a fn => Sys2Proof.Machine.execSld t d a fn s
  | .sldW t d a fn => Sys2Proof.Machine.execSldW t d a fn s
  | .sldWs t d a fn => Sys2Proof.Machine.execSldWs t d a fn s
  | .sst t a b fn => Sys2Proof.Machine.execSst t a b fn s
  | .sstW t a b fn => Sys2Proof.Machine.execSstW t a b fn s
  | .getsr t d n => Sys2Proof.Machine.execGetsr t d n s
  | .setsr t a n => Sys2Proof.Machine.execSetsr t a n s
  | .trap t n => Sys2Proof.Machine.execTrap t n s
  | .bkpt t n => Sys2Proof.Machine.execBkpt t n s
  | .tend t => Sys2Proof.Machine.execTend t s
  | .tspawn t a => Sys2Proof.Machine.execTspawn t a s
  | .tjoin t a => Sys2Proof.Machine.execTjoin t a s
  | .yield t => Sys2Proof.Machine.execYield t s
  | .fenceAcq t sc => Sys2Proof.Machine.execFenceAcq t sc s
  | .fenceRel t sc => Sys2Proof.Machine.execFenceRel t sc s
  | .fence t sc => Sys2Proof.Machine.execFence t sc s
  | .mark t => Sys2Proof.Machine.execMark t s
  | .quies t => Sys2Proof.Machine.execQuies t s
  | .notify t a => Sys2Proof.Machine.execNotify t a s
  | .gpget t d n => Sys2Proof.Machine.execGpget t d n s
  | .gpset t a n => Sys2Proof.Machine.execGpset t a n s
  | .vld t r p rep st sp et => Sys2Proof.Machine.execVld t r p rep st sp et s
  | .vldx t r p rep st sp et colp => Sys2Proof.Machine.execVldx t r p rep st sp et colp s
  | .vst t r p rep st sp et => Sys2Proof.Machine.execVst t r p rep st sp et s
  | .vstx t r p rep st sp et colp => Sys2Proof.Machine.execVstx t r p rep st sp et colp s
  | .vadd t d a b m ty => Sys2Proof.Machine.execVadd t d a b m ty s
  | .vsub t d a b m ty => Sys2Proof.Machine.execVsub t d a b m ty s
  | .vmul t d a b m ty => Sys2Proof.Machine.execVmul t d a b m ty s
  | .vfma t d a b c m ty => Sys2Proof.Machine.execVfma t d a b c m ty s
  | .vfmaNm t d a b c m ty => Sys2Proof.Machine.execVfmaNm t d a b c m ty s
  | .vdiv t d a b m ty => Sys2Proof.Machine.execVdiv t d a b m ty s
  | .vsqrt t d a m ty => Sys2Proof.Machine.execVsqrt t d a m ty s
  | .vsfExp2 t d a m ty => Sys2Proof.Machine.execVsfExp2 t d a m ty s
  | .vsfLog2 t d a m ty => Sys2Proof.Machine.execVsfLog2 t d a m ty s
  | .vsfRcp t d a m ty => Sys2Proof.Machine.execVsfRcp t d a m ty s
  | .vsfRsqrt t d a m ty => Sys2Proof.Machine.execVsfRsqrt t d a m ty s
  | .vsfSin t d a m ty => Sys2Proof.Machine.execVsfSin t d a m ty s
  | .vsfCos t d a m ty => Sys2Proof.Machine.execVsfCos t d a m ty s
  | .vsfTanh t d a m ty => Sys2Proof.Machine.execVsfTanh t d a m ty s
  | .vsfErf t d a m ty => Sys2Proof.Machine.execVsfErf t d a m ty s
  | .vsfSigm t d a m ty => Sys2Proof.Machine.execVsfSigm t d a m ty s
  | .vmin t d a b m ty => Sys2Proof.Machine.execVmin t d a b m ty s
  | .vminP t d a b m ty => Sys2Proof.Machine.execVminP t d a b m ty s
  | .vmax t d a b m ty => Sys2Proof.Machine.execVmax t d a b m ty s
  | .vmaxP t d a b m ty => Sys2Proof.Machine.execVmaxP t d a b m ty s
  | .vcmp t d a b c m ty => Sys2Proof.Machine.execVcmp t d a b c m ty s
  | .vicmp t d a b c m ty => Sys2Proof.Machine.execVicmp t d a b c m ty s
  | .vsel t d a b m => Sys2Proof.Machine.execVsel t d a b m s
  | .vmov t d a m => Sys2Proof.Machine.execVmov t d a m s
  | .vmovI t d m imm => Sys2Proof.Machine.execVmovI t d m imm s
  | .vcvt t d a m dst src => Sys2Proof.Machine.execVcvt t d a m dst src s
  | .viadd t d a b m ty => Sys2Proof.Machine.execViadd t d a b m ty s
  | .viaddS t d a b m ty => Sys2Proof.Machine.execViaddS t d a b m ty s
  | .visub t d a b m ty => Sys2Proof.Machine.execVisub t d a b m ty s
  | .visubS t d a b m ty => Sys2Proof.Machine.execVisubS t d a b m ty s
  | .vimul t d a b m ty => Sys2Proof.Machine.execVimul t d a b m ty s
  | .vimulS t d a b m ty => Sys2Proof.Machine.execVimulS t d a b m ty s
  | .vimulHi t d a b m ty => Sys2Proof.Machine.execVimulHi t d a b m ty s
  | .vimin t d a b m ty => Sys2Proof.Machine.execVimin t d a b m ty s
  | .vimax t d a b m ty => Sys2Proof.Machine.execVimax t d a b m ty s
  | .vand t d a b m => Sys2Proof.Machine.execVand t d a b m s
  | .vor t d a b m => Sys2Proof.Machine.execVor t d a b m s
  | .vxor t d a b m => Sys2Proof.Machine.execVxor t d a b m s
  | .vshl t d a b m ty => Sys2Proof.Machine.execVshl t d a b m ty s
  | .vshr t d a b m ty => Sys2Proof.Machine.execVshr t d a b m ty s
  | .vshlI t d a k m ty => Sys2Proof.Machine.execVshlI t d a k m ty s
  | .vshrI t d a k m ty => Sys2Proof.Machine.execVshrI t d a k m ty s
  | .vpermb t d a b m => Sys2Proof.Machine.execVpermb t d a b m s
  | .vrotr t d a k m => Sys2Proof.Machine.execVrotr t d a k m s
  | .vrotc t d a k m => Sys2Proof.Machine.execVrotc t d a k m s
  | .vbcr t d a k m => Sys2Proof.Machine.execVbcr t d a k m s
  | .vbcc t d a k m => Sys2Proof.Machine.execVbcc t d a k m s
  | .vredrAdd t d a m ty => Sys2Proof.Machine.execVredrAdd t d a m ty s
  | .vredrMax t d a m ty => Sys2Proof.Machine.execVredrMax t d a m ty s
  | .vredrMin t d a m ty => Sys2Proof.Machine.execVredrMin t d a m ty s
  | .vredcAdd t d a m ty => Sys2Proof.Machine.execVredcAdd t d a m ty s
  | .vredcMax t d a m ty => Sys2Proof.Machine.execVredcMax t d a m ty s
  | .vredcMin t d a m ty => Sys2Proof.Machine.execVredcMin t d a m ty s
  | .vscanrAdd t d a m ty => Sys2Proof.Machine.execVscanrAdd t d a m ty s
  | .vscanrMax t d a m ty => Sys2Proof.Machine.execVscanrMax t d a m ty s
  | .vscancAdd t d a m ty => Sys2Proof.Machine.execVscancAdd t d a m ty s
  | .vscancMax t d a m ty => Sys2Proof.Machine.execVscancMax t d a m ty s
  | .vtrn t d a m => Sys2Proof.Machine.execVtrn t d a m s
  | .viota t d a m ty => Sys2Proof.Machine.execViota t d a m ty s
  | .vspl t d a b m => Sys2Proof.Machine.execVspl t d a b m s
  | .vext t d a b m => Sys2Proof.Machine.execVext t d a b m s
  | .vins t d a b m => Sys2Proof.Machine.execVins t d a b m s
  | .vpack t d a b m ty => Sys2Proof.Machine.execVpack t d a b m ty s
  | .vunpk t d a b m ty => Sys2Proof.Machine.execVunpk t d a b m ty s
  | .vspz t d a k m ty => Sys2Proof.Machine.execVspz t d a k m ty s
  | .vmop t d a b op => Sys2Proof.Machine.execVmop t d a b op s
  | .vmcnt t d k m => Sys2Proof.Machine.execVmcnt t d k m s
  | .vrand t d m => Sys2Proof.Machine.execVrand t d m s
  | .vrandU t d m ty => Sys2Proof.Machine.execVrandU t d m ty s
  | .mzero t acc rep => Sys2Proof.Machine.execMzero t acc rep s
  | .mwld t p it => Sys2Proof.Machine.execMwld t p it s
  | .mwldS4 t p it => Sys2Proof.Machine.execMwldS4 t p it s
  | .mwldS2 t p it => Sys2Proof.Machine.execMwldS2 t p it s
  | .mwldS1 t p it => Sys2Proof.Machine.execMwldS1 t p it s
  | .mmul t acc p rep shp it srcq mark => Sys2Proof.Machine.execMmul t acc p rep shp it srcq mark s
  | .matt t acc p rep it causal init mark acc2 p2 => Sys2Proof.Machine.execMatt t acc p rep it causal init mark acc2 p2 s
  | .mdrn t acc p rep fold => Sys2Proof.Machine.execMdrn t acc p rep fold s
  | .mdrnF t acc p rep => Sys2Proof.Machine.execMdrnF t acc p rep s
  | .mdrnSm t acc p rep => Sys2Proof.Machine.execMdrnSm t acc p rep s
  | .mepi t p => Sys2Proof.Machine.execMepi t p s
  | .macfg t p => Sys2Proof.Machine.execMacfg t p s
  | .xcp t sa sb => Sys2Proof.Machine.execXcp t sa sb s
  | .xcpCvt t sa sb => Sys2Proof.Machine.execXcpCvt t sa sb s
  | .xcpMc t sa sb => Sys2Proof.Machine.execXcpMc t sa sb s
  | .xcpKv t sa sb => Sys2Proof.Machine.execXcpKv t sa sb s
  | .xaccAdd t sa sb => Sys2Proof.Machine.execXaccAdd t sa sb s
  | .xaccMin t sa sb => Sys2Proof.Machine.execXaccMin t sa sb s
  | .xaccMax t sa sb => Sys2Proof.Machine.execXaccMax t sa sb s
  | .xaccAnd t sa sb => Sys2Proof.Machine.execXaccAnd t sa sb s
  | .xaccOr t sa sb => Sys2Proof.Machine.execXaccOr t sa sb s
  | .xaccXor t sa sb => Sys2Proof.Machine.execXaccXor t sa sb s
  | .xatomAdd t sa sb => Sys2Proof.Machine.execXatomAdd t sa sb s
  | .xatomMin t sa sb => Sys2Proof.Machine.execXatomMin t sa sb s
  | .xatomMax t sa sb => Sys2Proof.Machine.execXatomMax t sa sb s
  | .xatomAnd t sa sb => Sys2Proof.Machine.execXatomAnd t sa sb s
  | .xatomOr t sa sb => Sys2Proof.Machine.execXatomOr t sa sb s
  | .xatomXor t sa sb => Sys2Proof.Machine.execXatomXor t sa sb s
  | .xatomSwap t sa sb => Sys2Proof.Machine.execXatomSwap t sa sb s
  | .xatomCas t sa sb => Sys2Proof.Machine.execXatomCas t sa sb s
  | .xfill t sa sb => Sys2Proof.Machine.execXfill t sa sb s
  | .vatomAdd t sa v => Sys2Proof.Machine.execVatomAdd t sa v s
  | .vatomMin t sa v => Sys2Proof.Machine.execVatomMin t sa v s
  | .vatomMax t sa v => Sys2Proof.Machine.execVatomMax t sa v s
  | .vatomAnd t sa v => Sys2Proof.Machine.execVatomAnd t sa v s
  | .vatomOr t sa v => Sys2Proof.Machine.execVatomOr t sa v s
  | .vatomXor t sa v => Sys2Proof.Machine.execVatomXor t sa v s
  | .binit t sa => Sys2Proof.Machine.execBinit t sa s
  | .barv t sb => Sys2Proof.Machine.execBarv t sb s
  | .bwait t sb p => Sys2Proof.Machine.execBwait t sb p s
  | .rngcfg t sa => Sys2Proof.Machine.execRngcfg t sa s
  | .rngwf t sb addr => Sys2Proof.Machine.execRngwf t sb addr s
  | .rngwe t sb addr => Sys2Proof.Machine.execRngwe t sb addr s
  | .rngpub t sb => Sys2Proof.Machine.execRngpub t sb s
  | .rngrel t sb => Sys2Proof.Machine.execRngrel t sb s
  | .btld t sa => Sys2Proof.Machine.execBtld t sa s
  | .btlk t sa => Sys2Proof.Machine.execBtlk t sa s
  | .btinv t sa => Sys2Proof.Machine.execBtinv t sa s
  | .balloc t sa => Sys2Proof.Machine.execBalloc t sa s
  | .bfree t sa => Sys2Proof.Machine.execBfree t sa s
  | .bref t sa => Sys2Proof.Machine.execBref t sa s
  | .btopen t sa => Sys2Proof.Machine.execBtopen t sa s
  | .btclose t sa => Sys2Proof.Machine.execBtclose t sa s
  | .btapp t sa => Sys2Proof.Machine.execBtapp t sa s
  | .btfork t sa => Sys2Proof.Machine.execBtfork t sa s
  | .bttrim t sa => Sys2Proof.Machine.execBttrim t sa s
  | .btcmt t sa => Sys2Proof.Machine.execBtcmt t sa s
  | .bhfind t sa => Sys2Proof.Machine.execBhfind t sa s
  | .bhpub t sa => Sys2Proof.Machine.execBhpub t sa s
  | .itbind t sa => Sys2Proof.Machine.execItbind t sa s
  | .itgo t sa => Sys2Proof.Machine.execItgo t sa s
  | .itstat t sa => Sys2Proof.Machine.execItstat t sa s
  | .objplace t sa => Sys2Proof.Machine.execObjplace t sa s
  | .objpin t sa => Sys2Proof.Machine.execObjpin t sa s
  | .rgcfg t sa => Sys2Proof.Machine.execRgcfg t sa s
  | .rgpush t sa => Sys2Proof.Machine.execRgpush t sa s
  | .rgtakeTake t sa => Sys2Proof.Machine.execRgtakeTake t sa s
  | .rgtakeRelease t sa => Sys2Proof.Machine.execRgtakeRelease t sa s
  | .smbind t sa => Sys2Proof.Machine.execSmbind t sa s
  | .smrun t sa => Sys2Proof.Machine.execSmrun t sa s
  | .clrslow t sa => Sys2Proof.Machine.execClrslow t sa s
  | .addcnt t sa => Sys2Proof.Machine.execAddcnt t sa s
  | .clrcnt t sa => Sys2Proof.Machine.execClrcnt t sa s
  | .armv t sa => Sys2Proof.Machine.execArmv t sa s
  | .setstep t sa => Sys2Proof.Machine.execSetstep t sa s
  | .smstat t sa => Sys2Proof.Machine.execSmstat t sa s
  | .lnrun t sa => Sys2Proof.Machine.execLnrun t sa s
  | .lnstat t sa => Sys2Proof.Machine.execLnstat t sa s
  | .lnsend f => Sys2Proof.Machine.execLnsend f s
  | .lnrecv f => Sys2Proof.Machine.execLnrecv f s
  | .lnrrs f => Sys2Proof.Machine.execLnrrs f s
  | .lncopy f => Sys2Proof.Machine.execLncopy f s
  | .lnwait cell p => Sys2Proof.Machine.execLnwait cell p s
  | .lnsig cell => Sys2Proof.Machine.execLnsig cell s
  | .lnloop k n => Sys2Proof.Machine.execLnloop k n s
  | .lnendl k => Sys2Proof.Machine.execLnendl k s
  | .lnend => Sys2Proof.Machine.execLnend s
  | .copyElement d e k => Sys2Proof.Machine.execCopyElement d e k s
  | .commandComplete d e k => Sys2Proof.Machine.execCommandComplete d e k s
  | .powerUp => Sys2Proof.Machine.execPowerUp s
  | .powerLoss => Sys2Proof.Machine.execPowerLoss s
  | .restart key => Sys2Proof.Machine.execRestart key s
  | .functionLevelReset => Sys2Proof.Machine.execFunctionLevelReset s
  | .bootgo len => Sys2Proof.Machine.execBootgo len s
  | .bootEnd => Sys2Proof.Machine.execBootEnd s
  | .ataddr v => Sys2Proof.Machine.execAtaddr v s
  | .attestationReportEnd => Sys2Proof.Machine.execAttestationReportEnd s
  | .measurementExtend n v => Sys2Proof.Machine.execMeasurementExtend n v s
  | .registerWrite ag w off size v => Sys2Proof.Machine.execRegisterWrite ag w off size v s
  | .msixUnmask n => Sys2Proof.Machine.execMsixUnmask n s
  | .replay ag c v => Sys2Proof.Machine.execReplay ag c v s
  | .susp ag c v => Sys2Proof.Machine.execSusp ag c v s
  | .coal ag c v => Sys2Proof.Machine.execCoal ag c v s
  | .coalWindowExpiry c => Sys2Proof.Machine.execCoalWindowExpiry c s
  | .tresResume ag c q => Sys2Proof.Machine.execTresResume ag c q s
  | .tresResumePast ag c q => Sys2Proof.Machine.execTresResumePast ag c q s
  | .tresRetire ag c q => Sys2Proof.Machine.execTresRetire ag c q s
  | .tresAbort ag c q => Sys2Proof.Machine.execTresAbort ag c q s
  | .tinv ag c v => Sys2Proof.Machine.execTinv ag c v s
  | .watchdogRequest g => Sys2Proof.Machine.execWatchdogRequest g s
  | .forcedSave g => Sys2Proof.Machine.execForcedSave g s
  | .fres ag c v => Sys2Proof.Machine.execFres ag c v s
  | .kill ag c v => Sys2Proof.Machine.execKill ag c v s
  | .killAcknowledge c code => Sys2Proof.Machine.execKillAcknowledge c code s
  | .campanileEnable ag d v => Sys2Proof.Machine.execCampanileEnable ag d v s
  | .poolEnable ag d p v => Sys2Proof.Machine.execPoolEnable ag d p v s
  | .poolDisable ag d p v => Sys2Proof.Machine.execPoolDisable ag d p v s
  | .cupolaEnable ag d v => Sys2Proof.Machine.execCupolaEnable ag d v s
  | .lanternEnable ag d v => Sys2Proof.Machine.execLanternEnable ag d v s
  | .taskStart g => Sys2Proof.Machine.execTaskStart g s
  | .taskResume g => Sys2Proof.Machine.execTaskResume g s
  | .taskRetire g => Sys2Proof.Machine.execTaskRetire g s
  | .safePointStop g => Sys2Proof.Machine.execSafePointStop g s
  | .taskSave g => Sys2Proof.Machine.execTaskSave g s
  | .spinThreshold g => Sys2Proof.Machine.execSpinThreshold g s
  | .internalDeadlock g => Sys2Proof.Machine.execInternalDeadlock g s
  | .trapRecord c => Sys2Proof.Machine.execTrapRecord c s
  | .waitforWalk => Sys2Proof.Machine.execWaitforWalk s
  | .launchEnd c => Sys2Proof.Machine.execLaunchEnd c s
  | .powerControllerWindow d => Sys2Proof.Machine.execPowerControllerWindow d s
  | .barrierArrival k => Sys2Proof.Machine.execBarrierArrival k s
  | .shardStart d sl h => Sys2Proof.Machine.execShardStart d sl h s
  | .shardMoved d k => Sys2Proof.Machine.execShardMoved d k s
  | .demandMark d => Sys2Proof.Machine.execDemandMark d s
  | .remoteListElement d k => Sys2Proof.Machine.execRemoteListElement d k s
  | .uncorrectableReport d => Sys2Proof.Machine.execUncorrectableReport d s
  | .quarantine d => Sys2Proof.Machine.execQuarantine d s
  | .segment d => Sys2Proof.Machine.execSegment d s
  | .rowRun d k => Sys2Proof.Machine.execRowRun d k s
  | .lanternProgramStart d => Sys2Proof.Machine.execLanternProgramStart d s
  | .rowWrite msg => Sys2Proof.Machine.execRowWrite msg s
  | .rowArrival msg => Sys2Proof.Machine.execRowArrival msg s
  | .lanternData msg => Sys2Proof.Machine.execLanternData msg s
  | .lanternArrival msg => Sys2Proof.Machine.execLanternArrival msg s
  | .belfryShard msg => Sys2Proof.Machine.execBelfryShard msg s
  | .copyData msg => Sys2Proof.Machine.execCopyData msg s
  | .copyArrival msg => Sys2Proof.Machine.execCopyArrival msg s
  | .poisonNotice msg => Sys2Proof.Machine.execPoisonNotice msg s
  | .reservedKindMessage msg => Sys2Proof.Machine.execReservedKindMessage msg s
  | .launchAreaWrite x size v => Sys2Proof.Machine.execLaunchAreaWrite x size v s

end Sys2Proof.Machine
end

