-- ==== Sys2Proof/Machine/Turn.lean ====
section
/-!
DEFINITION. What a step does around an instruction: the clocks and the step count, the acts of an engine that run
no instruction, memory errors arriving, and the placing of one instruction where the next step fetches it
(log entries 1, 5, 6 and 16).
-/
namespace Sys2Proof.Machine

/-- The move a step takes: the head of the agenda, or a free one where it is empty (log entry 5). -/
def nextMove (s : State) : Move := s.agenda.head?.getD (Config.freeMove s.m.seq)

/-- A free number of clocks passes on die d (R7, R241; log entry 6). -/
def clockDie (m : Mach) (d : Fin 4) : Mach :=
  m.onDie d fun x => { x with cycle := x.cycle + BitVec.ofNat 64 (Config.clocks m.seq d) }

/-- The units acknowledge the invalidations whose earlier operations they have completed (R191, step 3). -/
def settleAll (m : Mach) : Mach :=
  ((List.range 64).map toCtx).foldl (fun m c => if (m.ctx c).busy then m.settleUnits c else m) m

/-- Clocks pass on every die, units acknowledge what they owe, the step is counted, and no agent is in focus yet. -/
def turn (m : Mach) : Mach :=
  let m := settleAll (dieNums.foldl clockDie m)
  { m with seq := m.seq + 1, focus := .none }

/-- The state in which a step acts: its move taken from the agenda, its clocks passed. -/
def begun (s : State) : State := { s with m := turn s.m, agenda := s.agenda.tail }

/-- The state in which an agent acts. -/
def focused (s : State) (f : Focus) : State := { s with m := { s.m with focus := f } }

/-- The fetch of an engine's parcel, of both parcels of a long form, is a read of device memory by its context; so is SC's
look at the map under a request (R51, R120, R365, R366). -/
def noteFetch (g : Fin 256) (e : Engine) (m : Mach) : Mach :=
  match (m.core g).task with
  | some t =>
    let x := (m.core g).e e
    if x.job.isSome then m
    else
      let long := bit (leVal ((m.fetch t x.pc.toNat).take 6)) 47 && x.pc.toNat + 1 < t.nparcel.toNat
      (if e = .sc then m.noteMap g else m).noteReads t.ctx [(parcelAddr t x.pc.toNat, if long then 12 else 6)]
  | none => m

/-- An act of engine e of core g that runs no instruction (R45, R59, R93, R95, R204). -/
def walkOther (g : Fin 256) (e : Engine) (a : WalkAct) (m : Mach) : Mach :=
  match a with
  | .stay | .run _ => m
  | .pay => m.onCore g fun c => c.payTok e
  | .release => m.onCore g fun c =>
      match c.hold with
      | some h => ({ c with hold := none } : Core).pushTok .sc h.sig
      | none => c
  | .endOfText => m.takeTrap g .sc .illegal 0 0
  | .illegal info => (noteFetch g e m).takeTrap g e .illegal 0 info
  | .skip len => (noteFetch g e m).skip g e len

/-- A memory error arrives (R151, R155, R366; log entry 16). -/
def takeUpset (u : Upset) (m : Mach) : Mach :=
  match u with
  | .dev l => { m with devBad := l :: m.devBad }
  | .heal l => { m with devBad := m.devBad.filter (· ≠ l) }
  | .glitch l => { m with devGlitch := l :: m.devGlitch.filter (· ≠ l) }
  | .spad g l => m.onCore g fun c => { c with badLines := l :: c.badLines }
  | .parity g p r => m.onCore g fun c => { c with badPar := (p, r) :: c.badPar }
  | .acc g w => m.onCore g fun c => { c with badAcc := w :: c.badAcc }
  | .spadGlitch g l => m.onCore g fun c => { c with glitch := l :: c.glitch.filter (· ≠ l) }
  | .accGlitch g w => m.onCore g fun c => { c with glitchAcc := w :: c.glitchAcc.filter (· ≠ w) }

/-- Message k that a port holds for another package moves on: a present fabric port of its die takes it, and after that its
receiver accepts it (R38, R263, R285, R348). -/
def fabricTake (k : Nat) (m : Mach) : Mach :=
  match m.outbox[k]? with
  | some o =>
    if o.msg.dpkg = m.fabid then m
    else if o.sent then { m with outbox := m.outbox.eraseIdx k }
    else if m.fuses.fab[o.die.val] = 0 then m
    else { m with outbox := m.outbox.set k { o with sent := true } }
  | none => m

/-- The device address at which withFetchWord places its text: stage frame 16 of die 0. -/
def probeText : Nat := 0x400000100000

/-- The engine whose ENG a parcel holds, SC where the code is reserved. -/
def engOf (n : Nat) : Engine :=
  match n with | 1 => .ld | 2 => .st | 3 => .vx | 4 => .mx | 5 => .asy | _ => .sc

/-- The task that withFetchWord runs on core 0: context 0, a text of four parcels. -/
def probeTask : CoreTask :=
  ⟨0, 0, 0, 0, 0, 0, BitVec.ofNat 42 (probeText / 64), 0, 4, 0, 0, [0], true⟩

/-- Core 0 set to fetch at parcel 0 with engine e: SC stands after the parcel where another engine is to run, and
AS finds the operand values that SC posts, both zero (R47, R48). -/
def probeCore (e : Engine) (len : Nat) (c : Core) : Core :=
  let c := { c with task := some probeTask }
  if e = .sc then c
  else
    let c := c.onE .sc fun x => { x with pc := BitVec.ofNat 22 len, walk := BitVec.ofNat 32 len }
    if e = .asy then { c with out := upd c.out 4 (fun _ => [0]), cq := 1, vbuf := some Tile.zero } else c

/-- A program of one Lantern word, running on die 0. -/
def probeRun (w : Nat) : LnRun :=
  ⟨⟨0, 0, 0, 0, 0, []⟩, [BitVec.ofNat 64 w], [], [], 0, 0, Vector.replicate 3 0, false, 0, false, 0, none, none⟩

/-- The machine and the move with which the next step runs the instruction whose bits are w (log entry 1). -/
def placeWord (s : State) (nbits w : Nat) : State :=
  if nbits = 64 then
    { s with boot := { s.boot with state := 2 },
             m := s.m.onLan 0 fun l => { l with en := true, run := some (probeRun w) },
             agenda := .unit 0 .lantern :: s.agenda }
  else
    let e := engOf (fld w 44 3)
    let m := { s.m with dev := Memory.write s.m.dev probeText (leBytes 24 w) }
    { s with boot := { s.boot with state := 2 },
             m := m.onCore 0 (probeCore e (if bit w 47 then 2 else 1)),
             agenda := .walk 0 e :: s.agenda }

end Sys2Proof.Machine
end

