-- ==== Sys2Proof/Machine/Step.lean ====
section
/-!
DEFINITION. One step of the machine: one move of one agent (log entry 5), over the operations of Turn.lean and
the meanings that Dispatch.lean calls.
-/
namespace Sys2Proof.Machine

/-- A move of engine e of core g: the instruction it runs, or the act that runs none. -/
def walk (g : Fin 256) (e : Engine) (s : State) : Host.Outcome State Fault Refusal :=
  match walkAct s.m g e with
  | .run i => exec (resolve s.m g e i) (focused { s with m := (noteFetch g e s.m).noteTurn g e i } (.engine g e))
  | a => .next { s with m := walkOther g e a s.m }

/-- A move of a unit: the operation or step it acts on next (R171, R334, R343). -/
def unitTurn (d : Fin 4) (u : UnitKind) (s : State) : Host.Outcome State Fault Refusal :=
  match s.m.unitInstr d u with
  | some i => exec i (focused s (.unit d u))
  | none => .next s

/-- A move. -/
def act (v : Move) (s : State) : Host.Outcome State Fault Refusal :=
  match v with
  | .walk g e => walk g e s
  | .unit d u => unitTurn d u s
  | .event i => exec i s
  | .upset u => .next { s with m := takeUpset u s.m }
  | .fabricTakes k => .next { s with m := fabricTake k s.m }
  | .perform g => .next { s with m := s.m.performAccess g }
  | .returns d => .next { s with m := s.m.returnFrame d }
  | .areaRead x size => .next (areaRead x size s).2

/-- One step. A module without power does nothing until it is powered up (R360). -/
def step (s : State) : Host.Outcome State Fault Refusal :=
  if s.boot.powered || nextMove s = .event .powerUp then act (nextMove s) (begun s) else .next (begun s)

/-- s with the instruction whose bits are w where the next step fetches it (log entry 1). -/
def State.withFetchWord (s : State) (nbits w : Nat) : State := placeWord s nbits w

end Sys2Proof.Machine
end

