-- ==== Sys2Proof/WellFormed.lean ====
section
/-!
DEFINITION. Well-formed instructions: those that no encoding fault of R93 and R94 refuses
(spec/03_encoding.md). The checks themselves stand in Machine/Legal.lean, under a name each.
-/
namespace Sys2Proof

/-- An instruction that meets no encoding fault. An ill-formed one still decodes, and its engine traps. -/
def Instr.wellFormed (i : Instr) : Bool := (Machine.illForm i).isNone

end Sys2Proof
end

