-- ==== Sys2Proof/Certificates/Slice0/Obligations.lean ====
section
/-!
DEFINITION. The statements for the provers: what the rules of spec/ say that an instruction or the machine does. In
a statement, `after s m` is s with its machine replaced by m; an effect written with `Core.retire` retires as
statement RetireMovesOnAndPassesTokens says, one with `Core.transfer` transfers as the same statement says.
-/
namespace Sys2Proof.Claims
open Sys2Proof.Machine

/-! ## Who acts, and when a parcel may issue -/

/-- The state with its machine replaced. -/
def after (s : State) (m : Mach) : State := { s with m := m }

/-- Engine e of core g acts in s, on a module that the boot has made ready (R361). -/
abbrev acts (s : State) (g : Fin 256) (e : Engine) : Prop := s.boot.state = 2 ∧ s.m.focus = .engine g e

/-- A unit of die d acts in s, on a module that the boot has made ready. -/
abbrev unitActs (s : State) (d : Fin 4) (u : UnitKind) : Prop := s.boot.state = 2 ∧ s.m.focus = .unit d u

/-- Engine e of core g acts, and parcel i may issue: no encoding fault (R94), its WAIT token is there or has been
popped already (R59), and no access that SC has presented must be performed first (R199, R204). -/
abbrev mayIssue (i : Instr) (s : State) (g : Fin 256) (e : Engine) : Prop :=
  acts s g e ∧ i.wellFormed = true ∧ (((s.m.core g).e e).tokp = true ∨ (s.m.core g).hasTok e (tk i) = true) ∧
  (s.m.core g).storeFirst e i = false

/-- No memory error stands in any core (R151, R155). -/
def sound (m : Mach) : Prop := ∀ k, (m.core k).clean = true

/-- No port keeps a request in its place (R149). -/
def calm (m : Mach) : Prop := ∀ k, (m.core k).portq = []

/-- Core g changed by f, and its engine e past parcel i, which retires (R59). -/
def retired (s : State) (g : Fin 256) (e : Engine) (i : Instr) (f : Core → Core) : State :=
  after s (s.m.onCore g fun c => (f c).retire e (parcels i) (tk i))

/-- Two machines agree but for core g. -/
def sameButCore (g : Fin 256) (m m' : Mach) : Prop :=
  (∀ h, h ≠ g → m'.core h = m.core h) ∧ m'.ctxs = m.ctxs ∧ m'.dies = m.dies ∧ m'.dev = m.dev ∧ m'.host = m.host ∧
  m'.ops = m.ops ∧ m'.arrivals = m.arrivals ∧ m'.outbox = m.outbox ∧ m'.inbox = m.inbox ∧ m'.streams = m.streams ∧
  m'.regions = m.regions ∧ m'.pdec = m.pdec ∧ m'.msix = m.msix ∧ m'.fuses = m.fuses ∧ m'.errhead = m.errhead ∧
  m'.errlost = m.errlost ∧ m'.signallers = m.signallers

/-! ## What SC computes -/

/-- Integers held to the signed and to the unsigned range, and taken modulo 2^64 (R140). -/
def heldSigned (x : Int) : Word := BitVec.ofInt 64 (max (-2 ^ 63) (min (2 ^ 63 - 1) x))
def heldUnsigned (x : Int) : Word := BitVec.ofInt 64 (max 0 (min (2 ^ 64 - 1) x))
def wrapped (x : Int) : Word := BitVec.ofInt 64 x

/-- Additions, products and quotients: the destination and its value, from the registers of the core. -/
def arithResult (c : Core) : Instr → Option (Fin 32 × Word)
  | .add _ d a b => some (d, wrapped ((c.rs a).toNat + (c.rs b).toNat))
  | .addS _ d a b => some (d, heldSigned ((c.rs a).toInt + (c.rs b).toInt))
  | .addUs _ d a b => some (d, heldUnsigned ((c.rs a).toNat + (c.rs b).toNat))
  | .addI _ d a k => some (d, wrapped ((c.rs a).toNat + k.toInt))
  | .sub _ d a b => some (d, wrapped ((c.rs a).toNat - (c.rs b).toNat))
  | .subS _ d a b => some (d, heldSigned ((c.rs a).toInt - (c.rs b).toInt))
  | .subUs _ d a b => some (d, heldUnsigned ((c.rs a).toNat - (c.rs b).toNat))
  | .mul _ d a b => some (d, wrapped ((c.rs a).toNat * (c.rs b).toNat))
  | .mulS _ d a b => some (d, heldSigned ((c.rs a).toInt * (c.rs b).toInt))
  | .mulHi _ d a b => some (d, wrapped ((c.rs a).toInt * (c.rs b).toInt / 2 ^ 64))
  | .mulHu _ d a b => some (d, wrapped (((c.rs a).toNat * (c.rs b).toNat : Nat) / 2 ^ 64 : Nat))
  | .mulI _ d a k => some (d, wrapped ((c.rs a).toNat * k.toInt))
  | .div _ d a b => some (d, if c.rs b = 0 then BitVec.allOnes 64 else wrapped ((c.rs a).toInt.tdiv (c.rs b).toInt))
  | .divU _ d a b => some (d, if c.rs b = 0 then BitVec.allOnes 64 else wrapped ((c.rs a).toNat / (c.rs b).toNat : Nat))
  | .divR _ d a b => some (d, if c.rs b = 0 then c.rs a else wrapped ((c.rs a).toInt.tmod (c.rs b).toInt))
  | .divRu _ d a b => some (d, if c.rs b = 0 then c.rs a else wrapped ((c.rs a).toNat % (c.rs b).toNat : Nat))
  | .min _ d a b => some (d, wrapped (min (c.rs a).toInt (c.rs b).toInt))
  | .minU _ d a b => some (d, wrapped (min (c.rs a).toNat (c.rs b).toNat : Nat))
  | .max _ d a b => some (d, wrapped (max (c.rs a).toInt (c.rs b).toInt))
  | .maxU _ d a b => some (d, wrapped (max (c.rs a).toNat (c.rs b).toNat : Nat))
  | _ => none

/-- A scalar condition (R90), on the integers that it compares. -/
def condHolds (k : Cond) (a b : Word) : Prop :=
  match k with
  | .eq => a = b
  | .ne => a ≠ b
  | .lt => a.toInt < b.toInt
  | .ge => b.toInt ≤ a.toInt
  | .ltu => a.toNat < b.toNat
  | .geu => b.toNat ≤ a.toNat
  | .gt => b.toInt < a.toInt
  | .le => a.toInt ≤ b.toInt
  | .gtu => b.toNat < a.toNat
  | .leu => a.toNat ≤ b.toNat

/-- Bit n of the result of a logic, shift, field or move instruction: the destination and, for every bit, what it is. -/
def bitResult (c : Core) : Instr → Option (Fin 32 × (Nat → Bool))
  | .and _ d a b => some (d, fun n => (c.rs a).getLsbD n && (c.rs b).getLsbD n)
  | .andI _ d a k => some (d, fun n => (c.rs a).getLsbD n && (k.signExtend 64).getLsbD n)
  | .or _ d a b => some (d, fun n => (c.rs a).getLsbD n || (c.rs b).getLsbD n)
  | .orI _ d a k => some (d, fun n => (c.rs a).getLsbD n || (k.signExtend 64).getLsbD n)
  | .xor _ d a b => some (d, fun n => (c.rs a).getLsbD n ^^ (c.rs b).getLsbD n)
  | .xorI _ d a k => some (d, fun n => (c.rs a).getLsbD n ^^ (k.signExtend 64).getLsbD n)
  | .shl _ d a b => some (d, fun n => decide ((c.rs b).toNat ≤ n) && (c.rs a).getLsbD (n - (c.rs b).toNat))
  | .shlI _ d a k => some (d, fun n => decide (k.toNat ≤ n) && (c.rs a).getLsbD (n - k.toNat))
  | .shr _ d a b => some (d, fun n => (c.rs a).getLsbD (n + (c.rs b).toNat))
  | .shrI _ d a k => some (d, fun n => (c.rs a).getLsbD (n + k.toNat))
  | .shrA _ d a b => some (d, fun n => if n + (c.rs b).toNat < 64 then (c.rs a).getLsbD (n + (c.rs b).toNat) else (c.rs a).getLsbD 63)
  | .shrAi _ d a k => some (d, fun n => if n + k.toNat < 64 then (c.rs a).getLsbD (n + k.toNat) else (c.rs a).getLsbD 63)
  | .bits _ d a pos wid => some (d, fun n => decide (n ≤ wid.toNat) && (c.rs a).getLsbD (pos.toNat + n))
  | .bitsS _ d a pos wid => some (d, fun n => (c.rs a).getLsbD (pos.toNat + min n wid.toNat))
  | .bitsIns _ d a pos wid => some (d, fun n =>
      if pos.toNat ≤ n ∧ n ≤ pos.toNat + wid.toNat then (c.rs a).getLsbD (n - pos.toNat) else (c.rs d).getLsbD n)
  | .mov _ d a => some (d, fun n => (c.rs a).getLsbD n)
  | .movi _ d k => some (d, fun n => (k.signExtend 64).getLsbD n)
  | .moviL _ d k hi => some (d, fun n => if n < 20 then k.getLsbD n else hi.getLsbD (n - 20))
  | _ => none

end Sys2Proof.Claims

open Sys2Proof Sys2Proof.Machine Sys2Proof.Claims

/-! ## SC: registers -/

/-- R62: S0 reads zero, and a write to S0 is discarded. -/
def Obligations.S0ReadsZeroAndDiscards : Prop :=
  ∀ (c : Core) (x : Word), c.rs 0 = 0 ∧ c.ws 0 x = c ∧
    ∀ r : Fin 32, r ≠ 0 → (c.ws r x).rs r = x ∧ ∀ q, q ≠ r → (c.ws r x).rs q = c.rs q

/-- R371, R387, R405, R408, R431, R141: sums, differences, products, quotients, remainders, lesser and greater. R372,
R379, R406, R407, R414, R427, R466: logic, shifts, fields and moves, bit by bit. -/
def Obligations.ScComputesItsResults : Prop :=
  (∀ (i : Instr) (s : State) (g : Fin 256) (d : Fin 32) (x : Word), mayIssue i s g .sc →
     arithResult (s.m.core g) i = some (d, x) → exec i s = .next (retired s g .sc i fun c => c.ws d x)) ∧
  (∀ (i : Instr) (s : State) (g : Fin 256) (d : Fin 32) (f : Nat → Bool), mayIssue i s g .sc →
     bitResult (s.m.core g) i = some (d, f) →
     ∃ x : Word, (∀ n, n < 64 → x.getLsbD n = f n) ∧ exec i s = .next (retired s g .sc i fun c => c.ws d x))

/-- R386, R425, R379, R409: CMP gives 1 or 0, SEL one of two sources, BITS.CNT and BITS.CLZ count, NOP does nothing.
R55, R406: MOV.QW pushes onto a queue with room, MOV.QR pops the head, and on a full or an empty queue nothing
changes. -/
def Obligations.ScSelectsCountsAndMovesQueues : Prop :=
  ((∀ t d a b k s g, mayIssue (.cmp t d a b k) s g .sc → ∃ x : Word,
     (condHolds k ((s.m.core g).rs a) ((s.m.core g).rs b) → x = 1) ∧
     (¬ condHolds k ((s.m.core g).rs a) ((s.m.core g).rs b) → x = 0) ∧
     exec (.cmp t d a b k) s = .next (retired s g .sc (.cmp t d a b k) fun c => c.ws d x)) ∧
   (∀ t d a b k s g, mayIssue (.sel t d a b k) s g .sc → exec (.sel t d a b k) s =
     .next (retired s g .sc (.sel t d a b k) fun c => c.ws d (if c.rs k ≠ 0 then c.rs a else c.rs b))) ∧
   (∀ t d a s g, mayIssue (.bitsCnt t d a) s g .sc → ∃ x : Word,
     x.toNat = ((Finset.range 64).filter fun n => ((s.m.core g).rs a).getLsbD n = true).card ∧
     exec (.bitsCnt t d a) s = .next (retired s g .sc (.bitsCnt t d a) fun c => c.ws d x)) ∧
   (∀ t d a s g, mayIssue (.bitsClz t d a) s g .sc → ∃ x : Word,
     x.toNat ≤ 64 ∧ (∀ n, 64 - x.toNat ≤ n → ((s.m.core g).rs a).getLsbD n = false) ∧
     (x.toNat < 64 → ((s.m.core g).rs a).getLsbD (63 - x.toNat) = true) ∧
     exec (.bitsClz t d a) s = .next (retired s g .sc (.bitsClz t d a) fun c => c.ws d x)) ∧
   (∀ t s g, mayIssue (.nop t) s g .sc → exec (.nop t) s = .next (retired s g .sc (.nop t) id))) ∧
  ((∀ t a q s g, mayIssue (.movQw t a q) s g .sc →
     exec (.movQw t a q) s =
       if ((s.m.core g).qw[(qwIx q).val]).length < 16 then
         .next (retired s g .sc (.movQw t a q) fun c => { c with qw := upd c.qw (qwIx q) fun l => l ++ [c.rs a] })
       else .next s) ∧
   (∀ t d q s g, mayIssue (.movQr t d q) s g .sc →
     ((s.m.core g).qw[(qwIx q).val] = [] → exec (.movQr t d q) s = .next s) ∧
     ∀ x rest, (s.m.core g).qw[(qwIx q).val] = x :: rest → exec (.movQr t d q) s =
       .next (retired s g .sc (.movQr t d q) fun c => ({ c with qw := put c.qw (qwIx q) rest } : Core).ws d x)))

namespace Sys2Proof.Claims
open Sys2Proof.Machine

/-! ## SC's transfers -/

/-- The jumps that SC resolves at core g: the target, the register that takes the link, whether the target is posted to
the other engines (R48), whether loop bodies are left (R50). -/
def jumpOf (m : Mach) (g : Fin 256) : Instr → Option (Int × Option (Fin 32) × Bool × Bool)
  | .jmp _ off => some ((((m.core g).e .sc).pc.toNat : Int) + off.toInt, none, false, true)
  | .jmpR _ a => some ((((m.core g).rs a).toNat : Int), none, true, true)
  | .jmpL _ tgt => some ((tgt.toNat : Int), none, false, true)
  | .call _ a off => some ((((m.core g).e .sc).pc.toNat : Int) + off.toInt, some a, false, false)
  | .callR _ a b => some ((((m.core g).rs b).toNat : Int), some a, true, false)
  | .callL _ a tgt => some ((tgt.toNat : Int), some a, false, false)
  | .ret _ a => some ((((m.core g).rs a).toNat : Int), none, true, false)
  | _ => none

/-- The task on core g has a parcel t. -/
def inText (m : Mach) (g : Fin 256) (t : Int) : Prop :=
  ∃ k, (m.core g).task = some k ∧ 0 ≤ t ∧ t < (k.nparcel.toNat : Int)

/-- Every outcome FIFO named has room (R48). -/
def roomFor (m : Mach) (g : Fin 256) (es : List Engine) : Prop := ∀ e ∈ es, ((m.core g).out[(outIx e).val]).length < 64

/-- The return address written, where the form names a register for it. -/
def linked (c : Core) (link : Option (Fin 32)) (back : Nat) : Core :=
  match link with | some d => c.ws d (BitVec.ofNat 64 back) | none => c

/-- A special register at core g of a task k, by number (R69). -/
def specialValue (m : Mach) (g : Fin 256) (k : CoreTask) (n : Nat) : Option Word :=
  if n = 0x000 then some (k.taskid.setWidth 64)
  else if n = 0x001 then some (BitVec.ofNat 64 k.ctx.val)
  else if n = 0x002 then some (BitVec.ofNat 64 g.val)
  else if n = 0x003 then some (BitVec.ofNat 64 (k.rank.val + 16 * k.gang.toNat))
  else if n = 0x004 then some (k.frame.setWidth 64)
  else if n = 0x005 then some (BitVec.ofNat 64 (64 * k.text.toNat))
  else if n = 0x010 then some ((m.core g).slipw.setWidth 64)
  else if n = 0x011 then some (((m.core g).round[0]).setWidth 64)
  else if n = 0x012 then some ((m.core g).seed[0])
  else if n = 0x013 then some (if (m.core g).btmcfg[0] then 1 else 0)
  else if n = 0x020 then some ((m.core g).ithrot.setWidth 64)
  else if n = 0x021 then some ((m.die (dieOf g)).cycle)
  else none

/-- A value that a writable special register accepts (R70). -/
def specialAccepts (n : Nat) (x : Word) : Prop :=
  (n = 0x010 ∧ 16 ≤ x.toNat ∧ x.toNat ≤ 4096) ∨ (n = 0x011 ∧ x.toNat ≤ 4) ∨ n = 0x012 ∨ (n = 0x013 ∧ x.toNat ≤ 1)

/-- The engines besides SC that read a special register (R69). -/
def specialReaders (n : Nat) : List Engine :=
  if n = 0x011 ∨ n = 0x012 then [.vx, .mx] else if n = 0x013 then [.asy] else []

/-- The copies of ROUND, SEED and BTMCFG that an engine holds. -/
def specialAt (c : Core) (e : Engine) (n : Nat) : Option Word :=
  match e with
  | .sc => if n = 0x010 then some (c.slipw.setWidth 64) else if n = 0x011 then some (c.round[0].setWidth 64)
           else if n = 0x012 then some c.seed[0] else if n = 0x013 then some (if c.btmcfg[0] then 1 else 0) else none
  | .vx => if n = 0x011 then some (c.round[1].setWidth 64) else if n = 0x012 then some c.seed[1] else none
  | .mx => if n = 0x011 then some (c.round[2].setWidth 64) else if n = 0x012 then some c.seed[2] else none
  | .asy => if n = 0x013 then some (if c.btmcfg[1] then 1 else 0) else none
  | _ => none

/-- The instructions by which SC holds until engines have gathered, what SC then waits for, and the scope. -/
def holdOf : Instr → Option (HoldKind × Scope)
  | .fenceAcq _ x => some (.acq, x)
  | .fenceRel _ x => some (.rel, x)
  | .fence _ x => some (.fence, x)
  | .mark _ => some (.mark, .core)
  | .quies _ => some (.quies, .core)
  | .yield _ => some (.yield, .core)
  | _ => none

/-- A fence at which all engines gather, or a MARK at which engine e gathers with SC (R202, R204). -/
def gathersAt (e : Engine) : Instr → Prop
  | .fenceAcq _ _ | .fenceRel _ _ | .fence _ _ => True
  | .mark _ => e = .ld ∨ e = .st
  | _ => False

/-- The port of core t lies within a scope of core g (R203). -/
def portWithin (g t : Fin 256) : Scope → Prop
  | .core => t = g
  | .cluster => t.val / 8 = g.val / 8
  | .die => t.val / 64 = g.val / 64
  | .package | .fabric | .system => True

/-- Engine e stands behind a FENCE.REL that orders an access of SC, which is still to be performed, before later writes
(R204). -/
def behindRel (c : Core) (e : Engine) : Prop :=
  ∃ p w, c.pend = some p ∧ p.rel = some w ∧ ((c.e .sc).walk - (c.e e).walk).toNat ≤ ((c.e .sc).walk - w).toNat

/-- Every engine behind SC stands at the YIELD for which SC of the core holds (R467). -/
def atYield (c : Core) : Prop := ∃ h, c.hold = some h ∧ h.kind = .yield ∧ ∀ e, e ≠ .sc → (c.e e).walk = h.walk - 1

/-- A core c' is core c with its engines past the YIELD, at which SC owes its token (R467). -/
def pastYield (c c' : Core) : Prop :=
  c'.hold = none ∧ (∀ e, e ≠ .sc → c'.e e = (c.e e).advance 1) ∧
  (∀ h, c.hold = some h → c'.e .sc = { c.e .sc with owed := h.sig }) ∧
  c'.s = c.s ∧ c'.v = c.v ∧ c'.w = c.w ∧ c'.z = c.z ∧ c'.m = c.m ∧ c'.tok = c.tok ∧ c'.spad = c.spad ∧ c'.acc = c.acc ∧ c'.task = c.task

/-- Engine e of core c has left an instruction of len parcels with its tokens, as core c' (R52, R59). -/
def movedOn (c c' : Core) (e : Engine) (len : Nat) (t : Tok) : Prop :=
  let x := c.e e
  (c'.e e).walk = x.walk + BitVec.ofNat 32 len ∧ (c'.e e).rep = 0 ∧ (c'.e e).tokp = false ∧ (c'.e e).wait = none ∧
  (c'.e e).job = none ∧ (c'.e e).ended = x.ended ∧
  (∀ p, t.wait = some p → c'.tokens p e = if x.tokp then c.tokens p e else c.tokens p e - 1) ∧
  (∀ q, t.sig = some q →
    (c.tokens e q < 8 → c'.tokens e q = c.tokens e q + 1 ∧ (c'.e e).owed = x.owed) ∧
    (8 ≤ c.tokens e q → c'.tokens e q = c.tokens e q ∧ (c'.e e).owed = some q)) ∧
  (∀ p q, ¬ (q = e ∧ t.wait = some p) → ¬ (p = e ∧ t.sig = some q) → c'.tokens p q = c.tokens p q) ∧
  (∀ y, y ≠ e → c'.e y = c.e y) ∧ c' = { c with tok := c'.tok, eng := c'.eng }

/-- The waits that make a task yieldable (R231). -/
def yieldableWait : WaitOn → Prop
  | .bar _ _ _ | .ring _ _ _ | .arrival _ | .held _ => True
  | .lantern | .spawn => False

end Sys2Proof.Claims

/-! ## Retirement, transfers and loops -/

/-- R50, R52, R59: an engine that retires an instruction which does not end the innermost loop body stands after it, in
the bodies that it was in; one that transfers stands at the target, where a BR or JMP has left each body, from the innermost
outward, that the target lies outside, and a CALL or RET none. In both cases its walk count has grown by the parcels, the
token of WAIT is gone from its FIFO and the token of SIG is in its FIFO, or owed where that one holds 8, and no register and
no memory changes. -/
def Obligations.RetireMovesOnAndPassesTokens : Prop :=
  ∀ (c : Core) (e : Engine) (len : Nat) (t : Tok), 0 < len → t.wait ≠ some e → t.sig ≠ some e →
    let x := c.e e
    ((∀ l, x.loops.head? = some l → ¬ (x.pc.toNat ≤ l.last.toNat ∧ l.last.toNat < x.pc.toNat + len)) →
      let c' := c.retire e len t
      movedOn c c' e len t ∧ (c'.e e).pc = x.pc + BitVec.ofNat 22 len ∧ (c'.e e).loops = x.loops) ∧
    (∀ p pops, let c' := c.transfer e len t p pops
      movedOn c c' e len t ∧ (c'.e e).pc = p ∧ (pops = false → (c'.e e).loops = x.loops) ∧
      (pops = true → ∃ out, x.loops = out ++ (c'.e e).loops ∧
        (∀ l ∈ out, ¬ (l.first.toNat ≤ p.toNat ∧ p.toNat ≤ l.last.toNat)) ∧
        ∀ l, (c'.e e).loops.head? = some l → l.first.toNat ≤ p.toNat ∧ p.toNat ≤ l.last.toNat))

/-- R48, R49: the other engines follow a transfer, each at its own position, by the entry posted to it or by the offset
or parcel that the instruction names; WAIT and SIG act for SC alone (R45). -/
def Obligations.OtherEnginesFollowTransfers : Prop :=
  ∀ (s : State) (g : Fin 256) (e : Engine), acts s g e → e ≠ .sc →
    (∀ i t posted pops link, jumpOf s.m g i = some (t, link, posted, pops) → posted = true →
      ∀ x, (s.m.core g).outHead e = some x → exec i s = .next (after s (s.m.onCore g fun c =>
        (c.popOut e).transfer e 1 noTok (x.setWidth 22) pops))) ∧
    (∀ t off, exec (.jmp t off) s = .next (after s (s.m.onCore g fun c =>
        c.transfer e 1 noTok (BitVec.ofInt 22 (((c.e e).pc.toNat : Int) + off.toInt)) true))) ∧
    (∀ t a off, exec (.call t a off) s = .next (after s (s.m.onCore g fun c =>
        c.transfer e 1 noTok (BitVec.ofInt 22 (((c.e e).pc.toNat : Int) + off.toInt)) false))) ∧
    (∀ t tgt, exec (.jmpL t tgt) s = .next (after s (s.m.onCore g fun c => c.transfer e 2 noTok tgt true))) ∧
    (∀ t a tgt, exec (.callL t a tgt) s = .next (after s (s.m.onCore g fun c => c.transfer e 2 noTok tgt false))) ∧
    (∀ t k a b off x, (s.m.core g).outHead e = some x → exec (.br t k a b off) s = .next (after s (s.m.onCore g fun c =>
        if x = 1 then (c.popOut e).transfer e 1 noTok (BitVec.ofInt 22 (((c.e e).pc.toNat : Int) + off.toInt)) true
        else (c.popOut e).retire e 1 noTok)))

/-- R381, R385, R395, R417: SC at a JMP, CALL or RET whose target is a parcel of the text transfers to it, writes the
return address that a CALL names, and posts the target of a register form. R381: SC at a BR posts its outcome; it
transfers where the condition holds and goes on in sequence where not. R49: a transfer whose target is no parcel of
the text traps ILLEGAL on SC, and so does a taken BR. -/
def Obligations.TransfersResolveOnSc : Prop :=
  (∀ (i : Instr) (s : State) (g : Fin 256) (t : Int) (link : Option (Fin 32)) (posted pops : Bool),
     mayIssue i s g .sc → jumpOf s.m g i = some (t, link, posted, pops) → inText s.m g t →
     (posted = true → roomFor s.m g [.ld, .st, .vx, .mx, .asy]) →
     exec i s = .next (after s (s.m.onCore g fun c =>
       (linked (if posted then c.post [.ld, .st, .vx, .mx, .asy] (BitVec.ofInt 128 t) else c) link
         ((c.e .sc).pc.toNat + parcels i)).transfer .sc (parcels i) (tk i) (BitVec.ofInt 22 t) pops))) ∧
  (∀ t k a b off s g, mayIssue (.br t k a b off) s g .sc → roomFor s.m g [.ld, .st, .vx, .mx, .asy] →
     (condHolds k ((s.m.core g).rs a) ((s.m.core g).rs b) →
       inText s.m g ((((s.m.core g).e .sc).pc.toNat : Int) + off.toInt) →
       exec (.br t k a b off) s = .next (after s (s.m.onCore g fun c =>
         (c.post [.ld, .st, .vx, .mx, .asy] 1).transfer .sc 1 t (BitVec.ofInt 22 (((c.e .sc).pc.toNat : Int) + off.toInt)) true))) ∧
     (¬ condHolds k ((s.m.core g).rs a) ((s.m.core g).rs b) →
       exec (.br t k a b off) s = .next (after s (s.m.onCore g fun c =>
         (c.post [.ld, .st, .vx, .mx, .asy] 0).retire .sc 1 t)))) ∧
  ((∀ (i : Instr) (s : State) (g : Fin 256) (t : Int) (link : Option (Fin 32)) (posted pops : Bool),
     mayIssue i s g .sc → jumpOf s.m g i = some (t, link, posted, pops) → ¬ inText s.m g t →
     exec i s = .next (after s (s.m.takeTrap g .sc .illegal 0 (infoOf i)))) ∧
   (∀ t k a b off s g, mayIssue (.br t k a b off) s g .sc →
     condHolds k ((s.m.core g).rs a) ((s.m.core g).rs b) →
     ¬ inText s.m g ((((s.m.core g).e .sc).pc.toNat : Int) + off.toInt) →
     exec (.br t k a b off) s = .next (after s (s.m.takeTrap g .sc .illegal 0 (infoOf (.br t k a b off))))))

/-- R50, R397: a LOOP whose body ends inside the text opens a body from the next parcel, with its count, or, counting 0
times, goes on after the body; SC posts the count of LOOP.R, and the other engines take it. A body that ends beyond the text,
a fifth body, and a register that counts 2^32 or more trap ILLEGAL on SC. That a count of 0 goes on past
a long last instruction and leaves the loop stack alone is the model's reading (log entry 31). -/
def Obligations.LoopsOpenBodies : Prop :=
  ∀ (s : State) (g : Fin 256) (off : BitVec 16),
    let open' (e : Engine) (k : Tok) (n : Nat) (c : Core) : Core :=
      let p := (c.e e).pc.toNat
      if n = 0 then c.transfer e 1 k
        (BitVec.ofNat 22 (match c.task with | some t => afterLast s.m t (p + off.toNat) (off.toNat + 1) (p + 1) | none => p + off.toNat + 1)) false
      else (c.onE e fun x => { x with loops := ⟨BitVec.ofNat 22 (p + 1), BitVec.ofNat 22 (p + off.toNat), BitVec.ofNat 32 n⟩ :: x.loops }).transfer
        e 1 k (BitVec.ofNat 22 (p + 1)) false
    (∀ t n, mayIssue (.loop t n off) s g .sc → inText s.m g ((((s.m.core g).e .sc).pc.toNat : Int) + off.toInt) →
      (n ≠ 0 → ((s.m.core g).e .sc).loops.length < 4) →
      exec (.loop t n off) s = .next (after s (s.m.onCore g (open' .sc t n.toNat)))) ∧
    (∀ t a, mayIssue (.loopR t a off) s g .sc → inText s.m g ((((s.m.core g).e .sc).pc.toNat : Int) + off.toInt) →
      ((s.m.core g).rs a).toNat < 2 ^ 32 → (((s.m.core g).rs a).toNat ≠ 0 → ((s.m.core g).e .sc).loops.length < 4) →
      roomFor s.m g [.ld, .st, .vx, .mx, .asy] →
      exec (.loopR t a off) s = .next (after s (s.m.onCore g fun c =>
        open' .sc t ((s.m.core g).rs a).toNat (c.post [.ld, .st, .vx, .mx, .asy] (BitVec.ofNat 128 ((s.m.core g).rs a).toNat))))) ∧
    (∀ t n, mayIssue (.loop t n off) s g .sc → ¬ inText s.m g ((((s.m.core g).e .sc).pc.toNat : Int) + off.toInt) ∨
        (n ≠ 0 ∧ 4 ≤ ((s.m.core g).e .sc).loops.length) →
      exec (.loop t n off) s = .next (after s (s.m.takeTrap g .sc .illegal 0 (infoOf (.loop t n off))))) ∧
    (∀ t a, mayIssue (.loopR t a off) s g .sc → ¬ inText s.m g ((((s.m.core g).e .sc).pc.toNat : Int) + off.toInt) ∨
        2 ^ 32 ≤ ((s.m.core g).rs a).toNat ∨ ((s.m.core g).rs a ≠ 0 ∧ 4 ≤ ((s.m.core g).e .sc).loops.length) →
      exec (.loopR t a off) s = .next (after s (s.m.takeTrap g .sc .illegal 0 (infoOf (.loopR t a off))))) ∧
    (∀ e, e ≠ .sc → acts s g e →
      (∀ t n, exec (.loop t n off) s = .next (after s (s.m.onCore g (open' e noTok n.toNat)))) ∧
      ∀ t a x, (s.m.core g).outHead e = some x → x.toNat < 2 ^ 32 →
        exec (.loopR t a off) s = .next (after s (s.m.onCore g fun c => open' e noTok x.toNat (c.popOut e))))

/-! ## Patterns and special registers -/

/-- R373: SC posts the pair to LD, ST and MX, and each of them writes it into its own copy of the pair. -/
def Obligations.ApatWritesEachCopy : Prop :=
  ∀ t a b p s g,
    (mayIssue (.apat t a b p) s g .sc → roomFor s.m g [.ld, .st, .mx] → exec (.apat t a b p) s =
      .next (retired s g .sc (.apat t a b p) fun c => c.post [.ld, .st, .mx] (c.rs b ++ c.rs a))) ∧
    (∀ e x, (e, x) ∈ [(Engine.ld, (0 : Fin 3)), (.st, 1), (.mx, 2)] → acts s g e →
      ∀ v, (s.m.core g).outHead e = some v → ∃ c' : Core, exec (.apat t a b p) s = .next (after s (s.m.onCore g fun _ => c'.retire e 1 noTok)) ∧
        (c'.a[x.val])[2 * p.val]? = some (v.extractLsb' 0 64) ∧ (c'.a[x.val])[2 * p.val + 1]? = some (v.extractLsb' 64 64) ∧
        (∀ y : Fin 3, y ≠ x → c'.a[y.val] = (s.m.core g).a[y.val]) ∧ c'.s = (s.m.core g).s ∧ c'.spad = (s.m.core g).spad)

/-- R69, R389: GETSR puts the special register, as it stands at this moment, into Sd. R69, R426: SETSR with a value that
the register accepts writes SC's copy and posts the value to the register's readers, and a reader at the parcel
takes it into its own copy. R70, R426: a SETSR that names a read-only register traps PRIV, and one whose value the
register does not accept traps ILLEGAL, before any engine receives the value. -/
def Obligations.SpecialRegistersReadAndWrite : Prop :=
  (∀ t d n s g k v, mayIssue (.getsr t d n) s g .sc → (s.m.core g).task = some k →
     specialValue s.m g k n.toNat = some v →
     exec (.getsr t d n) s = .next (retired s g .sc (.getsr t d n) fun c => c.ws d v)) ∧
  (∀ t a n s g,
     (mayIssue (.setsr t a n) s g .sc → specialAccepts n.toNat ((s.m.core g).rs a) →
       roomFor s.m g (specialReaders n.toNat) →
       ∃ c' : Core, exec (.setsr t a n) s = .next (after s (s.m.onCore g fun _ => c'.retire .sc 1 t)) ∧
         specialAt c' .sc n.toNat = some ((s.m.core g).rs a) ∧
         (∀ e ∈ specialReaders n.toNat, c'.out[(outIx e).val] = (s.m.core g).out[(outIx e).val] ++ [((s.m.core g).rs a).setWidth 128]) ∧
         c'.s = (s.m.core g).s ∧ c'.spad = (s.m.core g).spad ∧ c'.task = (s.m.core g).task) ∧
     (∀ e ∈ specialReaders n.toNat, acts s g e → ∀ v, (s.m.core g).outHead e = some v →
       specialAccepts n.toNat (v.extractLsb' 0 64) →
       ∃ c' : Core, exec (.setsr t a n) s = .next (after s (s.m.onCore g fun _ => c'.retire e 1 noTok)) ∧
         specialAt c' e n.toNat = some (v.extractLsb' 0 64) ∧ c'.s = (s.m.core g).s ∧ c'.spad = (s.m.core g).spad)) ∧
  (∀ t a n s g, mayIssue (.setsr t a n) s g .sc →
     (n.toNat ∈ [0x000, 0x001, 0x002, 0x003, 0x004, 0x005, 0x020, 0x021] →
       exec (.setsr t a n) s = .next (after s (s.m.takeTrap g .sc .priv 0 (infoOf (.setsr t a n))))) ∧
     (n.toNat ∈ [0x010, 0x011, 0x012, 0x013] → ¬ specialAccepts n.toNat ((s.m.core g).rs a) →
       exec (.setsr t a n) s = .next (after s (s.m.takeTrap g .sc .illegal 0 (infoOf (.setsr t a n))))))

/-! ## Traps, the end of a task, gathering -/

/-- R13, R72, R234: a trap stops every member of the task with the same record of it; no member's registers or program
counters move, no other core is stopped, and every memory is as it was but for the stores that a member's SC had
presented, which are performed, while a load goes on (R59, R199); the Q2 entries that a repetition had popped are back in
Q2. R380, R434: TRAP and BKPT take the trap with their code, at SC, whatever the
registers hold. R74, R227: INTERNAL_DEADLOCK traps DEADLOCK with CODE 0 and the code of the core's task in INFO; a core that
has stopped at a safe point reports it at SAFE_POINT_STOP (which engines are blocked: log entry 22). R239: Oculus walks the
table every 2^20 clocks of die 0, and reports what stood in both walks (which agents have an edge: log entry 23). -/
def Obligations.TrapsStopEveryMember : Prop :=
  (∀ (m : Mach) (g : Fin 256) (e : Engine) (cause : Cause) (code : BitVec 32) (info : Word) (k : CoreTask),
     (m.core g).task = some k →
     let m' := m.takeTrap g e cause code info
     (∀ h ∈ k.members, (m'.core h).halt =
       some (.trap ⟨cause, e, ((m.core g).e e).pc, ((m.core g).e e).rep, g, k.rank, code, info⟩)) ∧
     (∀ h, h ∉ k.members → (m'.core h).halt = (m.core h).halt) ∧
     (∀ h, (m'.core h).s = (m.core h).s ∧ (m'.core h).v = (m.core h).v ∧ (m'.core h).task = (m.core h).task ∧
       ∀ x, ((m'.core h).e x).pc = ((m.core h).e x).pc ∧ ((m'.core h).e x).walk = ((m.core h).e x).walk) ∧
     (∀ h ∈ k.members, (m'.core h).pend = (m.core h).pend.filter (fun p => p.load.isSome) ∧
       (m'.core h).qt[2] = (m.core h).mx.taken ++ (m.core h).qt[2] ∧ (m'.core h).mx.taken = []) ∧
     ((∀ h ∈ k.members, ∀ p, (m.core h).pend = some p → p.load.isSome = true) →
       ∀ h, (m'.core h).spad = (m.core h).spad ∧ (m'.core h).acc = (m.core h).acc ∧ (m'.core h).tok = (m.core h).tok) ∧
     m'.dev = m.dev ∧ m'.host = m.host ∧ m'.ops = m.ops ∧ m'.ctxs = m.ctxs ∧ m'.dies = m.dies) ∧
  (∀ t n s g,
     (mayIssue (.trap t n) s g .sc →
       exec (.trap t n) s = .next (after s (s.m.takeTrap g .sc .trap (n.setWidth 32) (infoOf (.trap t n))))) ∧
     (mayIssue (.bkpt t n) s g .sc →
       exec (.bkpt t n) s = .next (after s (s.m.takeTrap g .sc .bkpt (n.setWidth 32) (infoOf (.bkpt t n)))))) ∧
  (∀ (s : State) g, s.boot.state = 2 →
    (∀ e, (s.m.core g).safe = none → s.m.deadlocked g = some e → exec (.internalDeadlock g) s = .next (after s (s.m.trapDeadlock g e none))) ∧
    ((s.m.core g).safe ≠ none ∨ s.m.deadlocked g = none → exec (.internalDeadlock g) s = .next s) ∧
    ∀ e p k, (s.m.core g).task = some k → ∀ h ∈ k.members, ((s.m.trapDeadlock g e p).core h).halt =
      some (.trap ⟨.deadlock, e, p.getD ((s.m.core g).e e).pc, ((s.m.core g).e e).rep, g, k.rank, 0, BitVec.ofNat 64 g.val⟩)) ∧
  (∀ (s : State), s.boot.state = 2 → ((s.m.die 0).cycle - s.m.walkAt).toNat < 2 ^ 20 → exec .waitforWalk s = .next s) ∧
  (∀ (s : State), s.boot.state = 2 → 2 ^ 20 ≤ ((s.m.die 0).cycle - s.m.walkAt).toNat → ∃ m' : Mach, exec .waitforWalk s = .next (after s m') ∧
    m'.walkAt = (s.m.die 0).cycle ∧ m'.touched = [] ∧ m'.lastCycles = s.m.cycles ∧
    ((∀ p ∈ s.m.cycles, p ∈ s.m.lastCycles → s.m.still p = false) → m'.cores = s.m.cores ∧ m'.ctxs = s.m.ctxs ∧ m'.dies = s.m.dies) ∧
    ∀ a p e, (s.m.cycles.filter fun q => s.m.lastCycles.contains q && s.m.still q) = [a :: p] → s.m.edgeOf a = some e →
      (a.code.toNat < 0x100 → (m'.ctx e.ctx).dlk = true ∧ (m'.ctx e.ctx).dlen = BitVec.ofNat 8 (p.length + 1) ∧
        ∀ k, (s.m.core (toCore a.code.toNat)).task = some k → ∀ h ∈ k.members, ∃ i, (m'.core h).halt = some (.trap i) ∧
          i.cause = .deadlock ∧ i.engine = e.engine ∧ i.code.toNat = (p.length + 1) % 2 ^ 32 ∧ i.info = e.to'.code.setWidth 64) ∧
      (0x100 ≤ a.code.toNat → m'.cores = (s.m.abort e.ctx 7).cores ∧ m'.ctxs = (s.m.abort e.ctx 7).ctxs))

/-- R44, R432: each engine stops at TEND and counts its parcel; AS first waits for the core's operations that will push
a token. -/
def Obligations.TendStopsEachEngine : Prop :=
  ∀ t s g,
    (mayIssue (.tend t) s g .sc → ∃ c' : Core, exec (.tend t) s = .next (after s (s.m.onCore g fun _ => c')) ∧
      (c'.e .sc).ended = true ∧ (c'.e .sc).walk = ((s.m.core g).e .sc).walk + 1 ∧ (c'.e .sc).pc = ((s.m.core g).e .sc).pc ∧
      c'.s = (s.m.core g).s ∧ c'.spad = (s.m.core g).spad) ∧
    (∀ e, e ≠ .sc → acts s g e → (e = .asy → ∀ o ∈ s.m.ops, o.core = g → o.sig = none) →
      ∃ c' : Core, exec (.tend t) s = .next (after s (s.m.onCore g fun _ => c')) ∧
      (c'.e e).ended = true ∧ (c'.e e).walk = ((s.m.core g).e e).walk + 1 ∧ (c'.e e).pc = ((s.m.core g).e e).pc ∧
      c'.s = (s.m.core g).s ∧ c'.tok = (s.m.core g).tok) ∧
    (acts s g .asy → (∃ o ∈ s.m.ops, o.core = g ∧ o.sig ≠ none) → exec (.tend t) s = .next s)

/-- R202, R204, R415, R467: at a fence, MARK, QUIES or YIELD, SC completes the parcel at once and holds; its SIG waits
for the end of the hold, and a FENCE.REL marks an access of SC that is still to be performed, where its port lies within
the scope and no earlier FENCE.REL has marked it, to go before later writes. R202, R204: another engine at a fence, or
LD or ST at a MARK, stays at the parcel until all that must gather stand there, and then passes; a FENCE waits for the
accesses within its scope as well, a FENCE.ACQ for the reads among them, a MARK for every access. QUIES keeps AS alone,
until the core has no command outstanding (R415). R203: which ports lie within a scope of a core, and the scope of a
core's barrier or ring operation, the narrowest that holds both. R467: at a YIELD the engines behind SC stay until those
of every member stand there; then all pass it, SC owes its token, and the task stops to be saved where a record
qualifies, or runs on. R231: SPIN clocks in BWAIT, RNGWF, RNGWE or a held access make a task yieldable, and it stops to
be saved where a record qualifies that the swaps under way do not serve. A record qualifies only at the task's priority
or above; which of them could use the task's cores is log entry 86. That a YIELD is decided at the move that finds
everyone standing there is log entry 51. -/
def Obligations.GatheringHoldsEngines : Prop :=
  ((∀ i kind scope s g, mayIssue i s g .sc → holdOf i = some (kind, scope) →
      ∃ st, exec i s = .next (after s (s.m.onCore g fun c =>
        { (c.retire .sc 1 ⟨(tk i).wait, none⟩) with
          pend := st
          hold := some ⟨kind, (c.e .sc).walk + 1, scope, (tk i).sig⟩ })) ∧
        (kind ≠ .rel → st = (s.m.core g).pend) ∧
        (kind = .rel → ((s.m.core g).pend = none → st = none) ∧ ∀ p, (s.m.core g).pend = some p →
          (portWithin g p.core scope ∧ p.rel = none → st = some { p with rel := some (((s.m.core g).e .sc).walk + 1) }) ∧
          (¬ (portWithin g p.core scope ∧ p.rel = none) → st = some p))) ∧
   (∀ (i : Instr) (s : State) (g : Fin 256) (e : Engine), acts s g e → e ≠ .sc →
     (∀ h, gathersAt e i → (s.m.core g).hold = some h → ((s.m.core g).e e).walk = h.walk - 1 →
       exec i s = if (s.m.core g).holdOver g h
         then .next (after s (s.m.onCore g fun c => c.retire e 1 noTok)) else .next s) ∧
     (∀ t, i = .quies t → e ≠ .asy → exec i s = .next (after s (s.m.onCore g fun c => c.retire e 1 noTok))) ∧
     (∀ t, i = .quies t → e = .asy →
       exec i s = if ∃ o ∈ s.m.ops, o.core = g ∧ isCommand o = true then .next s
         else .next (after s ((s.m.ackCore g).onCore g fun c => c.retire e 1 noTok))))) ∧
  (∀ (s : State) (g : Fin 256) (e : Engine) (t : Tok) (h : Hold), acts s g e → e ≠ .sc → (s.m.core g).hold = some h → h.kind = .yield →
     ((s.m.core g).e e).walk = h.walk - 1 →
     ((∃ k ∈ s.m.members g, ((s.m.core k).e .sc).ended = true) →
       exec (.yield t) s = .next (after s (s.m.takeTrap g e .illegal 0 (infoOf (.yield t))))) ∧
     ((∀ k ∈ s.m.members g, ((s.m.core k).e .sc).ended = false) →
       ((∃ k ∈ s.m.members g, ¬ atYield (s.m.core k)) → exec (.yield t) s = .next s) ∧
       ((∀ k ∈ s.m.members g, atYield (s.m.core k)) → (s.m.members g).Nodup → ∃ m1 : Mach,
         (∀ k ∈ s.m.members g, pastYield (s.m.core k) (m1.core k)) ∧ (∀ k, k ∉ s.m.members g → m1.core k = s.m.core k) ∧
         m1.ctxs = s.m.ctxs ∧ m1.dies = s.m.dies ∧ m1.dev = s.m.dev ∧ m1.ops = s.m.ops ∧
         exec (.yield t) s = .next (after s (match s.m.swappable g with | some p => m1.swapOut g .yield p | none => m1))))) ∧
  (∀ (s : State) (g : Fin 256), s.boot.state = 2 → ((s.m.core g).task = none → exec (.spinThreshold g) s = .next s) ∧
     ∀ t, (s.m.core g).task = some t →
       let spun : Prop := (s.m.core g).halt = none ∧ t.running = true ∧ ∃ e w, ((s.m.core g).e e).wait = some w ∧ yieldableWait w.on ∧
         (s.m.ctx t.ctx).spin.toNat ≤ ((s.m.die (dieOf g)).cycle - w.since).toNat
       (¬ spun → exec (.spinThreshold g) s = .next (after s (s.m.onCore g fun c => { c with yieldable := false }))) ∧
       (spun → let m1 := s.m.onCore g fun c => { c with yieldable := true }
         exec (.spinThreshold g) s = .next (after s (match (m1.afterSwaps (dieOf g)).swappable g with | some p => m1.swapOut g .swap p | none => m1)))) ∧
  (∀ (m : Mach) (d : Fin 4), (∀ r ∈ (m.die d).recs, r.state = .running → ∀ k ∈ r.cores, (m.core k).halt ≠ some .swap ∧ (m.core k).halt ≠ some .yield) →
     m.afterSwaps d = m) ∧
  (∀ (m : Mach) (g : Fin 256) (t : Rec), m.taskRec g = some t →
     (∀ x ∈ (m.die (dieOf g)).recs, t.epri < x.epri ∨ (x.state ≠ .ready ∧ x.state ≠ .saved) ∨ (m.ctx x.ctx).susp = true) → m.swappable g = none) ∧
  (∀ (m : Mach) (g : Fin 256) (x t : Rec) (ts : List Rec), m.swappable g = some (x, ts) → m.taskRec g = some t →
     x ∈ (m.die (dieOf g)).recs ∧ x.epri ≤ t.epri ∧ (m.ctx x.ctx).susp = false ∧ t ∈ ts ∧
     ∀ y ∈ ts, y = t ∨ (y ∈ (m.die (dieOf g)).recs ∧ y.state = .running ∧ x.epri ≤ y.epri)) ∧
  (∀ (c : Core) (g : Fin 256) (h : Hold),
     let here (es : List Engine) : Prop := ∀ e ∈ es, (c.e e).walk = h.walk - 1 ∨ (c.e e).walk = h.walk
     (h.kind = .rel → (c.holdOver g h = true ↔ here [.ld, .st, .vx, .mx, .asy])) ∧
     (h.kind = .acq → (c.holdOver g h = true ↔
       here [.ld, .st, .vx, .mx, .asy] ∧ ∀ p, c.pend = some p → p.load ≠ none → ¬ portWithin g p.core h.scope)) ∧
     (h.kind = .fence → (c.holdOver g h = true ↔
       here [.ld, .st, .vx, .mx, .asy] ∧ ∀ p, c.pend = some p → ¬ portWithin g p.core h.scope)) ∧
     (h.kind = .mark → (c.holdOver g h = true ↔ here [.ld, .st] ∧ c.pend = none)) ∧
     (h.kind = .quies → (c.holdOver g h = true ↔ (c.e .asy).walk = h.walk)) ∧ (h.kind = .yield → c.holdOver g h = false)) ∧
  (∀ (g t : Fin 256) (x : Scope), ((Point.port t).within x (.core g) = true ↔ portWithin g t x) ∧
     opScope (.core g) (.port t) =
       if t = g then .core else if t.val / 8 = g.val / 8 then .cluster else if t.val / 64 = g.val / 64 then .die else .package)

namespace Sys2Proof.Claims
open Sys2Proof.Machine

/-! ## Scalar accesses, tasks and notices -/

/-- The scalar loads: destination, address register, offset, width in bytes, and whether the number read is sign-extended
(R428). -/
def loadForm : Instr → Option (Fin 32 × Fin 32 × BitVec 15 × Nat × Bool)
  | .sld _ d a fn => some (d, a, fn, 8, false)
  | .sldW _ d a fn => some (d, a, fn, 4, false)
  | .sldWs _ d a fn => some (d, a, fn, 4, true)
  | _ => none

/-- SC of core g past an access that it has presented, and whose token waits for it (R59, R199). -/
def presented (s : State) (g : Fin 256) (i : Instr) (p : PendAccess) : State :=
  after s ((s.m.unqueue p.core (s.m.ctxOf g) (.eng g .sc)).onCore g fun c =>
    ({ c with pend := some p } : Core).retire .sc 1 ⟨(tk i).wait, none⟩)

/-- An arbiter has accepted, in clock `now`, a request that comes after place r in the order of one clock (R11). -/
def outOfTurn (last : Option (Word × Nat)) (now : Word) (r : Nat) : Prop := ∃ q, last = some (now, q) ∧ r < q

/-- One clock of die d passes. -/
def oneLater (m : Mach) (d : Fin 4) : Mach := m.onDie d fun x => { x with cycle := x.cycle + 1 }

/-- Two cores agree, but for what the port keeps of the last request that it has accepted (R149). -/
def sameButTurn (x y : Core) : Prop := y = { x with lastReq := y.lastReq }

/-- Two dies agree but for their clocks. -/
def sameButClock (x y : Die) : Prop := y = { x with cycle := y.cycle }

/-- STATE of a record as a number (R221). -/
def stateCode : RState → Nat
  | .built => 0 | .waiting => 1 | .ready => 2 | .running => 3 | .saved => 4 | .retired => 5

/-- The scalar stores: address register, data register, offset, width in bytes (R430). -/
def storeForm : Instr → Option (Fin 32 × Fin 32 × BitVec 15 × Nat)
  | .sst _ a b fn => some (a, b, fn, 8)
  | .sstW _ a b fn => some (a, b, fn, 4)
  | _ => none

/-- The byte of core k's scratchpad, or of its accumulator store, at address a. -/
def spadByte (m : Mach) (k : Fin 256) (a : Nat) : Byte := Memory.read1 (m.core k).spad a
def accByte (m : Mach) (k : Fin 256) (a : Nat) : Byte := Memory.read1 (m.core k).acc a

/-- The vector loads and stores: register, pattern, repetitions, step, space, element type, and COLP of the long forms. -/
def vldForm : Instr → Option (VSpec × Fin 8 × BitVec 6 × BitVec 10 × Space × EtM × Option Nat)
  | .vld _ r p rep st sp et => some (r, p, rep, st, sp, et, none)
  | .vldx _ r p rep st sp et colp => some (r, p, rep, st, sp, et, some colp.toNat)
  | _ => none
def vstForm : Instr → Option (VSpec × Fin 8 × BitVec 6 × BitVec 10 × Space × EtM × Option Nat)
  | .vst _ r p rep st sp et => some (r, p, rep, st, sp, et, none)
  | .vstx _ r p rep st sp et colp => some (r, p, rep, st, sp, et, some colp.toNat)
  | _ => none

/-! ## What VX computes -/

/-- The mask of a VX instruction whose masked-off lanes keep their value (R67, R437). -/
def vxMaskOf : Instr → Option (Fin 8)
  | .vadd _ _ _ _ m _ | .vsub _ _ _ _ m _ | .vmul _ _ _ _ m _ | .vfma _ _ _ _ _ m _ | .vfmaNm _ _ _ _ _ m _
  | .vdiv _ _ _ _ m _ | .vsqrt _ _ _ m _ | .vsfExp2 _ _ _ m _ | .vsfLog2 _ _ _ m _ | .vsfRcp _ _ _ m _
  | .vsfRsqrt _ _ _ m _ | .vsfSin _ _ _ m _ | .vsfCos _ _ _ m _ | .vsfTanh _ _ _ m _ | .vsfErf _ _ _ m _
  | .vsfSigm _ _ _ m _ | .vmin _ _ _ _ m _ | .vminP _ _ _ _ m _ | .vmax _ _ _ _ m _ | .vmaxP _ _ _ _ m _
  | .vmov _ _ _ m | .vmovI _ _ m _ | .vcvt _ _ _ m _ _ | .viadd _ _ _ _ m _ | .viaddS _ _ _ _ m _
  | .visub _ _ _ _ m _ | .visubS _ _ _ _ m _ | .vimul _ _ _ _ m _ | .vimulS _ _ _ _ m _ | .vimulHi _ _ _ _ m _
  | .vimin _ _ _ _ m _ | .vimax _ _ _ _ m _ | .vand _ _ _ _ m | .vor _ _ _ _ m | .vxor _ _ _ _ m
  | .vshl _ _ _ _ m _ | .vshr _ _ _ _ m _ | .vshlI _ _ _ _ m _ | .vshrI _ _ _ _ m _ | .vpermb _ _ _ _ m
  | .vrotr _ _ _ _ m | .vrotc _ _ _ _ m | .vbcr _ _ _ _ m | .vbcc _ _ _ _ m | .vredrAdd _ _ _ m _
  | .vredrMax _ _ _ m _ | .vredrMin _ _ _ m _ | .vredcAdd _ _ _ m _ | .vredcMax _ _ _ m _ | .vredcMin _ _ _ m _
  | .vscanrAdd _ _ _ m _ | .vscanrMax _ _ _ m _ | .vscancAdd _ _ _ m _ | .vscancMax _ _ _ m _ | .vtrn _ _ _ m
  | .viota _ _ _ m _ | .vspl _ _ _ _ m | .vext _ _ _ _ m | .vpack _ _ _ _ m _ | .vunpk _ _ _ _ m _
  | .vspz _ _ _ _ m _ | .vrand _ _ m | .vrandU _ _ m _ => some m
  | _ => none

/-- Two, or three, lanes of the sources read as values of a floating type. -/
def fl (t : FTy) (ts : List Tile) (k l : Nat) : Val := Val.ofF t (laneOf (ts.getD k Tile.zero) l).toNat

/-- Lane l of source k. -/
def ln (ts : List Tile) (k l : Nat) : Lane := laneOf (ts.getD k Tile.zero) l

/-- Field of n bits at bit lo of a lane. -/
def lf (x : Lane) (lo n : Nat) : Nat := x.toNat / 2 ^ lo % 2 ^ n

/-- A number of w bits as an integer of a type: signed or not (R87, R140). -/
def asInt (t : ITy) (n : Nat) : Int :=
  if ITy.signed t ∧ 2 ^ (ITy.width t - 1) ≤ n then (n : Int) - 2 ^ ITy.width t else n

/-- Lane l of source k as an integer of a type, from its low bits. -/
def il (t : ITy) (ts : List Tile) (k l : Nat) : Int := asInt t ((ln ts k l).toNat % 2 ^ ITy.width t)

/-- An integer kept modulo 2^w in the low bits of a lane, the bits above zero (R140). -/
def keep (t : ITy) (x : Int) : Lane := BitVec.ofInt 32 (x % 2 ^ ITy.width t)

/-- An integer held to the range of a type (R140). -/
def heldTo (t : ITy) (x : Int) : Int :=
  if ITy.signed t then max (-2 ^ (ITy.width t - 1)) (min (2 ^ (ITy.width t - 1) - 1) x)
  else max 0 (min (2 ^ ITy.width t - 1) x)

/-- The 64 random bits of a lane (R133, R460). -/
def drawn (v : VxEnv) (l : Nat) : Word := mix v.seed v.c0r (mixC1 l 0 0)

/-- What floating-point instructions, conversions and uniform draws compute in a lane before the one rounding: the width at
which the sources are read, the type rounded to, and the exact value of R129 to R138, R446 and R460, with the NaN that a
lane of the parcel delivers (R439, R455). -/
def floatLane (v : VxEnv) (ts : List Tile) (l : Nat) : Instr → Option (Nat × DTy × Val)
  | .vadd _ _ _ _ _ t => some (FTy.width t, .f t, (fl t ts 0 l).add v.md (v.dv l) (fl t ts 1 l))
  | .vsub _ _ _ _ _ t => some (FTy.width t, .f t, (fl t ts 0 l).sub v.md (v.dv l) (fl t ts 1 l))
  | .vmul _ _ _ _ _ t => some (FTy.width t, .f t, (fl t ts 0 l).mul (v.dv l) (fl t ts 1 l))
  | .vfma _ _ _ _ _ _ t => some (FTy.width t, .f t, Val.fma v.md (v.dv l) false (fl t ts 0 l) (fl t ts 1 l) (fl t ts 2 l))
  | .vfmaNm _ _ _ _ _ _ t => some (FTy.width t, .f t, Val.fma v.md (v.dv l) true (fl t ts 0 l) (fl t ts 1 l) (fl t ts 2 l))
  | .vdiv _ _ _ _ _ t => some (FTy.width t, .f t, (fl t ts 0 l).div (v.dv l) (fl t ts 1 l))
  | .vsqrt _ _ _ _ t => some (FTy.width t, .f t, (fl t ts 0 l).sqrt (v.dv l))
  | .vmin _ _ _ _ _ t => some (FTy.width t, .f t, Val.minmax Val.lesser false (v.dv l) (fl t ts 0 l) (fl t ts 1 l))
  | .vminP _ _ _ _ _ t => some (FTy.width t, .f t, Val.minmax Val.lesser true (v.dv l) (fl t ts 0 l) (fl t ts 1 l))
  | .vmax _ _ _ _ _ t => some (FTy.width t, .f t, Val.minmax Val.greater false (v.dv l) (fl t ts 0 l) (fl t ts 1 l))
  | .vmaxP _ _ _ _ _ t => some (FTy.width t, .f t, Val.minmax Val.greater true (v.dv l) (fl t ts 0 l) (fl t ts 1 l))
  | .vcvt _ _ _ _ (.f t) (.i u) => some (ITy.width u, .f t, .ofInt (il u ts 0 l))
  | .vcvt _ _ _ _ (.i t) (.i u) => some (ITy.width u, .i t, .ofInt (il u ts 0 l))
  | .vcvt _ _ _ _ t (.f u) => some (FTy.width u, t, fl u ts 0 l)
  | .vrandU _ _ _ .f32 => some (32, .f .f32, .num false ((drawn v l).toNat / 2 ^ 40) (-24))
  | .vrandU _ _ _ .bf16 => some (16, .f .bf16, .num false ((drawn v l).toNat / 2 ^ 56) (-8))
  | .vrandU _ _ _ .f16 => some (16, .f .f16, .num false ((drawn v l).toNat / 2 ^ 53) (-11))
  | _ => none

/-- VSF's function, destination, source, mask and type (R461). -/
def sfForm : Instr → Option (VsfFn × VSpec × VSpec × Fin 8 × FTy)
  | .vsfExp2 _ d a m t => some (.exp2, d, a, m, t)
  | .vsfLog2 _ d a m t => some (.log2, d, a, m, t)
  | .vsfRcp _ d a m t => some (.rcp, d, a, m, t)
  | .vsfRsqrt _ d a m t => some (.rsqrt, d, a, m, t)
  | .vsfSin _ d a m t => some (.sin, d, a, m, t)
  | .vsfCos _ d a m t => some (.cos, d, a, m, t)
  | .vsfTanh _ d a m t => some (.tanh, d, a, m, t)
  | .vsfErf _ d a m t => some (.erf, d, a, m, t)
  | .vsfSigm _ d a m t => some (.sigm, d, a, m, t)
  | _ => none

/-- The number that a finite value is. -/
def ratOf (x : Exact) : ℚ := (if x.neg then -1 else 1) * x.man * (2 : ℚ) ^ x.exp

/-- The F32 results that R146 fixes at a finite operand x with bits b. -/
def sfFixed (fn : VsfFn) (dv b : Lane) (x : Exact) : Option Lane :=
  let inf : Lane := if x.neg then 0xFF800000 else 0x7F800000
  let one : Lane := if x.neg then 0xBF800000 else 0x3F800000
  match fn with
  | .exp2 => if 128 ≤ ratOf x then some 0x7F800000 else if ratOf x ≤ -150 then some 0
      else if (ratOf x).den = 1 then some (toF32 (.num false 1 (ratOf x).num)) else none
  | .log2 => if ratOf x = 0 then some 0xFF800000 else if ratOf x < 0 then some dv else x.pow?.map fun e => toF32 (.ofInt e)
  | .rcp => if ratOf x = 0 then some inf else none
  | .rsqrt => if ratOf x = 0 then some inf else if ratOf x < 0 then some dv else none
  | .sin => if ratOf x = 0 then some b else none
  | .cos => if ratOf x = 0 then some 0x3F800000 else none
  | .tanh => if 10 ≤ |ratOf x| then some one else none
  | .erf => if 4 ≤ |ratOf x| then some one else none
  | .sigm => if ratOf x = 0 then some 0x3F000000 else if 18 ≤ ratOf x then some 0x3F800000 else none

/-- The F32 results at an infinite operand (R146). -/
def sfAtInf (fn : VsfFn) (dv : Lane) (neg : Bool) : Lane :=
  match fn with
  | .exp2 => if neg then 0 else 0x7F800000
  | .log2 => if neg then dv else 0x7F800000
  | .rcp => if neg then 0x80000000 else 0
  | .rsqrt => if neg then dv else 0
  | .sin | .cos => dv
  | .tanh | .erf => if neg then 0xBF800000 else 0x3F800000
  | .sigm => if neg then 0 else 0x3F800000

/-- v is an F32 result of R146 for operand bits b: NaNs propagate, the fixed results stand, and elsewhere v lies within
the bounds of R146 and R147, or is the exact result rounded (log entry 8). -/
def sfResult (fn : VsfFn) (dv b v : Lane) : Prop :=
  (∀ n, f32 b = .nan n → v = quiet n) ∧ (∀ neg, f32 b = .inf neg → v = sfAtInf fn dv neg) ∧
  ∀ x, f32 b = .fin x → (∀ y, sfFixed fn dv b x = some y → v = y) ∧ (sfFixed fn dv b x = none →
    v = toF32 (.fin (vsfNear fn x)) ∨ ∃ z, f32 v = .fin z ∧ vsfAllows fn x (vsfNear fn x) z = true)

/-- Reductions and scans: destination, source, mask, type, operation, whether along rows (R444). -/
def reduceForm : Instr → Option (VSpec × VSpec × Fin 8 × DTy × AxisOp × Bool)
  | .vredrAdd _ d a m t => some (d, a, m, t, .add, true)
  | .vredrMax _ d a m t => some (d, a, m, t, .max, true)
  | .vredrMin _ d a m t => some (d, a, m, t, .min, true)
  | .vredcAdd _ d a m t => some (d, a, m, t, .add, false)
  | .vredcMax _ d a m t => some (d, a, m, t, .max, false)
  | .vredcMin _ d a m t => some (d, a, m, t, .min, false)
  | _ => none
def scanForm : Instr → Option (VSpec × VSpec × Fin 8 × DTy × AxisOp × Bool)
  | .vscanrAdd _ d a m t => some (d, a, m, t, .add, true)
  | .vscanrMax _ d a m t => some (d, a, m, t, .max, true)
  | .vscancAdd _ d a m t => some (d, a, m, t, .add, false)
  | .vscancMax _ d a m t => some (d, a, m, t, .max, false)
  | _ => none

/-- Op of R444 on two elements, the left one first, with the lane and the part of its draw. -/
def combine (op : AxisOp) (ty : DTy) (v : VxEnv) (lane part : Nat) (x y : Lane) : Lane :=
  match ty with
  | .f t =>
    v.round (.f t) lane part (match op with
      | .add => (Val.ofF t x.toNat).add v.md (v.dv lane) (Val.ofF t y.toNat)
      | .max => Val.minmax Val.greater false (v.dv lane) (Val.ofF t x.toNat) (Val.ofF t y.toNat)
      | .min => Val.minmax Val.lesser false (v.dv lane) (Val.ofF t x.toNat) (Val.ofF t y.toNat))
  | .i t =>
    let a := asInt t (x.toNat % 2 ^ ITy.width t)
    let b := asInt t (y.toNat % 2 ^ ITy.width t)
    keep t (match op with | .add => a + b | .max => max a b | .min => min a b)

/-- Node (lv, j) of the tree of R444 over the elements e, whose lanes are `lane`. -/
def treeNode (f : Nat → Nat → Lane → Lane → Lane) (e : Nat → Lane) : Nat → Nat → Lane
  | 0, j => e j
  | lv + 1, j => f (lv + 1) j (treeNode f e lv (2 * j)) (treeNode f e lv (2 * j + 1))

/-- Value t of the scan of R444. -/
def scanNode (f : Nat → Lane → Lane → Lane) (e : Nat → Lane) : Nat → Lane
  | 0 => e 0
  | t + 1 => f (t + 1) (scanNode f e t) (e (t + 1))

/-- The lane of element t of line n, along rows or down columns (R443). -/
def lineLane (row : Bool) (n t : Nat) : Nat := if row then 64 * n + t else 64 * t + n

/-- Element t of line n of the source, its low bits (R437). -/
def lineElem (ts : List Tile) (w : Nat) (row : Bool) (n t : Nat) : Lane := BitVec.ofNat 32 (lf (ln ts 0 (lineLane row n t)) 0 w)

/-- What integer, logic and lane-moving instructions, and the random draws of VRAND, write in a lane (R440, R443, R447 to
R449, R458 to R460). -/
def intLane (v : VxEnv) (ts : List Tile) (l : Nat) : Instr → Option Lane
  | .viadd _ _ _ _ _ t => some (keep t (il t ts 0 l + il t ts 1 l))
  | .viaddS _ _ _ _ _ t => some (keep t (heldTo t (il t ts 0 l + il t ts 1 l)))
  | .visub _ _ _ _ _ t => some (keep t (il t ts 0 l - il t ts 1 l))
  | .visubS _ _ _ _ _ t => some (keep t (heldTo t (il t ts 0 l - il t ts 1 l)))
  | .vimul _ _ _ _ _ t => some (keep t (il t ts 0 l * il t ts 1 l))
  | .vimulS _ _ _ _ _ t => some (keep t (heldTo t (il t ts 0 l * il t ts 1 l)))
  | .vimulHi _ _ _ _ _ t => some (keep t (il t ts 0 l * il t ts 1 l / 2 ^ ITy.width t))
  | .vimin _ _ _ _ _ t => some (keep t (min (il t ts 0 l) (il t ts 1 l)))
  | .vimax _ _ _ _ _ t => some (keep t (max (il t ts 0 l) (il t ts 1 l)))
  | .vand _ _ _ _ _ => some (ln ts 0 l &&& ln ts 1 l)
  | .vor _ _ _ _ _ => some (ln ts 0 l ||| ln ts 1 l)
  | .vxor _ _ _ _ _ => some (ln ts 0 l ^^^ ln ts 1 l)
  | .vshlI _ _ _ k _ t => some (keep t (il t ts 0 l * 2 ^ k.toNat))
  | .vshrI _ _ _ k _ t => some (keep t (il t ts 0 l / 2 ^ k.toNat))
  | .vshl _ _ _ _ _ t => some (keep t (il t ts 0 l * 2 ^ ((ln ts 1 l).toNat % 2 ^ ITy.width t)))
  | .vshr _ _ _ _ _ t => some (keep t (il t ts 0 l / 2 ^ ((ln ts 1 l).toNat % 2 ^ ITy.width t)))
  | .viota _ _ _ _ t => some (keep t (il t ts 0 l + l))
  | .vmov _ _ _ _ => some (ln ts 0 l)
  | .vmovI _ _ _ k => some k
  | .vrotr _ _ _ k _ => some (ln ts 0 (l / 64 * 64 + (l % 64 + 64 - k.toNat) % 64))
  | .vrotc _ _ _ k _ => some (ln ts 0 ((l / 64 + 16 - k.toNat) % 16 * 64 + l % 64))
  | .vbcr _ _ _ k _ => some (ln ts 0 (l / 64 * 64 + k.toNat))
  | .vbcc _ _ _ k _ => some (ln ts 0 (k.toNat * 64 + l % 64))
  | .vtrn _ _ _ _ => some (ln ts 0 (64 * (l % 16) + l % 64 / 16 * 16 + l / 64))
  | .vspl _ _ _ _ _ => some (ln ts 0 ((ln ts 1 0).toNat % 1024))
  | .vext _ _ _ _ _ => some (ln ts 0 ((ln ts 1 l).toNat % 1024))
  | .vpermb _ _ _ _ _ =>
    let byte (k i : Nat) : Nat := lf (ln ts k (l / 64 * 64 + i / 4)) (8 * (i % 4)) 8
    let of (n : Nat) : Nat := byte 0 (byte 1 (4 * (l % 64) + n))
    some (BitVec.ofNat 32 (of 0 + 2 ^ 8 * of 1 + 2 ^ 16 * of 2 + 2 ^ 24 * of 3))
  | .vunpk _ _ _ _ _ ty =>
    let w := DTy.width ty
    let q := lf (ln ts 1 0) 0 3 % (32 / w)
    let x := lf (ln ts 0 (q * (1024 / (32 / w)) + l / (32 / w))) (l % (32 / w) * w) w
    some (match ty with | .i t => BitVec.ofInt 32 (asInt t x) | .f _ => BitVec.ofNat 32 x)
  | .vrand _ _ _ => some ((drawn v l).setWidth 32)
  | _ => none

end Sys2Proof.Claims

/-! ## SC and memory -/

/-- R153: the byte and the core that a scalar address names, and the traps of an address that names none: the byte in
[21:0], the space in [23:22], the core in [31:24]. R199, R428: SC presents a scalar load to its port and goes on, and the
token of SIG waits for it; performed, it reads its bytes, least significant first, into Sd, zero-extended or sign-extended, and
changes no memory. R149, R213: a load of another core's memory that its port does not admit waits in its place there. -/
def Obligations.ScalarLoadsReadTheirBytes : Prop :=
  (∀ (m : Mach) (g : Fin 256) (x : Word) (n : Nat),
     let b := x.toNat % 2 ^ 22
     let space := x.toNat / 2 ^ 22 % 4
     let core := x.toNat / 2 ^ 24 % 2 ^ 8
     let high := x.toNat / 2 ^ 32
     scTarget m g x n =
       if b % n ≠ 0 then .error .align
       else if space = 1 then (if x.toNat / 2 ^ 24 ≠ 0 ∨ 0x200000 ≤ b then .error .spadRange else .ok (g, true, b))
       else if high ≠ 0 ∨ 0x300000 ≤ b then .error .spadRange
       else if space = 0 then (if core ≠ 0 then .error .spadRange else .ok (g, false, b))
       else if space = 2 then
         (if 8 ≤ core ∨ m.present (Fin.ofNat 256 (g.val / 8 * 8 + core)) = false then .error .spadRange
          else .ok (Fin.ofNat 256 (g.val / 8 * 8 + core), false, b))
       else if m.present (Fin.ofNat 256 core) = false then .error .spadRange
       else .ok (Fin.ofNat 256 core, false, b)) ∧
  (∀ (i : Instr) (s : State) (g : Fin 256) d a fn n signed t acc b, mayIssue i s g .sc → loadForm i = some (d, a, fn, n, signed) →
     scTarget s.m g ((s.m.core g).rs a + fn.signExtend 64) n = .ok (t, acc, b) →
     (heldBy s.m g .sc t = false → exec i s = .next (presented s g i ⟨t, acc, b, [], some ⟨d, n, signed⟩, (tk i).sig, none⟩)) ∧
     (heldBy s.m g .sc t = true →
       exec i s = .next (after s ((s.m.enqueue t (s.m.ctxOf g) (.eng g .sc)).waitOn g .sc (.held t) (tk i))))) ∧
  (∀ (m : Mach) (g : Fin 256) (p : PendAccess) (l : PendLoad), (m.core g).pend = some p → p.load = some l → sound m →
     ∃ x : Nat, (∀ k, k < l.size → x / 2 ^ (8 * k) % 2 ^ 8 =
         (if p.acc then accByte m p.core (p.addr + k) else spadByte m p.core (p.addr + k)).toNat) ∧ x < 2 ^ (8 * l.size) ∧
       m.performNow g = m.onCore g fun c => (({ c with pend := none } : Core).ws l.reg
         (if l.signed then (BitVec.ofNat (8 * l.size) x).signExtend 64 else BitVec.ofNat 64 x)).pushTok .sc p.sig) ∧
  (∀ (m : Mach) (g t : Fin 256) (e : Engine), heldBy m g e t = true ↔
     g ≠ t ∧ ¬ (m.occupied t (m.ctxOf g) = true ∧
       ∀ r, ((m.core t).portq.filter fun r => r.ctx = m.ctxOf g && m.live r.who).head? = some r → r.who = .eng g e))

/-- R199, R430: SC presents a scalar store to its port and goes on, and the token of SIG waits for the store; the port
performs it at a later move, which the step allows at any time. R11, R149: a port accepts requests in one clock in the order own
engines, copy engines, die units, other cores, each ascending, and takes one out of that order in the next clock (log
entry 102). R168, R430: that move puts the low bytes of Sb at the
address, least significant first, and changes no other byte of any scratchpad, accumulator store, device or host
memory; it sets the dirty bits of the regions it writes, and pushes the token. -/
def Obligations.ScalarStoresWrite : Prop :=
  (∀ (i : Instr) (s : State) (g : Fin 256) a b fn n t acc x, mayIssue i s g .sc → storeForm i = some (a, b, fn, n) →
    scTarget s.m g ((s.m.core g).rs a + fn.signExtend 64) n = .ok (t, acc, x) → heldBy s.m g .sc t = false →
    exec i s = .next (presented s g i ⟨t, acc, x, leBytes n ((s.m.core g).rs b).toNat, none, (tk i).sig, none⟩)) ∧
  (∀ (s : State) (g : Fin 256), ((s.m.core g).pend = none → act (.perform g) s = .next s) ∧
    ∀ p, (s.m.core g).pend = some p → act (.perform g) s = .next (after s ((s.m.noteReq p.core (.eng g .sc)).performNow g))) ∧
  (∀ (m : Mach) (t : Fin 256) (w : Who), (m.portRank t w = none → m.noteReq t w = m) ∧ ∀ r, m.portRank t w = some r →
    let now := (m.die (dieOf t)).cycle
    (outOfTurn (m.core t).lastReq now r →
      m.noteReq t w = (oneLater m (dieOf t)).onCore t fun c => { c with lastReq := some (now + 1, r) }) ∧
    (¬ outOfTurn (m.core t).lastReq now r → m.noteReq t w = m.onCore t fun c => { c with lastReq := some (now, r) })) ∧
  (∀ (m : Mach) (t g g' : Fin 256) (o o' : Op) (e : Fin 4), g ≠ t → g' ≠ t → g < g' →
    (m.ops.find? fun q => q.id = o.id) = some o → (m.ops.find? fun q => q.id = o'.id) = some o' → o.unit = .copy e →
    (∀ k, o'.unit ≠ .copy k) → ∃ a b c d f u v x y : Nat,
      m.portRank t (.eng t .sc) = some a ∧ m.portRank t (.eng t .ld) = some b ∧ m.portRank t (.eng t .st) = some c ∧
      m.portRank t (.eng t .mx) = some d ∧ m.portRank t (.eng t .asy) = some f ∧ m.portRank t (.op o.id) = some u ∧
      m.portRank t (.op o'.id) = some v ∧ m.portRank t (.eng g .sc) = some x ∧ m.portRank t (.eng g' .sc) = some y ∧
      [a, b, c, d, f, u, v, x, y].Pairwise (· < ·)) ∧
  (∀ (m : Mach) (g : Fin 256) (p : PendAccess), (m.core g).pend = some p → p.load = none →
    let m' := m.performNow g
    (∀ k y, spadByte m' k y = if p.acc = false ∧ k = p.core ∧ p.addr ≤ y ∧ y < p.addr + p.bytes.length
      then p.bytes.getD (y - p.addr) 0 else spadByte m k y) ∧
    (∀ k y, accByte m' k y = if p.acc = true ∧ k = p.core ∧ p.addr ≤ y ∧ y < p.addr + p.bytes.length
      then p.bytes.getD (y - p.addr) 0 else accByte m k y) ∧
    (p.acc = false → p.addr < 0x300000 → p.bytes ≠ [] → (m'.core p.core).dirty.getLsbD (p.addr / 4096) = true) ∧
    (m'.core g).pend = none ∧ (∀ k, k ≠ g → (m'.core k).pend = (m.core k).pend) ∧
    (∀ q, p.sig = some q → (m.core g).tokens .sc q < 8 → (m'.core g).tokens .sc q = (m.core g).tokens .sc q + 1) ∧
    (p.sig = none → (m'.core g).tok = (m.core g).tok ∧ (m'.core g).eng = (m.core g).eng) ∧
    (∀ k, (m'.core k).s = (m.core k).s ∧ (m'.core k).v = (m.core k).v ∧ (k ≠ g → (m'.core k).eng = (m.core k).eng ∧ (m'.core k).tok = (m.core k).tok)) ∧
    m'.dev = m.dev ∧ m'.host = m.host ∧ m'.ctxs = m.ctxs ∧ m'.dies = m.dies)

/-- R42, R435: TSPAWN of a well-formed block with room in the die's queue writes the record at RADDR, with the access of
its context, and enters it in the queue. R433: TJOIN decrements the JOIN of the record at Sa where a dispatcher
holds it for the task's context, and counts a stray otherwise. R218, R433: a decrement takes one from the JOIN of a waiting
record, which at zero is ready, at the end of its part, before the dispatcher scans; of a record that is not waiting, or whose
JOIN is zero, it counts a stray and nothing else. R221: DSTATE and JOIN are written back where the record lies. -/
def Obligations.RecordsAreSpawnedAndJoined : Prop :=
  (∀ t a s g, mayIssue (.tspawn t a) s g .sc → sound s.m →
     let x := ((s.m.core g).rs a).toNat
     let ws := wordsOf 8 (Memory.read (s.m.core g).spad x 64)
     let addr : BitVec 48 := (blkW ws 4).extractLsb' 0 48
     x % 64 = 0 → x + 64 ≤ 0x300000 → spawnBad s.m g ws = false → (s.m.die (dieOf g)).recs.length < 2 ^ 21 →
     exec (.tspawn t a) s = .next (after s
       ((((((s.m.ctxWrite (s.m.ctxOf g) addr.toNat ((ws.take 4).flatMap wordBytes)).addRec (dieOf g)
         (mkRec (s.m.ctxWrite (s.m.ctxOf g) addr.toNat ((ws.take 4).flatMap wordBytes)) (some addr) ws (s.m.ctxOf g) none)).scan
           (dieOf g))).onCore g fun c => c.retire .sc 1 t)))) ∧
  (∀ t a s g, mayIssue (.tjoin t a) s g .sc →
     let x := (s.m.core g).rs a
     x.toNat % 32 = 0 → x.toNat < 2 ^ 48 →
     exec (.tjoin t a) s = .next (after s ((match s.m.findRec (x.setWidth 48) with
       | some (d, r) => if r.ctx = s.m.ctxOf g then s.m.decJoin (s.m.ctxOf g) d r.id else s.m.stray (s.m.ctxOf g)
       | none => s.m.stray (s.m.ctxOf g)).onCore g fun c => c.retire .sc 1 t))) ∧
  (∀ (m : Mach) (c : Fin 64) (d : Fin 4) (k : Nat) (r : Rec), m.getRec d k = some r →
     (r.state ≠ .waiting ∨ r.join = 0 → m.decJoin c d k = m.stray c) ∧
     (r.state = .waiting → 1 < r.join.toNat → m.decJoin c d k =
       (m.onDie d fun x => { x with recs := x.recs.map fun q => if q.id = k then { q with join := q.join - 1 } else q }).writeRec
         { r with join := r.join - 1 }) ∧
     (r.state = .waiting → r.join = 1 → ∃ m' : Mach, m.decJoin c d k = m'.scan d ∧ m'.cores = m.cores ∧
       ∃ q, m'.getRec d k = some q ∧ q.state = .ready ∧ q.join = 0 ∧ q.order = m.nextId ∧ q.addr = r.addr ∧ q.ctx = r.ctx)) ∧
  (∀ (m : Mach) (r : Rec), (r.addr = none → m.writeRec r = m) ∧ ∀ a, r.addr = some a →
     m.writeRec r = (m.ctxWrite r.ctx (a.toNat + 0x14) (leBytes 4 (stateCode r.state + 8 * r.epri + 32 * r.credit))).ctxWrite
       r.ctx (a.toNat + 0x0E) (leBytes 2 r.join.toNat))

/-- R410: NOTIFY writes Sa, the task's id, the core and the number of the notice into the next record of the notice ring,
counts it lost where the ring is full, and does nothing where notices are off. -/
def Obligations.NotifyWritesANotice : Prop :=
  ∀ t a s g k, mayIssue (.notify t a) s g .sc → (s.m.core g).task = some k →
    let x := s.m.ctx k.ctx
    (x.nen = false → exec (.notify t a) s = .next (retired s g .sc (.notify t a) id)) ∧
    (x.nen = true → (x.nrhead - x.nrtail).toNat = 2 ^ x.cur.lnr.toNat → exec (.notify t a) s =
      .next (after s ((s.m.onCtx k.ctx fun x => { x with nlost := sat32 x.nlost }).onCore g fun c => c.retire .sc 1 t))) ∧
    (x.nen = true → (x.nrhead - x.nrtail).toNat ≠ 2 ^ x.cur.lnr.toNat → exec (.notify t a) s =
      .next (after s (((s.m.hostWrite (x.cur.nrbase.toNat + 16 * (x.nrhead.toNat % 2 ^ x.cur.lnr.toNat))
        (leBytes 8 ((s.m.core g).rs a).toNat ++ leBytes 4 k.taskid.toNat ++ leBytes 1 g.val ++ leBytes 3 x.nrhead.toNat)).onCtx k.ctx
          fun x => { x with nrhead := x.nrhead + 1 }).onCore g fun c => c.retire .sc 1 t)))

/-- R390: GPGET reads, and GPSET writes, a GP register of the task's context, and no other register of any context. R11, R391:
the GP file accepts posts of the units, host writes and the cores' accesses in this order within a clock, the cores ascending,
and takes one out of that order in the next clock (log entry 102). -/
def Obligations.GpRegistersBelongToTheContext : Prop :=
  ∀ t r n s g k, (s.m.core g).task = some k →
    (∀ (m : Mach) (c : Fin 64) (p : Nat), let now := (m.die 0).cycle
      (outOfTurn (m.ctx c).gpLast now p → m.atGp c p = (oneLater m 0).onCtx c fun x => { x with gpLast := some (now + 1, p) }) ∧
      (¬ outOfTurn (m.ctx c).gpLast now p → m.atGp c p = m.onCtx c fun x => { x with gpLast := some (now, p) })) ∧
    ((∀ d, gpCamp d < gpCup d ∧ gpCup d < gpHost) ∧ gpHost < gpCore 0 ∧ ∀ a b : Fin 256, a < b → gpCore a < gpCore b) ∧
    (mayIssue (.gpget t r n) s g .sc → exec (.gpget t r n) s =
      .next (retired (after s (s.m.atGp k.ctx (gpCore g))) g .sc (.gpget t r n) fun c => c.ws r ((s.m.ctx k.ctx).gp[n.val]))) ∧
    (mayIssue (.gpset t r n) s g .sc → ∃ m' : Mach, exec (.gpset t r n) s = .next (after s (m'.onCore g fun c => c.retire .sc 1 t)) ∧
      m'.cores = s.m.cores ∧ m'.dies = (s.m.atGp k.ctx (gpCore g)).dies ∧ m'.dev = s.m.dev ∧ m'.host = s.m.host ∧
      (∀ c, c ≠ k.ctx → m'.ctx c = s.m.ctx c) ∧ (m'.ctx k.ctx).gp[n.val] = (s.m.core g).rs r ∧
      ∀ q : Fin 64, q ≠ n → (m'.ctx k.ctx).gp[q.val] = (s.m.ctx k.ctx).gp[q.val])

/-! ## Vector loads and stores -/

/-- R54, R199, R200, R450 to R454, R158: a repetition of a load whose addresses are good issues: its WAIT token and its
Q6 entry are popped, and the lines of its rows are to be read, in any order (through the compressed view the tile is
read at once); a line read hands its bytes to its row; once all are read the rows of a register are written one by one,
or one queue entry is pushed, each lane widened from its element's bytes; to Q7 go 8 bytes; after the last the
repetition ends. The model's own readings: a job of lines and rows, in any order (log entry 87); the tile of the view in
one act (4); NT and LEN of a region as they stand (91). -/
def Obligations.VectorLoadsDeliver : Prop :=
  ∀ (i : Instr) (s : State) (g : Fin 256) r q rep st sp et colp, vldForm i = some (r, q, rep, st, sp, et, colp) →
    let c := s.m.core g
    let p := c.pat 0 q
    let k := (c.e .ld).rep.toNat
    let adv : Int := 64 * st.toInt * k
    let view := p.rot = 7 ∧ colp = none
    (mayIssue i s g .ld → (c.e .ld).job = none → ∀ t, ldTarget s.m g sp = .at t → ldRoom c r = true →
      heldBy s.m g .ld t = false → sound s.m →
      (p.rot ≠ 7 → wordFault p r sp et colp adv = none →
        ∃ j : Job, exec i s = .next (after s ((s.m.servedAt g .ld t).onCore g fun c => (keepTarget sp t c).beginJob .ld (tk i) j)) ∧
          j.rows = (if toQueue r then [0] else List.range 16) ∧ j.writes = [] ∧ j.got = [] ∧ j.begun = false ∧
          (∀ x ∈ j.reads, (x.acc = true ↔ sp = .acc) ∧ x.tag ≠ 0 ∧ ∃ n, ∀ u ∈ x.runs, 64 * n ≤ u.1 ∧ u.1 + u.2 ≤ 64 * n + 64) ∧
          (r ≠ .q 7 → ∀ l, l < 1024 → ∀ b, b < max 1 (EtM.bytes et) →
            ∃ x ∈ j.reads, x.tag = l / 64 + 1 ∧ ∃ u ∈ x.runs, u.1 ≤ elemAddr p et colp adv l + b ∧ elemAddr p et colp adv l + b < u.1 + u.2)) ∧
      (view → viewFault p r sp et = none → ∀ x bs,
        ctLook (s.m.core t).spad p.base ((p.tilep : Int) + st.toInt * k) = some x →
        ctRead (s.m.core t).spad p.base ((p.tilep : Int) + st.toInt * k) = some bs →
        exec i s = .next (after s ((s.m.servedAt g .ld t).onCore g fun c => (keepTarget sp t c).beginJob .ld (tk i)
          ⟨[], if toQueue r then [0] else List.range 16, [], Memory.write [] 0 bs, [], false⟩)))) ∧
    (acts s g .ld → sound s.m → ∀ j, (c.e .ld).job = some j → j.writes = [] → j.rows ≠ [] →
      let t := match (c.e .ld).tgt with | some t => Fin.ofNat 256 t.toNat | none => g
      let m0 := (s.m.servedAt g .ld t).onCore g fun c => c.onE .ld fun x => { x with wait := none }
      (j.reads ≠ [] → heldBy s.m g .ld t = true → ∃ m' : Mach, exec i s = .next (after s m') ∧
        (∀ h, (m'.core h).spad = (s.m.core h).spad ∧ (m'.core h).v = (s.m.core h).v) ∧ ((m'.core g).e .ld).job = some j) ∧
      (j.reads ≠ [] → heldBy s.m g .ld t = false → ∃ x ∈ j.reads, exec i s = .next (after s (m0.onCore g fun c => c.onJob .ld fun j =>
        { j with reads := j.reads.erase x,
                 got := x.runs.foldl (fun (w : Memory) u => Memory.write w (x.tag * 2 ^ 24 + x.acc.toNat * 2 ^ 23 + u.1)
                   (Memory.read (if x.acc then (s.m.core t).acc else (s.m.core t).spad) u.1 u.2)) j.got }))) ∧
      (j.reads = [] → ∃ b ∈ j.rows, ∃ m' : Mach,
        exec i s = .next (after s (if j.rows.erase b = [] then repEnd i g .ld rep m' else m')) ∧
        m' = m0.onCore g (fun c => (if r = .q 7
            then { c with qw := upd c.qw 3 fun l => l ++ [BitVec.ofNat 64 (leVal (Memory.read (j.mem 1 (sp = .acc)) ((p.addr 0 0 : Int) + adv).toNat 8))] }
            else ldPut r k b (ldTile j (sp = .acc) p et colp adv) c).onJob .ld fun j => { j with rows := j.rows.erase b, begun := true }))) ∧
    (∀ j : Job, ¬ view → ∀ l, l < 1024 → laneOf (ldTile j (sp = .acc) p et colp adv) l =
      EtM.widen et (l % 64) (leVal (Memory.read (j.mem (l / 64 + 1) (sp = .acc)) (elemAddr p et colp adv l) (max 1 (EtM.bytes et))))) ∧
    (∀ j : Job, view → ldTile j (sp = .acc) p et colp adv = tileOfBytes (Memory.read (j.mem 0 false) 0 4096)) ∧
    (∀ (c : Core) (x : Tile) (n : Fin 32) (b l : Nat), r = .v n → l < 1024 →
      laneOf ((ldPut r k b x c).v[(n.val + k) % 32]'(Nat.mod_lt _ (by decide))) l =
        if l / 64 = b then laneOf x l else laneOf (c.v[(n.val + k) % 32]'(Nat.mod_lt _ (by decide))) l) ∧
    (∀ (c : Core) (x : Tile) (n : Fin 8) (b l : Nat), r = .w n → l < 1024 →
      (ldPut r k b x c).v = c.v ∧ laneOf ((ldPut r k b x c).w[(n.val + k) % 8]'(Nat.mod_lt _ (by decide))) l =
        if l / 64 = b then laneOf x l else laneOf (c.w[(n.val + k) % 8]'(Nat.mod_lt _ (by decide))) l) ∧
    (∀ (c : Core) (x : Tile) (n : Fin 8) (b : Nat), r = .q n → n.val < 4 →
      (ldPut r k b x c).v = c.v ∧ (ldPut r k b x c).w = c.w ∧ ∀ y : Fin 4,
        (ldPut r k b x c).qt[y.val] = if y.val = n.val then c.qt[y.val] ++ [x] else c.qt[y.val])

/-- R54, R152, R199, R450 to R454: a repetition of a store whose addresses are good pops Q3 and presents the lines of
the tile's 16 rows, each lane's bytes low byte first at its element's address (4-bit lanes two to a byte); a line
written changes its own bytes alone, and the dirty bits of a scratchpad (R168); after the last the repetition ends.
Through the compressed view the tile is stored at once. The model's own readings: a job of lines, in any order (log
entry 87); the tile of the view in one act (4). -/
def Obligations.VectorStoresStore : Prop :=
  (∀ (i : Instr) (s : State) (g : Fin 256) r q rep st sp et colp, vstForm i = some (r, q, rep, st, sp, et, colp) →
     let c := s.m.core g
     let k := (c.e .st).rep.toNat
     let p := c.pat 1 q
     let adv : Int := 64 * st.toInt * k
     (mayIssue i s g .st → (c.e .st).job = none → ∀ x rest, c.qt[3] = x :: rest →
       (p.rot ≠ 7 → wordFault p r sp et colp adv = none →
         ∃ j : Job, exec i s = .next (after s (s.m.onCore g fun c => ({ c with qt := put c.qt 3 rest } : Core).beginJob .st (tk i) j)) ∧
           j.reads = [] ∧ j.rows = [] ∧ j.begun = true ∧
           j.writes = (List.range 16).flatMap fun b => writesOf (sp = .acc) (stRuns p et colp adv x b)) ∧
       (p.rot = 7 → colp = none → viewFault p r sp et = none → sound s.m → ∀ c'',
         ctWrite { c with qt := put c.qt 3 rest } p.base ((p.tilep : Int) + st.toInt * k) (tileBytes x) = some c'' →
         exec i s = .next (after s (repEnd i g .st rep (s.m.onCore g fun c =>
           { c with qt := put c.qt 3 rest, spad := c''.spad, dirty := c''.dirty }))))) ∧
     (acts s g .st → ∀ j, (c.e .st).job = some j → j.reads = [] → j.rows = [] → j.writes ≠ [] →
       ∃ w ∈ j.writes, exec i s = .next (after s (
         let m' := s.m.onCore g fun c => (c.putLine w).onJob .st fun j => { j with writes := j.writes.erase w, begun := true }
         if j.writes.erase w = [] then repEnd i g .st rep m' else m')))) ∧
  (∀ (p : Pat) (et : EtM) (colp : Option Nat) (adv : Int) (x : Tile) (b e : Nat), e < 64 →
     let l := 64 * b + e
     (EtM.bytes et ≠ 0 → (elemAddr p et colp adv l, leBytes (EtM.bytes et) (laneOf x l).toNat) ∈ stRuns p et colp adv x b) ∧
     (EtM.bytes et = 0 → e % 2 = 0 →
       (elemAddr p et colp adv l, [BitVec.ofNat 8 ((laneOf x l).toNat % 16 + 16 * ((laneOf x (l + 1)).toNat % 16))]) ∈ stRuns p et colp adv x b)) ∧
  (∀ (c : Core) (w : LineWrite),
     let c' := c.putLine w
     (∀ y, (∀ u ∈ w.runs, y < u.1 ∨ u.1 + u.2.length ≤ y) → Memory.read1 c'.spad y = Memory.read1 c.spad y ∧ Memory.read1 c'.acc y = Memory.read1 c.acc y) ∧
     (∀ u, w.runs = [u] → ∀ y, u.1 ≤ y → y < u.1 + u.2.length →
       Memory.read1 (if w.acc then c'.acc else c'.spad) y = u.2.getD (y - u.1) 0) ∧
     (w.acc = false → c'.acc = c.acc ∧ ∀ u ∈ w.runs, u.2 ≠ [] → u.1 < 0x300000 → c'.dirty.getLsbD (u.1 / 4096) = true) ∧
     (w.acc = true → c'.spad = c.spad ∧ c'.dirty = c.dirty) ∧
     c'.s = c.s ∧ c'.v = c.v ∧ c'.w = c.w ∧ c'.m = c.m ∧ c'.qt = c.qt ∧ c'.qw = c.qw ∧ c'.eng = c.eng ∧ c'.tok = c.tok ∧ c'.task = c.task)

/-- R94, R153: a scalar access whose address names no byte, or is not a multiple of its width, traps, and has no other
effect. R54, R63, R94, R152, R155, R158, R450 to R453: a repetition of a load or a store whose addresses are at fault
traps with that fault, through the compressed view as without it. R159, R160: through the view, a tile that fails its check, or
a store that finds no room, traps SPAD_RANGE. That a .RAW access to the scratchpad whose rows lie off a 4-byte multiple traps
ALIGN is the model's reading (log entry 39), and so are the traps of Q7 and of ROWP through the view (40). -/
def Obligations.AddressFaultsTrap : Prop :=
  (∀ (i : Instr) (s : State) (g : Fin 256) (a : Fin 32) (fn : BitVec 15) (n : Nat) (f : Cause), mayIssue i s g .sc →
     ((∃ d wide, loadForm i = some (d, a, fn, n, wide)) ∨ ∃ b, storeForm i = some (a, b, fn, n)) →
     scTarget s.m g ((s.m.core g).rs a + fn.signExtend 64) n = .error f →
     exec i s = .next (after s (s.m.takeTrap g .sc f 0 (infoOf i)))) ∧
  (∀ (i : Instr) (s : State) (g : Fin 256) r q rep st sp et colp f,
     let faultAt (p : Pat) (adv : Int) : Option Cause :=
       if p.rot = 7 ∧ colp = none then viewFault p r sp et else wordFault p r sp et colp adv
     (mayIssue i s g .ld → ((s.m.core g).e .ld).job = none → vldForm i = some (r, q, rep, st, sp, et, colp) →
       faultAt ((s.m.core g).pat 0 q) (64 * st.toInt * (((s.m.core g).e .ld).rep.toNat : Int)) = some f →
       exec i s = .next (after s (s.m.takeTrap g .ld f 0 (infoOf i)))) ∧
     (mayIssue i s g .st → ((s.m.core g).e .st).job = none → vstForm i = some (r, q, rep, st, sp, et, colp) →
       faultAt ((s.m.core g).pat 1 q) (64 * st.toInt * (((s.m.core g).e .st).rep.toNat : Int)) = some f →
       exec i s = .next (after s (s.m.takeTrap g .st f 0 (infoOf i))))) ∧
  (∀ (i : Instr) (s : State) (g t : Fin 256) r q rep st sp et, mayIssue i s g .ld → ((s.m.core g).e .ld).job = none →
     vldForm i = some (r, q, rep, st, sp, et, none) →
     let p := (s.m.core g).pat 0 q
     p.rot = 7 → viewFault p r sp et = none → ldTarget s.m g sp = .at t → ldRoom (s.m.core g) r = true → heldBy s.m g .ld t = false →
     sound s.m → ctLook (s.m.core t).spad p.base ((p.tilep : Int) + st.toInt * ((s.m.core g).e .ld).rep.toNat) = none →
     exec i s = .next (after s ((s.m.servedAt g .ld t).takeTrap g .ld .spadRange 0 (infoOf i)))) ∧
  (∀ (i : Instr) (s : State) (g : Fin 256) r q rep st sp et x rest, mayIssue i s g .st → ((s.m.core g).e .st).job = none →
     vstForm i = some (r, q, rep, st, sp, et, none) →
     let c := s.m.core g
     let p := c.pat 1 q
     p.rot = 7 → viewFault p r sp et = none → c.qt[3] = x :: rest → sound s.m →
     ctWrite { c with qt := put c.qt 3 rest } p.base ((p.tilep : Int) + st.toInt * (c.e .st).rep.toNat) (tileBytes x) = none →
     exec i s = .next (after s (s.m.takeTrap g .st .spadRange 0 (infoOf i))))

/-! ## VX -/

/-- R56, R66, R67, R437: a VX instruction with a tile destination, its sources there and room for its result, reads its
sources in order, writes its result to the destination and to Z, and retires; a lane that its mask turns off keeps the
destination's value, or is zero in a queue entry. -/
def Obligations.VxWritesItsDestination : Prop :=
  ∀ (i : Instr) (s : State) (g : Fin 256) (d : VSpec), mayIssue i s g .vx → vxDest i = some d →
    (∀ w, ((s.m.core g).readSpecs w (vxSources i)).isSome = true) → (s.m.core g).destRoom d = true →
    ∃ w ts c' r, (s.m.core g).readSpecs w (vxSources i) = some (ts, c') ∧
      exec i s = .next (retired s g .vx i fun _ => c'.writeDest d r) ∧
      ∀ k, vxMaskOf i = some k → ∀ l, l < 1024 → (s.m.core g).on k l = false →
        laneOf r l = laneOf ((s.m.core g).oldDest d) l

/-- R439, R446, R455, R460: in each lane that the mask lets through, a floating-point instruction, a conversion or a uniform
draw of VX writes the exact value of its operands, rounded once to its type by ROUND, with the lane's own NaN and random
draw. R146, R147, R461: VSF writes the F32 result of its function (the fixed results, and between them a free one within the
bounds, log entry 8), rounded to the type. R444: a reduction writes in every place of a line the root of the fixed tree
over it, a scan the running value of the sequence, with the lanes and parts of their draws; that a NaN of the device at a node
carries the lane of the node is the model's reading (log entry 47). -/
def Obligations.VxFloatLanesRoundOnce : Prop :=
  (∀ (i : Instr) (s : State) (g : Fin 256) (d : VSpec) (k : Fin 8) (w : Nat) (ty : DTy) (f : Nat → List Tile → Val), mayIssue i s g .vx →
    vxDest i = some d → vxMaskOf i = some k →
    (∀ l ts, floatLane ((s.m.core g).env .vx 1) ts l i = some (w, ty, f l ts)) →
    ∀ ts c', (s.m.core g).readSpecs w (vxSources i) = some (ts, c') → (s.m.core g).destRoom d = true →
    ∃ r, exec i s = .next (retired s g .vx i fun _ => c'.writeDest d r) ∧
      ∀ l, l < 1024 → (s.m.core g).on k l = true → laneOf r l = ((s.m.core g).env .vx 1).round ty l 0 (f l ts)) ∧
  (∀ (i : Instr) (s : State) (g : Fin 256) fn d a k ty ts c', mayIssue i s g .vx → sfForm i = some (fn, d, a, k, ty) →
    (s.m.core g).readSpecs (FTy.width ty) [a] = some (ts, c') → (s.m.core g).destRoom d = true →
    ∃ r, exec i s = .next (retired s g .vx i fun _ => c'.writeDest d r) ∧
      ∀ l, l < 1024 → (s.m.core g).on k l = true →
        ∃ v, sfResult fn (((s.m.core g).env .vx 1).dv l) (toF32 (fl ty ts 0 l)) v ∧
          laneOf r l = if ty = .f32 then v else ((s.m.core g).env .vx 1).round (.f ty) l 0 (f32 v)) ∧
  (∀ (i : Instr) (s : State) (g : Fin 256) d a k ty op row ts c', mayIssue i s g .vx →
    (s.m.core g).readSpecs (DTy.width ty) [a] = some (ts, c') → (s.m.core g).destRoom d = true →
    let v := (s.m.core g).env .vx 1
    (reduceForm i = some (d, a, k, ty, op, row) → ∃ r, exec i s = .next (retired s g .vx i fun _ => c'.writeDest d r) ∧
      ∀ l, l < 1024 → (s.m.core g).on k l = true →
        let n := if row then l / 64 else l % 64
        laneOf r l = treeNode (fun lv j x y => combine op ty v (lineLane row n (2 ^ lv * j)) lv x y)
          (lineElem ts (DTy.width ty) row n) (if row then 6 else 4) 0) ∧
    (scanForm i = some (d, a, k, ty, op, row) → ∃ r, exec i s = .next (retired s g .vx i fun _ => c'.writeDest d r) ∧
      ∀ l, l < 1024 → (s.m.core g).on k l = true →
        let n := if row then l / 64 else l % 64
        laneOf r l = scanNode (fun t x y => combine op ty v (lineLane row n t) 0 x y) (lineElem ts (DTy.width ty) row n)
          (if row then l % 64 else l / 64)))

/-- R440, R443, R447 to R449, R458 to R460: what integer, logic and lane-moving instructions of VX, unpacking and VRAND write
in each lane that the mask lets through. R459: VPACK puts the elements side by side into the lanes of the part that b(0)
names and keeps every other lane. R462: VSPZ keeps of each eight lanes the n of largest magnitude, lower lanes first
among equals, in lane order, and their places as 3-bit indices; that all NaNs rank equal is the model's reading (log
entry 48). -/
def Obligations.VxIntegerLanes : Prop :=
  (∀ (i : Instr) (s : State) (g : Fin 256) (d : VSpec) (k : Fin 8), mayIssue i s g .vx →
    vxDest i = some d → vxMaskOf i = some k → (∀ l ts, (intLane ((s.m.core g).env .vx 1) ts l i).isSome = true) →
    (∀ w, ((s.m.core g).readSpecs w (vxSources i)).isSome = true) → (s.m.core g).destRoom d = true →
    ∃ w ts c' r, (s.m.core g).readSpecs w (vxSources i) = some (ts, c') ∧
      exec i s = .next (retired s g .vx i fun _ => c'.writeDest d r) ∧
      ∀ l, l < 1024 → (s.m.core g).on k l = true → some (laneOf r l) = intLane ((s.m.core g).env .vx 1) ts l i) ∧
  (∀ t d a b k ty s g ts c', mayIssue (.vpack t d a b k ty) s g .vx →
    let w := DTy.width ty
    let n := 32 / w
    (s.m.core g).readSpecs w [a, b] = some (ts, c') → (s.m.core g).destRoom d = true →
    ∃ r, exec (.vpack t d a b k ty) s = .next (retired s g .vx (.vpack t d a b k ty) fun _ => c'.writeDest d r) ∧
      ∀ l, l < 1024 →
        if (s.m.core g).on k l = true ∧ l / (1024 / n) = lf (ln ts 1 0) 0 3 % n then
          ∀ e, e < n → lf (laneOf r l) (e * w) w = lf (ln ts 0 (l % (1024 / n) * n + e)) 0 w
        else laneOf r l = laneOf ((s.m.core g).oldDest d) l) ∧
  (∀ t d a n k ty s g ts c', mayIssue (.vspz t d a n k ty) s g .vx →
    let w := FTy.width ty
    (s.m.core g).readSpecs w [a] = some (ts, c') → (s.m.core g).destRoom d = true →
    ∃ r, exec (.vspz t d a n k ty) s = .next (retired s g .vx (.vspz t d a n k ty) fun _ => c'.writeDest d r) ∧
      ∀ q, q < 128 → ∃ ix : List Nat, ix.length = n.toNat ∧ ix.Pairwise (· < ·) ∧ (∀ x ∈ ix, x < 8) ∧
        (let rank (j : Nat) : Nat := match Val.ofF ty (lf (ln ts 0 (8 * q + j)) 0 w) with
           | .nan _ => 2 ^ 32 | _ => lf (ln ts 0 (8 * q + j)) 0 (w - 1)
         ∀ x ∈ ix, ∀ y, y < 8 → y ∉ ix → rank y < rank x ∨ (rank y = rank x ∧ x < y)) ∧
        ∀ j, j < 8 → (s.m.core g).on k (8 * q + j) = true → (laneOf r (8 * q + j)).toNat =
          if j = 7 then ((List.range n.toNat).map fun e => ix.getD e 0 * 8 ^ e).sum
          else if j < n.toNat then lf (ln ts 0 (8 * q + ix.getD j 0)) 0 w else 0)

/-- R445, R456: VCMP and VICMP write, in the lanes their mask lets through, whether the condition holds, and VMOP
combines two masks bit by bit; no other register is written, and Z is not. R66, R447, R457, R458: a result written
with `writeDest` goes to its register or its queue, and to Z0, whose old value goes to Z1; VSEL takes each lane from
one of two sources by its mask, VINS scatters the lanes its mask selects, a later one over an earlier one, and VMCNT
counts the ones of a mask. -/
def Obligations.VxWritesMasksAndDestinations : Prop :=
  (∀ (s : State) (g : Fin 256),
     (∀ t d a b k m ty ts c', mayIssue (.vcmp t d a b k m ty) s g .vx →
       (s.m.core g).readSpecs (FTy.width ty) [a, b] = some (ts, c') →
       ∃ x : BitVec 1024, exec (.vcmp t d a b k m ty) s = .next (retired s g .vx (.vcmp t d a b k m ty) fun _ => c'.wm d x) ∧
         ∀ l, l < 1024 → x.getLsbD l = if (s.m.core g).on m l = true then VCond.flt k (fl ty ts 0 l) (fl ty ts 1 l) else (s.m.core g).on d l) ∧
     (∀ t d a b k m ty ts c', mayIssue (.vicmp t d a b k m ty) s g .vx →
       (s.m.core g).readSpecs (ITy.width ty) [a, b] = some (ts, c') →
       ∃ x : BitVec 1024, exec (.vicmp t d a b k m ty) s = .next (retired s g .vx (.vicmp t d a b k m ty) fun _ => c'.wm d x) ∧
         ∀ l, l < 1024 → x.getLsbD l = if (s.m.core g).on m l = true then VCond.int k (il ty ts 0 l) (il ty ts 1 l) else (s.m.core g).on d l) ∧
     (∀ t d a b op, mayIssue (.vmop t d a b op) s g .vx →
       ∃ x : BitVec 1024, exec (.vmop t d a b op) s = .next (retired s g .vx (.vmop t d a b op) fun c => c.wm d x) ∧
         ∀ l, l < 1024 → x.getLsbD l = match op with
           | .and => (s.m.core g).on a l && (s.m.core g).on b l
           | .or => (s.m.core g).on a l || (s.m.core g).on b l
           | .xor => (s.m.core g).on a l ^^ (s.m.core g).on b l
           | .andn => (s.m.core g).on a l && !(s.m.core g).on b l
           | .not => !(s.m.core g).on a l
           | .mov => (s.m.core g).on a l
           | .set => true
           | .clr => false)) ∧
  ((∀ (c : Core) (n : Fin 32) (r : Tile), (c.writeDest (.v n) r).v[n.val] = r ∧ (∀ q : Fin 32, q ≠ n → (c.writeDest (.v n) r).v[q.val] = c.v[q.val]) ∧
     (c.writeDest (.v n) r).z[0] = r ∧ (c.writeDest (.v n) r).z[1] = c.z[0] ∧ (c.writeDest (.v n) r).w = c.w ∧ (c.writeDest (.v n) r).m = c.m ∧
     (c.writeDest (.v n) r).s = c.s ∧ (c.writeDest (.v n) r).spad = c.spad ∧ (c.writeDest (.v n) r).qt = c.qt) ∧
   (∀ (c : Core) (n : Fin 8) (r : Tile), (c.writeDest (.w n) r).w[n.val] = r ∧ (c.writeDest (.w n) r).v = c.v ∧ (c.writeDest (.w n) r).z[0] = r) ∧
   (∀ t d a b m s g ts c', mayIssue (.vsel t d a b m) s g .vx → (s.m.core g).readSpecs 32 [a, b] = some (ts, c') →
     (s.m.core g).destRoom d = true → ∃ r, exec (.vsel t d a b m) s = .next (retired s g .vx (.vsel t d a b m) fun _ => c'.writeDest d r) ∧
       ∀ l, l < 1024 → laneOf r l = if (s.m.core g).on m l = true then ln ts 0 l else ln ts 1 l) ∧
   (∀ t d a b m s g ts c', mayIssue (.vins t d a b m) s g .vx → (s.m.core g).readSpecs 32 [a, b] = some (ts, c') →
     (s.m.core g).destRoom d = true → ∃ r, exec (.vins t d a b m) s = .next (retired s g .vx (.vins t d a b m) fun _ => c'.writeDest d r) ∧
       (∀ l, l < 1024 → (s.m.core g).on m l = true →
         (∀ k, l < k → k < 1024 → (s.m.core g).on m k = true → (ln ts 1 k).toNat % 1024 ≠ (ln ts 1 l).toNat % 1024) →
         laneOf r ((ln ts 1 l).toNat % 1024) = ln ts 0 l) ∧
       ∀ j, j < 1024 → (∀ l, l < 1024 → (s.m.core g).on m l = true → (ln ts 1 l).toNat % 1024 ≠ j) →
         laneOf r j = laneOf ((s.m.core g).oldDest d) j) ∧
   (∀ t d k m s g, mayIssue (.vmcnt t d k m) s g .vx → (s.m.core g).destRoom d = true →
     ∃ r, exec (.vmcnt t d k m) s = .next (retired s g .vx (.vmcnt t d k m) fun c => c.writeDest d r) ∧
       ∀ l, l < 1024 → (laneOf r l).toNat = ((Finset.range (if k = 0 then 1024 else l)).filter fun j => (s.m.core g).on m j = true).card))

namespace Sys2Proof.Claims
open Sys2Proof.Machine

/-! ## MX -/

/-- Byte b of row j of a pattern, moved by adv bytes (R152). -/
def rowByte (c : Core) (p : Pat) (j b adv : Nat) : Byte := Memory.read1 c.spad (p.addr j b + adv)

/-- Element k, of w bits, of a row of which f gives the bytes: the first element lowest (R276). -/
def elemOf (w k : Nat) (f : Nat → Byte) : Nat :=
  if w = 4 then (f (k / 2)).toNat / 2 ^ (4 * (k % 2)) % 2 ^ 4
  else if w = 8 then (f k).toNat
  else (f (2 * k)).toNat + 2 ^ 8 * (f (2 * k + 1)).toNat

/-- Engine e of core g acts, and job j is under way there. -/
abbrev jobAt (s : State) (g : Fin 256) (e : Engine) (j : Job) : Prop := acts s g e ∧ ((s.m.core g).e e).job = some j

/-- A repetition issues: its token is popped, and job j is under way (R54, R59, R199). -/
def begunJob (s : State) (g : Fin 256) (e : Engine) (i : Instr) (j : Job) : State :=
  after s (s.m.onCore g fun c => c.beginJob e (tk i) j)

/-- The job reads byte a of a memory for a row. -/
def readsByte (j : Job) (tag : Nat) (acc : Bool) (a : Nat) : Prop :=
  ∃ x ∈ j.reads, x.tag = tag ∧ x.acc = acc ∧ ∃ u ∈ x.runs, u.1 ≤ a ∧ a < u.1 + u.2

/-- Row k of the job has given the lines ws. -/
def rowGave (m : Mach) (g : Fin 256) (e : Engine) (k : Nat) (ws : List LineWrite) : Mach :=
  m.onCore g fun c => c.onJob e fun j => j.rowDone k ws

/-- The lines put into a core, one after the other. -/
def putAll (ws : List LineWrite) (c : Core) : Core := ws.foldl Core.putLine c

/-- Bit n of a run of bytes that f gives, the first byte lowest. -/
def bitOf (f : Nat → Byte) (n : Nat) : Bool := (f (n / 8)).getLsbD (n % 8)

/-- The weight loads: pattern, input type, weights kept of every 8 (R276). -/
def weightForm : Instr → Option (Fin 8 × InTy × Nat)
  | .mwld _ p it => some (p, it, 8)
  | .mwldS4 _ p it => some (p, it, 4)
  | .mwldS2 _ p it => some (p, it, 2)
  | .mwldS1 _ p it => some (p, it, 1)
  | _ => none

/-- The words of the 64-byte block that pair p of MX names, where it can be read. -/
def mxWords (c : Core) (p : Fin 8) : List Word := wordsOf 8 (Memory.read c.spad (c.pat 2 p).base 64)
abbrev mxBlockOk (c : Core) (p : Fin 8) : Prop :=
  (c.pat 2 p).base % 64 = 0 ∧ (c.pat 2 p).fault false 64 1 64 0 0x300000 = none

/-- MX goes on to the next repetition, or retires (R54). -/
def mxDone (s : State) (g : Fin 256) (i : Instr) (rep : BitVec 6) (m : Mach) : State := after s (repEnd i g .mx rep m)

/-- The lines write n accumulator rows from row lo on and nothing else. -/
def accLines (ws : List LineWrite) (lo n : Nat) : Prop :=
  ∀ c, (putAll ws c).spad = c.spad ∧ (putAll ws c).eng = c.eng ∧ (putAll ws c).mx = c.mx ∧ (putAll ws c).s = c.s ∧
    ∀ a, a < 512 * lo ∨ 512 * (lo + n) ≤ a → Memory.read1 (putAll ws c).acc a = Memory.read1 c.acc a

end Sys2Proof.Claims

/-- R50: an engine that completes, in sequence, an instruction that ends the innermost body returns to the body's first
parcel while the count stays above zero, and otherwise leaves the body. R54: a repetition that is not the word's last
leaves the engine at the parcel, at the next repetition, its WAIT token popped; the last one retires the word. R199,
R280: an act of a repetition that has issued reads one of its pending lines, takes the result of one of its rows (not
before that row's lines are read), or writes one of its pending lines, in any order (log entry 87), and after the last
of them the repetition ends. R284: a drain of MX takes its rows, and writes their lines, in their order. -/
def Obligations.BodiesAndRepetitionsCountDown : Prop :=
  (∀ (x : EngState) (l : LoopEntry) (rest : List LoopEntry) (len : Nat), 0 < len → x.loops = l :: rest →
     x.pc.toNat ≤ l.last.toNat → l.last.toNat ≤ x.pc.toNat + len - 1 →
     (1 < l.count.toNat → (x.advance len).pc = l.first ∧ (x.advance len).loops = { l with count := l.count - 1 } :: rest) ∧
     (l.count.toNat ≤ 1 → (x.advance len).pc = (({ x with loops := rest } : EngState).advance len).pc ∧
       (x.advance len).loops = (({ x with loops := rest } : EngState).advance len).loops)) ∧
  (∀ (i : Instr) (g : Fin 256) (e : Engine) (rep : BitVec 6) (m : Mach),
     let x := (m.core g).e e
     let m' := repEnd i g e rep m
     (x.rep = rep → m' = m.onCore g fun c => c.retire e (parcels i) (tk i)) ∧
     (x.rep ≠ rep → ((m'.core g).e e).rep = x.rep + 1 ∧ ((m'.core g).e e).pc = x.pc ∧ ((m'.core g).e e).walk = x.walk ∧
       ((m'.core g).e e).tokp = true ∧ ((m'.core g).e e).loops = x.loops ∧
       (∀ p, (tk i).wait = some p → p ≠ e → (m'.core g).tokens p e = if x.tokp then (m.core g).tokens p e else (m.core g).tokens p e - 1) ∧
       (∀ h, h ≠ g → m'.core h = m.core h))) ∧
  (∀ (m : Mach) (g t : Fin 256) (e : Engine) (eager : Bool) (row : Nat → Job → Mach → Mach) (fin : Mach → Mach) (j : Job),
     ((m.core g).e e).job = some j → (m.core t).clean = true → (j.reads ≠ [] ∨ j.rows ≠ [] ∨ j.writes ≠ []) →
     let done (m : Mach) : Mach := match ((m.core g).e e).job with
       | some j => if j.reads = [] ∧ j.rows = [] ∧ j.writes = [] then fin m else m
       | none => m
     (∃ x ∈ j.reads, m.jobAct g e t eager row fin j = done (m.onCore g fun c => c.onJob e fun j =>
       { j with reads := j.reads.erase x,
                got := x.runs.foldl (fun (w : Memory) u => Memory.write w (x.tag * 2 ^ 24 + x.acc.toNat * 2 ^ 23 + u.1)
                  (Memory.read (if x.acc then (m.core t).acc else (m.core t).spad) u.1 u.2)) j.got })) ∨
     (∃ k ∈ j.rows, (∀ x ∈ j.reads, eager = true ∧ x.tag ≠ 0 ∧ x.tag ≠ k + 1) ∧ (e = .mx → eager = false → j.rows.head? = some k) ∧
       m.jobAct g e t eager row fin j = done (row k j m)) ∨
     (∃ w ∈ j.writes, (e = .mx → eager = false → j.writes.head? = some w) ∧ m.jobAct g e t eager row fin j = done (m.onCore g fun c =>
       (c.putLine w).onJob e fun j => { j with writes := j.writes.erase w, begun := true })))

/-- R276, R281, R282, R287: MZERO writes zeros to its rows; MWLD reads 128 rows and takes them as its weights, element
by element (dense element k of column c from row c of its pattern; of a sparse row the last kept element of a group that
names a place, and no weight where none does); MACFG and MEPI load their registers from a well-formed block. That the lines
and rows of a repetition are acts of their own is log entry 87, that an integer weight 0 is +0 log entry 92. -/
def Obligations.MxLoadsItsState : Prop :=
  (∀ t acc rep s g,
    let i : Instr := .mzero t acc rep
    let c := s.m.core g
    let n := c.mx.cfg.nrows.toNat
    let lo := acc.toNat + n * (c.e .mx).rep.toNat
    (mayIssue i s g .mx → (c.e .mx).job = none → lo + n ≤ 4096 →
      ∃ j : Job, exec i s = .next (begunJob s g .mx i j) ∧ j.reads = [] ∧ j.rows = [] ∧ accLines j.writes lo n ∧
        ∀ c0 a, 512 * lo ≤ a → a < 512 * (lo + n) → Memory.read1 (putAll j.writes c0).acc a = 0) ∧
    (∀ j, jobAt s g .mx j → exec i s = .next (after s (s.m.jobAct g .mx g true (fun _ _ m => m) (repEnd i g .mx rep) j)))) ∧
  (∀ i p it n s g, weightForm i = some (p, it, n) →
    let c := s.m.core g
    let pt := c.pat 2 p
    (mayIssue i s g .mx → (c.e .mx).job = none → pt.fault false 0 128 (weightRow it n) 0 0x300000 = none →
      ∃ j : Job, exec i s = .next (begunJob s g .mx i j) ∧ j.rows = [0] ∧ j.writes = [] ∧ j.got = [] ∧ j.begun = false ∧
        ∀ r b, r < 128 → b < weightRow it n → readsByte j (r + 1) false (pt.addr r b)) ∧
    (∀ j, jobAt s g .mx j → exec i s = .next (after s (s.m.jobAct g .mx g false (takeWeights g p it n) (repEnd i g .mx 0) j)) ∧
      ∃ x : MxState, takeWeights g p it n 0 j s.m = s.m.onCore g (fun c => { c with mx := x }.onJob .mx fun j => j.rowDone 0 []) ∧
        x.wty = it ∧ x.cfg = c.mx.cfg ∧ x.epi = c.mx.epi ∧
        ∀ col k, col < 128 → k < 128 →
          let byte (b : Nat) : Byte := Memory.read1 (j.mem (col + 1) false) (pt.addr col b)
          let w := InTy.width it
          let place (e : Nat) : Nat :=
            (bitOf byte (16 * n * w + 3 * e)).toNat + 2 * (bitOf byte (16 * n * w + 3 * e + 1)).toNat + 4 * (bitOf byte (16 * n * w + 3 * e + 2)).toNat
          (n = 8 → x.weight k col = some (InTy.val it (elemOf w k byte))) ∧
          (n < 8 → ∀ e, e < n → place (n * (k / 8) + e) = k % 8 → (∀ f, e < f → f < n → place (n * (k / 8) + f) ≠ k % 8) →
            x.weight k col = some (InTy.val it (elemOf w (n * (k / 8) + e) byte))) ∧
          (n < 8 → (∀ e, e < n → place (n * (k / 8) + e) ≠ k % 8) → x.weight k col = none))) ∧
  (∀ t p cfg s g, mayIssue (.macfg t p) s g .mx → sound s.m → mxBlockOk (s.m.core g) p →
    macfgOf (mxWords (s.m.core g) p) = some cfg → exec (.macfg t p) s =
      .next (mxDone s g (.macfg t p) 0 (s.m.onCore g fun c => { c with mx := { c.mx with cfg := cfg } }))) ∧
  (∀ t p s g,
    let i : Instr := .mepi t p
    let ws := mxWords (s.m.core g) p
    (mayIssue i s g .mx → ((s.m.core g).e .mx).job = none → sound s.m → mxBlockOk (s.m.core g) p → mepiFault ws = none →
      ∃ j : Job, exec i s = .next (begunJob s g .mx i j) ∧ j.rows = [0] ∧ j.writes = [] ∧ j.blk = ws ∧
        ∀ u ∈ mepiUses ws, ∀ b, b < u.2.2 → readsByte j 1 false (u.1 + b)) ∧
    (∀ j, jobAt s g .mx j → j.reads = [] → j.rows = [0] → j.writes = [] → exec i s =
      .next (mxDone s g i 0 (s.m.onCore g fun c =>
        { c with mx := { c.mx with epi := epilogueOf (j.core 0 c) j.blk } }.onJob .mx fun j => j.rowDone 0 []))))

/-- R56, R145, R277 to R279: a repetition of MMUL reads its activation rows, or pops them from Q2 as they arrive; then
it adds to each of its NROWS rows and 128 columns the sum of the products of an activation row and a weight column. Of a
gang, each member presents its own instance and waits; once all have, the leader reads the rows of every quadrant row,
and each member adds those of its quadrant row into its own accumulator; instances that differ, and a member at TEND,
trap. The model's own readings: the entries of Q2 are popped one by one before the repetition issues, and are used up when
its rows have been read (log entry 49); the
member whose move finds a mismatch takes the trap (57); lines and rows in any order (87); the product of an integer 0
and a negative weight is −0 (92). -/
def Obligations.MmulAddsProducts : Prop :=
  ∀ t acc p rep it srcq mark s g shp,
    let i : Instr := .mmul t acc p rep shp it srcq mark
    let c := s.m.core g
    let n := c.mx.cfg.nrows.toNat
    let k := (c.e .mx).rep.toNat
    let lo := acc.toNat + n * k
    let pt := c.pat 2 p
    let adv := pt.tilep * k
    let rb := InTy.rowBytes it
    let all := n * Shape.rows shp
    let q2 := (all * rb + 4095) / 4096
    let me : Present := ⟨acc, rep, shp, it, c.mx.cfg.nrows⟩
    let mates : Prop := ∀ h ∈ s.m.members g, ((s.m.core h).e .mx).ended = false ∧ (h ≠ g → (s.m.core h).mx.present = some me)
    (mayIssue i s g .mx → (c.e .mx).job = none → (shp ≠ .s11 → Shape.cores shp = gangOf s.m g) → mmulFault s.m g acc p shp it srcq = none →
      (srcq = true → (shp = .s11 ∨ rankOf s.m g = 0) → c.mx.taken.length < q2 →
        (c.qt[2] = [] → exec i s = .next s) ∧
        ∀ x rest, c.qt[2] = x :: rest → exec i s = .next (after s (s.m.onCore g fun c =>
          { c with qt := put c.qt 2 rest, mx := { c.mx with taken := c.mx.taken ++ [x] } }))) ∧
      (srcq = false → (shp = .s11 ∨ (rankOf s.m g = 0 ∧ mates)) → ∃ j : Job, ∃ x : Option Present,
        exec i s = .next (after s (s.m.onCore g fun c => { c with mx := { c.mx with present := x } }.beginJob .mx t j)) ∧
        j.rows = [0] ∧ j.writes = [] ∧ j.begun = false ∧ ∀ r b, r < all → b < rb → readsByte j (r + 1) false (pt.addr r b + adv)) ∧
      (srcq = true → (shp = .s11 ∨ (rankOf s.m g = 0 ∧ mates)) → q2 ≤ c.mx.taken.length → ∃ j : Job, ∃ x : Option Present,
        exec i s = .next (after s (s.m.onCore g fun c => { c with mx := { c.mx with present := x } }.beginJob .mx t j)) ∧
        j.reads = [] ∧ j.rows = [0] ∧ j.writes = [] ∧ j.begun = false ∧
        ∀ b, Memory.read1 (j.mem 0 false) b = if b < 2 ^ 23 then ((c.mx.taken.flatMap tileBytes)[b]?).getD 0 else 0) ∧
      (shp ≠ .s11 → (srcq = true → rankOf s.m g ≠ 0) → (∀ h ∈ s.m.members g, ((s.m.core h).e .mx).ended = false) →
        ((∀ h ∈ s.m.members g, h ≠ g → (s.m.core h).mx.present = none ∨ (s.m.core h).mx.present = some me) →
          ((∃ h ∈ s.m.members g, h ≠ g ∧ (s.m.core h).mx.present = none) ∨ rankOf s.m g ≠ 0) →
          exec i s = .next (after s (s.m.onCore g fun c => { c with mx := { c.mx with present := some me } }))) ∧
        ((∃ h ∈ s.m.members g, h ≠ g ∧ ∃ y, (s.m.core h).mx.present = some y ∧ y ≠ me) →
          exec i s = .next (after s (s.m.takeTrap g .mx .illegal 0 (infoOf i))))) ∧
      (shp ≠ .s11 → (srcq = true → rankOf s.m g ≠ 0) → (∃ h ∈ s.m.members g, ((s.m.core h).e .mx).ended = true) →
        exec i s = .next (after s (s.m.takeTrap g .mx .illegal 0 (infoOf i))))) ∧
    (∀ j, jobAt s g .mx j → j.begun = false → j.reads = [] → j.rows = [0] → j.writes = [] →
      let rows := (List.range all).map (mmulRowBytes c p it srcq j)
      (shp = .s11 → exec i s = .next (after s (s.m.onCore g fun c =>
        { c with mx := { c.mx with present := none, taken := [] } }.beginJob .mx t (mmulJob lo rows)))) ∧
      (shp ≠ .s11 → ∃ m' : Mach, exec i s = .next (after s m') ∧ (m'.core g).mx.taken = [] ∧ ∀ h ∈ s.m.members g, (h = g ∨ (mmulAt s.m h).isSome = true) →
        let nh := (s.m.core h).mx.cfg.nrows.toNat
        ((m'.core h).e .mx).job = some (mmulJob (acc.toNat + nh * ((s.m.core h).e .mx).rep.toNat)
          ((rows.drop (nh * (rankOf s.m h / Shape.cols shp))).take nh)) ∧
        (m'.core h).mx.present = none ∧ (m'.core h).acc = (s.m.core h).acc ∧ (m'.core h).spad = (s.m.core h).spad)) ∧
    (∀ j r b, r < all → b < rb → (mmulRowBytes c p it srcq j r)[b]? = some (if srcq then Memory.read1 (j.mem 0 false) (rb * r + b)
      else Memory.read1 (j.mem (r + 1) false) (pt.addr r b + adv))) ∧
    (∀ j, jobAt s g .mx j → j.begun = true → exec i s =
        .next (after s (s.m.jobAct g .mx g true (mmulOne s.m g acc it) (mmulEnd i g rep mark shp) j)) ∧
      ∀ r, ∃ ws, mmulOne s.m g acc it r j s.m = rowGave s.m g .mx r ws ∧ accLines ws (lo + r) 1 ∧ ∀ c0 col, col < 128 →
        (putAll ws c0).accAt (lo + r) col = matSum (devNan (c.e .mx).pc (128 * rankOf s.m g + col))
          (Memory.readL (j.mem (r + 1) true) (512 * (lo + r) + 4 * col))
          ((List.range 128).map fun x => (InTy.val it (elemOf (InTy.width it) x (Memory.read1 (j.mem (r + 1) false))), c.mx.weight x col)))

/-- R288 to R292: a repetition of MATT that no address stops reads one block of 64 keys and values, and for every query
row its query, output and statistics; each row that has a key at all gets its new output and statistics, every other row
stays; after the block the next block's keys follow by 64, and the first repetition leaves no weights (R272). Which
column's device NaN a score or a probability carries is log entry 55, that the rows of a block go in any order log entry
87. -/
def Obligations.MattTakesABlock : Prop :=
  ∀ t acc p rep it causal init mark acc2 p2 s g,
    let i : Instr := .matt t acc p rep it causal init mark acc2 p2
    let c := s.m.core g
    let n := c.mx.cfg.nrows.toNat
    let k := (c.e .mx).rep.toNat
    let kv := c.pat 2 p
    let q := c.pat 2 p2
    let adv := kv.tilep * k
    let o := acc.toNat
    let st := acc2.toNat
    let fresh := init && k = 0
    mattFault s.m g acc p it acc2 p2 = none →
    (mayIssue i s g .mx → (c.e .mx).job = none → ∃ j : Job, exec i s = .next (begunJob s g .mx i j) ∧ j.rows = List.range n ∧
      j.writes = [] ∧ j.got = [] ∧ (∀ r b, r < 128 → b < InTy.rowBytes it → readsByte j 0 false (kv.addr r b + adv)) ∧
      ∀ r, r < n → (∀ b, b < InTy.rowBytes it → readsByte j (r + 1) false (q.addr r b)) ∧
        (fresh = false → (∀ b, b < 512 → readsByte j (r + 1) true (512 * (o + r) + b)) ∧ ∀ b, b < 12 → readsByte j (r + 1) true (512 * (st + r) + b))) ∧
    (∀ j, jobAt s g .mx j → exec i s =
        .next (after s (s.m.jobAct g .mx g true (mattRow g acc p it causal init acc2 p2) (mattEnd i g rep mark) j)) ∧
      ∀ r, r < n →
        let row (mem : Memory) (pt : Pat) (x ad : Nat) : List Val := (List.range 128).map fun e =>
          InTy.val it (elemOf (InTy.width it) e fun b => Memory.read1 mem (pt.addr x b + ad))
        let dv (e : Nat) : Lane := devNan (c.e .mx).pc (128 * rankOf s.m g + e)
        let score (b : Nat) : Option Lane :=
          let kp := c.mx.cfg.kpos.toNat + b
          let qp := c.mx.cfg.qpos0.toNat + r
          if c.mx.cfg.kend.toNat ≤ kp ∨ (causal = true ∧ qp < kp) then none
          else some (attScore c.mx.cfg (dv b) (row (j.mem (r + 1) false) q r 0) (row (j.mem 0 false) kv b adv) qp kp)
        let was (n e : Nat) : Lane := Memory.readL (j.mem (r + 1) true) (512 * n + 4 * e)
        let old : AttRow := if fresh then ⟨negInf, 0, 0, List.replicate 128 0⟩
          else ⟨was (st + r) 0, was (st + r) 1, was (st + r) 2, (List.range 128).map (was (o + r))⟩
        let new := attBlock c.mx.cfg.pfmt dv ((List.range 64).map score) ((List.range 64).map fun b => row (j.mem 0 false) kv (64 + b) adv) old
        ∃ ws, mattRow g acc p it causal init acc2 p2 r j s.m = rowGave s.m g .mx r ws ∧
          (new.isNone = true → fresh = false → ws = []) ∧
          ((new.isSome = true ∨ fresh = true) → ∀ c0,
            (∀ e, e < 128 → (putAll ws c0).accAt (o + r) e = (new.getD old).out.getD e 0) ∧
            (putAll ws c0).accAt (st + r) 0 = (new.getD old).mx ∧ (putAll ws c0).accAt (st + r) 1 = (new.getD old).hi ∧
            (putAll ws c0).accAt (st + r) 2 = (new.getD old).lo) ∧
          ∀ c0, (putAll ws c0).spad = c0.spad ∧ (putAll ws c0).mx = c0.mx ∧ ∀ a, (a < 512 * (o + r) ∨ 512 * (o + r + 1) ≤ a) →
            (a < 512 * (st + r) ∨ 512 * (st + r) + 12 ≤ a) → Memory.read1 (putAll ws c0).acc a = Memory.read1 c0.acc a) ∧
    (∀ m : Mach, ∃ x : MxState, mattEnd i g rep mark m = markEnd i g rep mark (m.onCore g fun c => { c with mx := x }) ∧
      x.cfg = { (m.core g).mx.cfg with kpos := (m.core g).mx.cfg.kpos + 64 } ∧ x.epi = (m.core g).mx.epi ∧
      (((m.core g).e .mx).rep ≠ 0 → x.w = (m.core g).mx.w ∧ x.wty = (m.core g).mx.wty) ∧
      (((m.core g).e .mx).rep = 0 → x.wty = .e4m3 ∧ ∀ e col, x.weight e col = some (InTy.val .e4m3 0)))

/-- R283 to R286, R337: a repetition of a drain reads its NROWS rows with their scales; each row, taken through the
epilogue, is delivered to scratchpad or folded into an accumulator row, or goes to the sampler port when that takes it (R317:
rows of 64 slots may be open), or all are handed to the fabric port. R282, R283: the epilogue scales a value, adds the bias,
applies the function and rounds after each step; the row's scale or statistics, and the bytes of a delivered row. Which NaN a
product has is log entry 56; that all rows of a repetition are read before any is delivered is log entry 50, that its lines and
rows are acts of their own log entry 87; the quadrant of MDRN.SM is that of the latest MMUL's shape (log
entry 52); MDRN.F ends once the fabric port has taken its messages (log entry 53); the descriptor of MDRN.SM is read
whole (log entry 54); the bytes of a group entry that R336 does not list are not looked at (log entry 103). -/
def Obligations.DrainsDeliverRows : Prop :=
  ∀ t acc p rep s g,
    let c := s.m.core g
    let n := c.mx.cfg.nrows.toNat
    let k := (c.e .mx).rep.toNat
    let lo := acc.toNat + n * k
    let pt := c.pat 2 p
    let f := c.mx.epi.ofmt
    let ws := mxWords c p
    let drains (j : Job) : Prop := j.writes = [] ∧ j.got = [] ∧ ∀ r, r < n → (∀ b, b < 512 → readsByte j (r + 1) true (512 * (lo + r) + b)) ∧
      (c.mx.epi.rsk = 4 → ∀ b, b < 12 → readsByte j (r + 1) true (512 * ((lo + r : Nat) + c.mx.epi.soff.toInt).toNat + b)) ∧
      (1 ≤ c.mx.epi.rsk.toNat → c.mx.epi.rsk.toNat ≤ 3 → ∀ b, b < scaleSize c.mx.epi.rsk.toNat →
        readsByte j (r + 1) false (c.mx.epi.rsaddr.toNat + scaleSize c.mx.epi.rsk.toNat * (lo + r) + b))
    let outs (j : Job) : List (List Byte) := (List.range n).map fun r => deliver (c.env .mx 2) f k r (drainRow (j.core r c) (rankOf s.m g) k lo r)
    drainOk c lo n = true →
    (let i : Instr := .mdrn t acc p rep false
     (mayIssue i s g .mx → (c.e .mx).job = none → pt.fault false 0 n (outBytes f) (pt.tilep * k : Nat) 0x300000 = none →
       ∃ j : Job, exec i s = .next (begunJob s g .mx i j) ∧ j.rows = List.range n ∧ drains j) ∧
     ∀ j, jobAt s g .mx j → exec i s = .next (after s (s.m.jobAct g .mx g false (mdrnRow g acc p false) (repEnd i g .mx rep) j)) ∧
       (pt.fault false 0 n (outBytes f) (pt.tilep * k : Nat) 0x300000 = none → ∀ r, r < n → ∃ ls, mdrnRow g acc p false r j s.m = rowGave s.m g .mx r ls ∧
         ∀ c0, (∀ b, b < outBytes f → some (Memory.read1 (putAll ls c0).spad (pt.addr r b + pt.tilep * k)) =
             (deliver (c.env .mx 2) f k r (drainRow (j.core r c) (rankOf s.m g) k lo r))[b]?) ∧
           (∀ a, (∀ b, b < outBytes f → a ≠ pt.addr r b + pt.tilep * k) → Memory.read1 (putAll ls c0).spad a = Memory.read1 c0.spad a) ∧
           (putAll ls c0).acc = c0.acc)) ∧
    (let i : Instr := .mdrn t acc p rep true
     let dst := pt.base / 512 + n * k
     (mayIssue i s g .mx → (c.e .mx).job = none → f = 0 → pt.rot = 0 → pt.aligned = true → pt.bad = false → pt.base % 512 = 0 →
       pt.base < 0x200000 → dst + n ≤ 4096 → ∃ j : Job, exec i s = .next (begunJob s g .mx i j) ∧ j.rows = List.range n ∧ drains j ∧
         ∀ r b, r < n → b < 512 → readsByte j (r + 1) true (512 * (dst + r) + b)) ∧
     ∀ j, jobAt s g .mx j → exec i s = .next (after s (s.m.jobAct g .mx g false (mdrnRow g acc p true) (repEnd i g .mx rep) j)) ∧
       ∀ r, ∃ ls, mdrnRow g acc p true r j s.m = rowGave s.m g .mx r ls ∧ accLines ls (dst + r) 1 ∧ ∀ c0 col, col < 128 →
         (putAll ls c0).accAt (dst + r) col = BitVec.ofNat 32 (((f32 (Memory.readL (j.mem (r + 1) true) (512 * (dst + r) + 4 * col))).add
           (c.env .mx 2).md ((c.env .mx 2).dv (128 * rankOf s.m g + col))
           (f32 ((drainRow (j.core r c) (rankOf s.m g) k lo r).getD col 0))).toF false .f32 (c.env .mx 2).md
             ((c.env .mx 2).draw (128 * r + col) k 3))) ∧
    (let i : Instr := .mdrnF t acc p rep
     (mayIssue i s g .mx → (c.e .mx).job = none → sound s.m → mxBlockOk c p → wf (blkW ws 1) 32 6 = 0 → rowDescBad s.m g ws = false →
       ∀ ds, (if k = 0 then rowTargets s.m g ws else some c.mx.dsts) = some ds → ∃ j : Job,
         exec i s = .next (after s ((s.m.noteGroup (s.m.ctxOf g) (if k = 0 then wf (blkW ws 0) 10 16 else 0)).onCore g fun c =>
           { c with mx := { c.mx with dsts := ds } }.beginJob .mx t j)) ∧
         j.rows = [0] ∧ j.blk = ws ∧ drains j) ∧
     (∀ j, jobAt s g .mx j → j.reads = [] → j.rows = [0] → j.writes = [] → exec i s =
       .next (after s (rowsEnd i g rep ((sendRows s.m g j.blk k (k = rep.toNat) (outs j)).onCore g fun c => c.onJob .mx fun j => j.rowDone 0 [])))) ∧
     ∀ j, jobAt s g .mx j → j.reads = [] → j.rows = [] → j.writes = [] → exec i s = .next (after s
       (if (c.e .mx).rep = rep ∧ s.m.rowsUntaken g = true then s.m else repEnd i g .mx rep s.m))) ∧
    (let i : Instr := .mdrnSm t acc p rep
     let ta := wf (blkW ws 0) 0 22 + 4 * (n * k)
     let tag (r : Nat) : Nat := (Memory.readL c.spad (ta + 4 * r)).toNat
     (mayIssue i s g .mx → (c.e .mx).job = none → sound s.m → f = 0 → mxBlockOk c p →
       wf (blkW ws 0) 0 2 = 0 → wf (blkW ws 0) 22 42 = 0 → wf (blkW ws 1) 18 46 = 0 → (∀ b, b < 6 → blkW ws (2 + b) = 0) →
       ta + 4 * n ≤ 0x300000 → (∀ r, r < n → tag r < 2 ^ 17) → s.m.portFull (dieOf g) = false →
       ∃ j : Job, exec i s = .next (begunJob s g .mx i j) ∧ j.rows = List.range n ∧ drains j ∧
         j.blk = ws ++ (List.range n).map fun r => BitVec.ofNat 64 (tag r)) ∧
     ∀ j r rest, jobAt s g .mx j → j.reads = [] → j.rows = r :: rest → j.writes = [] →
       let u := (s.m.die (dieOf g)).cup
       let seg : Segment := ⟨g, s.m.ctxOf g, BitVec.ofNat 16 ((blkW j.blk (8 + r)).toNat % 2 ^ 16), wb (blkW j.blk (8 + r)) 16,
         wf (blkW j.blk 1) 0 18 + 128 * (rankOf s.m g % Shape.cols c.mx.shape), drainRow (j.core r c) (rankOf s.m g) k lo r⟩
       let m' := (s.m.onCup (dieOf g) fun u => if u.en then { u with port := u.port ++ [seg] } else { u with segdrop := sat32 u.segdrop }).onCore g
         fun c => c.onJob .mx fun j => { j with rows := rest, begun := true }
       (s.m.portFull (dieOf g) = true ↔ u.en = true ∧ 64 ≤ ((u.bufs.map (·.slot) ++ u.port.map (·.slot)).eraseDups).length) ∧
       (s.m.portFull (dieOf g) = true → exec i s = .next s) ∧
       (s.m.portFull (dieOf g) = false → exec i s = .next (if rest = [] then mxDone s g i rep m' else after s m'))) ∧
    (∀ (v : VxEnv) (ep : Epilogue) (rank i j : Nat) (r : RowScale) (a : Lane) (col : Nat), col < 128 →
       let dv := v.dv (128 * rank + col)
       let rnd (part : Nat) (x : Val) : Lane := BitVec.ofNat 32 (x.toF false .f32 v.md (v.draw (128 * j + col) i part))
       let cs := if ep.csk = 0 then 0x3F800000 else (ep.cs[col]?).getD 0
       let scaled := epiVal v { ep with ben := false, act := 0 } rank i j r a col
       let biased := epiVal v { ep with act := 0 } rank i j r a col
       let out := epiVal v ep rank i j r a col
       (r.stat = none → ∀ x y z, f32 a = .fin x → f32 cs = .fin y → f32 r.rs = .fin z →
         ∃ w : Exact, w.more = false ∧ ratOf w = ratOf x * ratOf y * ratOf z ∧ scaled = rnd 0 (.fin w)) ∧
       (∀ hi lo, r.stat = some (hi, lo) → ∀ x y d, f32 a = .fin x → f32 cs = .fin y → f32 (f32Add dv hi lo) = .fin d →
         (ratOf d = 0 → scaled = 0) ∧
         (ratOf d ≠ 0 → ∃ w : Exact, w.more = false ∧ ratOf w = ratOf x * ratOf y ∧ scaled = rnd 0 ((Val.fin w).div dv (.fin d)))) ∧
       biased = (if ep.ben then rnd 1 ((f32 scaled).add v.md dv (f32 ((ep.bias[col]?).getD 0))) else scaled) ∧
       (ep.act = 0 → out = biased) ∧
       (ep.act = 1 → (∀ x, f32 biased = .fin x → out = if ratOf x < 0 then 0 else biased) ∧
         (∀ n, f32 biased = .nan n → out = biased) ∧ ∀ neg, f32 biased = .inf neg → out = if neg then 0 else biased) ∧
       (ep.act = 2 → ∃ s, sfResult .sigm dv biased s ∧ out = rnd 2 ((f32 biased).mul dv (f32 s))) ∧
       (ep.act = 3 → ∃ e, sfResult .erf dv (rnd 2 ((f32 biased).mul dv (f32 0x3F3504F3))) e ∧ ∀ x y, f32 biased = .fin x → f32 e = .fin y →
         ∃ w : Exact, w.more = false ∧ ratOf w = ratOf x * (1 + ratOf y) / 2 ∧ (ratOf y = -1 → w.neg = (x.neg != decide (v.md = .rd))) ∧
           out = rnd 4 (.fin w)) ∧
       (ep.act = 4 → sfResult .tanh dv biased out) ∧ (ep.act = 5 → sfResult .sigm dv biased out)) ∧
    (∀ (c : Core) (n : Nat),
       let ep := c.mx.epi
       let at' := ep.rsaddr.toNat
       let st := ((n : Int) + ep.soff.toInt).toNat
       (ep.rsk = 0 → rowScale c n = ⟨0x3F800000, none⟩) ∧
       (ep.rsk = 1 → rowScale c n = ⟨toF32 (Val.ofF .e8m0 (Memory.read1 c.spad (at' + n)).toNat), none⟩) ∧
       (ep.rsk = 2 → rowScale c n = ⟨toF32 (Val.ofF .bf16 (leVal (Memory.read c.spad (at' + 2 * n) 2))), none⟩) ∧
       (ep.rsk = 3 → rowScale c n = ⟨Memory.readL c.spad (at' + 4 * n), none⟩) ∧
       (ep.rsk = 4 → rowScale c n = ⟨0x3F800000, some (c.accAt st 1, c.accAt st 2)⟩) ∧
       ∀ rank i j col, col < 128 → (drainRow c rank i n j)[col]? =
         some (epiVal (c.env .mx 2) ep rank i j (rowScale c (n + j)) (c.accAt (n + j) col) col)) ∧
    (∀ (v : VxEnv) (ofmt : BitVec 4) (i j : Nat) (xs : List Lane) (col : Nat), xs.length = 128 → col < 128 →
       let x := xs.getD col 0
       let bytes (n : Nat) : List Byte := ((deliver v ofmt i j xs).drop (n * col)).take n
       let rnd (ty : FTy) : Nat := (f32 x).toF false ty v.md (v.draw (128 * j + col) i 3)
       (ofmt = 0 → bytes 4 = leBytes 4 x.toNat) ∧ (ofmt = 1 → bytes 2 = leBytes 2 (rnd .bf16)) ∧ (ofmt = 2 → bytes 2 = leBytes 2 (rnd .f16)) ∧
       (ofmt = 3 → bytes 1 = leBytes 1 (rnd .e4m3)) ∧ (ofmt = 4 → bytes 1 = leBytes 1 (rnd .e5m2)) ∧
       (ofmt = 6 → bytes 1 = leBytes 1 ((f32 x).toI .i8 v.md (v.draw (128 * j + col) i 3))) ∧
       (ofmt = 5 → let q := quantise .e4m3 ((xs.drop (32 * (col / 32))).take 32)
         bytes 1 = [BitVec.ofNat 8 (q.2.getD (col % 32) 0)] ∧ (deliver v ofmt i j xs)[128 + col / 32]? = some (BitVec.ofNat 8 q.1)))

namespace Sys2Proof.Claims
open Sys2Proof.Machine

/-! ## Asynchronous commands -/

/-- AS of core g may take parcel i: it may issue, its operands are at the head of AS's outcome FIFO (R48), and the token
that it may owe has room (R60). -/
def asMayIssue (i : Instr) (s : State) (g : Fin 256) : Prop :=
  mayIssue i s g .asy ∧ (∃ x, (s.m.core g).outHead .asy = some x) ∧
  ∀ q, (tk i).sig = some q →
    (s.m.core g).tokens .asy q + ((s.m.ops.filter fun o => o.core = g && o.sig.isSome).filter fun o => o.sig = some q).length < 8

/-- The block of n bytes that Sa names lies in the scratchpad and is aligned (R370); its words. -/
abbrev blockOk (m : Mach) (g : Fin 256) (n : Nat) : Prop :=
  (m.core g).opSa.toNat % 64 = 0 ∧ (m.core g).opSa.toNat + n ≤ 0x300000
def blockWords (m : Mach) (g : Fin 256) (n : Nat) : List Word :=
  wordsOf (n / 8) (Memory.read (m.core g).spad (m.core g).opSa.toNat n)

/-- AS past a command that it has issued: its token and its entry stay with the operation (R172 to R174). -/
def asWent (s : State) (g : Fin 256) (i : Instr) (m : Mach) : State :=
  after s (m.onCore g fun c => (c.popOut .asy).retire .asy 1 ⟨(tk i).wait, none⟩)

/-- AS past a parcel whose work is done: its token is pushed and its entry is free (R59, R172). -/
def asPast (s : State) (g : Fin 256) (i : Instr) (m : Mach) : State :=
  after s (m.onCore g fun c => { (c.popOut .asy).retire .asy 1 (tk i) with cq := c.cq - 1 })

/-- AS traps at the parcel. -/
def asTrap (s : State) (g : Fin 256) (i : Instr) (f : Cause) : State := after s (s.m.takeTrap g .asy f 0 (infoOf i))

/-- The commands that AS hands to a unit of its die: bytes of the block, unit, whether the arrival is unconditional, and
when the block is malformed (R299, R300, R316, R332, R333, R344, R374, R392, R412, R419, R421). -/
def unitCommand : Instr → Option (Nat × UnitKind × Bool × (Mach → Fin 256 → List Word → Bool))
  | .itbind _ _ => some (128, .belfry, false, itbindBad)
  | .itgo _ _ => some (64, .belfry, false, itgoBad)
  | .itstat _ _ => some (64, .belfry, false, itgoBad)
  | .objplace _ _ => some (64, .belfry, false, objplaceBad)
  | .objpin _ _ => some (64, .belfry, false, objpinBad)
  | .rgcfg _ _ => some (64, .gatherer, false, rgcfgBad)
  | .rgtakeTake _ _ => some (64, .gatherer, false, rgtakeBad true)
  | .rgtakeRelease _ _ => some (64, .gatherer, false, rgtakeBad false)
  | .smbind _ _ => some (128, .cupola, false, smbindBad)
  | .smrun _ _ => some (64, .cupola, false, smrunBad)
  | .clrslow _ _ | .addcnt _ _ | .clrcnt _ _ | .armv _ _ | .setstep _ _ => some (64, .cupola, false, smtabBad)
  | .smstat _ _ => some (64, .cupola, false, smstatBad)
  | .lnstat _ _ => some (64, .lantern, false, lnstatBad)
  | .balloc t a => some (64, .campanile, true, fun m g ws => campBad m g (.balloc t a) ws)
  | .bfree t a => some (64, .campanile, true, fun m g ws => campBad m g (.bfree t a) ws)
  | .bref t a => some (64, .campanile, true, fun m g ws => campBad m g (.bref t a) ws)
  | .btopen t a => some (64, .campanile, true, fun m g ws => campBad m g (.btopen t a) ws)
  | .btclose t a => some (64, .campanile, true, fun m g ws => campBad m g (.btclose t a) ws)
  | .btapp t a => some (64, .campanile, true, fun m g ws => campBad m g (.btapp t a) ws)
  | .btfork t a => some (64, .campanile, true, fun m g ws => campBad m g (.btfork t a) ws)
  | .bttrim t a => some (64, .campanile, true, fun m g ws => campBad m g (.bttrim t a) ws)
  | .btcmt t a => some (64, .campanile, true, fun m g ws => campBad m g (.btcmt t a) ws)
  | .bhfind t a => some (64, .campanile, true, fun m g ws => campBad m g (.bhfind t a) ws)
  | .bhpub t a => some (64, .campanile, true, fun m g ws => campBad m g (.bhpub t a) ws)
  | _ => none

/-- The copy programs; true for a VATOM, whose source is the buffer that VX has filled (R442, R463). -/
def copyCommand : Instr → Option Bool
  | .xcp _ _ _ | .xcpCvt _ _ _ | .xcpMc _ _ _ | .xcpKv _ _ _ | .xaccAdd _ _ _ | .xaccMin _ _ _ | .xaccMax _ _ _
  | .xaccAnd _ _ _ | .xaccOr _ _ _ | .xaccXor _ _ _ | .xfill _ _ _ => some false
  | .vatomAdd _ _ _ | .vatomMin _ _ _ | .vatomMax _ _ _ | .vatomAnd _ _ _ | .vatomOr _ _ _ | .vatomXor _ _ _ => some true
  | _ => none

/-- The atomics (R465). -/
def atomCommand : Instr → Bool
  | .xatomAdd _ _ _ | .xatomMin _ _ _ | .xatomMax _ _ _ | .xatomAnd _ _ _ | .xatomOr _ _ _ | .xatomXor _ _ _
  | .xatomSwap _ _ _ | .xatomCas _ _ _ => true
  | _ => false

/-- The vector that a VATOM names (R441). -/
def vatomOf : Instr → Option VSpec
  | .vatomAdd _ _ v | .vatomMin _ _ v | .vatomMax _ _ v | .vatomAnd _ _ v | .vatomOr _ _ v | .vatomXor _ _ v => some v
  | _ => none

/-- Two memories agree but for n bytes from a. -/
def sameButBytes (x y : Memory) (a n : Nat) : Prop := ∀ b, b < a ∨ a + n ≤ b → Memory.read1 y b = Memory.read1 x b

end Sys2Proof.Claims

/-- R48, R172: at a parcel of AS, SC posts the two operand registers to AS and takes one of the eight entries of the
command queue; without an entry or room it waits. -/
def Obligations.ScPostsCommandOperands : Prop :=
  ∀ (i : Instr) (s : State) (g : Fin 256), owner i = some .asy → acts s g .sc →
    ((s.m.core g).cq < 8 → roomFor s.m g [.asy] → exec i s = .next (after s (s.m.onCore g fun c =>
      (({ c with out := upd c.out 4 fun l => l ++ [c.rs (asRegs i).2 ++ c.rs (asRegs i).1] } : Core) |> fun c =>
        ({ c with cq := c.cq + 1 } : Core).onE .sc fun x => x.advance 1)))) ∧
    (8 ≤ (s.m.core g).cq ∨ ¬ roomFor s.m g [.asy] → exec i s = .next s)

/-- R173, R370: a command of a unit with a well-formed block at its address issues: it is added to the unit's operations
and CODE 0 is written; a malformed block, a misaligned or an outlying one traps. A unit other than Campanile accepts the
commands of one clock in ascending core number (R11, R271, R334, R394): one that would come out of that order comes one
clock later (the way to the order is the model's: log entry 102); Campanile takes its operations up in that order when
it begins them (R311; 99). -/
def Obligations.UnitCommandsIssue : Prop :=
  ∀ (i : Instr) (s : State) (g : Fin 256) n u always bad, unitCommand i = some (n, u, always, bad) → asMayIssue i s g → sound s.m →
    let ws := blockWords s.m g n
    let now := (s.m.die (dieOf g)).cycle
    let last := (s.m.die (dieOf g)).took[(unitIx u).val]
    let took (m : Mach) (c : Word) : Mach := m.onDie (dieOf g) fun x => { x with took := put x.took (unitIx u) (some (c, 1 + g.val)) }
    let m0 : Mach := if u = .campanile then s.m else s.m.takesIn (dieOf g) u (1 + g.val)
    (blockOk s.m g n → bad s.m g ws = false → exec i s =
      .next (asWent s g i (m0.startOp (mkOp s.m g i u (s.m.core g).opSa.toNat ws (always || wb (blkW ws 2) 32))))) ∧
    (outOfTurn last now (1 + g.val) → s.m.takesIn (dieOf g) u (1 + g.val) = took (oneLater s.m (dieOf g)) (now + 1)) ∧
    (¬ outOfTurn last now (1 + g.val) → s.m.takesIn (dieOf g) u (1 + g.val) = took s.m now) ∧
    (blockOk s.m g n → bad s.m g ws = true → exec i s = .next (asTrap s g i .cmdMalformed)) ∧
    ((s.m.core g).opSa.toNat % 64 ≠ 0 → exec i s = .next (asTrap s g i .align)) ∧
    ((s.m.core g).opSa.toNat % 64 = 0 → 0x300000 < (s.m.core g).opSa.toNat + n → exec i s = .next (asTrap s g i .spadRange))

/-- R341, R342, R420: RGPUSH keeps the tags that AS reads at issue; LNRUN puts its program at the tail of the die's queue,
writes its whole RESULT word as zero (log entry 60) and is done; while the queue holds 32, the program that runs not counted
(log entry 65), AS waits. Each comes in the order of its clock (R271, R334; log entry 102). -/
def Obligations.PushesAndProgramsAreQueued : Prop :=
  (∀ t a s g, asMayIssue (.rgpush t a) s g → sound s.m → blockOk s.m g 64 →
    let ws := blockWords s.m g 64
    let tags := wordsOf (rpN ws) (Memory.read (s.m.core g).spad (rpTags ws) (8 * rpN ws))
    rpN ws = 0 ∨ rpTags ws + 8 * rpN ws ≤ 0x300000 → rgpushBad s.m g ws tags = false →
    exec (.rgpush t a) s = .next (asWent s g (.rgpush t a) ((s.m.takesIn (dieOf g) .gatherer (1 + g.val)).startOp
      { mkOp s.m g (.rgpush t a) .gatherer (s.m.core g).opSa.toNat ws (wb (blkW ws 2) 32) with
        handles := tags.map fun w => (w.toNat % 2 ^ 10, BitVec.ofNat 32 (w.toNat / 2 ^ 32)) }))) ∧
  (∀ t a s g, asMayIssue (.lnrun t a) s g → sound s.m → blockOk s.m g 64 →
    let ws := blockWords s.m g 64
    lnrunBad s.m g ws = false →
    (((s.m.die (dieOf g)).lan.queue).length < 32 →
      ∃ m' : Mach, exec (.lnrun t a) s = .next (asPast s g (.lnrun t a) m') ∧
        (m'.die (dieOf g)).lan.queue = (s.m.die (dieOf g)).lan.queue ++
          [⟨s.m.nextId, g, s.m.ctxOf g, ((s.m.core g).e .asy).pc, (s.m.core g).opSa.toNat, ws⟩] ∧
        (∀ d, (m'.die d).cycle = ((s.m.takesIn (dieOf g) .lantern (1 + g.val)).die d).cycle) ∧
        m'.nextId = s.m.nextId + 1 ∧ m'.ops = s.m.ops ∧ m'.dev = s.m.dev ∧ m'.ctxs = s.m.ctxs ∧
        (∀ b, (s.m.core g).opSa.toNat + 8 ≤ b → b < (s.m.core g).opSa.toNat + 16 → spadByte m' g b = 0) ∧
        sameButBytes (s.m.core g).spad (m'.core g).spad ((s.m.core g).opSa.toNat + 8) 8) ∧
    (32 ≤ ((s.m.die (dieOf g)).lan.queue).length →
      exec (.lnrun t a) s = .next (after s (s.m.waitOn g .asy .lantern t))))

/-- R171, R173, R442, R463, R465: a copy program, an atomic or a vector atomic whose block passes its checks issues to
the copy engine of its cluster, which holds up to 64; VX fills a VATOM's buffer, and its issue or its trap empties it. An
address that holds no block traps (R370), before a wait for the engine but for a VATOM, whose block is read once its buffer
is filled (log entry 22). The entry of a group that an XCP.MC names is read at issue (R336, R365, R366).
The INFO of a BTM_MISS names the lowest ordinal that is missing (log entry 34). The port of a compressed end gives its
header and the words of the named tiles at issue (log entry 58), in its turn (R149, R213). BAR fields that are not
enabled are not checked (log entry 59), nor the bytes of a group entry that R336 does not list (103). -/
def Obligations.CopyCommandsIssue : Prop :=
  (∀ (m : Mach) (g : Fin 256) ws e es,
    (viewPort m g e = none → viewIssue g ws (e :: es) m = viewIssue g ws es m) ∧
    (∀ t, viewPort m g e = some t →
      (heldBy m g .asy t = true → viewIssue g ws (e :: es) m = (.error (some t), m)) ∧
      (heldBy m g .asy t = false → (m.core t).clean = true →
        viewIssue g ws (e :: es) m = viewIssue g ws es (m.servedAt g .asy t)))) ∧
  ∀ (i : Instr) (s : State) (g : Fin 256),
    (∀ va, copyCommand i = some va → asMayIssue i s g → sound s.m → blockOk s.m g 256 → engineFull s.m g = false →
      ∀ x : Tile, (va = true → (s.m.core g).vbuf = some x) →
      let ws := blockWords s.m g 256
      let off : Word := if va then 0 else (s.m.core g).opSb
      let se := srcEnd ws
      let de := dstEnd ws off
      let es := if formOf i = .fill then [de] else [se, de]
      let freed : Mach → Mach := if va then fun m => m.onCore g fun c => { c with vbuf := none } else id
      (∀ t m1, viewIssue g ws es s.m = (.error (some t), m1) → ∃ m' : Mach,
        exec i s = .next (after s ((m'.enqueue t (m'.ctxOf g) (.eng g .asy)).waitOn g .asy (.held t) (tk i))) ∧
        m'.ops = s.m.ops ∧ m'.dev = s.m.dev ∧ ∀ h, (m'.core h).spad = (s.m.core h).spad) ∧
      ∀ m1, viewIssue g ws es s.m = (.ok (), m1) →
      let sd := endDesc m1 g se
      let dd := endDesc sd.2 g de
      (copyBad dd.2 g (formOf i) ws off sd.1 dd.1 = true →
        exec i s = .next (after s ((freed s.m).takeTrap g .asy .cmdMalformed 0 (infoOf i)))) ∧
      (copyBad dd.2 g (formOf i) ws off sd.1 dd.1 = false →
        (∀ y, (missOf (dd.2.core g) se (ckRun ws)).or (missOf (dd.2.core g) de (ckRun ws)) = some y →
          exec i s = .next (after s ((freed s.m).takeTrap g .asy .btmMiss 0 y))) ∧
        (missOf (dd.2.core g) se (ckRun ws) = none → missOf (dd.2.core g) de (ckRun ws) = none →
          let gid := if formOf i = .mc ∧ wf (ckAux ws) 0 2 = 2 then wf (ckAux ws) 16 16 else 0
          ∃ (o : Op) (k : BitVec 16),
            exec i s = .next (asWent s g i (freed (({ dd.2.noteGroup (dd.2.ctxOf g) gid with nextStream := k } : Mach).startOp o))) ∧
            o.instr = i ∧ o.core = g ∧ o.ctx = dd.2.ctxOf g ∧ o.die = dieOf g ∧ o.unit = .copy (Fin.ofNat 4 (g.val / 8 % 8 % 4)) ∧
            o.base = (s.m.core g).opSa.toNat ∧ o.blk = ws ∧ o.sb = off ∧ o.sdesc = sd.1 ∧ o.ddesc = dd.1 ∧
            (va = true → o.lanes = x.toList) ∧ o.sig = (tk i).sig ∧ o.idx = 0 ∧ o.fin = false ∧ o.stop = none ∧ o.poison = none ∧
            o.src = [] ∧ o.nfault = 0 ∧
            (se.kind = 2 → o.handles = kvHandles (dd.2.core g) se (ckRun ws)) ∧
            (se.kind ≠ 2 → de.kind = 2 → o.handles = kvHandles (dd.2.core g) de (ckRun ws)) ∧
            (formOf i = .mc → receivers dd.2 g ws = some o.rcvs)))) ∧
    (atomCommand i = true → asMayIssue i s g → sound s.m → blockOk s.m g 64 → engineFull s.m g = false →
      let ws := blockWords s.m g 64
      let r := endDesc s.m g (atomEnd ws)
      (atomAt ws % atomBytes ws ≠ 0 → exec i s = .next (asTrap s g i .align)) ∧
      (atomAt ws % atomBytes ws = 0 → (atomEnd ws).kind = 0 →
        (s.m.cellCore g (blkW ws 3) = none ∨ 0x300000 < atomAt ws + atomBytes ws) → exec i s = .next (asTrap s g i .spadRange)) ∧
      (atomAt ws % atomBytes ws = 0 → ((atomEnd ws).kind = 0 → (s.m.cellCore g (blkW ws 3)).isSome = true ∧ atomAt ws + atomBytes ws ≤ 0x300000) →
        (atomBad r.2 g (atomOp i) ws r.1 = true → exec i s = .next (asTrap s g i .cmdMalformed)) ∧
        (atomBad r.2 g (atomOp i) ws r.1 = false →
          exec i s = .next (asWent s g i (r.2.startOp
            { mkOp r.2 g i (.copy (Fin.ofNat 4 (g.val / 8 % 8 % 4))) (s.m.core g).opSa.toNat ws (wb (blkW ws 0) 32) with ddesc := r.1 }))))) ∧
    (((copyCommand i).isSome = true ∨ atomCommand i = true) → (copyCommand i = some true → ∃ x, (s.m.core g).vbuf = some x) →
      (copyCommand i ≠ some true → blockOk s.m g (if atomCommand i = true then 64 else 256)) →
      asMayIssue i s g → engineFull s.m g = true → exec i s = .next s) ∧
    ((copyCommand i = some false ∨ atomCommand i = true) → asMayIssue i s g →
      ((s.m.core g).opSa.toNat % 64 ≠ 0 → exec i s = .next (asTrap s g i .align)) ∧
      ((s.m.core g).opSa.toNat % 64 = 0 → 0x300000 < (s.m.core g).opSa.toNat + (if atomCommand i = true then 64 else 256) →
        exec i s = .next (asTrap s g i .spadRange))) ∧
    (∀ x, copyCommand i = some true → asMayIssue i s g → (s.m.core g).vbuf = some x → engineFull s.m g = false →
      let emptied := s.m.onCore g fun c => { c with vbuf := none }
      ((s.m.core g).opSa.toNat % 64 ≠ 0 → exec i s = .next (after s (emptied.takeTrap g .asy .align 0 (infoOf i)))) ∧
      ((s.m.core g).opSa.toNat % 64 = 0 → 0x300000 < (s.m.core g).opSa.toNat + 256 →
        exec i s = .next (after s (emptied.takeTrap g .asy .spadRange 0 (infoOf i))))) ∧
    (∀ v x c', vatomOf i = some v → acts s g .vx → (∀ q, v ≠ .q q) → (s.m.core g).vbuf = none →
      (s.m.core g).readSpec 32 v = some (x, c') →
      exec i s = .next (after s (s.m.onCore g fun c => ({ c with vbuf := some x } : Core).onE .vx fun y => y.advance 1)))

/-- R189: an arrival counts the cell's REM down; the last one reloads it and flips PAR; an arrival at a cell with REM 0
changes no cell and counts as stray. R239: each counts as reaching the cell. No other byte of the scratchpad changes. -/
def Obligations.ArrivalsCountDownAndFlip : Prop :=
  ∀ (m : Mach) (g : Fin 256) (a : Nat) (c : Fin 64), (m.core g).clean = true →
    let w := Memory.readW (m.core g).spad a
    let rem := w.toNat % 2 ^ 32
    let reload := w.toNat / 2 ^ 32 % 2 ^ 31
    let par := w.getLsbD 63
    let m' := m.arrive g a c
    let w' := Memory.readW (m'.core g).spad a
    m'.touched = (g, a) :: m.touched ∧
    (rem = 0 → m' = ({ m with touched := (g, a) :: m.touched } : Mach).onCtx c fun x => { x with stray := sat32 x.stray }) ∧
    (rem ≠ 0 → m'.dev = m.dev ∧ m'.ctxs = m.ctxs ∧ (∀ h, h ≠ g → (m'.core h).spad = (m.core h).spad) ∧
      sameButBytes (m.core g).spad (m'.core g).spad a 8) ∧
    (1 < rem → w'.toNat = w.toNat - 1) ∧
    (rem = 1 → w'.toNat % 2 ^ 32 = reload ∧ w'.toNat / 2 ^ 32 % 2 ^ 31 = reload ∧ w'.getLsbD 63 = !par)

/-- R377, R378, R189, R213, R149: BINIT sets its cell; BARV arrives at its cell, or leaves its arrival with the port while the
cell's core runs no task of the context; BWAIT passes where the parity is there, and waits otherwise; each waits in its place
at a port that does not admit it. R204, R205: BARV waits for the access of SC that a FENCE.REL behind which AS stands
orders before it. R203: the scope of an operation on a cell is the narrowest that holds both cores. -/
def Obligations.BarriersInitArriveAndWait : Prop :=
  (∀ t a s g d x, asMayIssue (.binit t a) s g → sound s.m → blockOk s.m g 64 →
    let ws := blockWords s.m g 64
    let n := (blkW ws 1).toNat
    cellAt s.m g (BitVec.ofNat 64 ((blkW ws 0).toNat % 2 ^ 32)) = some (d, x) → (blkW ws 0).toNat < 2 ^ 32 → 0 < n → n < 2 ^ 31 →
    (blkW ws 2).toNat < 2 ^ 16 → agentCode (blkW ws 2).toNat = true → (∀ k, k < 5 → blkW ws (3 + k) = 0) →
    (heldBy s.m g .asy d = false → ∃ m' : Mach, exec (.binit t a) s = .next (asPast s g (.binit t a) m') ∧
      (Memory.readW (m'.core d).spad x).toNat = n + n * 2 ^ 32 ∧ sameButBytes (s.m.core d).spad (m'.core d).spad x 8 ∧
      ((s.m.ctxOf g, d, x), BitVec.ofNat 16 (blkW ws 2).toNat) ∈ m'.signallers ∧ m'.dev = s.m.dev ∧ m'.ctxs = s.m.ctxs ∧ m'.ops = s.m.ops) ∧
    (heldBy s.m g .asy d = true → exec (.binit t a) s = .next (after s
      ((s.m.enqueue d (s.m.ctxOf g) (.eng g .asy)).waitOn g .asy (.held d) t)))) ∧
  (∀ t b s g d x, asMayIssue (.barv t b) s g → cellAt s.m g (s.m.core g).opSb = some (d, x) →
    (heldBy s.m g .asy d = false →
      exec (.barv t b) s = .next (asPast s g (.barv t b) ((s.m.servedAt g .asy d).arrive d x (s.m.ctxOf g)))) ∧
    (heldBy s.m g .asy d = true → exec (.barv t b) s = .next (after s
      ((({ s.m with arrivals := s.m.arrivals ++ [⟨d, x, .eng g .asy, s.m.ctxOf g⟩] } : Mach).enqueue d (s.m.ctxOf g) (.eng g .asy)).waitOn
        g .asy (.arrival d) t)))) ∧
  (∀ t b p s g d x, asMayIssue (.bwait t b p) s g → sound s.m → cellAt s.m g (s.m.core g).opSb = some (d, x) →
    let par := (Memory.readW (s.m.core d).spad x).getLsbD 63
    (heldBy s.m g .asy d = false → par = p → exec (.bwait t b p) s = .next (asPast s g (.bwait t b p) (s.m.servedAt g .asy d))) ∧
    (heldBy s.m g .asy d = false → par ≠ p →
      exec (.bwait t b p) s = .next (after s ((s.m.servedAt g .asy d).waitOn g .asy (.bar d x p) t))) ∧
    (heldBy s.m g .asy d = true → exec (.bwait t b p) s = .next (after s
      ((s.m.enqueue d (s.m.ctxOf g) (.eng g .asy)).waitOn g .asy (.held d) t)))) ∧
  (∀ k s x, s.boot.state = 2 → s.m.arrivals[k]? = some x →
    (s.m.admits x.cell x.ctx x.who = false → exec (.barrierArrival k) s = .next s) ∧
    (s.m.admits x.cell x.ctx x.who = true → sound s.m → ∃ m' : Mach, exec (.barrierArrival k) s = .next (after s m') ∧
      m'.arrivals = s.m.arrivals.eraseIdx k ∧ ∀ h, (m'.core h).spad = ((s.m.arrive x.cell x.addr x.ctx).core h).spad)) ∧
  (∀ g d : Fin 256, opScope (.core g) (.port d) =
    if d = g then .core else if d.val / 8 = g.val / 8 then .cluster else if d.val / 64 = g.val / 64 then .die else .package) ∧
  (∀ t b s g, acts s g .asy → (Instr.barv t b).wellFormed = true → behindRel (s.m.core g) .asy → exec (.barv t b) s = .next s)

/-- R162 to R167, R422 to R424: RNGWE and RNGWF take the next slot where one is there and nobody waits before, write its
grant word, and wait at the ring otherwise; RNGPUB and RNGREL move their count, and count as reaching the ring (R239),
and then the requests of the other side that wait are granted in the order of their acceptance while the counts allow
(R164); a ring without slots is malformed, and a publish or a release waits for the access of SC that a FENCE.REL behind
which AS stands orders before it (R204, R205); RNGCFG, BTLD, BTLK and BTINV change the descriptor or the translation
memory of their core alone. R162, R165, R166, R382, R383, R423: RNGCFG writes its descriptor with its counts zero; BTLD
installs its entries in order, BTLK locks or unlocks those present, BTINV invalidates those that it names; each is an
operation that has only to complete. (A unit's claim stands in the same queue: log entry 30; BAR fields that are not
enabled are not checked: 59.) -/
def Obligations.RingsAndTranslationsWork : Prop :=
  (∀ (s : State) (g t : Fin 256) (r : Fin 16),
     let q := s.m.ring t r
     let m := s.m.servedAt g .asy t
     let mine (k : RingKind) : Prop := ∀ w ∈ (s.m.core t).ringWaits, w.ring = r → w.kind = k → s.m.occupied t w.ctx = true →
       s.m.live w.who = true → w.who = .eng g .asy
     let waits (i : Instr) (k : RingKind) (addr : BitVec 19) : Prop := exec i s = .next (after s
       ((m.onCore t fun c => { c with ringWaits := c.ringWaits ++ [⟨r, k, s.m.ctxOf g, .eng g .asy, 8 * addr.toNat⟩] }).waitOn
         g .asy (.ring t r k) (tk i)))
     ringAt s.m (s.m.core g).opSb = some (t, r) → heldBy s.m g .asy t = false → q.nslot ≠ 0 →
     (∀ k b addr, asMayIssue (.rngwe k b addr) s g → 8 * addr.toNat + 8 ≤ 0x300000 → mine .we →
       ((q.pclaim - q.crel).toNat < q.nslot.toNat → ∃ m' : Mach, exec (.rngwe k b addr) s = .next (asPast s g (.rngwe k b addr) m') ∧
         m'.ring t r = { q with pclaim := q.pclaim + 1 } ∧
         Memory.readW (m'.core g).spad (8 * addr.toNat) = BitVec.ofNat 64
           (q.pclaim.toNat + (q.base.toNat + 64 * q.slotsz.toNat * (q.pclaim.toNat % q.nslot.toNat)) * 2 ^ 32) ∧
         sameButBytes (s.m.core g).spad (m'.core g).spad (8 * addr.toNat) 8) ∧
       (q.nslot.toNat ≤ (q.pclaim - q.crel).toNat → waits (.rngwe k b addr) .we addr)) ∧
     (∀ k b addr, asMayIssue (.rngwf k b addr) s g → 8 * addr.toNat + 8 ≤ 0x300000 → mine .wf →
       (0 < (q.ppub - q.cclaim).toNat → ∃ m' : Mach, exec (.rngwf k b addr) s = .next (asPast s g (.rngwf k b addr) m') ∧
         m'.ring t r = { q with cclaim := q.cclaim + 1 } ∧
         Memory.readW (m'.core g).spad (8 * addr.toNat) = BitVec.ofNat 64
           (q.cclaim.toNat + (q.base.toNat + 64 * q.slotsz.toNat * (q.cclaim.toNat % q.nslot.toNat)) * 2 ^ 32) ∧
         sameButBytes (s.m.core g).spad (m'.core g).spad (8 * addr.toNat) 8) ∧
       (q.ppub = q.cclaim → waits (.rngwf k b addr) .wf addr)) ∧
     (∀ (i : Instr) (k : Tok) (b : Fin 32), i = .rngpub k b ∨ i = .rngrel k b → asMayIssue i s g →
       let moved : Ring := if i = .rngpub k b then { q with ppub := q.ppub + 1 } else { q with crel := q.crel + 1 }
       let none' : Prop := if i = .rngpub k b then q.ppub = q.pclaim else q.crel = q.cclaim
       let other : RingKind := if i = .rngpub k b then .wf else .we
       let given : Mach := { m.onCore t fun c => { c with rings := put c.rings r moved } with touched := (t, 0x400000 + r.val) :: m.touched }
       (none' → exec i s = .next (asTrap s g i .cmdMalformed)) ∧
       (¬ none' →
         exec i s = .next (asPast s g i (given.serveRing t r other ((s.m.core t).ringWaits).length)) ∧
         given.touched = (t, 0x400000 + r.val) :: s.m.touched ∧ ∀ h, (given.core h).spad = (s.m.core h).spad))) ∧
  (∀ (s : State) (g t : Fin 256) (r : Fin 16) (i : Instr) (k : Tok) (b : Fin 32) (addr : BitVec 19),
     ringAt s.m (s.m.core g).opSb = some (t, r) → heldBy s.m g .asy t = false → (s.m.ring t r).nslot = 0 → asMayIssue i s g →
     ((i = .rngwe k b addr ∨ i = .rngwf k b addr) → 8 * addr.toNat + 8 ≤ 0x300000 → exec i s = .next (asTrap s g i .cmdMalformed)) ∧
     ((i = .rngpub k b ∨ i = .rngrel k b) → exec i s = .next (asTrap s g i .cmdMalformed))) ∧
  (∀ (i : Instr) (k : Tok) (b : Fin 32) s g, (i = .rngpub k b ∨ i = .rngrel k b) → acts s g .asy → i.wellFormed = true →
     behindRel (s.m.core g) .asy → exec i s = .next s) ∧
  (∀ (m : Mach) (t : Fin 256) (r : Fin 16) (k : RingKind) (n : Nat),
     let q := m.ring t r
     let can : Prop := match k with | .we => (q.pclaim - q.crel).toNat < q.nslot.toNat | .wf => 0 < (q.ppub - q.cclaim).toNat
     let slot : BitVec 32 := match k with | .we => q.pclaim | .wf => q.cclaim
     let after' : Ring := match k with | .we => { q with pclaim := q.pclaim + 1 } | .wf => { q with cclaim := q.cclaim + 1 }
     let his (w : RingWait) : Prop := w.ring = r ∧ w.kind = k ∧ m.occupied t w.ctx = true ∧ m.live w.who = true
     m.serveRing t r k 0 = m ∧
     (m.ringFirst t r k = none ↔ ∀ w ∈ (m.core t).ringWaits, ¬ his w) ∧
     (∀ w, m.ringFirst t r k = some w ↔ his w ∧ ∃ a b, (m.core t).ringWaits = a ++ w :: b ∧ ∀ y ∈ a, ¬ his y) ∧
     (m.ringFirst t r k = none → m.serveRing t r k (n + 1) = m) ∧
     (∀ w, m.ringFirst t r k = some w →
       ((¬ can ∨ ∀ g e, w.who ≠ .eng g e) → m.serveRing t r k (n + 1) = m) ∧
       (∀ g e, w.who = .eng g e → can → ∃ m' : Mach, m.serveRing t r k (n + 1) = m'.serveRing t r k n ∧
         m'.ring t r = after' ∧ (m'.core t).ringWaits = ((m.core t).ringWaits).erase w ∧ m'.touched = m.touched ∧
         Memory.readW (m'.core g).spad w.addr =
           BitVec.ofNat 64 (slot.toNat + (q.base.toNat + 64 * q.slotsz.toNat * (slot.toNat % q.nslot.toNat)) * 2 ^ 32) ∧
         sameButBytes (m.core g).spad (m'.core g).spad w.addr 8 ∧ (∀ h, h ≠ g → (m'.core h).spad = (m.core h).spad) ∧
         (∀ x, ((m.core g).e .asy).wait = some x → x.on = .ring t r k →
           ((m'.core g).e .asy).wait = none ∧ ((m'.core g).e .asy).pc = ((m.core g).endWait .asy x.tok |>.e .asy).pc) ∧
         ((((m.core g).e .asy).wait).all (fun x => decide (x.on ≠ .ring t r k)) = true → (m'.core g).eng = (m.core g).eng)))) ∧
  (∀ (s : State) (g : Fin 256), sound s.m → blockOk s.m g 64 →
     let ws := blockWords s.m g 64
     let c := s.m.core g
     let n := (blkW ws 0).toNat % 2 ^ 11
     let mode := (blkW ws 0).toNat / 2 ^ 17 % 4
     let list : Nat := (blkW ws 3).toNat % 2 ^ 22
     let key (k : Nat) : BitVec 16 × BitVec 16 :=
       let x := Memory.readL c.spad (list + 4 * k); (x.extractLsb' 0 16, x.extractLsb' 16 16)
     let done (i : Instr) (f : Core → Core) (x : Nat) : Prop := ∃ o : Op,
       exec i s = .next (asWent s g i ((s.m.onCore g f).startOp o)) ∧ o.instr = i ∧ o.fin = true ∧ o.core = g ∧ o.blk = ws ∧ o.idx = x
     (∀ t a, asMayIssue (.rngcfg t a) s g → ringBad s.m g ws = false →
       done (.rngcfg t a) (fun c => { c with rings := put c.rings (Fin.ofNat 16 ((blkW ws 0).toNat % 16)) (ringOf ws) }) 0) ∧
     (∀ t a, asMayIssue (.btld t a) s g → btmBad s.m g ws 8 false false = false →
       let r := (List.range n).foldl (fun (x : Core × Nat) k =>
         let e := Memory.readW c.spad (list + 8 * k)
         let y := x.1.btmInstall (e.extractLsb' 0 16) (e.extractLsb' 16 16) (e.extractLsb' 32 32)
         (y.1, x.2 + y.2.toNat)) (c, 0)
       done (.btld t a) (fun _ => r.1) r.2) ∧
     (∀ t a, asMayIssue (.btlk t a) s g → btmBad s.m g ws 4 true false = false →
       done (.btlk t a) (fun c => (List.range n).foldl (fun (c : Core) k => match c.btmFind (key k).1 (key k).2 with
         | some j => { c with btm := upd c.btm j fun x => { x with lock := (blkW ws 0).getLsbD 16 } }
         | none => c) c) 0) ∧
     (∀ t a, asMayIssue (.btinv t a) s g → btmBad s.m g ws 4 false true = false →
       ∃ c' : Core, done (.btinv t a) (fun _ => c') 0 ∧ c'.spad = c.spad ∧ c'.s = c.s ∧ c'.eng = c.eng ∧
         ∀ j : Fin 1024, c'.btm[j.val] =
           if (mode = 2 ∨ (mode = 1 ∧ (c.btm[j.val]).slot = (blkW ws 0).extractLsb' 32 16) ∨
               (mode = 0 ∧ ∃ k, k < n ∧ key k = ((c.btm[j.val]).slot, (c.btm[j.val]).ord))) ∧ (c.btm[j.val]).valid = true
           then { c.btm[j.val] with valid := false, lock := false } else c.btm[j.val]))

/-- R173, R174, R301: a command that starts writes its whole report word as zero, CODE 0 with it (log entry 60), and joins the
operations; one that has been applied whole writes its report, and then arrives, pushes its token and frees its entry, and is
gone; the report and the arrival each wait in their place where a port does not admit them (R149, R213). -/
def Obligations.OperationsReportArriveAndLeave : Prop :=
  (∀ (m : Mach) (o : Op), let m' := m.startOp o
    m'.ops = m.ops ++ [o] ∧ m'.nextId = m.nextId + 1 ∧ (∀ b, b < 8 → spadByte m' o.core (o.base + 8 + b) = 0) ∧
    sameButBytes (m.core o.core).spad (m'.core o.core).spad (o.base + 8) 8 ∧ (∀ h, h ≠ o.core → m'.core h = m.core h) ∧
    m'.dev = m.dev ∧ m'.host = m.host ∧ m'.ctxs = m.ctxs ∧ m'.dies = m.dies) ∧
  (∀ (m : Mach) (o : Op) (rep : Mach → Mach), m.findOp o.id = some o → o.said = false →
    (m.admits o.core o.ctx (.op o.id) = false → m.complete o rep = m.enqueue o.core o.ctx (.op o.id)) ∧
    (m.admits o.core o.ctx (.op o.id) = true →
      let m1 := (rep (m.dequeue o.core o.ctx (.op o.id))).onOp o.id fun x => { x with said := true }
      ∀ o1, m1.findOp o.id = some o1 → m.complete o rep = m1.complete o1 rep)) ∧
  (∀ (m : Mach) (o : Op) (rep : Mach → Mach), m.findOp o.id = some o → o.said = true →
    (∀ t a, o.bar = some (t, a) → m.admits t o.ctx (.op o.id) = false → m.complete o rep = m.enqueue t o.ctx (.op o.id)) ∧
    (o.bar = none → m.complete o rep = ({ m with ops := m.ops.filter fun q => q.id ≠ o.id } : Mach).onCore o.core fun c =>
      let c := c.pushTok .asy o.sig
      if o.entry then { c with cq := c.cq - 1 } else c) ∧
    (∀ t a, o.bar = some (t, a) → m.admits t o.ctx (.op o.id) = true → (m.core t).clean = true →
      (m.complete o rep).ops = m.ops.filter (fun q => q.id ≠ o.id) ∧
      (m.complete o rep).dev = m.dev ∧ ∀ h, ((m.complete o rep).core h).spad = ((m.arrive t a o.ctx).core h).spad))

namespace Sys2Proof.Claims
open Sys2Proof.Machine

/-! ## What the units do -/

/-- The result of an XATOM on w-bit integers (R184). -/
def atomResult (i : Instr) (uns : Bool) (w cmpv old x : Nat) : Nat :=
  let less (p q : Nat) : Prop := if uns then p < q else (BitVec.ofNat w p).toInt < (BitVec.ofNat w q).toInt
  match i with
  | .xatomAdd _ _ _ => (old + x) % 2 ^ w
  | .xatomMin _ _ _ => open Classical in if less x old then x else old
  | .xatomMax _ _ _ => open Classical in if less old x then x else old
  | .xatomAnd _ _ _ => (BitVec.ofNat w old &&& BitVec.ofNat w x).toNat
  | .xatomOr _ _ _ => (BitVec.ofNat w old ||| BitVec.ofNat w x).toNat
  | .xatomXor _ _ _ => (BitVec.ofNat w old ^^^ BitVec.ofNat w x).toNat
  | .xatomSwap _ _ _ => x
  | _ => if old = cmpv then x else old

/-- The operation that an accumulating copy or a vector atomic performs (R183, R441). -/
def accumulates : Instr → Option PortOp
  | .xaccAdd _ _ _ | .vatomAdd _ _ _ => some .add
  | .xaccMin _ _ _ | .vatomMin _ _ _ => some .min
  | .xaccMax _ _ _ | .vatomMax _ _ _ => some .max
  | .xaccAnd _ _ _ | .vatomAnd _ _ _ => some .and
  | .xaccOr _ _ _ | .vatomOr _ _ _ => some .or
  | .xaccXor _ _ _ | .vatomXor _ _ _ => some .xor
  | _ => none

/-- The code that a copy program writes for one element: the source's own bits, converted, or joined to what was there; dv is
the NaN of an invalid operation (R134, R138, R140, R144, R179, R180, R183). -/
def copyValue (i : Instr) (st dt : Nat) (dv : Lane) (old c : Nat) : Nat :=
  let w := 4 * nibbles dt
  let a := Val.ofF (fltOf dt) old
  let b := Val.ofF (fltOf dt) c
  let x := BitVec.ofNat w old
  let y := BitVec.ofNat w c
  let put (v : Val) : Nat := v.toF false (fltOf dt) .rne 0
  let flt : Prop := dt = 1 ∨ dt = 2
  open Classical in
  match accumulates i with
  | some .add => if flt then put (a.add .rne dv b) else (x + y).toNat
  | some .min => if flt then put (a.minmax Val.lesser false dv b) else if y.toInt < x.toInt then c else old
  | some .max => if flt then put (a.minmax Val.greater false dv b) else if x.toInt < y.toInt then c else old
  | some .and => (x &&& y).toNat
  | some .or => (x ||| y).toNat
  | some .xor => (x ^^^ y).toNat
  | _ => match i with | .xcpCvt _ _ _ => (Val.ofF (fltOf st) c).toF false (fltOf dt) .rne 0 | _ => c

/-- Where n bytes from byte x of an end of operation o lie, in one piece, and the machine after the look: at a scratchpad, in
its compressed view, in a tile that the tensor's table names, or in the block of a KV end's token (R176, R181). -/
def whereIs (m : Mach) (o : Op) (e : CEnd) (desc : List Word) (x n : Nat) (l : CLoc) (m1 : Mach) : Prop :=
  match l with
  | .spad g a => e.kind = 0 ∧ wb e.loc 32 = false ∧ spadCore m o.core e.loc = some g ∧ a = x ∧ x + n ≤ 2 ^ 22 ∧ m1 = m
  | .view g r a => e.kind = 0 ∧ wb e.loc 32 = true ∧ spadCore m o.core e.loc = some g ∧ r = eaByte e.loc ∧ a = x ∧
      x % 4096 + n ≤ 4096 ∧ m1 = m
  | .dev a => x % 64 + n ≤ 64 ∧
      ((e.kind = 1 ∧ ∃ d, descOf desc = some d ∧ m.placeOf (.core o.core) o.ctx (e.loc.extractLsb' 0 20) d x = (.at a, m1)) ∨
       (e.kind = 2 ∧ m1 = m ∧ ∃ h, o.handles.lookup (x / kvTb e.loc / 2 ^ kvLtpb e.loc) = some h ∧
          a = m.blockAt h (x / kvTb e.loc % 2 ^ kvLtpb e.loc * kvTb e.loc + x % kvTb e.loc)))

/-- A port serves context c's next access: a task of the context occupies its core, and no request waits there. -/
abbrev open' (m : Mach) (g : Fin 256) (c : Fin 64) : Prop := m.occupied g c = true ∧ (m.core g).portq = []

/-- The port of a place, where it has one, serves operation o. -/
def served (m : Mach) (o : Op) : CLoc → Prop
  | .spad g _ | .view g _ _ => open' m g o.ctx
  | .dev _ => True

/-- The n bytes of a place read as v, with no error and no break of the worlds (R151, R188, R365). -/
def reads (m : Mach) (o : Op) (l : CLoc) (n v : Nat) : Prop :=
  match l with
  | .spad g a => v = leVal (Memory.read (m.core g).spad a n)
  | .view g r a => ∃ bs, ctRead (m.core g).spad r ((a / 4096 : Nat) : Int) = some bs ∧ v = leVal ((bs.drop (a % 4096)).take n)
  | .dev a => m.badAt a n = false ∧ m.violates o.ctx a n = false ∧ v = leVal (m.devRead (m.sec o.ctx) a n)

/-- The source element that copy program o reads next has code c; m1 is the machine after the read's look (R175, R179). -/
def sourceIs (m : Mach) (o : Op) (c : Nat) (m1 : Mach) : Prop :=
  (o.src = [(c, true)] ∧ m1 = m) ∨
  (o.src = [] ∧
    match formOf o.instr with
    | .fill => m1 = m ∧ c = (ckAux o.blk).toNat % 2 ^ (4 * nibbles (ckDt o.blk))
    | .vat _ => m1 = m ∧ ckSk o.blk = 3 ∧ c = (o.lanes.getD o.idx 0).toNat % 2 ^ (4 * nibbles (ckSt o.blk))
    | _ => let n := nibbles (ckSt o.blk) / 2
           ∃ l, whereIs m o (srcEnd o.blk) o.sdesc (elemAt (srcEnd o.blk) (ckRun o.blk) o.idx).1.toNat n l m1 ∧
             served m o l ∧ reads m1 o l n c)

/-- Copy engine e of die d turns to operation o, a copy program that is at work on its elements, one at a time: no end has
scales or elements of four bits. -/
abbrev copying (s : State) (d e : Fin 4) (k : Nat) (o : Op) : Prop :=
  s.boot.state = 2 ∧ (s.m.engineOps d e)[k]? = some o ∧ o.fin = false ∧ o.stop = none ∧ (copyCommand o.instr).isSome = true ∧
  o.idx < ckTotal o.blk

/-- Neither end has scales or elements of four bits. -/
abbrev plainTypes (o : Op) : Prop :=
  isMx (ckSt o.blk) = false ∧ isMx (ckDt o.blk) = false ∧ nibbles (ckSt o.blk) ≠ 1 ∧ nibbles (ckDt o.blk) ≠ 1

/-- The operations after n elements more of one (R175). -/
def wentOn (m : Mach) (o : Op) (n : Nat) : List Op :=
  m.ops.map fun q => if q.id = o.id then { q with idx := q.idx + n, src := [], elems := [] } else q

/-- A scratchpad end that is not in the compressed view, at core g. -/
abbrev plainSpad (m : Mach) (o : Op) (e : CEnd) (g : Fin 256) : Prop :=
  e.kind = 0 ∧ wb e.loc 32 = false ∧ spadCore m o.core e.loc = some g ∧ open' m g o.ctx

/-- A stop on tile n of tensor t is kept in fault record i of context c: the record of the tile's block, or the first free one,
which raises the context's fault vector (R186; log entry 95 for BLOCK). -/
def faultKept (m m' : Mach) (c : Fin 64) (t : BitVec 20) (n : Nat) (i : Fin 16) : Prop :=
  let rs := (m.ctx c).frec
  let blk := BitVec.ofNat 32 (n / 64)
  let r' := (m'.ctx c).frec[i.val]
  r'.valid = true ∧ r'.tensor = t ∧ r'.block = blk ∧ r'.bitmap.getLsbD (n % 64) = true ∧
  (∀ j : Fin 16, j ≠ i → (m'.ctx c).frec[j.val] = rs[j.val]) ∧
  ((rs[i.val].valid = true ∧ rs[i.val].tensor = t ∧ rs[i.val].block = blk ∧ r'.nstop = rs[i.val].nstop + 1 ∧
      ∀ b, b ≠ n % 64 → r'.bitmap.getLsbD b = rs[i.val].bitmap.getLsbD b) ∨
   (rs[i.val].valid = false ∧ (∀ j : Fin 16, j < i → rs[j.val].valid = true) ∧
      (∀ j : Fin 16, ¬ (rs[j.val].valid = true ∧ rs[j.val].tensor = t ∧ rs[j.val].block = blk)) ∧
      r'.nstop = 1 ∧ ∀ b, b < 64 → r'.bitmap.getLsbD b = (b == n % 64)))

/-- Unit u of die d acts on operation o, which it has not applied whole. -/
abbrev unitActsOn (s : State) (d : Fin 4) (u : UnitKind) (o : Op) : Prop :=
  unitActs s d u ∧ s.m.unitOp d u = some o ∧ o.fin = false ∧ o.die = d

/-- The state in which the operation, applied on machine m, has the result CODE and VALUE (R173, R394). -/
def ends (s : State) (o : Op) (m : Mach) (code : Nat) (value : BitVec 32) : State :=
  after s (m.onOp o.id fun q => { q with fin := true, lanes := [BitVec.ofNat 32 code, value] })

/-- The operation ends with a code, whatever its VALUE, and changes nothing else (R393, R413). -/
def endsWith (s : State) (o : Op) (i : Instr) (code : Nat) : Prop := ∃ v, exec i s = .next (ends s o s.m code v)

/-- The operation ends with a code on machine m, whatever its VALUE. -/
def endsOn (s : State) (o : Op) (i : Instr) (m : Mach) (code : Nat) : Prop := ∃ v, exec i s = .next (ends s o m code v)

/-- The state in which Campanile has begun an operation that comes to r. -/
def campBegun (s : State) (o : Op) (r : CampOut) : State :=
  after s ((r.m.onOp o.id fun q =>
    { q with
      begun := true
      lanes := [BitVec.ofNat 32 r.code, BitVec.ofNat 32 r.value, if r.dup then 1 else 0, BitVec.ofNat 32 r.done] ++
        (match r.dout with | some d => (List.range 4).map fun k => BitVec.ofNat 32 (leVal ((d.drop (4 * k)).take 4)) | none => [])
      idx := r.refs.length, handles := r.give.map fun h => (0, h), fin := r.refs.isEmpty }).sendRefs o r.refs)

/-- The operations of Campanile (R374). -/
def campInstr : Instr → Bool
  | .balloc _ _ | .bfree _ _ | .bref _ _ | .btopen _ _ | .btclose _ _ | .btapp _ _ | .btfork _ _ | .bttrim _ _
  | .btcmt _ _ | .bhfind _ _ | .bhpub _ _ => true
  | _ => false

/-- Lantern of die d acts, and runs program r at a step that is not stopped. -/
abbrev lanternRuns (s : State) (d : Fin 4) (r : LnRun) : Prop :=
  unitActs s d .lantern ∧ (s.m.die d).lan.run = some r ∧ r.stop = none

/-- The state with Lantern's program on die d replaced. -/
def withRun (s : State) (m : Mach) (d : Fin 4) (r : LnRun) : State := after s (m.onLan d fun l => { l with run := some r })

/-- The program of a run at word k, before its step. -/
def atWord (r : LnRun) (k : Nat) : LnRun := { r with pc := k, idx := 0, got := false, done := 0, wait := none }

end Sys2Proof.Claims

/-! ## Copy engines -/

/-- R171, R174, R175, R179, R180, R181, R183, R184, R185, R186, R188, R190: what a copy engine does with the command
that it turns to. A stopped one makes no progress. A copy program gives its next element its code, at a scratchpad, a
tensor or a KV block, or in the compressed view, where the elements of a run in one tile are one request, and blocks of
32 with a scale; a multicast gives its element to every receiver, and then arrives at each; a tile that is not present
stops it with a fault record. An atomic changes its target and keeps the old value. What has been applied whole writes
its report, and an atomic its old value at RET. (Where an element's source and destination are both absent the
destination's tile is the one: log entry 93. Each end's access takes its turn at its port: log entry 88. Steps go in
order: log entry 76. A multicast's receivers get each unit before the next, one stream each: log entries 29 and 94.
BLOCK is the low 32 bits: log entry 95. A tile write that the compressed view cannot take makes its elements poisoned: log
entry 58.) -/
def Obligations.CopyEnginesApply : Prop :=
  (∀ (s : State) (d e : Fin 4) (k : Nat) (o : Op), s.boot.state = 2 → (s.m.engineOps d e)[k]? = some o →
    o.fin = true ∨ o.stop.isSome = true → exec (.copyElement d e k) s = .next s) ∧
  (∀ (s : State) (d e : Fin 4) (k : Nat) (o : Op) (l : CLoc) (m1 m2 : Mach) (c old : Nat), copying s d e k o → plainTypes o →
    formOf o.instr ≠ .mc → formOk (formOf o.instr) o.blk = true → c < 2 ^ (4 * nibbles (ckSt o.blk)) → sound s.m →
    let n := nibbles (ckDt o.blk) / 2
    let de := dstEnd o.blk o.sb
    let dv := devNan o.pc (o.idx % ckRun o.blk % 1024)
    let v := copyValue o.instr (ckSt o.blk) (ckDt o.blk) dv old c % 2 ^ (8 * n)
    whereIs s.m o de o.ddesc (elemAt de (ckRun o.blk) o.idx).1.toNat n l m1 → sourceIs m1 o c m2 →
    ((accumulates o.instr).isSome = true → reads m2 o l n old) →
    (∀ g a, l = .spad g a → open' s.m g o.ctx → ∃ m' : Mach, exec (.copyElement d e k) s = .next (after s m') ∧
      leVal (Memory.read (m'.core g).spad a n) = v ∧ sameButBytes (s.m.core g).spad (m'.core g).spad a n ∧
      (∀ h, h ≠ g → (m'.core h).spad = (s.m.core h).spad) ∧ m'.dev = s.m.dev ∧ m'.ctxs = s.m.ctxs ∧ m'.ops = wentOn s.m o 1) ∧
    (∀ g a, l = .spad g a → s.m.admits g o.ctx (.op o.id) = false → o.src = [(c, true)] →
      exec (.copyElement d e k) s = .next (after s ((s.m.onOp o.id fun q => { q with src := [(c, true)] }).enqueue g o.ctx (.op o.id)))) ∧
    (∀ a, l = .dev a → (∀ b, b < n → s.m.mayTouch (s.m.sec o.ctx) (a + b) = true) → ∃ m' : Mach,
      exec (.copyElement d e k) s = .next (after s m') ∧ leVal (Memory.read m'.dev a n) = v ∧ sameButBytes s.m.dev m'.dev a n ∧
      (∀ h, (m'.core h).spad = (s.m.core h).spad) ∧ m'.ctxs = s.m.ctxs ∧ m'.ops = wentOn s.m o 1)) ∧
  (∀ (s : State) (d e : Fin 4) (k : Nat) (o : Op) (g t : Fin 256) (bs : List Byte), copying s d e k o → plainTypes o →
    (formOf o.instr = .cp ∨ formOf o.instr = .cvt) → o.src = [] → sound s.m → plainSpad s.m o (srcEnd o.blk) g →
    let de := dstEnd o.blk o.sb
    let sz := nibbles (ckDt o.blk) / 2
    let x := (elemAt de (ckRun o.blk) o.idx).1.toNat
    let n := max 1 (min ((4096 - x % 4096) / sz) (ckRun o.blk - o.idx % ckRun o.blk))
    let code (j : Nat) : Nat := copyValue o.instr (ckSt o.blk) (ckDt o.blk) 0 0
      (leVal (Memory.read (s.m.core g).spad (elemAt (srcEnd o.blk) (ckRun o.blk) (o.idx + j)).1.toNat (nibbles (ckSt o.blk) / 2)))
    de.kind = 0 → wb de.loc 32 = true → spadCore s.m o.core de.loc = some t → open' s.m t o.ctx → sz ≤ 4096 - x % 4096 →
    ctRead (s.m.core t).spad (eaByte de.loc) ((x / 4096 : Nat) : Int) = some bs → bs.length = 4096 →
    let new := (List.range 4096).map fun b =>
      if x % 4096 ≤ b ∧ b < x % 4096 + n * sz then BitVec.ofNat 8 (code ((b - x % 4096) / sz) / 2 ^ (8 * ((b - x % 4096) % sz))) else bs.getD b 0
    (∀ c', ctWrite (s.m.core t) (eaByte de.loc) ((x / 4096 : Nat) : Int) new = some c' → ∃ m' : Mach,
      exec (.copyElement d e k) s = .next (after s m') ∧ (m'.core t).spad = c'.spad ∧ (∀ h, h ≠ t → sameButTurn (s.m.core h) (m'.core h)) ∧
      m'.dev = s.m.dev ∧ m'.ops = wentOn s.m o n) ∧
    (ctWrite (s.m.core t) (eaByte de.loc) ((x / 4096 : Nat) : Int) new = none → ∃ m' : Mach,
      exec (.copyElement d e k) s = .next (after s m') ∧ (∀ h, sameButTurn (s.m.core h) (m'.core h)) ∧ m'.dev = s.m.dev ∧
      m'.ops = s.m.ops.map fun q => if q.id = o.id then { q with idx := q.idx + n, src := [], elems := [], poison := some (q.poison.getD o.idx ⊓ o.idx) } else q)) ∧
  (∀ (s : State) (d e : Fin 4) (k : Nat) (o : Op) (g t : Fin 256), copying s d e k o → formOf o.instr = .cvt → o.src = [] → sound s.m →
    plainSpad s.m o (srcEnd o.blk) g → plainSpad s.m o (dstEnd o.blk o.sb) t →
    let ws := o.blk
    let n := min 32 (ckRun ws - o.idx % ckRun ws)
    let a := (elemAt (srcEnd ws) (ckRun ws) o.idx).1.toNat
    let b := (elemAt (dstEnd ws o.sb) (ckRun ws) o.idx).1.toNat
    let sc := (scaleAt ws o.idx).toNat
    o.idx % ckRun ws % 32 = 0 → 0 ≤ (elemAt (srcEnd ws) (ckRun ws) o.idx).1 →
    (ckSt ws = 1 → isMx (ckDt ws) = true → n * nibbles (ckDt ws) % 2 = 0 → (sc < b ∨ b + n * nibbles (ckDt ws) / 2 ≤ sc) →
      let q := quantise (fltOf (ckDt ws)) ((List.range n).map fun j => BitVec.ofNat 32 (leVal (Memory.read (s.m.core g).spad (a + 4 * j) 4)))
      ∃ m' : Mach, exec (.copyElement d e k) s = .next (after s m') ∧ spadByte m' t sc = BitVec.ofNat 8 q.1 ∧
        (∀ p, b ≤ p → p < b + n * nibbles (ckDt ws) / 2 → spadByte m' t p =
          if nibbles (ckDt ws) = 1 then BitVec.ofNat 8 (q.2.getD (2 * (p - b)) 0 % 16 + q.2.getD (2 * (p - b) + 1) 0 % 16 * 16)
          else BitVec.ofNat 8 (q.2.getD (p - b) 0)) ∧
        (∀ p, p < b ∨ b + n * nibbles (ckDt ws) / 2 ≤ p → p ≠ sc → spadByte m' t p = spadByte s.m t p) ∧
        (∀ h, h ≠ t → sameButTurn (s.m.core h) (m'.core h)) ∧ m'.dev = s.m.dev ∧ m'.ops = wentOn s.m o n) ∧
    (isMx (ckSt ws) = true → (ckDt ws = 1 ∨ ckDt ws = 2) →
      let sz := nibbles (ckDt ws) / 2
      ∃ m' : Mach, exec (.copyElement d e k) s = .next (after s m') ∧
        (∀ j, j < n → leVal (Memory.read (m'.core t).spad (b + sz * j) sz) =
          (f32 (expandMx (fltOf (ckSt ws)) (spadByte s.m g sc).toNat
            (elemOf (4 * nibbles (ckSt ws)) j fun p => spadByte s.m g (a + p)))).toF false (fltOf (ckDt ws)) .rne 0) ∧
        sameButBytes (s.m.core t).spad (m'.core t).spad b (sz * n) ∧
        (∀ h, h ≠ t → sameButTurn (s.m.core h) (m'.core h)) ∧ m'.dev = s.m.dev ∧ m'.ops = wentOn s.m o n)) ∧
  (∀ (s : State) (d e : Fin 4) (k : Nat) (o : Op) (g : Fin 256), copying s d e k o → formOf o.instr = .mc → o.src = [] → o.elems = [] →
    sound s.m → plainTypes o → ckSt o.blk = ckDt o.blk → plainSpad s.m o (srcEnd o.blk) g →
    let n := nibbles (ckDt o.blk) / 2
    let a := (elemAt (srcEnd o.blk) (ckRun o.blk) o.idx).1.toNat
    let b := (elemAt (dstEnd o.blk o.sb) (ckRun o.blk) o.idx).1.toNat
    let bs := Memory.read (s.m.core g).spad a n
    ((ckAux o.blk).toNat % 4 ≤ 1 → (o.rcvs.map (·.2)).Nodup → (∀ r ∈ o.rcvs, open' s.m r.2 o.ctx) → ∃ m' : Mach,
      exec (.copyElement d e k) s = .next (after s m') ∧ (∀ r ∈ o.rcvs, Memory.read (m'.core r.2).spad b n = bs ∧
        sameButBytes (s.m.core r.2).spad (m'.core r.2).spad b n) ∧
      (∀ h, (∀ r ∈ o.rcvs, h ≠ r.2) → sameButTurn (s.m.core h) (m'.core h)) ∧ m'.dev = s.m.dev ∧ m'.ops = wentOn s.m o 1) ∧
    ((ckAux o.blk).toNat % 4 = 2 → ∃ m' : Mach, exec (.copyElement d e k) s = .next (after s m') ∧
      (∀ h, sameButTurn (s.m.core h) (m'.core h)) ∧ m'.dev = s.m.dev ∧ m'.ops = wentOn s.m o 1 ∧ ∃ new : List OutMsg, m'.outbox = s.m.outbox ++ new ∧ new.length = o.rcvs.length ∧
        ∀ j y r, new[j]? = some y → o.rcvs[j]? = some r → y.msg.kind = 6 ∧ y.msg.dpkg = r.1 ∧ y.msg.dcore = BitVec.ofNat 8 r.2.val ∧
          y.msg.addr = BitVec.ofNat 48 b ∧ y.msg.payload = bs ∧ y.msg.ctx = o.ctx ∧ y.msg.stream = mcStream o.stream j ∧ y.tag = o.id + 1)) ∧
  (∀ (s : State) (d e : Fin 4) (k j : Nat) (o : Op) (r : BitVec 10 × Fin 256), s.boot.state = 2 → (s.m.engineOps d e)[k]? = some o →
    o.fin = false → o.stop = none → formOf o.instr = .mc → ckRben o.blk = true → o.idx = ckTotal o.blk + j → o.rcvs[j]? = some r →
    ((ckAux o.blk).toNat % 4 ≤ 1 → open' s.m r.2 o.ctx → exec (.copyElement d e k) s =
      .next (after s (((s.m.noteReq r.2 (.op o.id)).arrive r.2 (ckRbar o.blk) o.ctx).passed o 1)))) ∧
  (∀ (s : State) (d e : Fin 4) (k n : Nat) (o : Op) (t : BitVec 20) (m1 m2 : Mach) (l : CLoc), copying s d e k o → plainTypes o →
    formOf o.instr ≠ .mc →
    let absent (m : Mach) (x : CEnd) (desc : List Word) (m' : Mach) : Prop := x.kind = 1 ∧ t = x.loc.extractLsb' 0 20 ∧
      let at' := (elemAt x (ckRun o.blk) o.idx).1.toNat
      at' % 64 + nibbles x.ty / 2 ≤ 64 ∧ ∃ y, descOf desc = some y ∧ m.placeOf (.core o.core) o.ctx t y at' = (.absent n, m')
    let de := dstEnd o.blk o.sb
    (absent s.m de o.ddesc m2 → exec (.copyElement d e k) s = .next (after s (m2.stopOp o (t, n)))) ∧
    (whereIs s.m o de o.ddesc (elemAt de (ckRun o.blk) o.idx).1.toNat (nibbles (ckDt o.blk) / 2) l m1 → (wb de.loc 32 = false ∨ de.kind ≠ 0) →
      o.src = [] → (∀ op, formOf o.instr ≠ .vat op) → formOf o.instr ≠ .fill → absent m1 (srcEnd o.blk) o.sdesc m2 →
      exec (.copyElement d e k) s = .next (after s (m2.stopOp o (t, n))))) ∧
  (∀ (m : Mach) (o : Op) (t : BitVec 20) (n : Nat), let m' := m.stopOp o (t, n)
    ∃ b : Bool, m'.ops = m.ops.map (fun q => if q.id = o.id then { q with stop := some (t, n, b), nfault := q.nfault + 1, src := [] } else q) ∧
      (b = true → ∃ i : Fin 16, faultKept m m' o.ctx t n i) ∧ (b = false → m'.ctxs = m.ctxs ∧ ∀ i : Fin 16, (m.ctx o.ctx).frec[i.val].valid = true) ∧
      m'.cores = m.cores ∧ m'.dev = m.dev) ∧
  (∀ (s : State) (d e : Fin 4) (k : Nat) (o : Op) (l : CLoc) (m1 : Mach) (old : Nat), s.boot.state = 2 → (s.m.engineOps d e)[k]? = some o →
    atomCommand o.instr = true → o.fin = false → o.stop = none → sound s.m →
    let n := atomBytes o.blk
    let new := atomResult o.instr (wb (blkW o.blk 0) 1) (8 * n) ((blkW o.blk 5).toNat % 2 ^ (8 * n)) old (o.sb.toNat % 2 ^ (8 * n))
    let done (m' : Mach) : Prop := m'.ctxs = s.m.ctxs ∧ (∀ x, sameButClock (s.m.die x) (m'.die x)) ∧ m'.ops = s.m.ops.map fun q => if q.id = o.id then
      { q with lanes := [BitVec.ofNat 32 old, BitVec.ofNat 32 (old / 2 ^ 32)], fin := true } else q
    whereIs s.m o (atomEnd o.blk) o.ddesc (atomAt o.blk) n l m1 → reads m1 o l n old →
    (∀ t x, l = .spad t x → open' s.m t o.ctx → ∃ m' : Mach, exec (.copyElement d e k) s = .next (after s m') ∧
      leVal (Memory.read (m'.core t).spad x n) = new ∧ sameButBytes (s.m.core t).spad (m'.core t).spad x n ∧
      (∀ h, h ≠ t → m'.core h = s.m.core h) ∧ m'.dev = s.m.dev ∧ done m') ∧
    (∀ a, l = .dev a → (∀ b, b < n → s.m.mayTouch (s.m.sec o.ctx) (a + b) = true) → ∃ m' : Mach,
      exec (.copyElement d e k) s = .next (after s m') ∧ leVal (Memory.read m'.dev a n) = new ∧ sameButBytes s.m.dev m'.dev a n ∧
      (∀ h, (m'.core h).spad = (s.m.core h).spad) ∧ done m')) ∧
  (∀ (s : State) (d e : Fin 4) (k : Nat) (o : Op), s.boot.state = 2 → (s.m.engineOps d e)[k]? = some o →
    o.fin = false → o.stop = none → atomCommand o.instr = false → formOf o.instr ≠ .mc → ckTotal o.blk ≤ o.idx →
    s.m.sending (o.id + 1) = false → exec (.copyElement d e k) s = .next (after s (s.m.onOp o.id fun q => { q with fin := true }))) ∧
  (∀ (s : State) (d e : Fin 4) (k : Nat) (o : Op), s.boot.state = 2 → (s.m.engineOps d e)[k]? = some o →
    (o.fin = false → exec (.commandComplete d e k) s = .next s) ∧
    (o.fin = true → s.m.findOp o.id = some o → o.said = false → o.bar = none → open' s.m o.core o.ctx →
      let status := (if o.poison.isSome then 2 else 1) + min o.nfault 65535 * 2 ^ 16 + o.poison.getD 0 % 2 ^ 32 * 2 ^ 32
      let gone (m' : Mach) : Prop := m'.ops = s.m.ops.filter (fun q => q.id ≠ o.id) ∧
        ((m'.core o.core).cq = if o.entry then (s.m.core o.core).cq - 1 else (s.m.core o.core).cq) ∧
        (∀ h, h ≠ o.core → m'.core h = s.m.core h) ∧ m'.dev = s.m.dev ∧ m'.ctxs = s.m.ctxs
      ((copyCommand o.instr).isSome = true → ∃ m' : Mach, exec (.commandComplete d e k) s = .next (after s m') ∧ gone m' ∧
        (Memory.readW (m'.core o.core).spad (o.base + 8)).toNat = status ∧
        sameButBytes (s.m.core o.core).spad (m'.core o.core).spad (o.base + 8) 8) ∧
      (atomCommand o.instr = true → let ret := (blkW o.blk 6).toNat % 2 ^ 22
        ret + 8 ≤ o.base + 8 ∨ o.base + 16 ≤ ret → ∃ m' : Mach, exec (.commandComplete d e k) s = .next (after s m') ∧ gone m' ∧
        (Memory.readW (m'.core o.core).spad (o.base + 8)).toNat = status ∧
        Memory.readW (m'.core o.core).spad ret = (o.lanes.getD 1 0) ++ (o.lanes.getD 0 0) ∧
        ∀ b, (b < o.base + 8 ∨ o.base + 16 ≤ b) → (b < ret ∨ ret + 8 ≤ b) → spadByte m' o.core b = spadByte s.m o.core b)))

/-! ## Belfry and the gatherer -/

/-- R246, R247, R251, R259, R393, R413: what ITBIND, ITGO, ITSTAT, OBJPLACE and OBJPIN do, and the codes of those that
may do nothing; a new binding keeps the final counts of the old one until ITGO. R262: ITGO, OBJPLACE and OBJPIN wait where
the Belfry that they need has accepted a later-ranked request in this clock (log entry 102), and are accepted otherwise. The
read of an object's record is one that its context makes (R365, R366; log entry 122). That
they are applied whole in one move, at whichever die owns the object, is log entry 78. -/
def Obligations.BelfryAppliesCommands : Prop :=
  ∀ (s : State) (d : Fin 4) (o : Op) (t : Tok) (a : Fin 32), unitActsOn s d .belfry o →
    let k := itSlot o.blk
    let b := s.m.bslot d k
    let c := o.ctx
    let turn : Prop := ∀ p ∈ cmdArbiters s.m o, s.m.arbiter p.1 p.2 = true
    let acc := (cmdArbiters s.m o).foldl (fun m p => m.accepts p.1 p.2)
      (s.m.noteReads c [(s.m.objAddr c ((blkW o.blk 0).toNat % 2 ^ 20), 64)])
    (¬ turn → exec (.itgo t a) s = .next s ∧ exec (.objplace t a) s = .next s ∧ exec (.objpin t a) s = .next s) ∧
    (b.bound = true → b.ctx ≠ c → endsWith s o (.itbind t a) 5 ∧ (turn → endsWith s o (.itgo t a) 5) ∧ endsWith s o (.itstat t a) 5) ∧
    ((b.bound = true → b.ctx = c) → b.running = true → endsWith s o (.itbind t a) 2 ∧ (turn → endsWith s o (.itgo t a) 2)) ∧
    (b.bound = false → b.running = false → (turn → endsWith s o (.itgo t a) 4) ∧ endsWith s o (.itstat t a) 4 ∧
      ((blkW o.blk 0).getLsbD 2 = true → endsWith s o (.itbind t a) 4)) ∧
    ((b.bound = true → b.ctx = c) → b.running = false → (blkW o.blk 0).getLsbD 2 = false →
      (itbindRange s.m o = true → endsWith s o (.itbind t a) 3) ∧
      (itbindRange s.m o = false → exec (.itbind t a) s =
        .next (ends s o (s.m.onSlotB d k fun b => bindOf b c o.blk) 1 (BitVec.ofNat 32 k.val)) ∧
        (bindOf b c o.blk).started = b.started ∧ (bindOf b c o.blk).done = b.done ∧ (bindOf b c o.blk).hops = b.hops)) ∧
    (b.bound = true → b.ctx = c → b.running = false → (blkW o.blk 0).getLsbD 2 = true → exec (.itbind t a) s =
      .next (ends s o (s.m.onSlotB d k fun _ => BSlot.reset) 1 (BitVec.ofNat 32 k.val))) ∧
    (b.bound = true → b.ctx = c → b.running = false → turn → ∃ m' : Mach, exec (.itgo t a) s = .next (ends s o m' 1 (BitVec.ofNat 32 b.nent)) ∧
      (m'.bslot d k).running = true ∧ (m'.bslot d k).run = s.m.nextId ∧ m'.nextId = s.m.nextId + 1 ∧ (m'.bslot d k).started = 0 ∧ (m'.bslot d k).done = 0 ∧ (m'.bslot d k).rt = 16 ∧
      (m'.bslot d k).poison = false ∧ ((m'.bslot d k).ents).length = b.nent ∧ (m'.bslot d k).win = b.win ∧
      ∀ j, j ≠ k → m'.bslot d j = s.m.bslot d j) ∧
    (b.bound = true → b.ctx = c → exec (.itstat t a) s =
      .next (ends s o (s.m.ctxWrite c b.stat.toNat (s.m.statRecord d k)) 1 b.done)) ∧
    let i := (blkW o.blk 0).toNat % 2 ^ 20
    let tier := (blkW o.blk 0).toNat / 2 ^ 20 % 4
    let unpin := (blkW o.blk 0).getLsbD 22
    let w := s.m.cs c i tier
    (turn →
    ((s.m.ctx c).nobj.toNat ≤ i → endsOn s o (.objpin t a) acc 3 ∧ endsOn s o (.objplace t a) acc 3) ∧
    (i < (s.m.ctx c).nobj.toNat → objValid (s.m.objRec c i) = false → endsOn s o (.objpin t a) acc 4) ∧
    (i < (s.m.ctx c).nobj.toNat → objValid (s.m.objRec c i) = true → unpin = false → csPins w ≠ 65535 →
      ∃ w' : Word, csPins w' = csPins w + 1 ∧ (∀ n, n < 4 ∨ 20 ≤ n → w'.getLsbD n = w.getLsbD n) ∧
        exec (.objpin t a) s = .next (ends s o (acc.setCs c i tier w') 1 (BitVec.ofNat 32 (csPins w + 1)))) ∧
    (i < (s.m.ctx c).nobj.toNat → objValid (s.m.objRec c i) = true → unpin = true →
      (csPins w = 0 → exec (.objpin t a) s = .next (ends s o (acc.stray c) 1 0)) ∧
      (csPins w ≠ 0 → ∃ w' : Word, csPins w' = csPins w - 1 ∧ (∀ n, n < 4 ∨ 20 ≤ n → w'.getLsbD n = w.getLsbD n) ∧
        exec (.objpin t a) s = .next (ends s o ((acc.setCs c i tier w').recheck c i tier) 1 (BitVec.ofNat 32 (csPins w - 1))))) ∧
    (i < (s.m.ctx c).nobj.toNat → imageBad (blkW o.blk 3) (blkW o.blk 4) (blkW o.blk 5) = false → objValid (s.m.objRec c i) = false →
      ∃ w0 : Word, (∀ n, w0.getLsbD n = if n = 10 then true else (blkW o.blk 3).getLsbD n) ∧
        exec (.objplace t a) s = .next (ends s o
          ((acc.ctxWrite c (s.m.objAddr c i) (wordBytes w0 ++ wordBytes (blkW o.blk 4) ++ wordBytes (blkW o.blk 5))).ctxWrite c
            (s.m.objAddr c i + 0x18) (List.replicate 16 0)) 1 (BitVec.ofNat 32 i))))

/-- R249, R252 to R255, R260, R262: a hop whose slot does not run starts nothing; the first reading of a malformed entry
ends the launch; a member's shard into a ring claims its slot, and a shard into a copy is a fill of the owner's Belfry;
a shard whose data has come is written, tile by tile or into its slot; a shard whose members have accepted it ends, and
with the last one its entry, which arrives at its BAR; a mark that reaches Belfry leaves its queue and counts for the
itineraries that it was sent to. The Belfry of an owner accepts, in one clock, what its own die asks before what others
do, lower dies, slots and hops first, and OBJPLACE and OBJPIN last. A copy whose invalidation has completed gives back
its frames one by one, and is ABSENT after the last. (That NSHR 0 is malformed is log entry 42, that frames go one to a
move log entry 78, that a request waits for its order log entry 102; which reads of an itinerary are noted for retries
and reports, log entry 122.) -/
def Obligations.BelfryMovesOn : Prop :=
  (∀ (s : State) (d k : Fin 4) (h : Fin 3), s.boot.state = 2 →
    let b := s.m.bslot d k
    let x := b.hops[h.val]
    (b.running = false → exec (.shardStart d k h) s = .next s) ∧
    (b.running = true → x.stop = none → s.m.nextEnt b h x.ent = none → exec (.shardStart d k h) s = .next s) ∧
    (∀ j : Nat, b.running = true → x.stop = none → x.seen = false → s.m.nextEnt b h x.ent = some j → (s.m.itEnt b j).nshr = 0 →
      let m0 := s.m.noteItin b ((List.range (j + 1)).drop x.ent)
      let m1 := if ItEnt.leader (s.m.itEnt b j) then m0.noteGroup b.ctx (ItEnt.gid (s.m.itEnt b j)) else m0
      ∃ ds, exec (.shardStart d k h) s = .next (after s
        (((m1.onSlotB d k fun b => b.onEnt j fun y => { y with dsts := ds }).onHop d k h fun y =>
          { y with ent := j, sh := 0, seen := true }).abort b.ctx 1))) ∧
    (∀ j : Nat, let e := s.m.itEnt b j
      let q := s.m.ring e.rcore e.ring
      b.running = true → x.stop = none → s.m.nextEnt b h x.ent = some j → j = x.ent → x.seen = true → e.src = 4 → e.dst = 0 →
      s.m.inFlight d k h e.wcls = 0 → open' s.m e.rcore b.ctx → q.ready .we = true → (s.m.core e.rcore).ringWaits = [] →
      ∃ m' : Mach, exec (.shardStart d k h) s = .next (after s m') ∧ m'.ring e.rcore e.ring = { q with pclaim := q.pclaim + 1 } ∧
        (m'.die d).belfry.shards = (s.m.die d).belfry.shards ++
          [⟨k, h, j, x.sh, e.wcls, 65536 * 2 ^ objLsh (s.m.objRec b.ctx e.obj), some q.pclaim.toNat, [], 0, some [], false⟩] ∧
        ((m'.bslot d k).hops[h.val]).sh = (if x.sh + 1 = e.nshr then 0 else x.sh + 1) ∧ m'.dev = s.m.dev) ∧
    (∀ j : Nat, let e := s.m.itEnt b j
      let i := ItEnt.obj e
      let dst := ItEnt.dst e
      let ws := s.m.objRec b.ctx i
      let own := objOwner ws
      let rank := hopRank own d k (h.val + 1) j x.sh
      let m1 := s.m.noteItin b ((List.range (j + 1)).drop x.ent)
      let ttab := m1.tabOf d b.ctx (objTensor ws dst)
      let ys := shardTiles ws e x.sh
      let m2 := m1.noteReads b.ctx (ys.map fun y => (ttab + 8 * y, 8))
      let frames : Prop := (m2.absent b.ctx ttab ys).length + m2.promisedFrames b.ctx own dst ≤ ((s.m.ctx b.ctx).fcnt[(stackIx own dst).val]).toNat
      let me : FillWait := ⟨b.ctx, i, dst, d, k, h⟩
      b.running = true → x.stop = none → s.m.nextEnt b h x.ent = some j → j = x.ent → x.seen = true → ItEnt.src e ≠ 1 → ItEnt.src e ≠ 2 →
      dst ≠ 0 → s.m.inFlight d k h e.wcls = 0 →
      (objPoison ws = true →
        (s.m.arbiter own rank = true → exec (.shardStart d k h) s = .next (after s ((m2.accepts own rank).poisonOwn d k h j x.sh (some k.val)))) ∧
        (s.m.arbiter own rank = false → exec (.shardStart d k h) s = .next (after s m2))) ∧
      (objPoison ws = false → ¬ frames → exec (.shardStart d k h) s = .next (after s (m2.stall d k h .evict))) ∧
      (objPoison ws = false → frames → (s.m.arbiter own rank = false ∨ s.m.fillTurn own me = false) →
        exec (.shardStart d k h) s = .next (after s m2)) ∧
      (objPoison ws = false → frames → s.m.arbiter own rank = true → s.m.fillTurn own me = true →
        ((m2.accepts own rank).fillReq b.ctx i dst = none → exec (.shardStart d k h) s = .next (after s
          (((m2.accepts own rank).onBelfry own fun b => { b with fills := if b.fills.contains me then b.fills else b.fills ++ [me] }).stall
            d k h .evict))) ∧
        (∀ m3, (m2.accepts own rank).fillReq b.ctx i dst = some m3 → ∃ m' : Mach, exec (.shardStart d k h) s = .next (after s m') ∧
          (m'.die d).belfry.shards = (m3.die d).belfry.shards ++
            [⟨k, h, j, x.sh, e.wcls, 65536 * 2 ^ objLsh ws, none, m3.absent b.ctx ttab ys, 0,
              if ItEnt.src e = 4 then some [] else none, false⟩] ∧
          ((m'.bslot d k).hops[h.val]).sh = (if x.sh + 1 = e.nshr then 0 else x.sh + 1) ∧ m'.dev = m3.dev ∧ m'.cores = m3.cores)))) ∧
  (∀ (m : Mach) (c : Fin 64) (i tier : Nat),
    let w := m.cs c i tier
    (csState w ≠ 3 → m.fillReq c i tier = some (m.setCs c i tier (csPut w 1 false (csFills w + 1)))) ∧
    (csState w = 3 → csRet w = true → m.fillReq c i tier = none) ∧
    (csState w = 3 → csRet w = false → ∃ m', m.fillReq c i tier = some m' ∧
      ∀ e ∈ (m'.die (objOwner (m.objRec c i))).belfry.evicts, ¬ (e.ctx = c ∧ e.obj = i ∧ e.tier = tier)) ∧
    ∀ (st n : Nat) (p : Bool), st < 4 → n < 2 ^ 16 →
      csState (csPut w st p n) = st ∧ csRet (csPut w st p n) = false ∧ csEvp (csPut w st p n) = p ∧ csFills (csPut w st p n) = n ∧
      csPins (csPut w st p n) = csPins w ∧ csUsers (csPut w st p n) = csUsers w) ∧
  (∀ (s : State) (d : Fin 4) (k : Nat) (x : Shard), s.boot.state = 2 → (s.m.die d).belfry.shards[k]? = some x →
    let b := s.m.bslot d x.slot
    let e := s.m.itEnt b x.ent
    let last := lastShard b x e
    let m0 := s.m.noteItin b [x.ent]
    (b.running = false → exec (.shardMoved d k) s = .next s) ∧
    (b.running = true → (b.hops[x.hop.val]).stop = none → x.tag ≠ 0 →
      (s.m.sending x.tag = true → exec (.shardMoved d k) s = .next (after s m0)) ∧
      (s.m.sending x.tag = false →
        (last = false ∨ s.m.endArbiter d x.slot x.ent = none → exec (.shardMoved d k) s = .next (after s (m0.finishShard d x))) ∧
        (∀ p, last = true → s.m.endArbiter d x.slot x.ent = some p →
          (s.m.arbiter p.1 p.2 = true → exec (.shardMoved d k) s = .next (after s ((m0.accepts p.1 p.2).finishShard d x))) ∧
          (s.m.arbiter p.1 p.2 = false → exec (.shardMoved d k) s = .next (after s m0))))) ∧
    (∀ bs, b.running = true → (b.hops[x.hop.val]).stop = none → x.tag = 0 → x.rx = some bs →
      let ws := s.m.objRec b.ctx (ItEnt.obj e)
      let ys := shardTiles ws e x.sh
      let tiles := (List.range ys.length).map fun n => (bs.drop (65536 * n)).take 65536
      let g := ItEnt.rcore e
      let r := ItEnt.ring e
      let landed (m : Mach) : State :=
        let y := { x with tag := m.nextId + 1, fresh := [] }
        after s ((({ m with nextId := m.nextId + 1 } : Mach).onBelfry d fun b =>
          { b with shards := b.shards.map fun z => if z = x then y else z }).endShard d y)
      (bs.length < x.bytes → exec (.shardMoved d k) s = .next (after s m0)) ∧
      (x.bytes ≤ bs.length → ItEnt.leader e = false → x.claim = none →
        let put := m0.putTiles b.ctx (objOwner ws) (ItEnt.dst e) (m0.tabOf d b.ctx (objTensor ws (ItEnt.dst e))) (ys.zip tiles)
        (put = none → exec (.shardMoved d k) s = .next (after s m0)) ∧
        (∀ m1, put = some m1 → exec (.shardMoved d k) s = .next (landed (m1.fillDone b.ctx (ItEnt.obj e) (ItEnt.dst e))))) ∧
      (∀ n, x.bytes ≤ bs.length → ItEnt.leader e = false → x.claim = some n → (s.m.die d).belfry.shards.head? = some x →
        let w := Who.shard d x.slot x.hop x.ent x.sh
        let m1 := m0.dequeue g b.ctx w
        let q := s.m.ring g r
        (s.m.admits g b.ctx w = false → exec (.shardMoved d k) s = .next (after s (m0.enqueue g b.ctx w))) ∧
        (s.m.admits g b.ctx w = true → exec (.shardMoved d k) s = .next (landed
          (({ (m1.wspad g (q.base.toNat + 64 * q.slotsz.toNat * (n % q.nslot.toNat)) tiles.flatten).onCore g fun c =>
                { c with rings := put c.rings r { q with ppub := q.ppub + 1 } } with
              touched := (g, 0x400000 + r.val) :: s.m.touched } : Mach).serveRing g r .wf ((s.m.core g).ringWaits).length)))))) ∧
  (∀ (m : Mach) (c : Fin 64) (own : Fin 4) (tier ttab y : Nat) (bs : List Byte) (rest : List (Nat × List Byte)),
    let m0 := m.noteReads c [(ttab + 8 * y, 8)]
    let there := (m.entryAddr (m.devW (m.sec c) (ttab + 8 * y))).isSome
    m.putTiles c own tier ttab [] = some m ∧
    m.putTiles c own tier ttab ((y, bs) :: rest) = (m.putTile c own tier ttab y bs).bind (fun m => m.putTiles c own tier ttab rest) ∧
    (there = true → m.putTile c own tier ttab y bs = some m0) ∧
    (there = false → m0.popFrame c own tier = none → m.putTile c own tier ttab y bs = none) ∧
    (∀ f m1, there = false → m0.popFrame c own tier = some (f, m1) → m.putTile c own tier ttab y bs =
      some ((m1.ctxWrite c (frameAddr tier own.val f) bs).ctxWrite c (ttab + 8 * y)
        (leBytes 8 (1 + tier * 2 + own.val * 8 + f % 2 ^ 30 * 64))))) ∧
  (∀ (m : Mach) (d : Fin 4) (c : Fin 64) (n : Nat) (e : ItEnt),
    (ItEnt.ben e = false ∨ m.barOf 0 (ItEnt.bar e) true = none → m.postBar d c n e = m) ∧
    (∀ t a, ItEnt.ben e = true → m.barOf 0 (ItEnt.bar e) true = some (t, a) →
      (m.admits t c (.ent d n) = true → m.postBar d c n e = (m.dequeue t c (.ent d n)).arrive t a c) ∧
      (m.admits t c (.ent d n) = false →
        m.postBar d c n e = ({ m with arrivals := m.arrivals ++ [⟨t, a, .ent d n, c⟩] } : Mach).enqueue t c (.ent d n)))) ∧
  (∀ (m : Mach) (d : Fin 4) (x : Shard), let b := m.bslot d x.slot
    let e := m.itEnt b x.ent
    let m' := m.finishShard d x
    let b' := m'.bslot d x.slot
    x.ent < b.ents.length → sound m →
    (m'.die d).belfry.shards = (m.die d).belfry.shards.erase x ∧ (b'.ent x.ent).moved = (b.ent x.ent).moved + 1 ∧
    (lastShard b x e = false ∨ b.running = false → b'.done = b.done ∧ b'.running = b.running ∧ m'.arrivals = m.arrivals) ∧
    (lastShard b x e = true → b.running = true → b'.done = sat32 b.done ∧ (b'.ent x.ent).complete = true ∧
      (b'.running = false ↔ ∀ y, y ≠ x.ent → y < b.ents.length → (b.ent y).complete = true))) ∧
  (∀ (s : State) (d : Fin 4), s.boot.state = 2 →
    ((s.m.die d).belfry.marks = [] → exec (.demandMark d) s = .next s) ∧
    (∀ g runs rest, (s.m.die d).belfry.marks = (g, runs) :: rest → ∃ m' : Mach, exec (.demandMark d) s = .next (after s m') ∧
      (m'.die d).belfry.marks = rest ∧ m'.dev = s.m.dev ∧ m'.ops = s.m.ops ∧
      ∀ k : Fin 4, dieOf g = d →
        (m'.bslot d k).marks[g.val % 64]'(Nat.mod_lt _ (by decide)) = (s.m.bslot d k).marks[g.val % 64]'(Nat.mod_lt _ (by decide)) +
          (if (s.m.bslot d k).running = true ∧ (s.m.bslot d k).run ∈ runs then 1 else 0))) ∧
  (∀ (m : Mach) (own : Fin 4) (k : Nat),
    (m.arbiter own k = true ↔ ∀ r, (m.die own).belfry.last = some ((m.die own).cycle, r) → r ≤ k) ∧
    ((m.accepts own k).die own).belfry.last = some ((m.die own).cycle, k)) ∧
  (∀ (own d d' s s' : Fin 4) (h h' e e' n n' : Nat) (g g' : Fin 256), h < 4 → h' < 4 → e < 2 ^ 20 → e' < 2 ^ 20 → n < 2 ^ 17 → n' < 2 ^ 17 →
    (d' ≠ own → hopRank own own s h e n < hopRank own d' s' h' e' n') ∧
    (d ≠ own → d' ≠ own → d < d' → hopRank own d s h e n < hopRank own d' s' h' e' n') ∧
    (s < s' → hopRank own d s h e n < hopRank own d s' h' e' n') ∧ (h < h' → hopRank own d s h e n < hopRank own d s h' e' n') ∧
    hopRank own d s h e n < objRank g ∧ (g < g' → objRank g < objRank g')) ∧
  (∀ (m : Mach) (d : Fin 4) (e : Evict), (m.die d).belfry.evicts.find? (·.ret) = some e →
    let m' := m.returnFrame d
    (e.tiles = [] → m' = (m.setCs e.ctx e.obj e.tier (csPut (m.cs e.ctx e.obj e.tier) 0 false (csFills (m.cs e.ctx e.obj e.tier)))).onBelfry d
      fun b => { b with evicts := b.evicts.erase e }) ∧
    (∀ p, e.tiles = [p] → let m1 := m.pushFrame e.ctx d e.tier (p.2.toNat / 2 ^ 6 % 2 ^ 30)
      m' = (m1.setCs e.ctx e.obj e.tier (csPut (m1.cs e.ctx e.obj e.tier) 0 false (csFills (m1.cs e.ctx e.obj e.tier)))).onBelfry d
        fun b => { b with evicts := b.evicts.erase e }) ∧
    (∀ p q rest, e.tiles = p :: q :: rest → m' = (m.pushFrame e.ctx d e.tier (p.2.toNat / 2 ^ 6 % 2 ^ 30)).onBelfry d
      fun b => { b with evicts := b.evicts.map fun x => if x = e then { e with tiles := q :: rest } else x }))

/-- R267 to R271, R418 to R421: RGCFG loads or unloads a configuration that holds nothing; RGTAKE takes the oldest
descriptor or releases a held buffer; RGPUSH begins, writes each row with its tag and counts it, posts the descriptor of a full
batch, arrives, and turns to the other buffer. A take, also of an empty queue, and a release of a held buffer count as reaching
the gatherer for the wait-for walk, which is the model's reading (log entry 23). R268, R421: the gatherer applies a take past a
push that waits, and no other. (A BUFT that is no longer usable stops the push on tile 0: log entry 44.) -/
def Obligations.GathererAppliesCommands : Prop :=
  (∀ (s : State) (d : Fin 4) (o : Op) (t : Tok) (a : Fin 32), unitActsOn s d .gatherer o →
    let g := (s.m.die d).gat
    let nothing : Prop := (∀ b : Fin 1024, g.cnt[b.val] = 0) ∧ g.held = []
    let reached (m : Mach) : Mach := { m with touched := (Fin.ofNat 256 (64 * d.val), 0x700000) :: m.touched }
    (∀ c, g.cfg = some c → c.ctx ≠ o.ctx → endsWith s o (.rgcfg t a) 5 ∧ endsWith s o (.rgtakeTake t a) 5 ∧ endsWith s o (.rgtakeRelease t a) 5) ∧
    (∀ c, g.cfg = some c → c.ctx = o.ctx → ¬ nothing → endsWith s o (.rgcfg t a) 2) ∧
    (∀ c, g.cfg = some c → c.ctx = o.ctx → nothing → (blkW o.blk 0).getLsbD 63 = true →
      exec (.rgcfg t a) s = .next (ends s o (s.m.onGat d fun g => g.fresh none) 1 0)) ∧
    (g.cfg = none → (blkW o.blk 0).getLsbD 63 = false → ∀ c m', cfgOf s.m o = (some c, m') →
      exec (.rgcfg t a) s = .next (ends s o (m'.onGat d fun g => g.fresh (some c)) 1 (BitVec.ofNat 32 c.nbkt))) ∧
    (g.cfg = none → endsWith s o (.rgtakeTake t a) 5 ∧ endsWith s o (.rgtakeRelease t a) 5 ∧
      exec (.rgpush t a) s = .next (ends s o s.m 5 0)) ∧
    (∀ c, g.cfg = some c → c.ctx = o.ctx →
      (∀ x rest, g.dq = x :: rest → exec (.rgtakeTake t a) s =
        .next (ends s o ((reached (s.m.onGat d fun g => { g with dq := rest })).onOp o.id fun q => { q with sdesc := x }) 1 1)) ∧
      (g.dq = [] → exec (.rgtakeTake t a) s =
        .next (ends s o ((reached (s.m.onGat d fun g => { g with dq := [] })).onOp o.id fun q => { q with sdesc := [0, 0, 0, 0] }) 1 0)) ∧
      let b := (blkW o.blk 0).toNat / 2 ^ 16 % 2 ^ 10
      let k := (blkW o.blk 0).getLsbD 26
      (b < c.nbkt → (b, k) ∈ g.held → exec (.rgtakeRelease t a) s =
        .next (ends s o (reached (s.m.onGat d fun g => { g with held := g.held.erase (b, k) })) 1 1)) ∧
      (b < c.nbkt → (b, k) ∉ g.held → exec (.rgtakeRelease t a) s = .next (ends s o (s.m.stray o.ctx) 1 0)) ∧
      (c.nbkt ≤ b → endsWith s o (.rgtakeRelease t a) 3) ∧
      (o.begun = false → pushFits c o.blk (o.handles.map fun h => BitVec.ofNat 64 h.1) = true →
        exec (.rgpush t a) s = .next (after s (s.m.onOp o.id fun q => { q with begun := true }))) ∧
      (o.begun = true → o.stop = none → (pushBuckets c o).length ≤ o.idx / 8 →
        exec (.rgpush t a) s = .next (ends s o s.m 1 (BitVec.ofNat 32 o.nfault))) ∧
      (o.begun = true → o.stop = none → o.idx / 8 < (pushBuckets c o).length →
        let u := bktAt c o (o.idx / 8)
        let k := (g.fill[u.val]).toNat
        let n := g.cnt[u.val]
        (o.idx % 8 = 0 → rpN o.blk = 0 → exec (.rgpush t a) s = .next (after s (if n = 0 then s.m.nextPlace o else s.m.phase o 2))) ∧
        (o.idx % 8 = 0 → rpN o.blk ≠ 0 → s.m.admits o.core o.ctx (.op o.id) = false →
          exec (.rgpush t a) s = .next (after s (s.m.enqueue o.core o.ctx (.op o.id)))) ∧
        (o.idx % 8 = 0 → rpN o.blk ≠ 0 → s.m.admits o.core o.ctx (.op o.id) = true → sound s.m →
          let row := Memory.read (s.m.core o.core).spad (rpRows o.blk + c.rowb * (o.idx / 8)) c.rowb
          let r := (s.m.dequeue o.core o.ctx (.op o.id)).putBatch o c (c.bufAt u.val k + c.rowb * n) row
          (r.1 = true → exec (.rgpush t a) s = .next (after s (tagStep (r.2.phase o 1) o c))) ∧
          (r.1 = false → exec (.rgpush t a) s = .next (after s r.2))) ∧
        (o.idx % 8 = 1 → exec (.rgpush t a) s = .next (after s (tagStep s.m o c))) ∧
        (o.idx % 8 = 2 → exec (.rgpush t a) s = .next (after s ((s.m.onGat d fun g => { g with held := (u.val, g.fill[u.val]) :: g.held }).phase o 3))) ∧
        (∀ x y, o.idx % 8 = 4 → s.m.barOf o.core (c.pbar.setWidth 64) true = some (x, y) →
          (s.m.admits x o.ctx (.op o.id) = false → exec (.rgpush t a) s = .next (after s (s.m.enqueue x o.ctx (.op o.id)))) ∧
          (s.m.admits x o.ctx (.op o.id) = true → exec (.rgpush t a) s =
            .next (after s (((s.m.dequeue x o.ctx (.op o.id)).arrive x y o.ctx).phase o 5)))) ∧
        (o.idx % 8 = 3 → g.dq.length < 256 → exec (.rgpush t a) s = .next (after s
          (((s.m.onGat d fun g => { g with dq := g.dq ++ [batchDesc c u.val (g.fill[u.val]).toNat g.cnt[u.val] g.gseq], gseq := g.gseq + 1 }).onOp o.id
            fun q => { q with nfault := q.nfault + 1 }).phase o 4))) ∧
        (o.idx % 8 = 3 → 256 ≤ g.dq.length → exec (.rgpush t a) s = .next s) ∧
        (o.idx % 8 = 5 → (u.val, !g.fill[u.val]) ∉ g.held → ∃ m' : Mach, exec (.rgpush t a) s = .next (after s m') ∧
          (m'.die d).gat.fill[u.val] = !g.fill[u.val] ∧ (m'.die d).gat.cnt[u.val] = 0 ∧ (m'.die d).gat.dq = g.dq ∧ (m'.die d).gat.held = g.held ∧
          ∀ v : Fin 1024, v ≠ u → (m'.die d).gat.fill[v.val] = g.fill[v.val] ∧ (m'.die d).gat.cnt[v.val] = g.cnt[v.val])))) ∧
  (∀ (m : Mach) (o : Op) (c : GCfg),
    let g := (m.die o.die).gat
    let u := bktAt c o (o.idx / 8)
    let n := g.cnt[u.val]
    let tag : BitVec 32 := ((o.handles[o.idx / 8]?).map (·.2)).getD 0
    let r := m.putBatch o c (c.bufAt u.val (g.fill[u.val]).toNat + c.thr * c.rowb + 4 * n) (leBytes 4 tag.toNat)
    let counted := r.2.onGat o.die fun g => { g with cnt := Machine.put g.cnt u (n + 1) }
    (r.1 = false → tagStep m o c = r.2) ∧
    (r.1 = true → n + 1 = c.thr → tagStep m o c = counted.phase o 2) ∧
    (r.1 = true → n + 1 ≠ c.thr → tagStep m o c = counted.nextPlace o)) ∧
  (∀ (m : Mach) (o : Op) (c : GCfg) (x : Nat) (bs : List Byte),
    let r := m.lookDesc (.gatherer o.die) o.ctx c.buft
    let halted (m : Mach) (n : Nat) : Bool × Mach :=
      (false, (m.stopped o.ctx c.buft n).2.onOp o.id fun q => { q with stop := (m.stopped o.ctx c.buft n).1 })
    (descOf r.1 = none → m.putBatch o c x bs = halted r.2 0) ∧
    (∀ d y, descOf r.1 = some d → r.2.tensorWrite (.gatherer o.die) o.ctx c.buft d x bs = y →
      (∀ n, y.1 = .error n → m.putBatch o c x bs = halted y.2 n) ∧ (∀ v, y.1 = .ok v → m.putBatch o c x bs = (true, y.2)))) ∧
  (∀ (m : Mach) (d : Fin 4) (o : Op) (rest : List Op), (m.ops.filter fun x => x.die = d && x.unit = .gatherer) = o :: rest →
    (∀ x ∈ o :: rest, x.fin = false) →
    let takes := rest.filter fun x => match x.instr with | .rgtakeTake _ _ | .rgtakeRelease _ _ => true | _ => false
    (m.pushWaits o = false → m.unitOp d .gatherer = some o) ∧
    (m.pushWaits o = true → m.unitOp d .gatherer = some (takes.head?.getD o)))

/-! ## Cupola -/

/-- R316, R332, R333: a Cupola that is not enabled ends its commands with DISABLED; an unbound slot gives STATE and
another context's NOTOWN; the commands on a bound slot change its record as each says. SMBIND is BUSY while the slot has a row
buffer open, or a row accepted before the command, which is one of a lower place (log entry 20), still to run; otherwise it
unbinds, or checks its fields, the slow-path ring and the program, and binds; SMSTAT reads the slot's record, or the registers.
The command's read of the slot's record is one of its context (R365, R366; log entry 122). -/
def Obligations.CupolaAppliesCommands : Prop :=
  ∀ (s : State) (d : Fin 4) (o : Op) (t : Tok) (a : Fin 32), unitActsOn s d .cupola o →
    let en := (s.m.die d).cup.en
    let slot := (blkW o.blk 0).toNat % 2 ^ 16
    let c := o.ctx
    let b := s.m.bind c d slot
    let m0 := s.m.noteBind c d slot
    let nb : Bind := (List.range 8).map fun k => blkW o.blk (4 + k)
    let onSlot := [Instr.clrslow t a, .addcnt t a, .clrcnt t a, .armv t a, .setstep t a]
    (en = false → ∀ i, i ∈ onSlot ++ [.smbind t a, .smrun t a, .smstat t a] → endsWith s o i 9) ∧
    (en = true → bdBound b = false → ∀ i, i ∈ onSlot ++ [.smrun t a] → endsOn s o i m0 4) ∧
    (en = true → bdBound b = true → bdCtx b ≠ c.val → ∀ i, i ∈ onSlot ++ [.smrun t a, .smbind t a] → endsOn s o i m0 5) ∧
    (slotOpen s.m o = true ↔ (∃ x ∈ (s.m.die o.die).cup.bufs, x.slot.toNat = slot) ∨
      ∃ x ∈ (s.m.die o.die).cup.accepted, x.slot.toNat = slot ∧ x.place < o.id) ∧
    (en = true → (bdBound b = true → bdCtx b = c.val) → slotOpen s.m o = true → endsOn s o (.smbind t a) m0 2) ∧
    (en = true → (bdBound b = true → bdCtx b = c.val) → slotOpen s.m o = false → (blkW o.blk 0).getLsbD 16 = true →
      ∃ m' : Mach, exec (.smbind t a) s = .next (ends s o m' 1 (BitVec.ofNat 32 slot)) ∧
        m'.dev = (m0.putBind c d slot (List.replicate 16 0)).dev ∧ ∀ p ∈ (m'.die d).cup.progs, p.1 ≠ BitVec.ofNat 16 slot) ∧
    (en = true → (bdBound b = true → bdCtx b = c.val) → slotOpen s.m o = false → (blkW o.blk 0).getLsbD 16 = false →
      (bindRange s.m o nb = true → endsOn s o (.smbind t a) m0 3) ∧
      (bindRange s.m o nb = false → s.m.slowRing d (bdV nb) = false → endsOn s o (.smbind t a) m0 7) ∧
      (bindRange s.m o nb = false → s.m.slowRing d (bdV nb) = true →
        let r := m0.access c (bdProg nb) (4 * bdNw nb)
        let ws := (List.range (bdNw nb)).map fun k => BitVec.ofNat 32 (leVal ((r.1.drop (4 * k)).take 4))
        (∀ k, badWord (bdAen nb) ws 0 false false = some k →
          exec (.smbind t a) s = .next (ends s o r.2 6 (BitVec.ofNat 32 k))) ∧
        (badWord (bdAen nb) ws 0 false false = none → ∃ m' : Mach,
          exec (.smbind t a) s = .next (ends s o m' 1 (BitVec.ofNat 32 slot)) ∧
          let put := r.2.putBind c d slot (nb ++ [BitVec.ofNat 64 (1 + c.val * 2 ^ 16), 0x3FFFF, 0, 0, 0, 0, 0, 0])
          m'.dev = (if (blkW o.blk 0).getLsbD 17 = true then put else put.clearCounts c nb).dev ∧ m'.cores = s.m.cores ∧
          ((m'.die d).cup.progs.find? fun p => p.1 = BitVec.ofNat 16 slot) = some (BitVec.ofNat 16 slot, ws) ∧
          ∀ p, p.1 ≠ BitVec.ofNat 16 slot → (p ∈ (m'.die d).cup.progs ↔ p ∈ (s.m.die d).cup.progs)))) ∧
    (en = true → bdBound b = true → bdCtx b = c.val →
      (∃ b' : Bind, (∀ j, j ≠ 8 → blkW b' j = blkW b j) ∧ (∀ n, n ≠ 1 → (blkW b' 8).getLsbD n = (blkW b 8).getLsbD n) ∧ bdSlow b' = false ∧
        exec (.clrslow t a) s = .next (ends s o (m0.putBind c d slot b') 1 (if bdSlow b then 1 else 0))) ∧
      (exec (.clrcnt t a) s = .next (ends s o (m0.clearCounts c b) 1 0)) ∧
      (bdV b ≤ stTok o.blk → endsOn s o (.addcnt t a) m0 3) ∧
      (stTok o.blk < bdV b → ∀ n m', (m0.noteCounts c b).addCount c b (stTok o.blk) (stN o.blk) = some (n, m') →
        exec (.addcnt t a) s = .next (ends s o m' 1 (BitVec.ofNat 32 n))) ∧
      (15 < stN o.blk → endsOn s o (.armv t a) m0 3) ∧
      (stN o.blk ≤ 15 → ∃ b' : Bind, (∀ j, j ≠ 8 → blkW b' j = blkW b j) ∧ bdVst b' = 1 ∧ bdVpos b' = 0 ∧ bdVacc b' = 0 ∧ bdNd b' = stN o.blk ∧
        bdCtx b' = bdCtx b ∧ exec (.armv t a) s = .next (ends s o (m0.putBind c d slot b') 1 (BitVec.ofNat 32 (stN o.blk)))) ∧
      (∃ b' : Bind, (∀ j, j ≠ 5 → blkW b' j = blkW b j) ∧ bdStep b' = stN o.blk ∧ bdV b' = bdV b ∧ bdSlc b' = bdSlc b ∧
        exec (.setstep t a) s = .next (ends s o (m0.putBind c d slot b') 1 (BitVec.ofNat 32 (bdStep b)))) ∧
      ((blkW o.blk 3).toNat % 2 ^ 22 + 4 * bdV b ≤ 0x300000 → ∃ m' : Mach, exec (.smrun t a) s = .next (after s m') ∧
        (m'.die d).cup.accepted = (s.m.die d).cup.accepted ++ [⟨BitVec.ofNat 16 slot, s.m.nextId, c, [], some o.id, none⟩] ∧ m'.nextId = s.m.nextId + 1 ∧
        m'.ops = s.m.ops.map (fun q => if q.id = o.id then { q with begun := true } else q) ∧ m'.dev = s.m.dev ∧ m'.cores = s.m.cores)) ∧
    (en = true → (blkW o.blk 0).getLsbD 16 = true → (blkW o.blk 3).toNat % 2 ^ 22 % 64 = 0 → (blkW o.blk 3).toNat % 2 ^ 22 + 48 ≤ 0x300000 →
      exec (.smstat t a) s = .next (ends s o (s.m.onOp o.id fun q => { q with sdesc := (s.m.die d).cup.words }) 1 0)) ∧
    (en = true → (blkW o.blk 0).getLsbD 16 = false → let out := (blkW o.blk 3).toNat % 2 ^ 22
      (bdBound b = false → endsOn s o (.smstat t a) m0 4) ∧
      (bdBound b = true → bdCtx b ≠ c.val → endsOn s o (.smstat t a) m0 5) ∧
      (bdBound b = true → bdCtx b = c.val →
        (out % 64 = 0 → out + 128 ≤ 0x300000 →
          exec (.smstat t a) s = .next (ends s o (m0.onOp o.id fun q => { q with sdesc := b }) 1 (BitVec.ofNat 32 slot))) ∧
        (out % 64 ≠ 0 ∨ 0x300000 < out + 128 → endsOn s o (.smstat t a) m0 3)))

/-- R317, R322, R323, R328, R334: a segment for an unbound slot is dropped and counted; one that does not close its row
stays in the row's buffer (which is no device memory: log entry 68); a row that closes is accepted, before the commands
of its clock, so where one has come already the row closes one clock later (log entry 102); a row runs its program to
its end, is recorded and leaves the accepted rows. A row waits for the rows and commands that its slot accepted before
it, and behind an earlier row of the die that waits for the slow-path ring (log entry 77). R319, R321, R325 to R327,
R330, R331: what each word of a program does: the transforms token by token, the coarse stage before the first cut or
pick, the cuts, the picks, the count and the posts. (The NaN of an invalid operation of Cupola: log entry 19; bits that
a bias entry does not assign: 97; the reads are of the row's context, log entry 122.) -/
def Obligations.CupolaTakesSegmentsAndRunsRows : Prop :=
  (∀ (s : State) (d : Fin 4), s.boot.state = 2 → (s.m.die d).cup.port = [] → exec (.segment d) s = .next s) ∧
  (∀ (s : State) (d : Fin 4) (x : Segment) rest, s.boot.state = 2 → (s.m.die d).cup.port = x :: rest →
    let b := s.m.bind x.ctx d x.slot.toNat
    ((s.m.die d).cup.en = false →
      exec (.segment d) s = .next (after s (s.m.onCup d fun u => { u with port := rest, segdrop := sat32 u.segdrop }))) ∧
    ((s.m.die d).cup.en = true → (s.m.die d).cup.bufs.length < 64 → (bdBound b = false ∨ bdCtx b ≠ x.ctx.val) →
      exec (.segment d) s = .next (after s (((s.m.onCup d fun u => { u with port := rest }).noteBind x.ctx d x.slot.toNat).onCup d
        fun u => { u with segdrop := sat32 u.segdrop }))) ∧
    ((s.m.die d).cup.en = true → bdBound b = true → bdCtx b = x.ctx.val → (s.m.die d).cup.bufs = [] → x.vidx + x.vals.length ≤ bdV b →
      let n := if x.last then 1 else 0
      let ents := (x.vals.zipIdx.map fun p => (x.vidx + p.2, p.1)).reverse
      (n < bdNlast b → ∃ m' : Mach, exec (.segment d) s = .next (after s m') ∧ (m'.die d).cup.port = rest ∧ m'.dev = s.m.dev ∧
        (m'.die d).cup.bufs = [⟨x.slot, x.ctx, ents, n⟩] ∧ (m'.die d).cup.accepted = (s.m.die d).cup.accepted) ∧
      (bdNlast b ≤ n → ∃ m' : Mach, exec (.segment d) s = .next (after s m') ∧ (m'.die d).cup.port = rest ∧
        m'.dev = s.m.dev ∧ (m'.die d).cup.bufs = [] ∧
        (m'.die d).cup.accepted = (s.m.die d).cup.accepted ++ [⟨x.slot, s.m.nextId, x.ctx, ents, none, none⟩] ∧
        let late := outOfTurn (s.m.die d).took[(unitIx .cupola).val] (s.m.die d).cycle 0
        (late → (m'.die d).cycle = (s.m.die d).cycle + 1) ∧ (¬ late → (m'.die d).cycle = (s.m.die d).cycle)))) ∧
  (∀ (s : State) (d : Fin 4) (k : Nat) (r : Row), s.boot.state = 2 → (s.m.die d).cup.accepted[k]? = some r →
    (s.m.rowNext d r = false → exec (.rowRun d k) s = .next s) ∧
    (∀ tok, s.m.rowNext d r = true → r.res = some tok → exec (.rowRun d k) s = .next (after s (s.m.closeRow d r tok))) ∧
    (∀ o, s.m.rowNext d r = true → r.res = none → r.ents = [] → r.op.bind s.m.findOp = some o →
      exec (.rowRun d k) s = .next (after s (s.m.readRow d r o))) ∧
    let b := s.m.bind r.ctx d r.slot.toNat
    (s.m.rowNext d r = true → r.res = none → (r.ents ≠ [] ∨ r.op = none) →
      (bdSlow b = true → exec (.rowRun d k) s = .next (after s (s.m.divertRow d r b 0 none (rowLogits r (bdV b))))) ∧
      (bdSlow b = false → ∀ ws x, (((s.m.die d).cup.progs.find? fun p => p.1 = r.slot).map (·.2)).getD [] = ws →
        let start : LgRun := ⟨s.m.noteRow r.ctx d r.slot.toNat b ws, b, rowLogits r (bdV b), none, [], false, none, 0, false⟩
        (LgRun.go r.ctx d r.slot.toNat ws 0 start = .stop x →
          exec (.rowRun d k) s = .next (after s (x.m.endRow d r x.b x.tok x.outc))) ∧
        (∀ w, LgRun.go r.ctx d r.slot.toNat ws 0 start = .divert w x →
          exec (.rowRun d k) s = .next (after s (x.m.divertRow d r b w (x.cs.bind id) (if w = 0 then rowLogits r (bdV b) else x.xs))))))) ∧
  (∀ (c : Fin 64) (d : Fin 4) (slot i : Nat) (w : BitVec 32) (ws : List (BitVec 32)) (r : LgRun),
    let op := w.toNat / 2 ^ 28
    let on (r' : LgRun) : LgEnd := LgRun.go c d slot ws (i + 1) r'
    let here := LgRun.go c d slot (w :: ws) i r
    let dv := cupNan r.m
    let a := f32 (lgLane w)
    LgRun.go c d slot [] i r = .stop r ∧ (op = 0 → here = on r) ∧ (op = 15 → here = .stop r) ∧
    (1 ≤ op → op ≤ 6 → ∃ xs : List Lane, here = on { r with xs := xs } ∧ xs.length = r.xs.length ∧
      ∀ t x, r.xs[t]? = some x →
        let n := r.m.countOf c r.b t
        let bias := ((List.range (bdNbias r.b)).map fun k => r.m.devW (r.m.sec c) (bdBib r.b + 8 * k)).filter fun e =>
          e.toNat % 2 ^ 18 = t && decide (t < bdV r.b)
        xs[t]? = some (match op with
          | 1 => toF32 ((f32 x).mul dv a)
          | 2 => if n = 0 then x else if zero.lt (f32 x) then toF32 ((f32 x).div dv a) else toF32 ((f32 x).mul dv a)
          | 3 => if w.getLsbD 16 = true then (if n = 0 then x else toF32 ((f32 x).sub .rne dv a))
                 else toF32 ((f32 x).sub .rne dv (a.mul dv (.ofInt n)))
          | 4 => bias.foldl (fun y e => toF32 ((f32 y).add .rne dv (f32 (BitVec.ofNat 32 (e.toNat / 2 ^ 32))))) x
          | 5 => if (r.m.devByte (r.m.sec c) (bdAlb r.b + t / 8)).getLsbD (t % 8) = true then x else negInf
          | _ => toF32 (a.mul dv (f32 (vsf .tanh dv (toF32 ((f32 x).div dv a))))))) ∧
    (7 ≤ op → op ≤ 12 → let r := r.stage
      (r.cs = some none → here = on (if 10 ≤ op then { r with tok := none, outc := 7 } else r)) ∧
      (∀ k, r.cs = some (some k) →
        let draw := r.draw slot 1 (lgCands r.kept)
        let armed : Prop := bdVst r.b = 1 ∧ bdVpos r.b < bdNd r.b ∧ lineOk (bdV r.b) (r.line c) = true
        (op ≤ 9 → (lgCut k r.out w r.kept = none → here = .divert i r) ∧
          ∀ l, lgCut k r.out w r.kept = some l → here = on { r with kept := l, out := false }) ∧
        (op = 10 → here = on { r with tok := some k.g, outc := 2 }) ∧
        (op = 12 → bdVst r.b = 2 → here = .stop { r with outc := 5 }) ∧
        (op = 11 ∨ (op = 12 ∧ bdVst r.b ≠ 2) →
          (lgShort k r.out = true ↔ r.out = true ∧ k.ms * 2 ^ 20 < (2 ^ 20 - 1) * k.df) ∧ (lgShort k r.out = true → here = .divert i r)) ∧
        (lgShort k r.out = false → op = 11 ∨ bdVst r.b = 0 → 11 ≤ op → here = on draw) ∧
        (lgShort k r.out = false → op = 12 → bdVst r.b = 1 → ¬ armed → here = on draw.endGroup) ∧
        (lgShort k r.out = false → op = 12 → armed → here = on (r.verify slot (r.line c))))) ∧
    (op = 13 →
      (r.tok = none → here = on r) ∧
      (∀ t n m', r.tok = some t → r.m.addCount c r.b t 1 = some (n, m') → here = on { r with m := m' }) ∧
      (∀ t, r.tok = some t → r.m.addCount c r.b t 1 = none →
        here = on { r with m := r.m.onCup d fun u => { u with ctfull := sat32 u.ctfull } })) ∧
    (op = 14 → let gp (v : Nat) : LgRun :=
        { r with m := (r.m.atGp c (gpCup d)).onCtx c fun x => { x with gp := Machine.put x.gp (Fin.ofNat 64 (w.toNat % 2 ^ 6)) (BitVec.ofNat 64 v) } }
      (w.getLsbD 6 = false → here = on (gp (match r.tok with | some t => t % 2 ^ 32 | none => 2 ^ 32 - 1))) ∧
      (w.getLsbD 6 = true → r.ended = true → here = on (gp (bdVacc r.b))) ∧
      (w.getLsbD 6 = true → r.ended = false → here = on r))) ∧
  (∀ (r : LgRun), (r.cs ≠ none → r.stage = r) ∧
    (r.cs = none → let k := coarse (cupNan r.m) (32 * 2 ^ bdSlc r.b) r.xs
      (k = none → r.stage = { r with cs := some none }) ∧
      (∀ x, k = some x → r.stage = { r with cs := some (some x), kept := lgKept x, out := decide (0 < x.x) }))) ∧
  (∀ (dv : Lane) (n : Nat) (row : List Lane),
    let xs := row.map lgClean
    (coarse dv n row = none ↔ ∀ x ∈ xs, (f32 negInf).lt (f32 x) = false) ∧
    (∀ k, coarse dv n row = some k → xs[k.g]? = some k.m ∧ (∀ x ∈ xs, (f32 k.m).lt (f32 x) = false) ∧
      (∀ t x, t < k.g → xs[t]? = some x → (f32 x).lt (f32 k.m) = true) ∧
      k.ms = ((k.toks.filter (·.sl)).map (·.w)).sum ∧ (∀ y ∈ k.toks, y.w = fix40 (f32 y.e)) ∧
      k.toks.map (·.t) = List.range row.length)) ∧
  (∀ (k : Coarse) (out : Bool) (w : BitVec 32) (kept : List LgTok),
    let v := f32 (lgLane w)
    let n := w.toNat % 2 ^ 28
    let above (x : LgTok) : Prop := (f32 k.eout).lt (f32 x.e) = true
    (w.toNat / 2 ^ 28 = 7 →
      (lgCut k out w kept = none ↔ out = true ∧ ∀ x, (kept.filter (·.sl))[n - 1]? = some x → ¬ above x) ∧
      ∀ l, lgCut k out w kept = some l → l = kept.take n) ∧
    (w.toNat / 2 ^ 28 = 9 →
      (lgCut k out w kept = none ↔ out = true ∧ (f32 k.eout).lt v = false) ∧
      ∀ l, lgCut k out w kept = some l → l = kept.filter fun x => !(f32 x.e).lt v) ∧
    (w.toNat / 2 ^ 28 = 8 → ∀ x, v = .fin x →
      let p (m a : Nat) : Prop := x.man * 2 ^ x.exp.toNat * m ≤ a * 2 ^ (-x.exp).toNat
      let mk := if out = true then k.df else (kept.map (·.w)).sum
      let meets (i : Nat) : Prop := i < kept.length ∧ p mk (((kept.take (i + 1)).map (·.w)).sum)
      (out = true → ¬ p k.df k.ms → lgCut k out w kept = none) ∧
      ∀ i y, meets i → (∀ j, j < i → ¬ meets j) → kept[i]? = some y →
        (out = true → ¬ above y → lgCut k out w kept = none) ∧
        ((out = true → p k.df k.ms ∧ above y) → lgCut k out w kept =
          some ((kept.zipIdx.filter fun q => decide (q.2 < i) || decide (q.1.e = y.e)).map (·.1))))) ∧
  (∀ (r : LgRun) (slot outc : Nat) (cs : List (Nat × Nat)),
    let u := lgRandom (blkW r.b 4) (bdStep r.b) slot 2
    let total := (cs.map (·.2)).sum
    let run (i : Nat) := ((cs.take (i + 1)).map (·.2)).sum
    (total = 0 → r.draw slot outc cs = { r with tok := none, outc := 7 }) ∧
    (∀ i x, 0 < total → cs[i]? = some x → u * total / 2 ^ 32 < run i → (∀ j, j < i → run j ≤ u * total / 2 ^ 32) →
      r.draw slot outc cs = { r with tok := some x.1, outc := outc })) ∧
  (∀ (r : LgRun) (slot : Nat) (d : Nat) (q : Lane) (x : Exact) (rest : List LgPair), f32 q = .fin x →
    let cs := lgCands r.kept
    let mk := (cs.map (·.2)).sum
    let ed := ((cs.find? fun y => y.1 = d).map (·.2)).getD 0
    let u := lgRandom (blkW r.b 4) (bdStep r.b) slot 3
    let accepted : Prop := x.man * 2 ^ x.exp.toNat * (u * mk) < ed * 2 ^ 32 * 2 ^ (-x.exp).toNat
    let r' := r.verify slot ((d, q) :: rest)
    8 < r.b.length →
    (accepted → r'.tok = some d ∧ r'.outc = 3 ∧ r'.ended = r.ended ∧ r'.m = r.m ∧
      (bdVacc r.b < 15 → bdVacc r'.b = bdVacc r.b + 1) ∧ (bdVpos r.b < 15 → bdVpos r'.b = bdVpos r.b + 1)) ∧
    (¬ accepted → r'.ended = true ∧ bdVst r'.b = 2 ∧ (r'.outc = 4 ∨ (r'.tok = none ∧ r'.outc = 7)))) ∧
  (∀ (m : Mach) (d : Fin 4) (r : Row), m.rowNext d r = true ↔
    (∀ x ∈ (m.die d).cup.accepted, x.slot = r.slot → r.place ≤ x.place) ∧
    (∀ o ∈ m.ops, o.die = d → o.unit = .cupola → o.begun = false → o.fin = false → o.id < r.place → (blkW o.blk 0).toNat % 2 ^ 16 ≠ r.slot.toNat) ∧
    (r.acc ∉ (m.die d).cup.stall → ∀ x ∈ (m.die d).cup.accepted, x.acc < r.acc → x.acc ∉ (m.die d).cup.stall)) ∧
  (∀ (m : Mach) (d : Fin 4) (r : Row) (o : Op), m.admits o.core r.ctx (.row d r.acc) = true → (m.core o.core).clean = true →
    let v := bdV (m.bind r.ctx d r.slot.toNat)
    let a := (blkW o.blk 3).toNat % 2 ^ 22
    m.readRow d r o = (m.dequeue o.core r.ctx (.row d r.acc)).onCup d fun u => { u with accepted := u.accepted.map fun x =>
      if x.acc = r.acc then { x with ents := (List.range v).map fun t => (t, Memory.readL (m.core o.core).spad (a + 4 * t)) } else x }) ∧
  (∀ (m : Mach) (d : Fin 4) (r : Row) tok, bdRben (m.bind r.ctx d r.slot.toNat) = false → r.op = none →
    m.closeRow d r tok = m.onCup d fun u => { u with accepted := u.accepted.filter fun x => x.acc ≠ r.acc }) ∧
  (∀ (m : Mach) (d : Fin 4) (r : Row) (b : Bind) w k xs, let u := (m.die d).cup
    m.admits (Fin.ofNat 256 u.score.toNat) r.ctx (.row d r.acc) = false →
    m.divertRow d r b w k xs = (m.enqueue (Fin.ofNat 256 u.score.toNat) r.ctx (.row d r.acc)).onCup d fun u =>
      { u with stall := if u.stall.contains r.acc then u.stall else r.acc :: u.stall })

/-! ## Campanile -/

/-- R301 to R311: an operation that Campanile has not begun ends with DISABLED where it is not enabled, and otherwise is
begun with what its own rule gives, its DOUT in every case where it has one; where a BTAPP lists blocks of other dies it
is begun with their checks there, and goes on when they have answered. A step for a block of another die is applied
there, after those that its core sent there before it; reports mark their block. (BALLOC's DONE is N: log entry 62. The
list is read as the operation begins, and NOTOWN comes before DISABLED for a handle: log entry 61. Blocks of other dies
in a BTAPP, and the order in which the Campaniles accept what one step reads or changes: log entry 99. The slot that DOUT's
digest takes its LTPB from: log entry 98. Metadata that stays unreadable gives up the operation, and a report that meets it:
log entry 83. REF past 65,535 in a BTFORK or a BHFIND: log entry 109.) -/
def Obligations.CampanileAppliesOperations : Prop :=
  (∀ (s : State) (d : Fin 4) (o : Op) (i : Instr), unitActsOn s d .campanile o → o.instr = i → campInstr i = true → o.begun = false → sound s.m →
    (listBytes s.m o = 0 ∨ open' s.m o.core o.ctx) →
    let m1 := (if listBytes s.m o = 0 then s.m else s.m.dequeue o.core o.ctx (.op o.id)).acceptStep o
    (stepHandles s.m o = [] → listBytes s.m o = 0 → m1 = s.m.takesIn d .campanile (1 + o.core.val)) ∧
    ((s.m.die d).camp.en = false → ∃ v, exec i s = .next (campBegun s o (CampOut.withDout o { m := m1, code := 12, value := v }))) ∧
    ((s.m.die d).camp.en = true → ∀ n r, campN m1 o = some n → campDo m1 o n = r →
      (lostPools r.m ≠ [] → ∃ v, exec i s =
        .next (campBegun s o (CampOut.withDout o { m := m1.giveUp o.ctx (lostPools r.m), code := 11, value := v }))) ∧
      (lostPools r.m = [] →
      (r.check = [] → exec i s = .next (campBegun s o (r.withDout o))) ∧
      (r.check ≠ [] → exec i s = .next (after s ((r.m.onOp o.id fun q =>
        { q with begun := true, sdesc := [1], idx := remoteCount o r.check, handles := r.check.map fun h => (0, h) }).sendList o r.check .check)))))) ∧
  (∀ (s : State) (d : Fin 4) (o : Op) (i : Instr) (r : CampOut), unitActsOn s d .campanile o → o.instr = i → campInstr i = true → o.begun = true →
    appList s.m o (o.handles.map (·.2)) (o.elems.map fun e => (e.1, e.2 % 256)) = r → lostPools r.m = [] →
    let n := if r.code = 1 then remoteCount o (o.handles.map (·.2)) else 0
    let m := r.m.onOp o.id fun q => { q with sdesc := [], lanes := r.words, idx := n, elems := [], handles := [], fin := n = 0 }
    exec i s = .next (after s (if n = 0 then m else m.sendList o (o.handles.map (·.2)) .commit))) ∧
  (∀ (m : Mach) (o : Op) (n : Nat) (t : Tok) (a : Fin 32),
    let p := cbPool o.blk
    let q := (m.die o.die).camp.pools[p.val]
    o.instr = .balloc t a → q.fail = false → q.pen = true → q.ctx.toNat = o.ctx.val →
    (q.fcnt.toNat < n → (campDo m o n).code = 2 ∧ (campDo m o n).m = m) ∧
    (n ≤ q.fcnt.toNat → (campDo m o n).code = 1 ∧ (campDo m o n).done = n ∧ ((campDo m o n).give).length = n ∧
      ((((campDo m o n).m.die o.die).camp.pools[p.val]).fcnt = q.fcnt - BitVec.ofNat 26 n))) ∧
  (∀ (m : Mach) (c : Fin 64) (h : BitVec 32),
    let w := (m.bw c h).1
    let m1 := (m.bw c h).2
    let add := m.addRef c h
    let drop := m.dropRef c h
    (bwRef w = 0 → add.code = 7 ∧ add.m = m1 ∧ drop.code = 7 ∧ drop.m = m1) ∧
    (bwRef w = 65535 → add.code = 6 ∧ add.m = m1) ∧
    (0 < bwRef w → bwRef w < 65535 → add.code = 1 ∧ add.m = m1.setBw c h (bwOf (bwRef w + 1) (bwCmt w) (bwErr w) (bwRet w) (bwPub w))) ∧
    (1 < bwRef w → drop.code = 1 ∧ drop.freed = false ∧ drop.m = m1.setBw c h (bwOf (bwRef w - 1) (bwCmt w) (bwErr w) (bwRet w) (bwPub w))) ∧
    (bwRef w = 1 → drop.code = 1 ∧ drop.freed = true) ∧
    (bwRef w ≠ 65535 → m.raiseRef c h = m1.setBw c h (bwOf (bwRef w + 1) (bwCmt w) (bwErr w) (bwRet w) (bwPub w))) ∧
    (m.devBad = [] → m.devGlitch = [] → m.violates c (m.bwAddr h) 4 = false → m1 = m)) ∧
  (∀ (s : State) (d : Fin 4), s.boot.state = 2 →
    (∀ k x, (s.m.die d).camp.remote[k]? = some x →
      let m := (s.m.onCamp d fun c => { c with remote := c.remote.eraseIdx k }).takesIn d .campanile (1 + x.core.val)
      ((∃ y ∈ (s.m.die d).camp.remote.take k, y.core = x.core) → exec (.remoteListElement d k) s = .next s) ∧
      ((∀ y ∈ (s.m.die d).camp.remote.take k, y.core ≠ x.core) →
        (s.m.findOp x.op = none → exec (.remoteListElement d k) s = .next (after s m)) ∧
        (∀ o, s.m.findOp x.op = some o → let r := m.applyRef o.ctx x.handle x.what
          exec (.remoteListElement d k) s = .next (after s (r.m.noteRef o.id x.idx r.code r.freed))))) ∧
    ((s.m.die d).camp.reports = [] → exec (.uncorrectableReport d) s = .next s) ∧
    (∀ h rest, (s.m.die d).camp.reports = h :: rest →
      let m := s.m.onCamp d fun c => { c with reports := rest }
      let c := toCtx (m.poolOf h).ctx.toNat
      let w := (m.bw c h).1
      let m1 := (m.bw c h).2
      (lostPools m1 ≠ [] → exec (.uncorrectableReport d) s = .next (after s (m.giveUp c (lostPools m1)))) ∧
      (lostPools m1 = [] →
        (bwRef w = 0 ∨ bwRet w = true → exec (.uncorrectableReport d) s = .next (after s m1)) ∧
        (bwRef w ≠ 0 → bwRet w = false → bwCmt w = false → exec (.uncorrectableReport d) s =
          .next (after s (m1.setBw c h (bwOf (bwRef w) false true false (bwPub w))))) ∧
        (bwRef w ≠ 0 → bwRet w = false → bwCmt w = true → ∃ m' : Mach, exec (.uncorrectableReport d) s = .next (after s m') ∧
          m'.dev = (m1.setBw c h (bwOf (bwRef w) true (bwErr w) true (bwPub w))).dev ∧
          (m'.die d).camp.retired = sat32 (m1.die d).camp.retired ∧
          ∀ e : Fin 4, (m'.die e).camp.quar = (m1.die e).camp.quar ++ [h]))) ∧
    ((s.m.die d).camp.quar = [] → exec (.quarantine d) s = .next s) ∧
    (∀ h rest, (s.m.die d).camp.quar = h :: rest → (s.m.die d).camp.en = false →
      exec (.quarantine d) s = .next (after s (s.m.onCamp d fun c => { c with quar := rest }))) ∧
    (∀ h rest, (s.m.die d).camp.quar = h :: rest → (s.m.die d).camp.en = true → s.m.devBad = [] → s.m.devGlitch = [] →
      let m := s.m.onCamp d fun c => { c with quar := rest }
      let c := toCtx (m.poolOf h).ctx.toNat
      let looks (m : Mach) (n : Nat) : Mach :=
        let q := m.slotRead c d n
        let m' := m.noteEntries c q 0 q.nec
        if q.opened && q.ctx = c.val then (if (m'.entries c q 0 q.nec).contains h then m'.quarantine c d n else m') else m
      (∀ n, n < 65536 → m.violates c (m.slotAddr d n) 32 = false) →
      exec (.quarantine d) s = .next (after s ((List.range 65536).foldl looks m)))) ∧
  (∀ (m : Mach) (c : Fin 64) (d : Fin 4) (n : Nat), let m' := m.quarantine c d n
    ((m.slotRead c d n).quar = true → m' = m) ∧
    ((m.slotRead c d n).quar = false → (m'.die d).camp.qslot = BitVec.ofNat 16 n ∧ (m'.die d).camp.qcnt = sat32 (m.die d).camp.qcnt))

/-! ## Lantern -/

/-- R343, R344, R348 to R350, R352: the control steps of a program, its cells, the wait for an arrival, the data steps, a send's
end, the ends of programs, the start of the program at the head of the queue, and the snapshot. A step that meets a tile that is
not present applies the elements before it and stops there. (LNRRS looks for its peer before it reduces: log entry 79; the
streams of its messages and their COUNT: log entry 94.) -/
def Obligations.LanternRunsItsProgram : Prop :=
  (∀ (s : State) (d : Fin 4) (r : LnRun), lanternRuns s d r →
    (∀ k n, n ≠ 0 → exec (.lnloop k n) s = .next (withRun s s.m d (atWord { r with cnt := put r.cnt k 0 } (r.pc + 1)))) ∧
    (∀ k, exec (.lnloop k 0) s = .next (withRun s s.m d (atWord { r with cnt := put r.cnt k 0 } (loopEnd r.words k r.pc + 1)))) ∧
    (∀ k j n, loopBefore r.words k r.pc = some (j, n) → exec (.lnendl k) s = .next (withRun s s.m d
      (atWord { r with cnt := put r.cnt k (r.cnt[k.val] + 1) } (if (r.cnt[k.val] + 1).toNat < n then j + 1 else r.pc + 1)))) ∧
    (∃ m' : Mach, exec .lnend s = .next (after s m') ∧ (m'.die d).lan.run = none ∧
      ∃ o : Op, m'.ops = s.m.ops ++ [o] ∧ o.core = r.prog.core ∧ o.base = r.prog.base ∧ o.fin = true ∧ o.unit = .lantern ∧ o.die = d ∧
        o.lanes[0]? = some (if r.poisoned then 2 else 1)) ∧
    (∀ cell t, s.m.cellCore 0 (cell.setWidth 64) = some t →
      let x := eaByte (cell.setWidth 64)
      let par := (Memory.readW (s.m.core t).spad x).getLsbD 63
      (open' s.m t r.prog.ctx →
        let m1 := s.m.dequeue t r.prog.ctx (.lan d)
        exec (.lnsig cell) s = .next (after s ((m1.arrive t x r.prog.ctx).goStep d (r.pc + 1))) ∧
        ∀ p, (s.m.core t).clean = true →
          (par = p → exec (.lnwait cell p) s = .next (withRun s m1 d (atWord r (r.pc + 1)))) ∧
          (par ≠ p → exec (.lnwait cell p) s = .next (withRun s m1 d { r with wait := some (t, x) }))) ∧
      (s.m.admits t r.prog.ctx (.lan d) = false → ∀ p i, i = .lnsig cell ∨ i = .lnwait cell p →
        exec i s = .next (after s (s.m.enqueue t r.prog.ctx (.lan d))))) ∧
    (∀ f : LnData,
      let ch := (Fin.ofNat 16 f.ch.toNat : Fin 16)
      let sa := (lnPlace r f).sa
      let da := (lnPlace r f).da
      let sz := ldSize (lnPlace r f).desc
      let n := ldN (lnPlace r f).desc
      let good (bs : List (Byte × Bool)) : Prop := ∀ b ∈ bs, b.2 = false
      (r.got = false → (s.m.die d).lan.arr[ch.val] = (s.m.die d).lan.con[ch.val] → exec (.lnrecv f) s = .next s) ∧
      (r.got = false → (s.m.die d).lan.arr[ch.val] ≠ (s.m.die d).lan.con[ch.val] → f.cv = 0 → ∃ m' : Mach, exec (.lnrecv f) s = .next (after s m') ∧
        (m'.die d).lan.run = some (atWord r (r.pc + 1)) ∧ (m'.die d).lan.con[ch.val] = (s.m.die d).lan.con[ch.val] + 1 ∧
        (m'.die d).lan.arr = (s.m.die d).lan.arr ∧ m'.dev = s.m.dev ∧ m'.cores = s.m.cores) ∧
      (r.idx = 2 → s.m.sending (r.prog.id + 1) = true → exec (.lnsend f) s = .next s ∧ exec (.lnrrs f) s = .next s) ∧
      (r.idx = 2 → s.m.sending (r.prog.id + 1) = false →
        exec (.lnsend f) s = .next (withRun s s.m d (atWord r (r.pc + 1))) ∧ exec (.lnrrs f) s = .next (withRun s s.m d (atWord r (r.pc + 1)))) ∧
      (r.idx = 0 → lnPeer r f = none → ∀ i, i = .lnsend f ∨ i = .lnrrs f → ∃ m' : Mach, exec i s = .next (after s m') ∧ (m'.die d).lan.run = none ∧
        ∃ o : Op, m'.ops = s.m.ops ++ [o] ∧ o.core = r.prog.core ∧ o.fin = true ∧ o.lanes = [4, BitVec.ofNat 32 r.pc]) ∧
      (f.cv = 0 → r.done = 0 → 0 < sz → 0 < n → ∀ (ps qs : List (Nat × Nat)) (at' : Option Nat) (bs : List (Byte × Bool)) (m1 m2 m3 : Mach),
        s.m.heapLook d sa (n * sz) = (ps, at', m1) → m1.heapLook d da (n * sz) = (qs, none, m2) →
        (at' = none → m2.heapRead d (trimPieces ps (n * sz)) = (bs, m3) → good bs → bs.length = n * sz →
          exec (.lncopy f) s = .next (after s ((m3.heapWrite d da (bs.map (·.1))).2.goStep d (r.pc + 1)))) ∧
        (∀ t, at' = some t → let k := (ps.map (·.2)).sum / sz
          k < n → m2.heapRead d (trimPieces ps (k * sz)) = (bs, m3) → good bs → bs.length = k * sz →
          exec (.lncopy f) s = .next (after s
            (((if k = 0 then m3 else (m3.heapWrite d da (bs.map (·.1))).2).onRun d fun x => { x with done := k }).stopRun d t)))) ∧
      (f.cv = 0 → r.idx = 0 → r.done = 0 → 0 < sz → 0 < n → ∀ (p : BitVec 10 × Fin 4) (ps : List (Nat × Nat)) (bs : List (Byte × Bool)) (m1 m2 : Mach),
        lnPeer r f = some p → s.m.heapLook d sa (n * sz) = (ps, none, m1) → m1.heapRead d (trimPieces ps (n * sz)) = (bs, m2) → good bs →
        bs.length = n * sz →
        let c := (bs.length + 4095) / 4096
        ∃ (m' : Mach) (new : List OutMsg) (y : OutMsg), exec (.lnsend f) s = .next (after s m') ∧ m'.dev = m2.dev ∧
          (m'.die d).lan.run = (m2.die d).lan.run.map (fun x => { x with idx := 2 }) ∧ m'.outbox = m2.outbox ++ new ++ [y] ∧ new.length = c ∧
          (∀ j z, new[j]? = some z → z.tag = r.prog.id + 1 ∧ z.msg.kind = 3 ∧ z.msg.dpkg = p.1 ∧ z.msg.dcore = BitVec.ofNat 8 p.2.val ∧
            z.msg.addr = BitVec.ofNat 48 (da + 4096 * j) ∧ z.msg.payload = ((bs.map (·.1)).drop (4096 * j)).take 4096) ∧
          y.tag = r.prog.id + 1 ∧ y.msg.kind = 4 ∧ y.msg.dpkg = p.1 ∧ y.msg.dcore = BitVec.ofNat 8 p.2.val ∧ y.msg.ch = f.ch ∧
          y.msg.count = countOf m2.outStreams p.1 (lanStream d p.2 f.ch) + BitVec.ofNat 32 c) ∧
      (f.cv = 0 → r.idx = 0 → r.got = true → r.done = 0 → 0 < n →
        ∀ (p : BitVec 10 × Fin 4) (ps qs : List (Nat × Nat)) (ts es : List (Byte × Bool)) (m1 m2 m3 m4 : Mach), lnPeer r f = some p →
        s.m.heapLook d da (n * sz) = (ps, none, m1) → m1.heapLook d sa (n * sz) = (qs, none, m2) →
        m2.heapRead d (trimPieces ps (n * sz)) = (ts, m3) → good ts → m3.heapRead d (trimPieces qs (n * sz)) = (es, m4) → good es →
        let new := ((elemsOf sz es).zip (elemsOf sz ts)).zipIdx.map fun q => lnReduce f (ldType (lnPlace r f).desc) r.prog.pc q.2 q.1.1.1 q.1.2.1
        exec (.lnrrs f) s = .next (after s ((m4.heapWrite d sa (bytesOf sz new)).2.onRun d fun x => { x with idx := 1, done := 0 }))) ∧
      (∀ (a b e : Nat) (pc : PAddr), f.rop = 0 → lnReduce f 10 pc e a b = (a + b) % 2 ^ 32 ∧ lnReduce f 11 pc e a b = (a + b) % 2 ^ 64) ∧
      (∀ (ty e a b : Nat) (pc : PAddr) (x y : Bool), x = true ∨ y = true → reduceAll f ty pc e [(a, x)] [(b, y)] = [0]))) ∧
  (∀ (s : State) (d : Fin 4), s.boot.state = 2 →
    ((s.m.die d).lan.queue = [] ∨ (s.m.die d).lan.run.isSome = true → exec (.lanternProgramStart d) s = .next s) ∧
    (∀ p rest, (s.m.die d).lan.queue = p :: rest → (s.m.die d).lan.run = none → ∃ m' : Mach, exec (.lanternProgramStart d) s = .next (after s m') ∧
      (m'.die d).lan.queue = rest ∧
      (m'.die d).lan.rseq = (if (s.m.die d).lan.rseq = 0xFFFFFFFF then 0xFFFFFFFF else (s.m.die d).lan.rseq + 1) ∧
      m'.cores = s.m.cores ∧ m'.dev = s.m.dev ∧
      ((s.m.die d).lan.en = false ∨ p.ctx ≠ (s.m.die d).lan.lctx → (m'.die d).lan.run = none ∧
        ∃ o : Op, m'.ops = s.m.ops ++ [o] ∧ o.core = p.core ∧ o.base = p.base ∧ o.fin = true ∧ o.lanes[0]? = some 5))) ∧
  (∀ (s : State) (d : Fin 4) (o : Op) (t : Tok) (a : Fin 32), unitActsOn s d .lantern o →
    (o.ctx ≠ (s.m.die d).lan.lctx → endsWith s o (.lnstat t a) 5) ∧
    (o.ctx = (s.m.die d).lan.lctx → ∃ ws : List Word, ws.length = 32 ∧ (blkW ws 0).toNat % 2 ^ 32 = (s.m.die d).lan.rseq.toNat ∧
      exec (.lnstat t a) s = .next (ends s o (s.m.onOp o.id fun q => { q with sdesc := ws }) 1 (s.m.die d).lan.rseq)))

namespace Sys2Proof.Claims
open Sys2Proof.Machine

/-! ## Power, hosts and schedulers -/

/-- A module as power-up leaves it; the fuses, host memory and the pool devices outside it are as they were (R9, R360; log
entry 27 for the last two). -/
def fresh (s t : State) (on : Bool) : Prop :=
  t.boot = { Boot.reset with powered := on } ∧ t.agenda = s.agenda ∧ t.m.fuses = s.m.fuses ∧ t.m.host = s.m.host ∧
  t.m.cores = Vector.replicate 256 Core.reset ∧ t.m.ctxs = Vector.replicate 64 Ctx.reset ∧ t.m.dies = Vector.replicate 4 Die.reset ∧
  t.m.ops = [] ∧ t.m.arrivals = [] ∧ t.m.outbox = [] ∧ t.m.errbase = 0 ∧ t.m.errhead = 0 ∧ t.m.errtail = 0 ∧ t.m.errlost = 0 ∧ t.m.trans = 0 ∧
  t.m.pdec = Vector.replicate 16 0 ∧ t.m.regions = Vector.replicate 16 (Vector.replicate 64 0) ∧
  ∀ a, a < 3 * 2 ^ 46 → Memory.read1 t.m.dev a = 0

/-- The writes of a control page of context c that an instruction stands for. -/
def pageWriteOf (ag : Agent) (c : Fin 64) : Instr → Prop := fun i =>
  (∃ v, i = .replay ag c v ∨ i = .susp ag c v ∨ i = .coal ag c v ∨ i = .tinv ag c v ∨ i = .fres ag c v ∨ i = .kill ag c v) ∨
  ∃ q, i = .tresResume ag c q ∨ i = .tresResumePast ag c q ∨ i = .tresRetire ag c q ∨ i = .tresAbort ag c q

/-- Agent ag writes registers: the host at any time, Oculus in a module made ready (R8, R361; log entry 74). -/
abbrev writesRegs (s : State) (ag : Agent) : Prop := s.boot.state = 2 ∨ ag = .host

/-- Agent ag may write the control page of context c (R365). -/
abbrev writes (s : State) (ag : Agent) (c : Fin 64) : Prop := writesRegs s ag ∧ (ag = .oculus ∨ (s.m.ctx c).secure = false)

/-- A placed task that has not started, of core g, and its record. -/
abbrev placedOn (m : Mach) (g : Fin 256) (t : CoreTask) (r : Rec) : Prop :=
  (m.core g).task = some t ∧ t.running = false ∧ (m.core g).halt = none ∧ m.getRec (dieOf g) t.recId = some r

/-- A write v of the whole 64-bit register at an offset of the control page of context c answers o (R32, R192, R214). -/
abbrev pageStores (s : State) (ag : Agent) (c : Fin 64) (off : Nat) (v : Word) (o : Out) : Prop :=
  exec (.registerWrite ag .control (BitVec.ofNat 20 (4096 * c.val + off)) .b8 v) s = o

/-- The effect of a write on the control page of context c alone: its registers become f of what they were. -/
abbrev pageBecomes (s : State) (c : Fin 64) (f : Ctx → Ctx) : Out := .next (after s (s.m.onCtx c f))

/-- A context with the registers r that take effect at a replay, at once while no launch runs (R214, R411). -/
def latching (r : Latched → Latched) (x : Ctx) : Ctx := { x with regs := r x.regs, cur := if x.run = true then x.cur else r x.regs }

/-- An entry of a translation cache holds something of context c (R190). -/
def cachedOf (c : Fin 64) : CacheEntry → Prop
  | .desc k _ _ _ _ _ => k = c
  | .tile k _ _ _ => k = c

/-! ## What a save area holds -/

/-- The byte at offset o of the slot of core g in the save area of context c: SAVEBASE + 8 MiB·g + o (R229). -/
def slotByte (m : Mach) (c : Fin 64) (g : Fin 256) (o : Nat) : Byte :=
  m.devByte (m.ctx c).secure ((m.ctx c).cur.savebase.toNat + 2 ^ 23 * g.val + o)

/-- n bytes of a slot from offset o, and the little-endian number they are (R5). -/
def slotBytes (b : Nat → Byte) (o n : Nat) : List Byte := (List.range n).map fun k => b (o + k)
def slotNum (b : Nat → Byte) (o n : Nat) : Nat := leVal (slotBytes b o n)

/-- Bit k of a number. -/
abbrev has (x k : Nat) : Prop := x / 2 ^ k % 2 = 1

/-- Word j of the loop stack of engine e in CTRL: [21:0] FIRST, [43:22] LAST; the second word [31:0] COUNT, [32] VALID
(R230). -/
def loopNum (b : Nat → Byte) (e : Engine) (j k : Nat) : Nat := slotNum b (0x200 + 64 * (engIx e).val + 16 * j + 8 * k) 8

/-- CTRL says of the engines, the token FIFOs, the special registers and the outcome FIFOs what core k holds (R230). -/
structure CtrlHolds (b : Nat → Byte) (k : Core) : Prop where
  engine : ∀ e : Engine, let x := slotNum b (0x40 + 8 * (engIx e).val) 8
    (k.e e).pc = BitVec.ofNat 22 x ∧ (k.e e).rep = BitVec.ofNat 6 (x / 2 ^ 22) ∧ ((k.e e).tokp = true ↔ has x 28) ∧
    ((k.e e).tgt.isSome = true ↔ has x 29) ∧ ∀ t, (k.e e).tgt = some t → t = BitVec.ofNat 8 (x / 2 ^ 30)
  loops : ∀ (e : Engine) (j : Nat), j < 4 →
    ((∀ i, i ≤ j → has (loopNum b e i 1) 32) ↔ j < (k.e e).loops.length) ∧
    ∀ l, (k.e e).loops[j]? = some l → l.first = BitVec.ofNat 22 (loopNum b e j 0) ∧
      l.last = BitVec.ofNat 22 (loopNum b e j 0 / 2 ^ 22) ∧ l.count = BitVec.ofNat 32 (loopNum b e j 1)
  tokens : ∀ p q : Engine, slotNum b (0xC0 + 6 * (engIx p).val + (engIx q).val) 1 = k.tokens p q % 256
  slipw : k.slipw = BitVec.ofNat 13 (slotNum b 0x100 8)
  round : k.round[0] = BitVec.ofNat 3 (slotNum b 0x108 8) ∧ k.round[1] = BitVec.ofNat 3 (slotNum b 0x120 8) ∧
    k.round[2] = BitVec.ofNat 3 (slotNum b 0x130 8)
  seed : k.seed[0] = BitVec.ofNat 64 (slotNum b 0x110 8) ∧ k.seed[1] = BitVec.ofNat 64 (slotNum b 0x128 8) ∧
    k.seed[2] = BitVec.ofNat 64 (slotNum b 0x138 8)
  btmcfg : (k.btmcfg[0] = true ↔ has (slotNum b 0x118 8) 0) ∧ (k.btmcfg[1] = true ↔ has (slotNum b 0x140 8) 0)
  outcomes : ∀ i : Fin 5, slotNum b (0x180 + 8 * i.val) 1 % 128 = k.out[i.val].length % 128 ∧
    ∀ j x, j < 64 → k.out[i.val][j]? = some x → x = BitVec.ofNat 128 (slotNum b (0x2000 + 0x400 * i.val + 16 * j) 16)

/-- The register files, queues and accumulators of the classes that `live` names are what core k holds (R121, R229). -/
structure FilesHold (b : Nat → Byte) (live : Nat) (k : Core) : Prop where
  scalars : has live 0 → ∀ r : Fin 32, k.s[r.val] = BitVec.ofNat 64 (slotNum b (0x1000 + 8 * r.val) 8)
  patterns : has live 1 → ∀ (e : Fin 3) (r : Fin 16), k.a[e.val][r.val] = BitVec.ofNat 64 (slotNum b (0x1100 + 0x80 * e.val + 8 * r.val) 8)
  masks : has live 8 → ∀ r : Fin 8, r ≠ 0 → k.m[r.val] = BitVec.ofNat 1024 (slotNum b (0x1400 + 0x80 * (r.val - 1)) 128)
  vectors : ∀ r : Fin 32, has live (2 + r.val / 8) → k.v[r.val] = tileOfBytes (slotBytes b (0x4000 + 0x1000 * r.val) 4096)
  wide : has live 6 → ∀ r : Fin 8, k.w[r.val] = tileOfBytes (slotBytes b (0x24000 + 0x1000 * r.val) 4096)
  sums : has live 7 → ∀ r : Fin 2, k.z[r.val] = tileOfBytes (slotBytes b (0x2C000 + 0x1000 * r.val) 4096)
  wordQueues : ∀ q : Fin 4, has live (20 + q.val) → ∀ j x, j < 16 → k.qw[q.val][j]? = some x →
    x = BitVec.ofNat 64 (slotNum b (0x1800 + 0x80 * q.val + 8 * j) 8)
  tileQueues : ∀ q : Fin 4, has live (16 + q.val) → ∀ j x, j < 4 → k.qt[q.val][j]? = some x →
    x = tileOfBytes (slotBytes b (0x30000 + 0x4000 * q.val + 0x1000 * j) 4096)
  moreTiles : has live 18 → ∀ j x, 4 ≤ j → j < 244 → k.qt[2][j]? = some x → x = tileOfBytes (slotBytes b (0x710000 + 0x1000 * (j - 4)) 4096)
  accumulators : ∀ n : Fin 16, has live (32 + n.val) → ∀ j, j < 0x20000 →
    Memory.read1 k.acc (0x20000 * n.val + j) = b (0x40000 + 0x20000 * n.val + j)

/-- Regions in the scratchpad image, and of entry j of its directory the region, the length of its stream in lines and
RAW; where stream j begins (R157, R169). -/
def imageRegions (b : Nat → Byte) : Nat := slotNum b 0x240002 2
def imageDir (b : Nat → Byte) (j : Nat) : Nat := slotNum b (0x2442C0 + 4 * j) 4
def imageStream (b : Nat → Byte) (j : Nat) : Nat :=
  0x2442C0 + (4 * imageRegions b + 63) / 64 * 64 + 64 * ((List.range j).map fun i => imageDir b i / 2 ^ 16 % 128).sum

/-- The scratchpad image holds core k's ring descriptors, block translation memory, dirty bits and listed regions (R162,
R169, R170). -/
structure ImageHolds (b : Nat → Byte) (k : Core) : Prop where
  dirty : k.dirty = BitVec.ofNat 768 (slotNum b 0x240008 96)
  rings : ∀ r : Fin 16, let w (i : Nat) : Nat := slotNum b (0x240080 + 32 * r.val + 8 * i) 8
    k.rings[r.val] = ⟨BitVec.ofNat 22 (w 0), BitVec.ofNat 16 (w 0 / 2 ^ 32), BitVec.ofNat 13 (w 0 / 2 ^ 48), BitVec.ofNat 32 (w 1),
      BitVec.ofNat 32 (w 1 / 2 ^ 32), BitVec.ofNat 32 (w 2), BitVec.ofNat 32 (w 2 / 2 ^ 32), BitVec.ofNat 16 (w 3),
      BitVec.ofNat 16 (w 3 / 2 ^ 16)⟩
  translations : ∀ i : Fin 1024, let w (n : Nat) : Nat := slotNum b (0x240280 + 16 * i.val + 8 * n) 8
    k.btm[i.val] = ⟨BitVec.ofNat 16 (w 0), BitVec.ofNat 16 (w 0 / 2 ^ 16), BitVec.ofNat 32 (w 0 / 2 ^ 32), decide (has (w 1) 0), decide (has (w 1) 1)⟩
  pointers : ∀ n : Fin 256, k.rp[n.val] = BitVec.ofNat 2 (slotNum b (0x244280 + n.val / 4) 1 / 4 ^ (n.val % 4))
  regions : imageRegions b ≤ 768 → (∀ i j, i < imageRegions b → j < imageRegions b → imageDir b i % 1024 = imageDir b j % 1024 → i = j) →
    ∀ j, j < imageRegions b → Memory.read k.spad (4096 * (imageDir b j % 1024)) 4096 =
      zrDecode (decide (has (imageDir b j) 23)) (slotBytes b (imageStream b j) (64 * (imageDir b j / 2 ^ 16 % 128)))

/-- What a resumption finds nothing of in the slot is zero, or an empty queue (R121, R170). -/
structure ElseZero (b : Nat → Byte) (live : Nat) (k : Core) : Prop where
  scalars : ¬ has live 0 → k.s = Vector.replicate 32 0
  patterns : ¬ has live 1 → k.a = Vector.replicate 3 (Vector.replicate 16 0)
  masks : ¬ has live 8 → k.m = Vector.replicate 8 0
  vectors : ∀ r : Fin 32, ¬ has live (2 + r.val / 8) → k.v[r.val] = Tile.zero
  wide : ¬ has live 6 → k.w = Vector.replicate 8 Tile.zero
  sums : ¬ has live 7 → k.z = Vector.replicate 2 Tile.zero
  queues : ∀ q : Fin 4, (¬ has live (20 + q.val) → k.qw[q.val] = []) ∧ (¬ has live (16 + q.val) → k.qt[q.val] = [])
  accumulators : ∀ n : Fin 16, ¬ has live (32 + n.val) → ∀ j, j < 0x20000 → Memory.read1 k.acc (0x20000 * n.val + j) = 0
  scratchpad : ∀ r, r < 768 → (∀ j, j < imageRegions b → imageDir b j % 1024 ≠ r) → ∀ j, j < 4096 → Memory.read1 k.spad (4096 * r + j) = 0

/-- Queues, FIFOs and MX's lists hold no more than they can; Q2 may also hold what a repetition of MMUL that stopped has put
back (R48, R55, R69; log entries 12 and 49). -/
def withinRoom (k : Core) : Prop :=
  (∀ q : Fin 4, (q ≠ 2 → k.qt[q.val].length ≤ 4) ∧ k.qw[q.val].length ≤ 16) ∧ k.qt[2].length ≤ 244 ∧ (∀ i : Fin 5, k.out[i.val].length ≤ 64) ∧
  k.mx.dsts.length ≤ 1408

/-- What a core keeps of a saved task beside the slot is what the record holds for the member (R226; log entry 11). -/
structure PrivHolds (p : Priv) (live : Nat) (k : Core) : Prop where
  queues : ∀ q : Fin 4, (has live (16 + q.val) → k.qt[q.val].length = p.qn[q.val]) ∧ (has live (20 + q.val) → k.qw[q.val].length = p.qn[4 + q.val])
  engines : ∀ e : Engine, (k.e e).owed = p.owed[(engIx e).val] ∧ (k.e e).ended = p.ended[(engIx e).val] ∧ (k.e e).wait = none ∧ (k.e e).job = none
  holds : k.hold = p.hold ∧ k.vbuf = p.vbuf ∧ k.cq = p.cq ∧ k.halt = none ∧ k.safe = none

/-! ## Messages -/

/-- A message is at a port of this package: from another package, or its own on the way (R336). -/
abbrev atPort (m : Mach) (x : FMsg) : Prop := x.dpkg = m.fabid ∧ (x.spkg ≠ m.fabid ∨ ∃ o ∈ m.outbox, o.msg = x)

/-- A message that keeps the worlds and sets no reserved bit (R337, R339). -/
abbrev lawful (m : Mach) (x : FMsg) : Prop := x.resv = false ∧ x.sec = (m.ctx x.ctx).secure

/-- The core that a message names, and whether its bytes lie in the scratchpad of a core that is present (R339). -/
abbrev coreTo (x : FMsg) : Fin 256 := toCore x.dcore.toNat
abbrev onSpad (m : Mach) (x : FMsg) : Prop := m.present (coreTo x) = true ∧ x.addr.toNat + max 1 x.bytes.toNat ≤ 0x300000

/-- Two machines agree but for the scratchpads, the ports and what counts messages. -/
def sameElse (m m' : Mach) : Prop := m'.ctxs = m.ctxs ∧ m'.dies = m.dies ∧ m'.dev = m.dev ∧ m'.host = m.host ∧ m'.ops = m.ops

/-- A message discarded: it leaves its port, FDROP of die 0 counts it, a data message counts as accepted (R338, R339). -/
def discarded (m m' : Mach) (x : FMsg) : Prop :=
  (m'.die 0).lan.fdrop = sat32 (m.die 0).lan.fdrop ∧ m'.cores = m.cores ∧ m'.dev = m.dev ∧ m'.ctxs = m.ctxs ∧ m'.ops = m.ops ∧
  (∀ h ∈ m'.inbox, h.msg ≠ x) ∧ (isData x = true → m'.accepted x = m.accepted x + 1) ∧ (isData x = false → m'.streams = m.streams)

end Sys2Proof.Claims

/-! ## Power and boot -/

/-- R9, R359 to R364: power-up, a restart with its key and a function-level reset give every reset value; BOOTGO starts
the boot, which ends in STATE 2 or 3 with its CODE and vector 129; reports and measurements. The model's own choices:
what survives a restart (log entry 27), zero memory and zero registers where the spec gives none (2, 3), SHAKE256 as
FIPS 202 defines it (9), an extension of M0 doing nothing (17), the address of a report and the time of its values (28),
frame numbers of the launch area that no address can hold (105). -/
def Obligations.PowerAndBoot : Prop :=
  (∀ s : State, (s.boot.powered = false → ∃ t, exec .powerUp s = .next t ∧ fresh s t true) ∧
    (s.boot.powered = true → exec .powerUp s = .next s)) ∧
  (∀ s : State, ∃ t, exec .powerLoss s = .next t ∧ fresh s t false) ∧
  (∀ (s : State) (key : BitVec 32),
    (s.boot.powered = true → key = 0x52545352 → ∃ t, exec (.restart key) s = .next t ∧ fresh s t true) ∧
    (key ≠ 0x52545352 → exec (.restart key) s = .next s)) ∧
  (∀ s : State, s.boot.powered = true → ∃ t, exec .functionLevelReset s = .next t ∧ fresh s t true) ∧
  (∀ (s : State) (len : BitVec 32), s.boot.powered = true →
    (s.boot.state = 0 → exec (.bootgo len) s = .next { s with boot := { s.boot with state := 1, goLen := len } }) ∧
    (s.boot.state ≠ 0 → exec (.bootgo len) s = .next s)) ∧
  (∀ s : State, (s.boot.state ≠ 1 → exec .bootEnd s = .next s) ∧
    (s.boot.powered = true → s.boot.state = 1 → s.m.devGlitch = [] →
      (∀ k, bootCode s = some k → exec .bootEnd s = .next { s with boot := { s.boot with state := 3, code := k }, m := s.m.raise 129 }) ∧
      (bootCode s = none → ∃ t, exec .bootEnd s = .next t ∧ t.m = s.m.raise 129 ∧ t.boot.state = 2 ∧ t.boot.code = 0 ∧
        t.boot.meas[0] = digest64 (areaBytes s 0 (0x100 + imageField s 8 4)) ∧ (∀ n : Fin 4, n ≠ 0 → t.boot.meas[n.val] = s.boot.meas[n.val]) ∧
        t.boot.ocode = areaBytes s 0x100 (imageField s 8 4) ∧ t.boot.oentry = BitVec.ofNat 32 (imageField s 12 4)))) ∧
  (∀ s : State, (headerGood s = false → bootCode s = some 1) ∧
    (headerGood s = true → leVal (shake256 32 (areaBytes s 0x40 64)) ≠ s.m.fuses.keyDigest.toNat → bootCode s = some 2) ∧
    (headerGood s = true → leVal (shake256 32 (areaBytes s 0x40 64)) = s.m.fuses.keyDigest.toNat →
      (bootCode s = none ∨ bootCode s = some 3))) ∧
  (∀ (s : State) (v : Word), (s.boot.state = 2 → s.boot.attest = none → exec (.ataddr v) s = .next { s with boot := { s.boot with attest := some v } }) ∧
    (s.boot.state ≠ 2 ∨ s.boot.attest.isSome = true → exec (.ataddr v) s = .next s)) ∧
  (∀ s : State, (s.boot.attest = none → exec .attestationReportEnd s = .next s) ∧
    (∀ a, s.boot.attest = some a → exec .attestationReportEnd s =
      .next { s with boot := { s.boot with attest := none }, m := (s.m.hostWrite a.toNat (reportBytes s)).raise 129 })) ∧
  (∀ (s : State) (n : Fin 4) (v : BitVec 512), (s.boot.state = 2 → n ≠ 0 → ∃ t, exec (.measurementExtend n v) s = .next t ∧ t.m = s.m ∧
      t.boot.meas[n.val] = digest64 (leBytes 64 (s.boot.meas[n.val]).toNat ++ leBytes 64 v.toNat) ∧
      ∀ k : Fin 4, k ≠ n → t.boot.meas[k.val] = s.boot.meas[k.val]) ∧
    (s.boot.state ≠ 2 ∨ n = 0 → exec (.measurementExtend n v) s = .next s))

/-- R355, R357, R365: an access that is not aligned is discarded; a control page of a secure context is closed to the
host; a GP register takes the whole word; an unmasked vector is sent where it is pending; BAR4 writes stage frames of
die 0, and a frame that a device address cannot name is no memory. R8, R192, R214, R245: of the registers of a control
page, what a write stores, the bits that a 1 clears, and the writes that are ignored. TDBASE takes effect for commands
issued after the write: what was cached of the context is dropped. R358, R411: the other registers of the page that
store. R391: a host write of a GP register takes its place in the file's order. The model's own readings: what a narrow
write does to the bytes that it leaves out, and low bits of bases (log entry 25); writes before STATE is 2, of which a
REPLAY does nothing (74); the clock that passes for a request out of its turn (102); that a write of TDBASE drops what was
cached (106); frame numbers that no address can hold (105). -/
def Obligations.HostWindowsWrite : Prop :=
  (∀ (s : State) ag w off size v, s.boot.powered = false ∨ off.toNat % Size.bytes size ≠ 0 → exec (.registerWrite ag w off size v) s = .next s) ∧
  (∀ (s : State) ag (c k : Fin 64) v, s.boot.powered = true → writes s ag c →
    pageStores s ag c (0xA00 + 8 * k.val) v (.next (after s ((s.m.atGp c gpHost).onCtx c fun x => { x with gp := put x.gp k v })))) ∧
  (∀ (s : State) ag (c : Fin 64) v, s.boot.powered = true → writes s ag c →
    (pageStores s ag c 0x008 v <| pageBecomes s c fun x => { x with drop := x.drop && !v.getLsbD 1 }) ∧
    (pageStores s ag c 0x060 v <| pageBecomes s c fun x => { x with dlk := x.dlk && !v.getLsbD 0 }) ∧
    (pageStores s ag c 0x210 v <| pageBecomes s c fun x => { x with wd := x.wd && !v.getLsbD 1 }) ∧
    (pageStores s ag c 0x230 v <| pageBecomes s c fun x => { x with stray := x.stray &&& ~~~(v.extractLsb' 0 32) }) ∧
    (pageStores s ag c 0x010 v <| if v.toNat % 16 = 0 then pageBecomes s c fun x => { x with cwaddr := v } else .next s) ∧
    (pageStores s ag c 0x048 v <| if v.toNat % 2 ^ 32 < 256 then .next s else pageBecomes s c fun x => { x with spin := v.extractLsb' 0 32 }) ∧
    (pageStores s ag c 0x218 v <| if v.toNat % 2 ^ 32 = 0 then .next s else pageBecomes s c fun x => { x with twdog := v.extractLsb' 0 32 }) ∧
    (pageStores s ag c 0x020 v <| if 13 ≤ v.toNat / 2 ^ 48 % 16 then .next s
      else pageBecomes s c (latching fun r => { r with trbase := v.extractLsb' 0 48, ltrn := v.extractLsb' 48 4 })) ∧
    (pageStores s ag c 0x028 v <| pageBecomes s c fun x => { x with trtail := v.extractLsb' 32 32 }) ∧
    (pageStores s ag c 0x030 v <| pageBecomes s c (latching fun r => { r with tcont := v.extractLsb' 0 48, ten := v.getLsbD 48 })) ∧
    (pageStores s ag c 0x040 v <| pageBecomes s c (latching fun r => { r with savebase := v.extractLsb' 0 48 })) ∧
    (pageStores s ag c 0x058 v <| pageBecomes s c (latching fun r => { r with recbase := v.extractLsb' 0 48 })) ∧
    (pageStores s ag c 0x208 v <| pageBecomes s c fun x => { x with tinvrFirst := v.extractLsb' 0 32, tinvrNt := v.extractLsb' 32 32 }) ∧
    (pageStores s ag c 0x600 v <| pageBecomes s c fun x => { x with otbase := v.extractLsb' 0 48 }) ∧
    (pageStores s ag c 0x608 v <| pageBecomes s c fun x => { x with nobj := v.extractLsb' 0 20 }) ∧
    (pageStores s ag c 0x810 v <| pageBecomes s c fun x => { x with nrtail := v.extractLsb' 32 32 }) ∧
    (pageStores s ag c 0x800 v <| if v.toNat % 16 = 0 then pageBecomes s c (latching fun r => { r with nrbase := v }) else .next s) ∧
    (pageStores s ag c 0x808 v <| if 12 < v.toNat % 16 then .next s
      else pageBecomes s c fun x => { latching (fun r => { r with lnr := v.extractLsb' 0 4 }) x with nen := v.getLsbD 8 }) ∧
    pageStores s ag c 0x000 v (exec (.replay ag c v) s) ∧ (s.boot.state ≠ 2 → exec (.replay ag c v) s = .next s) ∧ pageStores s ag c 0x018 v (exec (.coal ag c v) s) ∧
    pageStores s ag c 0x050 v (exec (.susp ag c v) s) ∧ pageStores s ag c 0x200 v (exec (.tinv ag c v) s) ∧
    pageStores s ag c 0x228 v (exec (.fres ag c v) s) ∧ pageStores s ag c 0x700 v (exec (.kill ag c v) s) ∧
    (∀ i q, q = v.extractLsb' 0 32 →
      (v.toNat / 2 ^ 32 % 4 = 0 ∧ i = .tresResume ag c q) ∨ (v.toNat / 2 ^ 32 % 4 = 1 ∧ i = .tresResumePast ag c q) ∨
      (v.toNat / 2 ^ 32 % 4 = 2 ∧ i = .tresRetire ag c q) ∨ (v.toNat / 2 ^ 32 % 4 = 3 ∧ i = .tresAbort ag c q) →
      pageStores s ag c 0x038 v (exec i s)) ∧
    (∀ n : Fin 8,
      pageStores s ag c (0x610 + 16 * n.val) v (pageBecomes s c fun x => { x with fsb := put x.fsb n (v.extractLsb' 0 48) }) ∧
      pageStores s ag c (0x618 + 16 * n.val) v
        (pageBecomes s c fun x => { x with fcnt := put x.fcnt n (v.extractLsb' 0 32), fcap := put x.fcap n (v.extractLsb' 32 32) })) ∧
    (∀ off, (off = 0x238 ∨ off = 0x818 ∨ (0x400 ≤ off ∧ off < 0x600) ∨ (0x068 ≤ off ∧ off < 0x200)) → off % 8 = 0 →
      pageStores s ag c off v (.next s)) ∧
    (∃ m' : Mach, pageStores s ag c 0x220 v (.next (after s m')) ∧ m'.ctxs = (s.m.onCtx c fun x => { x with tdbase := v.extractLsb' 0 48 }).ctxs ∧
      (∀ g, ∀ e ∈ (m'.core g).tcache, ¬ cachedOf c e) ∧ (∀ d, (∀ e ∈ (m'.die d).gat.tcache, ¬ cachedOf c e) ∧ ∀ e ∈ (m'.die d).belfry.tcache, ¬ cachedOf c e) ∧
      m'.dev = s.m.dev ∧ m'.host = s.m.host ∧ m'.ops = s.m.ops ∧ ∀ g, (m'.core g).spad = (s.m.core g).spad ∧ (m'.core g).task = (s.m.core g).task)) ∧
  (∀ (s : State) ag (c : Fin 64) (w : BitVec 64), s.boot.powered = true → writes s ag c →
    exec (.registerWrite ag .control (BitVec.ofNat 20 (4096 * c.val + 0x208)) .b4 w) s =
      pageBecomes s c fun x => { x with tinvrFirst := w.extractLsb' 0 32 }) ∧
  (∀ (s : State) (c : Fin 64) i, pageWriteOf .host c i → (s.m.ctx c).secure = true → exec i s = .next s) ∧
  (∀ (s : State) (c : Fin 64) off size v, (s.m.ctx c).secure = true → 4096 * c.val ≤ off.toNat → off.toNat < 4096 * c.val + 4096 →
    exec (.registerWrite .host .control off size v) s = .next s) ∧
  (∀ (s : State) (n : Fin 130), s.boot.powered = true → ∃ m' : Mach, exec (.msixUnmask n) s = .next (after s m') ∧ (m'.msix[n.val]).mask = false ∧
    m'.msiPend.getLsbD n.val = false ∧ m'.dev = s.m.dev ∧ m'.cores = s.m.cores ∧
    (s.m.msiPend.getLsbD n.val = true → m'.msiSent = n :: s.m.msiSent) ∧
    (s.m.msiPend.getLsbD n.val = false → m'.msiSent = s.m.msiSent ∧ m'.host = s.m.host)) ∧
  (∀ (s : State) x size v, s.boot.powered = true → x.toNat % Size.bytes size = 0 →
    let a := 2 ^ 46 + 65536 * s.boot.laframe.toNat + x.toNat
    (s.boot.laframe.toNat + x.toNat / 65536 < 2 ^ 28 →
      ((∀ k, k < Size.bytes size → s.m.named (a + k) = true ∧ s.m.secureAt (a + k) = false) →
        exec (.launchAreaWrite x size v) s = .next (after s { s.m with dev := Memory.write s.m.dev a (leBytes (Size.bytes size) v.toNat) })) ∧
      ((∀ k, k < Size.bytes size → s.m.named (a + k) = false) → exec (.launchAreaWrite x size v) s = .next s)) ∧
    (2 ^ 28 ≤ s.boot.laframe.toNat + x.toNat / 65536 → exec (.launchAreaWrite x size v) s = .next s)) ∧
  (∀ (s : State) x size v, s.boot.powered = false ∨ x.toNat % Size.bytes size ≠ 0 → exec (.launchAreaWrite x size v) s = .next s)

/-- R293, R294, R313, R335: what the enables of the units do, and what they leave alone while they stand. R294 says of a
refused write of a pool's register only that PEN stays 0: that it stores nothing, and what a write that clears PEN stores,
is the model's reading (log entry 69). R27: a window of the power controller changes nothing that can be observed (log
entry 84). Writes of the host before STATE is 2 have these effects too (log entry 74). -/
def Obligations.UnitsAreEnabled : Prop :=
  (∀ (s : State) (ag : Agent) (d : Fin 4) (v : Word), writesRegs s ag →
    (v.getLsbD 0 = false → exec (.campanileEnable ag d v) s = .next (after s (s.m.onCamp d fun k => { k with en := false }))) ∧
    (v.getLsbD 0 = true → (s.m.die d).camp.en = true → exec (.campanileEnable ag d v) s = .next s) ∧
    (v.getLsbD 0 = true → (s.m.die d).camp.en = false → ∃ m' : Mach, exec (.campanileEnable ag d v) s = .next (after s m') ∧ (m'.die d).camp.en = true ∧
      (m'.die d).camp.sdbase = (s.m.die d).camp.sdbase ∧ m'.cores = s.m.cores ∧ m'.ctxs = s.m.ctxs ∧
      (m'.die d).camp.hibase = (s.m.die d).camp.hibase ∧
      ∀ a, (((s.m.die d).camp.sdbase.toNat ≤ a ∧ a < (s.m.die d).camp.sdbase.toNat + 2 ^ 21) ∨
          ((s.m.die d).camp.hibase.toNat ≤ a ∧ a < (s.m.die d).camp.hibase.toNat + 2 ^ 25)) →
        s.m.mayTouch (agentSec ag) a = true → Memory.read1 m'.dev a = 0) ∧
    (v.getLsbD 0 = false → exec (.cupolaEnable ag d v) s = .next (after s (s.m.onCup d fun k => { k with en := false }))) ∧
    (v.getLsbD 0 = true → (s.m.die d).cup.en = true → exec (.cupolaEnable ag d v) s = .next s) ∧
    (v.getLsbD 0 = true → (s.m.die d).cup.en = false → ∃ m' : Mach, exec (.cupolaEnable ag d v) s = .next (after s m') ∧ (m'.die d).cup.en = true ∧
      m'.cores = s.m.cores ∧ m'.ctxs = s.m.ctxs ∧
      ∀ a, (s.m.die d).cup.sbbase.toNat ≤ a → a < (s.m.die d).cup.sbbase.toNat + 2 ^ 23 → s.m.mayTouch (agentSec ag) a = true →
        Memory.read1 m'.dev a = 0) ∧
    ∃ m' : Mach, exec (.lanternEnable ag d v) s = .next (after s m') ∧ (m'.die d).lan.en = v.getLsbD 0 ∧ m'.cores = s.m.cores ∧ m'.dev = s.m.dev ∧
      ((s.m.die d).lan.en = true → (m'.die d).lan.lctx = (s.m.die d).lan.lctx ∧ (m'.die d).lan.rseq = (s.m.die d).lan.rseq) ∧
      ((s.m.die d).lan.en = false → (m'.die d).lan.lctx.val = v.toNat / 2 % 64 ∧
        (v.getLsbD 0 = true → (m'.die d).lan.rseq = 0 ∧ ∀ ch : Fin 16, (m'.die d).lan.arr[ch.val] = 0 ∧ (m'.die d).lan.con[ch.val] = 0))) ∧
  (∀ (s : State) (ag : Agent) (d : Fin 4) (p : Fin 16) (v : Word), writesRegs s ag → ∀ i, i = .poolEnable ag d p v ∨ i = .poolDisable ag d p v →
    let q := (s.m.die d).camp.pools[p.val]
    (v.getLsbD 11 = false → ∃ m' : Mach, exec i s = .next (after s m') ∧ ((m'.die d).camp.pools[p.val]).pen = false ∧
      ((m'.die d).camp.pools[p.val]).fcnt = q.fcnt ∧ ((m'.die d).camp.pools[p.val]).nblk = q.nblk ∧
      (∀ k : Fin 16, k ≠ p → (m'.die d).camp.pools[k.val] = (s.m.die d).camp.pools[k.val]) ∧ m'.dev = s.m.dev ∧ m'.cores = s.m.cores) ∧
    (v.getLsbD 11 = true → q.pen = true ∨ s.m.poolRefused d q v = true → exec i s = .next s) ∧
    (v.getLsbD 11 = true → q.pen = false → s.m.poolRefused d q v = false → ∃ m' : Mach, exec i s = .next (after s m') ∧
      ((m'.die d).camp.pools[p.val]).pen = true ∧ ((m'.die d).camp.pools[p.val]).fcnt = q.nblk ∧ m'.cores = s.m.cores ∧ m'.ctxs = s.m.ctxs)) ∧
  (∀ (s : State) d, exec (.powerControllerWindow d) s = .next s)

/-! ## Launches -/

/-- R187, R191, R194, R214, R217, R219, R228, R235, R236, R240: what the writes of a control page do, and the ends of
launches. R191, R225, R232: the watchdog of an invalidation sends a request to every member, and a member that does not
stop stops its task where it stands. The model's own readings: a malformed graph before a gang that no cluster can hold,
and an abort through a kill (log entry 24); the writes as events with their whole word, and DONE (25, 33); WD set at the
request (70); what a kill drops (71); when a launch is over (72); the record of a running task at a kill (90); successor
entries of no node's range (101); a REPLAY before STATE is 2 (74). -/
def Obligations.LaunchesRunAndEnd : Prop :=
  (∀ (s : State) ag c v, writes s ag c →
    let a := v.toNat % 2 ^ 48
    let x := s.m.ctx c
    (s.boot.state ≠ 2 → exec (.replay ag c v) s = .next s) ∧
    (s.boot.state = 2 → x.run = true ∨ (x.killing = true ∧ x.quiet = false) → exec (.replay ag c v) s = .next (after s (s.m.onCtx c fun x => { x with drop := true }))) ∧
    (s.boot.state = 2 → x.run = false → x.killing = false ∨ x.quiet = true →
      let m := (s.m.onCtx c fun x => { x with run := true, killing := false, quiet := false, cur := x.regs, trseen := x.trhead, nodes := [] }).noteGraph c a
      (m.graph c a = none → exec (.replay ag c v) s = .next (after s (m.abort c 1))) ∧
      (∀ l, m.graph c a = some l → (∃ n ∈ l, m.unplaceable n.die (recGang n.tmpl) = true) → exec (.replay ag c v) s = .next (after s (m.abort c 2))) ∧
      (∀ l, m.graph c a = some l → (∀ n ∈ l, m.unplaceable n.die (recGang n.tmpl) = false) → exec (.replay ag c v) s = .next (after s (m.buildGraph c l)))) ∧
    (v.getLsbD 0 = true → ∃ m' : Mach, exec (.susp ag c v) s = .next (after s m') ∧ (m'.ctx c).susp = true ∧
      (∀ g k, (s.m.core g).task = some k → k.ctx = c → (m'.core g).req = true) ∧ m'.dev = s.m.dev) ∧
    (v.getLsbD 0 = false → exec (.susp ag c v) s =
      .next (after s ([0, 1, 2, 3].foldl (fun m d => m.scan d) (s.m.onCtx c fun x => { x with susp := false })))) ∧
    (∃ m' : Mach, exec (.coal ag c v) s = .next (after s m') ∧ (m'.ctx c).coalCnt = v.extractLsb' 0 8 ∧ (m'.ctx c).coalWin = v.extractLsb' 8 32 ∧
      m'.dev = s.m.dev ∧ m'.cores = s.m.cores ∧
      (0 < v.toNat % 256 → v.toNat % 256 ≤ x.pendCnt → (m'.ctx c).pendCnt = 0) ∧ (x.pendCnt < v.toNat % 256 ∨ v.toNat % 256 = 0 → (m'.ctx c).pendCnt = x.pendCnt)) ∧
    (exec (.tinv ag c v) s = .next (after s (s.m.startInval c ⟨v.extractLsb' 0 20, v.getLsbD 20, x.tinvrFirst.toNat, x.tinvrNt.toNat, false⟩))) ∧
    (∃ m' : Mach, exec (.fres ag c v) s = .next (after s m') ∧ (m'.ctx c).frec[v.toNat % 16]'(Nat.mod_lt _ (by decide)) = FaultRec.reset ∧ m'.dev = s.m.dev ∧ m'.cores = s.m.cores ∧
      (∀ o ∈ m'.ops, o.ctx = c → ∀ t n, o.stop = some (t, n, true) →
        ¬ ((x.frec[v.toNat % 16]'(Nat.mod_lt _ (by decide))).valid = true ∧ (x.frec[v.toNat % 16]'(Nat.mod_lt _ (by decide))).tensor = t ∧
          (x.frec[v.toNat % 16]'(Nat.mod_lt _ (by decide))).block.toNat = n / 64))) ∧
    (v.getLsbD 0 = false → exec (.kill ag c v) s = .next s) ∧
    (v.getLsbD 0 = true → x.killing = true → exec (.kill ag c v) s = .next s) ∧
    (v.getLsbD 0 = true → x.killing = false → ∃ m' : Mach, exec (.kill ag c v) s = .next (after s m') ∧ (m'.ctx c).killing = true ∧ (m'.ctx c).quiet = false ∧
      (m'.ctx c).run = false ∧ (∀ d, ∀ r ∈ (m'.die d).recs, r.ctx ≠ c) ∧ (∀ o ∈ m'.ops, o.ctx = c → o.unit = .campanile ∧ o.begun = true) ∧
      ∀ g k, (m'.core g).task = some k → k.ctx = c → (m'.core g).halt = some .killed)) ∧
  (∀ (s : State) ag c q, writes s ag c →
    (s.m.trapped c q = none → ∀ i, i = .tresResume ag c q ∨ i = .tresResumePast ag c q ∨ i = .tresRetire ag c q ∨ i = .tresAbort ag c q → exec i s = .next s) ∧
    (∀ d r, s.m.trapped c q = some (d, r) →
      exec (.tresResume ag c q) s = .next (after s ((s.m.onRec d r.id fun r => { r with reason := 5, past := none }).scan d)) ∧
      exec (.tresResumePast ag c q) s = .next (after s ((s.m.onRec d r.id fun y => { y with reason := 5 }).scan d)) ∧
      exec (.tresRetire ag c q) s = .next (after s (s.m.retireRec d r)) ∧
      exec (.tresAbort ag c q) s = .next (after s (s.m.abort c 8)))) ∧
  (∀ (s : State) c, s.boot.state = 2 →
    (s.m.launchOver c = false → exec (.launchEnd c) s = .next s) ∧
    (s.m.launchOver c = true → ∃ m' : Mach, exec (.launchEnd c) s = .next (after s m') ∧ (m'.ctx c).run = false ∧ (m'.ctx c).cause = 0 ∧
      (m'.ctx c).lseq = (s.m.ctx c).lseq + 1 ∧ m'.dev = s.m.dev ∧ m'.cores = s.m.cores ∧ m'.ops = s.m.ops) ∧
    ((s.m.ctx c).pendTraps = [] → exec (.trapRecord c) s = .next s) ∧
    ((s.m.ctx c).pendTraps ≠ [] → ((s.m.ctx c).trhead - (s.m.ctx c).trtail).toNat = 2 ^ (s.m.ctx c).cur.ltrn.toNat → exec (.trapRecord c) s = .next s) ∧
    (∀ p rest, (s.m.ctx c).pendTraps = p :: rest → ((s.m.ctx c).trhead - (s.m.ctx c).trtail).toNat ≠ 2 ^ (s.m.ctx c).cur.ltrn.toNat →
      (s.m.getRec p.die p.recId = none → exec (.trapRecord c) s = .next (after s (s.m.onCtx c fun x => { x with pendTraps := rest, trhead := x.trhead + 1 }))) ∧
      ∀ r, s.m.getRec p.die p.recId = some r → exec (.trapRecord c) s = .next (after s
        ((((s.m.onCtx c fun x => { x with pendTraps := rest, trhead := x.trhead + 1 }).ctxWrite c
          ((s.m.ctx c).cur.trbase.toNat + 64 * ((s.m.ctx c).trhead.toNat % 2 ^ (s.m.ctx c).cur.ltrn.toNat)) (trapBytes p.info r (s.m.ctx c).trhead)).onRec
            p.die p.recId fun r => { r with tseq := some (s.m.ctx c).trhead }).continueTrap c p.die (s.m.ctx c).trhead))) ∧
    (∀ k, ((s.m.ctx c).killing = false ∨ k ∉ (s.m.ctx c).killOwed ∨ s.m.canAck c k = false) → exec (.killAcknowledge c k) s = .next s) ∧
    (∀ k, (s.m.ctx c).killing = true → k ∈ (s.m.ctx c).killOwed → s.m.canAck c k = true → 0x100 ≤ k.toNat → (∃ j ∈ (s.m.ctx c).killOwed, j ≠ k) →
      exec (.killAcknowledge c k) s = .next (after s (s.m.onCtx c fun x => { x with killOwed := x.killOwed.filter (· ≠ k) }))) ∧
    (∀ k, (s.m.ctx c).killing = true → k ∈ (s.m.ctx c).killOwed → s.m.canAck c k = true → (∀ j ∈ (s.m.ctx c).killOwed, j = k) →
      ∃ m' : Mach, exec (.killAcknowledge c k) s = .next (after s m') ∧ (m'.ctx c).killing = true ∧ (m'.ctx c).quiet = true ∧ (m'.ctx c).killOwed = [] ∧
        (k.toNat < 0x100 → (m'.core (toCore k.toNat)).halt = none)) ∧
    (let x := s.m.ctx c
     (x.coalCnt = 0 ∨ x.coalWin = 0 ∨ x.pendCnt = 0 ∨ ((s.m.die 0).cycle - x.pendAt).toNat < x.coalWin.toNat → exec (.coalWindowExpiry c) s = .next s) ∧
     (x.coalCnt ≠ 0 → x.coalWin ≠ 0 → x.pendCnt ≠ 0 → x.coalWin.toNat ≤ ((s.m.die 0).cycle - x.pendAt).toNat →
       exec (.coalWindowExpiry c) s = .next (after s ((s.m.onCtx c fun x => { x with pendCnt := 0 }).raise (Fin.ofNat 130 c.val)))))) ∧
  (∀ (s : State) g, s.boot.state = 2 → (s.m.core g).task = none → exec (.watchdogRequest g) s = .next s ∧ exec (.forcedSave g) s = .next s) ∧
  (∀ (s : State) g t since, s.boot.state = 2 → (s.m.core g).task = some t → t.running = true → (s.m.core g).owes = some since → (s.m.core g).wdog = none →
    let now := (s.m.die (dieOf g)).cycle
    let late := (s.m.ctx t.ctx).twdog.toNat ≤ (now - since).toNat
    (¬ late → exec (.watchdogRequest g) s = .next s) ∧
    (late → ∃ m' : Mach, exec (.watchdogRequest g) s = .next (after s m') ∧ (m'.ctx t.ctx).wd = true ∧ m'.dev = s.m.dev ∧ m'.dies = s.m.dies ∧
      (∀ k ∈ t.members, m'.core k = { s.m.core k with req := true, wdog := some ((s.m.core k).wdog.getD now) }) ∧
      ∀ h, h ∉ t.members → m'.core h = s.m.core h)) ∧
  (∀ (s : State) g t since, s.boot.state = 2 → (s.m.core g).task = some t → (s.m.core g).wdog = some since → (s.m.core g).halt = none →
    (s.m.core g).safe = none → (∃ e, ((s.m.core g).e e).ended = false) →
    let late := (s.m.ctx t.ctx).twdog.toNat ≤ ((s.m.die (dieOf g)).cycle - since).toNat
    (¬ late → exec (.forcedSave g) s = .next s) ∧
    (late → ∃ m' : Mach, exec (.forcedSave g) s = .next (after s m') ∧ m'.dev = s.m.dev ∧ m'.ctxs = s.m.ctxs ∧
      (∀ k ∈ t.members, (m'.core k).halt = some .forced ∧
        (m'.core k).pend = (s.m.core k).pend.filter (fun p => p.load.isSome) ∧ ∀ e, ((m'.core k).e e).pc = ((s.m.core k).e e).pc) ∧
      ∀ h, ∀ k ∈ t.members, (∀ r ∈ (m'.core h).portq, ∀ e, r.who ≠ .eng k e) ∧ ∀ r ∈ (m'.core h).ringWaits, ∀ e, r.who ≠ .eng k e))

/-! ## Tasks -/

/-- R43, R69, R119: a placed fresh record starts on every member at once, or traps ILLEGAL at its entry where the text's
descriptor fails; every register, mask, queue, outcome FIFO, token FIFO, draw mode and seed is then empty or zero, S1
apart, and BTMCFG is 1. R44, R218: a task whose engines have all stopped retires, and with a queue entry or token left
traps ILLEGAL. R73, R226: SC stops at a safe point, and a task that has stopped is saved. R169, R229, R230: what the
save writes into a member's slot. R170, R212, R230: what a resumption restores. The model's own readings: which engines
are blocked (log entry 22); every member of a gang acts in one step (log entry 81); SC, with its parcel in INFO, reports
leftovers (32); queue counts and what else a save keeps beside the slot (11), MX's state in the slot (12), what a save
does not name keeps its bytes (21); Q2's entries that a repetition of MMUL had taken are back in it (49). -/
def Obligations.TasksStartStopAndLeave : Prop :=
  (∀ (s : State) g, s.boot.state = 2 → (s.m.core g).task = none →
    ∀ i, i = .taskStart g ∨ i = .taskResume g ∨ i = .taskRetire g ∨ i = .taskSave g → exec i s = .next s) ∧
  (∀ (s : State) g t r, s.boot.state = 2 → placedOn s.m g t r → g ∈ t.members → t.members.Nodup →
    (∀ k ∈ t.members, ((s.m.core k).task).isSome = true) →
    let good : Prop := descOk (wordsOf 8 (s.m.devRead (s.m.ctx t.ctx).secure (textDesc t.text) 64)) t.entry = true
    (r.reason = 0 → good → ∃ m' : Mach, exec (.taskStart g) s = .next (after s m') ∧ (∀ h, h ∉ t.members → m'.core h = s.m.core h) ∧
      ∀ k ∈ t.members, ∀ x, (s.m.core k).task = some x →
        let c := m'.core k
        (∀ n : Fin 32, c.s[n.val] = if n = 1 then x.frame.setWidth 64 else 0) ∧
        (∀ e, (c.e e).pc = x.entry ∧ (c.e e).walk = 0 ∧ (c.e e).loops = [] ∧ (c.e e).ended = false) ∧
        c.a = Vector.replicate 3 (Vector.replicate 16 0) ∧ c.v = Vector.replicate 32 Tile.zero ∧ c.w = Vector.replicate 8 Tile.zero ∧
        c.z = Vector.replicate 2 Tile.zero ∧ c.m = Vector.replicate 8 0 ∧ c.qt = Vector.replicate 4 [] ∧ c.qw = Vector.replicate 4 [] ∧
        c.out = Vector.replicate 5 [] ∧ c.cq = 0 ∧ c.vbuf = none ∧ c.round = Vector.replicate 3 0 ∧ c.seed = Vector.replicate 3 0 ∧
        c.btmcfg = Vector.replicate 2 true ∧ c.dirty = 0 ∧ c.halt = none ∧ c.hold = none ∧ c.safe = none ∧ (∀ e, (c.e e).rep = 0 ∧ (c.e e).job = none) ∧
        (∀ p q, c.tokens p q = 0) ∧ c.slipw = 256 ∧ c.mx = MxState.reset ∧ c.spad = (s.m.core k).spad ∧ c.acc = (s.m.core k).acc ∧
        c.rings = (s.m.core k).rings ∧ c.btm = (s.m.core k).btm ∧ (∃ y, c.task = some y ∧ y.running = true ∧ y.recId = x.recId ∧ y.ctx = x.ctx) ∧
        ((s.m.ctx x.ctx).busy = true → c.owes = some (s.m.die (dieOf k)).cycle ∧ coreCode k ∈ (m'.ctx x.ctx).owed)) ∧
    (r.reason ≠ 0 → exec (.taskStart g) s = .next s) ∧ (r.reason = 0 → exec (.taskResume g) s = .next s) ∧
    (r.reason ≠ 0 → good → ∃ m' : Mach, exec (.taskResume g) s = .next (after s m') ∧ (∀ h, h ∉ t.members → m'.core h = s.m.core h) ∧
      ∀ k ∈ t.members, ∀ x, (s.m.core k).task = some x → ∃ c : Core,
        let b := slotByte s.m x.ctx k
        let live := slotNum b 8 8
        m'.core k = (if r.past = some x.rank then c.onE .sc fun y => y.advance 1 else c) ∧
        CtrlHolds b c ∧ FilesHold b live c ∧ ImageHolds b c ∧ ElseZero b live c ∧ c.mx = readMx (slotBytes b) ∧
        PrivHolds ((r.priv[x.rank.val]?).getD (privOf Core.reset)) live c ∧
        (∀ e, (c.e e).walk = if slotNum b 0 1 = 1 then 0 else BitVec.ofNat 32 (slotNum b (0x80 + 8 * (engIx e).val) 4)) ∧
        ∃ y, c.task = some y ∧ y.running = true ∧ y.recId = x.recId ∧ y.ctx = x.ctx ∧ y.rank = x.rank) ∧
    (¬ good → ∀ i, (i = .taskStart g ∧ r.reason = 0) ∨ (i = .taskResume g ∧ r.reason ≠ 0) → ∃ m' : Mach, exec i s = .next (after s m') ∧
      ∀ k ∈ t.members, ∃ f, (m'.core k).halt = some (.trap f) ∧ f.cause = .illegal ∧ f.padr = t.entry ∧ f.code = 0)) ∧
  (∀ (c : Core), c.leftovers = false ↔ (∀ q : Fin 4, c.qt[q.val] = [] ∧ c.qw[q.val] = []) ∧ ∀ p q, c.tokens p q = 0) ∧
  (∀ (s : State) g t, s.boot.state = 2 → (s.m.core g).task = some t → t.running = true →
    ((∃ k ∈ t.members, (s.m.core k).halt ≠ none ∨ ∃ e, ((s.m.core k).e e).ended = false) → exec (.taskRetire g) s = .next s) ∧
    ((∀ k ∈ t.members, (s.m.core k).halt = none ∧ ∀ e, ((s.m.core k).e e).ended = true) →
      (∀ k, t.members.find? (fun k => (s.m.core k).leftovers) = some k → exec (.taskRetire g) s = .next (after s
        (s.m.takeTrap k .sc .illegal 0 (BitVec.ofNat 64 (leVal ((s.m.fetch t ((s.m.core k).e .sc).pc.toNat).take 6)))))) ∧
      ((∀ k ∈ t.members, (s.m.core k).leftovers = false) → ∃ m1 : Mach,
        (∀ k ∈ t.members, (m1.core k).task = none ∧ (m1.core k).cq = 0 ∧ ∀ o ∈ m1.ops, o.core = k → o.entry = false) ∧
        (sound s.m → ∀ d, (m1.die d).recs = (s.m.die d).recs) ∧
        (m1.getRec (dieOf g) t.recId = none → exec (.taskRetire g) s = .next (after s m1)) ∧
        ∀ r, m1.getRec (dieOf g) t.recId = some r → exec (.taskRetire g) s = .next (after s (m1.retireRec (dieOf g) r))))) ∧
  (∀ (s : State) g, s.boot.state = 2 →
    ((s.m.core g).safe = none →
      (∀ p, s.m.atSafePoint g = some p → exec (.safePointStop g) s = .next (after s ((s.m.noteMap g).onCore g fun c => { c with safe := some p }))) ∧
      (s.m.atSafePoint g = none → exec (.safePointStop g) s = .next s)) ∧
    (∀ p l, (s.m.core g).safe = some (p, l) →
      (∀ e, s.m.deadlocked g = some e → exec (.safePointStop g) s = .next (after s (s.m.trapDeadlock g e (some p)))) ∧
      (s.m.deadlocked g = none → exec (.safePointStop g) s = .next s))) ∧
  (∀ (m : Mach) (t : CoreTask),
    (∀ k i, t.members.findSome? (fun k => (m.core k).halt) = some k →
      (k = .trap i → m.saveReason t = some 3) ∧ (k = .yield ∨ k = .swap → m.saveReason t = some 2) ∧ (k = .forced → m.saveReason t = some 4) ∧
      (k = .killed → m.saveReason t = none)) ∧
    ((∀ k ∈ t.members, (m.core k).halt = none) → t.running = true →
      (m.saveReason t = some 1 ↔ (∀ k ∈ t.members, (m.core k).atSafe = true ∨ ∀ e, ((m.core k).e e).ended = true) ∧
        ∃ k ∈ t.members, (m.core k).atSafe = true))) ∧
  (∀ (s : State) g t, s.boot.state = 2 → (s.m.core g).task = some t →
    (s.m.saveReason t = none → exec (.taskSave g) s = .next s) ∧
    ∀ n, s.m.saveReason t = some n →
      (s.m.openCommands t = true ∨ s.m.inRepetition t = true → exec (.taskSave g) s = .next s) ∧
      (s.m.openCommands t = false → s.m.inRepetition t = false →
        let stored := t.members.foldl (fun m k => (m.performStore k).drainStores k) s.m
        let read := stored.saveReadsAll t.ctx n t.members
        let written := t.members.foldl (fun m k =>
          m.saveSlot t.ctx k n ((m.core k).liveMask n) ((s.m.getRec (dieOf g) t.recId).bind (·.addr))) read.1
        let left := t.members.foldl Mach.freeCore written
        (read.2 = false → exec (.taskSave g) s = .next (after s read.1)) ∧
        (read.2 = true → ∃ m' : Mach, exec (.taskSave g) s = .next (after s ((m'.setState (dieOf g) t.recId .saved).scan (dieOf g))) ∧ m'.cores = left.cores ∧
          (∀ k ∈ t.members, (m'.core k).task = none ∧ (m'.core k).halt = none ∧ (m'.core k).req = false) ∧
          (∀ r, left.getRec (dieOf g) t.recId = some r → ∃ q, m'.getRec (dieOf g) t.recId = some q ∧ q.reason = n ∧ q.cores = r.cores ∧
            (q.passOver = true ↔ ∃ k ∈ t.members, (s.m.core k).halt = some .yield)) ∧
          ∀ i, s.m.haltInfo t = some i → ∃ p ∈ (m'.ctx t.ctx).pendTraps, p.recId = t.recId ∧ p.info = i))) ∧
  (∀ (m : Mach) (c : Fin 64) (n : Nat) (l : List (Fin 256)), sound m → m.saveReadsAll c n l = (m, true)) ∧
  (∀ (m : Mach) (c : Fin 64) (g : Fin 256) (n : Nat) (live : Word) (a : Option (BitVec 48)),
    (∀ o, o < 2 ^ 23 → m.mayTouch (m.ctx c).secure ((m.ctx c).cur.savebase.toNat + 2 ^ 23 * g.val + o) = true) →
    let m' := m.saveSlot c g n live a
    let k := m.core g
    let b := slotByte m' c g
    m'.cores = m.cores ∧ m'.ctxs = m.ctxs ∧ m'.dies = m.dies ∧ m'.ops = m.ops ∧
    CtrlHolds b k ∧ FilesHold b live.toNat k ∧ ImageHolds b k ∧
    slotNum b 0 1 = n % 256 ∧ slotNum b 1 1 = 1 ∧ slotNum b 8 8 = live.toNat ∧ slotNum b 0x10 6 = (a.getD 0).toNat ∧
    (∀ e : Engine, (k.e e).walk = BitVec.ofNat 32 (slotNum b (0x80 + 8 * (engIx e).val) 4)) ∧
    slotNum b 0x240000 2 = 1 ∧ (∀ r : Fin 768, k.dirty.getLsbD r.val = true ↔ ∃ j, j < imageRegions b ∧ imageDir b j % 1024 = r.val) ∧
    (∀ i j, i < j → j < imageRegions b → imageDir b i % 1024 < imageDir b j % 1024) ∧
    (∀ r : Fin 768, k.dirty.getLsbD r.val = true → Memory.read k.spad (4096 * r.val) 4096 =
      zrDecode (zrEncode (Memory.read k.spad (4096 * r.val) 4096)).2 (zrEncode (Memory.read k.spad (4096 * r.val) 4096)).1) ∧
    (k.mx.dsts.length ≤ 1408 → readMx (slotBytes b) = { k.mx with present := none, taken := [] }) ∧
    (withinRoom k → ∀ x, (x < (m.ctx c).cur.savebase.toNat + 2 ^ 23 * g.val ∨ (m.ctx c).cur.savebase.toNat + 2 ^ 23 * (g.val + 1) ≤ x) →
      Memory.read1 m'.dev x = Memory.read1 m.dev x))

/-! ## Messages of the fabric -/

/-- R213, R337 to R340, R349: a message for a scratchpad is written, or arrives at its cell once it is due, when a task of its
context runs on the core and no request waits before it there; until then its port holds it. R264, R265: a piece of a
leader's shard is kept, and a notice poisons its shard. What is of a reserved kind or bit, breaks the worlds or names no
scratchpad is discarded and counted. The model's own readings: the ADDR fields of a KIND 5 header (log entry 43), a held
message presented again (80), the order of a stream's arrivals (94), WHERE of a report (96). -/
def Obligations.MessagesAreTaken : Prop :=
  (∀ (m : Mach) (x : FMsg), m.due x = true ↔
    (m.accepted x = x.count ∨ 2 ^ 31 ≤ (x.count - m.accepted x).toNat) ∧
    ∀ y, ((∃ o ∈ m.outbox, o.msg = y) ∨ ∃ h ∈ m.inbox, h.msg = y) → isArrival y = true → y.spkg = x.spkg → y.dpkg = x.dpkg → y.stream = x.stream →
      y.count = x.count ∨ 2 ^ 31 ≤ (x.count - y.count).toNat) ∧
  (∀ (s : State) x i, s.boot.state = 2 → atPort s.m x →
    (i = .rowWrite x ∧ x.kind = 1) ∨ (i = .copyData x ∧ x.kind = 6) ∨ (i = .rowArrival x ∧ x.kind = 2) ∨ (i = .copyArrival x ∧ x.kind = 7) →
    (x.resv = true → ∃ m' : Mach, exec i s = .next (after s m') ∧ discarded s.m m' x ∧ (m'.die 0).lan.psnrx = sat32 (s.m.die 0).lan.psnrx) ∧
    (x.resv = false → x.sec ≠ (s.m.ctx x.ctx).secure → ∃ m' : Mach, exec i s = .next (after s m') ∧ discarded s.m m' x) ∧
    (lawful s.m x → ¬ onSpad s.m x → ∃ m' : Mach, exec i s = .next (after s m') ∧ discarded s.m m' x ∧ m'.host = s.m.host) ∧
    (lawful s.m x → onSpad s.m x → isArrival x = true → s.m.due x = false → exec i s = .next (after s (s.m.holdMsg x none))) ∧
    (lawful s.m x → onSpad s.m x → (isArrival x = true → s.m.due x = true) → s.m.admits (coreTo x) x.ctx (.msg x) = false →
      exec i s = .next (after s ((s.m.holdMsg x none).enqueue (coreTo x) x.ctx (.msg x))))) ∧
  (∀ (s : State) x i, s.boot.state = 2 → atPort s.m x → lawful s.m x → onSpad s.m x → s.m.admits (coreTo x) x.ctx (.msg x) = true → x.bad = [] →
    ((i = .rowWrite x ∧ x.kind = 1) ∨ (i = .copyData x ∧ x.kind = 6) → ∃ m' : Mach, exec i s = .next (after s m') ∧ sameElse s.m m' ∧
      (∀ k, k < x.bytes.toNat → spadByte m' (coreTo x) (x.addr.toNat + k) = x.payload.getD k 0) ∧
      sameButBytes (s.m.core (coreTo x)).spad (m'.core (coreTo x)).spad x.addr.toNat x.bytes.toNat ∧
      (∀ h, h ≠ coreTo x → m'.core h = s.m.core h) ∧ (∀ h ∈ m'.inbox, h.msg ≠ x) ∧
      m'.accepted x = s.m.accepted x + 1 ∧ ∀ y, (y.spkg ≠ x.spkg ∨ y.stream ≠ x.stream) → m'.accepted y = s.m.accepted y) ∧
    ((i = .rowArrival x ∧ x.kind = 2) ∨ (i = .copyArrival x ∧ x.kind = 7) → s.m.due x = true → (s.m.core (coreTo x)).clean = true →
      ∃ m' : Mach, exec i s = .next (after s m') ∧ (∀ h ∈ m'.inbox, h.msg ≠ x) ∧ m'.streams = s.m.streams ∧ m'.dev = s.m.dev ∧
        ∀ h, (m'.core h).spad = ((s.m.arrive (coreTo x) x.addr.toNat x.ctx).core h).spad)) ∧
  (∀ (s : State) x, s.boot.state = 2 → atPort s.m x → (x.kind = 0 ∨ 8 < x.kind.toNat) → ∃ m' : Mach,
    exec (.reservedKindMessage x) s = .next (after s m') ∧ discarded s.m m' x ∧ (m'.die 0).lan.psnrx = sat32 (s.m.die 0).lan.psnrx) ∧
  (∀ (s : State) x, s.boot.state = 2 → x.kind = 4 → atPort s.m x → lawful s.m x →
    let d := toDie x.dcore.toNat
    ((s.m.die d).lan.en = false → exec (.lanternArrival x) s = .next (after s (s.m.holdMsg x none))) ∧
    ((s.m.die d).lan.en = true → (s.m.die d).lan.lctx ≠ x.ctx → ∃ m' : Mach, exec (.lanternArrival x) s = .next (after s m') ∧ discarded s.m m' x) ∧
    ((s.m.die d).lan.en = true → (s.m.die d).lan.lctx = x.ctx → s.m.due x = false → exec (.lanternArrival x) s = .next (after s (s.m.holdMsg x none))) ∧
    ((s.m.die d).lan.en = true → (s.m.die d).lan.lctx = x.ctx → s.m.due x = true → ∃ m' : Mach, exec (.lanternArrival x) s = .next (after s m') ∧
      (∀ ch : Fin 16, (m'.die d).lan.arr[ch.val] = if ch.val = x.ch.toNat then (s.m.die d).lan.arr[ch.val] + 1 else (s.m.die d).lan.arr[ch.val]) ∧
      (m'.die d).lan.con = (s.m.die d).lan.con ∧ m'.cores = s.m.cores ∧ m'.dev = s.m.dev ∧ m'.streams = s.m.streams)) ∧
  (∀ (s : State) x, s.boot.state = 2 → x.kind = 3 → atPort s.m x → lawful s.m x → x.bad = [] →
    let d := toDie x.dcore.toNat
    ((s.m.die d).lan.en = false → exec (.lanternData x) s = .next (after s (s.m.holdMsg x none))) ∧
    ((s.m.die d).lan.en = true → (s.m.die d).lan.lctx = x.ctx → (∃ h ∈ s.m.inbox, h.msg = x ∧ h.stop ≠ none) → exec (.lanternData x) s = .next s) ∧
    ((s.m.die d).lan.en = true → (s.m.die d).lan.lctx = x.ctx → (∀ h ∈ s.m.inbox, h.msg = x → h.stop = none) →
      (∀ m1, s.m.heapWrite d x.addr.toNat (payloadOf x) = (none, m1) → exec (.lanternData x) s = .next (after s ((m1.taken x).counted x))) ∧
      ∀ t m1, s.m.heapWrite d x.addr.toNat (payloadOf x) = (some t, m1) → ∃ (held : Bool) (m' : Mach),
        exec (.lanternData x) s = .next (after s (m'.holdMsg x (some ((s.m.die d).lan.heapt, t, held)))) ∧ m'.dev = m1.dev ∧ m'.cores = m1.cores)) ∧
  (∀ (s : State) x i, s.boot.state = 2 → atPort s.m x → lawful s.m x →
    (i = .belfryShard x ∧ x.kind = 5) ∨ (i = .poisonNotice x ∧ x.kind = 8) →
    (s.m.matchShard x = none → exec i s = .next (after s (s.m.holdMsg x none))) ∧
    (∀ d y, s.m.matchShard x = some (d, y) →
      let lsh := objLsh (s.m.objRec (s.m.bslot d y.slot).ctx (s.m.itEnt (s.m.bslot d y.slot) y.ent).obj)
      let spoiled := (s.m.taken x).poisonShard d y.slot y.hop y.ent y.slot.val
      (i = .poisonNotice x → exec i s = .next (after s spoiled)) ∧
      (i = .belfryShard x → x.addr.toNat / 2 ^ 24 % 16 ≠ lsh → exec i s = .next (after s spoiled)) ∧
      (i = .belfryShard x → x.addr.toNat / 2 ^ 24 % 16 = lsh →
        (x.addr.toNat % 2 ^ 24 ≠ (y.rx.getD []).length → exec i s = .next (after s (s.m.holdMsg x none))) ∧
        (x.bad = [] → x.addr.toNat % 2 ^ 24 = (y.rx.getD []).length → ∃ m' : Mach, exec i s = .next (after s m') ∧ m'.cores = s.m.cores ∧ m'.dev = s.m.dev ∧
          (m'.die d).belfry.shards = (s.m.die d).belfry.shards.map fun z =>
            if z = y then { z with rx := some ((y.rx.getD []) ++ (List.range x.bytes.toNat).map fun k => x.payload.getD k 0) } else z))))

namespace Sys2Proof.Claims
open Sys2Proof.Machine

/-! ## The machine as a whole -/

/-- An engine e of core g, in the machine m of a step, executes parcel i of its task: the task runs, the frames of the
parcel are present, its bytes decode to i, it is the engine's own or shared with it, and either a repetition of it is
under way, or nothing stops or holds the engine, its core's port has kept no request of the context before the
engine's own, and the slip window has room for SC (R45 to R49, R51, R52, R72, R73, R93, R95, R149). -/
structure Executes (m : Mach) (g : Fin 256) (e : Engine) (i : Instr) : Prop where
  text : ∃ t, (m.core g).task = some t ∧ t.running = true ∧ ((m.core g).e e).pc.toNat < t.nparcel.toNat ∧
    m.noText t ((m.core g).e e).pc.toNat = false ∧
    (∃ rest, decodeBytes (m.fetch t ((m.core g).e e).pc.toNat) = .ok (i, rest)) ∧
    let p := leVal ((m.fetch t ((m.core g).e e).pc.toNat).take 6)
    (bit p 47 = true → ((m.core g).e e).pc.toNat + 1 ≠ t.nparcel.toNat ∧ m.noText t (((m.core g).e e).pc.toNat + 1) = false) ∧
    (fld p 44 3 = (engIx e).val ∨
      (shares i e = true ∧ (fld p 44 3 = 0 ∨ (fld p 44 3 = 5 ∧ (e = .sc ∨ e = .vx)))))
  moves : ((m.core g).e e).job ≠ none ∨
    ((m.core g).halt = none ∧ ((m.core g).e e).owed = none ∧ ((m.core g).e e).ended = false ∧ portWait ((m.core g).e e) = false ∧
     (m.queued g (m.ctxOf g) = [] ∨ ((m.core g).e e).presented = true) ∧
     (e = .sc → (m.core g).hold = none ∧ (m.core g).safe = none ∧
       ((m.core g).req = false ∨ ∀ t, (m.core g).task = some t → m.safeAt t ((m.core g).e .sc).pc.toNat = none) ∧
       (m.core g).slip + parcels i ≤ (m.core g).slipw.toNat) ∧
     (e ≠ .sc → ((m.core g).e e).walk ≠ ((m.core g).e .sc).walk))

/-- Until the boot has made the module ready, no task, record, launch, operation, row of Cupola, running itinerary or Lantern
program exists, and no invalidation is under way. -/
def IdleUntilReady (s : State) : Prop :=
  s.boot.state ≠ 2 →
    (∀ g, (s.m.core g).task = none) ∧ (∀ c, (s.m.ctx c).run = false ∧ (s.m.ctx c).busy = false) ∧
    s.m.ops = [] ∧ ∀ d, (s.m.die d).recs = [] ∧ (s.m.die d).lan.run = none ∧ (s.m.die d).cup.accepted = [] ∧
      ∀ n : Fin 4, ((s.m.die d).belfry.slots[n.val]).running = false

/-- The events that change the boot logic: power, restart, boot and attestation (R359 to R363), and a write of a register
(NONCE and LAFRAME are among them). -/
def bootEvent : Instr → Bool
  | .powerUp | .powerLoss | .restart _ | .functionLevelReset | .bootgo _ | .bootEnd | .ataddr _ | .attestationReportEnd
  | .measurementExtend _ _ | .registerWrite _ _ _ _ _ => true
  | _ => false

/-- The parcels whose words name their operation: RGTAKE and SMTAB hold theirs in their blocks, so one word stands for
each of the two (R332, R421; log entry 15). -/
def namedByBlock : Instr → Bool
  | .rgtakeRelease _ _ | .addcnt _ _ | .clrcnt _ _ | .armv _ _ | .setstep _ _ => true
  | _ => false

/-- The steps of a Lantern program (R346). -/
def lanternStep : Instr → Bool
  | .lnsend _ | .lnrecv _ | .lnrrs _ | .lncopy _ | .lnwait _ _ | .lnsig _ | .lnloop _ _ | .lnendl _ | .lnend => true
  | _ => false

end Sys2Proof.Claims

/-- R9, R69, R162, R192, R214, R220, R245, R293, R294, R313, R335, R359, R363, R365, R411, R496: the reset columns of the
registers, at the state after power-up. -/
def Obligations.ResetValues : Prop :=
  let s := State.reset
  (s.boot.state = 0 ∧ s.boot.code = 0 ∧ s.boot.laframe = 0 ∧ s.boot.nonce = 0 ∧ s.boot.meas = Vector.replicate 4 0 ∧
    s.m.errbase = 0 ∧ s.m.errhead = 0 ∧ s.m.errtail = 0 ∧ s.m.trans = 0 ∧ s.m.errlost = 0 ∧ s.m.pdec = Vector.replicate 16 0 ∧
    s.m.regions = Vector.replicate 16 (Vector.replicate 64 0)) ∧
  (∀ g : Fin 256, (s.m.core g).ithrot = 16 ∧ ∀ r : Fin 16, (s.m.core g).rings[r.val] = ⟨0, 0, 0, 0, 0, 0, 0, 0, 0⟩) ∧
  (∀ c : Fin 64, let x := s.m.ctx c
    (∀ n : Fin 64, x.gp[n.val] = 0) ∧ x.tinvrFirst = 0 ∧ x.tinvrNt = 0 ∧ x.busy = false ∧ x.wd = false ∧ x.done = 0 ∧
    x.twdog = 2 ^ 24 ∧ x.tdbase = 0 ∧ x.stray = 0 ∧ x.killing = false ∧ x.quiet = false ∧
    (∀ n : Fin 16, x.frec[n.val] = ⟨0, false, 0, 0, 0⟩) ∧ x.run = false ∧ x.drop = false ∧ x.cause = 0 ∧ x.lseq = 0 ∧
    x.cwaddr = 0 ∧ x.coalCnt = 1 ∧ x.coalWin = 0 ∧ x.regs = ⟨0, 0, 0, false, 0, 0, 0, 0⟩ ∧ x.trhead = 0 ∧ x.trtail = 0 ∧
    x.spin = 65536 ∧ x.susp = false ∧ x.dlk = false ∧ x.dlen = 0 ∧ x.nen = false ∧ x.nrhead = 0 ∧ x.nrtail = 0 ∧ x.nlost = 0 ∧
    x.otbase = 0 ∧ x.nobj = 0 ∧ ∀ n : Fin 8, x.fsb[n.val] = 0 ∧ x.fcnt[n.val] = 0 ∧ x.fcap[n.val] = 0) ∧
  (∀ d : Fin 4, let x := s.m.die d
    x.cycle = 0 ∧ x.camp.en = false ∧ x.camp.sdbase = 0 ∧ x.camp.hibase = 0 ∧ x.camp.specerr = 0 ∧ x.camp.retired = 0 ∧
    x.camp.hfull = 0 ∧ x.camp.scrub = 0 ∧ x.camp.qslot = 0 ∧ x.camp.qcnt = 0 ∧
    (∀ p : Fin 16, x.camp.pools[p.val] = ⟨0, 0, 0, false, false, 0, 0, 0, 0, 0⟩) ∧
    x.cup.en = false ∧ x.cup.sbbase = 0 ∧ x.cup.asbase = 0 ∧ x.cup.score = 0 ∧ x.cup.srng = 0 ∧ x.cup.sren = false ∧
    x.cup.rows = 0 ∧ x.cup.diverts = 0 ∧ x.cup.segdrop = 0 ∧ x.cup.ctfull = 0 ∧
    x.lan.en = false ∧ x.lan.lctx = 0 ∧ x.lan.heapt = 0 ∧ x.lan.fabid = 0 ∧ x.lan.gtbase = 0 ∧ x.lan.rseq = 0 ∧
    x.lan.psnrx = 0 ∧ x.lan.fdrop = 0)

/-- R44, R45: a step in which an engine stands at a parcel of its own, or shared with it, is `exec` of the instruction
that the parcel's bytes decode to, with the operation its block names (R332, R421), at the state whose clocks have
passed and whose engine is in focus; a unit's step is `exec` of what it acts on next; an event's step is `exec` of the
event. R51: an engine stays while a frame of its parcel is not present. R11, R149: a port that takes the parcel's
request notes its place in the clock (log entry 102). R199: the store that SC has presented is performed in a step of
its own. R38: a message stays with its sender on a die without a fabric port. Which agent moves is the model's own free
choice (log entry 5), and so is that SC steps over an AS-tagged parcel that does not decode (89). -/
def Obligations.StepRunsDecoded : Prop :=
  (∀ (s : State) (g : Fin 256) (e : Engine) (i : Instr), s.boot.powered = true → nextMove s = .walk g e →
    Executes (begun s).m g e i →
    step s = exec (resolve (begun s).m g e i) (focused { begun s with m := (noteFetch g e (begun s).m).noteTurn g e i } (.engine g e))) ∧
  (∀ (s : State) (d : Fin 4) (u : UnitKind) (i : Instr), s.boot.powered = true → nextMove s = .unit d u →
    (begun s).m.unitInstr d u = some i → step s = exec i (focused (begun s) (.unit d u))) ∧
  (∀ (s : State) (i : Instr), s.boot.powered = true → nextMove s = .event i → step s = exec i (begun s)) ∧
  (∀ (s : State), s.boot.powered = false → nextMove s ≠ .event .powerUp → step s = .next (begun s)) ∧
  (∀ (s : State) (g : Fin 256) (e : Engine) (t : CoreTask), s.boot.powered = true → nextMove s = .walk g e →
    ((begun s).m.core g).task = some t → (((begun s).m.core g).e e).owed = none → (((begun s).m.core g).e e).pc.toNat < t.nparcel.toNat →
    (begun s).m.noText t (((begun s).m.core g).e e).pc.toNat = true →
    ((begun s).m.core g).hold = none → step s = .next (begun s)) ∧
  (∀ (s : State) (g : Fin 256), s.boot.powered = true → nextMove s = .perform g →
    ((((begun s).m.core g).pend = none → step s = .next (begun s)) ∧
     ∀ p, ((begun s).m.core g).pend = some p → p.load = none → ∃ m' : Mach, step s = .next (after (begun s) m') ∧ (m'.core g).pend = none ∧
       (p.acc = false → Memory.read (m'.core p.core).spad p.addr p.bytes.length = p.bytes) ∧
       (p.acc = true → Memory.read (m'.core p.core).acc p.addr p.bytes.length = p.bytes) ∧
       (p.sig = none → (m'.core g).tok = ((begun s).m.core g).tok) ∧ m'.dev = (begun s).m.dev ∧
       ∀ d, sameButClock ((begun s).m.die d) (m'.die d))) ∧
  (∀ (s : State) (k : Nat) o, s.boot.powered = true → nextMove s = .fabricTakes k → (begun s).m.outbox[k]? = some o →
    o.sent = false → (s.m.fuses.fab[o.die.val] = 0 ∨ o.msg.dpkg = (begun s).m.fabid) → step s = .next (begun s)) ∧
  (∀ m g e i, (∀ t a, i ≠ .rgtakeTake t a ∧ i ≠ .clrslow t a) → resolve m g e i = i)

/-- Words written out in spec/: their instructions. -/
def Obligations.DecodingSanity : Prop :=
  let n : Tok := ⟨none, none⟩
  decodeTableWord 48 0x3080_0306_2A18 = some (.vfma n (.v 3) (.v 1) (.w 2) (.z 0) 3 .f32) ∧
  decodeTableWord 48 0x1000_0447_8040 = some (.vld n (.v 4) 2 15 2 .loc .b32) ∧
  decodeTableWord 48 0x2000_3361_FFA0 = some (.vst n (.q 3) 3 3 (-3) .loc .b32) ∧
  decodeTableWord 48 0x40A0_0801_8600 = some (.mmul n 512 3 3 .s11 .e4m3 false false) ∧
  decodeTableWord 96 (0x0000_0123_4567 * 2 ^ 48 + 0x8580_0E08_9ABC) = some (.moviL n 7 0x89ABC 0x1234567) ∧
  decodeTableWord 48 0x0600_04A0_FFFE = some (.br n .ne 5 0 (-2)) ∧
  decodeTableWord 48 0x0020_0642_8000 = some (.add n 3 4 5) ∧
  decodeTableWord 48 0x0460_0C70_0307 = some (.bits n 6 7 12 7) ∧
  decodeTableWord 48 0x03A0_0642_8004 = some (.cmp n 3 4 5 .ltu) ∧
  decodeTableWord 48 0x0758_1EE0_0000 = some (.sld ⟨some .asy, none⟩ 15 14 0) ∧
  decodeTableWord 48 0x07A3_00A6_0000 = some (.sst ⟨none, some .asy⟩ 10 12 0) ∧
  decodeTableWord 48 0x5424_00B0_0000 = some (.barv ⟨some .sc, none⟩ 11) ∧
  decodeTableWord 48 0x5440_80D0_0001 = some (.bwait ⟨none, some .sc⟩ 13 true) ∧
  decodeTableWord 48 0x5600_9800_0000 = some (.balloc ⟨none, some .sc⟩ 12) ∧
  decodeTableWord 48 0x54C0_0090_0040 = some (.rngwe n 9 0x40) ∧
  decodeTableWord 48 0x5322_0801_C000 = some (.vatomAdd ⟨none, some .vx⟩ 4 (.v 7)) ∧
  decodeTableWord 64 0x1180_0000_4000_8000 =
    some (.lnsend { cv := 0, par := false, ls := 3, px := false, pa := 0, pb := 1, ck := false, ca := 0, cb := 0, d := 1, ch := 0, rop := 0 }) ∧
  decodeTableWord 64 0x7000_0000_0000_0002 = some (.lnloop 0 2) ∧
  decodeTableWord 48 0x3080_4306_2A18 = none ∧ decodeTableWord 48 0x6000_0000_0000 = none

/-- R75 to R84, R346: decoding the words of a well-formed instruction of SC, LD, ST, MX or AS, or of a Lantern step, gives
that instruction, whatever bytes follow. -/
def Obligations.DecodeEncode : Prop :=
  (∀ (i : Instr) (rest : List Byte), i.wellFormed = true → namedByBlock i = false →
    owner i ∈ [some .sc, some .ld, some .st, some .mx, some .asy] →
    decodeBytes ((encode i).flatMap (leBytes 6) ++ rest) = .ok (i, rest)) ∧
  (∀ i : Instr, i.wellFormed = true → lanternStep i = true → ∃ w, encode i = [w] ∧ decodeStep w = .ok i)

/-- R81, R85 to R87: the same of every well-formed instruction of VX. -/
def Obligations.DecodeEncodeVx : Prop :=
  ∀ (i : Instr) (rest : List Byte), i.wellFormed = true → owner i = some .vx →
    decodeBytes ((encode i).flatMap (leBytes 6) ++ rest) = .ok (i, rest)

/-- R360, R361: while the boot has not made the module ready, nothing runs; every step keeps it so. -/
def Obligations.NothingRunsUntilReady : Prop :=
  ∀ s t : State, IdleUntilReady s → step s = .next t → IdleUntilReady t

/-- R360: nothing runs at reset. -/
def Obligations.NothingRunsAtReset : Prop := IdleUntilReady State.reset ∧ State.reset.boot.state ≠ 2

/-- Every instruction answers a next state in every state, and none but the boot events changes the boot logic or the
moves to come. -/
def Obligations.EveryInstructionAnswers : Prop :=
  ∀ (i : Instr) (s : State), ∃ t, exec i s = .next t ∧ (bootEvent i = false → t.boot = s.boot ∧ t.agenda = s.agenda)

/-- The frame of SC's register instructions (R13, R59, R62; R371, R372, R379, R387, R405 to R408, R414, R427, R431,
R466): where one answers a next state, every other core and every memory, context, die and operation is as it was; on
its core every other scalar register, the vector and pattern registers, the queues, the special registers and the other
engines are. -/
def Obligations.ScRegisterFrame : Prop :=
  ∀ (i : Instr) (s t : State) (g : Fin 256) (d : Fin 32), mayIssue i s g .sc →
    ((∃ x, arithResult (s.m.core g) i = some (d, x)) ∨ ∃ f, bitResult (s.m.core g) i = some (d, f)) →
    exec i s = .next t →
    let c := s.m.core g
    let c' := t.m.core g
    sameButCore g s.m t.m ∧ t.boot = s.boot ∧ (∀ r, r ≠ d → c'.rs r = c.rs r) ∧ c'.a = c.a ∧ c'.v = c.v ∧ c'.w = c.w ∧ c'.z = c.z ∧
    c'.m = c.m ∧ c'.out = c.out ∧ c'.qt = c.qt ∧ c'.qw = c.qw ∧ c'.cq = c.cq ∧ c'.slipw = c.slipw ∧ c'.round = c.round ∧
    c'.seed = c.seed ∧ c'.btmcfg = c.btmcfg ∧ c'.ithrot = c.ithrot ∧ c'.spad = c.spad ∧ c'.acc = c.acc ∧ c'.dirty = c.dirty ∧
    c'.rings = c.rings ∧ c'.btm = c.btm ∧ c'.mx = c.mx ∧ c'.task = c.task ∧ c'.halt = c.halt ∧ c'.hold = c.hold ∧
    c'.pend = c.pend ∧ c'.lastReq = c.lastReq ∧ c'.portq = c.portq ∧ c'.ringWaits = c.ringWaits ∧ c'.vbuf = c.vbuf ∧
    ∀ e, e ≠ .sc → c'.e e = c.e e
end

