-- ==== Sys2Proof/Laws/Memory.lean ====
section
/-!
SUPPORT. The laws of memory: every operation keeps the canonical form, a read after a write reads what was written, and
a write leaves every other byte alone (Machine/State.lean, Machine/Bits.lean).
-/
namespace Sys2Proof.Machine

/-! ## Lists of cells -/

theorem lookup_append (a : Nat) (l r : Memory) : List.lookup a (l ++ r) = (List.lookup a l).or (List.lookup a r) := by
  induction l with
  | nil => rfl
  | cons c l ih =>
    obtain ⟨k, b⟩ := c
    by_cases h : a = k
    · simp [List.lookup, h]
    · have : (a == k) = false := by simpa using h
      simp [List.lookup, this, ih]

theorem lookup_filter (a : Nat) (p : Nat → Bool) (l : Memory) :
    List.lookup a (l.filter fun c => p c.1) = if p a then List.lookup a l else none := by
  induction l with
  | nil => simp
  | cons c l ih =>
    obtain ⟨k, b⟩ := c
    by_cases h : a = k
    · subst h; by_cases hp : p a <;> simp [hp, ih, List.lookup]
    · have : (a == k) = false := by simpa using h
      by_cases hp : p k <;> simp [hp, List.lookup, this, ih]

theorem cellsAt_mem {a : Nat} {bs : List Byte} {c : Host.Cell} (h : c ∈ cellsAt a bs) :
    c.2 ≠ 0 ∧ a ≤ c.1 ∧ c.1 < a + bs.length := by
  induction bs generalizing a with
  | nil => simp [cellsAt] at h
  | cons b bs ih =>
    by_cases hb : b = 0
    · rw [cellsAt, if_pos hb] at h
      have := ih h
      have hl : (b :: bs).length = bs.length + 1 := rfl
      refine ⟨this.1, ?_, ?_⟩ <;> omega
    · rw [cellsAt, if_neg hb, List.mem_cons] at h
      rcases h with rfl | h
      · exact ⟨hb, le_rfl, by simp⟩
      · have := ih h
        have hl : (b :: bs).length = bs.length + 1 := rfl
        refine ⟨this.1, ?_, ?_⟩ <;> omega

theorem cellsAt_sorted (a : Nat) (bs : List Byte) : ((cellsAt a bs).map (·.1)).Pairwise (· < ·) := by
  induction bs generalizing a with
  | nil => simp [cellsAt]
  | cons b bs ih =>
    by_cases hb : b = 0
    · rw [cellsAt, if_pos hb]; exact ih _
    · rw [cellsAt, if_neg hb, List.map_cons, List.pairwise_cons]
      refine ⟨?_, ih _⟩
      intro k hk
      obtain ⟨c, hc, rfl⟩ := List.mem_map.1 hk
      have := (cellsAt_mem hc).2.1
      show a < c.1
      omega

theorem lookup_cellsAt (a x : Nat) (bs : List Byte) :
    (List.lookup x (cellsAt a bs)).getD 0 = if a ≤ x ∧ x < a + bs.length then bs.getD (x - a) 0 else 0 := by
  induction bs generalizing a with
  | nil => simp [cellsAt]
  | cons b bs ih =>
    by_cases hx : x = a
    · subst hx
      by_cases hb : b = 0
      · rw [cellsAt, if_pos hb, ih]
        simp [hb]
      · rw [cellsAt, if_neg hb]; simp [List.lookup]
    · have hl : List.lookup x (cellsAt a (b :: bs)) = List.lookup x (cellsAt (a + 1) bs) := by
        have : (x == a) = false := by simpa using hx
        by_cases hb : b = 0
        · rw [cellsAt, if_pos hb]
        · rw [cellsAt, if_neg hb]; simp [List.lookup, this]
      rw [hl, ih]
      by_cases h : a + 1 ≤ x ∧ x < a + 1 + bs.length
      · have h' : a ≤ x ∧ x < a + (b :: bs).length := by simp only [List.length_cons]; omega
        have hs : x - a = (x - (a + 1)) + 1 := by omega
        rw [if_pos h, if_pos h', hs]; simp
      · have h' : ¬ (a ≤ x ∧ x < a + (b :: bs).length) := by simp only [List.length_cons]; omega
        rw [if_neg h, if_neg h']

/-! ## The canonical form -/

theorem wf_iff (m : Memory) : m.wf = true ↔ (∀ c ∈ m, c.2 ≠ 0) ∧ (m.map (·.1)).Pairwise (· < ·) := by
  simp [Memory.wf]

/-- No cell is canonical: the memory at reset. -/
theorem wf_nil : Memory.wf [] = true := rfl

theorem wf_filter {m : Memory} (p : Host.Cell → Bool) (h : m.wf = true) : Memory.wf (m.filter p) = true := by
  rw [wf_iff] at h ⊢
  exact ⟨fun c hc => h.1 c (List.mem_of_mem_filter hc), h.2.sublist ((List.filter_sublist).map _)⟩

/-- A write keeps the canonical form. -/
theorem wf_write {m : Memory} (a : Nat) (bs : List Byte) (h : m.wf = true) : (Memory.write m a bs).wf = true := by
  rw [wf_iff] at h ⊢
  have hf : ∀ p : Host.Cell → Bool, ((m.filter p).map (·.1)).Pairwise (· < ·) :=
    fun p => h.2.sublist ((List.filter_sublist).map _)
  refine ⟨?_, ?_⟩
  · intro c hc
    simp only [Memory.write, List.mem_append] at hc
    rcases hc with (hc | hc) | hc
    · exact h.1 c (List.mem_of_mem_filter hc)
    · exact (cellsAt_mem hc).1
    · exact h.1 c (List.mem_of_mem_filter hc)
  · simp only [Memory.write, List.map_append]
    refine List.pairwise_append.2 ⟨List.pairwise_append.2 ⟨hf _, cellsAt_sorted a bs, ?_⟩, hf _, ?_⟩
    · intro x hx y hy
      obtain ⟨c, hc, rfl⟩ := List.mem_map.1 hx
      obtain ⟨d, hd, rfl⟩ := List.mem_map.1 hy
      have h1 := List.of_mem_filter hc
      have h2 := (cellsAt_mem hd).2.1
      have h1 : c.1 < a := by simpa using h1
      show c.1 < d.1
      omega
    · intro x hx y hy
      obtain ⟨d, hd, rfl⟩ := List.mem_map.1 hy
      have h2 : a + bs.length ≤ d.1 := by simpa using List.of_mem_filter hd
      rcases List.mem_append.1 hx with hx | hx <;> obtain ⟨c, hc, rfl⟩ := List.mem_map.1 hx
      · have h1 : c.1 < a := by simpa using List.of_mem_filter hc
        show c.1 < d.1
        omega
      · have h1 := (cellsAt_mem hc).2.2
        show c.1 < d.1
        omega

/-- Clearing keeps the canonical form. -/
theorem wf_clear {m : Memory} (a n : Nat) (h : m.wf = true) : (Memory.clear m a n).wf = true := wf_filter _ h

/-! ## Reading -/

/-- A byte after a write: what was written there, and elsewhere what stood there. -/
theorem read1_write (m : Memory) (a : Nat) (bs : List Byte) (x : Nat) :
    Memory.read1 (Memory.write m a bs) x =
      if a ≤ x ∧ x < a + bs.length then bs.getD (x - a) 0 else Memory.read1 m x := by
  have hlow := lookup_filter x (fun k => decide (k < a)) m
  have hhigh := lookup_filter x (fun k => decide (a + bs.length ≤ k)) m
  have hc := lookup_cellsAt a x bs
  simp only [Memory.read1, Memory.write]
  rw [lookup_append, lookup_append, hlow, hhigh]
  by_cases h1 : x < a
  · have : ¬ (a ≤ x ∧ x < a + bs.length) := by omega
    have h2 : ¬ a + bs.length ≤ x := by omega
    have hn : List.lookup x (cellsAt a bs) = none := by
      rw [List.lookup_eq_none_iff]
      intro p hp
      have := (cellsAt_mem hp).2.1
      have : x ≠ p.1 := by omega
      simpa using this
    simp [h1, h2, hn]
  · by_cases h2 : a + bs.length ≤ x
    · have h3 : ¬ (a ≤ x ∧ x < a + bs.length) := by omega
      have hn : List.lookup x (cellsAt a bs) = none := by
        rw [List.lookup_eq_none_iff]
        intro p hp
        have := (cellsAt_mem hp).2.2
        have : x ≠ p.1 := by omega
        simpa using this
      rw [if_neg h3]
      simp [h1, h2, hn]
    · have h3 : a ≤ x ∧ x < a + bs.length := by omega
      rw [if_pos h3] at hc ⊢
      simpa [h1, h2] using hc

/-- A byte after clearing n bytes from a. -/
theorem read1_clear (m : Memory) (a n x : Nat) :
    Memory.read1 (Memory.clear m a n) x = if a ≤ x ∧ x < a + n then 0 else Memory.read1 m x := by
  have h := lookup_filter x (fun k => decide (k < a) || decide (a + n ≤ k)) m
  simp only [Memory.read1, Memory.clear]
  rw [h]
  by_cases hx : a ≤ x ∧ x < a + n
  · have : ¬ (x < a ∨ a + n ≤ x) := by omega
    simp [hx, this]
  · have : x < a ∨ a + n ≤ x := by omega
    simp [hx, this]

/-- A write leaves every byte outside it alone. -/
theorem read1_write_outside (m : Memory) (a : Nat) (bs : List Byte) {x : Nat} (h : x < a ∨ a + bs.length ≤ x) :
    Memory.read1 (Memory.write m a bs) x = Memory.read1 m x := by
  rw [read1_write, if_neg (by omega)]

/-- The bytes of a write read back. -/
theorem read_write_same (m : Memory) (a : Nat) (bs : List Byte) :
    Memory.read (Memory.write m a bs) a bs.length = bs := by
  refine List.ext_getElem (by simp [Memory.read]) ?_
  intro k h1 h2
  simp only [Memory.read, List.getElem_map, List.getElem_range]
  rw [read1_write, if_pos (by omega)]
  simp [h2]

/-- Bytes outside a write read as before. -/
theorem read_write_outside (m : Memory) (a : Nat) (bs : List Byte) {x n : Nat} (h : x + n ≤ a ∨ a + bs.length ≤ x) :
    Memory.read (Memory.write m a bs) x n = Memory.read m x n := by
  refine List.map_congr_left fun k hk => ?_
  have := List.mem_range.1 hk
  exact read1_write_outside _ _ _ (by omega)

/-! ## The scratchpad and device memory -/

/-- The scratchpad after a write at its port, and the rest of the core. -/
@[simp] theorem wspad_spad (c : Core) (a : Nat) (bs : List Byte) : (c.wspad a bs).spad = Memory.write c.spad a bs := rfl
@[simp] theorem wspad_acc (c : Core) (a : Nat) (bs : List Byte) : (c.wspad a bs).acc = c.acc := rfl
@[simp] theorem wspad_eng (c : Core) (a : Nat) (bs : List Byte) : (c.wspad a bs).eng = c.eng := rfl
@[simp] theorem wspad_s (c : Core) (a : Nat) (bs : List Byte) : (c.wspad a bs).s = c.s := rfl

/-- A write at a scratchpad's port keeps its canonical form. -/
theorem wspad_wf {c : Core} (a : Nat) (bs : List Byte) (h : Memory.wf c.spad = true) : Memory.wf (c.wspad a bs).spad = true :=
  wf_write a bs h

/-- Every memory of the machine at reset is canonical. -/
theorem reset_memories_wf : Memory.wf State.reset.m.dev = true ∧ Memory.wf State.reset.m.host = true ∧
    ∀ g : Fin 256, Memory.wf (State.reset.m.core g).spad = true ∧ Memory.wf (State.reset.m.core g).acc = true := by
  refine ⟨rfl, rfl, fun g => ?_⟩
  have : State.reset.m.core g = Core.reset := by simp [State.reset, Mach.reset, Mach.core]
  rw [this]; exact ⟨rfl, rfl⟩

end Sys2Proof.Machine
end

