-- ==== Sys2Proof/Laws/Ops.lean ====
section
/-!
SUPPORT. What each shared operation can do, said once: the shapes of a parcel's meaning, and its issue
(Machine/Ops.lean, ScAlu.lean, ScCtl.lean, AsIssue.lean).
-/
namespace Sys2Proof.Machine

/-! ## A meaning of the running machine -/

/-- On a module made ready, a meaning acts on the machine. -/
theorem ready_of_ready {f : Mach → Mach} {s : State} (h : s.boot.state = 2) :
    ready f s = .next { s with m := f s.m } := by simp [ready, h]

/-- Before that, nothing happens. -/
theorem ready_of_booting {f : Mach → Mach} {s : State} (h : s.boot.state ≠ 2) : ready f s = .next s := by
  unfold ready; exact if_neg h

/-- A meaning of the running machine always answers a next state, and never touches the boot logic or the agenda. -/
theorem ready_next (f : Mach → Mach) (s : State) :
    ∃ t, ready f s = .next t ∧ t.boot = s.boot ∧ t.agenda = s.agenda := by
  by_cases h : s.boot.state = 2
  · exact ⟨_, ready_of_ready h, rfl, rfl⟩
  · exact ⟨_, ready_of_booting h, rfl, rfl⟩

/-! ## Who executes a parcel -/

theorem soloParcel_own {i : Instr} {o : Engine} {act : Fin 256 → Mach → Mach} {s : State} {g : Fin 256}
    (h : s.boot.state = 2) (hf : s.m.focus = .engine g o) :
    soloParcel i o act s = .next { s with m := act g s.m } := by
  simp [soloParcel, ready, h, hf]

theorem soloParcel_other {i : Instr} {o e : Engine} {act : Fin 256 → Mach → Mach} {s : State} {g : Fin 256}
    (h : s.boot.state = 2) (hf : s.m.focus = .engine g e) (he : e ≠ o) :
    soloParcel i o act s = .next { s with m := s.m.skip g e (parcels i) } := by
  simp [soloParcel, ready, h, hf, he]

theorem sharedParcel_sc {i : Instr} {sc : Fin 256 → Mach → Mach} {other : Fin 256 → Engine → Mach → Mach} {s : State}
    {g : Fin 256} (h : s.boot.state = 2) (hf : s.m.focus = .engine g .sc) :
    sharedParcel i sc other s = .next { s with m := sc g s.m } := by
  simp [sharedParcel, ready, h, hf]

theorem sharedParcel_other {i : Instr} {sc : Fin 256 → Mach → Mach} {other : Fin 256 → Engine → Mach → Mach} {s : State}
    {g : Fin 256} {e : Engine} (h : s.boot.state = 2) (hf : s.m.focus = .engine g e) (he : e ≠ .sc)
    (hs : shares i e = true) : sharedParcel i sc other s = .next { s with m := other g e s.m } := by
  simp [sharedParcel, ready, h, hf, he, hs]

theorem asParcel_sc {i : Instr} {eff : Fin 256 → Mach → Eff} {fin : Fin 256 → Mach → Mach}
    {work : Fin 4 → UnitKind → Mach → Mach} {s : State} {g : Fin 256} (h : s.boot.state = 2)
    (hf : s.m.focus = .engine g .sc) : asParcel i eff fin work s = .next { s with m := scPost i g s.m } := by
  simp [asParcel, ready, h, hf]

theorem asParcel_as {i : Instr} {eff : Fin 256 → Mach → Eff} {fin : Fin 256 → Mach → Mach}
    {work : Fin 4 → UnitKind → Mach → Mach} {s : State} {g : Fin 256} (h : s.boot.state = 2)
    (hf : s.m.focus = .engine g .asy) : asParcel i eff fin work s = .next { s with m := asIssue i eff fin g s.m } := by
  simp [asParcel, ready, h, hf]

theorem asParcel_unit {i : Instr} {eff : Fin 256 → Mach → Eff} {fin : Fin 256 → Mach → Mach}
    {work : Fin 4 → UnitKind → Mach → Mach} {s : State} {d : Fin 4} {u : UnitKind} (h : s.boot.state = 2)
    (hf : s.m.focus = .unit d u) : asParcel i eff fin work s = .next { s with m := work d u s.m } := by
  simp [asParcel, ready, h, hf]

/-! ## The issue of a parcel -/

section issue
variable {i : Instr} {g : Fin 256} {e : Engine} {pre : Mach → Option Cause} {eff : Mach → Eff} {fin : Mach → Mach} {m : Mach}

/-- An encoding fault traps first (R94). -/
theorem issue_ill {f : Ill} (h : illForm i = some f) :
    issue i g e pre eff fin m = m.takeTrap g e f.cause 0 (infoOf i) := by simp [issue, h]

/-- Then the access that SC has presented: a parcel that it goes before waits (R199, R204). -/
theorem issue_store (h : illForm i = none) (hs : (m.core g).storeFirst e i = true) :
    issue i g e pre eff fin m = m := by simp [issue, h, hs]

/-- Then the conditions on the engine's own registers (R94). -/
theorem issue_pre {c : Cause} (h : illForm i = none) (hs : (m.core g).storeFirst e i = false) (hp : pre m = some c) :
    issue i g e pre eff fin m = m.takeTrap g e c 0 (infoOf i) := by simp [issue, h, hs, hp]

/-- Then the WAIT token: without it nothing happens (R59). -/
theorem issue_token (h : illForm i = none) (hs : (m.core g).storeFirst e i = false) (hp : pre m = none)
    (ht : ¬ (((m.core g).e e).tokp = true ∨ (m.core g).hasTok e ((tokOf i).getD ⟨none, none⟩) = true)) :
    issue i g e pre eff fin m = m := by
  have h1 : ((m.core g).e e).tokp = false := by simpa using fun x => ht (.inl x)
  have h2 : (m.core g).hasTok e ((tokOf i).getD ⟨none, none⟩) = false := by simpa using fun x => ht (.inr x)
  simp [issue, h, hs, hp, h1, h2]

/-- Then the effect decides. -/
theorem issue_eff (h : illForm i = none) (hp : pre m = none)
    (ht : ((m.core g).e e).tokp = true ∨ (m.core g).hasTok e ((tokOf i).getD ⟨none, none⟩) = true)
    (hs : (m.core g).storeFirst e i = false) :
    issue i g e pre eff fin m =
      match eff m with
      | .trap c code info => m.takeTrap g e c code (infoOr c info i)
      | .wait m' => m'
      | .done m' => fin m' := by
  simp only [issue, h, hp, hs]
  rcases ht with ht | ht <;> simp only [ht, Bool.true_or, Bool.or_true, Bool.not_true, Bool.false_eq_true, if_false] <;> cases eff m <;> rfl

end issue

/-- Without a presented access no parcel waits for one (R199). -/
theorem storeFirst_none {c : Core} (e : Engine) (i : Instr) (h : c.pend = none) : c.storeFirst e i = false := by
  simp [Core.storeFirst, h]

/-- A parcel waits for nothing that is none of its engine's business: it is SC's and neither an access, nor a write, nor
a parcel that gives a token (R199, R204). -/
theorem storeFirst_plain {c : Core} {i : Instr} (h : afterStore i = false) (hw : writesMem i = false) :
    c.storeFirst .sc i = false := by simp [Core.storeFirst, h, hw]

/-- The parcels of AS are short. -/
theorem asy_one_parcel (i : Instr) (h : owner i = some .asy) : parcels i = 1 := by
  revert h
  cases i <;> first
    | exact fun _ => rfl
    | exact fun h => nomatch (show some Engine.sc = some Engine.asy from h)
    | exact fun h => nomatch (show none = some Engine.asy from h)
    | exact fun h => nomatch (show some Engine.ld = some Engine.asy from h)
    | exact fun h => nomatch (show some Engine.st = some Engine.asy from h)
    | exact fun h => nomatch (show some Engine.vx = some Engine.asy from h)
    | exact fun h => nomatch (show some Engine.mx = some Engine.asy from h)

/-- An instruction of SC that reads and writes registers only completes: its effect, then retirement (R59). -/
theorem scAlu_next {i : Instr} {f : Core → Core} {s : State} {g : Fin 256} (h : s.boot.state = 2)
    (hf : s.m.focus = .engine g .sc) (hw : i.wellFormed = true)
    (ht : ((s.m.core g).e .sc).tokp = true ∨ (s.m.core g).hasTok .sc (tk i) = true)
    (hs : (s.m.core g).storeFirst .sc i = false) :
    scAlu i f s = .next { s with m := s.m.onCore g fun c => (f c).retire .sc (parcels i) (tk i) } := by
  have hi : illForm i = none := by simpa [Instr.wellFormed] using hw
  rw [scAlu, soloParcel_own h hf, issue_eff hi rfl ht hs]
  simp [retireSeq, Mach.onCore, upd, tk]

end Sys2Proof.Machine
end

