-- ==== Sys2Proof/Laws/State.lean ====
section
/-!
SUPPORT. What each update of a part of the state leaves and what it changes, one lemma a field, so that no proof
unfolds a record update (Machine/Bits.lean).
-/
namespace Sys2Proof.Machine

/-! ## Files -/

section files
variable {α : Type} {n : Nat} (v : Vector α n) (i : Fin n) (f : α → α) (x : α)

@[simp] theorem upd_same : (upd v i f)[i.val] = f v[i.val] := by simp [upd]

theorem upd_other {j : Nat} (hj : j < n) (h : i.val ≠ j) : (upd v i f)[j] = v[j] := by simp [upd, h]

@[simp] theorem put_same : (put v i x)[i.val] = x := by simp [put]

theorem put_other {j : Nat} (hj : j < n) (h : i.val ≠ j) : (put v i x)[j] = v[j] := by simp [put, h]

theorem each_get {β : Type} (g : α → β) {j : Nat} (hj : j < n) : (each v g)[j] = g v[j] := by simp [each]

end files

/-! ## The machine -/

section machine
variable (m : Mach) (g : Fin 256) (c : Fin 64) (d : Fin 4) (f : Core → Core) (k : Ctx → Ctx) (r : Die → Die)

@[simp] theorem onCore_core : (m.onCore g f).core g = f (m.core g) := by simp [Mach.onCore, Mach.core]

theorem onCore_core_ne {h : Fin 256} (hh : h ≠ g) : (m.onCore g f).core h = m.core h :=
  upd_other _ _ _ h.isLt fun e => hh (Fin.ext e.symm)

@[simp] theorem onCtx_ctx : (m.onCtx c k).ctx c = k (m.ctx c) := by simp [Mach.onCtx, Mach.ctx]

theorem onCtx_ctx_ne {h : Fin 64} (hh : h ≠ c) : (m.onCtx c k).ctx h = m.ctx h :=
  upd_other _ _ _ h.isLt fun e => hh (Fin.ext e.symm)

@[simp] theorem onDie_die : (m.onDie d r).die d = r (m.die d) := by simp [Mach.onDie, Mach.die]

theorem onDie_die_ne {h : Fin 4} (hh : h ≠ d) : (m.onDie d r).die h = m.die h :=
  upd_other _ _ _ h.isLt fun e => hh (Fin.ext e.symm)

@[simp] theorem onCore_ctx : (m.onCore g f).ctx c = m.ctx c := rfl
@[simp] theorem onCore_die : (m.onCore g f).die d = m.die d := rfl
@[simp] theorem onCtx_core : (m.onCtx c k).core g = m.core g := rfl
@[simp] theorem onCtx_die : (m.onCtx c k).die d = m.die d := rfl
@[simp] theorem onDie_core : (m.onDie d r).core g = m.core g := rfl
@[simp] theorem onDie_ctx : (m.onDie d r).ctx c = m.ctx c := rfl
@[simp] theorem onCore_seq : (m.onCore g f).seq = m.seq := rfl
@[simp] theorem onCore_nextId : (m.onCore g f).nextId = m.nextId := rfl
@[simp] theorem onCore_focus : (m.onCore g f).focus = m.focus := rfl
@[simp] theorem onCore_fuses : (m.onCore g f).fuses = m.fuses := rfl
@[simp] theorem onCore_ctxs : (m.onCore g f).ctxs = m.ctxs := rfl
@[simp] theorem onCore_dies : (m.onCore g f).dies = m.dies := rfl
@[simp] theorem onCore_dev : (m.onCore g f).dev = m.dev := rfl
@[simp] theorem onCore_host : (m.onCore g f).host = m.host := rfl
@[simp] theorem onCore_devBad : (m.onCore g f).devBad = m.devBad := rfl
@[simp] theorem onCore_devGlitch : (m.onCore g f).devGlitch = m.devGlitch := rfl
@[simp] theorem onCore_ops : (m.onCore g f).ops = m.ops := rfl
@[simp] theorem onCore_arrivals : (m.onCore g f).arrivals = m.arrivals := rfl
@[simp] theorem onCore_signallers : (m.onCore g f).signallers = m.signallers := rfl
@[simp] theorem onCore_lastCycles : (m.onCore g f).lastCycles = m.lastCycles := rfl
@[simp] theorem onCore_touched : (m.onCore g f).touched = m.touched := rfl
@[simp] theorem onCore_walkAt : (m.onCore g f).walkAt = m.walkAt := rfl
@[simp] theorem onCore_errbase : (m.onCore g f).errbase = m.errbase := rfl
@[simp] theorem onCore_errhead : (m.onCore g f).errhead = m.errhead := rfl
@[simp] theorem onCore_errtail : (m.onCore g f).errtail = m.errtail := rfl
@[simp] theorem onCore_trans : (m.onCore g f).trans = m.trans := rfl
@[simp] theorem onCore_errlost : (m.onCore g f).errlost = m.errlost := rfl
@[simp] theorem onCore_pdec : (m.onCore g f).pdec = m.pdec := rfl
@[simp] theorem onCore_regions : (m.onCore g f).regions = m.regions := rfl
@[simp] theorem onCore_msix : (m.onCore g f).msix = m.msix := rfl
@[simp] theorem onCore_msiPend : (m.onCore g f).msiPend = m.msiPend := rfl
@[simp] theorem onCore_msiSent : (m.onCore g f).msiSent = m.msiSent := rfl
@[simp] theorem onCore_outbox : (m.onCore g f).outbox = m.outbox := rfl
@[simp] theorem onCore_inbox : (m.onCore g f).inbox = m.inbox := rfl
@[simp] theorem onCore_streams : (m.onCore g f).streams = m.streams := rfl
@[simp] theorem onCore_outStreams : (m.onCore g f).outStreams = m.outStreams := rfl
@[simp] theorem onCore_nextStream : (m.onCore g f).nextStream = m.nextStream := rfl
@[simp] theorem onCtx_seq : (m.onCtx c k).seq = m.seq := rfl
@[simp] theorem onCtx_nextId : (m.onCtx c k).nextId = m.nextId := rfl
@[simp] theorem onCtx_focus : (m.onCtx c k).focus = m.focus := rfl
@[simp] theorem onCtx_fuses : (m.onCtx c k).fuses = m.fuses := rfl
@[simp] theorem onCtx_cores : (m.onCtx c k).cores = m.cores := rfl
@[simp] theorem onCtx_dies : (m.onCtx c k).dies = m.dies := rfl
@[simp] theorem onCtx_dev : (m.onCtx c k).dev = m.dev := rfl
@[simp] theorem onCtx_host : (m.onCtx c k).host = m.host := rfl
@[simp] theorem onCtx_devBad : (m.onCtx c k).devBad = m.devBad := rfl
@[simp] theorem onCtx_devGlitch : (m.onCtx c k).devGlitch = m.devGlitch := rfl
@[simp] theorem onCtx_ops : (m.onCtx c k).ops = m.ops := rfl
@[simp] theorem onCtx_arrivals : (m.onCtx c k).arrivals = m.arrivals := rfl
@[simp] theorem onCtx_signallers : (m.onCtx c k).signallers = m.signallers := rfl
@[simp] theorem onCtx_lastCycles : (m.onCtx c k).lastCycles = m.lastCycles := rfl
@[simp] theorem onCtx_touched : (m.onCtx c k).touched = m.touched := rfl
@[simp] theorem onCtx_walkAt : (m.onCtx c k).walkAt = m.walkAt := rfl
@[simp] theorem onCtx_errbase : (m.onCtx c k).errbase = m.errbase := rfl
@[simp] theorem onCtx_errhead : (m.onCtx c k).errhead = m.errhead := rfl
@[simp] theorem onCtx_errtail : (m.onCtx c k).errtail = m.errtail := rfl
@[simp] theorem onCtx_trans : (m.onCtx c k).trans = m.trans := rfl
@[simp] theorem onCtx_errlost : (m.onCtx c k).errlost = m.errlost := rfl
@[simp] theorem onCtx_pdec : (m.onCtx c k).pdec = m.pdec := rfl
@[simp] theorem onCtx_regions : (m.onCtx c k).regions = m.regions := rfl
@[simp] theorem onCtx_msix : (m.onCtx c k).msix = m.msix := rfl
@[simp] theorem onCtx_msiPend : (m.onCtx c k).msiPend = m.msiPend := rfl
@[simp] theorem onCtx_msiSent : (m.onCtx c k).msiSent = m.msiSent := rfl
@[simp] theorem onCtx_outbox : (m.onCtx c k).outbox = m.outbox := rfl
@[simp] theorem onCtx_inbox : (m.onCtx c k).inbox = m.inbox := rfl
@[simp] theorem onCtx_streams : (m.onCtx c k).streams = m.streams := rfl
@[simp] theorem onCtx_outStreams : (m.onCtx c k).outStreams = m.outStreams := rfl
@[simp] theorem onCtx_nextStream : (m.onCtx c k).nextStream = m.nextStream := rfl
@[simp] theorem onDie_seq : (m.onDie d r).seq = m.seq := rfl
@[simp] theorem onDie_nextId : (m.onDie d r).nextId = m.nextId := rfl
@[simp] theorem onDie_focus : (m.onDie d r).focus = m.focus := rfl
@[simp] theorem onDie_fuses : (m.onDie d r).fuses = m.fuses := rfl
@[simp] theorem onDie_cores : (m.onDie d r).cores = m.cores := rfl
@[simp] theorem onDie_ctxs : (m.onDie d r).ctxs = m.ctxs := rfl
@[simp] theorem onDie_dev : (m.onDie d r).dev = m.dev := rfl
@[simp] theorem onDie_host : (m.onDie d r).host = m.host := rfl
@[simp] theorem onDie_devBad : (m.onDie d r).devBad = m.devBad := rfl
@[simp] theorem onDie_devGlitch : (m.onDie d r).devGlitch = m.devGlitch := rfl
@[simp] theorem onDie_ops : (m.onDie d r).ops = m.ops := rfl
@[simp] theorem onDie_arrivals : (m.onDie d r).arrivals = m.arrivals := rfl
@[simp] theorem onDie_signallers : (m.onDie d r).signallers = m.signallers := rfl
@[simp] theorem onDie_lastCycles : (m.onDie d r).lastCycles = m.lastCycles := rfl
@[simp] theorem onDie_touched : (m.onDie d r).touched = m.touched := rfl
@[simp] theorem onDie_walkAt : (m.onDie d r).walkAt = m.walkAt := rfl
@[simp] theorem onDie_errbase : (m.onDie d r).errbase = m.errbase := rfl
@[simp] theorem onDie_errhead : (m.onDie d r).errhead = m.errhead := rfl
@[simp] theorem onDie_errtail : (m.onDie d r).errtail = m.errtail := rfl
@[simp] theorem onDie_trans : (m.onDie d r).trans = m.trans := rfl
@[simp] theorem onDie_errlost : (m.onDie d r).errlost = m.errlost := rfl
@[simp] theorem onDie_pdec : (m.onDie d r).pdec = m.pdec := rfl
@[simp] theorem onDie_regions : (m.onDie d r).regions = m.regions := rfl
@[simp] theorem onDie_msix : (m.onDie d r).msix = m.msix := rfl
@[simp] theorem onDie_msiPend : (m.onDie d r).msiPend = m.msiPend := rfl
@[simp] theorem onDie_msiSent : (m.onDie d r).msiSent = m.msiSent := rfl
@[simp] theorem onDie_outbox : (m.onDie d r).outbox = m.outbox := rfl
@[simp] theorem onDie_inbox : (m.onDie d r).inbox = m.inbox := rfl
@[simp] theorem onDie_streams : (m.onDie d r).streams = m.streams := rfl
@[simp] theorem onDie_outStreams : (m.onDie d r).outStreams = m.outStreams := rfl
@[simp] theorem onDie_nextStream : (m.onDie d r).nextStream = m.nextStream := rfl

end machine

/-! ## A core -/

section core
variable (c : Core) (e : Engine) (f : EngState → EngState) (r : Fin 32) (x : Word)

theorem engIx_inj {e e' : Engine} (h : engIx e = engIx e') : e = e' := by
  cases e <;> cases e' <;> first | rfl | exact absurd h (by decide)

@[simp] theorem onE_e : (c.onE e f).e e = f (c.e e) := by simp [Core.onE, Core.e]

theorem onE_e_ne {e' : Engine} (h : e' ≠ e) : (c.onE e f).e e' = c.e e' :=
  upd_other _ _ _ (engIx e').isLt fun q => h (engIx_inj (Fin.ext q.symm))

@[simp] theorem onE_rs : (c.onE e f).rs r = c.rs r := rfl

@[simp] theorem rs_zero : c.rs 0 = 0 := rfl

@[simp] theorem ws_zero : c.ws 0 x = c := rfl

theorem rs_ws_same (h : r ≠ 0) : (c.ws r x).rs r = x := by
  have h' : r.val ≠ 0 := fun q => h (Fin.ext q)
  simp [Core.rs, Core.ws, h']

theorem rs_ws_ne {q : Fin 32} (h : q ≠ r) : (c.ws r x).rs q = c.rs q := by
  by_cases hr : r.val = 0
  · simp [Core.ws, hr]
  · have : r.val ≠ q.val := fun e => h (Fin.ext e.symm)
    by_cases hq : q.val = 0
    · simp [Core.rs, hq]
    · simp [Core.rs, Core.ws, hr, hq, put, this]

@[simp] theorem onE_s : (c.onE e f).s = c.s := rfl
@[simp] theorem onE_a : (c.onE e f).a = c.a := rfl
@[simp] theorem onE_v : (c.onE e f).v = c.v := rfl
@[simp] theorem onE_w : (c.onE e f).w = c.w := rfl
@[simp] theorem onE_z : (c.onE e f).z = c.z := rfl
@[simp] theorem onE_m : (c.onE e f).m = c.m := rfl
@[simp] theorem onE_hold : (c.onE e f).hold = c.hold := rfl
@[simp] theorem onE_tok : (c.onE e f).tok = c.tok := rfl
@[simp] theorem onE_out : (c.onE e f).out = c.out := rfl
@[simp] theorem onE_qt : (c.onE e f).qt = c.qt := rfl
@[simp] theorem onE_qw : (c.onE e f).qw = c.qw := rfl
@[simp] theorem onE_cq : (c.onE e f).cq = c.cq := rfl
@[simp] theorem onE_vbuf : (c.onE e f).vbuf = c.vbuf := rfl
@[simp] theorem onE_slipw : (c.onE e f).slipw = c.slipw := rfl
@[simp] theorem onE_round : (c.onE e f).round = c.round := rfl
@[simp] theorem onE_seed : (c.onE e f).seed = c.seed := rfl
@[simp] theorem onE_btmcfg : (c.onE e f).btmcfg = c.btmcfg := rfl
@[simp] theorem onE_ithrot : (c.onE e f).ithrot = c.ithrot := rfl
@[simp] theorem onE_spad : (c.onE e f).spad = c.spad := rfl
@[simp] theorem onE_acc : (c.onE e f).acc = c.acc := rfl
@[simp] theorem onE_pend : (c.onE e f).pend = c.pend := rfl
@[simp] theorem onE_lastReq : (c.onE e f).lastReq = c.lastReq := rfl
@[simp] theorem onE_portq : (c.onE e f).portq = c.portq := rfl
@[simp] theorem onE_dirty : (c.onE e f).dirty = c.dirty := rfl
@[simp] theorem onE_rings : (c.onE e f).rings = c.rings := rfl
@[simp] theorem onE_ringWaits : (c.onE e f).ringWaits = c.ringWaits := rfl
@[simp] theorem onE_btm : (c.onE e f).btm = c.btm := rfl
@[simp] theorem onE_rp : (c.onE e f).rp = c.rp := rfl
@[simp] theorem onE_mx : (c.onE e f).mx = c.mx := rfl
@[simp] theorem onE_tcache : (c.onE e f).tcache = c.tcache := rfl
@[simp] theorem onE_task : (c.onE e f).task = c.task := rfl
@[simp] theorem onE_req : (c.onE e f).req = c.req := rfl
@[simp] theorem onE_wdog : (c.onE e f).wdog = c.wdog := rfl
@[simp] theorem onE_owes : (c.onE e f).owes = c.owes := rfl
@[simp] theorem onE_yieldable : (c.onE e f).yieldable = c.yieldable := rfl
@[simp] theorem onE_safe : (c.onE e f).safe = c.safe := rfl
@[simp] theorem onE_halt : (c.onE e f).halt = c.halt := rfl
@[simp] theorem onE_badLines : (c.onE e f).badLines = c.badLines := rfl
@[simp] theorem onE_badPar : (c.onE e f).badPar = c.badPar := rfl
@[simp] theorem onE_badAcc : (c.onE e f).badAcc = c.badAcc := rfl
@[simp] theorem onE_glitch : (c.onE e f).glitch = c.glitch := rfl
@[simp] theorem onE_glitchAcc : (c.onE e f).glitchAcc = c.glitchAcc := rfl
@[simp] theorem onE_rebuilt : (c.onE e f).rebuilt = c.rebuilt := rfl

@[simp] theorem ws_a : (c.ws r x).a = c.a := by unfold Core.ws; split <;> rfl
@[simp] theorem ws_v : (c.ws r x).v = c.v := by unfold Core.ws; split <;> rfl
@[simp] theorem ws_w : (c.ws r x).w = c.w := by unfold Core.ws; split <;> rfl
@[simp] theorem ws_z : (c.ws r x).z = c.z := by unfold Core.ws; split <;> rfl
@[simp] theorem ws_m : (c.ws r x).m = c.m := by unfold Core.ws; split <;> rfl
@[simp] theorem ws_eng : (c.ws r x).eng = c.eng := by unfold Core.ws; split <;> rfl
@[simp] theorem ws_hold : (c.ws r x).hold = c.hold := by unfold Core.ws; split <;> rfl
@[simp] theorem ws_tok : (c.ws r x).tok = c.tok := by unfold Core.ws; split <;> rfl
@[simp] theorem ws_out : (c.ws r x).out = c.out := by unfold Core.ws; split <;> rfl
@[simp] theorem ws_qt : (c.ws r x).qt = c.qt := by unfold Core.ws; split <;> rfl
@[simp] theorem ws_qw : (c.ws r x).qw = c.qw := by unfold Core.ws; split <;> rfl
@[simp] theorem ws_cq : (c.ws r x).cq = c.cq := by unfold Core.ws; split <;> rfl
@[simp] theorem ws_vbuf : (c.ws r x).vbuf = c.vbuf := by unfold Core.ws; split <;> rfl
@[simp] theorem ws_slipw : (c.ws r x).slipw = c.slipw := by unfold Core.ws; split <;> rfl
@[simp] theorem ws_round : (c.ws r x).round = c.round := by unfold Core.ws; split <;> rfl
@[simp] theorem ws_seed : (c.ws r x).seed = c.seed := by unfold Core.ws; split <;> rfl
@[simp] theorem ws_btmcfg : (c.ws r x).btmcfg = c.btmcfg := by unfold Core.ws; split <;> rfl
@[simp] theorem ws_ithrot : (c.ws r x).ithrot = c.ithrot := by unfold Core.ws; split <;> rfl
@[simp] theorem ws_spad : (c.ws r x).spad = c.spad := by unfold Core.ws; split <;> rfl
@[simp] theorem ws_acc : (c.ws r x).acc = c.acc := by unfold Core.ws; split <;> rfl
@[simp] theorem ws_pend : (c.ws r x).pend = c.pend := by unfold Core.ws; split <;> rfl
@[simp] theorem ws_lastReq : (c.ws r x).lastReq = c.lastReq := by unfold Core.ws; split <;> rfl
@[simp] theorem ws_portq : (c.ws r x).portq = c.portq := by unfold Core.ws; split <;> rfl
@[simp] theorem ws_dirty : (c.ws r x).dirty = c.dirty := by unfold Core.ws; split <;> rfl
@[simp] theorem ws_rings : (c.ws r x).rings = c.rings := by unfold Core.ws; split <;> rfl
@[simp] theorem ws_ringWaits : (c.ws r x).ringWaits = c.ringWaits := by unfold Core.ws; split <;> rfl
@[simp] theorem ws_btm : (c.ws r x).btm = c.btm := by unfold Core.ws; split <;> rfl
@[simp] theorem ws_rp : (c.ws r x).rp = c.rp := by unfold Core.ws; split <;> rfl
@[simp] theorem ws_mx : (c.ws r x).mx = c.mx := by unfold Core.ws; split <;> rfl
@[simp] theorem ws_tcache : (c.ws r x).tcache = c.tcache := by unfold Core.ws; split <;> rfl
@[simp] theorem ws_task : (c.ws r x).task = c.task := by unfold Core.ws; split <;> rfl
@[simp] theorem ws_req : (c.ws r x).req = c.req := by unfold Core.ws; split <;> rfl
@[simp] theorem ws_wdog : (c.ws r x).wdog = c.wdog := by unfold Core.ws; split <;> rfl
@[simp] theorem ws_owes : (c.ws r x).owes = c.owes := by unfold Core.ws; split <;> rfl
@[simp] theorem ws_yieldable : (c.ws r x).yieldable = c.yieldable := by unfold Core.ws; split <;> rfl
@[simp] theorem ws_safe : (c.ws r x).safe = c.safe := by unfold Core.ws; split <;> rfl
@[simp] theorem ws_halt : (c.ws r x).halt = c.halt := by unfold Core.ws; split <;> rfl
@[simp] theorem ws_badLines : (c.ws r x).badLines = c.badLines := by unfold Core.ws; split <;> rfl
@[simp] theorem ws_badPar : (c.ws r x).badPar = c.badPar := by unfold Core.ws; split <;> rfl
@[simp] theorem ws_badAcc : (c.ws r x).badAcc = c.badAcc := by unfold Core.ws; split <;> rfl
@[simp] theorem ws_glitch : (c.ws r x).glitch = c.glitch := by unfold Core.ws; split <;> rfl
@[simp] theorem ws_glitchAcc : (c.ws r x).glitchAcc = c.glitchAcc := by unfold Core.ws; split <;> rfl
@[simp] theorem ws_rebuilt : (c.ws r x).rebuilt = c.rebuilt := by unfold Core.ws; split <;> rfl

@[simp] theorem ws_e (e : Engine) : (c.ws r x).e e = c.e e := by simp [Core.e]

end core

end Sys2Proof.Machine
end

