-- ==== Sys2Proof/Laws/Frames.lean ====
section
/-!
SUPPORT. What the operations on device memory, reports, ports, cells and commands can do, each said once: which fields
they may write, and where they go (Machine/Ops.lean, AsIssue.lean, AsBelfry.lean, AsGather.lean, AsCupola.lean,
AsCamp.lean, AsLantern.lean, Launch.lean).
-/
namespace Sys2Proof.Machine

/-! ## Reports: only the host's side changes -/

theorem raise_frame (m : Mach) (n : Fin 130) :
    ∃ h p q, m.raise n = { m with host := h, msiPend := p, msiSent := q } := by
  unfold Mach.raise
  by_cases h : (m.msix[n.val]).mask = true
  · simp only [h, if_true]; exact ⟨m.host, _, m.msiSent, rfl⟩
  · simp only [h, Bool.false_eq_true, if_false]; exact ⟨_, m.msiPend, _, rfl⟩

theorem errRecord_frame (m : Mach) (k : Nat) (c : Fin 64) (d : Fin 4) (w : Nat) :
    ∃ h p q x y, m.errRecord k c d w = { m with host := h, msiPend := p, msiSent := q, errhead := x, errlost := y } := by
  unfold Mach.errRecord
  by_cases h : m.errhead - m.errtail = 1024
  · rw [if_pos h]; exact ⟨m.host, m.msiPend, m.msiSent, m.errhead, _, rfl⟩
  · rw [if_neg h]
    simp only
    obtain ⟨h, p, q, e⟩ := raise_frame _ 128
    rw [e]; exact ⟨h, p, q, _, m.errlost, rfl⟩

theorem frameRecord_frame (m : Mach) (k : Nat) (c : Fin 64) (a : Nat) :
    ∃ h p q x y, m.frameRecord k c a = { m with host := h, msiPend := p, msiSent := q, errhead := x, errlost := y } := by
  unfold Mach.frameRecord
  split
  · exact errRecord_frame ..
  · exact ⟨_, _, _, _, _, rfl⟩

theorem worldRecord_frame (m : Mach) (c : Fin 64) (a n : Nat) :
    ∃ h p q x y, m.worldRecord c a n = { m with host := h, msiPend := p, msiSent := q, errhead := x, errlost := y } := by
  unfold Mach.worldRecord
  split
  · exact frameRecord_frame ..
  · exact ⟨_, _, _, _, _, rfl⟩

theorem noteWorld_frame (m : Mach) (c : Fin 64) (a n : Nat) :
    ∃ h p q x y, m.noteWorld c a n = { m with host := h, msiPend := p, msiSent := q, errhead := x, errlost := y } := by
  unfold Mach.noteWorld
  split
  · exact worldRecord_frame ..
  · exact ⟨_, _, _, _, _, rfl⟩

theorem retried_frame (m : Mach) (a n : Nat) : ∃ g t, m.retried a n = { m with devGlitch := g, trans := t } := by
  unfold Mach.retried
  simp only
  split
  · exact ⟨_, _, rfl⟩
  · exact ⟨_, _, rfl⟩

/-! ## Device memory -/

theorem devWrite_frame (m : Mach) (sec : Bool) (a : Nat) (bs : List Byte) :
    ∃ x, m.devWrite sec a bs = { m with dev := x } := by
  induction bs generalizing m a with
  | nil => exact ⟨_, rfl⟩
  | cons b bs ih =>
    unfold Mach.devWrite
    split
    · exact ⟨_, rfl⟩
    · simp only
      split
      · obtain ⟨x, h⟩ := ih { m with dev := Memory.write m.dev a [b] } (a + 1)
        exact ⟨x, h⟩
      · exact ih m (a + 1)

/-- What a byte is named by and whose it is rests on no device memory. -/
@[simp] theorem mayTouch_dev (m : Mach) (x : Memory) (sec : Bool) (a : Nat) :
    Mach.mayTouch { m with dev := x } sec a = m.mayTouch sec a := rfl

/-- A write of device memory: each byte written that its agent may touch, and nothing else (R365, R495). -/
theorem read1_devWrite (m : Mach) (sec : Bool) (a : Nat) (bs : List Byte) (x : Nat) :
    Memory.read1 (m.devWrite sec a bs).dev x =
      if a ≤ x ∧ x < a + bs.length ∧ m.mayTouch sec x = true then bs.getD (x - a) 0 else Memory.read1 m.dev x := by
  induction bs generalizing m a with
  | nil =>
    have : ¬ (a ≤ x ∧ x < a + ([] : List Byte).length ∧ m.mayTouch sec x = true) := by simp; omega
    rw [if_neg this]; rfl
  | cons b bs ih =>
    have tail : ∀ m' : Mach, (∀ k, m'.mayTouch sec k = m.mayTouch sec k) → (x ≠ a → Memory.read1 m'.dev x = Memory.read1 m.dev x) →
        (x = a → Memory.read1 m'.dev x = if m.mayTouch sec a = true then b else Memory.read1 m.dev x) →
        Memory.read1 (m'.devWrite sec (a + 1) bs).dev x =
          if a ≤ x ∧ x < a + (b :: bs).length ∧ m.mayTouch sec x = true then (b :: bs).getD (x - a) 0 else Memory.read1 m.dev x := by
      intro m' ht hne heq
      rw [ih m' (a + 1), ht]
      by_cases hx : x = a
      · subst hx
        rw [if_neg (by omega), heq rfl]
        by_cases h : m.mayTouch sec x = true <;> simp [h]
      · rw [hne hx]
        by_cases h : a + 1 ≤ x ∧ x < a + 1 + bs.length ∧ m.mayTouch sec x = true
        · have h' : a ≤ x ∧ x < a + (b :: bs).length ∧ m.mayTouch sec x = true :=
            ⟨by omega, by simp only [List.length_cons]; omega, h.2.2⟩
          have : x - a = (x - (a + 1)) + 1 := by omega
          rw [if_pos h, if_pos h', this]; rfl
        · have h' : ¬ (a ≤ x ∧ x < a + (b :: bs).length ∧ m.mayTouch sec x = true) := by
            intro ⟨p, q, r⟩; simp at q; exact h ⟨by omega, by omega, r⟩
          rw [if_neg h, if_neg h']
    unfold Mach.devWrite
    split
    · rename_i h
      rw [read1_write]
      by_cases hx : a ≤ x ∧ x < a + (b :: bs).length
      · have : m.mayTouch sec x = true := by
          have := List.all_eq_true.1 h (x - a) (by simp at hx ⊢; omega)
          simpa [show a + (x - a) = x by omega] using this
        simp [hx, this]
      · rw [if_neg hx, if_neg (by tauto)]
    · simp only
      split
      · rename_i h
        refine tail _ (fun _ => rfl) (fun hx => ?_) (fun hx => ?_)
        · exact read1_write_outside _ _ _ (by simp; omega)
        · subst hx; rw [read1_write]; simp [h]
      · rename_i h
        exact tail m (fun _ => rfl) (fun _ => rfl) (fun _ => by simp [h])

/-- Device memory keeps its canonical form. -/
theorem devWrite_wf {m : Mach} (sec : Bool) (a : Nat) (bs : List Byte) (h : m.dev.wf = true) :
    (m.devWrite sec a bs).dev.wf = true := by
  induction bs generalizing m a with
  | nil => exact h
  | cons b bs ih =>
    unfold Mach.devWrite
    split
    · exact wf_write _ _ h
    · simp only
      split
      · exact ih (m := { m with dev := Memory.write m.dev a [b] }) _ (wf_write _ _ h)
      · exact ih _ h

theorem ctxWrite_frame (m : Mach) (c : Fin 64) (a : Nat) (bs : List Byte) :
    ∃ x h p q u y, m.ctxWrite c a bs =
      { m with dev := x, host := h, msiPend := p, msiSent := q, errhead := u, errlost := y } := by
  unfold Mach.ctxWrite
  obtain ⟨x, e⟩ := devWrite_frame m (m.sec c) a bs
  rw [e]
  obtain ⟨h, p, q, u, y, e⟩ := noteWorld_frame { m with dev := x } c a bs.length
  exact ⟨x, h, p, q, u, y, e⟩

/-- A write by a context: each byte of its range that its world may touch, and nothing else (R365). -/
theorem read1_ctxWrite (m : Mach) (c : Fin 64) (a : Nat) (bs : List Byte) (x : Nat) :
    Memory.read1 (m.ctxWrite c a bs).dev x =
      if a ≤ x ∧ x < a + bs.length ∧ m.mayTouch (m.sec c) x = true then bs.getD (x - a) 0 else Memory.read1 m.dev x := by
  rw [← read1_devWrite]
  unfold Mach.ctxWrite
  obtain ⟨h, p, q, u, y, e⟩ := noteWorld_frame (m.devWrite (m.sec c) a bs) c a bs.length
  rw [e]

theorem access_frame (m : Mach) (c : Fin 64) (a n : Nat) :
    ∃ g t h p q u y, (m.access c a n).2 =
      { m with devGlitch := g, trans := t, host := h, msiPend := p, msiSent := q, errhead := u, errlost := y } := by
  unfold Mach.access
  obtain ⟨g, t, e⟩ := retried_frame m a n
  simp only [e]
  obtain ⟨h, p, q, u, y, e⟩ := noteWorld_frame { m with devGlitch := g, trans := t } c a n
  exact ⟨g, t, h, p, q, u, y, e⟩

section fields
variable (m : Mach) (n : Fin 130) (k a l : Nat) (c : Fin 64) (d : Fin 4) (bs : List Byte)

@[simp] theorem raise_cores : (m.raise n).cores = m.cores := by obtain ⟨_, _, _, e⟩ := raise_frame m n; rw [e]
@[simp] theorem raise_ctxs : (m.raise n).ctxs = m.ctxs := by obtain ⟨_, _, _, e⟩ := raise_frame m n; rw [e]
@[simp] theorem raise_dies : (m.raise n).dies = m.dies := by obtain ⟨_, _, _, e⟩ := raise_frame m n; rw [e]
@[simp] theorem raise_ops : (m.raise n).ops = m.ops := by obtain ⟨_, _, _, e⟩ := raise_frame m n; rw [e]
@[simp] theorem raise_dev : (m.raise n).dev = m.dev := by obtain ⟨_, _, _, e⟩ := raise_frame m n; rw [e]
@[simp] theorem errRecord_cores : (m.errRecord k c d l).cores = m.cores := by obtain ⟨_, _, _, _, _, e⟩ := errRecord_frame m k c d l; rw [e]
@[simp] theorem errRecord_ctxs : (m.errRecord k c d l).ctxs = m.ctxs := by obtain ⟨_, _, _, _, _, e⟩ := errRecord_frame m k c d l; rw [e]
@[simp] theorem errRecord_dies : (m.errRecord k c d l).dies = m.dies := by obtain ⟨_, _, _, _, _, e⟩ := errRecord_frame m k c d l; rw [e]
@[simp] theorem errRecord_ops : (m.errRecord k c d l).ops = m.ops := by obtain ⟨_, _, _, _, _, e⟩ := errRecord_frame m k c d l; rw [e]
@[simp] theorem errRecord_dev : (m.errRecord k c d l).dev = m.dev := by obtain ⟨_, _, _, _, _, e⟩ := errRecord_frame m k c d l; rw [e]
@[simp] theorem noteWorld_cores : (m.noteWorld c a l).cores = m.cores := by obtain ⟨_, _, _, _, _, e⟩ := noteWorld_frame m c a l; rw [e]
@[simp] theorem noteWorld_ctxs : (m.noteWorld c a l).ctxs = m.ctxs := by obtain ⟨_, _, _, _, _, e⟩ := noteWorld_frame m c a l; rw [e]
@[simp] theorem noteWorld_dies : (m.noteWorld c a l).dies = m.dies := by obtain ⟨_, _, _, _, _, e⟩ := noteWorld_frame m c a l; rw [e]
@[simp] theorem noteWorld_ops : (m.noteWorld c a l).ops = m.ops := by obtain ⟨_, _, _, _, _, e⟩ := noteWorld_frame m c a l; rw [e]
@[simp] theorem noteWorld_dev : (m.noteWorld c a l).dev = m.dev := by obtain ⟨_, _, _, _, _, e⟩ := noteWorld_frame m c a l; rw [e]
@[simp] theorem retried_cores : (m.retried a l).cores = m.cores := by obtain ⟨_, _, e⟩ := retried_frame m a l; rw [e]
@[simp] theorem retried_ctxs : (m.retried a l).ctxs = m.ctxs := by obtain ⟨_, _, e⟩ := retried_frame m a l; rw [e]
@[simp] theorem retried_dies : (m.retried a l).dies = m.dies := by obtain ⟨_, _, e⟩ := retried_frame m a l; rw [e]
@[simp] theorem retried_ops : (m.retried a l).ops = m.ops := by obtain ⟨_, _, e⟩ := retried_frame m a l; rw [e]
@[simp] theorem retried_dev : (m.retried a l).dev = m.dev := by obtain ⟨_, _, e⟩ := retried_frame m a l; rw [e]
@[simp] theorem ctxWrite_cores : (m.ctxWrite c a bs).cores = m.cores := by obtain ⟨_, _, _, _, _, _, e⟩ := ctxWrite_frame m c a bs; rw [e]
@[simp] theorem ctxWrite_ctxs : (m.ctxWrite c a bs).ctxs = m.ctxs := by obtain ⟨_, _, _, _, _, _, e⟩ := ctxWrite_frame m c a bs; rw [e]
@[simp] theorem ctxWrite_dies : (m.ctxWrite c a bs).dies = m.dies := by obtain ⟨_, _, _, _, _, _, e⟩ := ctxWrite_frame m c a bs; rw [e]
@[simp] theorem ctxWrite_ops : (m.ctxWrite c a bs).ops = m.ops := by obtain ⟨_, _, _, _, _, _, e⟩ := ctxWrite_frame m c a bs; rw [e]
@[simp] theorem ctxWrite_regions : (m.ctxWrite c a bs).regions = m.regions := by obtain ⟨_, _, _, _, _, _, e⟩ := ctxWrite_frame m c a bs; rw [e]
@[simp] theorem ctxWrite_fuses : (m.ctxWrite c a bs).fuses = m.fuses := by obtain ⟨_, _, _, _, _, _, e⟩ := ctxWrite_frame m c a bs; rw [e]
@[simp] theorem access_cores : ((m.access c a l).2).cores = m.cores := by obtain ⟨_, _, _, _, _, _, _, e⟩ := access_frame m c a l; rw [e]
@[simp] theorem access_ctxs : ((m.access c a l).2).ctxs = m.ctxs := by obtain ⟨_, _, _, _, _, _, _, e⟩ := access_frame m c a l; rw [e]
@[simp] theorem access_dies : ((m.access c a l).2).dies = m.dies := by obtain ⟨_, _, _, _, _, _, _, e⟩ := access_frame m c a l; rw [e]
@[simp] theorem access_ops : ((m.access c a l).2).ops = m.ops := by obtain ⟨_, _, _, _, _, _, _, e⟩ := access_frame m c a l; rw [e]
@[simp] theorem access_dev : ((m.access c a l).2).dev = m.dev := by obtain ⟨_, _, _, _, _, _, _, e⟩ := access_frame m c a l; rw [e]

end fields

/-! ## Tokens and retirement: the engines and the token FIFOs of one core change -/

section retirement
variable (c : Core) (e : Engine) (t : Tok) (l : Nat) (q : Option Engine)

theorem popTok_frame : ∃ x, c.popTok e t = { c with tok := x } := by
  unfold Core.popTok
  split
  · exact ⟨_, rfl⟩
  · split
    · exact ⟨_, rfl⟩
    · exact ⟨_, rfl⟩

theorem pushTok_frame : ∃ x y, c.pushTok e q = { c with tok := x, eng := y } := by
  unfold Core.pushTok
  split
  · exact ⟨_, _, rfl⟩
  · split
    · exact ⟨_, c.eng, rfl⟩
    · exact ⟨c.tok, _, rfl⟩

/-- A retirement writes the token FIFOs and the engines, and nothing else of its core (R59). -/
theorem retire_frame : ∃ x y, c.retire e l t = { c with tok := x, eng := y } := by
  unfold Core.retire
  obtain ⟨a, h⟩ := popTok_frame c e t
  rw [h]
  obtain ⟨x, y, h⟩ := pushTok_frame (({ c with tok := a } : Core).onE e fun x => x.advance l) e t.sig
  rw [h]; exact ⟨x, y, rfl⟩

@[simp] theorem retire_s : (c.retire e l t).s = c.s := by obtain ⟨_, _, h⟩ := retire_frame c e t l; rw [h]
@[simp] theorem retire_a : (c.retire e l t).a = c.a := by obtain ⟨_, _, h⟩ := retire_frame c e t l; rw [h]
@[simp] theorem retire_v : (c.retire e l t).v = c.v := by obtain ⟨_, _, h⟩ := retire_frame c e t l; rw [h]
@[simp] theorem retire_w : (c.retire e l t).w = c.w := by obtain ⟨_, _, h⟩ := retire_frame c e t l; rw [h]
@[simp] theorem retire_z : (c.retire e l t).z = c.z := by obtain ⟨_, _, h⟩ := retire_frame c e t l; rw [h]
@[simp] theorem retire_m : (c.retire e l t).m = c.m := by obtain ⟨_, _, h⟩ := retire_frame c e t l; rw [h]
@[simp] theorem retire_out : (c.retire e l t).out = c.out := by obtain ⟨_, _, h⟩ := retire_frame c e t l; rw [h]
@[simp] theorem retire_qt : (c.retire e l t).qt = c.qt := by obtain ⟨_, _, h⟩ := retire_frame c e t l; rw [h]
@[simp] theorem retire_qw : (c.retire e l t).qw = c.qw := by obtain ⟨_, _, h⟩ := retire_frame c e t l; rw [h]
@[simp] theorem retire_cq : (c.retire e l t).cq = c.cq := by obtain ⟨_, _, h⟩ := retire_frame c e t l; rw [h]
@[simp] theorem retire_spad : (c.retire e l t).spad = c.spad := by obtain ⟨_, _, h⟩ := retire_frame c e t l; rw [h]
@[simp] theorem retire_acc : (c.retire e l t).acc = c.acc := by obtain ⟨_, _, h⟩ := retire_frame c e t l; rw [h]
@[simp] theorem retire_rings : (c.retire e l t).rings = c.rings := by obtain ⟨_, _, h⟩ := retire_frame c e t l; rw [h]
@[simp] theorem retire_btm : (c.retire e l t).btm = c.btm := by obtain ⟨_, _, h⟩ := retire_frame c e t l; rw [h]
@[simp] theorem retire_mx : (c.retire e l t).mx = c.mx := by obtain ⟨_, _, h⟩ := retire_frame c e t l; rw [h]
@[simp] theorem retire_task : (c.retire e l t).task = c.task := by obtain ⟨_, _, h⟩ := retire_frame c e t l; rw [h]
@[simp] theorem retire_halt : (c.retire e l t).halt = c.halt := by obtain ⟨_, _, h⟩ := retire_frame c e t l; rw [h]
@[simp] theorem retire_hold : (c.retire e l t).hold = c.hold := by obtain ⟨_, _, h⟩ := retire_frame c e t l; rw [h]
@[simp] theorem retire_dirty : (c.retire e l t).dirty = c.dirty := by obtain ⟨_, _, h⟩ := retire_frame c e t l; rw [h]
@[simp] theorem retire_slipw : (c.retire e l t).slipw = c.slipw := by obtain ⟨_, _, h⟩ := retire_frame c e t l; rw [h]
@[simp] theorem retire_round : (c.retire e l t).round = c.round := by obtain ⟨_, _, h⟩ := retire_frame c e t l; rw [h]
@[simp] theorem retire_seed : (c.retire e l t).seed = c.seed := by obtain ⟨_, _, h⟩ := retire_frame c e t l; rw [h]
@[simp] theorem retire_btmcfg : (c.retire e l t).btmcfg = c.btmcfg := by obtain ⟨_, _, h⟩ := retire_frame c e t l; rw [h]
@[simp] theorem retire_ithrot : (c.retire e l t).ithrot = c.ithrot := by obtain ⟨_, _, h⟩ := retire_frame c e t l; rw [h]
@[simp] theorem retire_safe : (c.retire e l t).safe = c.safe := by obtain ⟨_, _, h⟩ := retire_frame c e t l; rw [h]
@[simp] theorem retire_req : (c.retire e l t).req = c.req := by obtain ⟨_, _, h⟩ := retire_frame c e t l; rw [h]

end retirement

/-! ## Ports and cells -/

/-- A core without memory errors is read as it stands (R151, R155). -/
theorem portRead_good {m : Mach} {c : Fin 64} {g : Fin 256} {acc : Bool} (a n : Nat) (h : (m.core g).clean = true) :
    m.portRead c g acc a n = (m, true) := by simp [Mach.portRead, h]

/-- So are several runs of its bytes, one after the other. -/
theorem portReads_good {m : Mach} {c : Fin 64} {g : Fin 256} {acc : Bool} (rs : List (Nat × Nat))
    (h : (m.core g).clean = true) : m.portReads c g acc rs = (m, true) := by
  induction rs with
  | nil => rfl
  | cons r rs ih => simp [Mach.portReads, portRead_good _ _ h, ih]

/-- A request that the port admits is served, and leaves its place (R149, R213). -/
theorem request1_admitted {m : Mach} {t : Fin 256} {c : Fin 64} {w : Who} {f : Mach → Mach}
    (h : m.admits t c w = true) : m.request1 t c w f = f (m.dequeue t c w) := by simp [Mach.request1, h]

/-- Any other takes its place behind those that wait. -/
theorem request1_kept {m : Mach} {t : Fin 256} {c : Fin 64} {w : Who} {f : Mach → Mach}
    (h : m.admits t c w = false) : m.request1 t c w f = m.enqueue t c w := by simp [Mach.request1, h]

/-- A port that keeps nothing has nothing to give up: it notes the request that it serves. -/
theorem dequeue_empty {m : Mach} {t : Fin 256} {c : Fin 64} {w : Who} (h : (m.core t).portq = []) :
    m.dequeue t c w = m.noteReq t w := by simp [Mach.dequeue, Mach.unqueue, h]

/-- A port that keeps nothing serves every request of a context whose task occupies its core (R149, R213). -/
theorem admits_empty {m : Mach} {t : Fin 256} {c : Fin 64} {w : Who} (h : (m.core t).portq = []) :
    m.admits t c w = (m.occupied t c || m.outlived t c w) := by simp [Mach.admits, Mach.queued, h]

/-- An arbiter that has accepted nothing takes a request at once (R11). -/
@[simp] theorem inTurn_none (now : Word) (r : Nat) : inTurn none now r = true := rfl

/-- An arbiter passes over a clock of its die where its order asks for it, and nothing else (R11). -/
theorem inOrder_frame (m : Mach) (d : Fin 4) (last : Option (Word × Nat)) (r : Nat) :
    ∃ y, m.inOrder d last r = { m with dies := y } := by
  unfold Mach.inOrder; split
  · exact ⟨_, rfl⟩
  · exact ⟨_, rfl⟩

/-- A request that a port accepts is its last, and may pass over a clock (R11, R149). -/
theorem noteReq_frame (m : Mach) (t : Fin 256) (w : Who) : ∃ x y, m.noteReq t w = { m with cores := x, dies := y } := by
  unfold Mach.noteReq; split
  · obtain ⟨y, e⟩ := inOrder_frame m (dieOf t) (m.core t).lastReq ‹_›
    simp only [e]; exact ⟨_, _, rfl⟩
  · exact ⟨_, _, rfl⟩

theorem unqueue_frame (m : Mach) (t : Fin 256) (c : Fin 64) (w : Who) : ∃ x, m.unqueue t c w = { m with cores := x } := by
  unfold Mach.unqueue; split
  · exact ⟨_, rfl⟩
  · exact ⟨_, rfl⟩

/-- What a port serves or keeps changes its own queue and its clock beside what the service does. -/
theorem dequeue_frame (m : Mach) (t : Fin 256) (c : Fin 64) (w : Who) :
    ∃ x y, m.dequeue t c w = { m with cores := x, dies := y } := by
  unfold Mach.dequeue
  obtain ⟨x, e⟩ := unqueue_frame m t c w
  rw [e]
  obtain ⟨x, y, e⟩ := noteReq_frame { m with cores := x } t w
  exact ⟨x, y, e⟩

theorem enqueue_frame (m : Mach) (t : Fin 256) (c : Fin 64) (w : Who) : ∃ x, m.enqueue t c w = { m with cores := x } := by
  unfold Mach.enqueue; split
  · exact ⟨_, rfl⟩
  · exact ⟨_, rfl⟩

/-- A store performed changes its port's core and leaves SC's (R59, R199). -/
theorem performStore_frame (m : Mach) (g : Fin 256) : ∃ x, m.performStore g = { m with cores := x } := by
  unfold Mach.performStore
  split
  · exact ⟨_, rfl⟩
  · split
    · exact ⟨_, rfl⟩
    · unfold Mach.portStore
      split
      · exact ⟨_, rfl⟩
      · exact ⟨_, rfl⟩

/-- An arrival at a core without memory errors touches the cell's core, the waits it ends, and STRAY (R189). -/
theorem arrive_frame (m : Mach) (g : Fin 256) (a : Nat) (c : Fin 64) (h : (m.core g).clean = true) :
    ∃ x y z, m.arrive g a c = { m with cores := x, ctxs := y, touched := z } := by
  unfold Mach.arrive
  simp only [portRead_good _ _ h, Bool.not_true, Bool.false_eq_true, if_false]
  split
  · exact ⟨_, _, _, rfl⟩
  · split
    · exact ⟨_, _, _, rfl⟩
    · exact ⟨_, _, _, rfl⟩

/-- A satisfied BWAIT changes its AS and the tokens of its core, and no memory (R378). -/
theorem satisfyBar_spad (x : Fin 64) (g : Fin 256) (a : Nat) (p : Bool) (c : Core) :
    (satisfyBar x g a p c).spad = c.spad := by
  unfold satisfyBar
  split
  · split
    · unfold Core.endWait
      split
      · exact retire_spad ..
      · exact retire_spad ..
    · rfl
  · rfl

/-! ## Stopping a task -/

theorem withdraw_frame (m : Mach) (g : Fin 256) : ∃ x y, m.withdraw g = { m with cores := x, arrivals := y } := by
  unfold Mach.withdraw Mach.onCore
  obtain ⟨x, e⟩ := performStore_frame m g
  rw [e]; exact ⟨_, _, rfl⟩

/-- A task that stops leaves the boot, the contexts, the dies, the operations and every memory outside the cores (R72). -/
theorem haltTask_frame (m : Mach) (g : Fin 256) (h : Halt) : ∃ x y, m.haltTask g h = { m with cores := x, arrivals := y } := by
  unfold Mach.haltTask
  generalize m.members g = l
  induction l generalizing m with
  | nil => exact ⟨_, _, rfl⟩
  | cons k l ih =>
    rw [List.foldl_cons]
    obtain ⟨a, b, e⟩ := withdraw_frame m k
    rw [e]
    obtain ⟨x, y, e⟩ := ih (Mach.onCore { m with cores := a, arrivals := b } k fun c => { c with halt := some h })
    rw [e]; exact ⟨x, y, rfl⟩

theorem takeTrap_frame (m : Mach) (g : Fin 256) (e : Engine) (c : Cause) (code : BitVec 32) (w : Word) :
    ∃ x y, m.takeTrap g e c code w = { m with cores := x, arrivals := y } := haltTask_frame ..

/-! ## Commands -/

/-- The block of a command: it traps where Sa is not a multiple of 64 (R370). -/
theorem asBlock_align {m : Mach} {g : Fin 256} {n : Nat} {k} (h : (m.core g).opSa.toNat % 64 ≠ 0) :
    asBlock m g n k = .fail .align := by
  have : blockFault (m.core g).opSa n = some .align := by
    have : wf (m.core g).opSa 0 6 ≠ 0 := by simpa [wf, fld] using h
    simp [blockFault, this]
  simp only [asBlock, this]

/-- It traps where it runs past the scratchpad. -/
theorem asBlock_range {m : Mach} {g : Fin 256} {n : Nat} {k} (h : (m.core g).opSa.toNat % 64 = 0)
    (h2 : 0x300000 < (m.core g).opSa.toNat + n) : asBlock m g n k = .fail .spadRange := by
  have : blockFault (m.core g).opSa n = some .spadRange := by
    have : ¬ wf (m.core g).opSa 0 6 ≠ 0 := by simpa [wf, fld] using h
    simp only [blockFault, if_neg this, if_pos h2]
  simp only [asBlock, this]

/-- Otherwise it is read. -/
theorem asBlock_ok {m : Mach} {g : Fin 256} {n : Nat} {k} (h : (m.core g).opSa.toNat % 64 = 0)
    (h2 : (m.core g).opSa.toNat + n ≤ 0x300000) (hc : (m.core g).clean = true) :
    asBlock m g n k = k m (m.core g).opSa.toNat (wordsOf (n / 8) (Memory.read (m.core g).spad (m.core g).opSa.toNat n)) := by
  have : blockFault (m.core g).opSa n = none := by
    have : ¬ wf (m.core g).opSa 0 6 ≠ 0 := by simpa [wf, fld] using h
    simp only [blockFault, if_neg this, if_neg (Nat.not_lt.2 h2)]
  simp only [asBlock, this, portRead_good _ _ hc, if_true]

/-- AS issues a parcel that has its token and its operands, names no trap by them, and has room for the token it gives: its
effect decides (R94, R173). -/
theorem asParcel_go {i : Instr} {eff : Fin 256 → Mach → Eff} {fin : Fin 256 → Mach → Mach}
    {work : Fin 4 → UnitKind → Mach → Mach} {s : State} {g : Fin 256} (h : s.boot.state = 2) (hf : s.m.focus = .engine g .asy)
    (hw : i.wellFormed = true) (ht : ((s.m.core g).e .asy).tokp = true ∨ (s.m.core g).hasTok .asy (tk i) = true)
    (ho : ((s.m.core g).outHead .asy).isSome = true) (hs : sigFull s.m g (tk i).sig = false)
    (hst : (s.m.core g).storeFirst .asy i = false) (hp : asFault s.m g i = none) :
    asParcel i eff fin work s = .next { s with m := match eff g s.m with
      | .trap c code info => s.m.takeTrap g .asy c code (infoOr c info i)
      | .wait m' => m'
      | .done m' => fin g m' } := by
  have hi : illForm i = none := by simpa [Instr.wellFormed] using hw
  have hn : ((s.m.core g).outHead .asy).isNone = false := by simpa using ho
  rw [asParcel_as h hf, asIssue, issue_eff hi hp ht hst]
  simp only [hn, hs, Bool.or_self, Bool.false_eq_true, if_false]
  all_goals (cases eff g s.m <;> rfl)

/-- A unit applies the operation it acts on (R174). -/
theorem cmdWork_run {run : Mach → Op → CmdOut} {d : Fin 4} {u : UnitKind} {m : Mach} {o : Op} (h : m.unitOp d u = some o)
    (hf : o.fin = false) : cmdWork run d u m = Mach.applied (run m o) o.id := by simp [cmdWork, h, hf]

theorem gatherWork_run {run : Mach → Op → Mach} {d : Fin 4} {u : UnitKind} {m : Mach} {o : Op} (h : m.unitOp d u = some o)
    (hf : o.fin = false) : gatherWork run d u m = run m o := by simp [gatherWork, h, hf]

theorem cupWork_run {run : Mach → Op → CmdOut} {d : Fin 4} {u : UnitKind} {m : Mach} {o : Op} (h : m.unitOp d u = some o)
    (hf : o.fin = false) : cupWork run d u m = Mach.applied (cupRun run m o) o.id := gatherWork_run h hf

theorem campWork_begin {d : Fin 4} {u : UnitKind} {m : Mach} {o : Op} (h : m.unitOp d u = some o) (hf : o.fin = false)
    (hb : o.begun = false) : campWork d u m = campBegin m o := by simp [campWork, h, hf, hb]

/-- The running step of Lantern acts (R348). -/
theorem lnStep_run {f : Fin 4 → LnRun → Mach → Mach} {s : State} {d : Fin 4} {r : LnRun} (h : s.boot.state = 2)
    (hf : s.m.focus = .unit d .lantern) (hr : (s.m.die d).lan.run = some r) (hs : r.stop = none) :
    lnStep f s = .next { s with m := f d r s.m } := by simp [lnStep, ready, h, hf, hr, hs]

/-- A write of a control page: what it does for an agent that may write it, and nothing otherwise (R365). -/
theorem ctlWrite_may {ag : Agent} {c : Fin 64} {f : Mach → Mach} {s : State} (h : ag = .host ∨ s.boot.state = 2)
    (hw : s.m.mayWrite ag c = true) : ctlWrite ag c f s = .next { s with m := f s.m } := by
  rw [ctlWrite, regWrite, if_pos (by simpa using h), if_pos hw]

theorem ctlWrite_not {ag : Agent} {c : Fin 64} {f : Mach → Mach} {s : State} (hw : s.m.mayWrite ag c = false) :
    ctlWrite ag c f s = .next s := by
  unfold ctlWrite regWrite; simp [hw]

end Sys2Proof.Machine
end

