-- ==== Sys2Proof/Safety.lean ====
section
/-!
DEFINITION. What counts as a safe run: every step answers a next state. A trap, a poisoned element, a killed
context and a failed boot are states of the machine and safe in this sense.
-/
namespace Sys2Proof.Machine

/-- A step from s answers a next state. -/
def SafeStep (s : State) : Prop := ∃ t, step s = .next t

/-- n steps from s answer a next state each. -/
def SafeRun (n : Nat) (s : State) : Prop := ∃ t, Sys2Proof.core.run n s = .next t

end Sys2Proof.Machine
end

