-- ==== Sys2Proof/Tests/Slice0.lean ====
section
/-!
SUPPORT. The model's own tests. The words are those that spec/ writes out, or sums of the fields of its encoding
tables; the values are its worked examples. A witness shows a state and operands that meet the hypotheses of a
statement of Certificates/Slice0/Obligations.lean.
-/
set_option maxRecDepth 200000

namespace Sys2Proof.Tests
open Sys2Proof Sys2Proof.Machine Sys2Proof.Claims

/-- No token. -/
def nt : Tok := ⟨none, none⟩

/-- Each word decodes to its instruction. -/
def decodes (l : List (Nat × Nat × Instr)) : Bool := l.all fun x => decide (decodeTableWord x.1 x.2.1 = some x.2.2)

/-- Each instruction is ill-formed, and for the reason named. -/
def refuses (l : List (Instr × Ill)) : Bool := l.all fun x => decide (illForm x.1 = some x.2)

/-- A ready module on which core 0 runs a task of four parcels of context 0, changed by f, with an agent in focus. -/
def st (fo : Focus) (f : Core → Core) : State :=
  { State.reset with
    boot := { Boot.reset with state := 2 }
    m := { (Mach.reset Fuses.full).onCore 0 fun c => f { c with task := some probeTask } with focus := fo } }

/-- The state with its machine changed. -/
def on (s : State) (f : Mach → Mach) : State := { s with m := f s.m }

/-- SC's turn on core 0 with the listed registers set. -/
def scSt (l : List (Fin 32 × Word)) : State := st (.engine 0 .sc) fun c => l.foldl (fun c x => c.ws x.1 x.2) c

/-- Core 0 after an instruction, where it answers a next state. -/
def core0 (i : Instr) (s : State) : Option Core :=
  match exec i s with | .next t => some (t.m.core 0) | _ => none

/-- Scalar register r after an instruction of SC. -/
def reg (i : Instr) (l : List (Fin 32 × Word)) (r : Fin 32) : Option Word := (core0 i (scSt l)).map fun c => c.rs r

/-! ## Ill-formed terms, one for each check -/

theorem test_illformed_fields : refuses [
    (.bits nt 1 2 60 7, .reservedValue), (.getsr nt 1 0x006, .reservedValue), (.setsr nt 1 0x022, .reservedValue),
    (.tend ⟨none, some .ld⟩, .reservedValue), (.loop nt 3 0, .reservedValue), (.loopR nt 3 0x8000, .reservedValue),
    (.vld nt (.v 20) 0 12 0 .loc .b32, .reservedValue), (.vld nt (.v 0) 0 0 0 .acc .b16, .reservedValue),
    (.vldx nt (.q 2) 0 0 0 .loc .raw 4, .reservedValue), (.vst nt (.v 0) 0 0 0 .loc .b32, .reservedValue),
    (.vst nt (.q 3) 0 0 0 .clu .b32, .reservedValue), (.vstx nt (.q 3) 0 0 0 .loc .b4 4, .reservedValue),
    (.vadd nt (.v 1) (.v 2) (.v 3) 0 .e2m1, .reservedValue), (.vdiv nt (.v 1) (.v 2) (.v 3) 0 .e4m3, .reservedValue),
    (.vcvt nt (.v 1) (.v 2) 0 (.f .f32) (.f .f32), .reservedValue), (.vcvt nt (.v 1) (.v 2) 0 (.f .e8m0) (.f .bf16), .reservedValue),
    (.vicmp nt 1 (.v 2) (.v 3) .unord 0 .i32, .reservedValue), (.vrotc nt (.v 1) (.v 2) 16 0, .reservedValue),
    (.vredrAdd nt (.v 1) (.v 2) 0 (.i .i4), .reservedValue), (.vpack nt (.v 1) (.v 2) (.v 3) 0 (.f .f32), .reservedValue),
    (.vspz nt (.v 1) (.v 2) 3 0 .f32, .reservedValue), (.vmop nt 1 2 3 .not, .reservedValue), (.vmcnt nt (.v 1) 2 0, .reservedValue),
    (.mmul nt 0 1 0 .s11 .e4m3 true false, .reservedValue), (.matt nt 0 0 0 .i8 false false false 0 0, .reservedValue),
    (.vatomAdd nt 1 (.q 0), .reservedValue), (.lnwait 4 true, .reservedValue), (.lnsig 0xC0000F, .reservedValue)] = true := by decide

theorem test_illformed_step : refuses [
    (.lnsend { cv := 2, par := false, ls := 3, px := false, pa := 0, pb := 0, ck := false, ca := 0, cb := 0, d := 0, ch := 0, rop := 0 }, .reservedValue),
    (.lncopy { cv := 0, par := false, ls := 3, px := true, pa := 0, pb := 0, ck := false, ca := 0, cb := 0, d := 0, ch := 0, rop := 0 }, .reservedValue),
    (.lnrrs { cv := 0, par := false, ls := 3, px := false, pa := 0, pb := 0, ck := false, ca := 0, cb := 0, d := 0, ch := 0, rop := 3 }, .reservedValue)] = true := by
  decide

theorem test_illformed_self_token : refuses [(.add ⟨some .sc, none⟩ 1 2 3, .selfToken), (.vadd ⟨none, some .vx⟩ (.v 1) (.v 2) (.v 3) 0 .f32, .selfToken)] = true := by
  decide

theorem test_illformed_sources_and_destinations : refuses [
    (.vfma nt (.v 3) (.v 1) (.v 2) (.v 4) 0 .f32, .thirdV), (.vadd nt (.z 0) (.v 1) (.v 2) 0 .f32, .zDest),
    (.vld nt (.z 1) 0 0 0 .loc .b32, .zDest), (.vadd nt (.v 1) (.q 3) (.v 2) 0 .f32, .queueDir),
    (.vadd nt (.q 0) (.v 1) (.v 2) 0 .f32, .queueDir), (.movQw nt 1 5, .queueDir), (.movQr nt 1 4, .queueDir),
    (.vld nt (.q 3) 0 0 0 .loc .b32, .queueDir), (.vst nt (.q 0) 0 0 0 .loc .b32, .queueDir)] = true := by decide

/-! ## Words -/

theorem test_decode_sc_1 : decodes [
    (48, 0x000000000000, .nop nt ),
    (48, 0x002012A58000, .add nt 9 10 11),
    (48, 0x004012A58000, .addS nt 9 10 11),
    (48, 0x006012A58000, .addUs nt 9 10 11),
    (48, 0x008012A8ABCD, .addI nt 9 10 568269),
    (48, 0x00A012A58000, .sub nt 9 10 11),
    (48, 0x00C012A58000, .subS nt 9 10 11),
    (48, 0x00E012A58000, .subUs nt 9 10 11),
    (48, 0x010012A58000, .mul nt 9 10 11),
    (48, 0x012012A58000, .mulS nt 9 10 11),
    (48, 0x014012A58000, .mulHi nt 9 10 11),
    (48, 0x016012A58000, .mulHu nt 9 10 11),
    (48, 0x018012A8ABCD, .mulI nt 9 10 568269),
    (48, 0x01A012A58000, .div nt 9 10 11),
    (48, 0x01C012A58000, .divU nt 9 10 11),
    (48, 0x01E012A58000, .divR nt 9 10 11),
    (48, 0x020012A58000, .divRu nt 9 10 11),
    (48, 0x022012A58000, .and nt 9 10 11),
    (48, 0x024012A8ABCD, .andI nt 9 10 568269),
    (48, 0x026012A58000, .or nt 9 10 11),
    (48, 0x028012A8ABCD, .orI nt 9 10 568269),
    (48, 0x02A012A58000, .xor nt 9 10 11),
    (48, 0x02C012A8ABCD, .xorI nt 9 10 568269),
    (48, 0x02E012A58000, .shl nt 9 10 11)] = true := by decide

theorem test_decode_sc_2 : decodes [
    (48, 0x030012A00005, .shlI nt 9 10 5),
    (48, 0x032012A58000, .shr nt 9 10 11),
    (48, 0x034012A00005, .shrI nt 9 10 5),
    (48, 0x036012A58000, .shrA nt 9 10 11),
    (48, 0x038012A00005, .shrAi nt 9 10 5),
    (48, 0x03A012A58002, .cmp nt 9 10 11 .lt),
    (48, 0x03C012A5B000, .sel nt 9 10 11 12),
    (48, 0x03E012A58000, .min nt 9 10 11),
    (48, 0x040012A58000, .minU nt 9 10 11),
    (48, 0x042012A58000, .max nt 9 10 11),
    (48, 0x044012A58000, .maxU nt 9 10 11),
    (48, 0x046012A00307, .bits nt 9 10 12 7),
    (48, 0x048012A00307, .bitsS nt 9 10 12 7),
    (48, 0x04A012A00307, .bitsIns nt 9 10 12 7),
    (48, 0x04C012A00000, .bitsCnt nt 9 10),
    (48, 0x04E012A00000, .bitsClz nt 9 10),
    (48, 0x050012A00000, .mov nt 9 10),
    (48, 0x052000A00004, .movQw nt 10 4),
    (48, 0x054012000004, .movQr nt 9 4),
    (48, 0x05601208ABCD, .movi nt 9 568269),
    (96, 0x0123456789AB85801208ABCD, .moviL nt 9 568269 1250999896491),
    (48, 0x05A000A58003, .apat nt 10 11 3),
    (48, 0x0600094BFFFE, .br nt .lt 10 11 65534),
    (48, 0x06200000FFFE, .jmp nt 65534)] = true := by decide

theorem test_decode_sc_3 : decodes [
    (48, 0x064001400000, .jmpR nt 10),
    (96, 0x000000012345866000000000, .jmpL nt 74565),
    (48, 0x06800140FFFE, .call nt 10 65534),
    (48, 0x06A0014B0000, .callR nt 10 11),
    (96, 0x00000001234586C001400000, .callL nt 10 74565),
    (48, 0x06E001400000, .ret nt 10),
    (48, 0x07000021FFFE, .loop nt 33 65534),
    (48, 0x07200140FFFE, .loopR nt 10 65534),
    (48, 0x074012A07FF8, .sld nt 9 10 32760),
    (48, 0x076012A07FF8, .sldW nt 9 10 32760),
    (48, 0x078012A07FF8, .sldWs nt 9 10 32760),
    (48, 0x07A000A5FFF8, .sst nt 10 11 32760),
    (48, 0x07C000A5FFF8, .sstW nt 10 11 32760),
    (48, 0x080012000021, .getsr nt 9 33),
    (48, 0x082000A00021, .setsr nt 10 33),
    (48, 0x084000000021, .trap nt 33),
    (48, 0x086000000021, .bkpt nt 33),
    (48, 0x088000000000, .tend nt ),
    (48, 0x08A000A00000, .tspawn nt 10),
    (48, 0x08C000A00000, .tjoin nt 10),
    (48, 0x08E000000000, .yield nt ),
    (48, 0x090000000002, .fenceAcq nt .die),
    (48, 0x092000000002, .fenceRel nt .die),
    (48, 0x094000000002, .fence nt .die)] = true := by decide

theorem test_decode_sc_4 : decodes [
    (48, 0x096000000000, .mark nt ),
    (48, 0x098000000000, .quies nt ),
    (48, 0x09A000A00000, .notify nt 10),
    (48, 0x09C012000021, .gpget nt 9 33),
    (48, 0x09E000A00021, .gpset nt 10 33)] = true := by decide

theorem test_decode_ld : decodes [
    (48, 0x100004627F73, .vld nt (.v 4) 3 4 1019 .clu .b8),
    (96, 0x00000002A540902004627F73, .vldx nt (.v 4) 3 4 1019 .clu .b8 173376)] = true := by decide

theorem test_decode_st : decodes [
    (48, 0x200004627F73, .vst nt (.v 4) 3 4 1019 .clu .b8),
    (96, 0x00000002A540A02004627F73, .vstx nt (.v 4) 3 4 1019 .clu .b8 173376)] = true := by decide

theorem test_decode_vx_1 : decodes [
    (48, 0x3020092A3011, .vadd nt (.v 9) (.v 10) (.w 3) 2 .bf16),
    (48, 0x3040092A3011, .vsub nt (.v 9) (.v 10) (.w 3) 2 .bf16),
    (48, 0x3060092A3011, .vmul nt (.v 9) (.v 10) (.w 3) 2 .bf16),
    (48, 0x3080092A3C51, .vfma nt (.v 9) (.v 10) (.w 3) (.q 1) 2 .bf16),
    (48, 0x30A0092A3C51, .vfmaNm nt (.v 9) (.v 10) (.w 3) (.q 1) 2 .bf16),
    (48, 0x30C0092A3011, .vdiv nt (.v 9) (.v 10) (.w 3) 2 .bf16),
    (48, 0x30E009280011, .vsqrt nt (.v 9) (.v 10) 2 .bf16),
    (48, 0x310009280011, .vsfExp2 nt (.v 9) (.v 10) 2 .bf16),
    (48, 0x312009280011, .vsfLog2 nt (.v 9) (.v 10) 2 .bf16),
    (48, 0x314009280011, .vsfRcp nt (.v 9) (.v 10) 2 .bf16),
    (48, 0x316009280011, .vsfRsqrt nt (.v 9) (.v 10) 2 .bf16),
    (48, 0x318009280011, .vsfSin nt (.v 9) (.v 10) 2 .bf16),
    (48, 0x31A009280011, .vsfCos nt (.v 9) (.v 10) 2 .bf16),
    (48, 0x31C009280011, .vsfTanh nt (.v 9) (.v 10) 2 .bf16),
    (48, 0x31E009280011, .vsfErf nt (.v 9) (.v 10) 2 .bf16),
    (48, 0x320009280011, .vsfSigm nt (.v 9) (.v 10) 2 .bf16),
    (48, 0x3220092A3011, .vmin nt (.v 9) (.v 10) (.w 3) 2 .bf16),
    (48, 0x3240092A3011, .vminP nt (.v 9) (.v 10) (.w 3) 2 .bf16),
    (48, 0x3260092A3011, .vmax nt (.v 9) (.v 10) (.w 3) 2 .bf16),
    (48, 0x3280092A3011, .vmaxP nt (.v 9) (.v 10) (.w 3) 2 .bf16),
    (48, 0x32A0012A3111, .vcmp nt 1 (.v 10) (.w 3) .gt 2 .bf16),
    (48, 0x32C0092A3010, .vsel nt (.v 9) (.v 10) (.w 3) 2),
    (48, 0x32E009280010, .vmov nt (.v 9) (.v 10) 2),
    (96, 0x00000008ABCDB30009000010, .vmovI nt (.v 9) 2 568269)] = true := by decide

theorem test_decode_vx_2 : decodes [
    (48, 0x332009280511, .vcvt nt (.v 9) (.v 10) 2 (.f .bf16) (.i .i8)),
    (48, 0x3340092A3011, .viadd nt (.v 9) (.v 10) (.w 3) 2 .ui32),
    (48, 0x3360092A3011, .viaddS nt (.v 9) (.v 10) (.w 3) 2 .ui32),
    (48, 0x3380092A3011, .visub nt (.v 9) (.v 10) (.w 3) 2 .ui32),
    (48, 0x33A0092A3011, .visubS nt (.v 9) (.v 10) (.w 3) 2 .ui32),
    (48, 0x33C0092A3011, .vimul nt (.v 9) (.v 10) (.w 3) 2 .ui32),
    (48, 0x33E0092A3011, .vimulS nt (.v 9) (.v 10) (.w 3) 2 .ui32),
    (48, 0x3400092A3011, .vimulHi nt (.v 9) (.v 10) (.w 3) 2 .ui32),
    (48, 0x3420092A3011, .vimin nt (.v 9) (.v 10) (.w 3) 2 .ui32),
    (48, 0x3440092A3011, .vimax nt (.v 9) (.v 10) (.w 3) 2 .ui32),
    (48, 0x3460012A3111, .vicmp nt 1 (.v 10) (.w 3) .gt 2 .ui32),
    (48, 0x3480092A3010, .vand nt (.v 9) (.v 10) (.w 3) 2),
    (48, 0x34A0092A3010, .vor nt (.v 9) (.v 10) (.w 3) 2),
    (48, 0x34C0092A3010, .vxor nt (.v 9) (.v 10) (.w 3) 2),
    (48, 0x34E0092A3011, .vshl nt (.v 9) (.v 10) (.w 3) 2 .ui32),
    (48, 0x3500092A3011, .vshr nt (.v 9) (.v 10) (.w 3) 2 .ui32),
    (48, 0x352009280151, .vshlI nt (.v 9) (.v 10) 5 2 .ui32),
    (48, 0x354009280151, .vshrI nt (.v 9) (.v 10) 5 2 .ui32),
    (48, 0x3600092A3010, .vpermb nt (.v 9) (.v 10) (.w 3) 2),
    (48, 0x362009280150, .vrotr nt (.v 9) (.v 10) 5 2),
    (48, 0x364009280150, .vrotc nt (.v 9) (.v 10) 5 2),
    (48, 0x366009280150, .vbcr nt (.v 9) (.v 10) 5 2),
    (48, 0x368009280150, .vbcc nt (.v 9) (.v 10) 5 2),
    (48, 0x36A009280812, .vredrAdd nt (.v 9) (.v 10) 2 (.i .i16))] = true := by decide

theorem test_decode_vx_3 : decodes [
    (48, 0x36C009280812, .vredrMax nt (.v 9) (.v 10) 2 (.i .i16)),
    (48, 0x36E009280812, .vredrMin nt (.v 9) (.v 10) 2 (.i .i16)),
    (48, 0x370009280812, .vredcAdd nt (.v 9) (.v 10) 2 (.i .i16)),
    (48, 0x372009280812, .vredcMax nt (.v 9) (.v 10) 2 (.i .i16)),
    (48, 0x374009280812, .vredcMin nt (.v 9) (.v 10) 2 (.i .i16)),
    (48, 0x376009280812, .vscanrAdd nt (.v 9) (.v 10) 2 (.i .i16)),
    (48, 0x378009280812, .vscanrMax nt (.v 9) (.v 10) 2 (.i .i16)),
    (48, 0x37A009280812, .vscancAdd nt (.v 9) (.v 10) 2 (.i .i16)),
    (48, 0x37C009280812, .vscancMax nt (.v 9) (.v 10) 2 (.i .i16)),
    (48, 0x37E009280010, .vtrn nt (.v 9) (.v 10) 2),
    (48, 0x380009280011, .viota nt (.v 9) (.v 10) 2 .ui32),
    (48, 0x3820092A3010, .vspl nt (.v 9) (.v 10) (.w 3) 2),
    (48, 0x3840092A3010, .vext nt (.v 9) (.v 10) (.w 3) 2),
    (48, 0x3860092A3010, .vins nt (.v 9) (.v 10) (.w 3) 2),
    (48, 0x3880092A3812, .vpack nt (.v 9) (.v 10) (.w 3) 2 (.i .i16)),
    (48, 0x38A0092A3812, .vunpk nt (.v 9) (.v 10) (.w 3) 2 (.i .i16)),
    (48, 0x38C009280151, .vspz nt (.v 9) (.v 10) 5 2 .bf16),
    (48, 0x3900010830C0, .vmop nt 1 2 3 .andn),
    (48, 0x392009000150, .vmcnt nt (.v 9) 5 2),
    (48, 0x394009000010, .vrand nt (.v 9) 2),
    (48, 0x396009000011, .vrandU nt (.v 9) 2 .bf16)] = true := by decide

theorem test_decode_mx : decodes [
    (48, 0x4000048C0800, .mzero nt 291 4),
    (48, 0x402000018028, .mwld nt 3 .bf16),
    (48, 0x404000018028, .mwldS4 nt 3 .bf16),
    (48, 0x406000018028, .mwldS2 nt 3 .bf16),
    (48, 0x408000018028, .mwldS1 nt 3 .bf16),
    (48, 0x40A0048D88EC, .mmul nt 291 3 4 .s22 .bf16 false true),
    (96, 0x000000005456C0C0048D882D, .matt nt 291 3 4 .bf16 true false true 1110 5),
    (48, 0x40E0048D8801, .mdrn nt 291 3 4 true),
    (48, 0x4100048D8800, .mdrnF nt 291 3 4),
    (48, 0x4120048D8800, .mdrnSm nt 291 3 4),
    (48, 0x414000018000, .mepi nt 3),
    (48, 0x416000018000, .macfg nt 3)] = true := by decide

theorem test_decode_as_1 : decodes [
    (48, 0x50200C700000, .xcp nt 6 7),
    (48, 0x50400C700000, .xcpCvt nt 6 7),
    (48, 0x50600C700000, .xcpMc nt 6 7),
    (48, 0x50800C700000, .xcpKv nt 6 7),
    (48, 0x51000C700000, .xaccAdd nt 6 7),
    (48, 0x51200C700000, .xaccMin nt 6 7),
    (48, 0x51400C700000, .xaccMax nt 6 7),
    (48, 0x51600C700000, .xaccAnd nt 6 7),
    (48, 0x51800C700000, .xaccOr nt 6 7),
    (48, 0x51A00C700000, .xaccXor nt 6 7),
    (48, 0x52000C700000, .xatomAdd nt 6 7),
    (48, 0x52200C700000, .xatomMin nt 6 7),
    (48, 0x52400C700000, .xatomMax nt 6 7),
    (48, 0x52600C700000, .xatomAnd nt 6 7),
    (48, 0x52800C700000, .xatomOr nt 6 7),
    (48, 0x52A00C700000, .xatomXor nt 6 7),
    (48, 0x52C00C700000, .xatomSwap nt 6 7),
    (48, 0x52E00C700000, .xatomCas nt 6 7),
    (48, 0x53000C700000, .xfill nt 6 7),
    (48, 0x53200C01C000, .vatomAdd nt 6 (.v 7)),
    (48, 0x53400C01C000, .vatomMin nt 6 (.v 7)),
    (48, 0x53600C01C000, .vatomMax nt 6 (.v 7)),
    (48, 0x53800C01C000, .vatomAnd nt 6 (.v 7)),
    (48, 0x53A00C01C000, .vatomOr nt 6 (.v 7))] = true := by decide

theorem test_decode_as_2 : decodes [
    (48, 0x53C00C01C000, .vatomXor nt 6 (.v 7)),
    (48, 0x54000C000000, .binit nt 6),
    (48, 0x542000700000, .barv nt 7),
    (48, 0x544000700001, .bwait nt 7 true),
    (48, 0x54800C000000, .rngcfg nt 6),
    (48, 0x54A000700040, .rngwf nt 7 64),
    (48, 0x54C000700040, .rngwe nt 7 64),
    (48, 0x54E000700000, .rngpub nt 7),
    (48, 0x550000700000, .rngrel nt 7),
    (48, 0x55800C000000, .btld nt 6),
    (48, 0x55A00C000000, .btlk nt 6),
    (48, 0x55C00C000000, .btinv nt 6),
    (48, 0x56000C000000, .balloc nt 6),
    (48, 0x56200C000000, .bfree nt 6),
    (48, 0x56400C000000, .bref nt 6),
    (48, 0x56600C000000, .btopen nt 6),
    (48, 0x56800C000000, .btclose nt 6),
    (48, 0x56A00C000000, .btapp nt 6),
    (48, 0x56C00C000000, .btfork nt 6),
    (48, 0x56E00C000000, .bttrim nt 6),
    (48, 0x57000C000000, .btcmt nt 6),
    (48, 0x57200C000000, .bhfind nt 6),
    (48, 0x57400C000000, .bhpub nt 6),
    (48, 0x58000C000000, .itbind nt 6)] = true := by decide

theorem test_decode_as_3 : decodes [
    (48, 0x58200C000000, .itgo nt 6),
    (48, 0x58400C000000, .itstat nt 6),
    (48, 0x58600C000000, .objplace nt 6),
    (48, 0x58800C000000, .objpin nt 6),
    (48, 0x59000C000000, .rgcfg nt 6),
    (48, 0x59200C000000, .rgpush nt 6),
    (48, 0x59400C000000, .rgtakeTake nt 6),
    (48, 0x5A000C000000, .smbind nt 6),
    (48, 0x5A200C000000, .smrun nt 6),
    (48, 0x5A400C000000, .clrslow nt 6),
    (48, 0x5A600C000000, .smstat nt 6),
    (48, 0x5B000C000000, .lnrun nt 6),
    (48, 0x5B200C000000, .lnstat nt 6)] = true := by decide
theorem test_decode_lantern : decodes [
    (64, 0x1180000040008000, .lnsend { cv := 0, par := false, ls := 3, px := false, pa := 0, pb := 1, ck := false, ca := 0, cb := 0, d := 1, ch := 0, rop := 0 }),
    (64, 0x2400000017800000, .lnrecv { cv := 1, par := false, ls := 0, px := false, pa := 0, pb := 0, ck := false, ca := 2, cb := 0xF, d := 0, ch := 0, rop := 0 }),
    (64, 0x308000000F810800, .lnrrs { cv := 0, par := false, ls := 1, px := false, pa := 0, pb := 0, ck := false, ca := 1, cb := 0xF, d := 2, ch := 1, rop := 0 }),
    (64, 0x4580000000000000, .lncopy { cv := 1, par := false, ls := 3, px := false, pa := 0, pb := 0, ck := false, ca := 0, cb := 0, d := 0, ch := 0, rop := 0 }),
    (64, 0x5000000100EF0F10, .lnwait 0xEF0F10 true), (64, 0x6000000000EF0F10, .lnsig 0xEF0F10),
    (64, 0x7000000000000002, .lnloop 0 2), (64, 0x8000000000000000, .lnendl 0), (64, 0x9000000000000000, .lnend)] = true := by decide

/-- The words that spec/ writes out beside their assembly. -/
theorem test_decode_written_out : decodes [
    (48, 0x308003062A18, .vfma nt (.v 3) (.v 1) (.w 2) (.z 0) 3 .f32), (48, 0x100004478040, .vld nt (.v 4) 2 15 2 .loc .b32),
    (48, 0x20003361FFA0, .vst nt (.q 3) 3 3 (-3) .loc .b32),
    (48, 0x40A008018600, .mmul nt 512 3 3 .s11 .e4m3 false false), (48, 0x05600A000008, .movi nt 5 8),
    (48, 0x302001042000, .vadd nt (.v 1) (.v 1) (.v 2) 0 .f32), (48, 0x00800A5FFFFF, .addI nt 5 5 (-1)),
    (48, 0x060004A0FFFE, .br nt .ne 5 0 (-2)), (48, 0x088000000000, .tend nt), (48, 0x05A000A58002, .apat nt 10 11 2),
    (48, 0x080004000021, .getsr nt 2 0x21), (48, 0x09C01200000C, .gpget nt 9 12), (48, 0x09E00040000D, .gpset nt 4 13),
    (48, 0x05400A000007, .movQr nt 5 7), (48, 0x052000300004, .movQw nt 3 4), (48, 0x000A00000000, .nop ⟨some .ld, some .vx⟩),
    (48, 0x07581EE00000, .sld ⟨some .asy, none⟩ 15 14 0), (48, 0x07A300A60000, .sst ⟨none, some .asy⟩ 10 12 0),
    (48, 0x542400B00000, .barv ⟨some .sc, none⟩ 11), (48, 0x544080D00001, .bwait ⟨none, some .sc⟩ 13 true),
    (48, 0x5A2090000000, .smrun ⟨none, some .sc⟩ 8), (48, 0x5B0094000000, .lnrun ⟨none, some .sc⟩ 10),
    (48, 0x57008C000000, .btcmt ⟨none, some .sc⟩ 6), (48, 0x54C000900040, .rngwe nt 9 0x40), (48, 0x54E000900000, .rngpub nt 9),
    (48, 0x094000000002, .fence nt .die), (48, 0x08400000002A, .trap nt 0x2A), (48, 0x03C006429800, .sel nt 3 4 5 6),
    (48, 0x082000300012, .setsr nt 3 0x12), (48, 0x038008400003, .shrAi nt 4 4 3), (48, 0x08C000700000, .tjoin nt 7),
    (48, 0x08A000600000, .tspawn nt 6), (48, 0x06E003E00000, .ret nt 31), (48, 0x30C0051A1011, .vdiv nt (.v 5) (.v 6) (.w 1) 2 .bf16),
    (48, 0x36A002040000, .vredrAdd nt (.v 2) (.v 1) 0 (.f .f32)), (48, 0x36A002040800, .vredrAdd nt (.v 2) (.v 1) 0 (.i .i32)),
    (48, 0x332001080001, .vcvt nt (.v 1) (.v 2) 0 (.f .bf16) (.f .f32)), (48, 0x332001080804, .vcvt nt (.v 1) (.v 2) 0 (.i .i8) (.f .f32)),
    (48, 0x3840350F4000, .vext nt (.q 5) (.v 3) (.q 4) 0), (48, 0x392035000018, .vmcnt nt (.q 5) 0 3),
    (96, 0x3F800000B30033000000, .vmovI nt (.q 3) 0 0x3F800000), (48, 0x502029500000, .xcp nt 20 21),
    (48, 0x53220801C000, .vatomAdd ⟨none, some .vx⟩ 4 (.v 7))] = true := by decide

/-- Words that are no instruction: bit 30, a self-naming engine code, a reserved opcode, a short opcode with L. -/
theorem test_decode_rejects : ([0x308043062A18, 0x600000000000, 0x0FE000000000, 0x802012A58000, 0x003C00000000].all
    fun w => decide (decodeTableWord 48 w = none)) = true := by decide

/-- An encoded instruction decodes again, with the bytes after it left over. -/
theorem test_encode_roundtrip :
    decodeBytes ((encode (.matt nt 512 3 15 .bf16 true false true 128 5)).flatMap (leBytes 6) ++ [7, 8]) =
      .ok (.matt nt 512 3 15 .bf16 true false true 128 5, [7, 8]) := by decide

/-! ## What instructions do: the worked examples of spec/ -/

theorem test_add_wraps : reg (.add nt 3 4 5) [(4, 0xFFFFFFFFFFFFFFFF), (5, 2)] 3 = some 1 := by decide
theorem test_s0_discards : reg (.add nt 0 4 5) [(4, 1), (5, 2)] 0 = some 0 := by decide
theorem test_bits : reg (.bits nt 6 7 12 7) [(7, 0xABC123)] 6 = some 0xBC := by decide
theorem test_bits_s : reg (.bitsS nt 6 7 12 7) [(7, 0xABC123)] 6 = some 0xFFFFFFFFFFFFFFBC := by decide
theorem test_bits_ins : reg (.bitsIns nt 6 7 12 7) [(7, 0xABC123)] 6 = some 0x23000 := by decide
theorem test_bits_cnt : reg (.bitsCnt nt 6 7) [(7, 0xABC123)] 6 = some 11 := by decide
theorem test_bits_clz : reg (.bitsClz nt 6 7) [(7, 0xABC123)] 6 = some 40 := by decide
theorem test_cmp_ltu : reg (.cmp nt 3 4 5 .ltu) [(4, 0xFFFFFFFFFFFFFFFF), (5, 1)] 3 = some 0 := by decide
theorem test_cmp_lt : reg (.cmp nt 3 4 5 .lt) [(4, 0xFFFFFFFFFFFFFFFF), (5, 1)] 3 = some 1 := by decide
theorem test_div : reg (.div nt 3 4 5) [(4, 0xFFFFFFFFFFFFFFF9), (5, 2)] 3 = some 0xFFFFFFFFFFFFFFFD := by decide
theorem test_div_r : reg (.divR nt 3 4 5) [(4, 0xFFFFFFFFFFFFFFF9), (5, 2)] 3 = some 0xFFFFFFFFFFFFFFFF := by decide
theorem test_div_u : reg (.divU nt 3 4 5) [(4, 0xFFFFFFFFFFFFFFF9), (5, 2)] 3 = some 0x7FFFFFFFFFFFFFFC := by decide
theorem test_div_ru : reg (.divRu nt 3 4 5) [(4, 0xFFFFFFFFFFFFFFF9), (5, 2)] 3 = some 1 := by decide
theorem test_min : reg (.min nt 3 4 5) [(4, 0xFFFFFFFFFFFFFFFF), (5, 1)] 3 = some 0xFFFFFFFFFFFFFFFF := by decide
theorem test_max_u : reg (.maxU nt 3 4 5) [(4, 0xFFFFFFFFFFFFFFFF), (5, 1)] 3 = some 0xFFFFFFFFFFFFFFFF := by decide
theorem test_mul_s : reg (.mulS nt 3 4 5) [(4, 0x100000000), (5, 0x100000001)] 3 = some 0x7FFFFFFFFFFFFFFF := by decide
theorem test_mul_hi : reg (.mulHi nt 3 4 5) [(4, 0x100000000), (5, 0x100000001)] 3 = some 1 := by decide
theorem test_mul_hu : reg (.mulHu nt 3 4 5) [(4, 0xFFFFFFFFFFFFFFFF), (5, 0xFFFFFFFFFFFFFFFF)] 3 = some 0xFFFFFFFFFFFFFFFE := by decide
theorem test_shr_ai : reg (.shrAi nt 3 4 4) [(4, 0x8000000000000000)] 3 = some 0xF800000000000000 := by decide
theorem test_shr_a_70 : reg (.shrA nt 3 4 5) [(4, 0x8000000000000000), (5, 70)] 3 = some 0xFFFFFFFFFFFFFFFF := by decide
theorem test_shr_70 : reg (.shr nt 3 4 5) [(4, 0x8000000000000000), (5, 70)] 3 = some 0 := by decide
theorem test_movi_l : reg (.moviL nt 7 0x89ABC 0x1234567) [] 7 = some 0x123456789ABC := by decide

/-- SHR.AI reads its source before it writes: S4 is both. -/
theorem test_shr_ai_same : reg (.shrAi nt 4 4 3) [(4, 0x8000000000000000)] 4 = some 0xF000000000000000 := by decide

/-- R389: the CORE register of core 0, and a taken branch by −2 from parcel 3. -/
theorem test_branch_taken : ((core0 (.br nt .ne 5 0 (-2)) (on (scSt [(5, 1)]) fun m =>
    m.onCore 0 fun c => c.onE .sc fun x => { x with pc := 3 })).map fun c => ((c.e .sc).pc, c.out[4])) = some (1, [1]) := by decide

/-- The example of R128: five elements of a block whose largest magnitude is 3.75, to E4M3. -/
theorem test_quantise : quantise .e4m3 [0x40700000, 0x3C280000, 0xBF000000, 0x37000000, 0x37C00000] =
    (120, [0x7E, 0x3A, 0xE8, 0x00, 0x02]) := by decide

/-- The example of R132: 0x3F80C000 to BF16 under RSR, for two draws. -/
theorem test_stochastic : ((f32 0x3F80C000).toF false .bf16 .rsr 0x6000, (f32 0x3F80C000).toF false .bf16 .rsr 0xD000) =
    (0x3F81, 0x3F80) := by decide

/-- The table of R446. -/
theorem test_convert : ([0x43FA0000, 0xC06CCCCD].map fun x => ((f32 x).toF true .e4m3 .rne 0, (f32 x).toI .i8 .rz 0, (f32 x).toI .i8 .rne 0)) =
    [(0x7E, 0x7F, 0x7F), (0xC7, 0xFD, 0xFC)] := by decide

/-- TRAP with code 0x2A: what the record will say. -/
theorem test_trap_stops : ((core0 (.trap nt 0x2A) (scSt [])).map fun c => c.halt) =
    some (some (.trap ⟨.trap, .sc, 0, 0, 0, 0, 0x2A, 0x08400000002A⟩)) := by decide

/-- The word at the program counter runs as the first instruction after reset. -/
theorem test_step_runs : (match step (State.reset.withFetchWord 48 0x05600A0FFFFF) with
    | .next t => some (((t.m.core 0).rs 5), ((t.m.core 0).e .sc).pc) | _ => none) = some (0xFFFFFFFFFFFFFFFF, 1) := by decide

/-! ## Witnesses: states and operands that meet the hypotheses of the statements -/

/-- AS's turn on core 0, its operand values at the head of its FIFO. -/
def asSt (sa sb : Word) (f : Core → Core) : State :=
  st (.engine 0 .asy) fun c => f { c with out := upd c.out 4 fun _ => [sb ++ sa], cq := 1 }

/-- An operation of core 0 on unit u of die d. -/
def anOp (i : Instr) (d : Fin 4) (u : UnitKind) (blk : List Word) : Op where
  id := 0
  instr := i
  core := 0
  ctx := 0
  rank := 0
  taskid := 0
  die := d
  unit := u
  pc := 0
  sig := none
  base := 0x1000
  blk := blk
  bar := none
  sb := 0
  lanes := []
  sdesc := []
  ddesc := []
  handles := []
  rcvs := []
  stream := 0
  idx := 0
  stop := none
  nfault := 0
  poison := none
  elems := []
  src := []
  begun := false
  fin := false
  said := false
  entry := true

/-- Unit u of die 0 in focus, with one operation of its own, on the machine changed by f. -/
def unSt (u : UnitKind) (o : Op) (f : Mach → Mach) : State := on (st (.unit 0 u) id) fun m => f { m with ops := [o] }

/-- AS may take a parcel without SIG whose operands are there. -/
theorem as_ok {i : Instr} {s : State} (h : mayIssue i s 0 .asy) (h1 : ((s.m.core 0).outHead .asy).isSome = true)
    (h2 : (tk i).sig = none) : asMayIssue i s 0 :=
  ⟨h, Option.isSome_iff_exists.1 h1, fun q hq => by rw [h2] at hq; exact absurd hq (by simp)⟩

theorem witness_ScComputesItsResults :
    mayIssue (.add nt 3 4 5) (scSt []) 0 .sc ∧ arithResult ((scSt []).m.core 0) (.add nt 3 4 5) = some (3, 0) ∧
    mayIssue (.mov nt 3 4) (scSt []) 0 .sc ∧ (bitResult ((scSt []).m.core 0) (.mov nt 3 4)).isSome = true := by decide

theorem witness_ScSelectsCountsAndMovesQueues :
    mayIssue (.cmp nt 3 4 5 .eq) (scSt []) 0 .sc ∧ mayIssue (.sel nt 3 4 5 6) (scSt []) 0 .sc ∧
    mayIssue (.bitsCnt nt 3 4) (scSt []) 0 .sc ∧ mayIssue (.bitsClz nt 3 4) (scSt []) 0 .sc ∧ mayIssue (.nop nt) (scSt []) 0 .sc ∧
    mayIssue (.movQw nt 3 4) (scSt []) 0 .sc ∧ mayIssue (.movQr nt 3 5) (scSt []) 0 .sc ∧ ((scSt []).m.core 0).qw[1] = [] ∧
    (let s := st (.engine 0 .sc) fun c => { c with qw := upd c.qw 1 fun _ => [7, 8] }
     mayIssue (.movQr nt 3 5) s 0 .sc ∧ (s.m.core 0).qw[(qwIx 5).val] = [7, 8]) := by decide

theorem witness_RetireMovesOnAndPassesTokens :
    0 < 1 ∧ (⟨some .ld, some .vx⟩ : Tok).wait ≠ some .sc ∧ (⟨some .ld, some .vx⟩ : Tok).sig ≠ some .sc ∧ (Core.reset.e .sc).loops = [] := by
  decide

theorem witness_BodiesAndRepetitionsCountDown :
    (let x : EngState := { EngState.reset with pc := 3, loops := [⟨1, 3, 2⟩] }
     x.pc.toNat ≤ 3 ∧ 3 ≤ x.pc.toNat + 1 - 1 ∧ 1 < (2 : BitVec 32).toNat) ∧
    (let x : EngState := { EngState.reset with pc := 3, loops := [⟨1, 3, 1⟩] }
     x.loops = ⟨1, 3, 1⟩ :: [] ∧ (1 : BitVec 32).toNat ≤ 1) ∧
    (((scSt []).m.core 0).e .ld).rep = 0 ∧ (((scSt []).m.core 0).e .ld).rep ≠ 3 ∧
    (tk (.vld ⟨some .vx, none⟩ (.v 0) 0 3 0 .loc .b32)).wait = some .vx ∧
    (let j : Job := ⟨[], [0], [], [], [], false⟩
     let s := st .none fun c => c.onE .ld fun x => { x with job := some j }
     ((s.m.core 0).e .ld).job = some j ∧ (s.m.core 0).clean = true ∧ j.rows ≠ []) := by decide

/-- A jump to parcel t of a text of four. -/
theorem inText_of {t : Int} (h0 : 0 ≤ t) (h4 : t < 4) (l : List (Fin 32 × Word)) : inText (scSt l).m 0 t := by
  refine ⟨probeTask, ?_, h0, h4⟩
  simp only [scSt, st]
  rw [show ({ (Mach.reset Fuses.full).onCore 0 fun c => l.foldl (fun c x => c.ws x.1 x.2) { c with task := some probeTask } with focus := .engine 0 .sc } : Mach).core 0
      = l.foldl (fun c x => c.ws x.1 x.2) { (Mach.reset Fuses.full).core 0 with task := some probeTask } by simp [Mach.core, Mach.onCore, upd]]
  generalize (Mach.reset Fuses.full).core 0 = c
  suffices ∀ c : Core, (l.foldl (fun c x => c.ws x.1 x.2) c).task = c.task from this _
  induction l with
  | nil => exact fun _ => rfl
  | cons x l ih => intro c; rw [List.foldl_cons, ih]; unfold Core.ws; split <;> rfl

theorem witness_TransfersResolveOnSc :
    (mayIssue (.jmp nt 3) (scSt []) 0 .sc ∧ jumpOf (scSt []).m 0 (.jmp nt 3) = some (3, none, false, true)) ∧
    (mayIssue (.callR nt 1 2) (scSt [(2, 3)]) 0 .sc ∧ jumpOf (scSt [(2, 3)]).m 0 (.callR nt 1 2) = some (3, some 1, true, false) ∧
      roomFor (scSt [(2, 3)]).m 0 [.ld, .st, .vx, .mx, .asy]) ∧
    (mayIssue (.br nt .ne 5 0 3) (scSt [(5, 1)]) 0 .sc ∧ (((scSt [(5, 1)]).m.core 0).rs 5 ≠ ((scSt [(5, 1)]).m.core 0).rs 0)) ∧
    (mayIssue (.br nt .eq 5 0 3) (scSt [(5, 1)]) 0 .sc ∧ ¬ (((scSt [(5, 1)]).m.core 0).rs 5 = ((scSt [(5, 1)]).m.core 0).rs 0)) ∧
    (mayIssue (.jmp nt 4) (scSt []) 0 .sc ∧ jumpOf (scSt []).m 0 (.jmp nt 4) = some (4, none, false, true)) := by
  refine ⟨by decide, ⟨by decide, by decide, ?_⟩, by decide, by decide, by decide⟩
  unfold roomFor; decide

theorem witness_TransfersResolveOnSc_targets : inText (scSt []).m 0 3 ∧ inText (scSt [(2, 3)]).m 0 3 ∧
    (∀ k, ((scSt []).m.core 0).task = some k → ¬ (4 : Int) < (k.nparcel.toNat : Int)) := by
  refine ⟨inText_of (by decide) (by decide) _, inText_of (by decide) (by decide) _, fun k hk => ?_⟩
  have : ((scSt []).m.core 0).task = some probeTask := by decide
  rw [this] at hk; obtain rfl := Option.some.inj hk; decide

theorem witness_OtherEnginesFollowTransfers :
    (let s := st (.engine 0 .vx) fun c => { c with out := upd c.out 2 fun _ => [3] }
     acts s 0 .vx ∧ Engine.vx ≠ .sc ∧ jumpOf s.m 0 (.ret nt 4) = some (0, none, true, false) ∧ (s.m.core 0).outHead .vx = some 3) := by decide

theorem witness_LoopsOpenBodies :
    mayIssue (.loop nt 5 2) (scSt []) 0 .sc ∧ mayIssue (.loop nt 0 2) (scSt []) 0 .sc ∧ (((scSt []).m.core 0).e .sc).loops.length < 4 ∧
    mayIssue (.loopR nt 6 2) (scSt [(6, 0xFFFFFFFF)]) 0 .sc ∧ (((scSt [(6, 0xFFFFFFFF)]).m.core 0).rs 6).toNat < 2 ^ 32 ∧
    (let s := st (.engine 0 .mx) fun c => { c with out := upd c.out 3 fun _ => [0xFFFFFFFF] }
     acts s 0 .mx ∧ (s.m.core 0).outHead .mx = some 0xFFFFFFFF ∧ (0xFFFFFFFF : BitVec 128).toNat < 2 ^ 32) := by decide

theorem witness_ApatWritesEachCopy :
    mayIssue (.apat nt 4 5 2) (scSt []) 0 .sc ∧
    (let s := st (.engine 0 .mx) fun c => { c with out := upd c.out 3 fun _ => [0xFFFFFFFF] }
     acts s 0 .mx ∧ (s.m.core 0).outHead .mx = some 0xFFFFFFFF) := by decide

theorem witness_SpecialRegistersReadAndWrite :
    (mayIssue (.getsr nt 3 0x021) (scSt []) 0 .sc ∧ ((scSt []).m.core 0).task = some probeTask ∧ specialValue (scSt []).m 0 probeTask 0x021 = some 0) ∧
    (mayIssue (.setsr nt 3 0x010) (scSt [(3, 16)]) 0 .sc ∧ ((scSt [(3, 16)]).m.core 0).rs 3 = 16) ∧
    (mayIssue (.setsr nt 3 0x010) (scSt [(3, 15)]) 0 .sc ∧ ((scSt [(3, 15)]).m.core 0).rs 3 = 15) ∧
    (mayIssue (.setsr nt 3 0x010) (scSt [(3, 4096)]) 0 .sc ∧ mayIssue (.setsr nt 3 0x010) (scSt [(3, 4097)]) 0 .sc) ∧
    (mayIssue (.setsr nt 3 0x011) (scSt [(3, 4)]) 0 .sc ∧ mayIssue (.setsr nt 3 0x013) (scSt [(3, 2)]) 0 .sc) ∧
    mayIssue (.setsr nt 3 0x020) (scSt []) 0 .sc ∧
    (let s := st (.engine 0 .mx) fun c => { c with out := upd c.out 3 fun _ => [4] }
     acts s 0 .mx ∧ Engine.mx ∈ specialReaders 0x011 ∧ (s.m.core 0).outHead .mx = some 4) := by decide

theorem witness_TrapsStopEveryMember :
    ((scSt []).m.core 0).task = some probeTask ∧ mayIssue (.trap nt 0xFFF) (scSt []) 0 .sc ∧ mayIssue (.bkpt nt 0) (scSt []) 0 .sc ∧
    (scSt []).boot.state = 2 ∧ ((scSt []).m.core 0).safe = none ∧ ((scSt []).m.die 0).cycle - (scSt []).m.walkAt = 0 ∧
    (let s := on (st .none id) fun m => { m with walkAt := 0 - 2 ^ 20 }
     2 ^ 20 ≤ ((s.m.die 0).cycle - s.m.walkAt).toNat) := by decide

/-- Core 0 with every engine but VX at TEND, VX at a VADD of Q0: a deadlock, as LD will push nothing. -/
def deadSt : State := on (st .none fun c => (engines.filter (· ≠ .vx)).foldl (fun c e => c.onE e fun x => { x with ended := true, walk := 9 }) c)
  fun m => { m with dev := Memory.write m.dev probeText (leBytes 6 ((encode (.vadd nt (.v 1) (.q 0) (.v 2) 0 .f32)).headD 0)) }

theorem witness_TrapsStopEveryMember_deadlock : deadSt.m.deadlocked 0 = some .vx ∧ (deadSt.m.core 0).safe = none ∧
    deadSt.m.cycles = [] := by decide

theorem witness_TendStopsEachEngine :
    mayIssue (.tend nt) (scSt []) 0 .sc ∧ acts (asSt 0 0 id) 0 .asy ∧ (asSt 0 0 id).m.ops = [] ∧ acts (st (.engine 0 .ld) id) 0 .ld ∧
    (let s := on (asSt 0 0 id) fun m => { m with ops := [{ anOp (.xcp nt 0 0) 0 (.copy 0) [] with sig := some .sc }] }
     acts s 0 .asy ∧ ∃ o ∈ s.m.ops, o.core = 0 ∧ o.sig ≠ none) := by decide

theorem witness_GatheringHoldsEngines :
    mayIssue (.fence nt .die) (scSt []) 0 .sc ∧ mayIssue (.mark nt) (scSt []) 0 .sc ∧ mayIssue (.quies nt) (scSt []) 0 .sc ∧
    mayIssue (.yield nt) (scSt []) 0 .sc ∧ holdOf (.yield nt) = some (.yield, .core) ∧ holdOf (.fenceRel nt .die) = some (.rel, .die) ∧
    (let s := st (.engine 0 .ld) fun c => { c with hold := some ⟨.fence, 1, .die, none⟩ }
     acts s 0 .ld ∧ (s.m.core 0).hold = some ⟨.fence, 1, .die, none⟩ ∧ ((s.m.core 0).e .ld).walk = (1 : BitVec 32) - 1) ∧
    acts (st (.engine 0 .vx) id) 0 .vx ∧ acts (asSt 0 0 id) 0 .asy := by decide

theorem witness_GatheringHoldsEngines_yield :
    (let s := st (.engine 0 .vx) fun c => { c with hold := some ⟨.yield, 1, .core, some .st⟩ }
     acts s 0 .vx ∧ (s.m.core 0).hold = some ⟨.yield, 1, .core, some .st⟩ ∧ ((s.m.core 0).e .vx).walk = (1 : BitVec 32) - 1 ∧
     s.m.members 0 = [0] ∧ ((s.m.core 0).e .sc).ended = false ∧ (s.m.members 0).Nodup) ∧
    (let s := st (.engine 0 .vx) fun c => ({ c with hold := some ⟨.yield, 1, .core, none⟩ } : Core).onE .sc fun x => { x with ended := true }
     acts s 0 .vx ∧ ∃ k ∈ s.m.members 0, ((s.m.core k).e .sc).ended = true) := by decide

theorem witness_GatheringHoldsEngines_spins : (scSt []).boot.state = 2 ∧ ((scSt []).m.core 1).task = none ∧
    (let s := st .none fun c => c.onE .asy fun x => { x with wait := some ⟨.bar 0 0x2000 true, nt, 0 - 65536⟩ }
     (s.m.core 0).task = some probeTask ∧ (s.m.core 0).halt = none ∧ ((s.m.core 0).e .asy).wait = some ⟨.bar 0 0x2000 true, nt, 0 - 65536⟩ ∧
     (s.m.ctx 0).spin.toNat ≤ ((s.m.die 0).cycle - (0 - 65536)).toNat) := by decide

/-- Every memory of a ready module is sound where core 0 is. -/
theorem sound_st {fo : Focus} {f : Core → Core} (h : (f { Core.reset with task := some probeTask }).clean = true) : sound (st fo f).m := by
  intro k
  by_cases hk : k = 0
  · subst hk
    have : (st fo f).m.core 0 = f { Core.reset with task := some probeTask } := by
      simp [st, Mach.core, Mach.onCore, upd, Mach.reset]
    rw [this]; exact h
  · have : (st fo f).m.core k = Core.reset := by
      have hv : (0 : Nat) ≠ k.val := fun e => hk (Fin.ext e.symm)
      simp [st, Mach.core, Mach.onCore, upd, Mach.reset, hv]
    rw [this]; rfl

theorem witness_ScalarLoadsReadTheirBytes :
    ((mayIssue (.sldWs nt 3 4 0x7FF8) (scSt [(4, 0x300004)]) 0 .sc ∧
      scTarget (scSt [(4, 0x300004)]).m 0 (((scSt [(4, 0x300004)]).m.core 0).rs 4 + (0x7FF8 : BitVec 15).signExtend 64) 4 = .ok (0, false, 0x2FFFFC) ∧
      heldBy (scSt [(4, 0x300004)]).m 0 .sc 0 = false ∧ (loadForm (.sldWs nt 3 4 0x7FF8)).isSome = true) ∧
     (mayIssue (.sld nt 3 4 0) (scSt [(4, 0xC00000 + 0x1000000)]) 0 .sc ∧
      scTarget (scSt [(4, 0x1C00000)]).m 0 (((scSt [(4, 0x1C00000)]).m.core 0).rs 4 + (0 : BitVec 15).signExtend 64) 8 = .ok (1, false, 0) ∧
      heldBy (scSt [(4, 0x1C00000)]).m 0 .sc 1 = true)) ∧ sound (scSt [(4, 0x300004)]).m :=
  ⟨by decide, sound_st (by decide)⟩

theorem witness_ScalarStoresWrite :
    (mayIssue (.sst nt 4 5 0) (scSt [(4, 0x5FFFF8), (5, 7)]) 0 .sc ∧ storeForm (.sst nt 4 5 0) = some (4, 5, 0, 8) ∧
      scTarget (scSt [(4, 0x5FFFF8), (5, 7)]).m 0 (((scSt [(4, 0x5FFFF8), (5, 7)]).m.core 0).rs 4 + (0 : BitVec 15).signExtend 64) 8 = .ok (0, true, 0x1FFFF8) ∧
      heldBy (scSt [(4, 0x5FFFF8), (5, 7)]).m 0 .sc 0 = false) ∧
    (let p : PendAccess := ⟨0, false, 0x2FFFF8, [1, 2], none, some .ld, none⟩
     let s := st .none fun c => { c with pend := some p }
     (s.m.core 0).pend = some p ∧ p.load = none ∧ p.acc = false ∧ p.addr < 0x300000 ∧ p.bytes ≠ [] ∧ (s.m.core 0).tokens .sc .ld < 8) := by decide

/-- A spawn block at 0x1000: a record for context 0 at device address 0x4000_0000_0000. -/
def spawnSt : State := st (.engine 0 .sc) fun c =>
  { (c.ws 4 0x1000) with spad := Memory.write [] 0x1020 (leBytes 8 0x400000000000) }

theorem witness_RecordsAreSpawnedAndJoined :
    (let ws := wordsOf 8 (Memory.read (spawnSt.m.core 0).spad 0x1000 64)
     mayIssue (.tspawn nt 4) spawnSt 0 .sc ∧ (spawnSt.m.core 0).rs 4 = 0x1000 ∧ spawnBad spawnSt.m 0 ws = false ∧ (spawnSt.m.die 0).recs = []) ∧
    sound spawnSt.m ∧
    mayIssue (.tjoin nt 4) (scSt [(4, 0xFFFFFFFFFFE0)]) 0 .sc ∧ ((scSt [(4, 0xFFFFFFFFFFE0)]).m.core 0).rs 4 = 0xFFFFFFFFFFE0 ∧
    ((scSt [(4, 0xFFFFFFFFFFE0)]).m.core 0).pend = none :=
  ⟨by decide, sound_st (by decide), by decide⟩

theorem witness_NotifyWritesANotice :
    (mayIssue (.notify nt 4) (scSt [(4, 9)]) 0 .sc ∧ ((scSt [(4, 9)]).m.core 0).task = some probeTask ∧ ((scSt [(4, 9)]).m.ctx 0).nen = false) ∧
    (let s := on (scSt []) fun m => m.onCtx 0 fun x => { x with nen := true, nrhead := 1 }
     mayIssue (.notify nt 4) s 0 .sc ∧ (s.m.ctx 0).nen = true ∧ ((s.m.ctx 0).nrhead - (s.m.ctx 0).nrtail).toNat = 2 ^ (s.m.ctx 0).cur.lnr.toNat) ∧
    (let s := on (scSt []) fun m => m.onCtx 0 fun x => { x with nen := true }
     mayIssue (.notify nt 4) s 0 .sc ∧ (s.m.ctx 0).nen = true ∧ ((s.m.ctx 0).nrhead - (s.m.ctx 0).nrtail).toNat ≠ 2 ^ (s.m.ctx 0).cur.lnr.toNat) := by decide

theorem witness_GpRegistersBelongToTheContext :
    ((scSt []).m.core 0).task = some probeTask ∧ mayIssue (.gpget nt 4 63) (scSt []) 0 .sc ∧ mayIssue (.gpset nt 0 0) (scSt []) 0 .sc := by decide

/-- LD's turn, the pair of [A4] as given. -/
def ldSt (even odd : Word) : State := st (.engine 0 .ld) fun c => { c with a := Machine.put c.a 0 (Machine.put (Machine.put c.a[0] 4 even) 5 odd) }

/-- A job of LD that has read all its lines, with rows left. -/
def readJob : Job := ⟨[], [3], [], [], [], true⟩

/-- A job of LD with one line to read. -/
def lineJob : Job := ⟨[⟨1, false, [(0x2FF000, 64)]⟩], [0], [], [], [], false⟩

theorem witness_VectorLoadsDeliver :
    (mayIssue (.vld nt (.v 4) 2 0 0 .loc .b32) (ldSt 0x2FF000 0) 0 .ld ∧
      (((ldSt 0x2FF000 0).m.core 0).e .ld).job = none ∧
      ldRoom ((ldSt 0x2FF000 0).m.core 0) (.v 4) = true ∧ ((ldSt 0x2FF000 0).m.core 0).pat 0 2 = patOf 0x2FF000 0 ∧
      wordFault (patOf 0x2FF000 0) (.v 4) .loc .b32 none 0 = none ∧ heldBy (ldSt 0x2FF000 0).m 0 .ld 0 = false) ∧
    (mayIssue (.vld nt (.q 7) 2 0 0 .loc .raw) (ldSt 0x2FFFF8 0) 0 .ld ∧ ldRoom ((ldSt 0x2FFFF8 0).m.core 0) (.q 7) = true ∧
      wordFault (patOf 0x2FFFF8 0) (.q 7) .loc .raw none 0 = none) ∧
    ldTarget (ldSt 0x2FF000 0).m 0 .loc = .at 0 ∧ sound (ldSt 0x2FF000 0).m :=
  ⟨by decide, by decide, rfl, sound_st (by decide)⟩

theorem witness_VectorLoadsDeliver_jobs :
    (let s := on (ldSt 0x2FF000 0) fun m => m.onCore 0 fun c => c.onE .ld fun x => { x with job := some readJob }
     acts s 0 .ld ∧ ((s.m.core 0).e .ld).job = some readJob ∧ readJob.writes = [] ∧ readJob.rows ≠ [] ∧ readJob.reads = []) ∧
    (let s := on (ldSt 0x2FF000 0) fun m => m.onCore 0 fun c => c.onE .ld fun x => { x with job := some lineJob }
     acts s 0 .ld ∧ ((s.m.core 0).e .ld).job = some lineJob ∧ lineJob.writes = [] ∧ lineJob.rows ≠ [] ∧ lineJob.reads ≠ [] ∧
     heldBy s.m 0 .ld 0 = false) ∧
    (let s := on (ldSt 0x2FF000 0) fun m => m.onCore 0 fun c => c.onE .ld fun x => { x with job := some lineJob, tgt := some 1 }
     acts s 0 .ld ∧ ((s.m.core 0).e .ld).job = some lineJob ∧ heldBy s.m 0 .ld 1 = true) := by decide

/-- A compressed region of one tile at 0x10000, its FREE at 2, read through [A4]. -/
def viewSt (fo : Focus) : State := st fo fun c =>
  { c with
    a := each c.a fun x => Machine.put (Machine.put x 4 0x10000) 5 0x7000000
    spad := Memory.write [] 0x10000 (leBytes 8 1 ++ leBytes 8 (2 + 66 * 65536))
    qt := upd c.qt 3 fun _ => [Tile.zero] }

theorem witness_VectorLoadsDeliver_view :
    mayIssue (.vld nt (.v 4) 2 0 0 .loc .raw) (viewSt (.engine 0 .ld)) 0 .ld ∧ (((viewSt (.engine 0 .ld)).m.core 0).e .ld).job = none ∧
    (((viewSt (.engine 0 .ld)).m.core 0).pat 0 2).rot = 7 ∧ viewFault (((viewSt (.engine 0 .ld)).m.core 0).pat 0 2) (.v 4) .loc .raw = none ∧
    (ctLook ((viewSt (.engine 0 .ld)).m.core 0).spad 0x10000 0).isSome = true ∧
    (ctRead ((viewSt (.engine 0 .ld)).m.core 0).spad 0x10000 0).isSome = true := by decide

/-- A coded tile takes at most 64 lines (R157). -/
theorem zrEncode_lines {bs : List Byte} (h : bs.length = 4096) : (zrEncode bs).1.length / 64 ≤ 64 := by
  unfold zrEncode
  simp only
  split
  · rw [h]
  · rename_i hs; simp only at hs ⊢; omega

/-- A store through the view finds room where 64 lines are left. -/
theorem ctWrite_room {c : Core} {r : Nat} {t : Int} {bs : List Byte} {x : CtEntry} (hb : bs.length = 4096)
    (h : ctLook c.spad r t = some x) (hr : x.free + 64 ≤ x.cap) : (ctWrite c r t bs).isSome = true := by
  have hl := zrEncode_lines hb
  unfold ctWrite
  rw [h]
  simp only
  split
  · rfl
  · rw [if_neg (by omega)]; rfl

theorem witness_VectorStoresStore :
    (let s := st (.engine 0 .st) fun c => { c with a := Machine.put c.a 1 (Machine.put c.a[1] 4 0x2FF000), qt := upd c.qt 3 fun _ => [Tile.zero] }
     mayIssue (.vst nt (.q 3) 2 0 0 .loc .b32) s 0 .st ∧ ((s.m.core 0).e .st).job = none ∧ ((s.m.core 0).qt[3]).length = 1 ∧ ((s.m.core 0).pat 1 2).rot ≠ 7 ∧
     wordFault ((s.m.core 0).pat 1 2) (.q 3) .loc .b32 none 0 = none) ∧
    (mayIssue (.vst nt (.q 3) 2 0 0 .loc .raw) (viewSt (.engine 0 .st)) 0 .st ∧ (((viewSt (.engine 0 .st)).m.core 0).e .st).job = none ∧ (((viewSt (.engine 0 .st)).m.core 0).pat 1 2).rot = 7 ∧
     viewFault (((viewSt (.engine 0 .st)).m.core 0).pat 1 2) (.q 3) .loc .raw = none) ∧
    (let j : Job := ⟨[], [], [⟨false, [(0x2FF000, [1, 2])]⟩], [], [], true⟩
     let s := st (.engine 0 .st) fun c => c.onE .st fun x => { x with job := some j }
     acts s 0 .st ∧ ((s.m.core 0).e .st).job = some j ∧ j.reads = [] ∧ j.rows = [] ∧ j.writes ≠ []) ∧
    sound (viewSt (.engine 0 .st)).m ∧
    (ctWrite { (viewSt (.engine 0 .st)).m.core 0 with qt := Machine.put ((viewSt (.engine 0 .st)).m.core 0).qt 3 [] } 0x10000 0
      (tileBytes Tile.zero)).isSome = true :=
  ⟨by decide, by decide, by decide, sound_st (by decide), ctWrite_room (x := ⟨2, 66, 0, 0, false⟩) (by simp [tileBytes, leBytes, Tile.zero]) (by decide) (by decide)⟩

theorem witness_AddressFaultsTrap :
    (mayIssue (.sld nt 3 4 0) (scSt [(4, 4)]) 0 .sc ∧ scTarget (scSt [(4, 4)]).m 0 4 8 = .error .align) ∧
    (mayIssue (.sst nt 4 3 0) (scSt [(4, 0x300000)]) 0 .sc ∧ scTarget (scSt [(4, 0x300000)]).m 0 0x300000 8 = .error .spadRange) ∧
    (mayIssue (.vld nt (.v 4) 2 0 0 .loc .b32) (ldSt 0x2FFF04 0) 0 .ld ∧ (((ldSt 0x2FFF04 0).m.core 0).e .ld).job = none ∧ wordFault (((ldSt 0x2FFF04 0).m.core 0).pat 0 2) (.v 4) .loc .b32 none 0 = some .spadRange) ∧
    (let s := st (.engine 0 .st) fun c => { c with a := Machine.put c.a 1 (Machine.put c.a[1] 4 2), qt := upd c.qt 3 fun _ => [Tile.zero] }
     mayIssue (.vst nt (.q 3) 2 0 0 .loc .b32) s 0 .st ∧ ((s.m.core 0).e .st).job = none ∧ wordFault ((s.m.core 0).pat 1 2) (.q 3) .loc .b32 none 0 = some .align) := by decide

/-- VX's turn. -/
def vxSt : State := st (.engine 0 .vx) id

theorem witness_VxWritesItsDestination :
    (mayIssue (.vins nt (.v 1) (.v 2) (.w 3) 2) vxSt 0 .vx ∧ vxDest (.vins nt (.v 1) (.v 2) (.w 3) 2) = some (.v 1) ∧
      (vxSt.m.core 0).destRoom (.v 1) = true) ∧
    (∀ w, ((vxSt.m.core 0).readSpecs w (vxSources (.vins nt (.v 1) (.v 2) (.w 3) 2))).isSome = true) :=
  ⟨by decide, fun _ => rfl⟩

theorem witness_VxFloatLanesRoundOnce :
    (mayIssue (.vfma nt (.v 1) (.v 2) (.w 3) (.z 0) 2 .bf16) vxSt 0 .vx ∧ vxMaskOf (.vfma nt (.v 1) (.v 2) (.w 3) (.z 0) 2 .bf16) = some 2 ∧
      ((vxSt.m.core 0).readSpecs (FTy.width .bf16) (vxSources (.vfma nt (.v 1) (.v 2) (.w 3) (.z 0) 2 .bf16))).isSome = true) ∧
    (mayIssue (.vsfRcp nt (.v 1) (.v 2) 2 .f16) vxSt 0 .vx ∧ (sfForm (.vsfRcp nt (.v 1) (.v 2) 2 .f16)).isSome = true ∧
      ((vxSt.m.core 0).readSpecs (FTy.width .f16) [.v 2]).isSome = true) ∧
    (mayIssue (.vredrAdd nt (.v 1) (.v 2) 2 (.f .f32)) vxSt 0 .vx ∧ (reduceForm (.vredrAdd nt (.v 1) (.v 2) 2 (.f .f32))).isSome = true ∧
      mayIssue (.vscancAdd nt (.v 1) (.v 2) 2 (.f .f32)) vxSt 0 .vx ∧ (scanForm (.vscancAdd nt (.v 1) (.v 2) 2 (.f .f32))).isSome = true ∧
      ((vxSt.m.core 0).readSpecs (DTy.width (.f .f32)) [.v 2]).isSome = true) ∧
    ∃ f : Nat → List Tile → Val, ∀ l ts, floatLane ((vxSt.m.core 0).env .vx 1) ts l
      (.vfma nt (.v 1) (.v 2) (.w 3) (.z 0) 2 .bf16) = some (16, .f .bf16, f l ts) :=
  ⟨by decide, by decide, by decide, _, fun _ _ => rfl⟩

theorem witness_VxIntegerLanes :
    (mayIssue (.vimulHi nt (.v 1) (.v 2) (.w 3) 2 .i8) vxSt 0 .vx ∧ vxMaskOf (.vimulHi nt (.v 1) (.v 2) (.w 3) 2 .i8) = some 2) ∧
    (∀ l ts, (intLane ((vxSt.m.core 0).env .vx 1) ts l (.vimulHi nt (.v 1) (.v 2) (.w 3) 2 .i8)).isSome = true) ∧
    (∀ w, ((vxSt.m.core 0).readSpecs w (vxSources (.vimulHi nt (.v 1) (.v 2) (.w 3) 2 .i8))).isSome = true) ∧
    (mayIssue (.vpack nt (.v 1) (.v 2) (.w 3) 2 (.i .i8)) vxSt 0 .vx ∧ ((vxSt.m.core 0).readSpecs 8 [.v 2, .w 3]).isSome = true ∧
      mayIssue (.vspz nt (.v 1) (.v 2) 4 2 .bf16) vxSt 0 .vx ∧ ((vxSt.m.core 0).readSpecs 16 [.v 2]).isSome = true) :=
  ⟨by decide, fun _ _ => rfl, fun _ => rfl, by decide⟩

theorem witness_VxWritesMasksAndDestinations :
    mayIssue (.vcmp nt 1 (.v 2) (.w 3) .unord 2 .f32) vxSt 0 .vx ∧ mayIssue (.vicmp nt 0 (.v 2) (.w 3) .ge 0 .ui4) vxSt 0 .vx ∧
    mayIssue (.vmop nt 7 1 2 .andn) vxSt 0 .vx ∧ mayIssue (.vsel nt (.v 1) (.v 2) (.w 3) 4) vxSt 0 .vx ∧
    mayIssue (.vins nt (.v 1) (.v 2) (.w 3) 4) vxSt 0 .vx ∧ mayIssue (.vmcnt nt (.v 1) 1 3) vxSt 0 .vx ∧
    ((vxSt.m.core 0).readSpecs 32 [.v 2, .w 3]).isSome = true ∧ (vxSt.m.core 0).destRoom (.v 1) = true := by decide

/-- MX's turn, the pair of [A4] and the rows as given, the scratchpad as listed. -/
def mxSt (n : BitVec 8) (even : Word) (spad : Memory) (f : Core → Core) : State :=
  st (.engine 0 .mx) fun c => f { c with a := Machine.put c.a 2 (Machine.put c.a[2] 4 even), spad := spad, mx := { c.mx with cfg := { c.mx.cfg with nrows := n } } }

/-- MX with job j under way. -/
def mxJob (j : Job) (s : State) : State := on s fun m => m.onCore 0 fun c => c.onE .mx fun x => { x with job := some j }

/-- A job whose one row is to be taken. -/
def oneRow : Job := ⟨[], [0], [], [], [], false⟩

theorem witness_MxLoadsItsState :
    (mayIssue (.mzero nt 4095 0) (mxSt 1 0 [] id) 0 .mx ∧ (((mxSt 1 0 [] id).m.core 0).e .mx).job = none ∧ ((mxSt 1 0 [] id).m.core 0).mx.cfg.nrows = 1) ∧
    (mayIssue (.mwldS1 nt 2 .e4m3) (mxSt 1 0x2FC000 [] id) 0 .mx ∧ (((mxSt 1 0x2FC000 [] id).m.core 0).e .mx).job = none ∧
      weightForm (.mwldS1 nt 2 .e4m3) = some (2, .e4m3, 1) ∧
      (((mxSt 1 0x2FC000 [] id).m.core 0).pat 2 2).fault false 0 128 (weightRow .e4m3 1) 0 0x300000 = none) ∧
    (mayIssue (.macfg nt 2) (mxSt 1 0x1000 [(0x1000, 5)] id) 0 .mx ∧ mxBlockOk ((mxSt 1 0x1000 [(0x1000, 5)] id).m.core 0) 2 ∧
      (macfgOf (mxWords ((mxSt 1 0x1000 [(0x1000, 5)] id).m.core 0) 2)).isSome = true) ∧
    (mayIssue (.mepi nt 2) (mxSt 1 0x1000 [] id) 0 .mx ∧ (((mxSt 1 0x1000 [] id).m.core 0).e .mx).job = none ∧
      mxBlockOk ((mxSt 1 0x1000 [] id).m.core 0) 2 ∧ mepiFault (mxWords ((mxSt 1 0x1000 [] id).m.core 0) 2) = none) ∧
    jobAt (mxJob oneRow (mxSt 1 0x1000 [] id)) 0 .mx oneRow ∧
    sound (mxSt 1 0x1000 [] id).m :=
  ⟨by decide, by decide, by decide, by decide, by decide, sound_st (by decide)⟩

/-- A job of MX that adds rows. -/
def addJob : Job := ⟨[], [0], [], [], [], true⟩

/-- MX of core k of a gang of cores 0 and 1 in focus, rank 0 on core 0. -/
def pairSt (k : Fin 256) (f : Mach → Mach) : State := on (st (.engine k .mx) id) fun m =>
  f ((m.onCore 0 fun c => { c with task := some { probeTask with gang := 1, members := [0, 1] } }).onCore 1 fun c =>
    { c with task := some { probeTask with gang := 1, rank := 1, members := [0, 1] } })

theorem witness_MmulAddsProducts :
    (mayIssue (.mmul nt 4095 2 0 .s11 .e4m3 false false) (mxSt 1 0 [] id) 0 .mx ∧ (((mxSt 1 0 [] id).m.core 0).e .mx).job = none ∧
      mmulFault (mxSt 1 0 [] id).m 0 4095 2 .s11 .e4m3 false = none) ∧
    (let s := mxSt 32 0 [] fun c => { c with qt := upd c.qt 2 fun _ => [Tile.zero] }
     mayIssue (.mmul nt 0 0 0 .s11 .e4m3 true false) s 0 .mx ∧ mmulFault s.m 0 0 0 .s11 .e4m3 true = none ∧
     (s.m.core 0).mx.taken.length < (32 * InTy.rowBytes .e4m3 + 4095) / 4096 ∧ ((s.m.core 0).qt[2]).length = 1) ∧
    (mayIssue (.mmul nt 0 0 0 .s11 .e4m3 true false) (mxSt 1 0 [] id) 0 .mx ∧ ((mxSt 1 0 [] id).m.core 0).qt[2] = []) ∧
    (let s := mxSt 32 0 [] fun c => { c with mx := { c.mx with taken := [Tile.zero] } }
     mayIssue (.mmul nt 0 0 0 .s11 .e4m3 true false) s 0 .mx ∧ mmulFault s.m 0 0 0 .s11 .e4m3 true = none ∧
     (32 * InTy.rowBytes .e4m3 + 4095) / 4096 ≤ (s.m.core 0).mx.taken.length) ∧
    jobAt (mxJob oneRow (mxSt 1 0 [] id)) 0 .mx oneRow ∧ jobAt (mxJob addJob (mxSt 1 0 [] id)) 0 .mx addJob ∧
    oneRow.begun = false ∧ oneRow.reads = [] ∧ oneRow.rows = [0] ∧ oneRow.writes = [] ∧ addJob.begun = true := by decide

theorem witness_MmulAddsProducts_gang :
    (let s := pairSt 1 id
     mayIssue (.mmul nt 0 2 0 .s12 .e4m3 false false) s 1 .mx ∧ Shape.cores .s12 = gangOf s.m 1 ∧
     mmulFault s.m 1 0 2 .s12 .e4m3 false = none ∧ s.m.members 1 = [0, 1] ∧ (s.m.core 0).mx.present = none ∧
     ((s.m.core 0).e .mx).ended = false ∧ ((s.m.core 1).e .mx).ended = false ∧ rankOf s.m 1 ≠ 0) ∧
    (let s := pairSt 0 fun m => m.onCore 1 fun c => { c with mx := { c.mx with present := some ⟨0, 0, .s12, .e4m3, c.mx.cfg.nrows⟩ } }
     mayIssue (.mmul nt 0 2 0 .s12 .e4m3 false false) s 0 .mx ∧ mmulFault s.m 0 0 2 .s12 .e4m3 false = none ∧ rankOf s.m 0 = 0 ∧
     s.m.members 0 = [0, 1] ∧ (s.m.core 1).mx.present = some ⟨0, 0, .s12, .e4m3, (s.m.core 0).mx.cfg.nrows⟩) ∧
    (let s := pairSt 0 fun m => m.onCore 1 fun c => { c with mx := { c.mx with present := some ⟨1, 0, .s12, .e4m3, c.mx.cfg.nrows⟩ } }
     mayIssue (.mmul nt 0 2 0 .s12 .e4m3 false false) s 0 .mx ∧
     (s.m.core 1).mx.present ≠ some ⟨0, 0, .s12, .e4m3, (s.m.core 0).mx.cfg.nrows⟩) ∧
    (let s := pairSt 0 fun m => m.onCore 1 fun c => c.onE .mx fun x => { x with ended := true }
     mayIssue (.mmul nt 0 2 0 .s12 .e4m3 false false) s 0 .mx ∧ 1 ∈ s.m.members 0 ∧ ((s.m.core 1).e .mx).ended = true) := by decide

theorem witness_MattTakesABlock :
    mayIssue (.matt nt 0 2 0 .e4m3 true true false 128 3) (mxSt 1 0x1000 [] id) 0 .mx ∧ (((mxSt 1 0x1000 [] id).m.core 0).e .mx).job = none ∧
    mattFault (mxSt 1 0x1000 [] id).m 0 0 2 .e4m3 128 3 = none ∧ jobAt (mxJob oneRow (mxSt 1 0x1000 [] id)) 0 .mx oneRow ∧
    mattFault (mxJob oneRow (mxSt 1 0x1000 [] id)).m 0 0 2 .e4m3 128 3 = none := by decide

/-- A job of MX that has read its rows, and one that has delivered them. -/
def sentRows : Job := ⟨[], [], [], [], [], true⟩

theorem witness_DrainsDeliverRows :
    (let s := mxSt 1 0x2FFE00 [] id
     mayIssue (.mdrn nt 4095 2 0 false) s 0 .mx ∧ ((s.m.core 0).e .mx).job = none ∧ drainOk (s.m.core 0) 4095 1 = true ∧
     ((s.m.core 0).pat 2 2).fault false 0 1 (outBytes 0) 0 0x300000 = none) ∧
    (let s := mxSt 1 0x1FFE00 [] id
     mayIssue (.mdrn nt 0 2 0 true) s 0 .mx ∧ drainOk (s.m.core 0) 0 1 = true ∧ ((s.m.core 0).pat 2 2).base / 512 + 1 ≤ 4096 ∧
     ((s.m.core 0).pat 2 2).aligned = true ∧ ((s.m.core 0).pat 2 2).base % 512 = 0 ∧ ((s.m.core 0).pat 2 2).base < 0x200000 ∧
     ((s.m.core 0).pat 2 2).bad = false ∧ ((s.m.core 0).pat 2 2).rot = 0 ∧ (s.m.core 0).mx.epi.ofmt = 0) ∧
    (let s := mxSt 1 0x1000 [] id
     mayIssue (.mdrnF nt 0 2 0) s 0 .mx ∧ mxBlockOk (s.m.core 0) 2 ∧ wf (blkW (mxWords (s.m.core 0) 2) 1) 32 6 = 0 ∧
     rowDescBad s.m 0 (mxWords (s.m.core 0) 2) = false ∧ (rowTargets s.m 0 (mxWords (s.m.core 0) 2)).isSome = true) ∧
    (let s := mxSt 1 0x1000 [] id
     mayIssue (.mdrnSm nt 0 2 0) s 0 .mx ∧ (s.m.core 0).mx.epi.ofmt = 0 ∧ s.m.portFull 0 = false ∧ mxWords (s.m.core 0) 2 = List.replicate 8 0) ∧
    (jobAt (mxJob oneRow (mxSt 1 0x1000 [] id)) 0 .mx oneRow ∧ jobAt (mxJob sentRows (mxSt 1 0x1000 [] id)) 0 .mx sentRows) ∧
    sound (mxSt 1 0x1000 [] id).m :=
  ⟨by decide, by decide, by decide, by decide, by decide, sound_st (by decide)⟩

/-- AS's turn, its block at 0x1000 with the words listed by their number. -/
def blkSt (ws : List (Nat × Nat)) (f : Core → Core) : State :=
  asSt 0x1000 0 fun c => f { c with spad := ws.foldl (fun m w => Memory.write m (0x1000 + 8 * w.1) (leBytes 8 w.2)) c.spad }

/-- The words of an outbound block of n bytes at 0x1000. -/
def blkIs (s : State) (n : Nat) (ws : List Word) : Prop := blockWords s.m 0 n = ws

theorem witness_ScPostsCommandOperands :
    (owner (.bfree nt 4) = some .asy ∧ acts (scSt [(4, 64)]) 0 .sc ∧ ((scSt [(4, 64)]).m.core 0).cq < 8) ∧
    (∀ e ∈ [Engine.asy], (((scSt [(4, 64)]).m.core 0).out[(outIx e).val]).length < 64) ∧
    (let s := st (.engine 0 .sc) fun c => { c with cq := 7 }
     (s.m.core 0).cq < 8) ∧
    (let s := st (.engine 0 .sc) fun c => { c with cq := 8 }
     acts s 0 .sc ∧ 8 ≤ (s.m.core 0).cq) := by decide

theorem witness_UnitCommandsIssue :
    (asMayIssue (.itgo nt 4) (blkSt [] id) 0 ∧ sound (blkSt [] id).m) ∧
    (blockOk (blkSt [] id).m 0 64 ∧ itgoBad (blkSt [] id).m 0 (blockWords (blkSt [] id).m 0 64) = false ∧
      ((blkSt [] id).m.die 0).took[(unitIx .belfry).val] = none) ∧
    (let m := (on (blkSt [] id) fun m => m.onDie 0 fun d => { d with took := Machine.put d.took (unitIx .belfry) (some (0, 2)) }).m
     (m.die 0).took[(unitIx .belfry).val] = some ((m.die 0).cycle, 2) ∧ 1 + (0 : Fin 256).val < 2) ∧
    (blockOk (blkSt [(3, 1)] id).m 0 64 ∧ itgoBad (blkSt [(3, 1)] id).m 0 (blockWords (blkSt [(3, 1)] id).m 0 64) = true) ∧
    (asMayIssue (.lnstat nt 4) (asSt 0x1020 0 id) 0 ∧ ((asSt 0x1020 0 id).m.core 0).opSa.toNat % 64 ≠ 0) ∧
    (asMayIssue (.lnstat nt 4) (asSt 0x2FFFE0 0 id) 0 ∧ ((asSt 0x2FFFE0 0 id).m.core 0).opSa.toNat % 64 ≠ 0) ∧
    (asMayIssue (.smbind nt 4) (asSt 0x2FFFC0 0 id) 0 ∧ ((asSt 0x2FFFC0 0 id).m.core 0).opSa.toNat % 64 = 0 ∧
      0x300000 < ((asSt 0x2FFFC0 0 id).m.core 0).opSa.toNat + 128) :=
  ⟨⟨as_ok (by decide) (by decide) rfl, sound_st (by decide)⟩, by decide, by decide, by decide, ⟨as_ok (by decide) (by decide) rfl, by decide⟩,
    ⟨as_ok (by decide) (by decide) rfl, by decide⟩, as_ok (by decide) (by decide) rfl, by decide⟩

theorem witness_UnitCommandsIssue_commands :
    unitCommand (.smstat nt 4) = some (64, .cupola, false, smstatBad) ∧
    unitCommand (.balloc nt 4) = some (64, .campanile, true, fun m g ws => campBad m g (.balloc nt 4) ws) ∧
    campBad (blkSt [(0, 0x100000000), (2, 0x2000), (3, 0x2000)] id).m 0 (.balloc nt 4)
      (blockWords (blkSt [(0, 0x100000000), (2, 0x2000), (3, 0x2000)] id).m 0 64) = false :=
  ⟨rfl, rfl, by decide⟩

/-- A program block: one rank, nothing else. -/
def lnSt (f : Core → Core) : State := blkSt [(4, 0x10000)] f

theorem witness_PushesAndProgramsAreQueued :
    (asMayIssue (.rgpush nt 4) (blkSt [] id) 0 ∧ sound (blkSt [] id).m ∧ blockOk (blkSt [] id).m 0 64) ∧
    (rpTags (blockWords (blkSt [] id).m 0 64) + 8 * rpN (blockWords (blkSt [] id).m 0 64) ≤ 0x300000 ∧ rgpushBad (blkSt [] id).m 0 (blockWords (blkSt [] id).m 0 64) [] = false) ∧
    (rpN (blockWords (blkSt [] id).m 0 64) = 0) ∧
    (asMayIssue (.lnrun nt 4) (lnSt id) 0 ∧ sound (lnSt id).m ∧ blockOk (lnSt id).m 0 64) ∧
    (lnrunBad (lnSt id).m 0 (blockWords (lnSt id).m 0 64) = false ∧ (((lnSt id).m.die (dieOf 0)).lan.queue).length < 32) ∧
    (let s := on (lnSt id) fun m => m.onLan 0 fun l => { l with queue := List.replicate 32 ⟨0, 0, 0, 0, 0x1000, []⟩ }
     32 ≤ ((s.m.die (dieOf 0)).lan.queue).length) :=
  ⟨⟨as_ok (by decide) (by decide) rfl, sound_st (by decide), by decide⟩, by decide,
    by decide, ⟨as_ok (by decide) (by decide) rfl, sound_st (by decide), by decide⟩, by decide, by decide⟩

/-- The words of an XCP of one run of four U8 elements between scratchpads, one level. -/
def cpBlk : List (Nat × Nat) := [(0, 4 + 2 ^ 17), (4, 0x8000), (6, 0x9000), (8, 1), (9, 4), (10, 4)]

/-- The ends of an outbound copy block, in order. -/
def endsOf (ws : List Word) : List CEnd := [srcEnd ws, dstEnd ws 0]

theorem witness_CopyCommandsIssue :
    (copyCommand (.xcp nt 4 5) = some false ∧ asMayIssue (.xcp nt 4 5) (blkSt cpBlk id) 0 ∧ sound (blkSt cpBlk id).m ∧ blockOk (blkSt cpBlk id).m 0 256) ∧
    (let m := (blkSt cpBlk id).m
     let ws := blockWords m 0 256
     let m1 := (viewIssue 0 ws (endsOf ws) m).2
     let sd := endDesc m1 0 (srcEnd ws)
     let dd := endDesc sd.2 0 (dstEnd ws 0)
     engineFull m 0 = false ∧ (m.core 0).opSb = 0 ∧ (viewIssue 0 ws (endsOf ws) m).1.isOk = true ∧
     copyBad dd.2 0 (formOf (.xcp nt 4 5)) ws 0 sd.1 dd.1 = false ∧ missOf (dd.2.core 0) (srcEnd ws) (ckRun ws) = none ∧
     missOf (dd.2.core 0) (dstEnd ws 0) (ckRun ws) = none) ∧
    (let m := (blkSt ((3, 1) :: cpBlk) id).m
     let ws := blockWords m 0 256
     (viewIssue 0 ws (endsOf ws) m).1.isOk = true ∧ copyBad m 0 (formOf (.xcp nt 4 5)) ws 0 [] [] = true) ∧
    (let m := (blkSt [(0, 2 + 2 ^ 17 + 2 ^ 21), (3, 2 ^ 32), (6, 0x9000), (8, 1)] id).m
     let ws := blockWords m 0 256
     let sd := endDesc m 0 (srcEnd ws)
     let dd := endDesc sd.2 0 (dstEnd ws 0)
     (viewIssue 0 ws (endsOf ws) m).1.isOk = true ∧ copyBad dd.2 0 (formOf (.xcpKv nt 4 5)) ws 0 sd.1 dd.1 = false ∧
     ((missOf (dd.2.core 0) (srcEnd ws) (ckRun ws)).or (missOf (dd.2.core 0) (dstEnd ws 0) (ckRun ws))).isSome = true) ∧
    (let s := blkSt cpBlk fun c => { c with vbuf := some Tile.zero }
     copyCommand (.vatomAdd nt 4 (.v 1)) = some true ∧ (s.m.core 0).vbuf.isSome = true ∧ mayIssue (.vatomAdd nt 4 (.v 1)) s 0 .asy) :=
  ⟨⟨rfl, as_ok (by decide) (by decide) rfl, sound_st (by decide), by decide⟩, by decide, by decide, by decide, by decide⟩

/-- Compressed ends: in the core itself, and in core 1, which runs no task of the context. -/
theorem witness_CopyCommandsIssue_views :
    (let m := (blkSt cpBlk id).m
     let e : CEnd := ⟨0, 2 ^ 32, 0, [], 0⟩
     viewPort m 0 e = some 0 ∧ heldBy m 0 .asy 0 = false ∧ (m.core 0).clean = true) ∧
    (let m := (blkSt cpBlk id).m
     let e : CEnd := ⟨0, 0x101C00000, 0, [], 0⟩
     viewPort m 0 e = some 1 ∧ heldBy m 0 .asy 1 = true) ∧
    (let m := (blkSt ((3, 0x101C00000) :: cpBlk) id).m
     let ws := blockWords m 0 256
     (viewIssue 0 ws (endsOf ws) m).1.isOk = false) := by decide

theorem witness_CopyCommandsIssue_atomics :
    (atomCommand (.xatomAdd nt 4 5) = true ∧ asMayIssue (.xatomAdd nt 4 5) (blkSt [(3, 0x8000)] id) 0 ∧ blockOk (blkSt [(3, 0x8000)] id).m 0 64) ∧
    (let m := (blkSt [(3, 0x8000)] id).m
     let ws := blockWords m 0 64
     let r := endDesc m 0 (atomEnd ws)
     atomAt ws % atomBytes ws = 0 ∧ (m.cellCore 0 (blkW ws 3)).isSome = true ∧ atomAt ws + atomBytes ws ≤ 0x300000 ∧
     atomBad r.2 0 (atomOp (.xatomAdd nt 4 5)) ws r.1 = false) ∧
    (let m := (blkSt [(3, 0x8002)] id).m
     let ws := blockWords m 0 64
     atomAt ws % atomBytes ws ≠ 0) ∧
    (let s := on (blkSt cpBlk id) fun m => { m with ops := List.replicate 64 (anOp (.xcp nt 4 5) 0 (.copy 0) []) }
     engineFull s.m 0 = true ∧ (copyCommand (.xcp nt 4 5)).isSome = true) ∧
    (vatomOf (.vatomAdd nt 4 (.v 1)) = some (.v 1) ∧ acts vxSt 0 .vx ∧ (vxSt.m.core 0).vbuf.isNone = true ∧
      ((vxSt.m.core 0).readSpec 32 (.v 1)).isSome = true) :=
  ⟨⟨rfl, as_ok (by decide) (by decide) rfl, by decide⟩, by decide, by decide, by decide, by decide⟩

/-- A machine with the cell at 0x2000 of core 0 as given. -/
def cellM (w : Nat) : Mach := (asSt 0 0x2000 fun c => { c with spad := Memory.write [] 0x2000 (leBytes 8 w) }).m

theorem witness_ArrivalsCountDownAndFlip :
    (Memory.readW ((cellM 0).core 0).spad 0x2000).toNat % 2 ^ 32 = 0 ∧
    (Memory.readW ((cellM 0x200000001).core 0).spad 0x2000).toNat % 2 ^ 32 = 1 ∧
    1 < (Memory.readW ((cellM 0x200000002).core 0).spad 0x2000).toNat % 2 ^ 32 := by decide

/-- AS's turn with Sb 0x2000. -/
def sbSt (f : Core → Core) : State := asSt 0 0x2000 f

theorem witness_BarriersInitArriveAndWait :
    (let s := blkSt [(0, 0x2000), (1, 0x7FFFFFFF), (2, 0xFFFF)] id
     let ws := blockWords s.m 0 64
     mayIssue (.binit nt 4) s 0 .asy ∧ cellAt s.m 0 (BitVec.ofNat 64 ((blkW ws 0).toNat % 2 ^ 32)) = some (0, 0x2000) ∧
     (blkW ws 0).toNat < 2 ^ 32 ∧ 0 < (blkW ws 1).toNat ∧ (blkW ws 1).toNat < 2 ^ 31 ∧ (blkW ws 2).toNat < 2 ^ 16 ∧
     agentCode (blkW ws 2).toNat = true ∧ (∀ k, k < 5 → blkW ws (3 + k) = 0) ∧ heldBy s.m 0 .asy 0 = false) ∧
    (let s := blkSt [(0, 0x01C02000), (1, 1), (2, 0xFFFF)] id
     let ws := blockWords s.m 0 64
     mayIssue (.binit nt 4) s 0 .asy ∧ cellAt s.m 0 (BitVec.ofNat 64 ((blkW ws 0).toNat % 2 ^ 32)) = some (1, 0x2000) ∧ heldBy s.m 0 .asy 1 = true) := by decide

theorem witness_BarriersInitArriveAndWait_arrivals :
    (mayIssue (.barv nt 4) (sbSt id) 0 .asy ∧ cellAt (sbSt id).m 0 ((sbSt id).m.core 0).opSb = some (0, 0x2000) ∧ heldBy (sbSt id).m 0 .asy 0 = false) ∧
    (let s := asSt 0 0x01C02000 id
     mayIssue (.barv nt 4) s 0 .asy ∧ (cellAt s.m 0 (s.m.core 0).opSb).any (fun x => x.1 ≠ 0 && heldBy s.m 0 .asy x.1) = true ∧
     mayIssue (.bwait nt 4 true) s 0 .asy) ∧
    (mayIssue (.bwait nt 4 false) (sbSt id) 0 .asy ∧ (Memory.readW ((sbSt id).m.core 0).spad 0x2000).getLsbD 63 = false ∧
      (Memory.readW ((sbSt id).m.core 0).spad 0x2000).getLsbD 63 ≠ true) ∧
    (let s := on (sbSt id) fun m => { m with arrivals := [⟨0, 0x2000, .eng 1 .asy, 0⟩, ⟨1, 0x2000, .eng 0 .asy, 0⟩] }
     s.boot.state = 2 ∧ s.m.arrivals[0]? = some ⟨0, 0x2000, .eng 1 .asy, 0⟩ ∧ s.m.admits 0 0 (.eng 1 .asy) = true ∧
     s.m.arrivals[1]? = some ⟨1, 0x2000, .eng 0 .asy, 0⟩ ∧ s.m.admits 1 0 (.eng 0 .asy) = false) := by decide

/-- AS's turn with ring 3 of core 0 named by Sb and as given. -/
def rgSt (claim pub cons rel : BitVec 32) : State :=
  asSt 0 3 fun c => { c with rings := Machine.put c.rings 3 ⟨0x4000, 1, 2, claim, pub, cons, rel, 0xFFFF, 0xFFFF⟩ }

theorem witness_RingsAndTranslationsWork :
    (let s := rgSt 1 1 0 0
     ringAt s.m (s.m.core 0).opSb = some (0, 3) ∧ heldBy s.m 0 .asy 0 = false ∧ (s.m.core 0).pend = none ∧ (s.m.ring 0 3).nslot ≠ 0 ∧
     mayIssue (.rngwe nt 4 0x5FFFF) s 0 .asy ∧ 8 * (0x5FFFF : BitVec 19).toNat + 8 ≤ 0x300000 ∧
     ((s.m.ring 0 3).pclaim - (s.m.ring 0 3).crel).toNat < (s.m.ring 0 3).nslot.toNat ∧
     0 < ((s.m.ring 0 3).ppub - (s.m.ring 0 3).cclaim).toNat ∧ (s.m.core 0).ringWaits = [] ∧ (s.m.ring 0 3).ppub = (s.m.ring 0 3).pclaim ∧
     (s.m.ring 0 3).crel = (s.m.ring 0 3).cclaim) ∧
    (let s := rgSt 0 0xFFFFFFFF 0xFFFFFFFF 0xFFFFFFFE
     (s.m.ring 0 3).ppub ≠ (s.m.ring 0 3).pclaim ∧ (s.m.ring 0 3).crel ≠ (s.m.ring 0 3).cclaim ∧ (s.m.core 0).ringWaits = []) ∧
    (let s := blkSt [(0, 3), (3, 0x4000 + 2 ^ 32 + 4096 * 2 ^ 48), (4, 0xFFFFFFFF)] id
     mayIssue (.rngcfg nt 4) s 0 .asy ∧ blockOk s.m 0 64 ∧ ringBad s.m 0 (blockWords s.m 0 64) = false) ∧
    (let s := blkSt [(0, 1024), (3, 0x2FE000)] id
     btmBad s.m 0 (blockWords s.m 0 64) 8 false false = false) ∧
    (let s := blkSt [(0, 1 + 2 ^ 16), (3, 0x2000)] id
     btmBad s.m 0 (blockWords s.m 0 64) 4 true false = false ∧ (blkW (blockWords s.m 0 64) 0).toNat % 2 ^ 11 = 1) ∧
    (let s := blkSt [(0, 2 ^ 18)] id
     btmBad s.m 0 (blockWords s.m 0 64) 4 false true = false) ∧
    (let s := blkSt [(0, 2 ^ 17 + 2 ^ 48 - 2 ^ 32)] id
     btmBad s.m 0 (blockWords s.m 0 64) 4 false true = false) := by decide

/-- An operation that is there, of core 0 (its task runs) or of core 1 (none does). -/
def opM (o : Op) : Mach := { (asSt 0 0 id).m with ops := [o] }

theorem witness_OperationsReportArriveAndLeave :
    (let o := { anOp (.itgo nt 4) 0 .belfry [] with ctx := 1 }
     ((opM o).findOp o.id).isSome = true ∧ o.said = false ∧ (opM o).admits o.core o.ctx (.op o.id) = false) ∧
    (let o := anOp (.itgo nt 4) 0 .belfry []
     ((opM o).findOp o.id).isSome = true ∧ o.said = false ∧ (opM o).admits o.core o.ctx (.op o.id) = true) ∧
    (let o := { anOp (.itgo nt 4) 0 .belfry [] with said := true }
     ((opM o).findOp o.id).isSome = true ∧ o.bar = none) ∧
    (let o := { anOp (.itgo nt 4) 0 .belfry [] with said := true, bar := some (1, 0x2000) }
     ((opM o).findOp o.id).isSome = true ∧ (opM o).admits 1 o.ctx (.op o.id) = false) ∧
    (let o := { anOp (.itgo nt 4) 0 .belfry [] with said := true, bar := some (0, 0x2000) }
     ((opM o).findOp o.id).isSome = true ∧ (opM o).admits 0 o.ctx (.op o.id) = true ∧ ((opM o).core 0).clean = true) := by decide

/-- The copy engine's moves on one command of core 0. -/
def cpSt (o : Op) (f : Core → Core) : State := on (st .none f) fun m => { m with ops := [o] }

/-- The words of a block. -/
def blkWords (n : Nat) (ws : List (Nat × Nat)) : List Word := ws.foldl (fun b w => b.set w.1 (BitVec.ofNat 64 w.2)) (List.replicate n 0)

/-- A copy command of core 0 with the block as listed. -/
def cpOp (i : Instr) (ws : List (Nat × Nat)) : Op := anOp i 0 (.copy 0) (blkWords 32 ws)

theorem witness_CopyEnginesApply :
    (let o := { cpOp (.xcp nt 4 5) cpBlk with stop := some (1, 0, true) }
     let s := cpSt o id
     s.boot.state = 2 ∧ (s.m.engineOps 0 0)[0]? = some o ∧ o.stop.isSome = true) ∧
    (let o := { cpOp (.xcp nt 4 5) cpBlk with idx := 4 }
     let s := cpSt o id
     (s.m.engineOps 0 0)[0]? = some o ∧ o.fin = false ∧ o.stop = none ∧ atomCommand o.instr = false ∧ formOf o.instr ≠ .mc ∧
     ckTotal o.blk ≤ o.idx ∧ s.m.sending (o.id + 1) = false) ∧
    (let o := { cpOp (.xcp nt 4 5) cpBlk with fin := true, nfault := 65536 }
     let s := cpSt o id
     (s.m.engineOps 0 0)[0]? = some o ∧ s.m.findOp o.id = some o ∧ (copyCommand o.instr).isSome = true ∧ o.said = false ∧ o.bar = none ∧
     open' s.m o.core o.ctx) ∧
    (let o := { anOp (.xatomMin nt 4 5) 0 (.copy 0) (blkWords 8 [(3, 0x2FFFF8)]) with fin := true }
     let s := cpSt o id
     (s.m.engineOps 0 0)[0]? = some o ∧ s.m.findOp o.id = some o ∧ atomCommand o.instr = true ∧ (blkW o.blk 6).toNat % 2 ^ 22 + 8 ≤ o.base + 8 ∧
     open' s.m o.core o.ctx) := by decide

theorem witness_CopyEnginesApply_sound : sound (cpSt (anOp (.xatomMin nt 4 5) 0 (.copy 0) (blkWords 8 [(3, 0x2FFFF8)])) id).m :=
  sound_st (fo := .none) (f := id) (by decide)

/-- A copy to block 1 of a pool of die 0's stage. -/
def kvOp : Op := { cpOp (.xcpKv nt 4 5) [(0, 4 + 2 ^ 17 + 2 ^ 23), (4, 0x8000), (5, 2 ^ 32), (8, 1)] with handles := [(0, 1)] }
def kvSt : State := on (cpSt kvOp id) fun m => m.onCamp 0 fun k =>
  { k with en := true, pools := Machine.put k.pools 0 ⟨0, 1, 0, true, false, 0, 2, 0x400000000000, 0x400000001000, 2⟩ }

/-- One element of a copy from scratchpad to scratchpad, of one that waits at core 1, and of one to a KV block. -/
theorem witness_CopyEnginesApply_element :
    (let o := cpOp (.xcp nt 4 5) cpBlk
     let s := cpSt o id
     copying s 0 0 0 o ∧ plainTypes o ∧ formOf o.instr ≠ .mc ∧ formOk (formOf o.instr) o.blk = true ∧
     (elemAt (dstEnd o.blk o.sb) (ckRun o.blk) o.idx).1 = 0x9000 ∧ (elemAt (srcEnd o.blk) (ckRun o.blk) o.idx).1 = 0x8000 ∧
     accumulates o.instr = none ∧ open' s.m 0 o.ctx) ∧
    (let o := { cpOp (.xcp nt 4 5) ((5, 0x01C00000) :: cpBlk) with src := [(7, true)] }
     let s := cpSt o id
     copying s 0 0 0 o ∧ plainTypes o ∧ spadCore s.m o.core (dstEnd o.blk o.sb).loc = some 1 ∧ s.m.admits 1 o.ctx (.op o.id) = false) ∧
    (copying kvSt 0 0 0 kvOp ∧ plainTypes kvOp ∧ formOk (formOf kvOp.instr) kvOp.blk = true ∧ (dstEnd kvOp.blk kvOp.sb).kind = 2 ∧
     kvOp.handles.lookup 0 = some 1 ∧ ∀ b, b < 1 → kvSt.m.mayTouch (kvSt.m.sec kvOp.ctx) (kvSt.m.blockAt 1 0 + b) = true) := by decide

theorem witness_CopyEnginesApply_places :
    (let o := cpOp (.xcp nt 4 5) cpBlk
     let m := (cpSt o id).m
     whereIs m o (dstEnd o.blk o.sb) o.ddesc 0x9000 1 (.spad 0 0x9000) m ∧ sourceIs m o 0 m) ∧
    (let o := { cpOp (.xcp nt 4 5) ((5, 0x01C00000) :: cpBlk) with src := [(7, true)] }
     let m := (cpSt o id).m
     whereIs m o (dstEnd o.blk o.sb) o.ddesc 0x9000 1 (.spad 1 0x9000) m ∧ sourceIs m o 7 m) ∧
    (whereIs kvSt.m kvOp (dstEnd kvOp.blk kvOp.sb) kvOp.ddesc 0 1 (.dev (kvSt.m.blockAt 1 0)) kvSt.m ∧ sourceIs kvSt.m kvOp 0 kvSt.m) := by
  refine ⟨⟨?_, .inr ⟨rfl, .spad 0 0x8000, ?_, ?_, ?_⟩⟩, ⟨?_, .inl ⟨rfl, rfl⟩⟩, ?_, .inr ⟨rfl, .spad 0 0x8000, ?_, ?_, ?_⟩⟩
  · exact ⟨by decide, by decide, by decide, by decide, by decide, rfl⟩
  · exact ⟨by decide, by decide, by decide, by decide, by decide, rfl⟩
  · show open' _ _ _; decide
  · show (0 : Nat) = _; decide
  · exact ⟨by decide, by decide, by decide, by decide, by decide, rfl⟩
  · exact ⟨by decide, .inr ⟨by decide, rfl, 1, by decide, by decide⟩⟩
  · exact ⟨by decide, by decide, by decide, by decide, by decide, rfl⟩
  · show open' _ _ _; decide
  · show (0 : Nat) = _; decide

/-- A copy into the compressed region of viewSt, and into one without room. -/
def vwOp : Op := cpOp (.xcp nt 4 5) ((5, 0x100010000) :: (6, 0) :: (4, 0x8000) :: (0, 4 + 2 ^ 17) :: [(8, 1)])
def vwSt (cap : Nat) : State := on (st .none fun c => { c with spad := Memory.write [] 0x10000 (leBytes 8 1 ++ leBytes 8 (2 + cap * 65536)) }) fun m =>
  { m with ops := [vwOp] }

theorem witness_CopyEnginesApply_view :
    copying (vwSt 66) 0 0 0 vwOp ∧ plainTypes vwOp ∧ formOf vwOp.instr = .cp ∧ vwOp.src = [] ∧ plainSpad (vwSt 66).m vwOp (srcEnd vwOp.blk) 0 ∧
    (dstEnd vwOp.blk vwOp.sb).kind = 0 ∧ wb (dstEnd vwOp.blk vwOp.sb).loc 32 = true ∧
    spadCore (vwSt 66).m vwOp.core (dstEnd vwOp.blk vwOp.sb).loc = some 0 ∧ eaByte (dstEnd vwOp.blk vwOp.sb).loc = 0x10000 ∧
    (elemAt (dstEnd vwOp.blk vwOp.sb) (ckRun vwOp.blk) vwOp.idx).1 = 0 ∧
    (ctRead ((vwSt 66).m.core 0).spad 0x10000 0).any (fun bs => bs.length = 4096) = true := by decide

theorem witness_CopyEnginesApply_viewRoom (new : List Byte) (h : new.length = 4096) :
    (ctWrite ((vwSt 66).m.core 0) 0x10000 0 new).isSome = true :=
  ctWrite_room (x := ⟨2, 66, 0, 0, false⟩) h (by decide) (by decide)

/-- A coded tile takes at least a line (R157). -/
theorem zrEncode_line {bs : List Byte} (h : bs.length = 4096) : 1 ≤ (zrEncode bs).1.length / 64 := by
  unfold zrEncode
  simp only
  split
  · rw [h]; decide
  · rw [Nat.one_le_div_iff (by decide)]
    simp only [padTo, codeMap, List.length_append, List.length_map, List.length_range, List.length_replicate]
    omega

theorem witness_CopyEnginesApply_viewFull (new : List Byte) (h : new.length = 4096) :
    ctWrite ((vwSt 2).m.core 0) 0x10000 0 new = none := by
  have hl := zrEncode_line h
  have hc : ctLook ((vwSt 2).m.core 0).spad 0x10000 0 = some ⟨2, 2, 0, 0, false⟩ := by decide
  unfold ctWrite
  rw [hc]
  simp only
  rw [if_neg (by simp), if_pos (by omega)]

theorem witness_CopyEnginesApply_scales :
    (let o := cpOp (.xcpCvt nt 4 5) [(0, 4 + 2 ^ 17 + 2 ^ 24 + 9 * 2 ^ 28), (4, 0x8000), (6, 0x9000), (7, 0x2FFFFF), (8, 1)]
     let s := cpSt o id
     copying s 0 0 0 o ∧ formOf o.instr = .cvt ∧ o.src = [] ∧ plainSpad s.m o (srcEnd o.blk) 0 ∧ plainSpad s.m o (dstEnd o.blk o.sb) 0 ∧
     0 ≤ (elemAt (srcEnd o.blk) (ckRun o.blk) o.idx).1 ∧ ckSt o.blk = 1 ∧ isMx (ckDt o.blk) = true ∧ nibbles (ckDt o.blk) = 1 ∧
     (scaleAt o.blk o.idx).toNat = 0x2FFFFF) ∧
    (let o := cpOp (.xcpCvt nt 4 5) [(0, 32 + 2 ^ 17 + 7 * 2 ^ 24 + 2 * 2 ^ 28), (4, 0x8000), (6, 0x9000), (7, 0), (8, 1)]
     let s := cpSt o id
     copying s 0 0 0 o ∧ formOf o.instr = .cvt ∧ isMx (ckSt o.blk) = true ∧ ckDt o.blk = 2 ∧ plainSpad s.m o (srcEnd o.blk) 0 ∧
     plainSpad s.m o (dstEnd o.blk o.sb) 0) := by decide

theorem witness_CopyEnginesApply_multicast :
    (let o := { cpOp (.xcpMc nt 4 5) cpBlk with rcvs := [(0, 0)] }
     let s := cpSt o id
     copying s 0 0 0 o ∧ formOf o.instr = .mc ∧ o.src = [] ∧ o.elems = [] ∧ plainTypes o ∧ ckSt o.blk = ckDt o.blk ∧
     plainSpad s.m o (srcEnd o.blk) 0 ∧ (ckAux o.blk).toNat % 4 ≤ 1 ∧ (o.rcvs.map (·.2)).Nodup ∧ o.rcvs = [(0, 0)] ∧ open' s.m 0 o.ctx) ∧
    (let o := { cpOp (.xcpMc nt 4 5) ((7, 2) :: cpBlk) with rcvs := [(3, 9)] }
     let s := cpSt o id
     copying s 0 0 0 o ∧ formOf o.instr = .mc ∧ plainSpad s.m o (srcEnd o.blk) 0 ∧ (ckAux o.blk).toNat % 4 = 2) := by decide

theorem witness_CopyEnginesApply_barrier :
    (let o := { cpOp (.xcpMc nt 4 5) ((26, 2 ^ 22 + 0x2000) :: cpBlk) with rcvs := [(0, 0)], idx := 4 }
     let s := cpSt o id
     (s.m.engineOps 0 0)[0]? = some o ∧ o.fin = false ∧ o.stop = none ∧ formOf o.instr = .mc ∧ ckRben o.blk = true ∧ o.idx = ckTotal o.blk + 0 ∧
     o.rcvs[0]? = some (0, 0) ∧ (ckAux o.blk).toNat % 4 ≤ 1 ∧ open' s.m 0 o.ctx) := by decide

/-- A tensor descriptor of sixteen rows of 65,536 bytes whose tile table names nothing. -/
def tenD : List Word := [0x400000010000, 65536 + 16 * 2 ^ 32, 272]

theorem witness_CopyEnginesApply_absent :
    (let o := { cpOp (.xcp nt 4 5) [(0, 4 + 2 ^ 17 + 2 ^ 22), (4, 0x8000), (5, 7), (8, 1)] with ddesc := tenD }
     let s := cpSt o id
     let x := dstEnd o.blk o.sb
     copying s 0 0 0 o ∧ plainTypes o ∧ formOf o.instr ≠ .mc ∧ x.kind = 1 ∧ x.loc.extractLsb' 0 20 = (7 : BitVec 20) ∧
     (elemAt x (ckRun o.blk) o.idx).1 = 0 ∧ (descOf tenD).any (fun y => (s.m.placeOf (.core o.core) o.ctx 7 y 0).1 = .absent 0) = true) ∧
    (let o := { cpOp (.xcp nt 4 5) [(0, 4 + 2 ^ 17 + 2 ^ 20), (3, 7), (6, 0x9000), (8, 1)] with sdesc := tenD }
     let s := cpSt o id
     let x := srcEnd o.blk
     copying s 0 0 0 o ∧ plainTypes o ∧ formOf o.instr ≠ .mc ∧ x.kind = 1 ∧ x.loc.extractLsb' 0 20 = (7 : BitVec 20) ∧ o.src = [] ∧
     wb (dstEnd o.blk o.sb).loc 32 = false ∧ (elemAt x (ckRun o.blk) o.idx).1 = 0 ∧
     (descOf tenD).any (fun y => (s.m.placeOf (.core o.core) o.ctx 7 y 0).1 = .absent 0) = true) := by decide

theorem witness_CopyEnginesApply_atomic :
    let o := anOp (.xatomMin nt 4 5) 0 (.copy 0) (blkWords 8 [(3, 0x2FFFF8)])
    let s := cpSt o id
    (s.boot.state = 2 ∧ (s.m.engineOps 0 0)[0]? = some o ∧ atomCommand o.instr = true ∧ o.fin = false ∧ o.stop = none ∧ open' s.m 0 o.ctx) ∧
    whereIs s.m o (atomEnd o.blk) o.ddesc (atomAt o.blk) (atomBytes o.blk) (.spad 0 0x2FFFF8) s.m ∧ reads s.m o (.spad 0 0x2FFFF8) (atomBytes o.blk) 0 :=
  ⟨by decide, ⟨by decide, by decide, by decide, by decide, by decide, rfl⟩, by show (0 : Nat) = _; decide⟩

/-- A unit's turn on one operation that it is to apply. -/
def applies (u : UnitKind) (o : Op) (f : Mach → Mach) : Prop := unitActsOn (unSt u o f) 0 u o

/-- Belfry's slot 0 of die 0 as given, its operation's block as listed. -/
def belf (ws : List (Nat × Nat)) (f : BSlot → BSlot) : State :=
  unSt .belfry (anOp (.itgo nt 4) 0 .belfry (blkWords 16 ws)) fun m => m.onSlotB 0 0 f

/-- Belfry's operation on object 1 of a table of two at 0x4000_0000_0000, the record's word 0 and copy state given. -/
def objSt (i w0 cs : Nat) (unpin : Bool) : State :=
  unSt .belfry (anOp (.itgo nt 4) 0 .belfry (blkWords 16 [(0, i + 2 ^ 20 + unpin.toNat * 2 ^ 22), (3, 2 ^ 32)])) fun m =>
    { m.onCtx 0 fun x => { x with otbase := 0x400000000000, nobj := 2 } with
      dev := Memory.write (Memory.write [] 0x400000000040 (leBytes 8 w0)) 0x400000000060 (leBytes 8 cs) }

theorem witness_BelfryAppliesCommands :
    (unitActsOn (belf [] fun b => { b with bound := true, ctx := 1 }) 0 .belfry (anOp (.itgo nt 4) 0 .belfry (blkWords 16 [])) ∧
      ((belf [] fun b => { b with bound := true, ctx := 1 }).m.bslot 0 0).bound = true) ∧
    (((belf [] fun b => { b with bound := true, running := true }).m.bslot 0 0).running = true) ∧
    (let s := belf [] fun b => { b with bound := true }
     ∀ p ∈ cmdArbiters s.m (anOp (.itgo nt 4) 0 .belfry (blkWords 16 [])), s.m.arbiter p.1 p.2 = true) ∧
    (let o := anOp (.objpin nt 4) 0 .belfry (blkWords 16 [])
     let s := unSt .belfry o fun m => m.onBelfry 0 fun b => { b with last := some (0, 2 ^ 60) }
     unitActsOn s 0 .belfry o ∧ ¬ ∀ p ∈ cmdArbiters s.m o, s.m.arbiter p.1 p.2 = true) ∧
    (let s := belf [(0, 4)] id
     (s.m.bslot 0 0).bound = false ∧ (s.m.bslot 0 0).running = false ∧ itSlot (blkWords 16 [(0, 4)]) = 0) ∧
    (let ws := blkWords 16 [(3, 0x400000000000), (4, 1), (6, 0x400000001000), (7, 0x0101010101010101), (8, 0x01010101), (9, 1)]
     let o := anOp (.itgo nt 4) 0 .belfry ws
     itbindRange (belf [] id).m { o with blk := blkWords 16 [] } = true) ∧
    (let s := belf [] fun b => { b with bound := true, nent := 3 }
     (s.m.bslot 0 0).bound = true ∧ (s.m.bslot 0 0).ctx = 0 ∧ (s.m.bslot 0 0).running = false ∧ (blkW (blkWords 16 []) 0).getLsbD 2 = false) := by
  decide

theorem witness_BelfryAppliesCommands_objects :
    (let s := objSt 2 1024 0 false
     ((s.m.ctx 0).nobj.toNat ≤ 2)) ∧
    (let s := objSt 1 0 0 false
     1 < (s.m.ctx 0).nobj.toNat ∧ objValid (s.m.objRec 0 1) = false ∧ imageBad (2 ^ 32) 0 0 = false) ∧
    (let s := objSt 1 1024 (65534 * 16) false
     objValid (s.m.objRec 0 1) = true ∧ csPins (s.m.cs 0 1 1) = 65534) ∧
    (let s := objSt 1 1024 0 true
     objValid (s.m.objRec 0 1) = true ∧ csPins (s.m.cs 0 1 1) = 0) ∧
    (let s := objSt 1 1024 16 true
     objValid (s.m.objRec 0 1) = true ∧ csPins (s.m.cs 0 1 1) = 1) := by decide

/-- Belfry's slot 0 running an itinerary of one entry at 0x4000_0000_0000, its words as given. -/
def itSt (w0 w1 w2 w3 : Nat) (f : BSlot → BSlot) (g : Belfry → Belfry) : State :=
  on (st .none fun c => { c with rings := Machine.put c.rings 0 ⟨0, 1024, 1, 0, 0, 0, 0, 0, 0⟩ }) fun m =>
    { (m.onSlotB 0 0 fun b => f { b with bound := true, running := true, addr := 0x400000000000, nent := 1, ents := [⟨false, some 0, 0, false, false, []⟩] }).onBelfry 0 g with
      dev := Memory.write [] 0x400000000000 (leBytes 8 w0 ++ leBytes 8 w1 ++ leBytes 8 w2 ++ leBytes 8 w3) }

theorem witness_BelfryMovesOn :
    (((st .none id).m.bslot 0 0).running = false) ∧
    (let s := itSt 0 (1 + 2 ^ 16 + 2 ^ 19) 0 0 id id
     (s.m.bslot 0 0).running = true ∧ s.m.nextEnt (s.m.bslot 0 0) 0 ((s.m.bslot 0 0).hops[0]).ent = none) ∧
    (let s := itSt 0 (2 ^ 17) 0 0 id id
     s.m.nextEnt (s.m.bslot 0 0) 2 ((s.m.bslot 0 0).hops[2]).ent = some 0 ∧ ((s.m.bslot 0 0).hops[2]).seen = false ∧ ((s.m.bslot 0 0).hops[2]).stop = none ∧
     (s.m.itEnt (s.m.bslot 0 0) 0).nshr = 0) ∧
    (let s := itSt 0 (2 + 4 * 2 ^ 16) 0 1 (fun b => { b with hops := Machine.put b.hops 2 { HopState.reset with seen := true } }) id
     let b := s.m.bslot 0 0
     let e := s.m.itEnt b 0
     b.running = true ∧ (b.hops[2]).stop = none ∧ s.m.nextEnt b 2 (b.hops[2]).ent = some 0 ∧ (b.hops[2]).ent = 0 ∧ (b.hops[2]).seen = true ∧ e.src = 4 ∧ e.dst = 0 ∧
     s.m.inFlight 0 0 2 e.wcls = 0 ∧ open' s.m e.rcore b.ctx ∧ (s.m.ring e.rcore e.ring).ready .we = true ∧ (s.m.core e.rcore).ringWaits = []) ∧
    (let x : Shard := ⟨0, 2, 0, 0, 0, 65536, none, [], 1, none, false⟩
     let s := itSt 0 (2 + 3 * 2 ^ 16) 0 1 id fun b => { b with shards := [x] }
     (s.m.die 0).belfry.shards[0]? = some x ∧ (s.m.bslot 0 x.slot).running = true ∧ ((s.m.bslot 0 x.slot).hops[x.hop.val]).stop = none ∧ x.tag ≠ 0 ∧
     s.m.sending x.tag = false ∧ (s.m.itEnt (s.m.bslot 0 x.slot) x.ent).ben = false ∧
     (lastShard (s.m.bslot 0 x.slot) x (s.m.itEnt (s.m.bslot 0 x.slot) x.ent) = false ∨ s.m.endArbiter 0 x.slot x.ent = none)) ∧
    ((st .none id).m.die 0).belfry.marks = [] ∧
    (let s := itSt 0 1 0 0 (fun b => { b with subs := 1, run := 9 }) fun b => { b with marks := [(0, [9])] }
     (s.m.die 0).belfry.marks = (0, [9]) :: [] ∧ dieOf 0 = 0 ∧ (s.m.bslot 0 0).running = true ∧ (s.m.bslot 0 0).run ∈ [9] ∧
     (s.m.bslot 0 1).running = false) := by decide

theorem witness_BelfryMovesOn_owners :
    (let e : Evict := ⟨0, 1, 0, [], true⟩
     let s := itSt 0 1 0 0 id fun b => { b with evicts := [e] }
     (s.m.die 0).belfry.evicts.find? (·.ret) = some e ∧ e.tiles = []) ∧
    (let e : Evict := ⟨0, 1, 0, [(1, 2), (3, 4), (5, 6)], true⟩
     let s := itSt 0 1 0 0 id fun b => { b with evicts := [e] }
     (s.m.die 0).belfry.evicts.find? (·.ret) = some e ∧ e.tiles = (1, 2) :: (3, 4) :: [(5, 6)]) ∧
    (let x : Shard := ⟨0, 2, 0, 0, 0, 65536, none, [], 1, none, false⟩
     let s := itSt 0 (2 + 1 * 2 ^ 16) 0 1 (fun b => { b with ents := [⟨true, some 0, 1, false, false, []⟩] }) fun b => { b with shards := [x] }
     let b := s.m.bslot 0 0
     b.running = true ∧ (b.hops[2]).stop = none ∧ s.m.sending x.tag = false ∧ (s.m.itEnt b 0).ben = false ∧
     lastShard b x (s.m.itEnt b 0) = true ∧ (s.m.endArbiter 0 0 0).isSome = true) ∧
    (0 < 4 ∧ 3 < 4 ∧ 0 < 2 ^ 20 ∧ (1 : Fin 4) ≠ 0 ∧ (2 : Fin 4) ≠ 0 ∧ (1 : Fin 4) < 2) := by decide

/-- The gatherer of die 0 with a configuration of two buckets of context 0. -/
def gcfg : GCfg := ⟨0, 2, 64, 4, 1, 0, 0xFFFF⟩

/-- The gatherer's turn on a push of one row for bucket 1. -/
def gatSt (ws : List (Nat × Nat)) (f : Op → Op) (g : Gatherer → Gatherer) : State :=
  unSt .gatherer (f { anOp (.rgpush nt 4) 0 .gatherer (blkWords 8 ws) with handles := [(1, 7)] }) fun m => m.onGat 0 g

/-- Its operation. -/
def gatOp (ws : List (Nat × Nat)) (f : Op → Op) : Op := f { anOp (.rgpush nt 4) 0 .gatherer (blkWords 8 ws) with handles := [(1, 7)] }

theorem witness_GathererAppliesCommands :
    (unitActsOn (gatSt [] id fun g => { g with cfg := some { gcfg with ctx := 1 } }) 0 .gatherer (gatOp [] id)) ∧
    ((gatSt [(0, 2 ^ 63)] id fun g => { g with cfg := some gcfg }).m.die 0).gat.held = [] ∧
    ((gatSt [] id id).m.die 0).gat.cfg = none ∧
    ((gatSt [] id fun g => { g with cfg := some gcfg, dq := [[1, 2, 3, 4]] }).m.die 0).gat.dq = [1, 2, 3, 4] :: [] ∧
    (let ws := blkWords 8 [(0, 2 ^ 16 + 2 ^ 26)]
     (blkW ws 0).toNat / 2 ^ 16 % 2 ^ 10 = 1 ∧ (blkW ws 0).getLsbD 26 = true ∧ 1 < gcfg.nbkt) ∧
    (let ws := blkWords 8 [(0, 2 ^ 17)]
     gcfg.nbkt ≤ (blkW ws 0).toNat / 2 ^ 16 % 2 ^ 10) := by decide

/-- A push at the head, and a take behind it: the push waits at a buffer that is held, or does not. -/
theorem witness_GathererAppliesCommands_order :
    let p := gatOp [] id
    let q := { anOp (.rgtakeTake nt 4) 0 .gatherer [] with id := 1 }
    let s := on (gatSt [] id id) fun m => { m with ops := [p, q] }
    (s.m.ops.filter fun x => x.die = 0 && x.unit = .gatherer) = p :: [q] ∧ (∀ x ∈ p :: [q], x.fin = false) ∧ s.m.pushWaits p = false ∧
    s.m.pushWaits { p with stop := some (0, 0, true) } = true := by decide

theorem witness_GathererAppliesCommands_nothing : (∀ b : Fin 1024, Gatherer.reset.cnt[b.val] = 0) ∧ Gatherer.reset.held = [] := by
  simp [Gatherer.reset]

theorem witness_GathererAppliesCommands_pushes :
    (pushFits gcfg (blkWords 8 [(0, 1)]) ((gatOp [(0, 1)] id).handles.map fun h => BitVec.ofNat 64 h.1) = true) ∧
    (let o := gatOp [(0, 1)] fun o => { o with begun := true, idx := 8 }
     (pushBuckets gcfg o).length ≤ o.idx / 8) ∧
    (let o := gatOp [(0, 1)] fun o => { o with begun := true, idx := 3 }
     o.idx / 8 < (pushBuckets gcfg o).length ∧ bktAt gcfg o (o.idx / 8) = 1) := by decide

/-- The loading of a gatherer's configuration, tensor 1 of sixteen rows of 65,536 bytes. -/
def gatLoad : State :=
  on (unSt .gatherer (anOp (.rgcfg nt 4) 0 .gatherer (blkWords 8 [(0, 1 + 2 ^ 32), (3, 64), (4, 1), (5, 0xFFFF00C00000)])) id) fun m =>
    { m.onCtx 0 fun x => { x with tdbase := 0x400000000000 } with
      dev := Memory.write [] 0x400000000020 (leBytes 8 0x400000010000 ++ leBytes 8 (65536 + 16 * 2 ^ 32) ++ leBytes 8 272) }

theorem witness_GathererAppliesCommands_loads :
    let o := anOp (.rgcfg nt 4) 0 .gatherer (blkWords 8 [(0, 1 + 2 ^ 32), (3, 64), (4, 1), (5, 0xFFFF00C00000)])
    unitActsOn gatLoad 0 .gatherer o ∧ (gatLoad.m.die 0).gat.cfg = none ∧ (blkW o.blk 0).getLsbD 63 = false ∧ ((cfgOf gatLoad.m o).1).isSome = true := by
  decide

/-- Cupola of die 0, its bindings at 0x4000_0000_0000, the record of slot 0 as listed. -/
def cupSt (b : List (Nat × Nat)) (o : Op) (f : Cupola → Cupola) : State :=
  unSt .cupola o fun m =>
    { m.onCup 0 fun u => f { u with en := true, sbbase := 0x400000000000 } with
      dev := b.foldl (fun x w => Memory.write x (0x400000000000 + 8 * w.1) (leBytes 8 w.2)) [] }

/-- An operation on slot 0 of Cupola. -/
def cupOp (ws : List (Nat × Nat)) : Op := anOp (.smstat nt 4) 0 .cupola (blkWords 16 ws)

theorem witness_CupolaAppliesCommands :
    (unitActsOn (cupSt [] (cupOp []) fun u => { u with en := false }) 0 .cupola (cupOp [])) ∧
    (unitActsOn (cupSt [] (cupOp []) id) 0 .cupola (cupOp []) ∧ bdBound ((cupSt [] (cupOp []) id).m.bind 0 0 0) = false) ∧
    (let b := (cupSt [(8, 1 + 2 ^ 16)] (cupOp []) id).m.bind 0 0 0
     bdBound b = true ∧ bdCtx b ≠ (0 : Fin 64).val) ∧
    (let b := (cupSt [(5, 8), (8, 1)] (cupOp []) id).m.bind 0 0 0
     bdBound b = true ∧ bdCtx b = (0 : Fin 64).val ∧ bdV b = 8) ∧
    slotOpen (cupSt [(8, 1)] (cupOp []) fun u => { u with bufs := [⟨0, 0, [], 0⟩] }).m (cupOp []) = true ∧
    slotOpen (cupSt [(8, 1)] (cupOp []) fun u => { u with accepted := [⟨0, 0, 0, [], none, none⟩] }).m { cupOp [] with id := 1 } = true ∧
    slotOpen (cupSt [(8, 1)] (cupOp []) id).m (cupOp []) = false ∧
    (let o := cupOp [(0, 15 * 2 ^ 32 + 2 ^ 16), (3, 7)]
     (blkW o.blk 0).getLsbD 16 = true ∧ stTok o.blk < 8 ∧ stN o.blk ≤ 15) ∧
    (8 ≤ stTok (cupOp [(3, 8)]).blk ∧ 15 < stN (cupOp [(0, 16 * 2 ^ 32)]).blk) ∧
    ((blkW (cupOp [(3, 0x2FFFC0)]).blk 3).toNat % 2 ^ 22 + 4 * 8 ≤ 0x300000 ∧ (blkW (cupOp [(3, 0x2FFFC0)]).blk 3).toNat % 2 ^ 22 % 64 = 0) := by
  decide

/-- Cupola with the record of slot 0 as listed, and no command. -/
def rowSt (b : List (Nat × Nat)) (f : Cupola → Cupola) : State := on (cupSt b (cupOp []) f) fun m => { m with ops := [] }

theorem witness_CupolaTakesSegmentsAndRunsRows :
    (((st .none id).m.die 0).cup.port = []) ∧
    (let x : Segment := ⟨0, 0, 0, true, 6, [0, 0]⟩
     let s := rowSt [(5, 8), (8, 1)] fun u => { u with port := [x] }
     (s.m.die 0).cup.port = x :: [] ∧ (s.m.die 0).cup.en = true ∧ bdBound (s.m.bind x.ctx 0 x.slot.toNat) = true ∧
     bdCtx (s.m.bind x.ctx 0 x.slot.toNat) = x.ctx.val ∧ (s.m.die 0).cup.bufs = [] ∧ x.vidx + x.vals.length ≤ bdV (s.m.bind x.ctx 0 x.slot.toNat) ∧
     bdNlast (s.m.bind x.ctx 0 x.slot.toNat) ≤ (if x.last then 1 else 0) ∧ (s.m.die 0).took[(unitIx .cupola).val] = none) ∧
    (let m := (on (rowSt [(5, 8), (8, 1)] id) fun m => m.onDie 0 fun d => { d with took := Machine.put d.took (unitIx .cupola) (some (0, 1)) }).m
     (m.die 0).took[(unitIx .cupola).val] = some ((m.die 0).cycle, 1) ∧ 0 < 1) ∧
    (let x : Segment := ⟨0, 1, 0, false, 0, [0]⟩
     let s := rowSt [(5, 8), (8, 1)] fun u => { u with port := [x] }
     (s.m.die 0).cup.bufs.length < 64 ∧ bdCtx (s.m.bind x.ctx 0 x.slot.toNat) ≠ x.ctx.val) ∧
    (let r : Row := ⟨0, 3, 0, [], none, none⟩
     let s := rowSt [(8, 1)] fun u => { u with accepted := [⟨0, 2, 0, [], none, none⟩, r] }
     (s.m.die 0).cup.accepted[1]? = some r ∧ s.m.rowNext 0 r = false) ∧
    (let r : Row := ⟨0, 3, 0, [], none, none⟩
     let s := rowSt [(8, 1)] fun u => { u with accepted := [r] }
     (s.m.die 0).cup.accepted[0]? = some r ∧ s.m.rowNext 0 r = true ∧ r.res = none ∧ r.op = none ∧ bdRben (s.m.bind 0 0 0) = false ∧
     bdSlow (s.m.bind 0 0 0) = false) := by decide

theorem witness_CupolaTakesSegmentsAndRunsRows_rows :
    (let r : Row := ⟨0, 3, 0, [], none, some (some 7)⟩
     let s := rowSt [(8, 1)] fun u => { u with accepted := [r] }
     (s.m.die 0).cup.accepted[0]? = some r ∧ s.m.rowNext 0 r = true ∧ r.res = some (some 7)) ∧
    (let r : Row := ⟨0, 3, 0, [], some 0, none⟩
     let s := cupSt [(8, 1)] { cupOp [] with begun := true } fun u => { u with accepted := [r] }
     (s.m.die 0).cup.accepted[0]? = some r ∧ s.m.rowNext 0 r = true ∧ r.ents = [] ∧ (r.op.bind s.m.findOp).isSome = true ∧
     s.m.admits 0 r.ctx (.row 0 r.acc) = true ∧ (s.m.core 0).clean = true) ∧
    (let r : Row := ⟨0, 3, 0, [(0, 5)], none, none⟩
     let s := rowSt [(8, 3)] fun u => { u with accepted := [r], score := 1 }
     (s.m.die 0).cup.accepted[0]? = some r ∧ s.m.rowNext 0 r = true ∧ bdSlow (s.m.bind 0 0 0) = true ∧
     s.m.admits (Fin.ofNat 256 (s.m.die 0).cup.score.toNat) r.ctx (.row 0 r.acc) = false) := by decide

theorem witness_CupolaTakesSegmentsAndRunsRows_end : ∀ (m : Mach) (b : Bind), let r : LgRun := ⟨m, b, [], none, [], false, none, 0, false⟩
    LgRun.go 0 0 0 [] 0 r = .stop r := fun _ _ => rfl

/-- Campanile of die 0 with one pool of two blocks of 16 KiB, its stack and words at 0x4000_0000_0000 and 0x4000_0000_1000. -/
def campSt (o : Op) (f : Pool → Pool) (g : Campanile → Campanile) : State :=
  unSt .campanile o fun m => m.onCamp 0 fun k =>
    g { k with en := true, pools := Machine.put k.pools 0 (f ⟨0, 2, 0, true, false, 0, 2, 0x400000000000, 0x400000001000, 2⟩) }

/-- A BALLOC of two handles. -/
def ballocOp : Op := anOp (.balloc nt 4) 0 .campanile (blkWords 8 [(0, 2 * 2 ^ 32), (3, 0x2000)])

theorem witness_CampanileAppliesOperations :
    (unitActsOn (campSt ballocOp id fun k => { k with en := false }) 0 .campanile ballocOp ∧ campInstr ballocOp.instr = true ∧
      listBytes (campSt ballocOp id id).m ballocOp = 0) ∧
    (unitActsOn (campSt ballocOp id id) 0 .campanile ballocOp ∧ campN (campSt ballocOp id id).m ballocOp = some 2) ∧
    (let q := ((campSt ballocOp id id).m.die 0).camp.pools[0]
     q.fail = false ∧ q.pen = true ∧ q.ctx.toNat = ballocOp.ctx.val ∧ 2 ≤ q.fcnt.toNat ∧ q.fcnt.toNat < 3) ∧
    (bwRef 0 = 0 ∧ 0 < bwRef (bwOf 1 false false false false) ∧ bwRef (bwOf 65534 false false false false) < 65535 ∧
      bwRef (bwOf 65535 false false false false) = 65535 ∧ 1 < bwRef (bwOf 2 false false false false) ∧ bwRef (bwOf 1 false false false false) = 1) ∧
    (let s := campSt ballocOp id fun k => { k with remote := [⟨9, 1, 0, 0, .add⟩, ⟨0, 0, 0, 0, .drop⟩, ⟨3, 1, 0, 0, .add⟩] }
     (s.m.die 0).camp.remote[0]? = some ⟨9, 1, 0, 0, .add⟩ ∧ s.m.findOp 9 = none ∧ (s.m.die 0).camp.remote[1]? = some ⟨0, 0, 0, 0, .drop⟩ ∧
     (∀ y ∈ (s.m.die 0).camp.remote.take 1, y.core ≠ 0) ∧ s.m.findOp 0 = some ballocOp ∧
     (s.m.die 0).camp.remote[2]? = some ⟨3, 1, 0, 0, .add⟩ ∧ ∃ y ∈ (s.m.die 0).camp.remote.take 2, y.core = 1) ∧
    ((campSt ballocOp id fun k => { k with reports := [0], quar := [1] }).m.die 0).camp.reports = 0 :: [] ∧
    ((campSt ballocOp id fun k => { k with reports := [0], quar := [1] }).m.die 0).camp.quar = 1 :: [] ∧
    ((campSt ballocOp id id).m.slotRead 0 0 0).quar = false := by decide

theorem witness_CampanileAppliesOperations_begin :
    (let m1 := (campSt ballocOp id id).m.acceptStep ballocOp
     ballocOp.begun = false ∧ lostPools (campDo m1 ballocOp 2).m = [] ∧ (campDo m1 ballocOp 2).check = [] ∧
     stepHandles (campSt ballocOp id id).m ballocOp = []) := by decide

/-- A BTAPP of one handle of die 1 into slot 0, which is open, on an enabled Campanile. -/
def appOp : Op := anOp (.btapp nt 4) 0 .campanile (blkWords 8 [(0, 2 ^ 21 + 2 ^ 32), (3, 0x2000)])
def appSt : State := on (campSt appOp id fun k => { k with sdbase := 0x400000002000 }) fun m =>
  { (m.onCore 0 fun c => { c with spad := Memory.write [] 0x2000 (leBytes 4 0x40000001) }) with dev := Memory.write [] 0x400000002000 (⟨0x400000003000, 8, 0, 0, 0, true, false, 0, 0⟩ : Slot).bytes }

theorem witness_CampanileAppliesOperations_remote :
    let m1 := (appSt.m.dequeue appOp.core appOp.ctx (.op appOp.id)).acceptStep appOp
    unitActsOn appSt 0 .campanile appOp ∧ campN m1 appOp = some 1 ∧ open' appSt.m appOp.core appOp.ctx ∧
    (campDo m1 appOp 1).check = [0x40000001] ∧ lostPools (campDo m1 appOp 1).m = [] := by decide

theorem witness_CampanileAppliesOperations_answered :
    let o := { appOp with begun := true, handles := [(0, 0x40000001)], elems := [(0, 1)], sdesc := [1] }
    let s := on (campSt o id fun k => { k with sdbase := 0x400000002000 }) fun m => { m with dev := Memory.write [] 0x400000002000 (⟨0x400000003000, 8, 0, 0, 0, true, false, 0, 0⟩ : Slot).bytes }
    unitActsOn s 0 .campanile o ∧ campInstr o.instr = true ∧ o.begun = true ∧
    lostPools (appList s.m o (o.handles.map (·.2)) (o.elems.map fun e => (e.1, e.2 % 256))).m = [] := by decide

theorem witness_CampanileAppliesOperations_sound : sound (campSt ballocOp id id).m := by
  have h := sound_st (fo := .unit 0 .campanile) (f := id) (by decide)
  intro k; exact h k

/-- Lantern of die 0 running a program of one rank. -/
def lanSt (r : LnRun) (f : Lantern → Lantern) : State := on (st (.unit 0 .lantern) id) fun m => m.onLan 0 fun l => f { l with en := true, run := some r }

/-- A run of the given words whose single rank is this package's die 0. -/
def lnr (ws : List Word) (pc : Nat) : LnRun :=
  ⟨⟨0, 0, 0, 0, 0x1000, blkWords 8 [(4, 0x10000)]⟩, ws, [0x1000], [], 0, pc, Vector.replicate 3 0, false, 0, false, 0, none, none⟩

/-- A data step with every field zero. -/
def lnD : LnData := { cv := 0, par := false, ls := 3, px := false, pa := 0, pb := 0, ck := false, ca := 0, cb := 0, d := 0, ch := 0, rop := 0 }

theorem witness_LanternRunsItsProgram :
    lanternRuns (lanSt (lnr [] 0) id) 0 (lnr [] 0) ∧
    loopBefore [0x7000000000000002, 0x8000000000000000] 0 1 = some (0, 2) ∧
    (let s := lanSt (lnr [] 0) id
     s.m.cellCore 0 ((0x00C02000 : BitVec 32).setWidth 64) = some 0 ∧ open' s.m 0 (lnr [] 0).prog.ctx ∧
     s.m.cellCore 0 ((0x01C02000 : BitVec 32).setWidth 64) = some 1 ∧ s.m.admits 1 (lnr [] 0).prog.ctx (.lan 0) = false ∧
     (Memory.readW (s.m.core 0).spad 0x2000).getLsbD 63 = false ∧ (Memory.readW (s.m.core 0).spad 0x2000).getLsbD 63 ≠ true) ∧
    ((lnr [] 0).got = false ∧ ((lanSt (lnr [] 0) id).m.die 0).lan.arr[0] = ((lanSt (lnr [] 0) id).m.die 0).lan.con[0]) ∧
    (let s := lanSt (lnr [] 0) fun l => { l with arr := Machine.put l.arr 0 1 }
     (s.m.die 0).lan.arr[0] ≠ (s.m.die 0).lan.con[0] ∧ lnD.cv = 0) ∧
    ((lanSt { lnr [] 0 with idx := 2 } id).m.sending 1 = false) ∧
    lnPeer (lnr [] 0) lnD = some (0, 0) ∧ lnPeer { lnr [] 0 with ranks := [0] } lnD = none ∧
    (let p : LnProg := (lnr [] 0).prog
     let s := on (st .none id) fun m => m.onLan 0 fun l => { l with queue := [p] }
     (s.m.die 0).lan.queue = p :: [] ∧ (s.m.die 0).lan.run = none ∧ (s.m.die 0).lan.en = false) ∧
    (let o := anOp (.lnstat nt 4) 0 .lantern (blkWords 8 [])
     unitActsOn (unSt .lantern o id) 0 .lantern o ∧ o.ctx = ((unSt .lantern o id).m.die 0).lan.lctx) := by decide

/-- A ready module whose Lantern's heap is tensor 1: one tile of 65,536 bytes, present at frame 0 of the pool. -/
def heapSt (r : LnRun) : State :=
  on (lanSt r fun l => { l with heapt := 1 }) fun m =>
    { m.onCtx 0 fun x => { x with tdbase := 0x400000000000 } with
      dev := Memory.write (Memory.write [] 0x400000000020 (leBytes 8 0x400000010000 ++ leBytes 8 (65536 + 2 ^ 32) ++ leBytes 8 272))
        0x400000010000 (leBytes 8 (3 + 64 * 32)) }

/-- A ready module with a few of its parts changed. -/
def ready0 (f : Mach → Mach) : State := on (st .none id) f

theorem witness_PowerAndBoot :
    (State.reset.boot.powered = true ∧ { State.reset with boot := { Boot.reset with powered := false } }.boot.powered = false) ∧
    (State.reset.boot.state = 0 ∧ (ready0 id).boot.state ≠ 0 ∧ State.reset.m.devGlitch = []) ∧
    (let s : State := { State.reset with boot := { Boot.reset with state := 1 } }
     s.boot.powered = true ∧ s.boot.state = 1 ∧ headerGood s = false) ∧
    ((ready0 id).boot.state = 2 ∧ (ready0 id).boot.attest = none ∧ (1 : Fin 4) ≠ 0) ∧
    ({ ready0 id with boot := { (ready0 id).boot with attest := some 0x1000 } }.boot.attest = some 0x1000) := by decide

theorem witness_HostWindowsWrite :
    ((3 : BitVec 20).toNat % Size.bytes .b8 ≠ 0) ∧ (writes (ready0 id) .host 63 ∧ (ready0 id).boot.powered = true) ∧
    (((ready0 fun m => m.onCtx 5 fun x => { x with secure := true }).m.ctx 5).secure = true) ∧
    (pageWriteOf .host 5 (.tinv .host 5 0)) ∧
    (4096 * (5 : Fin 64).val ≤ (0x5FF8 : BitVec 20).toNat ∧ (0x5FF8 : BitVec 20).toNat < 4096 * (5 : Fin 64).val + 4096) ∧
    ((ready0 fun m => { m with msiPend := 1 }).m.msiPend.getLsbD 0 = true ∧ (ready0 id).m.msiPend.getLsbD 129 = false) ∧
    (∀ k, k < Size.bytes .b8 → State.reset.m.named (2 ^ 46 + 0xFFF8 + k) = true ∧ State.reset.m.secureAt (2 ^ 46 + 0xFFF8 + k) = false) :=
  ⟨by decide, by decide, by decide, .inl ⟨0, .inr (.inr (.inr (.inl rfl)))⟩, by decide, by decide, by decide⟩

theorem witness_UnitsAreEnabled :
    ((ready0 id).boot.state = 2 ∧ ((ready0 id).m.die 3).camp.en = false ∧ (1 : Word).getLsbD 0 = true ∧ (2 : Word).getLsbD 0 = false) ∧
    (((ready0 fun m => m.onCamp 0 fun k => { k with en := true }).m.die 0).camp.en = true) ∧
    (((ready0 fun m => m.onCup 0 fun k => { k with en := true }).m.die 0).cup.en = true) ∧
    (let q := ((ready0 fun m => m.onCamp 0 fun k => { k with pools := Machine.put k.pools 15 { Pool.reset with nblk := 1 } }).m.die 0).camp.pools[15]
     q.pen = false ∧ (0x810 : Word).getLsbD 11 = true ∧ (0x010 : Word).getLsbD 11 = false ∧
     (ready0 id).m.poolRefused 0 q 0x810 = false ∧ (ready0 id).m.poolRefused 0 q 0x818 = true) := by decide

/-- A run with one descriptor of one U32 element at the heap's start. -/
def heapRun (f : LnRun → LnRun) : LnRun := f { lnr [] 0 with descs := [blkWords 8 [(6, 1 + 10 * 2 ^ 24)]] }

/-- A look at a descriptor, and at a tile, where the cache still holds what it kept, or not. -/
def descBy (m : Mach) (h : Holder) (c : Fin 64) (t : BitVec 20) (b : Bool) : List Word × Mach :=
  match ((m.cache h).findSome? fun e => match e with
    | .desc c' t' w0 w1 w2 w3 => if c' = c && t' = t then some [w0, w1, w2, w3] else none
    | .tile .. => none).filter fun _ => b with
  | some ws => (ws, m)
  | none =>
    let r := m.access c ((m.ctx c).tdbase.toNat + 32 * t.toNat) 32
    let ws := wordsOf 4 r.1
    (ws, r.2.onCache h fun l => .desc c t (blkW ws 0) (blkW ws 1) (blkW ws 2) (blkW ws 3) ::
      l.filter fun e => match e with | .desc c' t' .. => !(c' = c && t' = t) | .tile .. => true)
def tileBy (m : Mach) (h : Holder) (c : Fin 64) (t : BitVec 20) (ttab n : Nat) (b : Bool) : Word × Mach :=
  match ((m.cache h).findSome? fun e => match e with
    | .tile c' t' n' w => if c' = c && t' = t && n' = n then some w else none
    | .desc .. => none).filter fun _ => b with
  | some w => (w, m)
  | none =>
    let r := m.access c (ttab + 8 * n) 8
    let w := BitVec.ofNat 64 (leVal r.1)
    if (m.entryAddr w).isSome then
      (w, r.2.onCache h fun l => .tile c t n w ::
        l.filter fun e => match e with | .tile c' t' n' _ => !(c' = c && t' = t && n' = n) | .desc .. => true)
    else (w, r.2)

/-- A look at n bytes of die 0's heap that lie in one run of one tile. -/
def heapBy (m : Mach) (x n : Nat) (b1 b2 : Bool) : Option (List (Nat × Nat) × Option Nat × Mach) :=
  let l := (m.die 0).lan
  let r := descBy m (.lantern 0) l.lctx l.heapt b1
  match descOf r.1 with
  | none => none
  | some de =>
    if n ≤ de.size - x ∧ n ≤ de.run x then
      let q := tileBy r.2 (.lantern 0) l.lctx l.heapt de.ttab (de.tile x).1 b2
      match q.2.entryAddr q.1 with
      | some a => some ([(a + (de.tile x).2, n)], none, q.2)
      | none => none
    else none

theorem heapLook_of (m : Mach) {x n : Nat} (hn : 0 < n) : ∃ b1 b2, ∀ y, heapBy m x n b1 b2 = some y → m.heapLook 0 x n = y := by
  let l := (m.die 0).lan
  let b1 := Config.cacheHolds m.seq (cacheKey l.heapt 0)
  let r := m.lookDesc (.lantern 0) l.lctx l.heapt
  have hr : descBy m (.lantern 0) l.lctx l.heapt b1 = r := rfl
  cases hd : descOf r.1 with
  | none => refine ⟨b1, b1, fun y hy => ?_⟩; simp only [heapBy] at hy; rw [hr, hd] at hy; cases hy
  | some de =>
    refine ⟨b1, Config.cacheHolds r.2.seq (cacheKey l.heapt ((de.tile x).1 + 1)), fun y hy => ?_⟩
    have ht : tileBy r.2 (.lantern 0) l.lctx l.heapt de.ttab (de.tile x).1 (Config.cacheHolds r.2.seq (cacheKey l.heapt ((de.tile x).1 + 1))) =
      r.2.lookTile (.lantern 0) l.lctx l.heapt de.ttab (de.tile x).1 := rfl
    simp only [heapBy] at hy
    rw [hr, hd] at hy
    simp only at hy
    split at hy
    · rename_i hs
      rw [ht] at hy
      split at hy
      · rename_i a ha
        obtain rfl := Option.some.inj hy
        have hp : r.2.placeOf (.lantern 0) l.lctx l.heapt de x =
            (.at (a + (de.tile x).2), (r.2.lookTile (.lantern 0) l.lctx l.heapt de.ttab (de.tile x).1).2) := by
          simp only [Mach.placeOf]; rw [ha]
        have e : m.heapLook 0 x n = (let q := r.2.piecesTo (.lantern 0) l.lctx l.heapt de (pieceFuel n) x n []; (q.1, q.2.1, q.2.2)) := by
          unfold Mach.heapLook
          simp only
          rw [show m.lookDesc (.lantern 0) (m.die 0).lan.lctx (m.die 0).lan.heapt = r from rfl, hd]
          simp only [Nat.min_eq_left hs.1, Nat.lt_irrefl, if_false]
          rfl
        rw [e, show pieceFuel n = (n / 64 + 1) + 1 + 1 by simp [pieceFuel]]
        simp only [Mach.piecesTo, Nat.pos_iff_ne_zero.1 hn, if_false, hp, Nat.min_eq_left hs.2, Nat.sub_self, if_true]
        rfl
      · cases hy
    · cases hy

/-- Bytes of the heap that are sound. -/
def goodBytes (bs : List (Byte × Bool)) : Bool := bs.all fun b => !b.2

/-- Two looks at the heap of die 0, and the bytes that they find. -/
theorem twoLooks {m : Mach} {x y n : Nat} (hn : 0 < n) (h : ∀ b1 b2 b3 b4,
      ((heapBy m x n b1 b2).any fun p => p.2.1 = none && (heapBy p.2.2 y n b3 b4).any fun q =>
        q.2.1 = none && (let bs := q.2.2.heapRead 0 (trimPieces p.1 n)
          bs.1.length = n && goodBytes bs.1 && goodBytes (bs.2.heapRead 0 (trimPieces q.1 n)).1)) = true) :
    ∃ (ps qs : List (Nat × Nat)) (bs es : List (Byte × Bool)) (m1 m2 m3 m4 : Mach), m.heapLook 0 x n = (ps, none, m1) ∧
      m1.heapLook 0 y n = (qs, none, m2) ∧ m2.heapRead 0 (trimPieces ps n) = (bs, m3) ∧ bs.length = n ∧ (∀ b ∈ bs, b.2 = false) ∧
      m3.heapRead 0 (trimPieces qs n) = (es, m4) ∧ ∀ b ∈ es, b.2 = false := by
  obtain ⟨b1, b2, h1⟩ := heapLook_of m (x := x) hn
  cases e1 : heapBy m x n b1 b2 with
  | none => have := h b1 b2 b1 b2; rw [e1] at this; cases this
  | some p =>
    obtain ⟨b3, b4, h2⟩ := heapLook_of p.2.2 (x := y) hn
    have hh := h b1 b2 b3 b4
    rw [e1, Option.any_some] at hh
    cases e2 : heapBy p.2.2 y n b3 b4 with
    | none => rw [e2] at hh; simp at hh
    | some q =>
      rw [e2] at hh
      simp only [Option.any_some, Bool.and_eq_true, decide_eq_true_eq, goodBytes, List.all_eq_true, Bool.not_eq_true'] at hh
      obtain ⟨hp, hq, ⟨hl, hg⟩, hs⟩ := hh
      exact ⟨p.1, q.1, _, _, p.2.2, q.2.2, _, _, by rw [h1 p e1]; exact Prod.ext rfl (Prod.ext hp rfl),
        by rw [h2 q e2]; exact Prod.ext rfl (Prod.ext hq rfl), rfl, hl, hg, rfl, hs⟩

theorem witness_LanternRunsItsProgram_data :
    (let r := heapRun id
     lanternRuns (heapSt r) 0 r ∧ ldN (lnPlace r lnD).desc = 1 ∧ ldSize (lnPlace r lnD).desc = 4 ∧ r.idx = 0 ∧ r.done = 0 ∧
     lnD.cv = 0 ∧ lnPeer r lnD = some (0, 0)) ∧
    (let r := heapRun id
     let q := (lanSt r id).m.heapLook 0 (lnPlace r lnD).sa 4
     q.2.1 = some 0 ∧ q.1 = []) ∧
    (heapRun fun r => { r with got := true }).got = true := by decide

/-- The places of both looks are byte 0 of the heap, for LNCOPY and LNRRS. -/
theorem witness_LanternRunsItsProgram_heap :
    (lnPlace (heapRun id) lnD).sa = 0 ∧ (lnPlace (heapRun id) lnD).da = 0 ∧
    ∃ (ps qs : List (Nat × Nat)) (bs es : List (Byte × Bool)) (m1 m2 m3 m4 : Mach), (heapSt (heapRun id)).m.heapLook 0 0 4 = (ps, none, m1) ∧
      m1.heapLook 0 0 4 = (qs, none, m2) ∧ m2.heapRead 0 (trimPieces ps 4) = (bs, m3) ∧ bs.length = 4 ∧ (∀ b ∈ bs, b.2 = false) ∧
      m3.heapRead 0 (trimPieces qs 4) = (es, m4) ∧ ∀ b ∈ es, b.2 = false :=
  ⟨by decide, by decide, twoLooks (by decide) (by decide)⟩

/-- A launch block of one node with template 0 at 0x4000_0000_0000. -/
def launchSt (f : Ctx → Ctx) : State := ready0 fun m =>
  { m.onCtx 0 f with
    dev := Memory.write (Memory.write (Memory.write [] 0x400000000000 (leBytes 8 1)) 0x400000000008 (leBytes 8 0x400000001000)) 0x400000000010
      (leBytes 8 0x400000002000) }

theorem witness_LaunchesRunAndEnd :
    (writes (ready0 id) .host 0 ∧ writes (ready0 id) .oculus 0) ∧
    (((ready0 fun m => m.onCtx 0 fun x => { x with run := true }).m.ctx 0).run = true) ∧
    (((launchSt id).m.ctx 0).run = false ∧ ((launchSt id).m.graph 0 0x400000000000).isSome = true ∧ (launchSt id).m.graph 0 0x400000000040 = none) ∧
    ((launchSt id).m.unplaceable 0 0 = false ∧ (ready0 fun m => { m with fuses := { m.fuses with cores := Vector.replicate 4 0 } }).m.unplaceable 0 0 = true) ∧
    ((ready0 fun m => m.onCtx 0 fun x => { x with pendCnt := 3 }).m.ctx 0).pendCnt = (3 : Word).toNat % 256 ∧
    (ready0 id).m.trapped 0 7 = none ∧
    (ready0 id).m.launchOver 0 = false ∧ (ready0 fun m => m.onCtx 0 fun x => { x with run := true, nodes := [⟨0, 0, [], false⟩] }).m.launchOver 0 = false ∧
    (ready0 fun m => m.onCtx 0 fun x => { x with run := true, nodes := [⟨0, 0, [], true⟩] }).m.launchOver 0 = true ∧
    (let p : PendTrap := ⟨0, 5, ⟨.trap, .sc, 0, 0, 0, 0, 0, 0⟩⟩
     ((ready0 fun m => m.onCtx 0 fun x => { x with pendTraps := [p], trhead := 1 }).m.ctx 0).pendTraps = p :: [] ∧
     (ready0 id).m.getRec p.die p.recId = none) ∧
    (let x := ((ready0 fun m => m.onCtx 0 fun x => { x with coalWin := 1, pendCnt := 1 }).m.ctx 0)
     x.coalCnt ≠ 0 ∧ x.coalWin ≠ 0 ∧ x.pendCnt ≠ 0) := by decide

/-- A kill of context 1 that still waits for the agents of the codes listed. -/
def killSt (l : List (BitVec 16)) : State := ready0 fun m => m.onCtx 1 fun x => { x with killing := true, killOwed := l }

theorem witness_LaunchesRunAndEnd_kill :
    ((killSt [5, 0x100, 0x101]).m.ctx 1).killing = true ∧ ((killSt [5, 0x100, 0x101]).m.ctx 1).killOwed = [5, 0x100, 0x101] ∧
    ((killSt [0x100]).m.ctx 1).killing = true ∧ ((killSt [0x100]).m.ctx 1).killOwed = [0x100] := by decide

theorem witness_LaunchesRunAndEnd_killAck (l : List (BitVec 16)) : (killSt l).m.canAck 1 0x100 = true := by
  unfold Mach.canAck
  rw [show (killSt l).m.outbox = [] from rfl, show (killSt l).m.ops = [] from rfl]
  have : ∀ d, ((killSt l).m.die d).belfry.evicts = [] := fun d => by
    simp [killSt, ready0, on, st, Mach.die, Mach.onCtx, Mach.onCore, Mach.reset, Die.reset, Belfry.reset]
  simp [this]

/-- A record of context 0 on die 0. -/
def aRec (st' : RState) (reason : Nat) : Rec :=
  ⟨0, none, 0, BitVec.ofNat 42 (probeText / 64), 0, 0, 0, 0, 0, 0, st', 0, 0, 0, 0, [0], none, reason, 0, some 7, none, false, none, []⟩

theorem witness_LaunchesRunAndEnd_trapped :
    ((ready0 fun m => m.onDie 0 fun d => { d with recs := [aRec .saved 3] }).m.trapped 0 7).isSome = true := by decide

theorem witness_TasksStartStopAndLeave :
    ((State.reset.m.core 0).task = none) ∧
    (let s := on (st .none fun c => { c with task := none }) fun m =>
       { (m.onDie 0 fun d => { d with recs := [aRec .running 0] }).onCore 0 fun c => { c with task := some { probeTask with running := false } } with
         dev := Memory.write [] (textDesc probeTask.text) (leBytes 8 1) }
     let t := { probeTask with running := false }
     placedOn s.m 0 t (aRec .running 0) ∧ t.members = [0] ∧ t.members.Nodup ∧ (s.m.core 0).task.isSome = true ∧ (aRec .running 0).reason = 0 ∧
     (s.m.ctx t.ctx).busy = false ∧
     descOk (wordsOf 8 (s.m.devRead (s.m.ctx t.ctx).secure (textDesc t.text) 64)) t.entry = true ∧ (aRec .running 2).reason ≠ 0) ∧
    (let s := on (st .none id) fun m => (m.onDie 0 fun d => { d with recs := [aRec .running 2] }).onCore 0 fun c =>
       { c with task := some { probeTask with running := false } }
     let t := { probeTask with running := false }
     placedOn s.m 0 t (aRec .running 2) ∧
     descOk (wordsOf 8 (s.m.devRead (s.m.ctx t.ctx).secure (textDesc t.text) 64)) t.entry = false) := by decide

theorem witness_TasksStartStopAndLeave_ends :
    (let s := st .none id
     (s.m.core 0).task = some probeTask ∧ probeTask.running = true ∧ (s.m.core 0).halt = none ∧ ((s.m.core 0).e .ld).ended = false ∧ (s.m.core 0).leftovers = false) ∧
    (let s := st .none fun c => { c with eng := each c.eng fun x => { x with ended := true } }
     (s.m.core 0).leftovers = false) ∧
    (let s := st .none fun c => { c with eng := each c.eng (fun x => { x with ended := true }), qt := Machine.put c.qt 0 [Tile.zero] }
     (s.m.core 0).leftovers = true) := by decide

theorem witness_TasksStartStopAndLeave_saves :
    ((st .none id).m.atSafePoint 0 = none ∧ ((st .none id).m.core 0).safe = none) ∧
    (let s := st .none fun c => { c with halt := some .yield }
     s.m.saveReason probeTask = some 2 ∧ s.m.openCommands probeTask = false ∧ s.m.inRepetition probeTask = false) ∧
    (let s := st .none fun c => { c with safe := some (0, 0) }
     s.m.saveReason probeTask = some 1 ∧ probeTask.running = true ∧ (s.m.core 0).halt = none) ∧
    (let s := on (st .none fun c => { c with halt := some .yield }) fun m => { m with ops := [anOp (.xcp nt 4 5) 0 (.copy 0) []] }
     s.m.openCommands probeTask = true) := by decide

theorem witness_TasksStartStopAndLeave_deadlock : (st .none id).m.deadlocked 0 = none := by decide

theorem witness_LaunchesRunAndEnd_clocks :
    (let s := on (st .none fun c => { c with owes := some 0 }) fun m => m.onCtx 0 fun x => { x with twdog := 1 }
     (s.m.core 0).task = some probeTask ∧ probeTask.running = true ∧ (s.m.core 0).owes = some 0 ∧ (s.m.core 0).wdog = none ∧
     ¬ (s.m.ctx 0).twdog.toNat ≤ ((s.m.die 0).cycle - 0).toNat) ∧
    (let s := on (st .none fun c => { c with owes := some 0xFFFFFFFFFFFFFFFF }) fun m => m.onCtx 0 fun x => { x with twdog := 1 }
     (s.m.ctx 0).twdog.toNat ≤ ((s.m.die 0).cycle - 0xFFFFFFFFFFFFFFFF).toNat) ∧
    (let s := on (st .none fun c => { c with wdog := some 0xFFFFFFFFFFFFFFFF }) fun m => m.onCtx 0 fun x => { x with twdog := 1 }
     (s.m.core 0).task = some probeTask ∧ (s.m.core 0).wdog = some 0xFFFFFFFFFFFFFFFF ∧ (s.m.core 0).halt = none ∧ (s.m.core 0).safe = none ∧
     ((s.m.core 0).e .sc).ended = false ∧ (s.m.ctx 0).twdog.toNat ≤ ((s.m.die 0).cycle - 0xFFFFFFFFFFFFFFFF).toNat) := by decide

theorem witness_TasksStartStopAndLeave_safePoint :
    (let s := on (st .none fun c => { c with req := true, task := some { probeTask with mapaddr := 0x400000110000, mapcount := 1 } }) fun m =>
       { m with dev := Memory.write [] 0x400000110000 (leBytes 8 0) }
     (s.m.atSafePoint 0).isSome = true) := by decide

theorem witness_TasksStartStopAndLeave_slot :
    (let m := (on (st .none id) fun m => m.onCtx 0 fun x => { x with cur := { x.cur with savebase := 0x400000000000 } }).m
     ∀ o, o < 2 ^ 23 → m.mayTouch (m.ctx 0).secure ((m.ctx 0).cur.savebase.toNat + 2 ^ 23 * (0 : Fin 256).val + o) = true) := by
  intro m
  have hr : m.regions[(0 : Fin 16).val].toList = List.replicate 64 0 := by decide
  intro o ho
  have hs : (m.ctx 0).cur.savebase.toNat = 2 ^ 46 := by decide
  have hc : (m.ctx 0).secure = false := by decide
  have hf : m.frames 1 0 = 786432 := by decide
  have h1 : (2 ^ 46 + 2 ^ 23 * 0 + o) / 2 ^ 46 % 4 = 1 := by omega
  have h2 : toDie ((2 ^ 46 + 2 ^ 23 * 0 + o) / 2 ^ 44) = 0 := by
    rw [show (2 ^ 46 + 2 ^ 23 * 0 + o) / 2 ^ 44 = 4 by omega]; rfl
  have h3 : (2 ^ 46 + 2 ^ 23 * 0 + o) / 2 ^ 16 % 2 ^ 28 < 786432 := by omega
  have hfr : m.frameOf (2 ^ 46 + 2 ^ 23 * 0 + o) = some (0, (2 ^ 46 + 2 ^ 23 * 0 + o) / 2 ^ 16 % 2 ^ 28) := by
    unfold Mach.frameOf
    simp only [h1, h2, hf]
    rw [if_pos (by decide), if_pos h3]; rfl
  rw [hs, hc, Fin.val_zero]
  unfold Mach.mayTouch Mach.named Mach.secureAt
  rw [hfr]
  simp only [hr]
  rw [List.any_replicate]
  simp [secureReg, wb]

/-- A message of the fabric for core 0 of package 0 from package 1. -/
def aMsg (kind : BitVec 4) (bytes : BitVec 16) (addr : BitVec 48) (count : BitVec 32) (payload : List Byte) : FMsg :=
  ⟨kind, 1, 0, 0, 4, bytes, addr, count, 0, 0, false, false, payload, []⟩

theorem witness_MessagesAreTaken :
    (let m := (ready0 id).m
     let x := aMsg 1 1 0x2FFFFF 0 [7]
     let y := aMsg 2 0 0x2FFFF8 0 []
     x.dpkg = m.fabid ∧ x.spkg ≠ m.fabid ∧ lawful m x ∧ onSpad m x ∧ m.admits (coreTo x) x.ctx (.msg x) = true ∧ x.bad = [] ∧
     y.dpkg = m.fabid ∧ y.spkg ≠ m.fabid ∧ lawful m y ∧ onSpad m y ∧ isArrival y = true ∧ m.due y = true ∧ (m.core 0).clean = true) ∧
    (isArrival (aMsg 2 0 0 1 []) = true ∧ (ready0 id).m.due (aMsg 2 0 0 1 []) = false) ∧
    (State.reset.m.admits 0 0 (.msg (aMsg 1 1 0 0 [7])) = false) ∧
    (¬ onSpad (ready0 id).m (aMsg 1 1 0x300000 0 [7]) ∧ ({ aMsg 1 1 0 0 [7] with resv := true } : FMsg).resv = true ∧
      ({ aMsg 1 1 0 0 [7] with sec := true } : FMsg).sec ≠ ((ready0 id).m.ctx 0).secure) ∧
    ((aMsg 0 0 0 0 []).kind = 0 ∧ 8 < (aMsg 9 0 0 0 []).kind.toNat) := by decide

theorem witness_MessagesAreTaken_lantern :
    (((ready0 id).m.die (toDie 0)).lan.en = false) ∧
    (let s := lanSt (lnr [] 0) id
     let d := toDie (aMsg 4 0 0 0 []).dcore.toNat
     (s.m.die d).lan.en = true ∧ (s.m.die d).lan.lctx = (aMsg 4 0 0 0 []).ctx ∧ s.m.due (aMsg 4 0 0 0 []) = true ∧
     s.m.due (aMsg 4 0 0 1 []) = false ∧ s.m.inbox = []) ∧
    (let s := lanSt (lnr [] 0) fun l => { l with lctx := 1 }
     (s.m.die 0).lan.lctx ≠ (aMsg 4 0 0 0 []).ctx) ∧
    (((heapSt (lnr [] 0)).m.heapWrite 0 0xFFFC (payloadOf (aMsg 3 4 0xFFFC 0 [1, 2, 3, 4]))).1 = none) ∧
    (((lanSt (lnr [] 0) id).m.heapWrite 0 0xFFFC (payloadOf (aMsg 3 4 0xFFFC 0 [1, 2, 3, 4]))).1.isSome = true) := by decide

theorem witness_MessagesAreTaken_belfry :
    ((ready0 id).m.matchShard (aMsg 5 0 0 0 []) = none) ∧
    (let y : Shard := ⟨0, 2, 0, 0, 0, 65536, none, [], 0, some [], false⟩
     let s := itSt 0 (1 + 4 * 2 ^ 16) 0 4 id fun b => { b with shards := [y] }
     s.m.matchShard (aMsg 5 64 0 0 []) = some (0, y) ∧
     (aMsg 5 64 0 0 []).addr.toNat / 2 ^ 24 % 16 = objLsh (s.m.objRec (s.m.bslot 0 y.slot).ctx (s.m.itEnt (s.m.bslot 0 y.slot) y.ent).obj) ∧
     (aMsg 5 64 0 0 []).addr.toNat % 2 ^ 24 = (y.rx.getD []).length ∧
     (aMsg 5 64 64 0 []).addr.toNat % 2 ^ 24 ≠ (y.rx.getD []).length) := by decide

/-- A ready module, a NOP of SC placed where core 0 fetches. -/
def nopSt : State := placeWord State.reset 48 (leVal ((encode (.nop nt)).flatMap (leBytes 6)))

theorem witness_StepRunsDecoded :
    nopSt.boot.powered = true ∧ nextMove nopSt = .walk 0 .sc ∧ Executes (begun nopSt).m 0 .sc (.nop nt) := by
  refine ⟨by decide, by decide, ⟨⟨probeTask, by decide, by decide, by decide, by decide, ?_, by decide, by decide⟩, .inr ?_⟩⟩
  · exact ⟨_, by rfl⟩
  · exact ⟨by decide, by decide, by decide, by decide, by decide, by decide, by decide⟩

theorem witness_StepRunsDecoded_stays :
    (let s := { ready0 id with agenda := [.perform 0] }
     s.boot.powered = true ∧ nextMove s = .perform 0 ∧ ((begun s).m.core 0).pend = none) ∧
    (let s := { st .none (fun c => { c with pend := some ⟨0, false, 0x1000, [1, 2], none, none, none⟩ }) with agenda := [.perform 0] }
     ((begun s).m.core 0).pend.isSome = true) ∧
    (let s := { on (st .none fun c => { c with task := some { probeTask with text := 0 } }) id with agenda := [.walk 0 .vx] }
     nextMove s = .walk 0 .vx ∧ (begun s).m.noText { probeTask with text := 0 } (((begun s).m.core 0).e .vx).pc.toNat = true ∧
     (((begun s).m.core 0).e .vx).owed = none ∧ ((begun s).m.core 0).hold = none) ∧
    (let y : OutMsg := ⟨1, 0, false, aMsg 1 1 0 0 [7]⟩
     let s := { on (st .none id) (fun m => { m with outbox := [y] }) with agenda := [.fabricTakes 0] }
     nextMove s = .fabricTakes 0 ∧ (begun s).m.outbox[0]? = some y ∧ y.sent = false ∧ y.msg.dpkg = (begun s).m.fabid) := by decide

theorem witness_StepRunsDecoded_others :
    (let s := { ready0 id with agenda := [.event .bootEnd] }
     s.boot.powered = true ∧ nextMove s = .event .bootEnd) ∧
    (let s := { lanSt (lnr [0x7000000000000002] 0) id with agenda := [.unit 0 .lantern] }
     nextMove s = .unit 0 .lantern ∧ (begun s).m.unitInstr 0 .lantern = some (.lnloop 0 2)) ∧
    (let s := { State.reset with boot := { Boot.reset with powered := false }, agenda := [.event .bootEnd] }
     s.boot.powered = false ∧ nextMove s ≠ .event .powerUp) := by decide

theorem witness_S0ReadsZeroAndDiscards : (Core.reset.ws 0 5).rs 0 = 0 ∧ (Core.reset.ws 31 5).rs 31 = 5 := by decide

theorem witness_DecodeEncode :
    (Instr.add nt 3 4 5).wellFormed = true ∧ namedByBlock (.add nt 3 4 5) = false ∧ owner (.add nt 3 4 5) ∈ [some .sc, some .ld, some .st, some .mx, some .asy] ∧
    (Instr.lnloop 2 0x3FFFFFFF).wellFormed = true ∧ lanternStep (.lnloop 2 0x3FFFFFFF) = true ∧ ∃ w, encode (.lnloop 2 0x3FFFFFFF) = [w] :=
  ⟨by decide, by decide, by decide, by decide, by decide, _, rfl⟩

theorem witness_DecodeEncodeVx : (Instr.vfma nt (.v 31) (.w 7) (.v 0) (.z 1) 7 .bf16).wellFormed = true ∧ owner (.vfma nt (.v 31) (.w 7) (.v 0) (.z 1) 7 .bf16) = some .vx := by
  decide

/-- Every step from reset answers a next state, and nothing runs there. -/
theorem witness_NothingRunsUntilReady : IdleUntilReady State.reset ∧ State.reset.boot.state ≠ 2 := by
  refine ⟨fun _ => ⟨fun g => ?_, fun c => ⟨?_, ?_⟩, rfl, fun d => ?_⟩, by decide⟩ <;>
    simp [State.reset, Mach.reset, Mach.core, Mach.ctx, Mach.die, Core.reset, Ctx.reset, Die.reset, Lantern.reset,
      Cupola.reset, Belfry.reset, BSlot.reset]

theorem witness_EveryInstructionAnswers : bootEvent (.nop nt) = false ∧ bootEvent (.bootgo 0) = true := by decide

theorem witness_ScRegisterFrame :
    mayIssue (.add nt 3 4 5) (scSt []) 0 .sc ∧ arithResult ((scSt []).m.core 0) (.add nt 3 4 5) = some (3, 0) ∧
    mayIssue (.bits nt 1 2 0 63) (scSt []) 0 .sc ∧ (bitResult ((scSt []).m.core 0) (.bits nt 1 2 0 63)).isSome = true := by decide

/-! ## Further clauses -/

theorem witness_RetireMovesOnAndPassesTokens_bodies :
    (let x : EngState := { EngState.reset with pc := 2, loops := [⟨1, 3, 2⟩, ⟨1, 9, 2⟩] }
     x.loops.head? = some ⟨1, 3, 2⟩ ∧ ¬ (x.pc.toNat ≤ 3 ∧ 3 < x.pc.toNat + 1)) ∧
    ((Core.reset.onE .sc fun x => { x with loops := [⟨1, 3, 2⟩, ⟨1, 9, 2⟩] }).transfer .sc 1 noTok 9 true).e .sc =
      { EngState.reset with pc := 9, walk := 1, loops := [⟨1, 9, 2⟩] } := by decide

theorem witness_LoopsOpenBodies_traps :
    (mayIssue (.loop nt 5 4) (scSt []) 0 .sc ∧ mayIssue (.loopR nt 6 4) (scSt [(6, 1)]) 0 .sc) ∧
    (∀ k, ((scSt []).m.core 0).task = some k → ¬ (4 : Int) < (k.nparcel.toNat : Int)) ∧
    (let s := on (scSt [(6, 1)]) fun m => m.onCore 0 fun c => c.onE .sc fun x => { x with loops := List.replicate 4 ⟨0, 3, 2⟩ }
     mayIssue (.loop nt 5 2) s 0 .sc ∧ (5 : BitVec 10) ≠ 0 ∧ 4 ≤ ((s.m.core 0).e .sc).loops.length ∧
     mayIssue (.loopR nt 6 2) s 0 .sc ∧ (s.m.core 0).rs 6 ≠ 0) ∧
    (mayIssue (.loopR nt 6 2) (scSt [(6, 0x100000000)]) 0 .sc ∧ 2 ^ 32 ≤ (((scSt [(6, 0x100000000)]).m.core 0).rs 6).toNat) :=
  ⟨by decide, witness_TransfersResolveOnSc_targets.2.2, by decide, by decide⟩

/-- A load and a store of core 0 that it has presented to its own port. -/
def pendLd : PendAccess := ⟨0, false, 0x2FFFF8, [], some ⟨3, 8, false⟩, none, none⟩
def pendSt : PendAccess := ⟨0, false, 0x2FFFF8, [1, 2], none, some .ld, none⟩

theorem witness_TrapsStopEveryMember_load :
    (let s := st .none fun c => { c with pend := some pendLd, mx := { c.mx with taken := [Tile.zero] } }
     (s.m.core 0).task = some probeTask ∧ ∀ h ∈ probeTask.members, ∀ p, (s.m.core h).pend = some p → p.load.isSome = true) ∧
    (∀ p, ((scSt []).m.core 0).pend = some p → p.load.isSome = true) := by decide

theorem witness_GatheringHoldsEngines_marks :
    (let s := on (scSt []) fun m => m.onCore 0 fun c => { c with pend := some pendSt }
     mayIssue (.fenceRel nt .die) s 0 .sc ∧ (s.m.core 0).pend = some pendSt ∧ pendSt.rel = none) ∧ portWithin 0 pendSt.core .die ∧
    (let s := on (scSt []) fun m => m.onCore 0 fun c => { c with pend := some { pendSt with core := 64 } }
     mayIssue (.fenceRel nt .die) s 0 .sc ∧ (s.m.core 0).pend = some { pendSt with core := 64 }) ∧
    ¬ portWithin 0 64 .die ∧
    (∃ h : Hold, h.kind = .acq ∧ Core.reset.holdOver 0 h = true) ∧
    ((⟨.acq, 1, .die, none⟩ : Hold).kind = .acq ∧ ({ Core.reset with pend := some pendLd } : Core).holdOver 0 ⟨.acq, 1, .die, none⟩ = false ∧
      ({ Core.reset with pend := some pendSt } : Core).holdOver 0 ⟨.acq, 1, .die, none⟩ = true ∧
      ({ Core.reset with pend := some pendSt } : Core).holdOver 0 ⟨.fence, 1, .die, none⟩ = false ∧
      ({ Core.reset with pend := some pendLd } : Core).holdOver 0 ⟨.mark, 1, .core, none⟩ = false) :=
  ⟨by decide, rfl, by decide, by unfold portWithin; decide, ⟨⟨.acq, 1, .die, none⟩, by decide, by decide⟩, by decide⟩

theorem witness_ScalarLoadsReadTheirBytes_performed :
    (let s := st .none fun c => { c with pend := some pendLd }
     (s.m.core 0).pend = some pendLd ∧ pendLd.load = some ⟨3, 8, false⟩) ∧
    sound (st .none fun c => { c with pend := some pendLd }).m := ⟨by decide, sound_st (by decide)⟩

theorem witness_ScalarStoresWrite_order :
    (let m := (scSt []).m
     m.portRank 0 (.op 7) = none ∧
     m.portRank 0 (.eng 0 .sc) = some 1 ∧ (m.core 0).lastReq = none) ∧
    (let m := (st .none fun c => { c with lastReq := some (0, 9) }).m
     (m.core 0).lastReq = some ((m.die (dieOf 0)).cycle, 9) ∧ 0 < 9) ∧
    (let o := anOp (.xcp nt 4 5) 0 (.copy 0) []
     let o' := { anOp (.rgtakeTake nt 4) 0 .gatherer [] with id := 1 }
     let m : Mach := { (scSt []).m with ops := [o, o'] }
     (1 : Fin 256) ≠ 0 ∧ (2 : Fin 256) ≠ 0 ∧ (1 : Fin 256) < 2 ∧ (m.ops.find? fun q => q.id = o.id) = some o ∧
     (m.ops.find? fun q => q.id = o'.id) = some o' ∧ o.unit = .copy 0 ∧ ∀ k, o'.unit ≠ .copy k) := by decide

/-- A record of context 0 on die 0. -/
def joinRec (st' : RState) (join : BitVec 16) : Rec :=
  ⟨0, some 0x400000000000, 0, BitVec.ofNat 42 (probeText / 64), 0, join, 0, 0, 0, 0, st', 0, 0, 0, 0, [], none, 0, 0, none, none, false, none, []⟩

theorem witness_RecordsAreSpawnedAndJoined_join :
    (∀ r ∈ [joinRec .waiting 2, joinRec .waiting 1, joinRec .ready 1, joinRec .waiting 0],
      (on (st .none id) fun m => m.onDie 0 fun d => { d with recs := [r] }).m.getRec 0 0 = some r) ∧
    ((joinRec .waiting 2).state = .waiting ∧ 1 < (joinRec .waiting 2).join.toNat) ∧
    ((joinRec .waiting 1).state = .waiting ∧ (joinRec .waiting 1).join = 1) ∧
    (joinRec .ready 1).state ≠ .waiting ∧ (joinRec .waiting 0).join = 0 ∧ (joinRec .waiting 0).addr = some 0x400000000000 := by decide

theorem witness_GpRegistersBelongToTheContext_order :
    (let m := ((ready0 fun m => m.onCtx 0 fun x => { x with gpLast := some (0, gpCore 1) }).m)
     (m.ctx 0).gpLast = some ((m.die 0).cycle, gpCore 1) ∧ gpHost < gpCore 1) ∧ ((ready0 id).m.ctx 0).gpLast = none := by decide

theorem witness_AddressFaultsTrap_view :
    (let s := on (viewSt (.engine 0 .ld)) fun m => m.onCore 0 fun c => { c with spad := [] }
     mayIssue (.vld nt (.v 4) 2 0 0 .loc .raw) s 0 .ld ∧ ((s.m.core 0).e .ld).job = none ∧ ((s.m.core 0).pat 0 2).rot = 7 ∧
     viewFault ((s.m.core 0).pat 0 2) (.v 4) .loc .raw = none ∧ ldRoom (s.m.core 0) (.v 4) = true ∧ heldBy s.m 0 .ld 0 = false) ∧
    (let s := on (viewSt (.engine 0 .st)) fun m => m.onCore 0 fun c => { c with spad := [] }
     mayIssue (.vst nt (.q 3) 2 0 0 .loc .raw) s 0 .st ∧ ((s.m.core 0).e .st).job = none ∧ ((s.m.core 0).pat 1 2).rot = 7 ∧
     viewFault ((s.m.core 0).pat 1 2) (.q 3) .loc .raw = none ∧ ((s.m.core 0).qt[3]).length = 1) ∧
    (∀ t : Fin 1, ctLook [] 0x10000 (t.val : Int) = none) := by decide

theorem witness_AddressFaultsTrap_viewFault :
    viewFault (((viewSt (.engine 0 .ld)).m.core 0).pat 0 2) (.v 4) .acc .b32 = some .spadRange ∧
    mayIssue (.vld nt (.v 4) 2 0 0 .acc .b32) (viewSt (.engine 0 .ld)) 0 .ld ∧ (((viewSt (.engine 0 .ld)).m.core 0).e .ld).job = none ∧
    viewFault (((viewSt (.engine 0 .st)).m.core 0).pat 1 2) (.q 3) .acc .b32 = some .spadRange ∧
    mayIssue (.vst nt (.q 3) 2 0 0 .acc .b32) (viewSt (.engine 0 .st)) 0 .st ∧ (((viewSt (.engine 0 .st)).m.core 0).e .st).job = none := by decide

theorem witness_AddressFaultsTrap_sound :
    sound (on (viewSt (.engine 0 .ld)) fun m => m.onCore 0 fun c => { c with spad := [] }).m ∧
    (∀ (c : Core) (t : Int) (bs : List Byte), ctLook c.spad 0x10000 t = none → ctWrite c 0x10000 t bs = none) := by
  refine ⟨?_, fun c t bs h => by unfold ctWrite; rw [h]⟩
  have := sound_st (fo := .engine 0 .ld) (f := fun c => { c with
    a := each c.a fun x => Machine.put (Machine.put x 4 0x10000) 5 0x7000000, spad := [], qt := upd c.qt 3 fun _ => [Tile.zero] }) (by decide)
  exact this

theorem witness_VectorLoadsDeliver_registers :
    vldForm (.vld nt (.w 4) 2 0 0 .loc .b32) = some (.w 4, 2, 0, 0, .loc, .b32, none) ∧
    vldForm (.vld nt (.q 2) 2 0 0 .loc .b32) = some (.q 2, 2, 0, 0, .loc, .b32, none) ∧ (2 : Fin 8).val < 4 := ⟨rfl, rfl, by decide⟩

theorem witness_BodiesAndRepetitionsCountDown_jobs :
    (let j : Job := ⟨[], [2, 3], [⟨false, [(0x2FF000, [1, 2])]⟩], [], [], true⟩
     let s := st .none fun c => c.onE .mx fun x => { x with job := some j }
     ((s.m.core 0).e .mx).job = some j ∧ (s.m.core 0).clean = true ∧ j.rows ≠ []) ∧
    (((scSt []).m.core 0).e .ld).rep = 0 := by decide

theorem witness_DrainsDeliverRows_port :
    (let s := mxJob oneRow (mxSt 1 0x1000 [] id)
     jobAt s 0 .mx oneRow ∧ oneRow.reads = [] ∧ oneRow.rows = 0 :: [] ∧ oneRow.writes = [] ∧ s.m.portFull (dieOf 0) = false ∧
     drainOk (s.m.core 0) 0 1 = true) ∧
    (let s := on (mxJob oneRow (mxSt 1 0x1000 [] id)) fun m => m.onCup 0 fun u =>
       { u with en := true, bufs := (List.range 64).map fun k => ⟨BitVec.ofNat 16 k, 0, [], 0⟩ }
     jobAt s 0 .mx oneRow ∧ drainOk (s.m.core 0) 0 1 = true ∧ (s.m.die (dieOf 0)).cup.en = true ∧ s.m.portFull (dieOf 0) = true) := by decide

theorem ratOf_ne {x : Exact} (h : x.man ≠ 0) : ratOf x ≠ 0 := by
  have h2 : (2 : ℚ) ^ x.exp ≠ 0 := zpow_ne_zero _ (by norm_num)
  have hm : (x.man : ℚ) ≠ 0 := by exact_mod_cast h
  unfold ratOf; split <;> simp [h2, hm]
theorem ratOf_zero {x : Exact} (h : x.man = 0) : ratOf x = 0 := by unfold ratOf; simp [h]

theorem witness_DrainsDeliverRows_epilogue :
    (let v := Core.reset.env .mx 2
     let ep := Core.reset.mx.epi
     (127 : Nat) < 128 ∧ (∃ x, f32 0x3F800000 = .fin x) ∧ (∃ x, f32 0x80000000 = .fin x) ∧ (∃ n, f32 0x7FC00001 = .nan n) ∧
     (∃ neg, f32 0xFF800000 = .inf neg) ∧ (∃ d, f32 (f32Add (v.dv 127) 0x3F800000 0) = .fin d ∧ ratOf d ≠ 0) ∧
     (∃ d, f32 (f32Add (v.dv 127) 0 0) = .fin d ∧ ratOf d = 0) ∧ ep.ben = false) := by
  refine ⟨by decide, ⟨_, rfl⟩, ⟨_, rfl⟩, ⟨_, rfl⟩, ⟨_, rfl⟩, ⟨_, rfl, ?_⟩, ⟨_, rfl, ?_⟩, rfl⟩
  · exact ratOf_ne (by decide)
  · exact ratOf_zero (by decide)
theorem witness_CopyCommandsIssue_full :
    (let s := on (blkSt [] id) fun m => { m with ops := List.replicate 64 (anOp (.xcp nt 4 5) 0 (.copy 0) []) }
     engineFull s.m 0 = true) := by decide

theorem witness_CopyCommandsIssue_fullMay :
    (let s := on (asSt 0x1000 0 fun c => { c with vbuf := some Tile.zero }) fun m => { m with ops := List.replicate 64 (anOp (.xcp nt 4 5) 0 (.copy 0) []) }
     mayIssue (.xcp nt 4 5) s 0 .asy ∧ mayIssue (.vatomAdd nt 4 (.v 1)) s 0 .asy ∧ (s.m.core 0).vbuf.isSome = true ∧ blockOk s.m 0 256) := by decide

theorem witness_CopyCommandsIssue_stops :
    (let s := asSt 0x1020 0 id
     mayIssue (.xcp nt 4 5) s 0 .asy ∧ mayIssue (.xatomAdd nt 4 5) s 0 .asy ∧ (s.m.core 0).opSa.toNat % 64 ≠ 0) ∧
    (let s := asSt 0x300000 0 id
     mayIssue (.xcp nt 4 5) s 0 .asy ∧ mayIssue (.xatomAdd nt 4 5) s 0 .asy ∧ (s.m.core 0).opSa.toNat % 64 = 0 ∧ 0x300000 < (s.m.core 0).opSa.toNat + 64) := by decide

theorem witness_CopyCommandsIssue_vectorStops :
    (let s := asSt 0x1020 0 fun c => { c with vbuf := some Tile.zero }
     mayIssue (.vatomAdd nt 4 (.v 1)) s 0 .asy ∧ (s.m.core 0).vbuf.isSome = true ∧ engineFull s.m 0 = false ∧ (s.m.core 0).opSa.toNat % 64 ≠ 0) ∧
    (let s := asSt 0x2FFFC0 0 fun c => { c with vbuf := some Tile.zero }
     mayIssue (.vatomAdd nt 4 (.v 1)) s 0 .asy ∧ (s.m.core 0).opSa.toNat % 64 = 0 ∧ 0x300000 < (s.m.core 0).opSa.toNat + 256) := by decide

/-- Requests of AS of core 0 and of the row logic of Cupola that wait for a slot of ring 3 of core 0. -/
def heWaits : RingWait := ⟨3, .wf, 0, .eng 0 .asy, 0x2FFFF8⟩
def unitWaits : RingWait := ⟨3, .wf, 0, .row 0 5, 0⟩

/-- Ring 3 of core 0 with these two requests, both live. -/
def waitSt (claim pub cons rel : BitVec 32) (l : List RingWait) : State :=
  on (rgSt claim pub cons rel) fun m => (m.onCore 0 fun c => ({ c with ringWaits := l } : Core).onE .asy
    fun x => { x with wait := some ⟨.ring 0 3 .wf, nt, 0⟩ }).onCup 0 fun u => { u with accepted := [⟨0, 5, 0, [], none, none⟩] }

theorem witness_RingsAndTranslationsWork_waits :
    (let m := (waitSt 2 1 0 0 [heWaits, unitWaits]).m
     m.ringFirst 0 3 .wf = some heWaits ∧ m.ringFirst 0 3 .we = none ∧ 0 < ((m.ring 0 3).ppub - (m.ring 0 3).cclaim).toNat ∧
     (m.ring 0 3).ppub ≠ (m.ring 0 3).pclaim) ∧
    (let m := (waitSt 1 1 1 0 [heWaits]).m
     m.ringFirst 0 3 .wf = some heWaits ∧ (m.ring 0 3).ppub = (m.ring 0 3).cclaim ∧ (m.ring 0 3).crel ≠ (m.ring 0 3).cclaim) ∧
    (let m := (waitSt 2 1 0 0 [unitWaits, heWaits]).m
     m.ringFirst 0 3 .wf = some unitWaits) := by decide

theorem witness_RingsAndTranslationsWork_unit : ∀ g e, unitWaits.who ≠ .eng g e := fun _ _ => nofun

theorem witness_RingsAndTranslationsWork_stops :
    (let s := asSt 0 3 id
     (s.m.ring 0 3).nslot = 0 ∧ ringAt s.m (s.m.core 0).opSb = some (0, 3) ∧ heldBy s.m 0 .asy 0 = false ∧ mayIssue (.rngwe nt 4 0x5FFFF) s 0 .asy ∧
     mayIssue (.rngwf nt 4 0x5FFFF) s 0 .asy ∧ mayIssue (.rngpub nt 4) s 0 .asy ∧ mayIssue (.rngrel nt 4) s 0 .asy) ∧
    (let s := blkSt [(0, 2 + 2 ^ 16), (3, 0x2000)] id
     btmBad s.m 0 (blockWords s.m 0 64) 4 true false = false ∧ (blkW (blockWords s.m 0 64) 0).toNat % 2 ^ 11 = 2) := by decide

/-- AS behind a FENCE.REL that SC has completed with a store under way. -/
def relSt : State := on (rgSt 1 0 0 0) fun m => m.onCore 0 fun c =>
  (({ c with pend := some ⟨0, false, 0x3000, [1], none, none, some 0⟩ } : Core).onE .sc fun x => { x with walk := 1 }).onE .asy fun x => { x with walk := 1 }

theorem witness_RingsAndTranslationsWork_release : behindRel (relSt.m.core 0) .asy ∧ acts relSt 0 .asy ∧
    (Instr.rngpub nt 4).wellFormed = true ∧ (Instr.rngrel nt 4).wellFormed = true := ⟨⟨_, 0, rfl, rfl, by decide⟩, by decide⟩

theorem witness_BarriersInitArriveAndWait_release : behindRel (relSt.m.core 0) .asy ∧ acts relSt 0 .asy ∧
    (Instr.barv nt 4).wellFormed = true := ⟨⟨_, 0, rfl, rfl, by decide⟩, by decide⟩

/-- Belfry at the first shard of an entry that moves object 0, with word 0 of its record and its copy state as given,
into its stage copy from the fabric; the stage's stack of free frames holds n. -/
def fillSt (w0 cs n : Nat) (g : Belfry → Belfry) : State :=
  on (itSt 0 (1 + 4 * 2 ^ 16 + 2 ^ 19) 0 0 (fun b => { b with hops := Machine.put b.hops 1 { HopState.reset with seen := true } }) g) fun m =>
    { m.onCtx 0 fun x => { x with otbase := 0x400000002000, nobj := 1, fcnt := Machine.put x.fcnt (stackIx 0 1) (BitVec.ofNat 32 n) } with
      dev := Memory.write (Memory.write m.dev 0x400000002000 (leBytes 8 w0)) 0x400000002020 (leBytes 8 cs) }

/-- The machine after the reads of that shard's start, its table's address, and whether its frames are there. -/
def fillTab (s : State) : Nat := (s.m.noteItin (s.m.bslot 0 0) ((List.range 1).drop 0)).tabOf 0 0 (objTensor (s.m.objRec 0 0) 1)
def fillM (s : State) : Mach := (s.m.noteItin (s.m.bslot 0 0) ((List.range 1).drop 0)).noteReads 0 [(fillTab s + 8 * 0, 8)]
def fillFrames (s : State) : Bool :=
  ((fillM s).absent 0 (fillTab s) [0]).length + (fillM s).promisedFrames 0 0 1 ≤ ((s.m.ctx 0).fcnt[(stackIx 0 1).val]).toNat

theorem witness_BelfryMovesOn_fill :
    (let s := fillSt 1024 0 1 id
     let b := s.m.bslot 0 0
     let e := s.m.itEnt b 0
     b.running = true ∧ (b.hops[1]).stop = none ∧ s.m.nextEnt b 1 (b.hops[1]).ent = some 0 ∧ (b.hops[1]).ent = 0 ∧ (b.hops[1]).seen = true ∧
     ItEnt.src e = 4 ∧ ItEnt.dst e = 1 ∧ s.m.inFlight 0 0 1 e.wcls = 0 ∧ objPoison (s.m.objRec 0 (ItEnt.obj e)) = false ∧
     shardTiles (s.m.objRec 0 (ItEnt.obj e)) e 0 = [0]) := by decide
theorem witness_BelfryMovesOn_fillPoison :
    (let s := fillSt 3072 0 1 id
     objPoison (s.m.objRec 0 0) = true ∧ objOwner (s.m.objRec 0 0) = 0 ∧ s.m.arbiter 0 (hopRank 0 0 0 2 0 0) = true) ∧
    (let s := fillSt 3072 0 1 fun b => { b with last := some (0, 2 ^ 60) }
     objPoison (s.m.objRec 0 0) = true ∧ s.m.arbiter 0 (hopRank 0 0 0 2 0 0) = false) := by decide

theorem witness_BelfryMovesOn_fillWaits :
    (let s := fillSt 1024 0 0 id
     objPoison (s.m.objRec 0 0) = false ∧ fillFrames s = false) ∧
    (let s := fillSt 1024 0 1 fun b => { b with last := some (0, 2 ^ 60) }
     objPoison (s.m.objRec 0 0) = false ∧ fillFrames s = true ∧ s.m.arbiter 0 (hopRank 0 0 0 2 0 0) = false) ∧
    (let s := fillSt 1024 0 1 fun b => { b with fills := [⟨0, 0, 1, 0, 0, 0⟩] }
     objPoison (s.m.objRec 0 0) = false ∧ fillFrames s = true ∧ s.m.fillTurn 0 ⟨0, 0, 1, 0, 0, 1⟩ = false) := by decide

theorem witness_BelfryMovesOn_fillAsked :
    (let s := fillSt 1024 0 1 id
     objPoison (s.m.objRec 0 0) = false ∧ fillFrames s = true ∧ s.m.arbiter 0 (hopRank 0 0 0 2 0 0) = true ∧
     s.m.fillTurn 0 ⟨0, 0, 1, 0, 0, 1⟩ = true ∧ csState (((fillM s).accepts 0 (hopRank 0 0 0 2 0 0)).cs 0 0 1) ≠ 3) ∧
    (let s := fillSt 1024 7 1 id
     objPoison (s.m.objRec 0 0) = false ∧ fillFrames s = true ∧ s.m.arbiter 0 (hopRank 0 0 0 2 0 0) = true ∧
     s.m.fillTurn 0 ⟨0, 0, 1, 0, 0, 1⟩ = true ∧ csState (((fillM s).accepts 0 (hopRank 0 0 0 2 0 0)).cs 0 0 1) = 3 ∧
     csRet (((fillM s).accepts 0 (hopRank 0 0 0 2 0 0)).cs 0 0 1) = true) ∧
    (let m := (fillSt 1024 3 1 id).m
     csState (m.cs 0 0 1) = 3 ∧ csRet (m.cs 0 0 1) = false) := by decide
/-- A shard of that entry whose data has come, of n bytes in all. -/
def landing (n : Nat) : Shard := ⟨0, 1, 0, 0, 0, n, none, [], 0, some [7], false⟩

theorem witness_BelfryMovesOn_lands :
    (let s := fillSt 1024 0 0 fun b => { b with shards := [landing 2] }
     (s.m.die 0).belfry.shards[0]? = some (landing 2) ∧ (s.m.bslot 0 0).running = true ∧ ((s.m.bslot 0 0).hops[1]).stop = none ∧
     ([7] : List Byte).length < (landing 2).bytes) ∧
    (let s := fillSt 1024 0 0 fun b => { b with shards := [landing 1] }
     (s.m.die 0).belfry.shards[0]? = some (landing 1) ∧ ItEnt.leader (s.m.itEnt (s.m.bslot 0 0) 0) = false ∧ (landing 1).claim = none ∧
     (s.m.noteItin (s.m.bslot 0 0) [0]).popFrame 0 0 1 = none) ∧
    (let s := fillSt 1024 0 1 fun b => { b with shards := [landing 1] }
     ((s.m.noteItin (s.m.bslot 0 0) [0]).popFrame 0 0 1).isSome = true ∧ (s.m.devW false (fillTab s)) = 0) := by decide

theorem witness_BelfryMovesOn_landsInRing :
    (let x : Shard := ⟨0, 2, 0, 0, 0, 1, some 0, [], 0, some [7], false⟩
     let s := itSt 0 (1 + 4 * 2 ^ 16) 0 0 id fun b => { b with shards := [x] }
     let e := s.m.itEnt (s.m.bslot 0 0) 0
     (s.m.die 0).belfry.shards[0]? = some x ∧ ((s.m.bslot 0 0).hops[2]).stop = none ∧ ItEnt.leader e = false ∧
     (s.m.die 0).belfry.shards.head? = some x ∧ s.m.admits (ItEnt.rcore e) 0 (.shard 0 0 2 0 0) = true) ∧
    (let x : Shard := ⟨0, 2, 0, 0, 0, 1, some 0, [], 0, some [7], false⟩
     let s := itSt 0 (1 + 4 * 2 ^ 16) (2 ^ 33) 0 id fun b => { b with shards := [x] }
     let e := s.m.itEnt (s.m.bslot 0 0) 0
     (s.m.die 0).belfry.shards.head? = some x ∧ ItEnt.rcore e = 1 ∧ s.m.admits (ItEnt.rcore e) 0 (.shard 0 0 2 0 0) = false) := by decide

theorem witness_BelfryMovesOn_tiles :
    (let m := (fillSt 1024 0 1 id).m
     (m.entryAddr (m.devW (m.sec 0) (0x400000003000 + 8 * 0))).isSome = false ∧
     ((m.noteReads 0 [(0x400000003000 + 8 * 0, 8)]).popFrame 0 0 1).isSome = true) ∧
    (let m := (fillSt 1024 0 0 id).m
     ((m.noteReads 0 [(0x400000003000 + 8 * 0, 8)]).popFrame 0 0 1).isSome = false) ∧
    (let m := (heapSt (lnr [] 0)).m
     (m.entryAddr (m.devW (m.sec 0) (0x400000010000 + 8 * 0))).isSome = true) := by decide

theorem witness_BelfryMovesOn_barrier :
    (ItEnt.ben [0, 0, 0, 0] = false) ∧
    (let m := (st .none id).m
     let e : ItEnt := [0, 0, 0x100002000, 0]
     ItEnt.ben e = true ∧ m.barOf 0 (ItEnt.bar e) true = some (0, 0x2000) ∧ m.admits 0 0 (.ent 0 0) = true) ∧
    (let m := (st .none id).m
     let e : ItEnt := [0, 0, 0x101C02000, 0]
     ItEnt.ben e = true ∧ m.barOf 0 (ItEnt.bar e) true = some (1, 0x2000) ∧ m.admits 1 0 (.ent 0 0) = false) := by decide

theorem witness_BelfryMovesOn_finish :
    (let x : Shard := ⟨0, 2, 0, 0, 0, 65536, none, [], 1, none, false⟩
     let m := (itSt 0 1 0 0 id fun b => { b with shards := [x] }).m
     x.ent < ((m.bslot 0 0).ents).length ∧ lastShard (m.bslot 0 0) x (m.itEnt (m.bslot 0 0) 0) = true ∧ (m.bslot 0 0).running = true) ∧
    (let x : Shard := ⟨0, 2, 0, 0, 0, 65536, none, [], 1, none, false⟩
     let m := (itSt 0 2 0 0 id fun b => { b with shards := [x] }).m
     lastShard (m.bslot 0 0) x (m.itEnt (m.bslot 0 0) 0) = false) ∧
    (let e : Evict := ⟨0, 1, 0, [(1, 2)], true⟩
     let m := (itSt 0 1 0 0 id fun b => { b with evicts := [e] }).m
     (m.die 0).belfry.evicts.find? (·.ret) = some e ∧ e.tiles = [(1, 2)]) := by decide

theorem witness_BelfryMovesOn_sound (g : Belfry → Belfry) : sound (itSt 0 1 0 0 id g).m := by
  have h := sound_st (fo := .none) (f := fun c => { c with rings := Machine.put c.rings 0 ⟨0, 1024, 1, 0, 0, 0, 0, 0, 0⟩ }) (by decide)
  intro k; exact h k

/-- The gatherer at a phase of a push of one row to bucket 1, or of a flush; its buffers are tensor 1, whose first tile
is at the frame given by its table entry. -/
def pushSt (n idx entry : Nat) (core : Fin 256) (g : Gatherer → Gatherer) : State :=
  on (gatSt [(0, n)] (fun o => { o with begun := true, idx := idx, core := core }) fun u => g { u with cfg := some { gcfg with pbar := 0x2000 } }) fun m =>
    { m.onCtx 0 fun x => { x with tdbase := 0x400000000000 } with
      dev := Memory.write (Memory.write [] 0x400000000020 (leBytes 8 0x400000010000 ++ leBytes 8 (65536 + 16 * 2 ^ 32) ++ leBytes 8 272))
        0x400000010000 (leBytes 8 entry) }
def pushOp (n idx : Nat) (core : Fin 256) : Op := gatOp [(0, n)] fun o => { o with begun := true, idx := idx, core := core }
def gcfg2 : GCfg := { gcfg with pbar := 0x2000 }

theorem witness_GathererAppliesCommands_phases :
    (unitActsOn (pushSt 0 0 0 0 id) 0 .gatherer (pushOp 0 0 0) ∧ (pushOp 0 0 0).stop = none ∧ 0 < (pushBuckets gcfg2 (pushOp 0 0 0)).length ∧
      rpN (pushOp 0 0 0).blk = 0) ∧
    (unitActsOn (pushSt 1 0 0 0 id) 0 .gatherer (pushOp 1 0 0) ∧ 0 < (pushBuckets gcfg2 (pushOp 1 0 0)).length ∧ rpN (pushOp 1 0 0).blk ≠ 0 ∧
      (pushSt 1 0 0 0 id).m.admits 0 0 (.op 0) = true) ∧
    (let s := on (pushSt 1 0 0 1 id) fun m => m.onCore 1 fun c => { c with task := some { probeTask with ctx := 1 } }
     unitActsOn s 0 .gatherer (pushOp 1 0 1) ∧ s.m.admits 1 0 (.op 0) = false) ∧
    (unitActsOn (pushSt 1 1 0 0 id) 0 .gatherer (pushOp 1 1 0) ∧ unitActsOn (pushSt 1 2 0 0 id) 0 .gatherer (pushOp 1 2 0) ∧
      unitActsOn (pushSt 1 3 0 0 id) 0 .gatherer (pushOp 1 3 0)) := by decide

theorem witness_GathererAppliesCommands_posts :
    (unitActsOn (pushSt 1 4 0 0 id) 0 .gatherer (pushOp 1 4 0) ∧
      (pushSt 1 4 0 0 id).m.barOf 0 (gcfg2.pbar.setWidth 64) true = some (0, 0x2000) ∧ (pushSt 1 4 0 0 id).m.admits 0 0 (.op 0) = true) ∧
    (let c : GCfg := { gcfg with pbar := 0x01C02000 }
     let s := pushSt 1 4 0 0 fun u => { u with cfg := some c }
     s.m.barOf 0 (c.pbar.setWidth 64) true = some (1, 0x2000) ∧ s.m.admits 1 0 (.op 0) = false) ∧
    (let s := pushSt 1 3 0 0 fun u => { u with dq := List.replicate 256 [] }
     256 ≤ ((s.m.die 0).gat.dq).length) ∧
    (let s := pushSt 1 5 0 0 id
     unitActsOn s 0 .gatherer (pushOp 1 5 0) ∧ ((bktAt gcfg2 (pushOp 1 5 0) 0).val, !((s.m.die 0).gat.fill[(bktAt gcfg2 (pushOp 1 5 0) 0).val])) ∉ (s.m.die 0).gat.held) ∧
    (((pushSt 1 3 0 0 id).m.die 0).gat.dq).length < 256 := by decide

theorem witness_GathererAppliesCommands_rows :
    ((pushSt 1 0 (3 + 64 * 32) 0 id).m.putBatch (pushOp 1 0 0) gcfg2 0 [7]).1 = true ∧
    ((pushSt 1 0 0 0 id).m.putBatch (pushOp 1 0 0) gcfg2 0 [7]).1 = false := by decide

theorem witness_GathererAppliesCommands_tags :
    (let r := (pushSt 1 1 (3 + 64 * 32) 0 id).m.putBatch (pushOp 1 1 0) gcfg2 256 (leBytes 4 7)
     r.1 = true ∧ ((pushSt 1 1 (3 + 64 * 32) 0 id).m.die 0).gat.cnt[1] + 1 ≠ gcfg2.thr) ∧
    (let s := pushSt 1 1 (3 + 64 * 32) 0 fun u => { u with cnt := Machine.put u.cnt 1 3 }
     (s.m.putBatch (pushOp 1 1 0) gcfg2 256 (leBytes 4 7)).1 = true ∧ (s.m.die 0).gat.cnt[1] + 1 = gcfg2.thr) ∧
    (descOf (wordsOf 4 (List.replicate 32 0))).isNone = true ∧
    ((gatSt [(0, 1)] id fun g => { g with cfg := some gcfg }).m.die 0).gat.dq = [] := by decide

/-- An SMBIND of slot 0 for sixteen tokens and a program of one word, as given, at 0x4000_0000_1000; the slow-path ring
is ring 0 of core 0. -/
def bindOp (w5 : Nat) : Op := anOp (.smbind nt 4) 0 .cupola (blkWords 16 [(4, 0x400000001000), (5, 4 * 2 ^ 48), (9, w5)])
def bindSt (w5 word : Nat) (sren : Bool) : State :=
  on (cupSt [(512, word)] (bindOp w5) fun u => { u with sren := sren }) fun m => m.onCore 0 fun c =>
    { c with rings := Machine.put c.rings 0 ⟨0, 2, 1, 0, 0, 0, 0, 0, 0⟩ }

theorem witness_CupolaAppliesCommands_binds :
    (let s := bindSt 15 0 true
     unitActsOn s 0 .cupola (bindOp 15) ∧ slotOpen s.m (bindOp 15) = false ∧ bdBound (s.m.bind 0 0 0) = false ∧
     bindRange s.m (bindOp 15) ((List.range 8).map fun k => blkW (bindOp 15).blk (4 + k)) = true) ∧
    (let s := bindSt 16 0 false
     bindRange s.m (bindOp 16) ((List.range 8).map fun k => blkW (bindOp 16).blk (4 + k)) = false ∧ s.m.slowRing 0 16 = false) ∧
    (let s := bindSt 16 0 true
     let nb := (List.range 8).map fun k => blkW (bindOp 16).blk (4 + k)
     bindRange s.m (bindOp 16) nb = false ∧ s.m.slowRing 0 (bdV nb) = true ∧ bdNw nb = 1 ∧ (blkW (bindOp 16).blk 0).getLsbD 16 = false ∧
     badWord (bdAen nb) [BitVec.ofNat 32 (leVal (((s.m.noteBind 0 0 0).access 0 (bdProg nb) 4).1.take 4))] 0 false false = some 0) ∧
    (let s := bindSt 16 0xF0000000 true
     let nb := (List.range 8).map fun k => blkW (bindOp 16).blk (4 + k)
     badWord (bdAen nb) [BitVec.ofNat 32 (leVal (((s.m.noteBind 0 0 0).access 0 (bdProg nb) 4).1.take 4))] 0 false false = none) := by decide

theorem witness_CupolaAppliesCommands_snapshots :
    (let o := cupOp [(3, 0x2FFF80)]
     let b := (cupSt [(8, 1)] o id).m.bind 0 0 0
     bdBound b = true ∧ bdCtx b = 0 ∧ (blkW o.blk 0).getLsbD 16 = false ∧ (blkW o.blk 3).toNat % 2 ^ 22 % 64 = 0 ∧
     (blkW o.blk 3).toNat % 2 ^ 22 + 128 ≤ 0x300000) ∧
    (let o := cupOp [(3, 0x2FFFC0)]
     0x300000 < (blkW o.blk 3).toNat % 2 ^ 22 + 128) ∧
    (let o := cupOp [(0, 2 ^ 16), (3, 0x2FFFC0)]
     (blkW o.blk 0).getLsbD 16 = true ∧ (blkW o.blk 3).toNat % 2 ^ 22 % 64 = 0 ∧ (blkW o.blk 3).toNat % 2 ^ 22 + 48 ≤ 0x300000) := by decide

/-- A row's run on a machine and a record, with its logits. -/
def lgr (m : Mach) (b : Bind) (xs : List Lane) (cs : Option (Option Coarse)) (kept : List LgTok) (out : Bool) (tok : Option Nat) : LgRun :=
  ⟨m, b, xs, cs, kept, out, tok, 0, false⟩

/-- Findings of a coarse stage, with DF and MS. -/
def found (df ms : Nat) : Coarse := ⟨0x3F800000, 0, 1, 0x3F800000, 0, 0, df, ms, []⟩

theorem witness_CupolaTakesSegmentsAndRunsRows_words :
    (∀ op : Fin 16, (BitVec.ofNat 32 (op.val * 2 ^ 28)).toNat / 2 ^ 28 = op.val) ∧
    (let r := lgr (st .none id).m (blkWords 16 []) [0x3F800000] none [] false none
     r.xs[0]? = some 0x3F800000) ∧
    (let r := lgr (st .none id).m (blkWords 16 []) [] (some none) [] false none
     r.stage.cs.isSome = true ∧ r.tok = none) ∧
    (let r := lgr (st .none id).m (blkWords 16 []) [] (some (some (found 0 0))) [] false (some 3)
     r.stage.cs.any (·.isSome) = true ∧ bdVst r.b = 0) ∧
    (bdVst (blkWords 16 [(8, 8)]) = 2 ∧ bdVst (blkWords 16 [(8, 4)]) = 1 ∧ ¬ bdVpos (blkWords 16 [(8, 4)]) < bdNd (blkWords 16 [(8, 4)])) ∧
    (let r := lgr (on (st .none id) fun m => { m with dev := Memory.write [] 0x400000000000 (leBytes 8 (0x3F800000 * 2 ^ 32)) }).m
       (blkWords 16 [(5, 16), (7, 0x400000000000), (8, 4 + 2 ^ 12)]) [] (some (some (found 0 0))) [] false none
     bdVst r.b = 1 ∧ bdVpos r.b < bdNd r.b ∧ lineOk (bdV r.b) (r.line 0) = true) := by decide

theorem witness_CupolaTakesSegmentsAndRunsRows_counts :
    (let b := blkWords 16 [(1, 0x400000000000 + 4 * 2 ^ 48)]
     ((st .none id).m.addCount 0 b 5 1).isSome = true) ∧
    (let b := blkWords 16 [(1, 0x400000000000 + 0 * 2 ^ 48)]
     let m := (on (st .none id) fun m => { m with dev := Memory.write [] 0x400000000000 (leBytes 8 (7 + 2 ^ 31)) }).m
     (m.addCount 0 b 5 1).isNone = true) ∧
    ((0xE0000040 : BitVec 32).getLsbD 6 = true ∧ (0xE0000000 : BitVec 32).getLsbD 6 = false ∧ (0xE0000040 : BitVec 32).toNat / 2 ^ 28 = 14) := by decide

theorem witness_CupolaTakesSegmentsAndRunsRows_coarse (dv : Lane) (n : Nat) :
    coarse dv n [negInf] = none ∧ (coarse dv n [0x3F800000]).isSome = true := by
  refine ⟨by unfold coarse; rw [if_pos (by decide)], ?_⟩
  unfold coarse; rw [if_neg (by decide)]; rfl

theorem witness_CupolaTakesSegmentsAndRunsRows_cuts :
    (let t : LgTok := ⟨0, 0x3F800000, 2 ^ 40, true⟩
     (lgCut (found 0 0) true 0x70000001 []).isNone = true ∧ (lgCut (found 0 0) false 0x70000001 [t]) = some [t] ∧
     (lgCut (found 0 0) true 0x90003F00 []).isNone = true ∧ (lgCut (found 0 0) false 0x90003F00 [t]) = some [t]) ∧
    (lgShort (found (2 ^ 40) 0) true = true ∧ lgShort (found 0 0) false = false) := by decide

/-- The cut of LGTOPP at 1: the first token's sum meets it, and where the shortlist left tokens out, the row diverts if
it misses. -/
theorem witness_CupolaTakesSegmentsAndRunsRows_topp :
    (∃ x, f32 (lgLane 0x80003F80) = .fin x ∧ x.man * 2 ^ x.exp.toNat * 4 ≤ 4 * 2 ^ (-x.exp).toNat ∧
      ¬ x.man * 2 ^ x.exp.toNat * 4 ≤ 3 * 2 ^ (-x.exp).toNat) ∧
    (0x80003F80 : BitVec 32).toNat / 2 ^ 28 = 8 := ⟨⟨_, rfl, by decide, by decide⟩, by decide⟩

theorem witness_CupolaTakesSegmentsAndRunsRows_draws (r : LgRun) (slot : Nat) :
    (([] : List (Nat × Nat)).map (·.2)).sum = 0 ∧ 0 < ([(5, 1)].map (·.2)).sum ∧
    lgRandom (blkW r.b 4) (bdStep r.b) slot 2 * ([(5, 1)].map (·.2)).sum / 2 ^ 32 < (([(5, 1)].take 1).map (·.2)).sum := by
  refine ⟨rfl, by decide, ?_⟩
  have : lgRandom (blkW r.b 4) (bdStep r.b) slot 2 < 2 ^ 32 := by
    unfold lgRandom wf fld; exact Nat.mod_lt _ (by decide)
  simp only [List.map, List.sum_cons, List.sum_nil, List.take]
  omega

/-- A draft whose q is 0 is accepted where the draft is a candidate, and one that is none is not. -/
theorem witness_CupolaTakesSegmentsAndRunsRows_drafts (u : Nat) :
    (∃ x, f32 0 = .fin x ∧ x.man * 2 ^ x.exp.toNat * (u * 1) < 1 * 2 ^ 32 * 2 ^ (-x.exp).toNat ∧
      ¬ x.man * 2 ^ x.exp.toNat * (u * 1) < 0 * 2 ^ 32 * 2 ^ (-x.exp).toNat) ∧
    lgCands [⟨5, 0x3F800000, 1, true⟩] = [(5, 1)] ∧ 8 < (blkWords 16 []).length ∧ bdVacc (blkWords 16 []) < 15 ∧ bdVpos (blkWords 16 []) < 15 := by
  refine ⟨⟨_, rfl, ?_, ?_⟩, by decide⟩ <;> simp [fld]

/-- Campanile of die 0 with a report and a retired handle, block 0's word as given, where lines of memory stay bad. -/
def repSt (w : Nat) (en : Bool) (bad : List Nat) : State :=
  on (campSt ballocOp id fun k => { k with en := en, reports := [0], quar := [0], sdbase := 0x400000002000 }) fun m =>
    { m.onCtx 0 fun x => { x with secure := true } with dev := Memory.write [] 0x400000001000 (leBytes 4 w), devBad := bad }

theorem witness_CampanileAppliesOperations_lost :
    (let s := on (campSt ballocOp id id) fun m => { m with devBad := [0x400000000000 / 64] }
     unitActsOn s 0 .campanile ballocOp ∧ stepHandles s.m ballocOp = [] ∧ listBytes s.m ballocOp = 0 ∧ (s.m.die 0).camp.en = true ∧
     campN (s.m.acceptStep ballocOp) ballocOp = some 2 ∧ lostPools (campDo (s.m.acceptStep ballocOp) ballocOp 2).m ≠ []) ∧
    (let s := repSt 1 true [0x400000001000 / 64]
     (s.m.die 0).camp.reports = 0 :: [] ∧ lostPools ((s.m.onCamp 0 fun c => { c with reports := [] }).bw 0 0).2 ≠ []) := by decide

theorem witness_CampanileAppliesOperations_reports :
    (∀ w ∈ [0, bwOf 1 false false true false, bwOf 1 false false false false, bwOf 1 true false false false],
      let s := repSt w true []
      (s.m.die 0).camp.reports = 0 :: [] ∧ lostPools ((s.m.onCamp 0 fun c => { c with reports := [] }).bw 0 0).2 = [] ∧
      ((s.m.onCamp 0 fun c => { c with reports := [] }).bw 0 0).1 = w) ∧
    (bwRef 0 = 0 ∧ bwRet (bwOf 1 false false true false) = true ∧ bwRet (bwOf 1 true false false false) = false ∧
      bwCmt (bwOf 1 true false false false) = true ∧ bwCmt (bwOf 1 false false false false) = false) := by decide

theorem witness_CampanileAppliesOperations_quarantine :
    (let s := repSt 1 false []
     (s.m.die 0).camp.quar = 0 :: [] ∧ (s.m.die 0).camp.en = false) ∧
    (let s := repSt 1 true []
     (s.m.die 0).camp.en = true ∧ s.m.devBad = [] ∧ s.m.devGlitch = [] ∧ toCtx (s.m.poolOf 0).ctx.toNat = 0) ∧
    (∀ a n, (repSt 1 true []).m.violates 0 a n = false) ∧
    ((campSt ballocOp id fun k => { k with sdbase := 0x400000002000 }).m.slotRead 0 0 0).quar = false :=
  ⟨by decide, by decide, fun a n => by
    have : (repSt 1 true []).m.sec 0 = true := by decide
    unfold Mach.violates; rw [this]; rfl, by decide⟩

theorem witness_HostWindowsWrite_early :
    writes State.reset .host 63 ∧ writesRegs State.reset .host ∧ State.reset.boot.powered = true ∧ State.reset.boot.state ≠ 2 :=
  ⟨by decide, .inr rfl, by decide, by decide⟩

theorem witness_LaunchesRunAndEnd_forced :
    (let s := on (st .none fun c => { c with wdog := some 0xFFFFFFFFFFFFFFFF, pend := some pendSt }) fun m => m.onCtx 0 fun x => { x with twdog := 1 }
     (s.m.core 0).pend = some pendSt ∧ (pendSt.load.isSome = false ∧ pendLd.load.isSome = true)) := by decide

theorem witness_TasksStartStopAndLeave_resumes :
    (let q := { aRec .running 2 with priv := [privOf Core.reset] }
     let s := on (st .none fun c => { c with task := none }) fun m =>
       { (m.onDie 0 fun d => { d with recs := [q] }).onCore 0 fun c => { c with task := some { probeTask with running := false } } with
         dev := Memory.write [] (textDesc probeTask.text) (leBytes 8 1) }
     let t := { probeTask with running := false }
     placedOn s.m 0 t q ∧ q.reason ≠ 0 ∧ descOk (wordsOf 8 (s.m.devRead (s.m.ctx t.ctx).secure (textDesc t.text) 64)) t.entry = true ∧
     q.priv[(0 : Nat)]? = some (privOf Core.reset)) := by decide

theorem witness_TasksStartStopAndLeave_reads :
    (let c := ((st .none fun c => { c with dirty := 1, badLines := [0, 1] }).m)
     (c.saveReadsAll 0 2 [0]).2 = false) ∧
    (((st .none fun c => { c with dirty := 1 }).m.saveReadsAll 0 2 [0]).2 = true) := by decide

theorem witness_StepRunsDecoded_stores :
    (let s := { st .none (fun c => { c with pend := some pendSt }) with agenda := [.perform 0] }
     nextMove s = .perform 0 ∧ ((begun s).m.core 0).pend = some pendSt ∧ pendSt.load = none) := by decide

theorem witness_GatheringHoldsEngines_swaps :
    (let m := (on (st .none id) fun m => m.onDie 0 fun d => { d with recs := [aRec .running 0] }).m
     ∀ r ∈ (m.die 0).recs, r.state = .running → ∀ k ∈ r.cores, (m.core k).halt ≠ some .swap ∧ (m.core k).halt ≠ some .yield) := by decide

end Sys2Proof.Tests
end

namespace Sys2Proof.Proofs
open Sys2Proof Sys2Proof.Machine Sys2Proof.Claims

/-! ## The state after power-up -/

theorem reset_core (g : Fin 256) : State.reset.m.core g = Core.reset := by simp [State.reset, Mach.reset, Mach.core]
theorem reset_ctx (c : Fin 64) : State.reset.m.ctx c = Ctx.reset := by simp [State.reset, Mach.reset, Mach.ctx]
theorem reset_die (d : Fin 4) : State.reset.m.die d = Die.reset := by simp [State.reset, Mach.reset, Mach.die]

/-- Settles O52: the cores, contexts and dies after power-up are all the reset one. -/
theorem resetValues : Obligations.ResetValues := by
  refine ⟨⟨rfl, rfl, rfl, rfl, rfl, rfl, rfl, rfl, rfl, rfl, rfl, rfl⟩, fun g => ?_, fun c => ?_, fun d => ?_⟩
  · rw [reset_core]
    exact ⟨rfl, fun r => by simp [Core.reset, Ring.reset]⟩
  · rw [reset_ctx]
    simp [Ctx.reset, FaultRec.reset, Latched.reset]
    rfl
  · rw [reset_die]
    simp [Die.reset, Campanile.reset, Cupola.reset, Lantern.reset, Pool.reset]

/-! ## Every instruction answers -/

/-- The machine that instruction i makes of machine m on a module made ready. -/
def machineOf (i : Instr) (s : State) (m : Mach) : Mach :=
  match exec i { s with boot := { s.boot with state := 2 }, m := m } with
  | .next t => t.m
  | _ => m

/-- A write of a register that acts on the machine answers a next state, and leaves the boot logic and the agenda. -/
theorem regWrite_next (ag : Agent) (f : Mach → Mach) (s : State) :
    ∃ t, regWrite ag f s = .next t ∧ t.boot = s.boot ∧ t.agenda = s.agenda := by
  unfold regWrite
  split <;> exact ⟨_, rfl, rfl, rfl⟩

/-- So does each share of a VATOM. -/
theorem vatomParcel_next (i : Instr) (v : VSpec) (s : State) :
    ∃ t, vatomParcel i v s = .next t ∧ t.boot = s.boot ∧ t.agenda = s.agenda := by
  unfold vatomParcel asParcel
  split <;> exact ready_next _ s

/-- An instruction that is no boot event answers a next state, and leaves the boot logic and the agenda: what the dispatch
calls for it is a meaning of the running machine, or a host's write. -/
theorem exec_next_of_not_boot (i : Instr) (s : State) (h : bootEvent i = false) :
    ∃ t, exec i s = .next t ∧ t.boot = s.boot ∧ t.agenda = s.agenda := by
  have running (e : exec i s = ready (machineOf i s) s) :
      ∃ t, exec i s = .next t ∧ t.boot = s.boot ∧ t.agenda = s.agenda := e ▸ ready_next _ s
  cases i with
  | powerUp | powerLoss | restart | functionLevelReset | bootgo | bootEnd | ataddr | attestationReportEnd
  | measurementExtend | registerWrite => exact nomatch h
  | susp ag | coal ag | tresResume ag | tresResumePast ag | tresRetire ag | tresAbort ag | tinv ag | fres ag | kill ag =>
    exact regWrite_next ag _ s
  | campanileEnable ag d v => exact regWrite_next ag (fun m => m.campCfg ag d v) s
  | poolEnable ag d p v | poolDisable ag d p v => exact regWrite_next ag (fun m => m.poolCfg d p v) s
  | cupolaEnable ag d v => exact regWrite_next ag (fun m => m.cupCfg ag d v) s
  | lanternEnable ag d v => exact regWrite_next ag (fun m => m.onLan d fun l => l.setCfg v) s
  | launchAreaWrite x size v =>
    simp only [exec, execLaunchAreaWrite]
    split <;> exact ⟨_, rfl, rfl, rfl⟩
  | msixUnmask n =>
    simp only [exec, execMsixUnmask]
    split <;> exact ⟨_, rfl, rfl, rfl⟩
  | vatomAdd t a v | vatomMin t a v | vatomMax t a v | vatomAnd t a v | vatomOr t a v | vatomXor t a v =>
    exact vatomParcel_next _ v s
  | _ => exact running rfl

/-- A boot event answers a next state. -/
theorem exec_next_of_boot (i : Instr) (s : State) (h : bootEvent i = true) : ∃ t, exec i s = .next t := by
  cases i with
  | powerUp | powerLoss | restart | functionLevelReset | bootgo | ataddr => exact ⟨_, rfl⟩
  | bootEnd =>
    simp only [exec, execBootEnd]
    split <;> exact ⟨_, rfl⟩
  | attestationReportEnd =>
    simp only [exec, execAttestationReportEnd]
    split <;> exact ⟨_, rfl⟩
  | measurementExtend n v =>
    simp only [exec, execMeasurementExtend]
    split <;> exact ⟨_, rfl⟩
  | registerWrite ag w off size v =>
    simp only [exec, execRegisterWrite]
    split <;> exact ⟨_, rfl⟩
  | _ => exact nomatch h

/-- Settles O59: an instruction that is no boot event runs on the machine alone. -/
theorem everyInstructionAnswers : Obligations.EveryInstructionAnswers := by
  intro i s
  cases hi : bootEvent i with
  | false =>
    obtain ⟨t, ht, hb⟩ := exec_next_of_not_boot i s hi
    exact ⟨t, ht, fun _ => hb⟩
  | true =>
    obtain ⟨t, ht⟩ := exec_next_of_boot i s hi
    exact ⟨t, ht, nofun⟩

end Sys2Proof.Proofs

namespace Sys2Proof.Proofs
open Sys2Proof Sys2Proof.Machine Sys2Proof.Claims

/-! ## The issue of a parcel that may issue -/

section issue
variable {i : Instr} {s : State} {g : Fin 256} {e : Engine} {pre : Mach → Option Cause} {eff : Mach → Eff} {fin : Mach → Mach}

theorem illForm_of_wellFormed (h : i.wellFormed = true) : illForm i = none := by simpa [Instr.wellFormed] using h

theorem issue_done {m : Mach} (h : mayIssue i s g e) (hp : pre s.m = none) (he : eff s.m = .done m) :
    issue i g e pre eff fin s.m = fin m := by
  obtain ⟨-, hw, ht, hs⟩ := h
  rw [issue_eff (illForm_of_wellFormed hw) hp ht hs, he]

theorem issue_trap {c : Cause} {code : BitVec 32} {info : Word} (h : mayIssue i s g e) (hp : pre s.m = none)
    (he : eff s.m = .trap c code info) :
    issue i g e pre eff fin s.m = s.m.takeTrap g e c code (infoOr c info i) := by
  obtain ⟨-, hw, ht, hs⟩ := h
  rw [issue_eff (illForm_of_wellFormed hw) hp ht hs, he]

theorem soloParcel_done {pre : Fin 256 → Mach → Option Cause} {eff : Fin 256 → Mach → Eff} {fin : Fin 256 → Mach → Mach} {m : Mach}
    (h : mayIssue i s g e) (hp : pre g s.m = none) (he : eff g s.m = .done m) :
    soloParcel i e (fun g => issue i g e (pre g) (eff g) (fin g)) s = .next (after s (fin g m)) := by
  rw [soloParcel_own h.1.1 h.1.2, issue_done h hp he, after]

end issue

/-! ## Arbiters that accept in order (R11) -/

section turns
variable (m : Mach) (d : Fin 4) (last : Option (Word × Nat)) (r : Nat)

theorem inTurn_eq_false_iff (now : Word) : inTurn last now r = false ↔ outOfTurn last now r := by
  unfold inTurn outOfTurn
  cases last with
  | none => simp
  | some x =>
    obtain ⟨k, q⟩ := x
    by_cases h : k = now <;> simp [h]

theorem inOrder_of_outOfTurn (h : outOfTurn last (m.die d).cycle r) : m.inOrder d last r = oneLater m d := by
  have := (inTurn_eq_false_iff last r _).2 h
  simp [Mach.inOrder, this, oneLater]

theorem inOrder_of_inTurn (h : ¬ outOfTurn last (m.die d).cycle r) : m.inOrder d last r = m := by
  have : inTurn last (m.die d).cycle r = true := by
    simpa using mt (inTurn_eq_false_iff last r _).1 h
  simp [Mach.inOrder, this]

@[simp] theorem oneLater_cycle : ((oneLater m d).die d).cycle = (m.die d).cycle + 1 := by simp [oneLater]

end turns

section gp
variable (m : Mach) (c : Fin 64) (p : Nat)

theorem atGp_of_outOfTurn (h : outOfTurn (m.ctx c).gpLast (m.die 0).cycle p) :
    m.atGp c p = (oneLater m 0).onCtx c fun x => { x with gpLast := some ((m.die 0).cycle + 1, p) } := by
  simp only [Mach.atGp, inOrder_of_outOfTurn m 0 _ p h, oneLater_cycle]

theorem atGp_of_inTurn (h : ¬ outOfTurn (m.ctx c).gpLast (m.die 0).cycle p) :
    m.atGp c p = m.onCtx c fun x => { x with gpLast := some ((m.die 0).cycle, p) } := by
  simp only [Mach.atGp, inOrder_of_inTurn m 0 _ p h]

/-- A GP file that accepts a request changes the clock of die 0 and its own context's record of it. -/
theorem atGp_frame : ∃ y v, m.atGp c p = Mach.onCtx { m with dies := y } c fun x => { x with gpLast := v } := by
  unfold Mach.atGp
  obtain ⟨y, e⟩ := inOrder_frame m 0 (m.ctx c).gpLast p
  rw [e]
  exact ⟨_, _, rfl⟩

end gp

/-- Settles O17: GPGET and GPSET complete after the GP file has accepted them in its order. -/
theorem gpRegistersBelongToTheContext : Obligations.GpRegistersBelongToTheContext := by
  intro t r n s g k hk
  have hc : s.m.ctxOf g = k.ctx := by simp [Mach.ctxOf, hk]
  refine ⟨fun m c p => ⟨atGp_of_outOfTurn m c p, atGp_of_inTurn m c p⟩,
    ⟨fun d => ?_, by decide, fun a b h => ?_⟩, fun h => ?_, fun h => ?_⟩
  · simp only [gpCamp, gpCup, gpHost]; omega
  · simp only [gpCore]; omega
  · have he : execGpget t r n s = _ := soloParcel_done h (by rfl) (by rfl)
    rw [hc] at he
    simp only [exec, he, retireSeq, retired, after, tk, Mach.onCore]
    simp [upd]
  · obtain ⟨y, v, e⟩ := atGp_frame s.m k.ctx (gpCore g)
    refine ⟨(s.m.atGp k.ctx (gpCore g)).onCtx k.ctx fun x => { x with gp := Machine.put x.gp n ((s.m.core g).rs r) }, ?_, ?_⟩
    · have he : execGpset t r n s = _ := soloParcel_done h (by rfl) (by rfl)
      rw [hc] at he
      exact he
    · rw [e]
      refine ⟨rfl, rfl, rfl, rfl, fun c hc => ?_, ?_, fun q hq => ?_⟩
      · rw [onCtx_ctx_ne _ _ _ hc, onCtx_ctx_ne _ _ _ hc]; rfl
      · simp
      · simp [put_other, Fin.val_ne_of_ne hq.symm]
        rfl

end Sys2Proof.Proofs

namespace Sys2Proof.Proofs
open Sys2Proof Sys2Proof.Machine Sys2Proof.Claims

/-! ## Scalar accesses -/

/-- SC presents an access whose address is good and whose port admits it, and goes on (R153, R199). -/
theorem scAccess_presents {i : Instr} {s : State} {g : Fin 256} {a : Fin 32} {fn : BitVec 15} {n : Nat} {bytes : Core → List Byte}
    {load : Option PendLoad} {t : Fin 256} {acc : Bool} {x : Nat} (h : mayIssue i s g .sc)
    (hf : memFault s.m g i = causeOf (scTarget s.m g (effAddr ((s.m.core g).rs a) fn) n))
    (ht : scTarget s.m g (effAddr ((s.m.core g).rs a) fn) n = .ok (t, acc, x)) (hh : heldBy s.m g .sc t = false) :
    scAccess i a fn n bytes load s =
      .next (presented s g i ⟨t, acc, x, bytes (s.m.core g), load, (tk i).sig, none⟩) := by
  have hp : memFault s.m g i = none := by rw [hf, ht]; rfl
  have he := soloParcel_done (pre := fun g m => memFault m g i) (eff := fun g m =>
      match scTarget m g (effAddr ((m.core g).rs a) fn) n with
      | .error c => .fail c
      | .ok (t, isAcc, x) =>
        if heldBy m g .sc t then m.heldAt g .sc t (tk i)
        else .done ((m.unqueue t (m.ctxOf g) (.eng g .sc)).onCore g fun k =>
          { k with pend := some ⟨t, isAcc, x, bytes (m.core g), load, (tk i).sig, none⟩ }))
    (fin := fun g m => m.onCore g fun c => c.retire .sc 1 ⟨(tk i).wait, none⟩)
     h hp (by simp only [ht, hh, Bool.false_eq_true, if_false]; rfl)
  refine Eq.trans he ?_
  simp [presented, after, Mach.onCore, upd]

/-! ## The order of a port (R149) -/

section port
variable (m : Mach) (t g : Fin 256)

theorem noteReq_of_unranked {w : Who} (h : m.portRank t w = none) : m.noteReq t w = m := by simp [Mach.noteReq, h]

theorem noteReq_of_outOfTurn {w : Who} {r : Nat} (h : m.portRank t w = some r)
    (ho : outOfTurn (m.core t).lastReq (m.die (dieOf t)).cycle r) :
    m.noteReq t w = (oneLater m (dieOf t)).onCore t fun c => { c with lastReq := some ((m.die (dieOf t)).cycle + 1, r) } := by
  simp only [Mach.noteReq, h, inOrder_of_outOfTurn m _ _ r ho, Mach.clock, oneLater_cycle]

theorem noteReq_of_inTurn {w : Who} {r : Nat} (h : m.portRank t w = some r)
    (ho : ¬ outOfTurn (m.core t).lastReq (m.die (dieOf t)).cycle r) :
    m.noteReq t w = m.onCore t fun c => { c with lastReq := some ((m.die (dieOf t)).cycle, r) } := by
  simp only [Mach.noteReq, h, inOrder_of_inTurn m _ _ r ho, Mach.clock]

theorem portRank_remote {e : Engine} (h : g ≠ t) : m.portRank t (.eng g e) = some (0x300 + g.val) := by
  simp [Mach.portRank, h]

theorem portRank_op {o : Op} (h : (m.ops.find? fun q => q.id = o.id) = some o) :
    m.portRank t (.op o.id) = some (unitPlace o.die o.unit) := by simp [Mach.portRank, h]

theorem unitPlace_copy (d : Fin 4) (e : Fin 4) : unitPlace d (.copy e) = 0x100 + 0x10 * d.val + e.val := rfl

theorem unitPlace_bounds {d : Fin 4} {u : UnitKind} (h : ∀ e, u ≠ .copy e) :
    0x200 ≤ unitPlace d u ∧ unitPlace d u < 0x300 := by
  have := d.isLt
  cases u with
  | copy e => exact absurd rfl (h e)
  | _ => simp only [unitPlace, unitNo]; omega

/-- A port's own engines come first, then copy engines, the other units, and the engines of other cores, ascending. -/
theorem portRank_ascends {g' : Fin 256} {o o' : Op} {e : Fin 4} (hg : g ≠ t) (hg' : g' ≠ t) (hlt : g < g')
    (ho : (m.ops.find? fun q => q.id = o.id) = some o) (ho' : (m.ops.find? fun q => q.id = o'.id) = some o')
    (hu : o.unit = .copy e) (hu' : ∀ k, o'.unit ≠ .copy k) : ∃ a b c d f u v x y : Nat,
      m.portRank t (.eng t .sc) = some a ∧ m.portRank t (.eng t .ld) = some b ∧ m.portRank t (.eng t .st) = some c ∧
      m.portRank t (.eng t .mx) = some d ∧ m.portRank t (.eng t .asy) = some f ∧ m.portRank t (.op o.id) = some u ∧
      m.portRank t (.op o'.id) = some v ∧ m.portRank t (.eng g .sc) = some x ∧ m.portRank t (.eng g' .sc) = some y ∧
      [a, b, c, d, f, u, v, x, y].Pairwise (· < ·) := by
  refine ⟨1, 2, 3, 4, 5, _, _, _, _, by simp [Mach.portRank], by simp [Mach.portRank], by simp [Mach.portRank],
    by simp [Mach.portRank], by simp [Mach.portRank], portRank_op m t ho, portRank_op m t ho', portRank_remote m t g hg,
    portRank_remote m t g' hg', ?_⟩
  have hv := unitPlace_bounds (d := o'.die) hu'
  have := o.die.isLt
  have := e.isLt
  rw [hu, unitPlace_copy]
  simp
  omega

end port

/-! ## A core of the machine after an update of one -/

section onCore
variable (m : Mach) (g k : Fin 256) (f : Core → Core)

theorem onCore_core_eq : (m.onCore g f).core k = if k = g then f (m.core k) else m.core k := by
  by_cases h : k = g
  · subst h; simp
  · simp [h, onCore_core_ne _ _ _ h]

/-- What the update keeps of a core is kept of every core. -/
theorem onCore_keeps {α : Type} (F : Core → α) (h : ∀ c, F (f c) = F c) : F ((m.onCore g f).core k) = F (m.core k) := by
  rw [onCore_core_eq]; split
  · exact h _
  · rfl

end onCore

section pushTok
variable (c : Core) (e : Engine) (q : Option Engine)

@[simp] theorem pushTok_s : (c.pushTok e q).s = c.s := by obtain ⟨_, _, h⟩ := pushTok_frame c e q; rw [h]
@[simp] theorem pushTok_v : (c.pushTok e q).v = c.v := by obtain ⟨_, _, h⟩ := pushTok_frame c e q; rw [h]
@[simp] theorem pushTok_spad : (c.pushTok e q).spad = c.spad := by obtain ⟨_, _, h⟩ := pushTok_frame c e q; rw [h]
@[simp] theorem pushTok_acc : (c.pushTok e q).acc = c.acc := by obtain ⟨_, _, h⟩ := pushTok_frame c e q; rw [h]
@[simp] theorem pushTok_dirty : (c.pushTok e q).dirty = c.dirty := by obtain ⟨_, _, h⟩ := pushTok_frame c e q; rw [h]
@[simp] theorem pushTok_pend : (c.pushTok e q).pend = c.pend := by obtain ⟨_, _, h⟩ := pushTok_frame c e q; rw [h]
@[simp] theorem pushTok_none : c.pushTok e none = c := rfl

theorem pushTok_tokens_of_room {q : Engine} (h : c.tokens e q < 8) : (c.pushTok e (some q)).tokens e q = c.tokens e q + 1 := by
  simp only [Core.pushTok, if_pos h]
  simp [Core.tokens]

end pushTok

/-! ## The store that SC has presented (R59, R168, R199) -/

/-- A core after a store at its port: of its accumulator store, or of its scratchpad with the dirty bits. -/
def storedAt (acc : Bool) (a : Nat) (bs : List Byte) (c : Core) : Core :=
  if acc then { c with acc := Memory.write c.acc a bs } else c.wspad a bs

theorem portStore_eq_onCore (m : Mach) (t : Fin 256) (acc : Bool) (a : Nat) (bs : List Byte) :
    m.portStore t acc a bs = m.onCore t (storedAt acc a bs) := by cases acc <;> rfl

section storedAt
variable (acc : Bool) (a : Nat) (bs : List Byte) (c : Core)

@[simp] theorem storedAt_s : (storedAt acc a bs c).s = c.s := by cases acc <;> rfl
@[simp] theorem storedAt_v : (storedAt acc a bs c).v = c.v := by cases acc <;> rfl
@[simp] theorem storedAt_eng : (storedAt acc a bs c).eng = c.eng := by cases acc <;> rfl
@[simp] theorem storedAt_tok : (storedAt acc a bs c).tok = c.tok := by cases acc <;> rfl
@[simp] theorem storedAt_pend : (storedAt acc a bs c).pend = c.pend := by cases acc <;> rfl
theorem storedAt_spad : (storedAt acc a bs c).spad = if acc = false then Memory.write c.spad a bs else c.spad := by cases acc <;> rfl
theorem storedAt_acc : (storedAt acc a bs c).acc = if acc = true then Memory.write c.acc a bs else c.acc := by cases acc <;> rfl

theorem dirtyOf_first {n : Nat} (ha : a < 0x300000) (hn : n ≠ 0) : (dirtyOf a n).getLsbD (a / 4096) = true := by
  have hr : a / 4096 < 768 := by omega
  rw [dirtyOf, if_neg hn, BitVec.getLsbD_ofNat]
  simp [hr, Nat.testBit_mul_two_pow]

/-- A store sets the dirty bit of the region of its first byte. -/
theorem storedAt_dirty (ha : a < 0x300000) (hb : bs ≠ []) : (storedAt false a bs c).dirty.getLsbD (a / 4096) = true := by
  have := dirtyOf_first a ha (n := bs.length) (by simpa using hb)
  rw [storedAt, if_neg Bool.false_ne_true, Core.wspad, BitVec.getLsbD_or, this, Bool.or_true]

end storedAt

/-- SC's core once its store has been performed: the token of SIG follows. -/
def afterStored (sig : Option Engine) (c : Core) : Core := ({ c with pend := none } : Core).pushTok .sc sig

/-- The machine once SC of core g has had the store p performed. -/
def storeDone (m : Mach) (g : Fin 256) (p : PendAccess) : Mach :=
  (m.onCore p.core (storedAt p.acc p.addr p.bytes)).onCore g (afterStored p.sig)

theorem performNow_store {m : Mach} {g : Fin 256} {p : PendAccess} (h : (m.core g).pend = some p) (hl : p.load = none) :
    m.performNow g = storeDone m g p := by
  simp only [Mach.performNow, Mach.performStore, h, hl, portStore_eq_onCore]
  rfl


section afterStored
variable (c : Core) (q : Option Engine)

@[simp] theorem afterStored_s : (afterStored q c).s = c.s := pushTok_s ..
@[simp] theorem afterStored_v : (afterStored q c).v = c.v := pushTok_v ..
@[simp] theorem afterStored_spad : (afterStored q c).spad = c.spad := pushTok_spad ..
@[simp] theorem afterStored_acc : (afterStored q c).acc = c.acc := pushTok_acc ..
@[simp] theorem afterStored_dirty : (afterStored q c).dirty = c.dirty := pushTok_dirty ..
@[simp] theorem afterStored_pend : (afterStored q c).pend = none := pushTok_pend ..
theorem afterStored_tokens {q : Engine} (h : c.tokens .sc q < 8) :
    (afterStored (some q) c).tokens .sc q = c.tokens .sc q + 1 := pushTok_tokens_of_room _ _ h

end afterStored

section storeDone
variable (m : Mach) (g k : Fin 256) (p : PendAccess)

/-- What the store and the token keep of a core is kept of every core. -/
theorem storeDone_keeps {α : Type} (F : Core → α) (h : ∀ c, F (storedAt p.acc p.addr p.bytes c) = F c)
    (h' : ∀ c, F (afterStored p.sig c) = F c) : F ((storeDone m g p).core k) = F (m.core k) := by
  rw [storeDone, onCore_keeps _ _ _ _ F h', onCore_keeps _ _ _ _ F h]

/-- Of a core that is not SC's own, what the store keeps is kept. -/
theorem storeDone_keeps_of_ne {α : Type} (F : Core → α) (h : ∀ c, F (storedAt p.acc p.addr p.bytes c) = F c) (hk : k ≠ g) :
    F ((storeDone m g p).core k) = F (m.core k) := by
  rw [storeDone, onCore_core_ne _ _ _ hk, onCore_keeps _ _ _ _ F h]

theorem storeDone_core_self : (storeDone m g p).core g =
    afterStored p.sig ((m.onCore p.core (storedAt p.acc p.addr p.bytes)).core g) := by simp [storeDone]

/-- What the token keeps of a core is, after a store, what the store left of it. -/
theorem storeDone_of_stored {α : Type} (F : Core → α) (h' : ∀ c, F (afterStored p.sig c) = F c) :
    F ((storeDone m g p).core k) = if k = p.core then F (storedAt p.acc p.addr p.bytes (m.core k)) else F (m.core k) := by
  rw [storeDone, onCore_keeps _ _ _ _ F h', onCore_core_eq]
  split <;> rfl

theorem spadByte_storeDone (y : Nat) : spadByte (storeDone m g p) k y =
    if p.acc = false ∧ k = p.core ∧ p.addr ≤ y ∧ y < p.addr + p.bytes.length then p.bytes.getD (y - p.addr) 0
    else spadByte m k y := by
  rw [spadByte, storeDone_of_stored m g k p Core.spad (fun c => afterStored_spad c _), storedAt_spad]
  by_cases hk : k = p.core <;> by_cases ha : p.acc = false <;> simp [hk, ha, read1_write, spadByte]

theorem accByte_storeDone (y : Nat) : accByte (storeDone m g p) k y =
    if p.acc = true ∧ k = p.core ∧ p.addr ≤ y ∧ y < p.addr + p.bytes.length then p.bytes.getD (y - p.addr) 0
    else accByte m k y := by
  rw [accByte, storeDone_of_stored m g k p Core.acc (fun c => afterStored_acc c _), storedAt_acc]
  by_cases hk : k = p.core <;> by_cases ha : p.acc = true <;> simp [hk, ha, read1_write, accByte]

end storeDone

theorem scStore_presents {i : Instr} {s : State} {g : Fin 256} {a b : Fin 32} {fn : BitVec 15} {n : Nat}
    {t : Fin 256} {acc : Bool} {x : Nat} (h : mayIssue i s g .sc)
    (hf : memFault s.m g i = causeOf (scTarget s.m g (effAddr ((s.m.core g).rs a) fn) n))
    (ht : scTarget s.m g (effAddr ((s.m.core g).rs a) fn) n = .ok (t, acc, x)) (hh : heldBy s.m g .sc t = false) :
    scStore i a b fn n s =
      .next (presented s g i ⟨t, acc, x, leBytes n ((s.m.core g).rs b).toNat, none, (tk i).sig, none⟩) :=
  scAccess_presents h hf ht hh

theorem exec_store_presents {i : Instr} {s : State} {g : Fin 256} {a b : Fin 32} {fn : BitVec 15} {n : Nat}
    {t : Fin 256} {acc : Bool} {x : Nat} (h : mayIssue i s g .sc) (hi : storeForm i = some (a, b, fn, n))
    (ht : scTarget s.m g ((s.m.core g).rs a + fn.signExtend 64) n = .ok (t, acc, x)) (hh : heldBy s.m g .sc t = false) :
    exec i s = .next (presented s g i ⟨t, acc, x, leBytes n ((s.m.core g).rs b).toNat, none, (tk i).sig, none⟩) := by
  cases i with
  | sst u a' b' fn' =>
    obtain ⟨rfl, rfl, rfl, rfl⟩ : a' = a ∧ b' = b ∧ fn' = fn ∧ 8 = n := by simpa [storeForm] using hi
    rw [exec, execSst]
    exact scStore_presents h rfl ht hh
  | sstW u a' b' fn' =>
    obtain ⟨rfl, rfl, rfl, rfl⟩ : a' = a ∧ b' = b ∧ fn' = fn ∧ 4 = n := by simpa [storeForm] using hi
    rw [exec, execSstW]
    exact scStore_presents h rfl ht hh
  | _ => exact nomatch hi

/-- Settles O14: SC presents a store by `scAccess_presents`; the port's move is `storeDone`. -/
theorem scalarStoresWrite : Obligations.ScalarStoresWrite := by
  refine ⟨fun i s g a b fn n t acc x h hi ht hh => ?_, fun s g => ⟨fun h => ?_, fun p h => ?_⟩,
    fun m t w => ⟨noteReq_of_unranked m t, fun r h => ⟨noteReq_of_outOfTurn m t h, noteReq_of_inTurn m t h⟩⟩,
    fun m t g g' o o' e hg hg' hlt ho ho' hu hu' => portRank_ascends m t g hg hg' hlt ho ho' hu hu', fun m g p hp hl => ?_⟩
  · exact exec_store_presents h hi ht hh
  · simp [act, Mach.performAccess, h]
  · simp [act, Mach.performAccess, h, after]
  · rw [performNow_store hp hl]
    refine ⟨fun k y => spadByte_storeDone m g k p y, fun k y => accByte_storeDone m g k p y, fun ha hx hb => ?_, ?_,
      fun k hk => storeDone_keeps_of_ne m g k p Core.pend (fun c => storedAt_pend ..) hk, fun q hq ht => ?_, fun hq => ?_,
      fun k => ⟨storeDone_keeps m g k p Core.s (fun c => storedAt_s ..) (fun c => afterStored_s ..),
        storeDone_keeps m g k p Core.v (fun c => storedAt_v ..) (fun c => afterStored_v ..),
        fun hk => ⟨storeDone_keeps_of_ne m g k p Core.eng (fun c => storedAt_eng ..) hk,
          storeDone_keeps_of_ne m g k p Core.tok (fun c => storedAt_tok ..) hk⟩⟩, rfl, rfl, rfl, rfl⟩
    · rw [storeDone_of_stored m g p.core p Core.dirty (fun c => afterStored_dirty ..), if_pos rfl, ha]
      exact storedAt_dirty _ _ _ hx hb
    · rw [storeDone_core_self]; exact afterStored_pend ..
    · have hk := onCore_keeps m p.core g _ (Core.tokens · .sc q)
        (fun c => congrArg (·[(tokIx .sc q).val]) (storedAt_tok p.acc p.addr p.bytes c))
      rw [storeDone_core_self, hq, afterStored_tokens _ (hk ▸ ht)]
      exact congrArg (· + 1) hk
    · have ht := onCore_keeps m p.core g _ Core.tok (fun c => storedAt_tok p.acc p.addr p.bytes c)
      have he := onCore_keeps m p.core g _ Core.eng (fun c => storedAt_eng p.acc p.addr p.bytes c)
      rw [storeDone_core_self, hq]
      exact ⟨ht, he⟩

end Sys2Proof.Proofs

namespace Sys2Proof.Proofs
open Sys2Proof Sys2Proof.Machine Sys2Proof.Claims

/-! ## The issue of a parcel of AS -/

section asParcel
variable {i : Instr} {s : State} {g : Fin 256} {eff : Fin 256 → Mach → Eff} {fin : Fin 256 → Mach → Mach}
  {work : Fin 4 → UnitKind → Mach → Mach}

theorem sigFull_of_asMayIssue (h : asMayIssue i s g) : sigFull s.m g (tk i).sig = false := by
  obtain ⟨-, -, hq⟩ := h
  unfold sigFull
  cases hs : (tk i).sig with
  | none => rfl
  | some q => simpa [Mach.signalling] using hq q hs

theorem asParcel_done {m : Mach} (h : asMayIssue i s g) (hp : asFault s.m g i = none) (he : eff g s.m = .done m) :
    asParcel i eff fin work s = .next (after s (fin g m)) := by
  obtain ⟨⟨⟨hb, hf⟩, hw, ht, hs⟩, ⟨x, hx⟩, -⟩ := id h
  rw [asParcel_go hb hf hw ht (by simp [hx]) (sigFull_of_asMayIssue h) hs hp, he, after]

theorem asParcel_malformed (h : asMayIssue i s g) (hp : asFault s.m g i = none) (he : eff g s.m = .fail .cmdMalformed) :
    asParcel i eff fin work s = .next (asTrap s g i .cmdMalformed) := by
  obtain ⟨⟨⟨hb, hf⟩, hw, ht, hs⟩, ⟨x, hx⟩, -⟩ := id h
  rw [asParcel_go hb hf hw ht (by simp [hx]) (sigFull_of_asMayIssue h) hs hp, he]
  rfl

/-- The trap of a parcel's operands comes before everything else (R94). -/
theorem asParcel_fault {f : Cause} (h : asMayIssue i s g) (hp : asFault s.m g i = some f) :
    asParcel i eff fin work s = .next (asTrap s g i f) := by
  obtain ⟨⟨⟨hb, hf⟩, hw, -, hs⟩, -, -⟩ := h
  rw [asParcel_as hb hf, asIssue, issue_pre (illForm_of_wellFormed hw) hs hp, asTrap, after]

theorem asIssued_eq (h : owner i = some .asy) (m : Mach) : after s (asIssued i g m) = asWent s g i m := by
  rw [asIssued, asy_one_parcel i h, asWent]

end asParcel

/-! ## Blocks -/

section blockFault
variable {x : Word} {n : Nat}

theorem blockFault_align (h : x.toNat % 64 ≠ 0) : blockFault x n = some .align := by
  have : wf x 0 6 ≠ 0 := by simpa [wf, fld] using h
  rw [blockFault, if_pos this]

theorem blockFault_range (h : x.toNat % 64 = 0) (h2 : 0x300000 < x.toNat + n) : blockFault x n = some .spadRange := by
  have : ¬ wf x 0 6 ≠ 0 := by simpa [wf, fld] using h
  rw [blockFault, if_neg this, if_pos h2]

theorem blockFault_none (h : x.toNat % 64 = 0) (h2 : x.toNat + n ≤ 0x300000) : blockFault x n = none := by
  have : ¬ wf x 0 6 ≠ 0 := by simpa [wf, fld] using h
  rw [blockFault, if_neg this, if_neg (by omega)]

end blockFault

/-! ## The commands of units (R173) -/

/-- What AS does with a command of unit u whose operands are there. -/
def commandEff (i : Instr) (n : Nat) (u : UnitKind) (always : Bool) (bad : Mach → Fin 256 → List Word → Bool) (g : Fin 256)
    (m : Mach) : Eff :=
  asBlock m g n fun m base ws =>
    if bad m g ws then .fail .cmdMalformed
    else .done ((if u = .campanile then m else m.takesCmd g u).startOp (mkOp m g i u base ws (always || wb (blkW ws 2) 32)))

section commands
variable {i : Instr} {n : Nat} {u : UnitKind} {always : Bool} {bad : Mach → Fin 256 → List Word → Bool}

theorem unitCommand_owner (h : unitCommand i = some (n, u, always, bad)) : owner i = some .asy := by
  cases i with
  | itbind | itgo | itstat | objplace | objpin | rgcfg | rgtakeTake | rgtakeRelease | smbind | smrun | clrslow | addcnt | clrcnt
  | armv | setstep | smstat | lnstat | balloc | bfree | bref | btopen | btclose | btapp | btfork | bttrim | btcmt | bhfind
  | bhpub => rfl
  | _ => exact nomatch h

/-- The operands of a command trap where its block's address does. -/
theorem unitCommand_asFault (h : unitCommand i = some (n, u, always, bad)) {m : Mach} {g : Fin 256} {x : BitVec 128}
    (hx : (m.core g).outHead .asy = some x) : asFault m g i = blockFault (m.core g).opSa n := by
  cases i with
  | itbind | itgo | itstat | objplace | objpin | rgcfg | rgtakeTake | rgtakeRelease | smbind | smrun | clrslow | addcnt | clrcnt
  | armv | setstep | smstat | lnstat | balloc | bfree | bref | btopen | btclose | btapp | btfork | bttrim | btcmt | bhfind
  | bhpub => cases h; simp [asFault, hx, blockBytes]
  | _ => exact nomatch h

theorem unitParcel_eq {work : Fin 4 → UnitKind → Mach → Mach} (hu : u ≠ .campanile) (s : State) :
    unitParcel i n u bad work s = asParcel i (commandEff i n u false bad) (asIssued i) work s := by
  rw [unitParcel]
  congr 1
  funext g m
  simp [commandEff, hu]

theorem campParcel_eq (s : State) :
    campParcel i s = asParcel i (commandEff i 64 .campanile true fun m g ws => campBad m g i ws) (asIssued i) campWork s := rfl

/-- A command runs as the parcel of AS with the effect above; the unit's own part is `work`. -/
theorem exec_unitCommand (h : unitCommand i = some (n, u, always, bad)) (s : State) :
    ∃ work, exec i s = asParcel i (commandEff i n u always bad) (asIssued i) work s := by
  cases i with
  | itbind | itgo | itstat | objplace | objpin | rgcfg | rgtakeTake | rgtakeRelease | smbind | smrun | clrslow | addcnt | clrcnt
  | armv | setstep | smstat | lnstat => cases h; rw [exec]; exact ⟨_, unitParcel_eq (by decide) s⟩
  | balloc | bfree | bref | btopen | btclose | btapp | btfork | bttrim | btcmt | bhfind | bhpub =>
    cases h; rw [exec]; exact ⟨_, campParcel_eq s⟩
  | _ => exact nomatch h

end commands

section takesIn
variable (m : Mach) (d : Fin 4) (u : UnitKind) (r : Nat)

/-- A unit of die d has accepted, in clock c, what has place r. -/
def tookIn (c : Word) : Mach := m.onDie d fun x => { x with took := Machine.put x.took (unitIx u) (some (c, r)) }

theorem takesIn_of_outOfTurn (h : outOfTurn ((m.die d).took[(unitIx u).val]) (m.die d).cycle r) :
    m.takesIn d u r = tookIn (oneLater m d) d u r ((m.die d).cycle + 1) := by
  simp only [Mach.takesIn, inOrder_of_outOfTurn m d _ r h, oneLater_cycle, tookIn]

theorem takesIn_of_inTurn (h : ¬ outOfTurn ((m.die d).took[(unitIx u).val]) (m.die d).cycle r) :
    m.takesIn d u r = tookIn m d u r (m.die d).cycle := by
  simp only [Mach.takesIn, inOrder_of_inTurn m d _ r h, tookIn]

end takesIn

/-- Settles O31: every command of a unit is the one parcel of `exec_unitCommand`, whose block decides. -/
theorem unitCommandsIssue : Obligations.UnitCommandsIssue := by
  intro i s g n u always bad hi h hm ws now last took m0
  obtain ⟨work, he⟩ := exec_unitCommand hi s
  obtain ⟨x, hx⟩ := h.2.1
  have hf := unitCommand_asFault hi hx
  rw [he]
  refine ⟨fun ⟨ha, hr⟩ hb => ?_, takesIn_of_outOfTurn s.m _ u _, takesIn_of_inTurn s.m _ u _, fun ⟨ha, hr⟩ hb => ?_, fun ha => ?_,
    fun ha hr => ?_⟩
  · rw [asParcel_done (m := m0.startOp (mkOp s.m g i u (s.m.core g).opSa.toNat ws (always || wb (blkW ws 2) 32))) h
      (hf.trans (blockFault_none ha hr)), asIssued_eq (unitCommand_owner hi)]
    rw [commandEff, asBlock_ok ha hr (hm g), if_neg (by simpa [ws, blockWords] using hb)]
    rfl
  · refine asParcel_malformed h (hf.trans (blockFault_none ha hr)) ?_
    rw [commandEff, asBlock_ok ha hr (hm g), if_pos (by simpa [ws, blockWords] using hb)]
  · exact asParcel_fault h (hf.trans (blockFault_align ha))
  · exact asParcel_fault h (hf.trans (blockFault_range ha hr))

end Sys2Proof.Proofs

namespace Sys2Proof.Proofs
open Sys2Proof Sys2Proof.Machine Sys2Proof.Claims

/-! ## What passes between two steps leaves the fuses (R191) -/

theorem foldl_keeps {α β γ : Type} (F : β → γ) {f : β → α → β} (h : ∀ b a, F (f b a) = F b) (l : List α) (b : β) :
    F (l.foldl f b) = F b := by
  induction l generalizing b with
  | nil => rfl
  | cons a l ih => rw [List.foldl_cons, ih, h]

section fuses
variable (m : Mach) (c : Fin 64)

theorem ackOne_fuses (code : BitVec 16) (h : Holder) : (m.ackOne c code h).fuses = m.fuses := by
  cases h <;> rfl

theorem startReturn_fuses (e : Evict) : (m.startReturn e).fuses = m.fuses := by
  rw [Mach.startReturn, Mach.setCs, ctxWrite_fuses]

theorem finishInval_fuses : (m.finishInval c).fuses = m.fuses := by
  unfold Mach.finishInval
  dsimp only
  split
  · rw [foldl_keeps Mach.fuses]
    · rfl
    · intro m d
      rw [foldl_keeps Mach.fuses startReturn_fuses, Mach.onBelfry, onDie_fuses]
  · rfl

theorem settleUnits_fuses : (m.settleUnits c).fuses = m.fuses := by
  rw [Mach.settleUnits, finishInval_fuses, foldl_keeps Mach.fuses]
  intro m p
  dsimp only
  split
  · exact ackOne_fuses ..
  · rfl

theorem settleAll_fuses : (settleAll m).fuses = m.fuses := by
  rw [settleAll, foldl_keeps Mach.fuses]
  intro m c
  split
  · exact settleUnits_fuses ..
  · rfl

theorem turn_fuses : (turn m).fuses = m.fuses := by
  rw [turn, settleAll_fuses, foldl_keeps Mach.fuses (f := clockDie) fun _ _ => rfl]

end fuses

/-! ## The move of an engine -/

section walk
variable {m : Mach} {g : Fin 256} {e : Engine} {i : Instr} {t : CoreTask} {x : EngState}

theorem readParcel_noText (h : m.noText t x.pc.toNat = true) : readParcel m t x e = .stay := by simp [readParcel, h]

/-- The parcel that an engine executes: present, decoded, and its own or shared with it (R45, R51, R93, R95). -/
theorem readParcel_run {rest : List Byte} (hn : m.noText t x.pc.toNat = false)
    (hd : decodeBytes (m.fetch t x.pc.toNat) = .ok (i, rest))
    (hl : bit (leVal ((m.fetch t x.pc.toNat).take 6)) 47 = true →
      x.pc.toNat + 1 ≠ t.nparcel.toNat ∧ m.noText t (x.pc.toNat + 1) = false)
    (ho : fld (leVal ((m.fetch t x.pc.toNat).take 6)) 44 3 = (engIx e).val ∨
      (shares i e = true ∧ (fld (leVal ((m.fetch t x.pc.toNat).take 6)) 44 3 = 0 ∨
        (fld (leVal ((m.fetch t x.pc.toNat).take 6)) 44 3 = 5 ∧ (e = .sc ∨ e = .vx))))) :
    readParcel m t x e = .run i := by
  unfold readParcel
  simp only [hn, hd]
  generalize fld (leVal ((m.fetch t x.pc.toNat).take 6)) 44 3 = eng at *
  have := (engIx e).isLt
  have h6 : ¬ 6 ≤ eng := by omega
  have hread : (decide (eng = (engIx e).val) || decide (eng = 0) || (decide (eng = 5) && (decide (e = .sc) || decide (e = .vx)))) = true := by
    rcases ho with ho | ⟨-, ho | ⟨ho, he | he⟩⟩ <;> simp [*]
  have hmine : (decide (eng = (engIx e).val) || shares i e) = true := by
    rcases ho with ho | ⟨hs, -⟩ <;> simp [*]
  by_cases hb : bit (leVal ((m.fetch t x.pc.toNat).take 6)) 47 = true
  · obtain ⟨hp, hn'⟩ := hl hb
    simp [hb, hp, hn', h6, hread, hmine]
  · simp [hb, h6, hread, hmine]

/-- The engine of `Executes` runs its parcel. -/
theorem walkAct_of_executes (h : Executes m g e i) : walkAct m g e = .run i := by
  obtain ⟨⟨t, ht, hr, hpc, hn, ⟨rest, hd⟩, hl, ho⟩, hmoves⟩ := h
  have hrun := readParcel_run hn hd hl ho
  have hpc' : ¬ t.nparcel.toNat ≤ ((m.core g).e e).pc.toNat := by omega
  have hc : m.ctxOf g = t.ctx := by simp [Mach.ctxOf, ht]
  simp only [walkAct, ht, hr, Bool.true_and, Bool.not_true, Bool.false_or]
  by_cases hj : ((m.core g).e e).job = none
  · obtain hj' | ⟨hh, hw, hen, hpw, hq, hsc, hne⟩ := hmoves
    · exact absurd hj hj'
    · have hq' : (!(m.queued g t.ctx).isEmpty && !((m.core g).e e).presented) = false := by
        rw [hc] at hq
        rcases hq with hq | hq <;> simp [hq]
      simp only [hj, hh, hw, hen, hpw, hq', Option.isSome_none, Bool.or_self, Bool.false_eq_true, if_false]
      by_cases he : e = .sc
      · subst he
        obtain ⟨hhold, hsafe, hreq, hslip⟩ := hsc rfl
        have hreq' : ((m.core g).req && (m.safeAt t ((m.core g).e .sc).pc.toNat).isSome) = false := by
          rcases hreq with hreq | hreq
          · simp [hreq]
          · simp [hreq t ht]
        have hslip' : ¬ (m.core g).slipw.toNat < (m.core g).slip + actLen (.run i) := by rw [actLen]; omega
        simp only [if_true, hhold, hsafe, hpc', hreq', hrun, hslip', if_false, Option.isSome_none, Bool.false_eq_true]
      · simp only [he, hpc', hne he, if_false, hrun]
  · simp [Option.isSome_iff_ne_none.2 hj, hrun]

/-- An engine that owes nothing, and that no hold of SC concerns, stays while a frame of its parcel is not present (R51). -/
theorem walkAct_noText (ht : (m.core g).task = some t) (hw : ((m.core g).e e).owed = none)
    (hpc : ((m.core g).e e).pc.toNat < t.nparcel.toNat) (hn : m.noText t ((m.core g).e e).pc.toNat = true)
    (hh : (m.core g).hold = none) : walkAct m g e = .stay := by
  have hpc' : ¬ t.nparcel.toNat ≤ ((m.core g).e e).pc.toNat := by omega
  simp only [walkAct, ht, readParcel_noText hn, hw, hh, Option.isSome_none, Bool.false_eq_true, if_false]
  by_cases he : e = .sc
  · subst he
    simp only [hpc', if_false, ite_self]
  · simp only [he, hpc', if_false, ite_self]

end walk

theorem walk_run {g : Fin 256} {e : Engine} {i : Instr} {s : State} (h : walkAct s.m g e = .run i) :
    walk g e s = exec (resolve s.m g e i) (focused { s with m := (noteFetch g e s.m).noteTurn g e i } (.engine g e)) := by
  simp only [walk, h]

theorem walk_stay {g : Fin 256} {e : Engine} {s : State} (h : walkAct s.m g e = .stay) : walk g e s = .next s := by
  simp only [walk, h, walkOther]

/-! ## One step -/

section step
variable {s : State}

theorem step_powered (h : s.boot.powered = true) : step s = act (nextMove s) (begun s) := by simp [step, h]

theorem step_unpowered (h : s.boot.powered = false) (hn : nextMove s ≠ .event .powerUp) : step s = .next (begun s) := by
  simp [step, h, hn]

theorem fabricTake_stays {m : Mach} {k : Nat} {o : OutMsg} (ho : m.outbox[k]? = some o) (hs : o.sent = false)
    (h : m.fuses.fab[o.die.val] = 0 ∨ o.msg.dpkg = m.fabid) : fabricTake k m = m := by
  simp only [fabricTake, ho, hs]
  rcases h with h | h <;> simp [h]

theorem resolve_self {m : Mach} {g : Fin 256} {e : Engine} {i : Instr}
    (h : ∀ t a, i ≠ .rgtakeTake t a ∧ i ≠ .clrslow t a) : resolve m g e i = i := by
  unfold resolve
  split
  · rfl
  · dsimp only
    split
    · exact absurd rfl (h _ _).1
    · exact absurd rfl (h _ _).2
    · rfl

end step

/-! ## A port that accepts a request changes its own record of it and its die's clock (R149) -/

section noteReq
variable (m : Mach) (t : Fin 256) (w : Who)

theorem noteReq_cases : m.noteReq t w = m ∨ ∃ v, m.noteReq t w = m.onCore t (fun c => { c with lastReq := v }) ∨
    m.noteReq t w = (oneLater m (dieOf t)).onCore t fun c => { c with lastReq := v } := by
  cases h : m.portRank t w with
  | none => exact .inl (noteReq_of_unranked m t h)
  | some r =>
    by_cases ho : outOfTurn (m.core t).lastReq (m.die (dieOf t)).cycle r
    · exact .inr ⟨_, .inr (noteReq_of_outOfTurn m t h ho)⟩
    · exact .inr ⟨_, .inl (noteReq_of_inTurn m t h ho)⟩

theorem noteReq_keeps {α : Type} (F : Core → α) (h : ∀ (c : Core) v, F { c with lastReq := v } = F c) (k : Fin 256) :
    F ((m.noteReq t w).core k) = F (m.core k) := by
  obtain e | ⟨v, e | e⟩ := noteReq_cases m t w
  · rw [e]
  · rw [e, onCore_keeps _ _ _ _ F fun c => h c v]
  · rw [e, onCore_keeps _ _ _ _ F fun c => h c v]; rfl

theorem noteReq_die (d : Fin 4) : sameButClock (m.die d) ((m.noteReq t w).die d) := by
  obtain e | ⟨v, e | e⟩ := noteReq_cases m t w
  · rw [e]; rfl
  · rw [e]; rfl
  · rw [e, onCore_die, oneLater]
    by_cases hd : d = dieOf t
    · subst hd; rw [onDie_die]; rfl
    · rw [onDie_die_ne _ _ _ hd]; rfl

theorem noteReq_dev : (m.noteReq t w).dev = m.dev := by obtain ⟨_, _, e⟩ := noteReq_frame m t w; rw [e]

end noteReq

/-- The bytes of a store that has been performed read back. -/
theorem read_storeDone (m : Mach) (g : Fin 256) (p : PendAccess) :
    (p.acc = false → Memory.read ((storeDone m g p).core p.core).spad p.addr p.bytes.length = p.bytes) ∧
    (p.acc = true → Memory.read ((storeDone m g p).core p.core).acc p.addr p.bytes.length = p.bytes) := by
  refine ⟨fun h => ?_, fun h => ?_⟩
  · rw [storeDone_of_stored m g _ p Core.spad (fun c => afterStored_spad c _), if_pos rfl, storedAt_spad, if_pos h, read_write_same]
  · rw [storeDone_of_stored m g _ p Core.acc (fun c => afterStored_acc c _), if_pos rfl, storedAt_acc, if_pos h, read_write_same]

theorem storeDone_tok {m : Mach} {g : Fin 256} {p : PendAccess} (h : p.sig = none) :
    ((storeDone m g p).core g).tok = (m.core g).tok := by
  have ht := onCore_keeps m p.core g _ Core.tok (fun c => storedAt_tok p.acc p.addr p.bytes c)
  rw [storeDone_core_self, h]
  exact ht

/-- Settles O53: each move acts as `walkAct`, `unitInstr` or the event says. -/
theorem stepRunsDecoded : Obligations.StepRunsDecoded := by
  refine ⟨fun s g e i hp hm he => ?_, fun s d u i hp hm hi => ?_, fun s i hp hm => ?_, fun s hp hm => step_unpowered hp hm,
    fun s g e t hp hm ht hw hpc hn hh => ?_, fun s g hp hm => ⟨fun h => ?_, fun p h hl => ?_⟩,
    fun s k o hp hm ho hs h => ?_, fun m g e i h => resolve_self h⟩
  · rw [step_powered hp, hm, act, walk_run (walkAct_of_executes he)]
  · rw [step_powered hp, hm, act, unitTurn, hi]
  · rw [step_powered hp, hm, act]
  · rw [step_powered hp, hm, act, walk_stay (walkAct_noText ht hw hpc hn hh)]
  · simp [step_powered hp, hm, act, Mach.performAccess, h]
  · have hq : (((begun s).m.noteReq p.core (.eng g .sc)).core g).pend = some p := by
      rw [noteReq_keeps _ _ _ Core.pend fun _ _ => rfl, h]
    refine ⟨storeDone ((begun s).m.noteReq p.core (.eng g .sc)) g p, ?_, ?_, (read_storeDone _ g p).1, (read_storeDone _ g p).2,
      fun hs => ?_, noteReq_dev .., fun d => noteReq_die ..⟩
    · simp [step_powered hp, hm, act, Mach.performAccess, h, performNow_store hq hl, after]
    · rw [storeDone_core_self]; exact afterStored_pend ..
    · rw [storeDone_tok hs, noteReq_keeps _ _ _ Core.tok fun _ _ => rfl]
  · have hf : (begun s).m.fuses = s.m.fuses := turn_fuses s.m
    rw [step_powered hp, hm, act, fabricTake_stays ho hs (by rwa [hf])]

end Sys2Proof.Proofs

namespace Sys2Proof.Proofs
open Sys2Proof Sys2Proof.Machine Sys2Proof.Claims

/-! ## The engines of one core stop (R54, R72) -/

/-- A core whose engines have stopped: no repetition without effect is issued, and what MMUL had taken is back in Q2. -/
def stoppedCore (c : Core) : Core :=
  ({ c with eng := each c.eng EngState.unissued, mx := { c.mx with present := none } } : Core).untake

section stoppedCore
variable (c : Core) (e : Engine)

@[simp] theorem stoppedCore_s : (stoppedCore c).s = c.s := rfl
@[simp] theorem stoppedCore_v : (stoppedCore c).v = c.v := rfl
@[simp] theorem stoppedCore_task : (stoppedCore c).task = c.task := rfl
@[simp] theorem stoppedCore_pend : (stoppedCore c).pend = c.pend := rfl
@[simp] theorem stoppedCore_halt : (stoppedCore c).halt = c.halt := rfl
@[simp] theorem stoppedCore_taken : (stoppedCore c).mx.taken = [] := rfl
@[simp] theorem stoppedCore_q2 : (stoppedCore c).qt[2] = c.mx.taken ++ c.qt[2] := upd_same c.qt 2 _
@[simp] theorem stoppedCore_e : (stoppedCore c).e e = (c.e e).unissued := each_get _ _ (engIx e).isLt

end stoppedCore

theorem performStore_of_store {m : Mach} {g : Fin 256} {p : PendAccess} (h : (m.core g).pend = some p) (hl : p.load = none) :
    m.performStore g = storeDone m g p := by
  simp only [Mach.performStore, h, hl, portStore_eq_onCore]
  rfl

theorem performStore_of_no_store {m : Mach} {g : Fin 256} (h : ∀ p, (m.core g).pend = some p → p.load.isSome = true) :
    m.performStore g = m := by
  unfold Mach.performStore
  cases hp : (m.core g).pend with
  | none => rfl
  | some p => simp [h p hp]

/-- What stores and tokens keep of a core, the store that SC has presented keeps of every core. -/
theorem performStore_keeps (m : Mach) (g k : Fin 256) {α : Type} (F : Core → α)
    (h : ∀ acc a bs c, F (storedAt acc a bs c) = F c) (h' : ∀ q c, F (afterStored q c) = F c) :
    F ((m.performStore g).core k) = F (m.core k) := by
  by_cases hp : ∃ p, (m.core g).pend = some p ∧ p.load = none
  · obtain ⟨p, hp, hl⟩ := hp
    rw [performStore_of_store hp hl, storeDone_keeps _ _ _ _ F (h _ _ _) (h' _)]
  · rw [performStore_of_no_store]
    intro p hq
    cases hl : p.load with
    | none => exact absurd ⟨p, hq, hl⟩ hp
    | some l => rfl

/-- A token that SC pushes or owes moves no walk. -/
theorem pushTok_place (c : Core) (e x : Engine) (q : Option Engine) :
    (((c.pushTok e q).e x).pc, ((c.pushTok e q).e x).walk) = ((c.e x).pc, (c.e x).walk) := by
  unfold Core.pushTok
  split
  · rfl
  · split
    · rfl
    · by_cases h : x = e
      · subst h; rw [onE_e]
      · rw [onE_e_ne _ _ _ h]

/-- Once the store that SC has presented is performed, SC has presented none; the other cores' accesses stand. -/
theorem performStore_pend (m : Mach) (g k : Fin 256) : ((m.performStore g).core k).pend =
    if k = g then (m.core k).pend.filter (fun p => p.load.isSome) else (m.core k).pend := by
  by_cases hp : ∃ p, (m.core g).pend = some p ∧ p.load = none
  · obtain ⟨p, hp, hl⟩ := hp
    rw [performStore_of_store hp hl]
    split
    · subst k
      rw [storeDone_core_self, afterStored_pend, hp, Option.filter_some, hl]
      rfl
    · exact storeDone_keeps_of_ne m g k p Core.pend (fun c => storedAt_pend ..) ‹_›
  · have hs : ∀ p, (m.core g).pend = some p → p.load.isSome = true := by
      intro p hq
      cases hl : p.load with
      | none => exact absurd ⟨p, hq, hl⟩ hp
      | some l => rfl
    rw [performStore_of_no_store hs]
    split
    · subst k
      cases hq : (m.core g).pend with
      | none => rfl
      | some p => rw [Option.filter_some, if_pos (hs p hq)]
    · rfl

/-- The machine once the engines of core k have stopped, for reason H. -/
def haltOne (H : Halt) (m : Mach) (k : Fin 256) : Mach := (m.withdraw k).onCore k fun c => { c with halt := some H }

/-- What a member's stop makes of that member. -/
def haltedCore (H : Halt) (g : Fin 256) (c : Core) : Core := { stoppedCore (c.forget g) with halt := some H }

theorem haltedCore_place (H : Halt) (g : Fin 256) (c : Core) (x : Engine) :
    (((haltedCore H g c).e x).pc, ((haltedCore H g c).e x).walk) = ((c.e x).pc, (c.e x).walk) := by
  have h : (haltedCore H g c).e x = (c.e x).unissued := stoppedCore_e (c.forget g) x
  rw [h]; rfl

/-- The machine in which nothing of core g waits at a port. -/
def forgotten (m : Mach) (g : Fin 256) : Mach :=
  { m with arrivals := m.arrivals.filter (fun a => a.who ≠ Who.eng g .asy), cores := each m.cores (Core.forget g) }

theorem forgotten_core (m : Mach) (g k : Fin 256) : (forgotten m g).core k = (m.core k).forget g := each_get _ _ k.isLt

theorem haltTask_eq_foldl {m : Mach} {g : Fin 256} {k : CoreTask} (h : (m.core g).task = some k) (H : Halt) :
    m.haltTask g H = k.members.foldl (haltOne H) m := by
  simp only [Mach.haltTask, Mach.members, h]
  rfl

section haltOne
variable (H : Halt) (m : Mach) (g k : Fin 256)

theorem haltOne_core : (haltOne H m g).core k =
    if k = g then haltedCore H g ((m.performStore g).core k) else ((m.performStore g).core k).forget g := by
  have hw : (m.withdraw g).core k =
      if k = g then stoppedCore (((m.performStore g).core k).forget g) else ((m.performStore g).core k).forget g := by
    rw [← forgotten_core]
    exact onCore_core_eq (forgotten (m.performStore g) g) g k stoppedCore
  rw [haltOne, onCore_core_eq, hw]
  split <;> rfl

/-- What the stop itself keeps of a core is what the performed store left of it. -/
theorem haltOne_keeps {α : Type} (F : Core → α) (hf : ∀ g c, F (Core.forget g c) = F c) (hh : ∀ c, F (haltedCore H g c) = F c) :
    F ((haltOne H m g).core k) = F ((m.performStore g).core k) := by
  rw [haltOne_core]
  split
  · exact hh _
  · exact hf _ _

end haltOne

/-! ## Every member stops (R13, R72) -/

/-- What a trap changes of a member: its reason to stop, the access of its SC, and the place of the Q2 entries that MMUL has
popped. -/
structure HaltView where
  halt : Option Halt
  pend : Option PendAccess
  q2 : List Tile
  taken : List Tile

def haltView (c : Core) : HaltView := ⟨c.halt, c.pend, c.qt[2], c.mx.taken⟩

/-- What becomes of it as the member stops. -/
def HaltView.stop (H : Halt) (v : HaltView) : HaltView := ⟨some H, v.pend.filter (fun p => p.load.isSome), v.taken ++ v.q2, []⟩

theorem haltView_stop_idem (H : Halt) (v : HaltView) : (v.stop H).stop H = v.stop H := by
  simp [HaltView.stop, Option.filter_filter]

/-- A core's fields that neither a store nor its token touches. -/
theorem haltView_performStore (m : Mach) (g k : Fin 256) :
    haltView ((m.performStore g).core k) = { haltView (m.core k) with pend := ((m.performStore g).core k).pend } := by
  have h := performStore_keeps m g k (fun c => (c.halt, c.qt[2], c.mx.taken)) (fun acc a bs c => by cases acc <;> rfl) fun q c => by
    obtain ⟨x, y, e⟩ := pushTok_frame ({ c with pend := none } : Core) .sc q
    rw [afterStored, e]
  obtain ⟨hh, hq, ht⟩ : _ ∧ _ ∧ _ := by simpa only [Prod.mk.injEq] using h
  simp only [haltView, hh, hq, ht]

theorem haltView_haltedCore (H : Halt) (g : Fin 256) (c : Core) :
    haltView (haltedCore H g c) = { (haltView c).stop H with pend := c.pend } := by
  have hq : (haltedCore H g c).qt[2] = c.mx.taken ++ c.qt[2] := stoppedCore_q2 (c.forget g)
  simp only [haltView, hq, HaltView.stop]
  rfl

theorem haltView_haltOne (H : Halt) (m : Mach) (k h : Fin 256) :
    haltView ((haltOne H m k).core h) = if h = k then (haltView (m.core h)).stop H else haltView (m.core h) := by
  have hv := haltView_performStore m k h
  rw [performStore_pend] at hv
  rw [haltOne_core]
  split
  · rw [if_pos ‹_›] at hv
    rw [haltView_haltedCore, hv, performStore_pend, if_pos ‹_›]
    rfl
  · rw [if_neg ‹_›] at hv
    exact hv

section members
variable (H : Halt) (l : List (Fin 256)) (m : Mach) (h : Fin 256)

/-- Each core of the list stops once, however often it stands there. -/
theorem haltView_foldl : haltView ((l.foldl (haltOne H) m).core h) =
    if h ∈ l then (haltView (m.core h)).stop H else haltView (m.core h) := by
  induction l generalizing m with
  | nil => rfl
  | cons k l ih =>
    rw [List.foldl_cons, ih, haltView_haltOne]
    by_cases hk : h = k <;> by_cases hl : h ∈ l <;> simp [hk, hl, haltView_stop_idem]

/-- What is kept through every stop. -/
theorem foldl_haltOne_keeps {α : Type} (F : Core → α) (hs : ∀ acc a bs c, F (storedAt acc a bs c) = F c)
    (hp : ∀ q c, F (afterStored q c) = F c) (hf : ∀ g c, F (Core.forget g c) = F c) (hh : ∀ g c, F (haltedCore H g c) = F c) :
    F ((l.foldl (haltOne H) m).core h) = F (m.core h) :=
  foldl_keeps (fun m : Mach => F (m.core h))
    (fun m k => (haltOne_keeps H m k h F hf (hh k)).trans (performStore_keeps m k h F hs hp)) l m

/-- Where no SC has presented a store, what the stops themselves keep is kept. -/
theorem foldl_haltOne_keeps_of_no_store {α : Type} (F : Core → α) (hf : ∀ g c, F (Core.forget g c) = F c)
    (hh : ∀ g c, F (haltedCore H g c) = F c) (hl : ∀ k ∈ l, ∀ p, (m.core k).pend = some p → p.load.isSome = true) :
    F ((l.foldl (haltOne H) m).core h) = F (m.core h) := by
  induction l generalizing m with
  | nil => rfl
  | cons k l ih =>
    have hk := performStore_of_no_store (hl k (by simp))
    have hpend (j : Fin 256) : ((haltOne H m k).core j).pend = (m.core j).pend := by
      rw [haltOne_keeps H m k j Core.pend (fun _ _ => rfl) (fun _ => rfl), hk]
    rw [List.foldl_cons, ih, haltOne_keeps H m k h F hf (hh k), hk]
    intro j hj p hp
    exact hl j (by simp [hj]) p (hpend j ▸ hp)

end members

/-! ## The trap (R72, R234) -/

section haltTask
variable {m : Mach} {g : Fin 256} {k : CoreTask} (ht : (m.core g).task = some k) (H : Halt) (h : Fin 256)
include ht

theorem haltTask_halt (hk : h ∈ k.members) : ((m.haltTask g H).core h).halt = some H := by
  have := haltView_foldl H k.members m h
  rw [if_pos hk, ← haltTask_eq_foldl ht] at this
  exact congrArg HaltView.halt this

theorem haltTask_other (hk : h ∉ k.members) : ((m.haltTask g H).core h).halt = (m.core h).halt := by
  have := haltView_foldl H k.members m h
  rw [if_neg hk, ← haltTask_eq_foldl ht] at this
  exact congrArg HaltView.halt this

theorem haltTask_member (hk : h ∈ k.members) : ((m.haltTask g H).core h).pend = (m.core h).pend.filter (fun p => p.load.isSome) ∧
    ((m.haltTask g H).core h).qt[2] = (m.core h).mx.taken ++ (m.core h).qt[2] ∧ ((m.haltTask g H).core h).mx.taken = [] := by
  have := haltView_foldl H k.members m h
  rw [if_pos hk, ← haltTask_eq_foldl ht] at this
  exact ⟨congrArg HaltView.pend this, congrArg HaltView.q2 this, congrArg HaltView.taken this⟩

theorem haltTask_registers : ((m.haltTask g H).core h).s = (m.core h).s ∧ ((m.haltTask g H).core h).v = (m.core h).v ∧
    ((m.haltTask g H).core h).task = (m.core h).task := by
  have hk := foldl_haltOne_keeps H k.members m h (fun c => (c.s, c.v, c.task)) (fun acc a bs c => by cases acc <;> rfl)
    (fun q c => by obtain ⟨x, y, e⟩ := pushTok_frame ({ c with pend := none } : Core) .sc q; rw [afterStored, e])
    (fun _ _ => rfl) (fun _ _ => rfl)
  rw [← haltTask_eq_foldl ht] at hk
  simpa only [Prod.mk.injEq] using hk

/-- Neither the tokens that SC pushes or owes nor a repetition that is not issued after all move a walk. -/
theorem haltTask_place (x : Engine) : (((m.haltTask g H).core h).e x).pc = ((m.core h).e x).pc ∧
    (((m.haltTask g H).core h).e x).walk = ((m.core h).e x).walk := by
  have hk := foldl_haltOne_keeps H k.members m h (fun c => ((c.e x).pc, (c.e x).walk)) (fun acc a bs c => by cases acc <;> rfl)
    (fun q c => pushTok_place ..) (fun _ _ => rfl)
    (fun j c => haltedCore_place ..)
  rw [← haltTask_eq_foldl ht] at hk
  simpa only [Prod.mk.injEq] using hk

theorem haltTask_memory (hl : ∀ j ∈ k.members, ∀ p, (m.core j).pend = some p → p.load.isSome = true) :
    ((m.haltTask g H).core h).spad = (m.core h).spad ∧ ((m.haltTask g H).core h).acc = (m.core h).acc ∧
    ((m.haltTask g H).core h).tok = (m.core h).tok := by
  have hk := foldl_haltOne_keeps_of_no_store H k.members m h (fun c => (c.spad, c.acc, c.tok)) (fun _ _ => rfl) (fun _ _ => rfl) hl
  rw [← haltTask_eq_foldl ht] at hk
  simpa only [Prod.mk.injEq] using hk

end haltTask

/-- The record of a trap of engine e, at the place p or where e stands. -/
def trapRecord (m : Mach) (g : Fin 256) (k : CoreTask) (e : Engine) (p : PAddr) (cause : Cause) (code : BitVec 32) (info : Word) : Halt :=
  .trap ⟨cause, e, p, ((m.core g).e e).rep, g, k.rank, code, info⟩

theorem takeTrap_eq {m : Mach} {g : Fin 256} {k : CoreTask} (ht : (m.core g).task = some k) (e : Engine) (cause : Cause)
    (code : BitVec 32) (info : Word) :
    m.takeTrap g e cause code info = m.haltTask g (trapRecord m g k e ((m.core g).e e).pc cause code info) := by
  simp only [Mach.takeTrap, ht]
  rfl

theorem trapDeadlock_eq {m : Mach} {g : Fin 256} {k : CoreTask} (ht : (m.core g).task = some k) (e : Engine) (p : Option PAddr) :
    m.trapDeadlock g e p =
      m.haltTask g (trapRecord m g k e (p.getD ((m.core g).e e).pc) .deadlock 0 ((coreCode g).setWidth 64)) := by
  simp only [Mach.trapDeadlock, ht]
  rfl

theorem coreCode_word (g : Fin 256) : (coreCode g).setWidth 64 = BitVec.ofNat 64 g.val := by
  have := g.isLt
  apply BitVec.eq_of_toNat_eq
  simp [coreCode]
  omega

/-! ## TRAP, BKPT and the deadlock detector (R74, R380, R434) -/

section solo
variable {i : Instr} {s : State} {g : Fin 256} {e : Engine}

theorem soloParcel_trap {pre : Fin 256 → Mach → Option Cause} {eff : Fin 256 → Mach → Eff} {fin : Fin 256 → Mach → Mach}
    {c : Cause} {code : BitVec 32} {info : Word} (h : mayIssue i s g e) (hp : pre g s.m = none) (he : eff g s.m = .trap c code info) :
    soloParcel i e (fun g => issue i g e (pre g) (eff g) (fin g)) s =
      .next (after s (s.m.takeTrap g e c code (infoOr c info i))) := by
  rw [soloParcel_own h.1.1 h.1.2, issue_trap h hp he, after]

end solo

theorem execInternalDeadlock_traps {s : State} {g : Fin 256} {e : Engine} (hb : s.boot.state = 2) (hs : (s.m.core g).safe = none)
    (hd : s.m.deadlocked g = some e) : execInternalDeadlock g s = .next (after s (s.m.trapDeadlock g e none)) := by
  simp only [execInternalDeadlock, ready_of_ready hb, hs, hd]
  rfl

theorem execInternalDeadlock_idle {s : State} {g : Fin 256} (hb : s.boot.state = 2)
    (h : (s.m.core g).safe ≠ none ∨ s.m.deadlocked g = none) : execInternalDeadlock g s = .next s := by
  rw [execInternalDeadlock, ready_of_ready hb]
  cases hs : (s.m.core g).safe with
  | some x => simp
  | none =>
    have hd : s.m.deadlocked g = none := by simpa [hs] using h
    simp [hd]

/-! ## The walk of the wait-for table (R239) -/

section reportCycle
variable {m : Mach} {a : Waiter} {p : List Waiter} {e : Edge} (he : m.edgeOf a = some e)
include he

theorem reportCycle_core (ha : a.code.toNat < 0x100) : m.reportCycle (a :: p) =
    (m.takeTrap (toCore a.code.toNat) e.engine .deadlock (BitVec.ofNat 32 (p.length + 1)) (e.to'.code.setWidth 64)).onCtx e.ctx
      fun x => { x with dlk := true, dlen := BitVec.ofNat 8 (p.length + 1) } := by
  simp only [Mach.reportCycle, he, if_pos ha, List.length_cons]

theorem reportCycle_unit (ha : 0x100 ≤ a.code.toNat) : m.reportCycle (a :: p) = m.abort e.ctx 7 := by
  simp only [Mach.reportCycle, he, if_neg (Nat.not_lt.2 ha)]

end reportCycle

/-- The cycles that stood in both walks. -/
def standing (m : Mach) : List (List Waiter) := m.cycles.filter fun p => m.lastCycles.contains p && m.still p

/-- The machine once Oculus has reported them and notes what it has seen. -/
def walked (m : Mach) : Mach :=
  { (standing m).foldl Mach.reportCycle m with lastCycles := m.cycles, touched := [], walkAt := (m.die 0).cycle }

theorem execWaitforWalk_early {s : State} (hb : s.boot.state = 2) (h : ((s.m.die 0).cycle - s.m.walkAt).toNat < 2 ^ 20) :
    execWaitforWalk s = .next s := by
  simp only [execWaitforWalk, ready_of_ready hb, if_pos h]

theorem execWaitforWalk_walks {s : State} (hb : s.boot.state = 2) (h : 2 ^ 20 ≤ ((s.m.die 0).cycle - s.m.walkAt).toNat) :
    execWaitforWalk s = .next (after s (walked s.m)) := by
  simp only [execWaitforWalk, ready_of_ready hb, if_neg (Nat.not_lt.2 h)]
  rfl

theorem standing_eq_nil {m : Mach} (h : ∀ p ∈ m.cycles, p ∈ m.lastCycles → m.still p = false) : standing m = [] := by
  rw [standing, List.filter_eq_nil_iff]
  intro p hp hc
  obtain ⟨hl, hs⟩ := (Bool.and_eq_true _ _).mp hc
  simp [h p hp (by simpa using hl)] at hs

theorem walked_of_none {m : Mach} (h : standing m = []) :
    (walked m).cores = m.cores ∧ (walked m).ctxs = m.ctxs ∧ (walked m).dies = m.dies := by
  simp [walked, h]

section one
variable {m : Mach} {p : List Waiter} (h : standing m = [p])
include h

theorem walked_of_one : (walked m).cores = (m.reportCycle p).cores ∧ (walked m).ctxs = (m.reportCycle p).ctxs := by
  simp [walked, h]

theorem walked_core (g : Fin 256) : (walked m).core g = (m.reportCycle p).core g := by
  rw [Mach.core, (walked_of_one h).1, Mach.core]

theorem walked_ctx (c : Fin 64) : (walked m).ctx c = (m.reportCycle p).ctx c := by
  rw [Mach.ctx, (walked_of_one h).2, Mach.ctx]

end one

/-- Settles O10: every stop of a member is `haltOne`; the trap's record is the same for all of them. -/
theorem trapsStopEveryMember : Obligations.TrapsStopEveryMember := by
  refine ⟨fun m g e cause code info k ht => ?_, fun t n s g => ⟨fun h => ?_, fun h => ?_⟩, fun s g hb => ⟨fun e hs hd => ?_, fun h => ?_,
    fun e p k ht h hk => ?_⟩, fun s hb h => ?_, fun s hb h => ?_⟩
  · obtain ⟨x, y, hf⟩ := takeTrap_frame m g e cause code info
    have hframe : (m.takeTrap g e cause code info).dev = m.dev ∧ (m.takeTrap g e cause code info).host = m.host ∧
        (m.takeTrap g e cause code info).ops = m.ops ∧ (m.takeTrap g e cause code info).ctxs = m.ctxs ∧
        (m.takeTrap g e cause code info).dies = m.dies := by rw [hf]; exact ⟨rfl, rfl, rfl, rfl, rfl⟩
    rw [takeTrap_eq ht] at hframe ⊢
    refine ⟨fun h hk => haltTask_halt ht _ h hk, fun h hk => haltTask_other ht _ h hk, fun h => ?_,
      fun h hk => haltTask_member ht _ h hk, fun hl h => haltTask_memory ht _ h hl, hframe⟩
    obtain ⟨hs, hv, htask⟩ := haltTask_registers ht (trapRecord m g k e ((m.core g).e e).pc cause code info) h
    exact ⟨hs, hv, htask, haltTask_place ht _ h⟩
  · have he : execTrap t n s = _ := soloParcel_trap h (by rfl) (by rfl)
    rw [exec, he]; rfl
  · have he : execBkpt t n s = _ := soloParcel_trap h (by rfl) (by rfl)
    rw [exec, he]; rfl
  · rw [exec, execInternalDeadlock_traps hb hs hd]
  · rw [exec, execInternalDeadlock_idle hb h]
  · rw [trapDeadlock_eq ht, haltTask_halt ht _ h hk, trapRecord, coreCode_word]
  · rw [exec, execWaitforWalk_early hb h]
  · refine ⟨walked s.m, by rw [exec, execWaitforWalk_walks hb h], rfl, rfl, rfl, fun hn => walked_of_none (standing_eq_nil hn),
      fun a p e hp he => ⟨fun ha => ?_, fun ha => ?_⟩⟩
    · refine ⟨?_, ?_, fun k ht h hk => ?_⟩
      · rw [walked_ctx hp, reportCycle_core he ha, onCtx_ctx]
      · rw [walked_ctx hp, reportCycle_core he ha, onCtx_ctx]
      · rw [walked_core hp, reportCycle_core he ha, onCtx_core, takeTrap_eq ht, haltTask_halt ht _ h hk]
        exact ⟨_, rfl, rfl, rfl, BitVec.toNat_ofNat .., rfl⟩
    · rw [← reportCycle_unit (p := p) he ha]
      exact walked_of_one hp

end Sys2Proof.Proofs

namespace Sys2Proof.Proofs
open Sys2Proof Sys2Proof.Machine Sys2Proof.Claims

/-! ## Power (R9, R359, R360) -/

/-- Of device memory, power-up keeps the pool devices, which begin at 3·2^46 (R368). -/
theorem read1_repower (s : State) (on : Bool) {a : Nat} (h : a < 3 * 2 ^ 46) : Memory.read1 (s.repower on).m.dev a = 0 := by
  have hp : inPool a = false := by
    simp only [inPool, decide_eq_false (Nat.not_le.2 h), Bool.false_and]
  have hl := lookup_filter a inPool s.m.dev
  rw [hp] at hl
  exact congrArg (Option.getD · 0) hl

theorem fresh_repower (s : State) (on : Bool) : fresh s (s.repower on) on :=
  ⟨rfl, rfl, rfl, rfl, rfl, rfl, rfl, rfl, rfl, rfl, rfl, rfl, rfl, rfl, rfl, rfl, rfl, fun _ h => read1_repower s on h⟩

theorem not_and_decide {b : Bool} {p : Prop} [Decidable p] (h : ¬ p) : ¬ (b && decide p) = true := by simp [h]

theorem restart_of_key {s : State} (h : s.boot.powered = true) : s.restart 0x52545352 = s.repower true := by
  simp [State.restart, h, restartKey]

theorem restart_of_ne {s : State} {key : BitVec 32} (h : key ≠ 0x52545352) : s.restart key = s := by
  rw [State.restart, restartKey, if_neg (not_and_decide h)]

/-! ## Boot (R361, R362) -/

section boot
variable {s : State}

theorem bootGo_of_waiting {len : BitVec 32} (hp : s.boot.powered = true) (h : s.boot.state = 0) :
    s.bootGo len = { s with boot := { s.boot with state := 1, goLen := len } } := by
  simp [State.bootGo, hp, h]

theorem bootGo_of_ne {len : BitVec 32} (h : s.boot.state ≠ 0) : s.bootGo len = s := by
  rw [State.bootGo, if_neg (not_and_decide h)]

theorem retried_of_no_glitch {m : Mach} (h : m.devGlitch = []) (a n : Nat) : m.retried a n = m := by simp [Mach.retried, h]

theorem execBootEnd_of_ne (h : s.boot.state ≠ 1) : execBootEnd s = .next s := by
  rw [execBootEnd, if_neg (not_and_decide h)]

theorem execBootEnd_fails {k : BitVec 8} (hp : s.boot.powered = true) (h : s.boot.state = 1) (hg : s.m.devGlitch = [])
    (hc : bootCode s = some k) : execBootEnd s = .next (s.bootFail k) := by
  simp only [execBootEnd, hp, h, retried_of_no_glitch hg, hc]
  rfl

theorem execBootEnd_passes (hp : s.boot.powered = true) (h : s.boot.state = 1) (hg : s.m.devGlitch = []) (hc : bootCode s = none) :
    execBootEnd s = .next s.bootPass := by
  simp only [execBootEnd, hp, h, retried_of_no_glitch hg, hc]
  rfl

theorem bootCode_of_bad_header (h : headerGood s = false) : bootCode s = some 1 := by simp [bootCode, h]

theorem bootCode_of_other_key (h : headerGood s = true)
    (hk : leVal (shake256 32 (areaBytes s 0x40 64)) ≠ s.m.fuses.keyDigest.toNat) : bootCode s = some 2 := by
  simp only [bootCode, h, if_pos hk]
  rfl

/-- Past the header and the key, the signature alone decides. -/
theorem bootCode_of_key (h : headerGood s = true)
    (hk : leVal (shake256 32 (areaBytes s 0x40 64)) = s.m.fuses.keyDigest.toNat) : bootCode s = none ∨ bootCode s = some 3 := by
  rw [bootCode, h, if_neg (by decide), if_neg (not_not_intro hk)]
  split
  · exact .inr rfl
  · exact .inl rfl

end boot

/-! ## Measurement and attestation (R363, R364) -/

section attest
variable {s : State}

theorem attestGo_of_idle {v : Word} (h : s.boot.state = 2) (ha : s.boot.attest = none) :
    s.attestGo v = { s with boot := { s.boot with attest := some v } } := by
  simp [State.attestGo, h, ha]

theorem attestGo_ignored {v : Word} (h : s.boot.state ≠ 2 ∨ s.boot.attest.isSome = true) : s.attestGo v = s := by
  rw [State.attestGo, if_neg]
  rw [Bool.and_eq_true, decide_eq_true_iff, Option.isNone_iff_eq_none]
  rintro ⟨hs, ha⟩
  rcases h with h | h
  · exact h hs
  · simp [ha] at h

theorem execMeasurementExtend_of_firmware {n : Fin 4} {v : BitVec 512} (h : s.boot.state = 2) (hn : n ≠ 0) :
    execMeasurementExtend n v s = .next { s with boot := { s.boot with
      meas := upd s.boot.meas n fun x => digest64 (leBytes 64 x.toNat ++ leBytes 64 v.toNat) } } := by
  simp [execMeasurementExtend, h, hn]

theorem execMeasurementExtend_ignored {n : Fin 4} {v : BitVec 512} (h : s.boot.state ≠ 2 ∨ n = 0) :
    execMeasurementExtend n v s = .next s := by
  rw [execMeasurementExtend, if_neg]
  rw [Bool.and_eq_true, decide_eq_true_iff, decide_eq_true_iff, not_and_or, not_not]
  exact h

end attest

/-- Settles O46: power-up and every reset make the module `fresh`; the boot's end follows its code. -/
theorem powerAndBoot : Obligations.PowerAndBoot := by
  refine ⟨fun s => ⟨fun h => ?_, fun h => ?_⟩, fun s => ⟨_, rfl, fresh_repower s false⟩, fun s key => ⟨fun hp hk => ?_, fun hk => ?_⟩,
    fun s hp => ?_, fun s len hp => ⟨fun h => ?_, fun h => ?_⟩,
    fun s => ⟨fun h => execBootEnd_of_ne h, fun hp h hg => ⟨fun k hc => execBootEnd_fails hp h hg hc, fun hc => ?_⟩⟩,
    fun s => ⟨fun h => bootCode_of_bad_header h, fun h hk => bootCode_of_other_key h hk, fun h hk => bootCode_of_key h hk⟩,
    fun s v => ⟨fun h ha => ?_, fun h => ?_⟩, fun s => ⟨fun ha => ?_, fun a ha => ?_⟩, fun s n v => ⟨fun h hn => ?_, fun h => ?_⟩⟩
  · refine ⟨s.repower true, ?_, fresh_repower s true⟩
    simp [exec, execPowerUp, h]
  · simp [exec, execPowerUp, h]
  · refine ⟨s.repower true, ?_, fresh_repower s true⟩
    rw [exec, execRestart, hk, restart_of_key hp]
  · rw [exec, execRestart, restart_of_ne hk]
  · refine ⟨s.repower true, ?_, fresh_repower s true⟩
    simp [exec, execFunctionLevelReset, hp]
  · rw [exec, execBootgo, bootGo_of_waiting hp h]
  · rw [exec, execBootgo, bootGo_of_ne h]
  · refine ⟨_, execBootEnd_passes hp h hg hc, rfl, rfl, rfl, put_same .., fun n hn => ?_, rfl, rfl⟩
    exact put_other _ _ _ n.isLt fun h => hn (Fin.ext h.symm)
  · rw [exec, execAtaddr, attestGo_of_idle h ha]
  · rw [exec, execAtaddr, attestGo_ignored h]
  · simp only [exec, execAttestationReportEnd, ha]
  · simp only [exec, execAttestationReportEnd, ha]
  · refine ⟨_, execMeasurementExtend_of_firmware h hn, rfl, upd_same .., fun k hk => ?_⟩
    exact upd_other _ _ _ k.isLt fun h => hk (Fin.ext h.symm)
  · rw [exec, execMeasurementExtend_ignored h]

end Sys2Proof.Proofs

namespace Sys2Proof.Proofs
open Sys2Proof Sys2Proof.Machine Sys2Proof.Claims

/-! ## Writes of whole registers (R8) -/

/-- The write of a whole 64-bit register. -/
def fullW (v : Word) : RegW := ⟨BitVec.allOnes 64, v⟩

section words
variable (v old : Word) {off : Nat}

@[simp] theorem fullW_over : (fullW v).over old = v := by
  simp only [fullW, RegW.over, BitVec.and_allOnes, BitVec.not_allOnes, BitVec.and_zero, BitVec.zero_or]
@[simp] theorem fullW_ones : (fullW v).ones = v := BitVec.and_allOnes

theorem regW_full (h : off % 8 = 0) : regW off .b8 v = fullW v := by
  simp [regW, fullW, Size.bytes, h]

/-- A word's low bits, tested through a field, are its number's remainder. -/
theorem wf_low (n : Nat) : wf v 0 n = v.toNat % 2 ^ n := by simp [wf, fld]

theorem bytes_dvd (size : Size) : Size.bytes size ∣ 8 := by cases size <;> decide

end words

/-! ## The control page of a context (R214, R355) -/

section page
variable {s : State} {ag : Agent} {c : Fin 64} {off : Nat} {size : Size} {v : Word}

theorem mayWrite_of_writes (h : writes s ag c) : s.m.mayWrite ag c = true := by
  obtain ⟨-, h⟩ := h
  simpa [Mach.mayWrite, Mach.sec] using h

theorem pageOffset_toNat (h : off < 4096) : (BitVec.ofNat 20 (4096 * c.val + off)).toNat = 4096 * c.val + off := by
  have := c.isLt
  rw [BitVec.toNat_ofNat, Nat.mod_eq_of_lt (by omega)]

/-- A write at the start of a register of the page acts on the page, once the module answers its offset. -/
theorem exec_pageWrite (hp : s.boot.powered = true) (hw : writes s ag c) (ho : off < 4096) (h8 : off % 8 = 0)
    (hr : s.boot.state = 2 ∨ off ≠ 0) :
    exec (.registerWrite ag .control (BitVec.ofNat 20 (4096 * c.val + off)) size v) s =
      .next (after s (s.m.pageWrite c off (regW off size v))) := by
  have hc := c.isLt
  have halign : aligned (4096 * c.val + off) size = true :=
    decide_eq_true (Nat.mod_eq_zero_of_dvd ((bytes_dvd size).trans (by omega)))
  have hag : ag = .host ∨ s.boot.state = 2 := hw.1.symm
  have hreg : regW (4096 * c.val + off) size v = regW off size v := by simp only [regW, show (4096 * c.val + off) % 8 = off % 8 by omega]
  have hat : 8 * ((4096 * c.val + off) / 8) = 4096 * c.val + off := by omega
  have hctx : toCtx ((4096 * c.val + off) / 4096) = c := by
    rw [show (4096 * c.val + off) / 4096 = c.val by omega]
    exact Fin.ofNat_val_eq_self ..
  have hoff : (4096 * c.val + off) % 4096 = off := by omega
  have hwin : 4096 * c.val + off < 262144 := by omega
  rw [exec, execRegisterWrite, pageOffset_toNat ho, if_pos (by simpa [hp, halign] using hag), hat, hreg]
  simp only [windowWrite, hctx, hoff]
  rw [if_pos (by simpa [hwin, mayWrite_of_writes hw] using hr), after]

/-- REPLAY is not taken before firmware runs. -/
theorem exec_pageWrite_early (ho : s.boot.state ≠ 2) : pageStores s ag c 0 v (.next s) := by
  have hc := c.isLt
  have hoff : 8 * ((4096 * c.val + 0) / 8) % 4096 = 0 := by omega
  show exec _ s = _
  rw [exec, execRegisterWrite, pageOffset_toNat (by decide)]
  split
  · simp only [windowWrite, hoff]
    rw [decide_eq_false ho, if_neg (by simp)]
  · rfl

/-- The registers whose write acts on more than the page. -/
def acting : List Nat := [0x000, 0x018, 0x038, 0x050, 0x200, 0x220, 0x228, 0x700]

theorem pageWrite_of_storing (m : Mach) (w : RegW) (ha : off ∉ acting) (ho : off < 0xA00) :
    m.pageWrite c off w = m.onCtx c fun x => x.write off w := by
  have hg : ¬ 0xA00 ≤ off := Nat.not_le.2 ho
  unfold Mach.pageWrite
  split
  case h_9 => simp [hg]
  all_goals exact absurd (by decide) ha

theorem pageWrite_of_gp (m : Mach) (w : RegW) (hl : 0xA00 ≤ off) (ho : off < 0xC00) :
    m.pageWrite c off w = (m.atGp c gpHost).onCtx c fun x => x.write off w := by
  unfold Mach.pageWrite
  split
  case h_9 => simp [hl, ho]
  all_goals omega

theorem pageBecomes_id (s : State) (c : Fin 64) : pageBecomes s c (fun x => x) = .next s := by
  have : s.m.onCtx c (fun x => x) = s.m := by
    have : upd s.m.ctxs c (fun x => x) = s.m.ctxs := by ext i hi; simp [upd]
    rw [Mach.onCtx, this]
  rw [pageBecomes, this, after]

section stores
variable (hp : s.boot.powered = true) (hw : writes s ag c) (h8 : off % 8 = 0 := by decide) (ho : off < 0xA00 := by decide)
  (ha : off ∉ acting := by decide)
include hp hw h8 ho ha

theorem pageStores_of_write {f : Ctx → Ctx} (hf : ∀ x : Ctx, x.write off (fullW v) = f x) :
    pageStores s ag c off v (pageBecomes s c f) := by
  have hz : off ≠ 0 := by rintro rfl; exact ha (by decide)
  have hpg := exec_pageWrite (size := .b8) (v := v) hp hw (by omega) h8 (.inr hz)
  rw [pageWrite_of_storing _ _ ha ho, regW_full v h8, funext hf] at hpg
  exact hpg

/-- A register that does not take every value. -/
theorem pageStores_of_write_if {p : Prop} [Decidable p] {f : Ctx → Ctx}
    (hf : ∀ x : Ctx, x.write off (fullW v) = if p then f x else x) :
    pageStores s ag c off v (if p then pageBecomes s c f else .next s) := by
  by_cases h : p
  · rw [if_pos h]
    exact pageStores_of_write hp hw h8 ho ha fun x => by rw [hf, if_pos h]
  · rw [if_neg h, ← pageBecomes_id s c]
    exact pageStores_of_write hp hw h8 ho ha fun x => by rw [hf, if_neg h]

theorem pageStores_of_write_unless {p : Prop} [Decidable p] {f : Ctx → Ctx}
    (hf : ∀ x : Ctx, x.write off (fullW v) = if p then x else f x) :
    pageStores s ag c off v (if p then .next s else pageBecomes s c f) := by
  rw [← ite_not]
  exact pageStores_of_write_if hp hw h8 ho ha fun x => by rw [hf, ite_not]

end stores

end page

end Sys2Proof.Proofs

namespace Sys2Proof.Proofs
open Sys2Proof Sys2Proof.Machine Sys2Proof.Claims

/-! ## What a control-page register stores (R192, R214, R245, R411) -/

section registers
variable (x : Ctx) (v : Word)

theorem wf_low_nibble : wf v 0 4 = v.toNat % 16 := wf_low v 4
theorem wf_size_nibble : wf v 48 4 = v.toNat / 2 ^ 48 % 16 := rfl

/-! Registers that store every value, and those whose bits a 1 clears. -/

theorem write_drop_ones (w : RegW) : x.write 0x008 w = { x with drop := x.drop && !w.ones.getLsbD 1 } := rfl
theorem write_dlk_ones (w : RegW) : x.write 0x060 w = { x with dlk := x.dlk && !w.ones.getLsbD 0 } := rfl
theorem write_wd_ones (w : RegW) : x.write 0x210 w = { x with wd := x.wd && !w.ones.getLsbD 1 } := rfl
theorem write_stray_ones (w : RegW) : x.write 0x230 w = { x with stray := x.stray &&& ~~~(w.ones.extractLsb' 0 32) } := rfl
theorem write_trtail_over (w : RegW) : x.write 0x028 w = { x with trtail := (w.over (x.read 0x028)).extractLsb' 32 32 } := rfl
theorem write_tcont_over (w : RegW) : x.write 0x030 w =
    latching (fun r => { r with tcont := (w.over (x.read 0x030)).extractLsb' 0 48, ten := (w.over (x.read 0x030)).getLsbD 48 }) x := rfl
theorem write_savebase_over (w : RegW) : x.write 0x040 w =
    latching (fun r => { r with savebase := (w.over (x.read 0x040)).extractLsb' 0 48 }) x := rfl
theorem write_recbase_over (w : RegW) : x.write 0x058 w =
    latching (fun r => { r with recbase := (w.over (x.read 0x058)).extractLsb' 0 48 }) x := rfl
theorem write_tinvr_over (w : RegW) : x.write 0x208 w =
    { x with tinvrFirst := (w.over (x.read 0x208)).extractLsb' 0 32, tinvrNt := (w.over (x.read 0x208)).extractLsb' 32 32 } := rfl
theorem write_otbase_over (w : RegW) : x.write 0x600 w = { x with otbase := (w.over (x.read 0x600)).extractLsb' 0 48 } := rfl
theorem write_nobj_over (w : RegW) : x.write 0x608 w = { x with nobj := (w.over (x.read 0x608)).extractLsb' 0 20 } := rfl
theorem write_nrtail_over (w : RegW) : x.write 0x810 w = { x with nrtail := (w.over (x.read 0x810)).extractLsb' 32 32 } := rfl

/-! Registers that refuse some values. -/

theorem write_cwaddr_over (w : RegW) : x.write 0x010 w =
    if wf (w.over (x.read 0x010)) 0 4 ≠ 0 then x else { x with cwaddr := w.over (x.read 0x010) } := rfl

theorem write_cwaddr : x.write 0x010 (fullW v) = if v.toNat % 16 = 0 then { x with cwaddr := v } else x := by
  rw [write_cwaddr_over, fullW_over, wf_low_nibble, ite_not]

theorem write_spin_over (w : RegW) : x.write 0x048 w =
    if wf (w.over (x.read 0x048)) 0 32 < 256 then x else { x with spin := (w.over (x.read 0x048)).extractLsb' 0 32 } := rfl

theorem write_spin : x.write 0x048 (fullW v) = if v.toNat % 2 ^ 32 < 256 then x else { x with spin := v.extractLsb' 0 32 } := by
  rw [write_spin_over, fullW_over, wf_low]

theorem write_twdog_over (w : RegW) : x.write 0x218 w =
    if wf (w.over (x.read 0x218)) 0 32 = 0 then x else { x with twdog := (w.over (x.read 0x218)).extractLsb' 0 32 } := rfl

theorem write_twdog : x.write 0x218 (fullW v) = if v.toNat % 2 ^ 32 = 0 then x else { x with twdog := v.extractLsb' 0 32 } := by
  rw [write_twdog_over, fullW_over, wf_low]

/-- The offset is a variable here, as evaluating the register's test would have the kernel divide by 2^48. -/
theorem write_trbase_over {off : Nat} (h : off = 0x020) (w : RegW) : x.write off w =
    if 13 ≤ wf (w.over (x.read 0x020)) 48 4 then x else latching (fun r =>
      { r with trbase := (w.over (x.read 0x020)).extractLsb' 0 48, ltrn := (w.over (x.read 0x020)).extractLsb' 48 4 }) x := by
  unfold Ctx.write
  dsimp only
  split
  case h_3 => rfl
  case h_20 => exact absurd h ‹_›
  all_goals exact absurd h (by decide)

theorem write_trbase : x.write 0x020 (fullW v) = if 13 ≤ v.toNat / 2 ^ 48 % 16 then x
    else latching (fun r => { r with trbase := v.extractLsb' 0 48, ltrn := v.extractLsb' 48 4 }) x := by
  rw [write_trbase_over x rfl, fullW_over, wf_size_nibble]

theorem write_nrbase_over (w : RegW) : x.write 0x800 w = if wf (w.over (x.read 0x800)) 0 4 ≠ 0 then x else
      latching (fun r => { r with nrbase := w.over (x.read 0x800) }) x := rfl

theorem write_nrbase : x.write 0x800 (fullW v) = if v.toNat % 16 = 0 then latching (fun r => { r with nrbase := v }) x else x := by
  rw [write_nrbase_over, fullW_over, wf_low_nibble, ite_not]

theorem write_nring_over (w : RegW) : x.write 0x808 w = if 12 < wf (w.over (x.read 0x808)) 0 4 then x else
      { latching (fun r => { r with lnr := (w.over (x.read 0x808)).extractLsb' 0 4 }) x with nen := wb (w.over (x.read 0x808)) 8 } := rfl

theorem write_nring : x.write 0x808 (fullW v) = if 12 < v.toNat % 16 then x
    else { latching (fun r => { r with lnr := v.extractLsb' 0 4 }) x with nen := v.getLsbD 8 } := by
  rw [write_nring_over, fullW_over, wf_low_nibble, wb]

/-- The frame-stack registers, two words for each tier and die. -/
theorem write_fsb (n : Fin 8) (w : RegW) : x.write (0x610 + 16 * n.val) w =
    { x with fsb := Machine.put x.fsb n ((w.over (x.read (0x610 + 16 * n.val))).extractLsb' 0 48) } := by
  fin_cases n <;> rfl

theorem write_fcnt (n : Fin 8) (w : RegW) : x.write (0x618 + 16 * n.val) w =
    { x with fcnt := Machine.put x.fcnt n ((w.over (x.read (0x618 + 16 * n.val))).extractLsb' 0 32),
             fcap := Machine.put x.fcap n ((w.over (x.read (0x618 + 16 * n.val))).extractLsb' 32 32) } := by
  fin_cases n <;> rfl

theorem write_gp (k : Fin 64) (w : RegW) : x.write (0xA00 + 8 * k.val) w =
    { x with gp := Machine.put x.gp k (w.over (x.read (0xA00 + 8 * k.val))) } := by
  fin_cases k <;> rfl

/-- Offsets of the page whose register a write leaves alone. -/
def unstored (off : Nat) : Prop := off = 0x238 ∨ off = 0x818 ∨ (0x400 ≤ off ∧ off < 0x600) ∨ (0x068 ≤ off ∧ off < 0x200)

theorem write_unstored {off : Nat} (h : unstored off) (w : RegW) : x.write off w = x := by
  have hs : (decide (0x610 ≤ off) && decide (off < 0x690)) = false := by simp; unfold unstored at h; omega
  have hg : (decide (0xA00 ≤ off) && decide (off < 0xC00)) = false := by simp; unfold unstored at h; omega
  unfold unstored at h
  unfold Ctx.write
  dsimp only
  rw [hs, hg]
  split
  case h_20 => rfl
  all_goals omega

theorem regW_low_mask (w : Word) (i : Nat) : (regW 0x208 .b4 w).mask.getLsbD i = decide (i < 32) := by
  have h : (regW 0x208 .b4 w).mask = BitVec.ofNat 64 (2 ^ 32 - 1) := rfl
  rw [h, BitVec.getLsbD_ofNat, Nat.testBit_two_pow_sub_one]
  by_cases hi : i < 32
  · simp [hi]; omega
  · simp [hi]

theorem two_high (lo hi : BitVec 32) {i : Nat} (h : i < 32) : (two lo hi).getLsbD (32 + i) = hi[i] := by
  have : (two lo hi).getLsbD (32 + i) = (hi ++ lo).getLsbD (32 + i) := rfl
  rw [this, BitVec.getLsbD_append]
  simp [h]

/-- A narrow write keeps the half of the register that it leaves out. -/
theorem write_tinvr_low (w : Word) : x.write 0x208 (regW 0x208 .b4 w) = { x with tinvrFirst := w.extractLsb' 0 32 } := by
  have hv : (regW 0x208 .b4 w).v = w := by simp [regW]
  have hlo : ((regW 0x208 .b4 w).over (two x.tinvrFirst x.tinvrNt)).extractLsb' 0 32 = w.extractLsb' 0 32 := by
    ext i hi
    simp only [RegW.over, hv, BitVec.getElem_extractLsb', BitVec.getLsbD_or, BitVec.getLsbD_and, BitVec.getLsbD_not, regW_low_mask]
    simp [hi]
  have hhi : ((regW 0x208 .b4 w).over (two x.tinvrFirst x.tinvrNt)).extractLsb' 32 32 = x.tinvrNt := by
    ext i hi
    simp only [RegW.over, hv, BitVec.getElem_extractLsb', BitVec.getLsbD_or, BitVec.getLsbD_and, BitVec.getLsbD_not, regW_low_mask]
    rw [two_high _ _ hi]
    simp
    omega
  have h : x.write 0x208 (regW 0x208 .b4 w) =
      { x with tinvrFirst := ((regW 0x208 .b4 w).over (two x.tinvrFirst x.tinvrNt)).extractLsb' 0 32,
               tinvrNt := ((regW 0x208 .b4 w).over (two x.tinvrFirst x.tinvrNt)).extractLsb' 32 32 } := rfl
  rw [h, hlo, hhi]

end registers

end Sys2Proof.Proofs

namespace Sys2Proof.Proofs
open Sys2Proof Sys2Proof.Machine Sys2Proof.Claims

/-! ## Translation caches (R190) -/

/-- What a fold's steps establish of their own element, and keep for the others, holds of every element at the end. -/
theorem foldl_each {α β : Type} {P : α → β → Prop} {f : β → α → β} (hf : ∀ b a, P a (f b a))
    (hk : ∀ b a a', P a b → P a (f b a')) (l : List α) (b : β) : ∀ a ∈ l, P a (l.foldl f b) := by
  have keep (a : α) (l : List α) (b : β) (h : P a b) : P a (l.foldl f b) := by
    induction l generalizing b with
    | nil => exact h
    | cons x l ih => exact ih _ (hk b a x h)
  induction l generalizing b with
  | nil => nofun
  | cons x l ih =>
    intro a ha
    rcases List.mem_cons.1 ha with rfl | ha
    · exact keep a l _ (hf b a)
    · exact ih _ a ha

section caches
variable (m : Mach) (h k : Holder) (f : List CacheEntry → List CacheEntry)

theorem cache_onCache : (m.onCache h f).cache k = if k = h then f (m.cache k) else m.cache k := by
  by_cases hk : k = h
  · subst hk
    rw [if_pos rfl]
    cases k <;> simp [Mach.onCache, Mach.cache, Mach.onBelfry, Mach.onLan, Mach.onCup, Mach.onGat]
  · rw [if_neg hk]
    cases h with
    | core g => cases k with
      | core g' => exact congrArg Core.tcache (onCore_core_ne m g _ fun e => hk (e ▸ rfl))
      | _ => rfl
    | belfry d | lantern d | cupola d | gatherer d => cases k with
      | core g' => rfl
      | belfry d' | lantern d' | cupola d' | gatherer d' =>
        by_cases hd : d' = d
        · subst hd
          simp_all [Mach.onCache, Mach.cache, Mach.onBelfry, Mach.onLan, Mach.onCup, Mach.onGat]
        · simp [Mach.onCache, Mach.cache, Mach.onBelfry, Mach.onLan, Mach.onCup, Mach.onGat, onDie_die_ne _ _ _ hd]

/-- Every entry of the cache passes the test. -/
def cacheAll (p : CacheEntry → Bool) (h : Holder) (m : Mach) : Prop := ∀ e ∈ m.cache h, p e = true

theorem cacheAll_filter (p : CacheEntry → Bool) : cacheAll p h (m.onCache h fun l => l.filter p) := by
  intro e he
  rw [cache_onCache, if_pos rfl] at he
  exact (List.mem_filter.1 he).2

theorem cacheAll_keeps {p : CacheEntry → Bool} (hc : cacheAll p k m) (q : CacheEntry → Bool) :
    cacheAll p k (m.onCache h fun l => l.filter q) := by
  intro e he
  rw [cache_onCache] at he
  split at he
  · exact hc e (List.mem_filter.1 he).1
  · exact hc e he

/-- What no cache change touches. -/
theorem onCache_keeps {α : Type} (F : Mach → α)
    (hc : ∀ m g (f : List CacheEntry → List CacheEntry), F (Mach.onCore m g fun c => { c with tcache := f c.tcache }) = F m)
    (hd : ∀ m d f, F (Mach.onDie m d f) = F m) : F (m.onCache h f) = F m := by
  cases h with
  | core g => exact hc ..
  | belfry d | lantern d | cupola d | gatherer d => exact hd ..

end caches

/-- The entries that a write of TDBASE leaves, of the cores in turn and then of the units. -/
def dropFrom (p : CacheEntry → Bool) (m : Mach) : Mach :=
  cacheUnits.foldl (fun m q => m.onCache (holderOf q.1 q.2) fun l => l.filter p)
    (coreNums.foldl (fun m g => if (m.core g).tcache.isEmpty then m else m.onCache (.core g) fun l => l.filter p) m)

/-- What is dropped is every entry of the context. -/
theorem dropCached_eq (m : Mach) (c : Fin 64) :
    ∃ p : CacheEntry → Bool, m.dropCached c = dropFrom p m ∧ ∀ e, p e = true → ¬ cachedOf c e := by
  refine ⟨_, rfl, fun e he => ?_⟩
  cases e with
  | desc k | tile k =>
    have h : k ≠ c := of_decide_eq_true he
    exact h

section dropFrom
variable (p : CacheEntry → Bool) (m : Mach)

theorem dropFrom_keeps {α : Type} (F : Mach → α)
    (hc : ∀ m g (f : List CacheEntry → List CacheEntry), F (Mach.onCore m g fun c => { c with tcache := f c.tcache }) = F m)
    (hd : ∀ m d f, F (Mach.onDie m d f) = F m) : F (dropFrom p m) = F m := by
  rw [dropFrom, foldl_keeps F fun m q => onCache_keeps m _ _ F hc hd]
  refine foldl_keeps F (fun m g => ?_) coreNums m
  split
  · rfl
  · exact onCache_keeps m _ _ F hc hd

theorem dropFrom_core (g : Fin 256) : cacheAll p (.core g) (dropFrom p m) := by
  have hcores : ∀ g ∈ coreNums, cacheAll p (.core g)
      (coreNums.foldl (fun m g => if (m.core g).tcache.isEmpty then m else m.onCache (.core g) fun l => l.filter p) m) := by
    refine foldl_each (P := fun g m => cacheAll p (.core g) m) (fun m g => ?_) (fun m g g' h => ?_) _ _
    · split
      · intro e he
        simp_all [Mach.cache]
      · exact cacheAll_filter m (.core g) p
    · split
      · exact h
      · exact cacheAll_keeps _ _ _ h p
  have hg : g ∈ coreNums := List.mem_map.2 ⟨g.val, List.mem_range.2 g.isLt, Fin.ofNat_val_eq_self ..⟩
  have hunits := foldl_keeps (fun m : Mach => m.cache (.core g))
    (f := fun m (q : Fin 4 × UnitKind) => m.onCache (holderOf q.1 q.2) fun l => l.filter p)
    (fun m q => by rw [cache_onCache, if_neg]; obtain ⟨d, u⟩ := q; cases u <;> exact nofun) cacheUnits
  intro e he
  rw [dropFrom, hunits] at he
  exact hcores g hg e he

theorem dropFrom_unit {d : Fin 4} {u : UnitKind} (h : (d, u) ∈ cacheUnits) : cacheAll p (holderOf d u) (dropFrom p m) :=
  foldl_each (P := fun q m => cacheAll p (holderOf q.1 q.2) m) (fun m q => cacheAll_filter m (holderOf q.1 q.2) p)
    (fun _ _ _ h => cacheAll_keeps _ _ _ h p)
    cacheUnits _ _ h

end dropFrom

/-! ## Vectors (R357) -/

section vectors
variable {m : Mach} {n : Fin 130}

theorem unmask_of_pending (h : m.msiPend.getLsbD n.val = true) : m.unmask n =
    { m with msix := upd m.msix n fun e => { e with mask := false }
             msiPend := m.msiPend &&& ~~~(BitVec.ofNat 130 (2 ^ n.val))
             host := Memory.write m.host (m.msix[n.val]).addr.toNat (leBytes 4 (m.msix[n.val]).data.toNat)
             msiSent := n :: m.msiSent } := by
  simp only [Mach.unmask, h, if_true, Mach.raise, upd_same, Bool.false_eq_true, if_false]
  rfl

theorem unmask_of_idle (h : m.msiPend.getLsbD n.val = false) : m.unmask n =
    { m with msix := upd m.msix n fun e => { e with mask := false } } := by
  simp only [Mach.unmask, h, Bool.false_eq_true, if_false]

end vectors

/-! ## Device memory of the non-secure world (R365, R495) -/

section device
variable {m : Mach} {sec : Bool}

theorem devWrite_of_may {a : Nat} {bs : List Byte} (hb : bs ≠ []) (h : ∀ k < bs.length, m.mayTouch sec (a + k) = true) :
    m.devWrite sec a bs = { m with dev := Memory.write m.dev a bs } := by
  cases bs with
  | nil => exact absurd rfl hb
  | cons b bs =>
    rw [Mach.devWrite, if_pos]
    rw [List.all_eq_true]
    exact fun k hk => h k (by simpa using hk)

theorem devWrite_of_not {a : Nat} {bs : List Byte} (h : ∀ k < bs.length, m.mayTouch sec (a + k) = false) :
    m.devWrite sec a bs = m := by
  induction bs generalizing a with
  | nil => rfl
  | cons b bs ih =>
    have h0 : m.mayTouch sec a = false := h 0 (by simp)
    have hall : ¬ (List.range (bs.length + 1)).all (fun k => m.mayTouch sec (a + k)) = true := by
      rw [List.all_eq_true]
      intro hc
      simpa [h0] using hc 0 (by simp)
    rw [Mach.devWrite, if_neg hall, h0]
    exact ih fun k hk => by rw [Nat.add_assoc]; exact h (1 + k) (by simp; omega)

theorem secureAt_of_not_named {a : Nat} (h : m.named a = false) : m.secureAt a = false := by
  have : m.frameOf a = none := by simpa [Mach.named] using h
  simp only [Mach.secureAt, this]

theorem cutBy_bounds {a n : Nat} (hn : 0 < n) {q : Nat × Nat} (h : q ∈ cutBy 65536 a n) : a ≤ q.1 ∧ q.1 < a + n := by
  obtain ⟨k, hk, rfl⟩ := List.mem_map.1 h
  rw [List.mem_range] at hk
  simp only
  omega

/-- An access that meets no secure frame leaves no record. -/
theorem hostWorld_of_open {a n : Nat} (hn : 0 < n) (h : ∀ k < n, m.secureAt (a + k) = false) : m.hostWorld a n = m := by
  have hnone : (cutBy 65536 a n).find? (fun p => m.secureAt p.1) = none := by
    rw [List.find?_eq_none]
    intro q hq
    obtain ⟨h1, h2⟩ := cutBy_bounds hn hq
    have := h (q.1 - a) (by omega)
    rw [Nat.add_sub_cancel' h1] at this
    simp [this]
  simp only [Mach.hostWorld, Mach.worldRecord, hnone]

theorem hostWorld_dev_of_open (x : Memory) {a n : Nat} (hn : 0 < n) (h : ∀ k < n, m.secureAt (a + k) = false) :
    Mach.hostWorld { m with dev := x } a n = { m with dev := x } := hostWorld_of_open hn h

theorem popcount_le {n : Nat} (x : BitVec n) : popcount x ≤ n := by
  have := List.length_filter_le (fun i => x.getLsbD i) (List.range n)
  simpa [popcount] using this

/-- The last stage frame that a device address of die 0 can name holds no memory (R23, R495). -/
theorem last_frame_not_named {y : Nat} (hy : y < 65536) : m.named (2 ^ 46 + 65536 * (2 ^ 28 - 1) + y) = false := by
  have htier : (2 ^ 46 + 65536 * (2 ^ 28 - 1) + y) / 2 ^ 46 % 4 = 1 := by omega
  have hframe : (2 ^ 46 + 65536 * (2 ^ 28 - 1) + y) / 2 ^ 16 % 2 ^ 28 = 2 ^ 28 - 1 := by omega
  have hfew (d : Fin 4) : m.frames 1 d ≤ 268435455 := by
    have := popcount_le m.fuses.pch[d.val]
    simp only [Mach.frames, if_true]
    omega
  simp only [Mach.named, Mach.frameOf, htier, hframe]
  simp [hfew]

end device

end Sys2Proof.Proofs

namespace Sys2Proof.Proofs
open Sys2Proof Sys2Proof.Machine Sys2Proof.Claims

/-! ## Control-page registers that act (R214, R236) -/

section acting
variable {s : State} {ag : Agent} {c : Fin 64} {off : Nat} {v : Word} {i : Instr} {f : Mach → Mach}

/-- A register that acts does what its event does. -/
theorem pageStores_of_event (hp : s.boot.powered = true) (hw : writes s ag c) (hi : exec i s = ctlWrite ag c f s)
    (hf : s.m.pageWrite c off (fullW v) = f s.m) (h8 : off % 8 = 0 := by decide) (ho : off < 4096 := by decide)
    (hz : off ≠ 0 := by decide) : pageStores s ag c off v (exec i s) := by
  have hpg := exec_pageWrite (size := .b8) (v := v) hp hw ho h8 (.inr hz)
  rw [regW_full v h8, hf] at hpg
  rw [hi, ctlWrite_may hw.1.symm (mayWrite_of_writes hw)]
  exact hpg

theorem exec_replay_early (h : s.boot.state ≠ 2) : exec (.replay ag c v) s = .next s := by
  rw [exec, execReplay, ready_of_booting h]

theorem pageStores_replay (hp : s.boot.powered = true) (hw : writes s ag c) : pageStores s ag c 0x000 v (exec (.replay ag c v) s) := by
  by_cases h : s.boot.state = 2
  · have hpg := exec_pageWrite (off := 0) (size := .b8) (v := v) hp hw (by decide) (by decide) (.inl h)
    rw [regW_full v (by decide)] at hpg
    rw [exec, execReplay, ready_of_ready h, if_pos (mayWrite_of_writes hw)]
    have he : s.m.pageWrite c 0 (fullW v) = s.m.replay c (wf v 0 48) := congrArg (fun u => s.m.replay c (wf u 0 48)) (fullW_ones v)
    rw [he] at hpg
    exact hpg
  · rw [exec_replay_early h]
    exact exec_pageWrite_early h

/-- What TRES with its ACT does. -/
theorem tresAct_of_event {q : BitVec 32} (hq : q = v.extractLsb' 0 32)
    (h : (v.toNat / 2 ^ 32 % 4 = 0 ∧ i = .tresResume ag c q) ∨ (v.toNat / 2 ^ 32 % 4 = 1 ∧ i = .tresResumePast ag c q) ∨
      (v.toNat / 2 ^ 32 % 4 = 2 ∧ i = .tresRetire ag c q) ∨ (v.toNat / 2 ^ 32 % 4 = 3 ∧ i = .tresAbort ag c q)) :
    exec i s = ctlWrite ag c (fun m => m.tresAct c v) s := by
  have hact : wf v 32 2 = v.toNat / 2 ^ 32 % 4 := rfl
  subst hq
  rcases h with ⟨h, rfl⟩ | ⟨h, rfl⟩ | ⟨h, rfl⟩ | ⟨h, rfl⟩ <;> (simp only [Mach.tresAct, hact, h]; rfl)

/-- A GP register takes the whole word, in the order of the GP file. -/
theorem pageStores_gp (hp : s.boot.powered = true) (hw : writes s ag c) (k : Fin 64) :
    pageStores s ag c (0xA00 + 8 * k.val) v
      (.next (after s ((s.m.atGp c gpHost).onCtx c fun x => { x with gp := Machine.put x.gp k v }))) := by
  have hk := k.isLt
  have hpg := exec_pageWrite (off := 0xA00 + 8 * k.val) (size := .b8) (v := v) hp hw (by omega) (by omega) (.inr (by omega))
  rw [regW_full v (by omega), pageWrite_of_gp _ _ (by omega) (by omega), funext fun x => write_gp x k (fullW v)] at hpg
  simp only [fullW_over] at hpg
  exact hpg

theorem pageStores_unstored (hp : s.boot.powered = true) (hw : writes s ag c) (hu : unstored off) (h8 : off % 8 = 0) :
    pageStores s ag c off v (.next s) := by
  unfold unstored at hu
  rw [← pageBecomes_id s c]
  refine pageStores_of_write hp hw h8 (by omega) ?_ fun x => write_unstored x hu _
  simp only [acting, List.mem_cons, List.not_mem_nil, or_false]
  omega

/-- The machine once TDBASE of context c is written, before what was cached is dropped. -/
def withTdbase (m : Mach) (c : Fin 64) (v : Word) : Mach := m.onCtx c fun x => { x with tdbase := v.extractLsb' 0 48 }

theorem pageWrite_tdbase (m : Mach) : m.pageWrite c 0x220 (fullW v) = (withTdbase m c v).dropCached c := by
  have h (w : RegW) : m.pageWrite c 0x220 w =
      (m.onCtx c fun x => { x with tdbase := (w.over (x.read 0x220)).extractLsb' 0 48 }).dropCached c := rfl
  simp only [h, fullW_over, withTdbase]

/-- A write of TDBASE drops what the caches hold of the context. -/
theorem pageStores_tdbase (hp : s.boot.powered = true) (hw : writes s ag c) :
    ∃ m' : Mach, pageStores s ag c 0x220 v (.next (after s m')) ∧
      m'.ctxs = (s.m.onCtx c fun x => { x with tdbase := v.extractLsb' 0 48 }).ctxs ∧
      (∀ g, ∀ e ∈ (m'.core g).tcache, ¬ cachedOf c e) ∧
      (∀ d, (∀ e ∈ (m'.die d).gat.tcache, ¬ cachedOf c e) ∧ ∀ e ∈ (m'.die d).belfry.tcache, ¬ cachedOf c e) ∧
      m'.dev = s.m.dev ∧ m'.host = s.m.host ∧ m'.ops = s.m.ops ∧
      ∀ g, (m'.core g).spad = (s.m.core g).spad ∧ (m'.core g).task = (s.m.core g).task := by
  have hpg := exec_pageWrite (off := 0x220) (size := .b8) (v := v) hp hw (by decide) (by decide) (.inr (by decide))
  obtain ⟨p, hd, hdrop⟩ := dropCached_eq (withTdbase s.m c v) c
  rw [regW_full v (by decide), pageWrite_tdbase, hd] at hpg
  refine ⟨dropFrom p (withTdbase s.m c v), hpg, ?_, fun g e he => hdrop e (dropFrom_core p _ g e he),
    fun d => ⟨fun e he => ?_, fun e he => ?_⟩, ?_, ?_, ?_, fun g => ⟨?_, ?_⟩⟩
  · exact dropFrom_keeps p _ Mach.ctxs (fun _ _ _ => rfl) fun _ _ _ => rfl
  · exact hdrop e (dropFrom_unit p _ (d := d) (u := .gatherer) (by fin_cases d <;> decide) e he)
  · exact hdrop e (dropFrom_unit p _ (d := d) (u := .belfry) (by fin_cases d <;> decide) e he)
  · exact dropFrom_keeps p _ Mach.dev (fun _ _ _ => rfl) fun _ _ _ => rfl
  · exact dropFrom_keeps p _ Mach.host (fun _ _ _ => rfl) fun _ _ _ => rfl
  · exact dropFrom_keeps p _ Mach.ops (fun _ _ _ => rfl) fun _ _ _ => rfl
  · exact dropFrom_keeps p _ (fun m => (m.core g).spad) (fun m k f => onCore_keeps m k g _ Core.spad fun _ => rfl) fun _ _ _ => rfl
  · exact dropFrom_keeps p _ (fun m => (m.core g).task) (fun m k f => onCore_keeps m k g _ Core.task fun _ => rfl) fun _ _ _ => rfl

end acting

/-! ## Secure contexts (R365) -/

section secure
variable {s : State} {c : Fin 64}

theorem mayWrite_host_of_secure (h : (s.m.ctx c).secure = true) : s.m.mayWrite .host c = false := by
  simp [Mach.mayWrite, Mach.sec, h]

theorem exec_pageWriteOf_secure {i : Instr} (hi : pageWriteOf .host c i) (h : (s.m.ctx c).secure = true) : exec i s = .next s := by
  have hw := mayWrite_host_of_secure h
  rcases hi with ⟨v, rfl | rfl | rfl | rfl | rfl | rfl⟩ | ⟨q, rfl | rfl | rfl | rfl⟩
  case inl.inl =>
    by_cases hb : s.boot.state = 2
    · rw [exec, execReplay, ready_of_ready hb, if_neg (by simp [hw])]
    · exact exec_replay_early hb
  all_goals
    simp only [exec, execSusp, execCoal, execTinv, execFres, execKill, execTresResume, execTresResumePast, execTresRetire, execTresAbort]
    exact ctlWrite_not hw

theorem exec_registerWrite_secure {off : BitVec 20} {size : Size} {v : Word} (h : (s.m.ctx c).secure = true)
    (hl : 4096 * c.val ≤ off.toNat) (hu : off.toNat < 4096 * c.val + 4096) : exec (.registerWrite .host .control off size v) s = .next s := by
  have hctx : toCtx (8 * (off.toNat / 8) / 4096) = c := by
    rw [show 8 * (off.toNat / 8) / 4096 = c.val by omega]
    exact Fin.ofNat_val_eq_self ..
  rw [exec, execRegisterWrite]
  split
  · simp only [windowWrite, hctx, mayWrite_host_of_secure h, Bool.and_false, Bool.false_eq_true, if_false]
  · rfl

end secure

/-! ## The launch area (R355, R365) -/

section launch
variable {s : State} {x : BitVec 32} {size : Size} {v : Word}

theorem exec_launchAreaWrite (hp : s.boot.powered = true) (ha : x.toNat % Size.bytes size = 0) :
    exec (.launchAreaWrite x size v) s = .next (after s
      ((s.m.devWrite false (launchAddr s x.toNat) (leBytes (Size.bytes size) v.toNat)).hostWorld (launchAddr s x.toNat) (Size.bytes size))) := by
  rw [exec, execLaunchAreaWrite, if_pos (by simp [hp, aligned, ha]), after]

theorem leBytes_length (n v : Nat) : (leBytes n v).length = n := by simp [leBytes]

theorem bytes_pos (size : Size) : 0 < Size.bytes size := by cases size <;> decide

/-- An access to bytes that name no memory changes nothing. -/
theorem exec_launchAreaWrite_nowhere (hp : s.boot.powered = true) (ha : x.toNat % Size.bytes size = 0)
    (hn : ∀ k < Size.bytes size, s.m.named (launchAddr s x.toNat + k) = false) : exec (.launchAreaWrite x size v) s = .next s := by
  rw [exec_launchAreaWrite hp ha, devWrite_of_not, hostWorld_of_open (bytes_pos size) fun k hk => secureAt_of_not_named (hn k hk), after]
  intro k hk
  rw [leBytes_length] at hk
  simp [Mach.mayTouch, hn k hk]

theorem exec_launchAreaWrite_open (hp : s.boot.powered = true) (ha : x.toNat % Size.bytes size = 0)
    (hn : ∀ k < Size.bytes size, s.m.named (launchAddr s x.toNat + k) = true ∧ s.m.secureAt (launchAddr s x.toNat + k) = false) :
    exec (.launchAreaWrite x size v) s =
      .next (after s { s.m with dev := Memory.write s.m.dev (launchAddr s x.toNat) (leBytes (Size.bytes size) v.toNat) }) := by
  have hb : leBytes (Size.bytes size) v.toNat ≠ [] := by
    intro h
    have := congrArg List.length h
    rw [leBytes_length] at this
    exact absurd this (bytes_pos size).ne'
  rw [exec_launchAreaWrite hp ha, devWrite_of_may hb]
  · rw [hostWorld_dev_of_open _ (bytes_pos size) fun k hk => (hn k hk).2]
  intro k hk
  rw [leBytes_length] at hk
  obtain ⟨h1, h2⟩ := hn k hk
  simp [Mach.mayTouch, h1, h2]

theorem launchAddr_of_frame (h : s.boot.laframe.toNat + x.toNat / 65536 < 2 ^ 28) :
    launchAddr s x.toNat = 2 ^ 46 + 65536 * s.boot.laframe.toNat + x.toNat := by
  rw [launchAddr, Nat.min_eq_left (by omega)]
  omega

theorem launchAddr_past (h : 2 ^ 28 ≤ s.boot.laframe.toNat + x.toNat / 65536) :
    launchAddr s x.toNat = 2 ^ 46 + 65536 * (2 ^ 28 - 1) + x.toNat % 65536 := by
  rw [launchAddr, Nat.min_eq_right (by omega)]

/-- An aligned access stays within its frame. -/
theorem aligned_in_frame {k : Nat} (ha : x.toNat % Size.bytes size = 0) (hk : k < Size.bytes size) : x.toNat % 65536 + k < 65536 := by
  cases size <;> simp only [Size.bytes] at ha hk <;> omega

theorem exec_launchAreaWrite_past (hp : s.boot.powered = true) (ha : x.toNat % Size.bytes size = 0)
    (h : 2 ^ 28 ≤ s.boot.laframe.toNat + x.toNat / 65536) : exec (.launchAreaWrite x size v) s = .next s := by
  refine exec_launchAreaWrite_nowhere hp ha fun k hk => ?_
  rw [launchAddr_past h, Nat.add_assoc]
  exact last_frame_not_named (aligned_in_frame ha hk)

end launch

end Sys2Proof.Proofs

namespace Sys2Proof.Proofs
open Sys2Proof Sys2Proof.Machine Sys2Proof.Claims

/-! ## Registers that store every value -/

section stores
variable {s : State} {ag : Agent} {c : Fin 64} {v : Word}
variable (hp : s.boot.powered = true) (hw : writes s ag c)
include hp hw

theorem pageStores_fsb (n : Fin 8) : pageStores s ag c (0x610 + 16 * n.val) v
    (pageBecomes s c fun x => { x with fsb := Machine.put x.fsb n (v.extractLsb' 0 48) }) := by
  have hn := n.isLt
  refine pageStores_of_write hp hw (by omega) (by omega) ?_ fun x => by rw [write_fsb, fullW_over]
  simp only [acting, List.mem_cons, List.not_mem_nil, or_false]
  omega

theorem pageStores_fcnt (n : Fin 8) : pageStores s ag c (0x618 + 16 * n.val) v
    (pageBecomes s c fun x =>
      { x with fcnt := Machine.put x.fcnt n (v.extractLsb' 0 32), fcap := Machine.put x.fcap n (v.extractLsb' 32 32) }) := by
  have hn := n.isLt
  refine pageStores_of_write hp hw (by omega) (by omega) ?_ fun x => by rw [write_fcnt, fullW_over]
  simp only [acting, List.mem_cons, List.not_mem_nil, or_false]
  omega

theorem exec_write_tinvr_low (w : Word) : exec (.registerWrite ag .control (BitVec.ofNat 20 (4096 * c.val + 0x208)) .b4 w) s =
    pageBecomes s c fun x => { x with tinvrFirst := w.extractLsb' 0 32 } := by
  rw [exec_pageWrite hp hw (by decide) (by decide) (.inr (by decide)), pageWrite_of_storing _ _ (by decide) (by decide),
    funext fun x => write_tinvr_low x w]

end stores

theorem exec_registerWrite_discarded {s : State} {ag : Agent} {w : Window} {off : BitVec 20} {size : Size} {v : Word}
    (h : s.boot.powered = false ∨ off.toNat % Size.bytes size ≠ 0) : exec (.registerWrite ag w off size v) s = .next s := by
  rw [exec, execRegisterWrite, if_neg]
  rcases h with h | h
  · simp [h]
  · simp [aligned, h]

theorem exec_launchAreaWrite_discarded {s : State} {x : BitVec 32} {size : Size} {v : Word}
    (h : s.boot.powered = false ∨ x.toNat % Size.bytes size ≠ 0) : exec (.launchAreaWrite x size v) s = .next s := by
  rw [exec, execLaunchAreaWrite, if_neg]
  rcases h with h | h
  · simp [h]
  · simp [aligned, h]

theorem exec_msixUnmask {s : State} {n : Fin 130} (hp : s.boot.powered = true) :
    exec (.msixUnmask n) s = .next (after s (s.m.unmask n)) := by
  rw [exec, execMsixUnmask, if_pos hp, after]

/-- A pending bit that is taken away is clear. -/
theorem cleared_bit {k : Nat} (x : BitVec k) (n : Fin k) : (x &&& ~~~(BitVec.ofNat k (2 ^ n.val))).getLsbD n.val = false := by
  rw [BitVec.getLsbD_and, BitVec.getLsbD_not, BitVec.getLsbD_ofNat]
  simp

/-- Settles O47: a control-page write is `exec_pageWrite`, then what its register stores or does. -/
theorem hostWindowsWrite : Obligations.HostWindowsWrite := by
  refine ⟨fun s ag w off size v h => exec_registerWrite_discarded h, fun s ag c k v hp hw => pageStores_gp hp hw k,
    fun s ag c v hp hw => ?_, fun s ag c w hp hw => exec_write_tinvr_low hp hw w, fun s c i hi h => exec_pageWriteOf_secure hi h,
    fun s c off size v h hl hu => exec_registerWrite_secure h hl hu, fun s n hp => ⟨s.m.unmask n, exec_msixUnmask hp, ?_⟩,
    fun s x size v hp ha => ⟨fun h => ⟨fun hn => ?_, fun hn => ?_⟩, fun h => exec_launchAreaWrite_past hp ha h⟩,
    fun s x size v h => exec_launchAreaWrite_discarded h⟩
  · refine ⟨?_, ?_, ?_, ?_, ?_, ?_, ?_, ?_, ?_, ?_, ?_, ?_, ?_, ?_, ?_, ?_, ?_, ?_, pageStores_replay hp hw, exec_replay_early,
      ?_, ?_, ?_, ?_, ?_, fun i q hq hi => ?_, fun n => ⟨pageStores_fsb hp hw n, pageStores_fcnt hp hw n⟩,
      fun off hu h8 => pageStores_unstored hp hw hu h8, pageStores_tdbase hp hw⟩
    · exact pageStores_of_write hp hw (hf := fun x => by rw [write_drop_ones, fullW_ones])
    · exact pageStores_of_write hp hw (hf := fun x => by rw [write_dlk_ones, fullW_ones])
    · exact pageStores_of_write hp hw (hf := fun x => by rw [write_wd_ones, fullW_ones])
    · exact pageStores_of_write hp hw (hf := fun x => by rw [write_stray_ones, fullW_ones])
    · exact pageStores_of_write_if hp hw (hf := fun x => write_cwaddr x v)
    · exact pageStores_of_write_unless hp hw (hf := fun x => write_spin x v)
    · exact pageStores_of_write_unless hp hw (hf := fun x => write_twdog x v)
    · exact pageStores_of_write_unless hp hw (hf := fun x => write_trbase x v)
    · exact pageStores_of_write hp hw (hf := fun x => by rw [write_trtail_over, fullW_over])
    · exact pageStores_of_write hp hw (hf := fun x => by rw [write_tcont_over, fullW_over])
    · exact pageStores_of_write hp hw (hf := fun x => by rw [write_savebase_over, fullW_over])
    · exact pageStores_of_write hp hw (hf := fun x => by rw [write_recbase_over, fullW_over])
    · exact pageStores_of_write hp hw (hf := fun x => by rw [write_tinvr_over, fullW_over])
    · exact pageStores_of_write hp hw (hf := fun x => by rw [write_otbase_over, fullW_over])
    · exact pageStores_of_write hp hw (hf := fun x => by rw [write_nobj_over, fullW_over])
    · exact pageStores_of_write hp hw (hf := fun x => by rw [write_nrtail_over, fullW_over])
    · exact pageStores_of_write_if hp hw (hf := fun x => write_nrbase x v)
    · exact pageStores_of_write_unless hp hw (hf := fun x => write_nring x v)
    · exact pageStores_of_event (off := 0x018) (f := fun m => m.setCoal c v) hp hw rfl
        (congrArg (fun u => s.m.setCoal c u) (fullW_over v ((s.m.ctx c).read 0x018)))
    · exact pageStores_of_event (off := 0x050) (f := fun m => m.suspend c (wb v 0)) hp hw rfl
        (congrArg (fun u => s.m.suspend c (wb u 0)) (fullW_over v ((s.m.ctx c).read 0x050)))
    · exact pageStores_of_event (off := 0x200) (f := fun m => m.tinv c v) hp hw rfl
        (congrArg (fun u => s.m.tinv c u) (fullW_ones v))
    · exact pageStores_of_event (off := 0x228) (f := fun m => m.consume c (Fin.ofNat 16 (wf v 0 4))) hp hw rfl
        (congrArg (fun u => s.m.consume c (Fin.ofNat 16 (wf u 0 4))) (fullW_ones v))
    · exact pageStores_of_event (off := 0x700) (f := fun m => if wb v 0 then m.abort c 8 else m) hp hw rfl
        (congrArg (fun u => if wb u 0 then s.m.abort c 8 else s.m) (fullW_ones v))
    · exact pageStores_of_event (off := 0x038) (f := fun m => m.tresAct c v) hp hw (tresAct_of_event hq hi)
        (congrArg (fun u => s.m.tresAct c u) (fullW_ones v))
  · cases h : s.m.msiPend.getLsbD n.val with
    | true =>
      rw [unmask_of_pending h]
      exact ⟨by simp, cleared_bit .., rfl, rfl, fun _ => rfl, nofun⟩
    | false =>
      rw [unmask_of_idle h]
      exact ⟨by simp, h, rfl, rfl, nofun, fun _ => ⟨rfl, rfl⟩⟩
  · rw [exec_launchAreaWrite_open hp ha (launchAddr_of_frame h ▸ hn), launchAddr_of_frame h]
  · exact exec_launchAreaWrite_nowhere hp ha (launchAddr_of_frame h ▸ hn)

end Sys2Proof.Proofs

namespace Sys2Proof.Proofs
open Sys2Proof Sys2Proof.Machine Sys2Proof.Claims

/-! ## The registers of a die's units -/

section units
variable (m : Mach) (d : Fin 4)

@[simp] theorem onCamp_camp (f : Campanile → Campanile) : ((m.onCamp d f).die d).camp = f (m.die d).camp :=
  congrArg Die.camp (onDie_die ..)

@[simp] theorem onCup_cup (f : Cupola → Cupola) : ((m.onCup d f).die d).cup = f (m.die d).cup :=
  congrArg Die.cup (onDie_die ..)

@[simp] theorem onLan_lan (f : Lantern → Lantern) : ((m.onLan d f).die d).lan = f (m.die d).lan :=
  congrArg Die.lan (onDie_die ..)

end units

/-- An agent that may write registers acts on the machine. -/
theorem regWrite_of_writesRegs {s : State} {ag : Agent} (hw : writesRegs s ag) (f : Mach → Mach) :
    regWrite ag f s = .next (after s (f s.m)) := by
  rw [regWrite, if_pos (by simpa using hw.symm), after]

/-! ## Zeroing for an agent (R293, R313, R365) -/

theorem read1_devZero (m : Mach) (sec : Bool) (a n x : Nat) : Memory.read1 (m.devZero sec a n).dev x =
    if a ≤ x ∧ x < a + n ∧ m.mayTouch sec x = true then 0 else Memory.read1 m.dev x := by
  have hlook := lookup_filter x (fun k => !(decide (a ≤ k) && decide (k < a + n) && m.mayTouch sec k)) m.dev
  rw [Memory.read1, Mach.devZero, hlook]
  by_cases h : a ≤ x ∧ x < a + n ∧ m.mayTouch sec x = true
  · obtain ⟨hlo, hhi, ht⟩ := h
    simp [hlo, hhi, ht]
  · rw [if_neg h, if_pos (by by_contra hc; exact h (by simpa [and_assoc] using hc)), Memory.read1]

/-- Zeroing changes device memory, and what the report of a host's write changes. -/
theorem agentZero_frame (m : Mach) (ag : Agent) (a n : Nat) : ∃ h p q u y, m.agentZero ag a n =
    { m with dev := (m.devZero (agentSec ag) a n).dev, host := h, msiPend := p, msiSent := q, errhead := u, errlost := y } := by
  unfold Mach.agentZero
  split
  · exact ⟨_, _, _, _, _, rfl⟩
  · exact worldRecord_frame ..

section zeroing
variable (m : Mach) (ag : Agent) (a n x : Nat)

@[simp] theorem agentZero_cores : (m.agentZero ag a n).cores = m.cores := by
  obtain ⟨_, _, _, _, _, e⟩ := agentZero_frame m ag a n; rw [e]

@[simp] theorem agentZero_ctxs : (m.agentZero ag a n).ctxs = m.ctxs := by
  obtain ⟨_, _, _, _, _, e⟩ := agentZero_frame m ag a n; rw [e]

@[simp] theorem agentZero_die (d : Fin 4) : (m.agentZero ag a n).die d = m.die d := by
  obtain ⟨_, _, _, _, _, e⟩ := agentZero_frame m ag a n; rw [e, Mach.die, Mach.die]

/-- Who may touch a byte rests on no device memory and on no report. -/
@[simp] theorem agentZero_mayTouch (sec : Bool) : (m.agentZero ag a n).mayTouch sec x = m.mayTouch sec x := by
  obtain ⟨_, _, _, _, _, e⟩ := agentZero_frame m ag a n; rw [e]; rfl

theorem read1_agentZero : Memory.read1 (m.agentZero ag a n).dev x =
    if a ≤ x ∧ x < a + n ∧ m.mayTouch (agentSec ag) x = true then 0 else Memory.read1 m.dev x := by
  obtain ⟨_, _, _, _, _, e⟩ := agentZero_frame m ag a n
  rw [e, read1_devZero]

/-- A byte that is zero stays zero. -/
theorem read1_agentZero_of_zero (h : Memory.read1 m.dev x = 0) : Memory.read1 (m.agentZero ag a n).dev x = 0 := by
  rw [read1_agentZero, h, ite_self]

end zeroing

/-! ## The enables of Campanile and Cupola (R293, R313) -/

section enables
variable {m : Mach} {ag : Agent} {d : Fin 4} {v : Word}

theorem campCfg_of_clear (hv : v.getLsbD 0 = false) : m.campCfg ag d v = m.onCamp d fun k => { k with en := false } := by
  rw [Mach.campCfg, if_pos (by rw [wb, hv, Bool.not_false])]

/-- While EN stands, writing it again clears nothing. -/
theorem campCfg_of_standing (hv : v.getLsbD 0 = true) (he : (m.die d).camp.en = true) : m.campCfg ag d v = m := by
  rw [Mach.campCfg, if_neg (by simp [wb, hv]), if_pos he]

theorem campCfg_of_set (hv : v.getLsbD 0 = true) (he : (m.die d).camp.en = false) : m.campCfg ag d v = m.campEnable ag d := by
  rw [Mach.campCfg, if_neg (by simp [wb, hv]), if_neg (by simp [he])]

@[simp] theorem campEnable_camp : ((m.campEnable ag d).die d).camp = { (m.die d).camp with en := true } := by
  simp [Mach.campEnable]

@[simp] theorem campEnable_cores : (m.campEnable ag d).cores = m.cores := by simp [Mach.campEnable, Mach.onCamp]

@[simp] theorem campEnable_ctxs : (m.campEnable ag d).ctxs = m.ctxs := by simp [Mach.campEnable, Mach.onCamp]

/-- Every slot record and every index entry of the die that the agent may touch is zero: the slots are zeroed first,
and zeroing the index leaves them zero. -/
theorem read1_campEnable {a : Nat} (ht : m.mayTouch (agentSec ag) a = true)
    (ha : ((m.die d).camp.sdbase.toNat ≤ a ∧ a < (m.die d).camp.sdbase.toNat + 2 ^ 21) ∨
      ((m.die d).camp.hibase.toNat ≤ a ∧ a < (m.die d).camp.hibase.toNat + 2 ^ 25)) :
    Memory.read1 (m.campEnable ag d).dev a = 0 := by
  rw [Mach.campEnable, Mach.onCamp, onDie_dev]
  rcases ha with ⟨hlo, hhi⟩ | ⟨hlo, hhi⟩
  · refine read1_agentZero_of_zero _ _ _ _ _ ?_
    rw [read1_agentZero, if_pos ⟨hlo, hhi, ht⟩]
  · rw [read1_agentZero, if_pos ⟨hlo, hhi, by simpa using ht⟩]

theorem cupCfg_of_clear (hv : v.getLsbD 0 = false) : m.cupCfg ag d v = m.onCup d fun u => { u with en := false } := by
  rw [Mach.cupCfg, if_pos (by rw [wb, hv, Bool.not_false])]

theorem cupCfg_of_standing (hv : v.getLsbD 0 = true) (he : (m.die d).cup.en = true) : m.cupCfg ag d v = m := by
  rw [Mach.cupCfg, if_neg (by simp [wb, hv]), if_pos he]

theorem cupCfg_of_set (hv : v.getLsbD 0 = true) (he : (m.die d).cup.en = false) : m.cupCfg ag d v = m.cupEnable ag d := by
  rw [Mach.cupCfg, if_neg (by simp [wb, hv]), if_neg (by simp [he])]

@[simp] theorem cupEnable_en : ((m.cupEnable ag d).die d).cup.en = true := by simp [Mach.cupEnable]

@[simp] theorem cupEnable_cores : (m.cupEnable ag d).cores = m.cores := by simp [Mach.cupEnable, Mach.onCup]

@[simp] theorem cupEnable_ctxs : (m.cupEnable ag d).ctxs = m.ctxs := by simp [Mach.cupEnable, Mach.onCup]

theorem read1_cupEnable {a : Nat} (hlo : (m.die d).cup.sbbase.toNat ≤ a) (hhi : a < (m.die d).cup.sbbase.toNat + 2 ^ 23)
    (ht : m.mayTouch (agentSec ag) a = true) : Memory.read1 (m.cupEnable ag d).dev a = 0 := by
  rw [Mach.cupEnable, Mach.onCup, onDie_dev, read1_agentZero, if_pos ⟨hlo, hhi, ht⟩]

end enables

/-! ## Lantern's enable (R335) -/

section lantern
variable (l : Lantern) (v : Word)

/-- LCTX is ignored while EN stands. -/
theorem setCfg_of_standing (h : l.en = true) : l.setCfg v = { l with en := v.getLsbD 0 } := by
  rw [Lantern.setCfg, if_pos h, wb]

theorem setCfg_of_set (h : l.en = false) (hv : v.getLsbD 0 = true) : l.setCfg v =
    { l with lctx := toCtx (wf v 1 6), en := true, rseq := 0, arr := Vector.replicate 16 0, con := Vector.replicate 16 0 } := by
  rw [Lantern.setCfg, if_neg (by simp [h])]
  exact if_pos hv

theorem setCfg_of_clear (h : l.en = false) (hv : v.getLsbD 0 = false) : l.setCfg v = { l with lctx := toCtx (wf v 1 6) } := by
  rw [Lantern.setCfg, if_neg (by simp [h])]
  exact if_neg (by rw [wb, hv]; exact Bool.false_ne_true)

theorem setCfg_en : (l.setCfg v).en = v.getLsbD 0 := by
  cases h : l.en with
  | true => rw [setCfg_of_standing l v h]
  | false =>
    cases hv : v.getLsbD 0 with
    | true => rw [setCfg_of_set l v h hv]
    | false => rw [setCfg_of_clear l v h hv, h]

theorem lctx_field : (toCtx (wf v 1 6)).val = v.toNat / 2 % 64 := by
  simp [toCtx, wf, fld, Fin.ofNat]

theorem setCfg_lctx (h : l.en = false) : (l.setCfg v).lctx.val = v.toNat / 2 % 64 := by
  cases hv : v.getLsbD 0 with
  | true => rw [setCfg_of_set l v h hv, lctx_field]
  | false => rw [setCfg_of_clear l v h hv, lctx_field]

end lantern

/-! ## The enables of the pools (R294) -/

section pools
variable {m : Mach} {d : Fin 4} {p : Fin 16} {v : Word}

theorem poolCfg_of_clear (hv : v.getLsbD 11 = false) :
    m.poolCfg d p v = m.onCamp d fun k => { k with pools := upd k.pools p fun q => q.withCfg v false } :=
  if_neg (by rw [wb, hv]; exact Bool.false_ne_true)

theorem poolCfg_of_refused (hv : v.getLsbD 11 = true)
    (h : ((m.die d).camp.pools[p.val]).pen = true ∨ m.poolRefused d ((m.die d).camp.pools[p.val]) v = true) :
    m.poolCfg d p v = m := by
  rw [Mach.poolCfg, if_pos (by exact hv), if_pos (by simpa using h)]

theorem poolCfg_of_open (hv : v.getLsbD 11 = true) (hp : ((m.die d).camp.pools[p.val]).pen = false)
    (hr : m.poolRefused d ((m.die d).camp.pools[p.val]) v = false) : m.poolCfg d p v = m.poolOpen d p v := by
  rw [Mach.poolCfg, if_pos (by exact hv), if_neg (by simp [hp, hr])]

/-- A pool that opens keeps its bases and sizes, and its stack is full. -/
theorem poolOpen_pool : ((m.poolOpen d p v).die d).camp.pools[p.val] =
    { ((m.die d).camp.pools[p.val]).withCfg v true with fcnt := ((m.die d).camp.pools[p.val]).nblk } := by
  simp [Mach.poolOpen, Pool.withCfg]

@[simp] theorem poolOpen_cores : (m.poolOpen d p v).cores = m.cores := by simp [Mach.poolOpen, Mach.onCamp]

@[simp] theorem poolOpen_ctxs : (m.poolOpen d p v).ctxs = m.ctxs := by simp [Mach.poolOpen, Mach.onCamp]

end pools

/-! ## The units' enables -/

section unitWrites
variable {s : State} {ag : Agent} (hw : writesRegs s ag) (d : Fin 4) (v : Word)
include hw

theorem exec_campanileEnable : exec (.campanileEnable ag d v) s = .next (after s (s.m.campCfg ag d v)) :=
  regWrite_of_writesRegs hw fun m => m.campCfg ag d v

theorem exec_cupolaEnable : exec (.cupolaEnable ag d v) s = .next (after s (s.m.cupCfg ag d v)) :=
  regWrite_of_writesRegs hw fun m => m.cupCfg ag d v

theorem exec_lanternEnable : exec (.lanternEnable ag d v) s = .next (after s (s.m.onLan d fun l => l.setCfg v)) :=
  regWrite_of_writesRegs hw fun m => m.onLan d fun l => l.setCfg v

/-- Enabling and disabling a pool are one write, of its register +0x00. -/
theorem exec_poolWrite {p : Fin 16} {i : Instr} (hi : i = .poolEnable ag d p v ∨ i = .poolDisable ag d p v) :
    exec i s = .next (after s (s.m.poolCfg d p v)) := by
  rcases hi with rfl | rfl <;> exact regWrite_of_writesRegs hw fun m => m.poolCfg d p v

end unitWrites

theorem exec_powerControllerWindow (s : State) (d : Fin 4) : exec (.powerControllerWindow d) s = .next s := by
  rw [exec, execPowerControllerWindow, ready]
  split <;> rfl

/-- Settles O48: each enable is a register's write, and that register's `Cfg` has a lemma for each of its cases. -/
theorem unitsAreEnabled : Obligations.UnitsAreEnabled := by
  refine ⟨fun s ag d v hw => ⟨fun hv => ?_, fun hv he => ?_, fun hv he => ?_, fun hv => ?_, fun hv he => ?_, fun hv he => ?_, ?_⟩,
    fun s ag d p v hw i hi => ⟨fun hv => ?_, fun hv hr => ?_, fun hv hp hr => ?_⟩, exec_powerControllerWindow⟩
  · rw [exec_campanileEnable hw, campCfg_of_clear hv]
  · rw [exec_campanileEnable hw, campCfg_of_standing hv he, after]
  · rw [exec_campanileEnable hw, campCfg_of_set hv he]
    exact ⟨_, rfl, by simp, by simp, by simp, by simp, by simp, fun a ha ht => read1_campEnable ht ha⟩
  · rw [exec_cupolaEnable hw, cupCfg_of_clear hv]
  · rw [exec_cupolaEnable hw, cupCfg_of_standing hv he, after]
  · rw [exec_cupolaEnable hw, cupCfg_of_set hv he]
    exact ⟨_, rfl, by simp, by simp, by simp, fun a hlo hhi ht => read1_cupEnable hlo hhi ht⟩
  · refine ⟨_, exec_lanternEnable hw d v, ?_, rfl, rfl, fun he => ?_, fun he => ?_⟩ <;> rw [onLan_lan]
    · exact setCfg_en ..
    · rw [setCfg_of_standing _ v he]
      exact ⟨rfl, rfl⟩
    · refine ⟨setCfg_lctx _ v he, fun hv => ?_⟩
      rw [setCfg_of_set _ v he hv]
      exact ⟨rfl, fun ch => by simp⟩
  · rw [exec_poolWrite hw d v hi, poolCfg_of_clear hv]
    refine ⟨_, rfl, ?_, ?_, ?_, fun k hk => ?_, rfl, rfl⟩ <;> rw [onCamp_camp]
    · rw [upd_same, Pool.withCfg]
    · rw [upd_same, Pool.withCfg]
    · rw [upd_same, Pool.withCfg]
    · exact upd_other _ _ _ k.isLt fun e => hk (Fin.ext e.symm)
  · rw [exec_poolWrite hw d v hi, poolCfg_of_refused hv hr, after]
  · rw [exec_poolWrite hw d v hi, poolCfg_of_open hv hp hr]
    exact ⟨_, rfl, by rw [poolOpen_pool, Pool.withCfg], by rw [poolOpen_pool], poolOpen_cores, poolOpen_ctxs⟩

end Sys2Proof.Proofs

namespace Sys2Proof.Proofs
open Sys2Proof Sys2Proof.Machine Sys2Proof.Claims

/-! ## S registers (R62) -/

/-- Settles O1: reads of S0 and writes to it never reach the file, and the file keeps what is written. -/
theorem s0ReadsZeroAndDiscards : Obligations.S0ReadsZeroAndDiscards :=
  fun c x => ⟨rs_zero c, ws_zero c x, fun r hr => ⟨rs_ws_same c r x hr, fun _ hq => rs_ws_ne c r x hq⟩⟩

/-! ## SC at a parcel of AS (R48, R172, R199) -/

/-- A load that SC has presented and that its port has not performed. -/
def pendingLoad : PendAccess := ⟨0, false, 0, [], some ⟨1, 8, false⟩, none, none⟩

/-- A ready module on which SC of core 0 acts and has presented that load. -/
def loadingState : State :=
  { State.reset with
    boot := { Boot.reset with state := 2 }
    m := { (Mach.reset Fuses.full).onCore 0 fun c => { c with pend := some pendingLoad } with focus := .engine 0 .sc } }

/-- Refutes O30: with an entry and room, SC still waits at a parcel of AS while a load of its own is under way, as a register
that the parcel names may be the one that the load writes (R199). -/
theorem not_scPostsCommandOperands : ¬ Obligations.ScPostsCommandOperands := by
  intro h
  let i : Instr := .balloc ⟨none, none⟩ 1
  have hcore : loadingState.m.core 0 = { Core.reset with pend := some pendingLoad } := by
    simp [loadingState, Mach.reset, Mach.core, Mach.onCore, upd]
  have hroom : roomFor loadingState.m 0 [.asy] := by
    intro e _
    rw [hcore]
    simp [Core.reset]
  obtain ⟨hpost, -⟩ := h i loadingState 0 rfl ⟨rfl, rfl⟩
  have hpost := hpost (by rw [hcore]; decide) hroom
  have hwait : exec i loadingState = .next (after loadingState (scPost i 0 loadingState.m)) := by
    obtain ⟨work, he⟩ := exec_unitCommand (i := i) rfl loadingState
    rw [he, asParcel_sc (g := 0) rfl rfl, after]
  have hcq : ((scPost i 0 loadingState.m).core 0).cq = 0 := by
    rw [scPost, onCore_core, hcore]
    rfl
  rw [hwait, Host.Outcome.next.injEq] at hpost
  have := congrArg (fun s : State => (s.m.core 0).cq) hpost
  simp [after, hcq] at this

end Sys2Proof.Proofs

namespace Sys2Proof.Proofs
open Sys2Proof Sys2Proof.Machine Sys2Proof.Claims

/-! ## Token FIFOs (R59) -/

section tokens
variable (c : Core) (e : Engine) (t : Tok)

theorem tokIx_inj {p q p' q' : Engine} : tokIx p q = tokIx p' q' ↔ p = p' ∧ q = q' := by
  refine ⟨fun h => ?_, fun ⟨hp, hq⟩ => by rw [hp, hq]⟩
  have h' := congrArg Fin.val h
  simp only [tokIx, Fin.ofNat] at h'
  have := (engIx p).isLt
  have := (engIx q).isLt
  have := (engIx p').isLt
  have := (engIx q').isLt
  exact ⟨engIx_inj (Fin.ext (by omega)), engIx_inj (Fin.ext (by omega))⟩

/-- The tokens of every FIFO once one of them has changed. -/
theorem tokens_upd (f : Nat → Nat) (p q p' q' : Engine) :
    ({ c with tok := upd c.tok (tokIx p q) f } : Core).tokens p' q' =
      if p' = p ∧ q' = q then f (c.tokens p q) else c.tokens p' q' := by
  split
  · obtain ⟨rfl, rfl⟩ := ‹p' = p ∧ q' = q›
    exact upd_same ..
  · exact upd_other _ _ _ (tokIx p' q').isLt fun h => ‹¬ _› (tokIx_inj.1 (Fin.ext h.symm))

@[simp] theorem onE_tokens (f : EngState → EngState) (p q : Engine) : (c.onE e f).tokens p q = c.tokens p q := rfl

@[simp] theorem popTok_e (x : Engine) : (c.popTok e t).e x = c.e x := by obtain ⟨_, h⟩ := popTok_frame c e t; rw [h]; rfl

theorem popTok_tokens (p q : Engine) : (c.popTok e t).tokens p q =
    if q = e ∧ t.wait = some p ∧ (c.e e).tokp = false then c.tokens p q - 1 else c.tokens p q := by
  unfold Core.popTok
  cases ht : t.wait with
  | none => simp
  | some w =>
    by_cases hk : (c.e e).tokp = true
    · simp [hk]
    · have hk : (c.e e).tokp = false := by simpa using hk
      simp only [hk, Bool.false_eq_true, if_false, tokens_upd]
      by_cases h : p = w ∧ q = e
      · obtain ⟨rfl, rfl⟩ := h
        simp
      · rw [if_neg h, if_neg]
        rintro ⟨hq, hw, -⟩
        exact h ⟨(Option.some.inj hw).symm, hq⟩

theorem pushTok_tokens (s : Option Engine) (p q : Engine) : (c.pushTok e s).tokens p q =
    if p = e ∧ s = some q ∧ c.tokens e q < 8 then c.tokens p q + 1 else c.tokens p q := by
  unfold Core.pushTok
  cases s with
  | none => simp
  | some r =>
    by_cases hr : c.tokens e r < 8
    · simp only [hr, if_true, tokens_upd]
      by_cases h : p = e ∧ q = r
      · obtain ⟨rfl, rfl⟩ := h
        simp [hr]
      · rw [if_neg h, if_neg]
        rintro ⟨hp, hs, -⟩
        exact h ⟨hp, (Option.some.inj hs).symm⟩
    · simp only [hr, if_false, onE_tokens]
      rw [if_neg]
      rintro ⟨-, hs, h⟩
      exact hr (Option.some.inj hs ▸ h)

/-- An engine that pushes a token owes it where the FIFO is full, and is otherwise as it was. -/
theorem pushTok_e_self (s : Option Engine) : (c.pushTok e s).e e =
    match s with
    | some q => if c.tokens e q < 8 then c.e e else { c.e e with owed := some q }
    | none => c.e e := by
  unfold Core.pushTok
  cases s with
  | none => rfl
  | some q =>
    dsimp only
    split
    · rfl
    · rw [onE_e]

theorem pushTok_e_ne (s : Option Engine) {x : Engine} (h : x ≠ e) : (c.pushTok e s).e x = c.e x := by
  unfold Core.pushTok
  split
  · rfl
  · split
    · rfl
    · rw [onE_e_ne _ _ _ h]

end tokens

/-! ## An engine leaves an instruction (R50, R52, R59) -/

/-- Engine e leaves an instruction with its tokens, its walk going on as f says. -/
def leave (c : Core) (e : Engine) (t : Tok) (f : EngState → EngState) : Core :=
  ((c.popTok e t).onE e f).pushTok e t.sig

theorem retire_eq_leave (c : Core) (e : Engine) (len : Nat) (t : Tok) : c.retire e len t = leave c e t fun x => x.advance len := rfl

theorem transfer_eq_leave (c : Core) (e : Engine) (len : Nat) (t : Tok) (p : PAddr) (pops : Bool) :
    c.transfer e len t p pops = leave c e t fun x => x.jump len p pops := rfl

section leave
variable (c : Core) (e : Engine) (t : Tok) (f : EngState → EngState)

theorem leave_frame : leave c e t f = { c with tok := (leave c e t f).tok, eng := (leave c e t f).eng } := by
  unfold leave
  obtain ⟨a, h⟩ := popTok_frame c e t
  rw [h]
  obtain ⟨x, y, h⟩ := pushTok_frame (({ c with tok := a } : Core).onE e f) e t.sig
  rw [h]
  rfl

theorem leave_e_ne {x : Engine} (h : x ≠ e) : (leave c e t f).e x = c.e x := by
  rw [leave, pushTok_e_ne _ _ _ h, onE_e_ne _ _ _ h, popTok_e]

/-- The engine itself is as f says, but for the token that it may owe. -/
theorem leave_e_self : (leave c e t f).e e = f (c.e e) ∨ ∃ q, (leave c e t f).e e = { f (c.e e) with owed := some q } := by
  have h := pushTok_e_self ((c.popTok e t).onE e f) e t.sig
  rw [onE_e, popTok_e] at h
  rw [leave, h]
  split
  · split
    · exact .inl rfl
    · exact .inr ⟨_, rfl⟩
  · exact .inl rfl

/-- What does not rest on the owed token is as f says. -/
theorem leave_keeps {α : Type} (F : EngState → α) (h : ∀ (x : EngState) q, F { x with owed := q } = F x) :
    F ((leave c e t f).e e) = F (f (c.e e)) := by
  obtain e | ⟨q, e⟩ := leave_e_self c e t f
  · rw [e]
  · rw [e, h]

theorem leave_tokens (hs : t.sig ≠ some e) (p q : Engine) : (leave c e t f).tokens p q =
    if p = e ∧ t.sig = some q ∧ c.tokens e q < 8 then c.tokens p q + 1
    else if q = e ∧ t.wait = some p ∧ (c.e e).tokp = false then c.tokens p q - 1 else c.tokens p q := by
  rw [leave, pushTok_tokens]
  simp only [onE_tokens, popTok_tokens]
  by_cases hq : q = e
  · subst hq
    simp [hs]
  · simp [hq]

theorem leave_owed {q : Engine} (hs : t.sig = some q) (hq : q ≠ e) :
    ((leave c e t f).e e).owed = if c.tokens e q < 8 then (f (c.e e)).owed else some q := by
  have h := pushTok_e_self ((c.popTok e t).onE e f) e t.sig
  rw [leave, h, hs]
  simp only [onE_tokens, popTok_tokens, hq, false_and, if_false, onE_e, popTok_e]
  split <;> rfl

end leave

/-- How an engine's own walk goes on as it leaves an instruction of len parcels. -/
structure WalksOn (len : Nat) (x y : EngState) : Prop where
  walk : y.walk = x.walk + BitVec.ofNat 32 len
  rep : y.rep = 0
  tokp : y.tokp = false
  wait : y.wait = none
  job : y.job = none
  ended : y.ended = x.ended
  owed : y.owed = x.owed

theorem advance_walksOn (len : Nat) (x : EngState) : WalksOn len x (x.advance len) := ⟨rfl, rfl, rfl, rfl, rfl, rfl, rfl⟩

theorem jump_walksOn (len : Nat) (x : EngState) (p : PAddr) (pops : Bool) : WalksOn len x (x.jump len p pops) :=
  ⟨rfl, rfl, rfl, rfl, rfl, rfl, rfl⟩

theorem leave_movedOn {c : Core} {e : Engine} {len : Nat} {t : Tok} {f : EngState → EngState} (hw : t.wait ≠ some e)
    (hs : t.sig ≠ some e) (h : WalksOn len (c.e e) (f (c.e e))) : movedOn c (leave c e t f) e len t := by
  have tokens := leave_tokens c e t f hs
  refine ⟨(leave_keeps c e t f EngState.walk fun _ _ => rfl).trans h.walk, (leave_keeps c e t f EngState.rep fun _ _ => rfl).trans h.rep,
    (leave_keeps c e t f EngState.tokp fun _ _ => rfl).trans h.tokp, (leave_keeps c e t f EngState.wait fun _ _ => rfl).trans h.wait,
    (leave_keeps c e t f EngState.job fun _ _ => rfl).trans h.job, (leave_keeps c e t f EngState.ended fun _ _ => rfl).trans h.ended,
    fun p hp => ?_, fun q hq => ?_, fun p q hp hq => ?_, fun y hy => leave_e_ne c e t f hy, leave_frame c e t f⟩
  · have hpe : p ≠ e := fun he => hw (he ▸ hp)
    rw [tokens, if_neg fun h => hpe h.1]
    cases (c.e e).tokp <;> simp [hp]
  · have hqe : q ≠ e := fun he => hs (he ▸ hq)
    have ho := leave_owed c e t f hq hqe
    refine ⟨fun hr => ?_, fun hr => ?_⟩
    · rw [ho, if_pos hr, tokens, if_pos ⟨rfl, hq, hr⟩]
      exact ⟨rfl, h.owed⟩
    · rw [ho, if_neg (by omega), tokens, if_neg (by omega), if_neg fun h => hqe h.1]
      exact ⟨rfl, rfl⟩
  · rw [tokens, if_neg fun h => hq ⟨h.1, h.2.1⟩, if_neg fun h => hp ⟨h.1, h.2.1⟩]

/-! ## Loop bodies (R50, R381) -/

theorem endBodies_of_outside {pc last : Nat} {ls : List LoopEntry}
    (h : ∀ l, ls.head? = some l → ¬ (pc ≤ l.last.toNat ∧ l.last.toNat ≤ last)) :
    endBodies pc last ls = (BitVec.ofNat 22 (last + 1), ls) := by
  cases ls with
  | nil => rfl
  | cons l rest =>
    have hl := h l rfl
    rw [endBodies, if_neg (by simpa using hl)]

theorem inBody_iff (p : PAddr) (l : LoopEntry) : inBody p l = true ↔ l.first.toNat ≤ p.toNat ∧ p.toNat ≤ l.last.toNat := by
  simp [inBody]

/-- The bodies left by a transfer are the innermost ones, down to the first that holds the target. -/
theorem popBodies_splits (p : PAddr) (ls : List LoopEntry) :
    ∃ out, ls = out ++ popBodies p ls ∧ (∀ l ∈ out, inBody p l = false) ∧
      ∀ l, (popBodies p ls).head? = some l → inBody p l = true := by
  induction ls with
  | nil => exact ⟨[], rfl, nofun, nofun⟩
  | cons l rest ih =>
    by_cases hl : inBody p l = true
    · refine ⟨[], by simp [popBodies, hl], nofun, fun l' h => ?_⟩
      rw [popBodies, if_pos hl, List.head?_cons, Option.some.injEq] at h
      exact h ▸ hl
    · obtain ⟨out, hout, hleft, hhead⟩ := ih
      rw [popBodies, if_neg hl]
      refine ⟨l :: out, by rw [List.cons_append, ← hout], fun l' hl' => ?_, hhead⟩
      rcases List.mem_cons.1 hl' with rfl | hl'
      · simpa using hl
      · exact hleft l' hl'

/-- Settles O4: retirement and transfer leave an instruction alike (`leave_movedOn`), and differ in where the walk goes on. -/
theorem retireMovesOnAndPassesTokens : Obligations.RetireMovesOnAndPassesTokens := by
  intro c e len t hlen hw hs x
  refine ⟨fun hout => ?_, fun p pops => ?_⟩
  · have hend := endBodies_of_outside (pc := x.pc.toNat) (last := x.pc.toNat + len - 1) (ls := x.loops)
      fun l hl h => hout l hl (by omega)
    rw [retire_eq_leave]
    refine ⟨leave_movedOn hw hs (advance_walksOn ..), ?_, ?_⟩
    · rw [leave_keeps c e t _ EngState.pc fun _ _ => rfl, EngState.advance]
      dsimp only
      rw [hend, show x.pc.toNat + len - 1 + 1 = x.pc.toNat + len by omega, BitVec.ofNat_add, BitVec.ofNat_toNat,
        BitVec.setWidth_eq]
    · rw [leave_keeps c e t _ EngState.loops fun _ _ => rfl, EngState.advance]
      dsimp only
      rw [hend]
  · rw [transfer_eq_leave]
    have hl := leave_keeps c e t (fun x => x.jump len p pops) EngState.loops fun _ _ => rfl
    refine ⟨leave_movedOn hw hs (jump_walksOn ..), leave_keeps c e t _ EngState.pc fun _ _ => rfl, fun hp => ?_, fun hp => ?_⟩
    · rw [hl, hp]
      rfl
    · obtain ⟨out, hout, hleft, hhead⟩ := popBodies_splits p x.loops
      have hl : ((leave c e t fun x => x.jump len p pops).e e).loops = popBodies p x.loops := by rw [hl, hp]; rfl
      rw [hl]
      refine ⟨out, hout, fun l h => ?_, fun l h => (inBody_iff p l).1 (hhead l h)⟩
      rw [← inBody_iff, hleft l h]
      exact Bool.false_ne_true

end Sys2Proof.Proofs

namespace Sys2Proof.Proofs
open Sys2Proof Sys2Proof.Machine Sys2Proof.Claims

/-! ## Parcels that engines share (R45, R46) -/

/-- An update of a core rests on that core alone. -/
theorem onCore_congr {m : Mach} {g : Fin 256} {f f' : Core → Core} (h : f (m.core g) = f' (m.core g)) :
    m.onCore g f = m.onCore g f' := by
  have h : f m.cores[g.val] = f' m.cores[g.val] := h
  simp only [Mach.onCore, upd, h]

theorem onCore_onCore (m : Mach) (g : Fin 256) (f f' : Core → Core) :
    (m.onCore g f).onCore g f' = m.onCore g fun c => f' (f c) := by
  simp [Mach.onCore, upd]

section shared
variable {i : Instr} {s : State} {g : Fin 256} {e : Engine} {pre : Fin 256 → Mach → Option Cause} {eff : Fin 256 → Mach → Eff}
  {fin : Fin 256 → Mach → Mach} {other : Fin 256 → Engine → Mach → Mach}

/-- SC's share of a parcel that may issue and whose registers trap nothing. -/
theorem sharedParcel_done {m : Mach} (h : mayIssue i s g .sc) (hp : pre g s.m = none) (he : eff g s.m = .done m) :
    sharedParcel i (fun g => issue i g .sc (pre g) (eff g) (fin g)) other s = .next (after s (fin g m)) := by
  rw [sharedParcel_sc h.1.1 h.1.2, issue_done h hp he, after]

/-- What SC's registers trap comes before every effect (R94). -/
theorem sharedParcel_fault {f : Cause} (h : mayIssue i s g .sc) (hp : pre g s.m = some f) :
    sharedParcel i (fun g => issue i g .sc (pre g) (eff g) (fin g)) other s =
      .next (after s (s.m.takeTrap g .sc f 0 (infoOf i))) := by
  obtain ⟨⟨hb, hf⟩, hw, -, hs⟩ := h
  rw [sharedParcel_sc hb hf, issue_pre (illForm_of_wellFormed hw) hs hp, after]

theorem sharedParcel_follows {sc : Fin 256 → Mach → Mach} (h : acts s g e) (he : e ≠ .sc) (hs : shares i e = true) :
    sharedParcel i sc other s = .next (after s (other g e s.m)) := by
  rw [sharedParcel_other h.1 h.2 he hs, after]

end shared

/-! ## The engines behind SC at a transfer (R48, R49) -/

section follow
variable {s : State} {g : Fin 256} {e : Engine} (i : Instr) (pops : Bool)

theorem followPosted_eq {x : BitVec 128} (hx : (s.m.core g).outHead e = some x) :
    followPosted i pops g e s.m = s.m.onCore g fun c => (c.popOut e).transfer e (parcels i) noTok (x.setWidth 22) pops :=
  onCore_congr (by simp only [hx])

theorem pad_toNat (t : PAddr) : pad (t.toNat : Int) = t := by
  rw [pad, BitVec.ofInt_natCast, BitVec.ofNat_toNat, BitVec.setWidth_eq]

theorem followOff_offset (off : BitVec 16) :
    followOff i pops (fun m g e => offTarget m g e off) g e s.m = s.m.onCore g fun c =>
      c.transfer e (parcels i) noTok (BitVec.ofInt 22 (((c.e e).pc.toNat : Int) + off.toInt)) pops := onCore_congr rfl

theorem followOff_parcel (t : PAddr) : followOff i pops (fun _ _ _ => t.toNat) g e s.m = s.m.onCore g fun c =>
    c.transfer e (parcels i) noTok t pops := onCore_congr (by rw [pad_toNat])

theorem brOther_eq (off : BitVec 16) {x : BitVec 128} (hx : (s.m.core g).outHead e = some x) :
    brOther off g e s.m = s.m.onCore g fun c =>
      if x = 1 then (c.popOut e).transfer e 1 noTok (BitVec.ofInt 22 (((c.e e).pc.toNat : Int) + off.toInt)) true
      else (c.popOut e).retire e 1 noTok :=
  onCore_congr (by simp only [hx]; rfl)

end follow

/-- A transfer whose target SC posts is one parcel, which each other engine follows by the entry. -/
theorem exec_posted_follows {s : State} {g : Fin 256} {e : Engine} {i : Instr} {t : Int} {pops : Bool} {link : Option (Fin 32)}
    (h : acts s g e) (he : e ≠ .sc) (hi : jumpOf s.m g i = some (t, link, true, pops)) {x : BitVec 128}
    (hx : (s.m.core g).outHead e = some x) :
    exec i s = .next (after s (s.m.onCore g fun c => (c.popOut e).transfer e 1 noTok (x.setWidth 22) pops)) := by
  cases i with
  | jmpR | callR | ret =>
    obtain ⟨-, -, -, rfl⟩ := Prod.mk.inj (Option.some.inj hi) |>.imp id fun h => by simpa using h
    exact (sharedParcel_follows h he rfl).trans (congrArg _ (congrArg _ (followPosted_eq _ _ hx)))
  | jmp | jmpL | call | callL => simp [jumpOf] at hi
  | _ => exact nomatch hi

/-- Settles O5: each engine behind SC takes its own share of the parcel, by the entry, the offset or the parcel named. -/
theorem otherEnginesFollowTransfers : Obligations.OtherEnginesFollowTransfers := by
  intro s g e h he
  refine ⟨fun i t posted pops link hi hp x hx => exec_posted_follows h he (hp ▸ hi) hx, fun t off => ?_, fun t a off => ?_,
    fun t tgt => ?_, fun t a tgt => ?_, fun t k a b off x hx => ?_⟩
  · rw [exec, execJmp, sharedParcel_follows h he rfl, followOff_offset]; rfl
  · rw [exec, execCall, sharedParcel_follows h he rfl, followOff_offset]; rfl
  · rw [exec, execJmpL, sharedParcel_follows h he rfl, followOff_parcel]; rfl
  · rw [exec, execCallL, sharedParcel_follows h he rfl, followOff_parcel]; rfl
  · rw [exec, execBr, sharedParcel_follows h he rfl, brOther_eq _ hx]

end Sys2Proof.Proofs

namespace Sys2Proof.Proofs
open Sys2Proof Sys2Proof.Machine Sys2Proof.Claims

/-! ## Loops (R50, R397) -/

theorem goodTarget_iff (m : Mach) (g : Fin 256) (t : Int) : goodTarget m g t = true ↔ inText m g t := by
  unfold goodTarget inText
  cases (m.core g).task <;> simp

theorem outRoom_iff (m : Mach) (g : Fin 256) (es : List Engine) : (m.core g).outRoom es = true ↔ roomFor m g es := by
  simp [Core.outRoom, roomFor]

section loops
variable {s : State} {g : Fin 256}

/-- LOOP traps on SC exactly where its body ends beyond the text, it would count 2^32 times or more, or four bodies are open. -/
theorem loopFault_iff {m : Mach} {t : Int} {n : Nat} : loopFault m g t n = some .illegal ↔
    ¬ inText m g t ∨ 2 ^ 32 ≤ n ∨ n ≠ 0 ∧ 4 ≤ ((m.core g).e .sc).loops.length := by
  rw [loopFault, ← goodTarget_iff, Option.ite_none_right_eq_some, Bool.not_eq_true, Bool.or_eq_true, Bool.or_eq_true, or_assoc,
    Bool.not_eq_true', decide_eq_true_iff, Bool.and_eq_true, decide_eq_true_iff, decide_eq_true_iff]
  exact and_iff_left rfl

theorem loopFault_none {m : Mach} {t : Int} {n : Nat} (ht : inText m g t) (hn : n < 2 ^ 32)
    (hl : n ≠ 0 → ((m.core g).e .sc).loops.length < 4) : loopFault m g t n = none := by
  have h : ¬ loopFault m g t n = some .illegal := by
    rw [loopFault_iff]
    rintro (h | h | ⟨h0, h⟩)
    · exact h ht
    · omega
    · have := hl h0; omega
  unfold loopFault at h ⊢
  split
  · exact absurd (if_pos ‹_›) h
  · rfl

/-- SC opens the body, or passes it, once its parcel traps nothing and the posted count has room. -/
theorem loopSc_opens {i : Instr} {off : BitVec 16} {posted : Bool} {count : Mach → Fin 256 → Nat}
    {other : Fin 256 → Engine → Mach → Mach} (h : mayIssue i s g .sc) (hp : ctlFault s.m g i = none)
    (hr : posted = true → roomFor s.m g fiveEngines) :
    sharedParcel i (loopSc i off posted count) other s = .next (after s (s.m.onCore g fun c =>
      openLoop s.m .sc (tk i) off (count s.m g) (if posted then c.post fiveEngines (BitVec.ofNat 128 (count s.m g)) else c))) := by
  have hroom : (posted && !(s.m.core g).outRoom fiveEngines) = false := by
    cases posted with
    | false => rfl
    | true => simp [(outRoom_iff ..).2 (hr rfl)]
  refine sharedParcel_done (pre := fun g m => ctlFault m g i) (fin := fun _ => id) h hp ?_
  dsimp only
  rw [hroom]
  rfl

theorem loopSc_traps {i : Instr} {off : BitVec 16} {posted : Bool} {count : Mach → Fin 256 → Nat}
    {other : Fin 256 → Engine → Mach → Mach} {f : Cause} (h : mayIssue i s g .sc) (hp : ctlFault s.m g i = some f) :
    sharedParcel i (loopSc i off posted count) other s = .next (after s (s.m.takeTrap g .sc f 0 (infoOf i))) :=
  sharedParcel_fault (pre := fun g m => ctlFault m g i) h hp

end loops

/-- Settles O7: `openLoop` is what every engine does at a LOOP that traps nothing; SC alone traps. -/
theorem loopsOpenBodies : Obligations.LoopsOpenBodies := by
  intro s g off open'
  have opens (e : Engine) (k : Tok) (n : Nat) (c : Core) : openLoop s.m e k off n c = open' e k n c := rfl
  refine ⟨fun t n h ht hl => ?_, fun t a h ht hn hl hr => ?_, fun t n h hbad => ?_, fun t a h hbad => ?_,
    fun e he h => ⟨fun t n => ?_, fun t a x hx hn => ?_⟩⟩
  · have hn : n.toNat < 2 ^ 32 := by have := n.isLt; omega
    have hf : ctlFault s.m g (.loop t n off) = none :=
      loopFault_none ht hn fun h0 => hl fun hz => h0 (by rw [hz]; rfl)
    rw [exec, execLoop, loopSc_opens h hf fun hp => absurd hp Bool.false_ne_true]
    rfl
  · rw [exec, execLoopR, loopSc_opens h (loopFault_none ht hn hl) fun _ => hr]
    rfl
  · have hf : ctlFault s.m g (.loop t n off) = some .illegal := loopFault_iff.2 <| hbad.imp id fun ⟨h0, hl⟩ =>
      .inr ⟨fun hz => h0 (BitVec.eq_of_toNat_eq hz), hl⟩
    rw [exec, execLoop, loopSc_traps h hf]
  · have hf : ctlFault s.m g (.loopR t a off) = some .illegal := loopFault_iff.2 <| hbad.imp id <| Or.imp id fun ⟨h0, hl⟩ =>
      ⟨fun hz => h0 (BitVec.eq_of_toNat_eq hz), hl⟩
    rw [exec, execLoopR, loopSc_traps h hf]
  · rw [exec, execLoop, sharedParcel_follows h he rfl]
    rfl
  · rw [exec, execLoopR, sharedParcel_follows h he rfl]
    refine congrArg _ (congrArg _ (onCore_congr ?_))
    simp only [hx, Nat.mod_eq_of_lt hn]
    rfl

end Sys2Proof.Proofs

namespace Sys2Proof.Proofs
open Sys2Proof Sys2Proof.Machine Sys2Proof.Claims

/-! ## Special registers (R69, R70) -/

section special
variable {n : BitVec 12} {x : Word} (c : Core) (e : Engine)

theorem readSr_eq {m : Mach} {g : Fin 256} {k : CoreTask} {v : Word} (hk : (m.core g).task = some k)
    (hv : specialValue m g k n.toNat = some v) : readSr m g n = v := by
  simp only [readSr, hk]
  revert hv
  generalize n.toNat = r
  intro hv
  unfold specialValue at hv
  split
  · simpa using hv
  · simpa using hv
  · simpa using hv
  · simpa [Nat.mul_comm] using hv
  · simpa using hv
  · simpa [Nat.mul_comm] using hv
  · simpa using hv
  · simpa using hv
  · simpa using hv
  · cases hb : (m.core g).btmcfg[0] <;> simpa [hb] using hv
  · simpa using hv
  · simpa [Mach.clock] using hv
  · split_ifs at hv
    contradiction

theorem setSr_frame : ∃ w r d b, c.setSr e n x = { c with slipw := w, round := r, seed := d, btmcfg := b } := by
  unfold Core.setSr
  dsimp only
  split <;> exact ⟨_, _, _, _, rfl⟩

theorem post_frame (es : List Engine) (y : BitVec 128) : ∃ o, c.post es y = { c with out := o } := by
  unfold Core.post
  induction es generalizing c with
  | nil => exact ⟨_, rfl⟩
  | cons e es ih =>
    obtain ⟨o, h⟩ := ih { c with out := upd c.out (outIx e) (· ++ [y]) }
    exact ⟨o, h⟩

/-- The registers that SETSR may write are the four of `specialAccepts`. -/
theorem writable_of_specialAccepts {k : Nat} (h : specialAccepts k x) : k ∈ [0x010, 0x011, 0x012, 0x013] := by
  rcases h with ⟨h, -⟩ | ⟨h, -⟩ | h | ⟨h, -⟩ <;> simp [h]

theorem srReadOnly_of_writable (h : n.toNat ∈ [0x010, 0x011, 0x012, 0x013]) : srReadOnly n = false := by
  simp only [List.mem_cons, List.not_mem_nil, or_false] at h
  rcases h with h | h | h | h <;> simp [srReadOnly, h]

theorem srValueOk_iff (h : n.toNat ∈ [0x010, 0x011, 0x012, 0x013]) : srValueOk n x = true ↔ specialAccepts n.toNat x := by
  simp only [List.mem_cons, List.not_mem_nil, or_false] at h
  rcases h with h | h | h | h <;> simp [srValueOk, specialAccepts, h]

theorem srReaders_eq : srReaders n = specialReaders n.toNat := by
  unfold srReaders specialReaders
  split <;> rename_i h <;> simp_all

/-- The readers of a register besides SC are two for the draws and AS for BTMCFG. -/
theorem reader_cases (h : e ∈ specialReaders n.toNat) :
    ((n = 0x011 ∨ n = 0x012) ∧ (e = .vx ∨ e = .mx)) ∨ (n = 0x013 ∧ e = .asy) := by
  unfold specialReaders at h
  split_ifs at h with h1 h2
  · exact .inl ⟨h1.imp (fun h => BitVec.eq_of_toNat_eq h) fun h => BitVec.eq_of_toNat_eq h, by simpa using h⟩
  · exact .inr ⟨BitVec.eq_of_toNat_eq h2, by simpa using h⟩
  · exact absurd h List.not_mem_nil

theorem shares_of_reader {t : Tok} {a : Fin 32} (h : e ∈ specialReaders n.toNat) : shares (.setsr t a n) e = true ∧ e ≠ .sc := by
  obtain ⟨rfl | rfl, rfl | rfl⟩ | ⟨rfl, rfl⟩ := reader_cases e h <;> exact ⟨rfl, by decide⟩

/-- SC's post reaches every reader of the register. -/
theorem post_out_of_reader (h : e ∈ specialReaders n.toNat) (y : BitVec 128) :
    (c.post (srReaders n) y).out[(outIx e).val] = c.out[(outIx e).val] ++ [y] := by
  obtain ⟨rfl | rfl, rfl | rfl⟩ | ⟨rfl, rfl⟩ := reader_cases e h <;> simp [srReaders, Core.post, upd, outIx]

/-- A word that fits a field of w bits reads back from it. -/
theorem setWidth_setWidth_of_lt {w : Nat} (h : x.toNat < 2 ^ w) : (x.setWidth w).setWidth 64 = x := by
  have := x.isLt
  apply BitVec.eq_of_toNat_eq
  simpa [BitVec.toNat_setWidth, Nat.mod_eq_of_lt h] using this

theorem bit_word_of_le_one (h : x.toNat ≤ 1) : (if wb x 0 then 1 else 0 : Word) = x := by
  obtain h | h : x.toNat = 0 ∨ x.toNat = 1 := by omega
  · obtain rfl : x = 0 := BitVec.eq_of_toNat_eq h
    rfl
  · obtain rfl : x = 1 := BitVec.eq_of_toNat_eq h
    rfl

/-- An engine that holds a copy of the register reads back the value that it has taken. -/
theorem specialAt_setSr (he : e = .sc ∨ e ∈ specialReaders n.toNat) (h : specialAccepts n.toNat x) :
    specialAt (c.setSr e n x) e n.toNat = some x := by
  obtain ⟨hn, -, hx⟩ | ⟨hn, hx⟩ | hn | ⟨hn, hx⟩ := h
  · obtain rfl : n = 0x010 := BitVec.eq_of_toNat_eq hn
    obtain rfl : e = .sc := he.resolve_right List.not_mem_nil
    simp [specialAt, Core.setSr, setWidth_setWidth_of_lt (x := x) (w := 13) (by omega)]
  · obtain rfl : n = 0x011 := BitVec.eq_of_toNat_eq hn
    have hr := setWidth_setWidth_of_lt (x := x) (w := 3) (by omega)
    obtain rfl | rfl | rfl : e = .sc ∨ e = .vx ∨ e = .mx := he.imp id fun h => by simpa [specialReaders] using h
    all_goals simp [specialAt, Core.setSr, Machine.put, hr]
  · obtain rfl : n = 0x012 := BitVec.eq_of_toNat_eq hn
    obtain rfl | rfl | rfl : e = .sc ∨ e = .vx ∨ e = .mx := he.imp id fun h => by simpa [specialReaders] using h
    all_goals simp [specialAt, Core.setSr, Machine.put]
  · obtain rfl : n = 0x013 := BitVec.eq_of_toNat_eq hn
    have hr := bit_word_of_le_one hx
    obtain rfl | rfl : e = .sc ∨ e = .asy := he.imp id fun h => by simpa [specialReaders] using h
    all_goals simpa [specialAt, Core.setSr, Machine.put] using hr

end special

/-- Settles O9: SC's copy and each reader's are written by the one `Core.setSr`; what SC's register does not accept traps at
the parcel. -/
theorem specialRegistersReadAndWrite : Obligations.SpecialRegistersReadAndWrite := by
  refine ⟨fun t d n s g k v h hk hv => ?_, fun t a n s g => ⟨fun h hx hr => ?_, fun e hm h v hv hx => ?_⟩,
    fun t a n s g h => ⟨fun hn => ?_, fun hn hx => ?_⟩⟩
  · have he : execGetsr t d n s = _ := soloParcel_done h (by rfl) (by rfl)
    rw [exec, he, readSr_eq hk hv, retireSeq, onCore_onCore]
    rfl
  · have hw := writable_of_specialAccepts hx
    have hp : ctlFault s.m g (.setsr t a n) = none := by
      simp only [ctlFault, srReadOnly_of_writable hw, (srValueOk_iff hw).2 hx, Bool.false_eq_true, if_false, if_true]
    have hroom : (s.m.core g).outRoom (srReaders n) = true := (outRoom_iff ..).2 (srReaders_eq ▸ hr)
    obtain ⟨w, r, d, b, hf⟩ := setSr_frame (n := n) (x := (s.m.core g).rs a)
      ((s.m.core g).post (srReaders n) (((s.m.core g).rs a).setWidth 128)) .sc
    obtain ⟨o, hf'⟩ := post_frame (s.m.core g) (srReaders n) (((s.m.core g).rs a).setWidth 128)
    refine ⟨((s.m.core g).post (srReaders n) (((s.m.core g).rs a).setWidth 128)).setSr .sc n ((s.m.core g).rs a), ?_,
      specialAt_setSr _ _ (.inl rfl) hx, fun e he => ?_, by rw [hf, hf'], by rw [hf, hf'], by rw [hf, hf']⟩
    · have he : execSetsr t a n s = _ := sharedParcel_done (pre := fun g m => ctlFault m g (.setsr t a n))
        (eff := fun g m => if !(m.core g).outRoom (srReaders n) then .wait m else .done (m.onCore g fun c =>
          (c.post (srReaders n) (((m.core g).rs a).setWidth 128)).setSr .sc n ((m.core g).rs a)))
        (fin := fun g => retireSeq (.setsr t a n) g .sc) h hp (by simp only [hroom, Bool.not_true, Bool.false_eq_true, if_false]; rfl)
      rw [exec, he, retireSeq, onCore_onCore]
      exact congrArg _ (congrArg _ (onCore_congr rfl))
    · have := post_out_of_reader (s.m.core g) e he (((s.m.core g).rs a).setWidth 128)
      rw [hf]
      exact this
  · obtain ⟨hs, he⟩ := shares_of_reader (t := t) (a := a) e hm
    obtain ⟨w, r, d, b, hf⟩ := setSr_frame (n := n) (x := v.extractLsb' 0 64) ((s.m.core g).popOut e) e
    refine ⟨((s.m.core g).popOut e).setSr e n (v.extractLsb' 0 64), ?_, specialAt_setSr _ _ (.inr hm) hx, by rw [hf]; rfl,
      by rw [hf]; rfl⟩
    rw [exec, execSetsr, sharedParcel_follows h he hs]
    exact congrArg _ (congrArg _ (onCore_congr (by simp only [hv])))
  · have hp : ctlFault s.m g (.setsr t a n) = some .priv := by
      have hro : srReadOnly n = true := by
        simp only [List.mem_cons, List.not_mem_nil, or_false] at hn
        rw [srReadOnly, Bool.or_eq_true, decide_eq_true_iff, decide_eq_true_iff]
        omega
      simp only [ctlFault, hro, if_true]
    rw [exec, execSetsr]
    exact sharedParcel_fault (pre := fun g m => ctlFault m g (.setsr t a n)) h hp
  · have hp : ctlFault s.m g (.setsr t a n) = some .illegal := by
      have hv : srValueOk n ((s.m.core g).rs a) = false := by rw [← Bool.not_eq_true, srValueOk_iff hn]; exact hx
      simp only [ctlFault, srReadOnly_of_writable hn, hv, Bool.false_eq_true, if_false]
    rw [exec, execSetsr]
    exact sharedParcel_fault (pre := fun g m => ctlFault m g (.setsr t a n)) h hp

/-! ## TEND (R44, R432) -/

theorem stopAtEnd_e (c : Core) (e : Engine) (k : Tok) : (c.stopAtEnd e k).e e =
    { c.e e with ended := true, walk := (c.e e).walk + 1, tokp := false, wait := none } := by
  rw [Core.stopAtEnd, onE_e, popTok_e]

theorem stopAtEnd_frame (c : Core) (e : Engine) (k : Tok) : ∃ x y, c.stopAtEnd e k = { c with tok := x, eng := y } := by
  obtain ⟨x, h⟩ := popTok_frame c e k
  rw [Core.stopAtEnd, h]
  exact ⟨x, _, rfl⟩

theorem stopAtEnd_noTok_tok (c : Core) (e : Engine) : (c.stopAtEnd e noTok).tok = c.tok := rfl

theorem signalling_eq_nil_iff (m : Mach) (g : Fin 256) : m.signalling g = [] ↔ ∀ o ∈ m.ops, o.core = g → o.sig = none := by
  simp [Mach.signalling, List.filter_eq_nil_iff]

/-- Settles O11: every engine stops by `Core.stopAtEnd`; AS alone waits for the operations that signal. -/
theorem tendStopsEachEngine : Obligations.TendStopsEachEngine := by
  intro t s g
  have stops (e : Engine) (k : Tok) : let c' := (s.m.core g).stopAtEnd e k
      (c'.e e).ended = true ∧ (c'.e e).walk = ((s.m.core g).e e).walk + 1 ∧ (c'.e e).pc = ((s.m.core g).e e).pc := by
    simp [stopAtEnd_e]
  refine ⟨fun h => ?_, fun e he h hops => ?_, fun h ⟨o, ho, hg, hs⟩ => ?_⟩
  · obtain ⟨x, y, hf⟩ := stopAtEnd_frame (s.m.core g) .sc t
    obtain ⟨hended, hwalk, hpc⟩ := stops .sc t
    refine ⟨(s.m.core g).stopAtEnd .sc t, ?_, hended, hwalk, hpc, by rw [hf], by rw [hf]⟩
    have he : execTend t s = _ := sharedParcel_done (pre := fun _ => noPre) (fin := fun _ => id) h (by rfl) (by rfl)
    rw [exec, he]
    exact congrArg _ (congrArg _ (onCore_congr rfl))
  · obtain ⟨x, y, hf⟩ := stopAtEnd_frame (s.m.core g) e noTok
    obtain ⟨hended, hwalk, hpc⟩ := stops e noTok
    refine ⟨(s.m.core g).stopAtEnd e noTok, ?_, hended, hwalk, hpc, by rw [hf], stopAtEnd_noTok_tok ..⟩
    have hgo : (decide (e = .asy) && !(s.m.signalling g).isEmpty) = false := by
      by_cases ha : e = .asy
      · simp [(signalling_eq_nil_iff s.m g).2 (hops ha)]
      · simp [ha]
    rw [exec, execTend, sharedParcel_follows h he rfl]
    simp only [hgo, Bool.false_eq_true, if_false]
    exact congrArg _ (congrArg _ (onCore_congr rfl))
  · have hne : (s.m.signalling g).isEmpty = false := by
      rw [List.isEmpty_eq_false_iff, Ne, signalling_eq_nil_iff]
      exact fun hn => hs (hn o ho hg)
    rw [exec, execTend, sharedParcel_follows h (by decide) rfl]
    simp [hne, after]

end Sys2Proof.Proofs

namespace Sys2Proof.Proofs
open Sys2Proof Sys2Proof.Machine Sys2Proof.Claims

/-! ## Records of a dispatcher (R218, R221, R223) -/

theorem dstate_eq (r : Rec) : dstate r = stateCode r.state + 8 * r.epri + 32 * r.credit := by
  cases h : r.state <;> simp only [dstate, stateCode, h] <;> omega

theorem writeRec_of_none {m : Mach} {r : Rec} (h : r.addr = none) : m.writeRec r = m := by rw [Mach.writeRec, h]

theorem writeRec_of_some {m : Mach} {r : Rec} {a : BitVec 48} (h : r.addr = some a) :
    m.writeRec r = (m.ctxWrite r.ctx (a.toNat + 0x14) (leBytes 4 (stateCode r.state + 8 * r.epri + 32 * r.credit))).ctxWrite
      r.ctx (a.toNat + 0x0E) (leBytes 2 r.join.toNat) := by
  rw [Mach.writeRec, h, dstate_eq]

@[simp] theorem writeRec_cores (m : Mach) (r : Rec) : (m.writeRec r).cores = m.cores := by
  unfold Mach.writeRec
  split
  · rw [ctxWrite_cores, ctxWrite_cores]
  · rfl

@[simp] theorem writeRec_dies (m : Mach) (r : Rec) : (m.writeRec r).dies = m.dies := by
  unfold Mach.writeRec
  split
  · rw [ctxWrite_dies, ctxWrite_dies]
  · rfl

theorem ctxOf_of_cores {m m' : Mach} (h : m'.cores = m.cores) (g : Fin 256) : m'.ctxOf g = m.ctxOf g := by
  rw [Mach.ctxOf, Mach.core, h, Mach.ctxOf, Mach.core]

theorem getRec_of_dies {m m' : Mach} (h : m'.dies = m.dies) (d : Fin 4) (k : Nat) : m'.getRec d k = m.getRec d k := by
  rw [Mach.getRec, Mach.die, h, Mach.getRec, Mach.die]

section getRec
variable {m : Mach} {d : Fin 4} {k : Nat} {r : Rec}

theorem getRec_id (h : m.getRec d k = some r) : r.id = k := by simpa using List.find?_some h

/-- Records that keep their numbers are found as before. -/
theorem find?_map_of_id (l : List Rec) (f : Rec → Rec) (hf : ∀ r, (f r).id = r.id) :
    (l.map f).find? (fun r => r.id = k) = (l.find? fun r => r.id = k).map f := by
  have : (fun r : Rec => decide (r.id = k)) ∘ f = fun r => decide (r.id = k) := by
    funext r
    simp [hf]
  rw [List.find?_map, this]

theorem onRec_eq {f : Rec → Rec} (h : m.getRec d k = some r) : m.onRec d k f =
    (m.onDie d fun x => { x with recs := x.recs.map fun q => if q.id = k then f q else q }).writeRec (f r) := by
  rw [Mach.onRec, h]

theorem onRec_cores (f : Rec → Rec) : (m.onRec d k f).cores = m.cores := by
  unfold Mach.onRec
  split
  · rfl
  · rw [writeRec_cores, onDie_cores]

theorem getRec_onRec {f : Rec → Rec} (hf : ∀ r, (f r).id = r.id) (h : m.getRec d k = some r) :
    (m.onRec d k f).getRec d k = some (f r) := by
  rw [onRec_eq h, getRec_of_dies (writeRec_dies ..), Mach.getRec, onDie_die]
  rw [find?_map_of_id _ _ fun r => by split <;> simp [hf]]
  have h' : ((m.die d).recs.find? fun r => r.id = k) = some r := h
  simp [h', getRec_id h]

/-- Donation moves the effective priority of a record, and nothing else of it (R223). -/
theorem getRec_donate (c : Fin 64) (h : m.getRec d k = some r) : ∃ e, (m.donate c).getRec d k = some { r with epri := e } := by
  rw [Mach.getRec, Mach.donate, Mach.die]
  dsimp only
  rw [each_get _ _ d.isLt]
  dsimp only
  rw [find?_map_of_id _ _ fun r => by split <;> rfl]
  have h' : (m.dies[d.val].recs.find? fun r => r.id = k) = some r := h
  rw [h', Option.map_some]
  split
  · exact ⟨_, rfl⟩
  · exact ⟨r.epri, rfl⟩

theorem getRec_donateN (c : Fin 64) (n : Nat) (h : m.getRec d k = some r) :
    ∃ e, (m.donateN c n).getRec d k = some { r with epri := e } := by
  induction n generalizing m r with
  | zero => exact ⟨r.epri, h⟩
  | succ n ih =>
    obtain ⟨e, hd⟩ := getRec_donate c h
    obtain ⟨e', hn⟩ := ih hd
    exact ⟨e', hn⟩

theorem donateN_cores (m : Mach) (c : Fin 64) (n : Nat) : (m.donateN c n).cores = m.cores := by
  induction n generalizing m with
  | zero => rfl
  | succ n ih => rw [Mach.donateN, ih]; rfl

theorem refresh_cores (m : Mach) (c : Fin 64) : (m.refresh c).cores = m.cores := by
  have hw (m : Mach) (l : List (Fin 4 × Rec)) : (l.foldl (fun m r => m.writeRec r.2) m).cores = m.cores :=
    foldl_keeps Mach.cores (fun m p => writeRec_cores m p.2) l m
  rw [Mach.refresh, hw, donateN_cores]

theorem getRec_refresh (c : Fin 64) (h : m.getRec d k = some r) : ∃ e, (m.refresh c).getRec d k = some { r with epri := e } := by
  obtain ⟨e, he⟩ := getRec_donateN c ((m.ctx c).nodes.length + 1) h
  have hw (m : Mach) (l : List (Fin 4 × Rec)) : (l.foldl (fun m r => m.writeRec r.2) m).dies = m.dies :=
    foldl_keeps Mach.dies (fun m p => writeRec_dies m p.2) l m
  exact ⟨e, (getRec_of_dies (hw ..) d k).trans he⟩

theorem setState_cores (st : RState) : (m.setState d k st).cores = m.cores := by
  unfold Mach.setState
  split
  · rfl
  · rw [refresh_cores, onRec_cores]

/-- A change of state leaves of a record all but its state and its effective priority (R221, R223). -/
theorem getRec_setState (st : RState) (h : m.getRec d k = some r) :
    ∃ e, (m.setState d k st).getRec d k = some { r with state := st, epri := e } := by
  obtain ⟨e, he⟩ := getRec_refresh r.ctx (getRec_onRec (f := fun r => { r with state := st }) (fun _ => rfl) h)
  refine ⟨e, ?_⟩
  rw [Mach.setState, h]
  exact he

end getRec

/-! ## JOIN (R218, R433) -/

section decJoin
variable {m : Mach} {c : Fin 64} {d : Fin 4} {k : Nat} {r : Rec} (h : m.getRec d k = some r)
include h

theorem decJoin_stray (hr : r.state ≠ .waiting ∨ r.join = 0) : m.decJoin c d k = m.stray c := by
  have hr : (decide (r.state ≠ .waiting) || decide (r.join = 0)) = true := by simpa using hr
  rw [Mach.decJoin, h]
  exact if_pos hr

theorem decJoin_counts (hs : r.state = .waiting) (hj : 1 < r.join.toNat) : m.decJoin c d k =
    (m.onDie d fun x => { x with recs := x.recs.map fun q => if q.id = k then { q with join := q.join - 1 } else q }).writeRec
      { r with join := r.join - 1 } := by
  have h0 : ¬ (decide (r.state ≠ .waiting) || decide (r.join = 0)) = true := by
    simp only [hs, ne_eq, not_true, decide_false, Bool.false_or, decide_eq_true_iff]
    exact fun h => by simp [h] at hj
  have h1 : r.join ≠ 1 := fun h => by simp [h] at hj
  rw [Mach.decJoin, h]
  dsimp only
  rw [if_neg h0, if_neg h1, onRec_eq h]

theorem decJoin_readies (hs : r.state = .waiting) (hj : r.join = 1) : ∃ m' : Mach, m.decJoin c d k = m'.scan d ∧ m'.cores = m.cores ∧
    ∃ q, m'.getRec d k = some q ∧ q.state = .ready ∧ q.join = 0 ∧ q.order = m.nextId ∧ q.addr = r.addr ∧ q.ctx = r.ctx := by
  have h' : ({ m with nextId := m.nextId + 1 } : Mach).getRec d k = some r := h
  obtain ⟨e, he⟩ := getRec_setState .ready (getRec_onRec (f := fun r => { r with join := 0, order := m.nextId }) (fun _ => rfl) h')
  refine ⟨_, by simp [Mach.decJoin, h, hs, hj], by rw [setState_cores, onRec_cores], _, he, rfl, rfl, rfl, rfl, rfl⟩

end decJoin

/-! ## TSPAWN and TJOIN (R433, R435) -/

section tasks
variable {m : Mach} {g : Fin 256} {t : Tok} {a : Fin 32}

theorem memFault_tspawn (ha : ((m.core g).rs a).toNat % 64 = 0) (hr : ((m.core g).rs a).toNat + 64 ≤ 0x300000) :
    memFault m g (.tspawn t a) = none := by
  have : ¬ wf ((m.core g).rs a) 0 6 ≠ 0 := by simpa [wf, fld] using ha
  simp only [memFault]
  rw [if_neg this, if_neg (by omega)]

theorem memFault_tjoin (ha : ((m.core g).rs a).toNat % 32 = 0) (hr : ((m.core g).rs a).toNat < 2 ^ 48) :
    memFault m g (.tjoin t a) = none := by
  have h0 : ¬ wf ((m.core g).rs a) 0 5 ≠ 0 := by simpa [wf, fld] using ha
  have h1 : ¬ wf ((m.core g).rs a) 48 16 ≠ 0 := by
    rw [wf, fld, Nat.div_eq_of_lt hr]
    simp
  simp only [memFault]
  rw [if_neg h0, if_neg h1]

end tasks

/-- Settles O15: TSPAWN and TJOIN act through the dispatcher's `addRec`, `scan` and `decJoin`, whose cases are stated above. -/
theorem recordsAreSpawnedAndJoined : Obligations.RecordsAreSpawnedAndJoined := by
  refine ⟨fun t a s g h hm => ?_, fun t a s g h => ?_, fun m c d k r hk =>
    ⟨decJoin_stray hk, decJoin_counts hk, decJoin_readies hk⟩, fun m r => ⟨writeRec_of_none, fun a => writeRec_of_some⟩⟩
  · intro x ws addr ha hr hb hl
    have hl : ¬ recLimit ≤ (s.m.die (dieOf g)).recs.length := by rw [recLimit]; omega
    have he := soloParcel_done (i := .tspawn t a) (e := .sc) (m := s.m.spawn g ws) (pre := fun g m => memFault m g (.tspawn t a))
      (eff := fun g m =>
        let x := (m.core g).rs a
        let r := m.portRead (m.ctxOf g) g false x.toNat 64
        if !r.2 then .wait r.1
        else
          let m := r.1
          let ws := wordsOf 8 (Memory.read (m.core g).spad x.toNat 64)
          if spawnBad m g ws then .fail .cmdMalformed
          else if recLimit ≤ (m.die (dieOf g)).recs.length then .wait (m.waitOn g .sc .spawn (tk (.tspawn t a)))
          else .done (m.spawn g ws))
      (fin := fun g => retireSeq (.tspawn t a) g .sc) h (memFault_tspawn ha hr)
      (by simp only [portRead_good _ _ (hm g)]
          rw [if_neg (by simp), if_neg (by rw [show spawnBad s.m g _ = _ from hb]; simp), if_neg hl])
    rw [exec]
    refine Eq.trans he (congrArg _ (congrArg _ ?_))
    rw [retireSeq, Mach.spawn, ctxOf_of_cores (ctxWrite_cores ..)]
    rfl
  · intro x ha hr
    have he := soloParcel_done (i := .tjoin t a) (e := .sc) (m := match s.m.findRec (x.setWidth 48) with
        | some (d, r) => if r.ctx = s.m.ctxOf g then s.m.decJoin (s.m.ctxOf g) d r.id else s.m.stray (s.m.ctxOf g)
        | none => s.m.stray (s.m.ctxOf g)) (pre := fun g m => memFault m g (.tjoin t a))
      (eff := fun g m =>
        match m.findRec (((m.core g).rs a).setWidth 48) with
        | some (d, r) => .done (if r.ctx = m.ctxOf g then m.decJoin (m.ctxOf g) d r.id else m.stray (m.ctxOf g))
        | none => .done (m.stray (m.ctxOf g)))
      (fin := fun g => retireSeq (.tjoin t a) g .sc) h (memFault_tjoin ha hr) (by
        cases s.m.findRec (((s.m.core g).rs a).setWidth 48) <;> rfl)
    rw [exec, execTjoin]
    refine Eq.trans ?_ he
    rfl

end Sys2Proof.Proofs

namespace Sys2Proof.Proofs
open Sys2Proof Sys2Proof.Machine Sys2Proof.Claims

/-! ## The end of a body and of a repetition (R50, R54) -/

section advance
variable {x : EngState} {l : LoopEntry} {rest : List LoopEntry} {len : Nat}

theorem advance_repeats (hl : x.loops = l :: rest) (h0 : x.pc.toNat ≤ l.last.toNat) (h1 : l.last.toNat ≤ x.pc.toNat + len - 1)
    (hc : 1 < l.count.toNat) :
    (x.advance len).pc = l.first ∧ (x.advance len).loops = { l with count := l.count - 1 } :: rest := by
  simp [EngState.advance, endBodies, hl, h0, h1, hc]

theorem advance_leaves (hl : x.loops = l :: rest) (h0 : x.pc.toNat ≤ l.last.toNat) (h1 : l.last.toNat ≤ x.pc.toNat + len - 1)
    (hc : l.count.toNat ≤ 1) : (x.advance len).pc = (({ x with loops := rest } : EngState).advance len).pc ∧
      (x.advance len).loops = (({ x with loops := rest } : EngState).advance len).loops := by
  have hc : ¬ 1 < l.count.toNat := by omega
  simp [EngState.advance, endBodies, hl, h0, h1, hc]

end advance

section repEnd
variable {i : Instr} {g : Fin 256} {e : Engine} {rep : BitVec 6} {m : Mach}

theorem repEnd_last (h : ((m.core g).e e).rep = rep) : repEnd i g e rep m = m.onCore g fun c => c.retire e (parcels i) (tk i) := by
  rw [repEnd, if_pos h]
  rfl

/-- The core of an engine that goes on to the next repetition of its word. -/
def nextRep (c : Core) (e : Engine) (t : Tok) : Core :=
  (c.popTok e t).onE e fun x => { x with rep := x.rep + 1, tokp := true, wait := none, job := none }

theorem repEnd_next (h : ((m.core g).e e).rep ≠ rep) : repEnd i g e rep m = m.onCore g fun c => nextRep c e (tk i) := by
  rw [repEnd, if_neg h]
  rfl

theorem nextRep_e (c : Core) (t : Tok) :
    (nextRep c e t).e e = { c.e e with rep := (c.e e).rep + 1, tokp := true, wait := none, job := none } := by
  rw [nextRep, onE_e, popTok_e]

theorem nextRep_tokens {c : Core} {t : Tok} {p : Engine} (ht : t.wait = some p) :
    (nextRep c e t).tokens p e = if (c.e e).tokp then c.tokens p e else c.tokens p e - 1 := by
  rw [nextRep, onE_tokens, popTok_tokens]
  cases (c.e e).tokp <;> simp [ht]

end repEnd

/-! ## The acts of a repetition (R199, R280, R284) -/

/-- What a job has read once the line x has been read from core t. -/
def tookLine (m : Mach) (t : Fin 256) (x : LineRead) (j : Job) : Job :=
  { j with reads := j.reads.erase x,
           got := x.runs.foldl (fun (w : Memory) u => Memory.write w (x.tag * 2 ^ 24 + x.acc.toNat * 2 ^ 23 + u.1)
             (Memory.read (if x.acc then (m.core t).acc else (m.core t).spad) u.1 u.2)) j.got }

/-- A job once the line w has been written. -/
def wroteLine (w : LineWrite) (j : Job) : Job := { j with writes := j.writes.erase w, begun := true }

/-- A repetition with nothing left ends. -/
def endIfDone (g : Fin 256) (e : Engine) (fin : Mach → Mach) (m : Mach) : Mach :=
  match ((m.core g).e e).job with
  | some j => if j.reads = [] ∧ j.rows = [] ∧ j.writes = [] then fin m else m
  | none => m

section job
variable {m : Mach} {g t : Fin 256} {e : Engine} {j : Job} {eager : Bool} {row : Nat → Job → Mach → Mach} {fin : Mach → Mach}

@[simp] theorem onJob_job (c : Core) (e : Engine) (f : Job → Job) : ((c.onJob e f).e e).job = (c.e e).job.map f := by
  rw [Core.onJob, onE_e]

theorem readLine_clean (x : LineRead) (c : Fin 64) (h : (m.core t).clean = true) :
    m.readLine c g e t x = m.onCore g fun c => c.onJob e (tookLine m t x) := by
  simp only [Mach.readLine, portReads_good _ h, Bool.not_true, Bool.false_eq_true, if_false]
  rfl

theorem open_of_read (h : j.reads = []) : j.open eager = j.rows := by
  cases eager <;> simp [Job.open, h]

theorem mem_open {k : Nat} (h : k ∈ j.open eager) : k ∈ j.rows ∧ ∀ x ∈ j.reads, eager = true ∧ x.tag ≠ 0 ∧ x.tag ≠ k + 1 := by
  unfold Job.open at h
  cases eager with
  | true =>
    obtain ⟨hk, hr⟩ := List.mem_filter.1 h
    exact ⟨hk, fun x hx => ⟨rfl, by simpa using List.all_eq_true.1 hr x hx⟩⟩
  | false =>
    by_cases hr : j.reads = []
    · simp only [hr] at h ⊢
      exact ⟨h, nofun⟩
    · simp [hr] at h

theorem mem_inRowOrder {α : Type} {drain : Bool} {l : List α} {k : α} (h : k ∈ inRowOrder drain l) :
    k ∈ l ∧ (drain = true → l.head? = some k) := by
  cases drain with
  | false => exact ⟨h, fun h => absurd h Bool.false_ne_true⟩
  | true =>
    cases l with
    | nil => exact nomatch h
    | cons a l =>
      obtain rfl : k = a := by simpa [inRowOrder] using h
      exact ⟨List.mem_cons_self, fun _ => rfl⟩

theorem inRowOrder_eq_nil {α : Type} {drain : Bool} {l : List α} : inRowOrder drain l = [] ↔ l = [] := by
  cases drain <;> simp [inRowOrder]

theorem endIfDone_eq (m : Mach) : endIfDone g e fin m = match ((m.core g).e e).job with
    | some j => if j.reads.isEmpty && j.rows.isEmpty && j.writes.isEmpty then fin m else m
    | none => m := by
  unfold endIfDone
  split <;> simp [and_assoc]

theorem endIfDone_of_job (hj : ((m.core g).e e).job = some j) :
    endIfDone g e fin m = if j.reads = [] ∧ j.rows = [] ∧ j.writes = [] then fin m else m := by
  rw [endIfDone, hj]

/-- One act of a repetition reads a pending line, takes the result of a row that may give it, or writes a pending line; a drain
of MX takes its rows and its lines in their order (R199, R280, R284). -/
theorem jobAct_cases (hc : j.reads ≠ [] → (m.core t).clean = true) (hne : j.reads ≠ [] ∨ j.rows ≠ [] ∨ j.writes ≠ []) :
    (∃ x ∈ j.reads, m.jobAct g e t eager row fin j = endIfDone g e fin (m.onCore g fun c => c.onJob e (tookLine m t x))) ∨
    (∃ k ∈ j.rows, (∀ x ∈ j.reads, eager = true ∧ x.tag ≠ 0 ∧ x.tag ≠ k + 1) ∧ (e = .mx → eager = false → j.rows.head? = some k) ∧
      m.jobAct g e t eager row fin j = endIfDone g e fin (row k j m)) ∨
    (∃ w ∈ j.writes, (e = .mx → eager = false → j.writes.head? = some w) ∧
      m.jobAct g e t eager row fin j = endIfDone g e fin (m.onCore g fun c => (c.putLine w).onJob e (wroteLine w))) := by
  unfold Mach.jobAct
  dsimp only
  generalize hrows : inRowOrder (decide (e = .mx) && !eager) (j.open eager) = rows
  generalize hwrites : inRowOrder (decide (e = .mx) && !eager) j.writes = writes
  have hpos : 0 < j.reads.length + rows.length + writes.length := by
    by_contra h0
    obtain ⟨⟨hr, hk⟩, hw⟩ : (j.reads = [] ∧ rows = []) ∧ writes = [] := by simpa using Nat.eq_zero_of_not_pos h0
    rw [hk, inRowOrder_eq_nil, open_of_read hr] at hrows
    rw [hw, inRowOrder_eq_nil] at hwrites
    exact hne.elim (· hr) (Or.elim · (· hrows) (· hwrites))
  generalize hn : Config.pick m.seq % (j.reads.length + rows.length + writes.length) = n
  have hlt : n < j.reads.length + rows.length + writes.length := hn ▸ Nat.mod_lt _ hpos
  by_cases h1 : n < j.reads.length
  · refine .inl ⟨j.reads[n], List.getElem_mem _, ?_⟩
    rw [List.getElem?_eq_getElem h1]
    dsimp only
    rw [readLine_clean _ _ (hc (List.ne_nil_of_length_pos (Nat.zero_lt_of_lt h1)))]
    exact (endIfDone_eq _).symm
  · right
    rw [List.getElem?_eq_none (Nat.not_lt.1 h1)]
    by_cases h2 : n - j.reads.length < rows.length
    · have hmem : rows[n - j.reads.length] ∈ inRowOrder (decide (e = .mx) && !eager) (j.open eager) := by
        rw [hrows]
        exact List.getElem_mem h2
      obtain ⟨hk, hfirst⟩ := mem_inRowOrder hmem
      obtain ⟨hk, hopen⟩ := mem_open hk
      refine .inl ⟨rows[n - j.reads.length], hk, hopen, fun he hg => ?_, ?_⟩
      · have hr : j.reads = [] := List.eq_nil_iff_forall_not_mem.2 fun x hx => by simpa [hg] using (hopen x hx).1
        rw [← open_of_read hr]
        exact hfirst (by simp [he, hg])
      · rw [List.getElem?_eq_getElem h2]
        exact (endIfDone_eq _).symm
    · have h3 : n - j.reads.length - rows.length < writes.length := by omega
      have hmem : writes[n - j.reads.length - rows.length] ∈ inRowOrder (decide (e = .mx) && !eager) j.writes := by
        rw [hwrites]
        exact List.getElem_mem h3
      obtain ⟨hw, hfirst⟩ := mem_inRowOrder hmem
      refine .inr ⟨writes[n - j.reads.length - rows.length], hw, fun he hg => hfirst (by simp [he, hg]), ?_⟩
      rw [List.getElem?_eq_none (Nat.not_lt.1 h2), List.getElem?_eq_getElem h3]
      exact (endIfDone_eq _).symm

end job

/-- Settles O25: the ends of a body and of a repetition, and `jobAct_cases`. -/
theorem bodiesAndRepetitionsCountDown : Obligations.BodiesAndRepetitionsCountDown := by
  refine ⟨fun x l rest len _ hl h0 h1 => ⟨advance_repeats hl h0 h1, advance_leaves hl h0 h1⟩, fun i g e rep m => ?_,
    fun m g t e eager row fin j _ hc hne => jobAct_cases (fun _ => hc) hne⟩
  refine ⟨repEnd_last, fun h => ?_⟩
  have he : ((m.onCore g fun c => nextRep c e (tk i)).core g).e e = _ := (congrArg (Core.e · e) (onCore_core ..)).trans (nextRep_e ..)
  rw [repEnd_next h, he]
  refine ⟨rfl, rfl, rfl, rfl, rfl, fun p hp _ => ?_, fun k hk => onCore_core_ne _ _ _ hk⟩
  rw [onCore_core, nextRep_tokens hp]

end Sys2Proof.Proofs

namespace Sys2Proof.Proofs
open Sys2Proof Sys2Proof.Machine Sys2Proof.Claims

/-! ## LD and ST at a repetition (R54) -/

theorem exec_vld {i : Instr} {r : VSpec} {q : Fin 8} {rep : BitVec 6} {st : BitVec 10} {sp : Space} {et : EtM} {colp : Option Nat}
    (h : vldForm i = some (r, q, rep, st, sp, et, colp)) : exec i = ldWord i r q rep st sp et colp := by
  cases i with
  | vld t r' q' rep' st' sp' et' =>
    obtain ⟨rfl, rfl, rfl, rfl, rfl, rfl, rfl⟩ := by simpa [vldForm] using h
    rfl
  | vldx t r' q' rep' st' sp' et' k =>
    obtain ⟨rfl, rfl, rfl, rfl, rfl, rfl, rfl⟩ := by simpa [vldForm] using h
    rfl
  | _ => exact nomatch h

theorem exec_vst {i : Instr} {r : VSpec} {q : Fin 8} {rep : BitVec 6} {st : BitVec 10} {sp : Space} {et : EtM} {colp : Option Nat}
    (h : vstForm i = some (r, q, rep, st, sp, et, colp)) : exec i = stWord i r q rep st sp et colp := by
  cases i with
  | vst t r' q' rep' st' sp' et' =>
    obtain ⟨rfl, rfl, rfl, rfl, rfl, rfl, rfl⟩ := by simpa [vstForm] using h
    rfl
  | vstx t r' q' rep' st' sp' et' k =>
    obtain ⟨rfl, rfl, rfl, rfl, rfl, rfl, rfl⟩ := by simpa [vstForm] using h
    rfl
  | _ => exact nomatch h

/-- What the issue of a load's repetition does, its addresses good. -/
def ldEff (i : Instr) (g : Fin 256) (r : VSpec) (sp : Space) (et : EtM) (colp : Option Nat) (p : Pat) (k : Nat) (st : BitVec 10)
    (m : Mach) : Eff :=
  match ldTarget m g sp with
  | .empty => .wait m
  | .bad m' => .wait (m'.takeTrap g .ld .spadRange 0 (infoOf i))
  | .at t =>
    if !ldRoom (m.core g) r then .wait m
    else if heldBy m g .ld t then m.heldAt g .ld t (tk i)
    else if p.rot = 7 then ldView i (m.servedAt g .ld t) g t r sp p k st
    else ((m.servedAt g .ld t).onCore g (keepTarget sp t)).begins i g .ld (ldJob p r sp et colp (advOf st k))

/-- What the issue of a store's repetition does, its addresses good. -/
def stEff (i : Instr) (g : Fin 256) (sp : Space) (et : EtM) (colp : Option Nat) (p : Pat) (k : Nat) (st : BitVec 10) (m : Mach) : Eff :=
  match (m.core g).qt[3] with
  | [] => .wait m
  | x :: rest =>
    let c' := { m.core g with qt := Machine.put (m.core g).qt 3 rest }
    if p.rot = 7 then
      let t : Int := p.tilep + st.toInt * k
      let h := m.portReads (m.ctxOf g) g false (ctHead p.base t)
      if !h.2 then .wait h.1
      else
        match ctWrite c' p.base t (tileBytes x) with
        | some c'' => .done (h.1.onCore g fun k => { k with qt := c''.qt, spad := c''.spad, dirty := c''.dirty })
        | none => .wait (h.1.takeTrap g .st .spadRange 0 (infoOf i))
    else (m.onCore g fun _ => c').begins i g .st (stJob p (sp = .acc) et colp (advOf st k) x)

section issue
variable {i : Instr} {s : State} {g : Fin 256} {r : VSpec} {q : Fin 8} {rep : BitVec 6} {st : BitVec 10} {sp : Space} {et : EtM}
  {colp : Option Nat}

theorem exec_vld_issues (hi : vldForm i = some (r, q, rep, st, sp, et, colp)) (ha : acts s g .ld) (hj : ((s.m.core g).e .ld).job = none) :
    exec i s = .next (after s (issue i g .ld
      (fun _ => lsFault ((s.m.core g).pat 0 q) r sp et colp (advOf st ((s.m.core g).e .ld).rep.toNat))
      (ldEff i g r sp et colp ((s.m.core g).pat 0 q) ((s.m.core g).e .ld).rep.toNat st) id s.m)) := by
  rw [exec_vld hi, ldWord, soloParcel_own ha.1 ha.2, repetition, hj]
  rfl

theorem exec_vst_issues (hi : vstForm i = some (r, q, rep, st, sp, et, colp)) (ha : acts s g .st) (hj : ((s.m.core g).e .st).job = none) :
    exec i s = .next (after s (issue i g .st
      (fun _ => lsFault ((s.m.core g).pat 1 q) r sp et colp (advOf st ((s.m.core g).e .st).rep.toNat))
      (stEff i g sp et colp ((s.m.core g).pat 1 q) ((s.m.core g).e .st).rep.toNat st) (repEnd i g .st rep) s.m)) := by
  rw [exec_vst hi, stWord, soloParcel_own ha.1 ha.2, repetition, hj]
  rfl

theorem lsFault_eq (p : Pat) (adv : Int) : lsFault p r sp et colp adv =
    if p.rot = 7 ∧ colp = none then viewFault p r sp et else wordFault p r sp et colp adv := by
  simp [lsFault]

/-- An engine that may issue a parcel whose registers give it a fault takes the trap. -/
theorem issue_fault {e : Engine} {pre : Mach → Option Cause} {eff : Mach → Eff} {fin : Mach → Mach} {f : Cause} (h : mayIssue i s g e)
    (hp : pre s.m = some f) : issue i g e pre eff fin s.m = s.m.takeTrap g e f 0 (infoOf i) :=
  issue_pre (illForm_of_wellFormed h.2.1) h.2.2.2 hp

theorem issue_waits {e : Engine} {pre : Mach → Option Cause} {eff : Mach → Eff} {fin : Mach → Mach} {m : Mach} (h : mayIssue i s g e)
    (hp : pre s.m = none) (he : eff s.m = .wait m) : issue i g e pre eff fin s.m = m := by
  obtain ⟨-, hw, ht, hs⟩ := h
  rw [issue_eff (illForm_of_wellFormed hw) hp ht hs, he]

theorem scAccess_fault {a : Fin 32} {fn : BitVec 15} {n : Nat} {bytes : Core → List Byte} {load : Option PendLoad} {f : Cause}
    (h : mayIssue i s g .sc) (hf : memFault s.m g i = some f) :
    scAccess i a fn n bytes load s = .next (after s (s.m.takeTrap g .sc f 0 (infoOf i))) := by
  rw [scAccess, soloParcel_own h.1.1 h.1.2, issue_fault h hf, after]

/-- A scalar load or store whose address faults takes the trap. -/
theorem exec_scalar_fault {a : Fin 32} {fn : BitVec 15} {n : Nat} {f : Cause} (h : mayIssue i s g .sc)
    (hi : (∃ d wide, loadForm i = some (d, a, fn, n, wide)) ∨ ∃ b, storeForm i = some (a, b, fn, n))
    (ht : scTarget s.m g ((s.m.core g).rs a + fn.signExtend 64) n = .error f) :
    exec i s = .next (after s (s.m.takeTrap g .sc f 0 (infoOf i))) := by
  have hf : causeOf (scTarget s.m g (effAddr ((s.m.core g).rs a) fn) n) = some f := congrArg causeOf ht
  obtain ⟨d, wide, hi⟩ | ⟨b, hi⟩ := hi
  · cases i with
    | sld _ _ _ _ =>
      obtain ⟨rfl, rfl, rfl, rfl, rfl⟩ := by simpa [loadForm] using hi
      rw [exec, execSld, scLoad]
      exact scAccess_fault h hf
    | sldW _ _ _ _ =>
      obtain ⟨rfl, rfl, rfl, rfl, rfl⟩ := by simpa [loadForm] using hi
      rw [exec, execSldW, scLoad]
      exact scAccess_fault h hf
    | sldWs _ _ _ _ =>
      obtain ⟨rfl, rfl, rfl, rfl, rfl⟩ := by simpa [loadForm] using hi
      rw [exec, execSldWs, scLoad]
      exact scAccess_fault h hf
    | _ => exact nomatch hi
  · cases i with
    | sst _ _ _ _ =>
      obtain ⟨rfl, rfl, rfl, rfl⟩ := by simpa [storeForm] using hi
      rw [exec, execSst, scStore]
      exact scAccess_fault h hf
    | sstW _ _ _ _ =>
      obtain ⟨rfl, rfl, rfl, rfl⟩ := by simpa [storeForm] using hi
      rw [exec, execSstW, scStore]
      exact scAccess_fault h hf
    | _ => exact nomatch hi

end issue

section served
variable {α : Type} (m : Mach) (t : Fin 256) (c : Fin 64) (w : Who)

theorem unqueue_keeps (F : Core → α) (h : ∀ (k : Core) x, F { k with portq := x } = F k) (g : Fin 256) :
    F ((m.unqueue t c w).core g) = F (m.core g) := by
  unfold Mach.unqueue
  split
  · rfl
  · exact onCore_keeps _ _ _ _ F fun k => h k _

theorem dequeue_keeps (F : Core → α) (hq : ∀ (k : Core) x, F { k with portq := x } = F k)
    (hl : ∀ (k : Core) x, F { k with lastReq := x } = F k) (g : Fin 256) : F ((m.dequeue t c w).core g) = F (m.core g) := by
  rw [Mach.dequeue, noteReq_keeps _ _ _ F hl, unqueue_keeps _ _ _ _ F hq]

end served

/-! ## The compressed view (R158 to R160) -/

section view
variable {i : Instr} {m : Mach} {g t : Fin 256} {r : VSpec} {sp : Space} {et : EtM} {colp : Option Nat} {p : Pat} {k : Nat}
  {st : BitVec 10} {x : CtEntry} {bs : List Byte}

theorem ldView_good (hc : (m.core t).clean = true) (hl : ctLook (m.core t).spad p.base (p.tilep + st.toInt * k) = some x)
    (hr : ctRead (m.core t).spad p.base (p.tilep + st.toInt * k) = some bs) :
    ldView i m g t r sp p k st = (m.onCore g (keepTarget sp t)).begins i g .ld (viewJob r bs) := by
  simp [ldView, portReads_good _ hc, hl, hr]

theorem ldView_bad (hc : (m.core t).clean = true) (hl : ctLook (m.core t).spad p.base (p.tilep + st.toInt * k) = none) :
    ldView i m g t r sp p k st = .wait (m.takeTrap g .ld .spadRange 0 (infoOf i)) := by
  simp [ldView, portReads_good _ hc, hl]

theorem ldEff_at (ht : ldTarget m g sp = .at t) (hroom : ldRoom (m.core g) r = true) (hheld : heldBy m g .ld t = false) :
    ldEff i g r sp et colp p k st m =
      if p.rot = 7 then ldView i (m.servedAt g .ld t) g t r sp p k st
      else ((m.servedAt g .ld t).onCore g (keepTarget sp t)).begins i g .ld (ldJob p r sp et colp (advOf st k)) := by
  simp [ldEff, ht, hroom, hheld]

theorem servedAt_clean (hs : sound m) (e : Engine) (k : Fin 256) : ((m.servedAt g e t).core k).clean = true :=
  (dequeue_keeps _ _ _ _ Core.clean (fun _ _ => rfl) (fun _ _ => rfl) k).trans (hs k)

theorem servedAt_spad (e : Engine) (k : Fin 256) : ((m.servedAt g e t).core k).spad = (m.core k).spad :=
  dequeue_keeps _ _ _ _ Core.spad (fun _ _ => rfl) (fun _ _ => rfl) k

variable {y : Tile} {rest : List Tile}

theorem stEff_view_stores {c' : Core} (hs : sound m) (hq : (m.core g).qt[3] = y :: rest) (h7 : p.rot = 7)
    (hw : ctWrite { m.core g with qt := Machine.put (m.core g).qt 3 rest } p.base (p.tilep + st.toInt * k) (tileBytes y) = some c') :
    stEff i g sp et colp p k st m = .done (m.onCore g fun c => { c with qt := c'.qt, spad := c'.spad, dirty := c'.dirty }) := by
  simp [stEff, hq, h7, portReads_good _ (hs g), hw]

theorem stEff_view_full (hs : sound m) (hq : (m.core g).qt[3] = y :: rest) (h7 : p.rot = 7)
    (hw : ctWrite { m.core g with qt := Machine.put (m.core g).qt 3 rest } p.base (p.tilep + st.toInt * k) (tileBytes y) = none) :
    stEff i g sp et colp p k st m = .wait (m.takeTrap g .st .spadRange 0 (infoOf i)) := by
  simp [stEff, hq, h7, portReads_good _ (hs g), hw]

end view

/-- Settles O20: a fault of the registers comes before every other effect, and so do the checks of the view. -/
theorem addressFaultsTrap : Obligations.AddressFaultsTrap := by
  refine ⟨fun i s g a fn n f h hform ht => ?_, fun i s g r q rep st sp et colp f => ?_, fun i s g t r q rep st sp et h hj hi => ?_,
    fun i s g r q rep st sp et x rest h hj hi => ?_⟩
  · rw [exec_scalar_fault h hform ht]
  · intro faultAt
    refine ⟨fun h hj hi hf => ?_, fun h hj hi hf => ?_⟩
    · rw [exec_vld_issues hi h.1 hj, issue_fault h ((lsFault_eq ..).trans hf)]
    · rw [exec_vst_issues hi h.1 hj, issue_fault h ((lsFault_eq ..).trans hf)]
  · intro p h7 hv ht hroom hheld hs hl
    rw [← servedAt_spad (g := g) .ld] at hl
    rw [exec_vld_issues hi h.1 hj, issue_waits h]
    · rw [lsFault_eq, if_pos ⟨h7, rfl⟩, hv]
    · rw [ldEff_at ht hroom hheld, if_pos h7, ldView_bad (servedAt_clean hs _ _) hl]
  · intro c p h7 hv hq hs hw
    rw [exec_vst_issues hi h.1 hj, issue_waits h]
    · rw [lsFault_eq, if_pos ⟨h7, rfl⟩, hv]
    · exact stEff_view_full hs hq h7 hw

end Sys2Proof.Proofs

namespace Sys2Proof.Proofs
open Sys2Proof Sys2Proof.Machine Sys2Proof.Claims

/-! ## A line written (R168, R199) -/

section putLine
variable {c : Core} {w : LineWrite}

theorem putLine_eq (c : Core) (w : LineWrite) : c.putLine w = w.runs.foldl (fun c u => storedAt w.acc u.1 u.2 c) c := rfl

/-- What every single store keeps, a line keeps. -/
theorem putLine_keeps {α : Type} (F : Core → α) (h : ∀ a bs (c : Core), F (storedAt w.acc a bs c) = F c) : F (c.putLine w) = F c := by
  rw [putLine_eq]
  generalize w.runs = us
  induction us generalizing c with
  | nil => rfl
  | cons u us ih => exact ih.trans (h _ _ _)

theorem storedAt_w (acc : Bool) (a : Nat) (bs : List Byte) (c : Core) : (storedAt acc a bs c).w = c.w := by cases acc <;> rfl
theorem storedAt_m (acc : Bool) (a : Nat) (bs : List Byte) (c : Core) : (storedAt acc a bs c).m = c.m := by cases acc <;> rfl
theorem storedAt_qt (acc : Bool) (a : Nat) (bs : List Byte) (c : Core) : (storedAt acc a bs c).qt = c.qt := by cases acc <;> rfl
theorem storedAt_qw (acc : Bool) (a : Nat) (bs : List Byte) (c : Core) : (storedAt acc a bs c).qw = c.qw := by cases acc <;> rfl
theorem storedAt_task (acc : Bool) (a : Nat) (bs : List Byte) (c : Core) : (storedAt acc a bs c).task = c.task := by cases acc <;> rfl

@[simp] theorem putLine_eng : (c.putLine w).eng = c.eng := putLine_keeps Core.eng fun _ _ _ => storedAt_eng ..

@[simp] theorem putLine_e (e : Engine) : (c.putLine w).e e = c.e e := putLine_keeps (fun c => c.e e) fun _ _ c => by
  rw [Core.e, storedAt_eng]; rfl

/-- The bytes of a memory outside what is stored stay. -/
theorem read1_storedAt_outside (acc : Bool) {a y : Nat} {bs : List Byte} (h : y < a ∨ a + bs.length ≤ y) (c : Core) :
    Memory.read1 (storedAt acc a bs c).spad y = Memory.read1 c.spad y ∧
      Memory.read1 (storedAt acc a bs c).acc y = Memory.read1 c.acc y := by
  cases acc with
  | false => exact ⟨read1_write_outside _ _ _ h, rfl⟩
  | true => exact ⟨rfl, read1_write_outside _ _ _ h⟩

theorem read1_putLine_outside {y : Nat} (h : ∀ u ∈ w.runs, y < u.1 ∨ u.1 + u.2.length ≤ y) :
    Memory.read1 (c.putLine w).spad y = Memory.read1 c.spad y ∧ Memory.read1 (c.putLine w).acc y = Memory.read1 c.acc y := by
  rw [putLine_eq]
  generalize w.runs = us at h
  induction us generalizing c with
  | nil => exact ⟨rfl, rfl⟩
  | cons u us ih =>
    obtain ⟨hs, ha⟩ := ih (c := storedAt w.acc u.1 u.2 c) fun v hv => h v (List.mem_cons_of_mem _ hv)
    obtain ⟨hs', ha'⟩ := read1_storedAt_outside w.acc (h u List.mem_cons_self) c
    exact ⟨hs.trans hs', ha.trans ha'⟩

theorem read1_putLine_single {u : Nat × List Byte} {y : Nat} (h : w.runs = [u]) (h0 : u.1 ≤ y) (h1 : y < u.1 + u.2.length) :
    Memory.read1 (if w.acc then (c.putLine w).acc else (c.putLine w).spad) y = u.2.getD (y - u.1) 0 := by
  rw [putLine_eq, h, List.foldl_cons, List.foldl_nil]
  cases w.acc <;> simp [storedAt, read1_write, h0, h1]

/-- A dirty bit, once set, stays. -/
theorem storedAt_dirty_mono (acc : Bool) (a : Nat) (bs : List Byte) {n : Nat} (h : c.dirty.getLsbD n = true) :
    (storedAt acc a bs c).dirty.getLsbD n = true := by
  cases acc <;> simp [storedAt, Core.wspad, h]

theorem putLine_dirty {u : Nat × List Byte} (hw : w.acc = false) (hu : u ∈ w.runs) (hb : u.2 ≠ []) (ha : u.1 < 0x300000) :
    (c.putLine w).dirty.getLsbD (u.1 / 4096) = true := by
  rw [putLine_eq]
  generalize w.runs = us at hu
  obtain ⟨before, later, rfl⟩ := List.append_of_mem hu
  rw [List.foldl_append, List.foldl_cons]
  generalize before.foldl _ c = c
  have h0 : (storedAt w.acc u.1 u.2 c).dirty.getLsbD (u.1 / 4096) = true := hw ▸ storedAt_dirty _ _ _ ha hb
  generalize storedAt w.acc u.1 u.2 c = c at h0
  induction later generalizing c with
  | nil => exact h0
  | cons v later ih => exact ih (hu := by simp) _ (storedAt_dirty_mono _ _ _ h0)

end putLine

/-! ## What a store's row holds (R452, R453) -/

section stRuns
variable {p : Pat} {et : EtM} {colp : Option Nat} {adv : Int} {x : Tile} {b e : Nat}

theorem mem_stRuns_bytes (he : e < 64) (h : EtM.bytes et ≠ 0) :
    (elemAddr p et colp adv (64 * b + e), leBytes (EtM.bytes et) (laneOf x (64 * b + e)).toNat) ∈ stRuns p et colp adv x b :=
  List.mem_filterMap.2 ⟨e, List.mem_range.2 he, by simp [h]⟩

theorem mem_stRuns_nibbles (he : e < 64) (h : EtM.bytes et = 0) (h2 : e % 2 = 0) :
    (elemAddr p et colp adv (64 * b + e), [BitVec.ofNat 8 ((laneOf x (64 * b + e)).toNat % 16 +
      16 * ((laneOf x (64 * b + e + 1)).toNat % 16))]) ∈ stRuns p et colp adv x b :=
  List.mem_filterMap.2 ⟨e, List.mem_range.2 he, by simp [h, h2, fld]⟩

end stRuns

/-! ## The compressed view and a job of lines -/

theorem ctWrite_qt {c c' : Core} {r : Nat} {t : Int} {bs : List Byte} (h : ctWrite c r t bs = some c') : c'.qt = c.qt := by
  unfold ctWrite at h
  cases hl : ctLook c.spad r t with
  | none => simp [hl] at h
  | some x =>
    simp only [hl] at h
    split at h
    · cases h; rfl
    · split at h
      · cases h
      · cases h; rfl

theorem stEff_plain {i : Instr} {g : Fin 256} {sp : Space} {et : EtM} {colp : Option Nat} {p : Pat} {k : Nat} {st : BitVec 10}
    {m : Mach} {x : Tile} {rest : List Tile} (hq : (m.core g).qt[3] = x :: rest) (h7 : p.rot ≠ 7) :
    stEff i g sp et colp p k st m = .wait (m.onCore g fun c =>
      ({ c with qt := Machine.put c.qt 3 rest } : Core).beginJob .st (tk i) (stJob p (sp = .acc) et colp (advOf st k) x)) := by
  rw [stEff, hq]
  simp only [if_neg h7, Mach.begins, onCore_onCore]
  exact congrArg _ (onCore_congr rfl)

section stores
variable {i : Instr} {s : State} {g : Fin 256} {r : VSpec} {q : Fin 8} {rep : BitVec 6} {st : BitVec 10} {sp : Space} {et : EtM}
  {colp : Option Nat} {j : Job}

theorem exec_vst_acts (hi : vstForm i = some (r, q, rep, st, sp, et, colp)) (ha : acts s g .st) (hj : ((s.m.core g).e .st).job = some j) :
    exec i s = .next (after s (s.m.jobAct g .st g false (fun _ _ m => m) (repEnd i g .st rep) j)) := by
  rw [exec_vst hi, stWord, soloParcel_own ha.1 ha.2, repetition, hj]
  rfl

/-- A job of lines to be written writes one of them, and ends after the last. -/
theorem jobAct_writes {m : Mach} {e : Engine} {t : Fin 256} {eager : Bool} {row : Nat → Job → Mach → Mach} {fin : Mach → Mach}
    (hj : ((m.core g).e e).job = some j) (hr : j.reads = []) (hk : j.rows = []) (hw : j.writes ≠ []) :
    ∃ w ∈ j.writes, m.jobAct g e t eager row fin j =
      if j.writes.erase w = [] then fin (m.onCore g fun c => (c.putLine w).onJob e (wroteLine w))
      else m.onCore g fun c => (c.putLine w).onJob e (wroteLine w) := by
  obtain ⟨x, hx, -⟩ | ⟨k, hx, -⟩ | ⟨w, hw, -, h⟩ := jobAct_cases (m := m) (g := g) (t := t) (e := e) (eager := eager) (row := row)
    (fin := fin) (fun h => absurd hr h) (.inr (.inr hw))
  · exact absurd (hr ▸ hx) List.not_mem_nil
  · exact absurd (hk ▸ hx) List.not_mem_nil
  · refine ⟨w, hw, h.trans ?_⟩
    rw [endIfDone_of_job (j := wroteLine w j) (by rw [onCore_core, onJob_job, putLine_e, hj]; rfl)]
    simp [wroteLine, hr, hk]

end stores

/-- Settles O19: the issue pops Q3, each act writes a line, and a line changes its own bytes alone. -/
theorem vectorStoresStore : Obligations.VectorStoresStore := by
  refine ⟨fun i s g r q rep st sp et colp hi => ?_, fun p et colp adv x b e he => ⟨mem_stRuns_bytes he, mem_stRuns_nibbles he⟩,
    fun c w => ?_⟩
  · intro c k p adv
    refine ⟨fun h hj x rest hq => ⟨fun h7 hf => ?_, fun h7 hc hf hs c'' hw => ?_⟩, fun ha j hj hr hk hw => ?_⟩
    · refine ⟨stJob p (sp = .acc) et colp adv x, ?_, rfl, rfl, rfl, rfl⟩
      rw [exec_vst_issues hi h.1 hj, issue_waits h]
      · rw [lsFault_eq, if_neg fun h => h7 h.1]; exact hf
      · exact stEff_plain hq h7
    · rw [exec_vst_issues hi h.1 hj, issue_done h]
      · rw [lsFault_eq, if_pos ⟨h7, hc⟩, hf]
      · rw [stEff_view_stores hs hq h7 hw, ctWrite_qt hw]
        rfl
    · rw [exec_vst_acts hi ha hj]
      obtain ⟨w, hw, h⟩ := jobAct_writes (t := g) (eager := false) (row := fun _ _ m => m) (fin := repEnd i g .st rep) hj hr hk hw
      exact ⟨w, hw, by rw [h]; rfl⟩
  · intro c'
    refine ⟨fun y => read1_putLine_outside, fun u h y => read1_putLine_single h, fun h => ⟨?_, fun u => putLine_dirty h⟩,
      fun h => ⟨?_, ?_⟩, ?_, ?_, ?_, ?_, ?_, ?_, putLine_eng, ?_, ?_⟩
    · exact putLine_keeps Core.acc fun _ _ _ => by rw [h]; rfl
    · exact putLine_keeps Core.spad fun _ _ _ => by rw [h]; rfl
    · exact putLine_keeps Core.dirty fun _ _ _ => by rw [h]; rfl
    · exact putLine_keeps Core.s fun _ _ _ => storedAt_s ..
    · exact putLine_keeps Core.v fun _ _ _ => storedAt_v ..
    · exact putLine_keeps Core.w fun _ _ _ => storedAt_w ..
    · exact putLine_keeps Core.m fun _ _ _ => storedAt_m ..
    · exact putLine_keeps Core.qt fun _ _ _ => storedAt_qt ..
    · exact putLine_keeps Core.qw fun _ _ _ => storedAt_qw ..
    · exact putLine_keeps Core.tok fun _ _ _ => storedAt_tok ..
    · exact putLine_keeps Core.task fun _ _ _ => storedAt_task ..

end Sys2Proof.Proofs

namespace Sys2Proof.Proofs
open Sys2Proof Sys2Proof.Machine Sys2Proof.Claims

/-! ## Lanes of a tile -/

section lanes
variable {l : Nat}

@[simp] theorem laneOf_tileOf (f : Nat → Lane) (h : l < 1024) : laneOf (tileOf f) l = f l := by simp [laneOf, tileOf, h]

theorem laneOf_eq (t : Tile) (h : l < 1024) : laneOf t l = t[l] := by simp [laneOf, h]

theorem laneOf_put (t : Tile) (n : Fin 1024) (x : Lane) : laneOf (Machine.put t n x) l = if l = n.val then x else laneOf t l := by
  by_cases h : l < 1024
  · rw [laneOf_eq _ h, laneOf_eq _ h, Machine.put, Vector.getElem_set]
    simp only [eq_comm]
  · have hn : l ≠ n.val := by omega
    simp [laneOf, hn, h]

theorem masked_off {c : Core} {k : Fin 8} {old : Tile} {f : Nat → Lane} (h : l < 1024) (hk : c.on k l = false) :
    laneOf (c.masked k old f) l = laneOf old l := by
  rw [Core.masked, laneOf_tileOf _ h, hk, if_neg Bool.false_ne_true]

end lanes

/-! ## How a VX instruction completes (R437) -/

section complete
variable {i : Instr} {s : State} {g : Fin 256} {w : Nat} {srcs : List VSpec} {ts : List Tile} {c' : Core}

/-- A parcel that is done and whose effect replaces the core retires with it. -/
theorem retireSeq_onCore (m : Mach) (e : Engine) (f : Core → Core) :
    retireSeq i g e (m.onCore g f) = m.onCore g fun c => (f c).retire e (parcels i) (tk i) :=
  onCore_onCore m g f _

theorem vxTo_completes {d : VSpec} {res : VxIn → Tile → Tile} (h : mayIssue i s g .vx)
    (hr : (s.m.core g).readSpecs w srcs = some (ts, c')) (hd : (s.m.core g).destRoom d = true) :
    vxTo i w srcs d res s = .next (retired s g .vx i fun _ =>
      c'.writeDest d (res ⟨(s.m.core g).env .vx 1, s.m.core g, ts⟩ ((s.m.core g).oldDest d))) := by
  rw [vxTo, soloParcel_done (m := s.m.onCore g fun _ =>
    c'.writeDest d (res ⟨(s.m.core g).env .vx 1, s.m.core g, ts⟩ ((s.m.core g).oldDest d))) h rfl]
  · rw [retireSeq_onCore]
    rfl
  · simp [hr, hd]

theorem vxMask_completes {d : Fin 8} {f : VxIn → Nat → Bool} (h : mayIssue i s g .vx)
    (hr : (s.m.core g).readSpecs w srcs = some (ts, c')) :
    ∃ x : BitVec 1024, vxMask i w srcs d f s = .next (retired s g .vx i fun _ => c'.wm d x) ∧
      ∀ l, l < 1024 → x.getLsbD l = f ⟨(s.m.core g).env .vx 1, s.m.core g, ts⟩ l := by
  refine ⟨(BitVec.ofBoolListLE ((List.range 1024).map (f ⟨(s.m.core g).env .vx 1, s.m.core g, ts⟩))).setWidth 1024, ?_, fun l hl => ?_⟩
  · rw [vxMask, soloParcel_done (m := s.m.onCore g fun _ => c'.wm d ((BitVec.ofBoolListLE
      ((List.range 1024).map (f ⟨(s.m.core g).env .vx 1, s.m.core g, ts⟩))).setWidth 1024)) h rfl]
    · rw [retireSeq_onCore]
      rfl
    · simp [hr]
  · rw [BitVec.getLsbD_setWidth, BitVec.getLsbD_ofBoolListLE]
    simp [hl]

end complete

/-! ## The shape of a VX instruction with a tile destination -/

/-- A VX instruction that writes, from its sources and its destination's old lanes, the lanes that mask k lets through. -/
def MaskedVx (i : Instr) (d : VSpec) (k : Fin 8) (s : State) (out : Out) : Prop :=
  ∃ w, ∃ f : VxIn → Tile → Nat → Lane, out = vxTo i w (vxSources i) d (fun v old => v.core.masked k old (f v old)) s

section shape
variable {i : Instr} {d a : VSpec} {k : Fin 8} {s : State}

theorem vxLanes_masked {w : Nat} {f : VxIn → Nat → Lane} : MaskedVx i d k s (vxLanes i w (vxSources i) d k f s) :=
  ⟨w, fun v _ => f v, rfl⟩

theorem vxFloat_masked {t : FTy} {f : VxIn → Nat → Val} : MaskedVx i d k s (vxFloat i (vxSources i) d k t f s) := vxLanes_masked

theorem vxInt_masked {t : ITy} {f : VxIn → Nat → Int} : MaskedVx i d k s (vxInt i (vxSources i) d k t f s) := vxLanes_masked

theorem vxReduce_masked {ty : DTy} {op : AxisOp} {row : Bool} (ha : vxSources i = [a]) :
    MaskedVx i d k s (vxReduce i a d k ty op row s) := ⟨_, fun v _ => _, by rw [ha]; rfl⟩

theorem vxScan_masked {ty : DTy} {op : AxisOp} {row : Bool} (ha : vxSources i = [a]) :
    MaskedVx i d k s (vxScan i a d k ty op row s) := ⟨_, fun v _ => _, by rw [ha]; rfl⟩

theorem vxTo_masked {w : Nat} {f : VxIn → Tile → Nat → Lane} :
    MaskedVx i d k s (vxTo i w (vxSources i) d (fun v old => v.core.masked k old (f v old)) s) := ⟨w, f, rfl⟩

theorem execVspz_masked {t : Tok} {n : BitVec 6} {ty : FTy} : MaskedVx (.vspz t d a n k ty) d k s (execVspz t d a n k ty s) := by
  rw [execVspz]
  exact vxTo_masked (f := fun v _ => _)

/-- The elements that VPACK puts side by side into lane l (R459). -/
def packLane (ty : DTy) (v : VxIn) (l : Nat) : Lane :=
  BitVec.ofNat 32 (((List.range (32 / DTy.width ty)).map fun e =>
    v.n (DTy.width ty) 0 (l % (1024 / (32 / DTy.width ty)) * (32 / DTy.width ty) + e) * 2 ^ (e * DTy.width ty)).sum)

/-- The lanes of VPACK outside the part keep their value, as those that its mask turns off do (R459). -/
theorem execVpack_masked {t : Tok} {b : VSpec} {ty : DTy} :
    MaskedVx (.vpack t d a b k ty) d k s (execVpack t d a b k ty s) := by
  refine ⟨DTy.width ty, fun v old l =>
    if l / (1024 / (32 / DTy.width ty)) = v.n 3 1 0 % (32 / DTy.width ty) then packLane ty v l else laneOf old l, ?_⟩
  rw [execVpack]
  refine congrFun (congrArg (vxTo _ _ _ _) (funext fun v => funext fun old => congrArg tileOf (funext fun l => ?_))) s
  simp only [Bool.and_eq_true, decide_eq_true_eq, ite_and]
  rfl

end shape

theorem exec_masked {i : Instr} {d : VSpec} {k : Fin 8} (s : State) (hd : vxDest i = some d) (hk : vxMaskOf i = some k) :
    MaskedVx i d k s (exec i s) := by
  cases i with
  | vadd _ _ _ _ _ _ | vsub _ _ _ _ _ _ | vmul _ _ _ _ _ _ | vfma _ _ _ _ _ _ _ | vfmaNm _ _ _ _ _ _ _ | vdiv _ _ _ _ _ _
  | vsqrt _ _ _ _ _ | vmin _ _ _ _ _ _ | vminP _ _ _ _ _ _ | vmax _ _ _ _ _ _ | vmaxP _ _ _ _ _ _ =>
    cases hd
    cases hk
    rw [exec]
    exact vxFloat_masked
  | viadd _ _ _ _ _ _ | viaddS _ _ _ _ _ _ | visub _ _ _ _ _ _ | visubS _ _ _ _ _ _ | vimul _ _ _ _ _ _ | vimulS _ _ _ _ _ _
  | vimulHi _ _ _ _ _ _ | vimin _ _ _ _ _ _ | vimax _ _ _ _ _ _ | vshl _ _ _ _ _ _ | vshr _ _ _ _ _ _ | vshlI _ _ _ _ _ _
  | vshrI _ _ _ _ _ _ | viota _ _ _ _ _ =>
    cases hd
    cases hk
    rw [exec]
    exact vxInt_masked
  | vsfExp2 _ _ _ _ _ | vsfLog2 _ _ _ _ _ | vsfRcp _ _ _ _ _ | vsfRsqrt _ _ _ _ _ | vsfSin _ _ _ _ _ | vsfCos _ _ _ _ _
  | vsfTanh _ _ _ _ _ | vsfErf _ _ _ _ _ | vsfSigm _ _ _ _ _ | vmov _ _ _ _ | vmovI _ _ _ _ | vcvt _ _ _ _ _ _
  | vand _ _ _ _ _ | vor _ _ _ _ _ | vxor _ _ _ _ _ | vpermb _ _ _ _ _ | vrotr _ _ _ _ _ | vrotc _ _ _ _ _ | vbcr _ _ _ _ _
  | vbcc _ _ _ _ _ | vtrn _ _ _ _ | vspl _ _ _ _ _ | vext _ _ _ _ _ | vunpk _ _ _ _ _ _ | vrand _ _ _ | vrandU _ _ _ _ =>
    cases hd
    cases hk
    rw [exec]
    exact vxLanes_masked
  | vredrAdd _ _ _ _ _ | vredrMax _ _ _ _ _ | vredrMin _ _ _ _ _ | vredcAdd _ _ _ _ _ | vredcMax _ _ _ _ _ | vredcMin _ _ _ _ _ =>
    cases hd
    cases hk
    rw [exec]
    exact vxReduce_masked rfl
  | vscanrAdd _ _ _ _ _ | vscanrMax _ _ _ _ _ | vscancAdd _ _ _ _ _ | vscancMax _ _ _ _ _ =>
    cases hd
    cases hk
    rw [exec]
    exact vxScan_masked rfl
  | vpack _ _ _ _ _ _ =>
    cases hd
    cases hk
    rw [exec]
    exact execVpack_masked
  | vspz _ _ _ _ _ _ =>
    cases hd
    cases hk
    rw [exec]
    exact execVspz_masked
  | _ => exact nomatch hk

/-- VSEL, VINS and VMCNT write their destination too, every lane as they say (R447, R457, R458). -/
theorem exec_unmasked {i : Instr} {d : VSpec} (s : State) (hd : vxDest i = some d) (hk : vxMaskOf i = none) :
    ∃ w res, exec i s = vxTo i w (vxSources i) d res s := by
  cases i with
  | vsel _ _ _ _ _ | vins _ _ _ _ _ | vmcnt _ _ _ _ =>
    cases hd
    rw [exec]
    exact ⟨_, _, rfl⟩
  | _ => simp [vxDest, vxMaskOf] at hd hk

/-- Settles O21: `exec_masked` and `exec_unmasked` give the shape, `vxTo_completes` its completion. -/
theorem vxWritesItsDestination : Obligations.VxWritesItsDestination := by
  intro i s g d h hd hr hroom
  cases hk : vxMaskOf i with
  | none =>
    obtain ⟨w, res, hi⟩ := exec_unmasked s hd hk
    obtain ⟨⟨ts, c'⟩, hts⟩ := Option.isSome_iff_exists.1 (hr w)
    exact ⟨w, ts, c', _, hts, by rw [hi, vxTo_completes h hts hroom], nofun⟩
  | some k =>
    obtain ⟨w, f, hi⟩ := exec_masked s hd hk
    obtain ⟨⟨ts, c'⟩, hts⟩ := Option.isSome_iff_exists.1 (hr w)
    refine ⟨w, ts, c', _, hts, by rw [hi, vxTo_completes h hts hroom], fun k' hk' l hl hoff => ?_⟩
    cases hk'
    exact masked_off hl hoff

end Sys2Proof.Proofs

namespace Sys2Proof.Proofs
open Sys2Proof Sys2Proof.Machine Sys2Proof.Claims

/-! ## The lanes of the sources -/

section sources
variable {v : VxEnv} {c : Core} {ts : List Tile}

theorem vxIn_x (k l : Nat) : VxIn.x ⟨v, c, ts⟩ k l = ln ts k l := rfl
theorem vxIn_n (w k l : Nat) : VxIn.n ⟨v, c, ts⟩ w k l = (ln ts k l).toNat % 2 ^ w := by simp [VxIn.n, vxIn_x, fld]

/-- The top bit of a number of w bits says that it is at least half of 2^w. -/
theorem bit_top {n w : Nat} (h : n < 2 ^ (w + 1)) : bit n w = decide (2 ^ w ≤ n) := by
  have hd : n / 2 ^ w < 2 := Nat.div_lt_of_lt_mul (by rwa [← pow_succ])
  have h1 : 1 ≤ n / 2 ^ w ↔ 2 ^ w ≤ n := by rw [Nat.le_div_iff_mul_le (Nat.two_pow_pos w), one_mul]
  refine decide_eq_decide.2 ?_
  rw [← h1, fld]
  generalize n / 2 ^ w = q at hd
  omega

theorem intOf_eq (t : ITy) (n : Nat) : intOf t n = asInt t (n % 2 ^ ITy.width t) := by
  obtain ⟨w, hw⟩ : ∃ w, ITy.width t = w + 1 := by cases t <;> exact ⟨_, rfl⟩
  simp only [intOf, asInt, fld, pow_zero, Nat.div_one, hw, Nat.add_sub_cancel]
  rw [bit_top (Nat.mod_lt _ (Nat.two_pow_pos _))]
  simp

theorem vxIn_i (t : ITy) (k l : Nat) : VxIn.i ⟨v, c, ts⟩ t k l = il t ts k l := intOf_eq t _

end sources

/-! ## Scattering (R447) -/

/-- Lanes x of a source put at the places p, those of which `on` says so, in ascending order. -/
def scattered (on : Nat → Bool) (p : Nat → Fin 1024) (x : Nat → Lane) (old : Tile) (n : Nat) : Tile :=
  (List.range n).foldl (fun t l => if on l then Machine.put t (p l) (x l) else t) old

section scattered
variable {on : Nat → Bool} {p : Nat → Fin 1024} {x : Nat → Lane} {old : Tile} {n : Nat}

theorem scattered_succ : scattered on p x old (n + 1) =
    if on n then Machine.put (scattered on p x old n) (p n) (x n) else scattered on p x old n := by
  simp [scattered, List.range_succ]

theorem scattered_untouched {j : Nat} (h : ∀ l, l < n → on l = true → (p l).val ≠ j) :
    laneOf (scattered on p x old n) j = laneOf old j := by
  induction n with
  | zero => rfl
  | succ n ih =>
    have ih := ih fun l hl => h l (Nat.lt_succ_of_lt hl)
    rw [scattered_succ]
    split
    · rw [laneOf_put, if_neg fun e => h n (Nat.lt_succ_self n) ‹_› e.symm, ih]
    · exact ih

/-- The last lane put at a place stays there. -/
theorem scattered_last {l : Nat} (hl : l < n) (ho : on l = true) (h : ∀ k, l < k → k < n → on k = true → (p k).val ≠ (p l).val) :
    laneOf (scattered on p x old n) (p l).val = x l := by
  induction n with
  | zero => omega
  | succ n ih =>
    rw [scattered_succ]
    obtain rfl | hn := Nat.eq_or_lt_of_le (Nat.le_of_lt_succ hl)
    · rw [if_pos ho, laneOf_put, if_pos rfl]
    · have ih := ih hn fun k h0 h1 => h k h0 (Nat.lt_succ_of_lt h1)
      split
      · rw [laneOf_put, if_neg fun e => h n hn (Nat.lt_succ_self n) ‹_› e.symm, ih]
      · exact ih

end scattered

/-- Where VINS puts lane l of its first source (R447). -/
def insertAt (ts : List Tile) (l : Nat) : Fin 1024 := Fin.ofNat 1024 ((ln ts 1 l).toNat % 2 ^ 10)

theorem insertAt_val (ts : List Tile) (l : Nat) : (insertAt ts l).val = (ln ts 1 l).toNat % 1024 :=
  Nat.mod_mod _ _

section vins
variable {s : State} {g : Fin 256} {t : Tok} {d a b : VSpec} {m : Fin 8} {ts : List Tile} {c' : Core} {on : Nat → Bool} {old : Tile}

theorem exec_vins (h : mayIssue (.vins t d a b m) s g .vx) (hr : (s.m.core g).readSpecs 32 [a, b] = some (ts, c'))
    (hd : (s.m.core g).destRoom d = true) : exec (.vins t d a b m) s = .next (retired s g .vx (.vins t d a b m) fun _ =>
      c'.writeDest d (scattered ((s.m.core g).on m) (insertAt ts) (ln ts 0) ((s.m.core g).oldDest d) 1024)) := by
  rw [exec, execVins, vxTo_completes h hr hd]
  simp only [vxIn_n, vxIn_x]
  rfl

theorem vins_last {l : Nat} (hl : l < 1024) (ho : on l = true)
    (h : ∀ k, l < k → k < 1024 → on k = true → (ln ts 1 k).toNat % 1024 ≠ (ln ts 1 l).toNat % 1024) :
    laneOf (scattered on (insertAt ts) (ln ts 0) old 1024) ((ln ts 1 l).toNat % 1024) = ln ts 0 l := by
  rw [← insertAt_val]
  refine scattered_last hl ho fun k h0 h1 hk => ?_
  rw [insertAt_val, insertAt_val]
  exact h k h0 h1 hk

theorem vins_untouched {j : Nat} (h : ∀ l, l < 1024 → on l = true → (ln ts 1 l).toNat % 1024 ≠ j) :
    laneOf (scattered on (insertAt ts) (ln ts 0) old 1024) j = laneOf old j :=
  scattered_untouched fun l hl ho => insertAt_val ts l ▸ h l hl ho

end vins

/-! ## Destinations (R58, R66) -/

section writeDest
variable (c : Core) (r : Tile)

theorem writeDest_v (n : Fin 32) : c.writeDest (.v n) r =
    { c with z := Machine.put (Machine.put c.z 1 c.z[0]) 0 r, v := Machine.put c.v n r } := rfl

theorem writeDest_w (n : Fin 8) : c.writeDest (.w n) r =
    { c with z := Machine.put (Machine.put c.z 1 c.z[0]) 0 r, w := Machine.put c.w n r } := rfl

end writeDest

theorem length_filter_range (p : Nat → Bool) (n : Nat) :
    ((List.range n).filter p).length = ((Finset.range n).filter fun j => p j = true).card := by
  have h : (Finset.range n).filter (fun j => p j = true) = ((List.range n).filter p).toFinset := by ext j; simp
  rw [h, List.toFinset_card_of_nodup (List.nodup_range.filter p)]

/-- Settles O24: the masks lane by lane, the destinations field by field, and the lanes of VSEL, VINS and VMCNT. -/
theorem vxWritesMasksAndDestinations : Obligations.VxWritesMasksAndDestinations := by
  refine ⟨fun s g => ⟨fun t d a b k m ty ts c' h hr => ?_, fun t d a b k m ty ts c' h hr => ?_, fun t d a b op h => ?_⟩,
    fun c n r => ?_, fun c n r => ?_, fun t d a b m s g ts c' h hr hd => ?_, fun t d a b m s g ts c' h hr hd => ?_, fun t d k m s g h hd => ?_⟩
  · rw [exec, execVcmp]
    exact vxMask_completes h hr
  · rw [exec, execVicmp]
    obtain ⟨x, hx, hl⟩ := vxMask_completes (d := d) h hr
    exact ⟨x, hx, fun l h => by rw [hl l h, vxIn_i, vxIn_i]⟩
  · rw [exec, execVmop]
    obtain ⟨x, hx, hl⟩ := vxMask_completes (d := d) (srcs := []) (w := 32) (f := fun v l => mopBit op (v.core.on a l) (v.core.on b l)) h rfl
    refine ⟨x, hx, fun l h => (hl l h).trans ?_⟩
    cases op <;> rfl
  · rw [writeDest_v]
    exact ⟨put_same .., fun q h => put_other _ _ _ q.2 (Fin.val_ne_of_ne h.symm), put_same .., by simp [Machine.put], rfl, rfl, rfl, rfl, rfl⟩
  · rw [writeDest_w]
    exact ⟨put_same .., rfl, put_same ..⟩
  · rw [exec, execVsel, vxTo_completes h hr hd]
    exact ⟨_, rfl, fun l hl => laneOf_tileOf _ hl⟩
  · exact ⟨_, exec_vins h hr hd, fun l hl ho hlast => vins_last hl ho hlast, fun j hj hno => vins_untouched hno⟩
  · rw [exec, execVmcnt, vxTo_completes h rfl hd]
    refine ⟨_, rfl, fun l hl => ?_⟩
    rw [laneOf_tileOf _ hl, BitVec.toNat_ofNat, length_filter_range]
    refine Nat.mod_eq_of_lt (lt_of_le_of_lt (Finset.card_filter_le _ _) ?_)
    rw [Finset.card_range]
    split <;> omega

end Sys2Proof.Proofs

namespace Sys2Proof.Proofs
open Sys2Proof Sys2Proof.Machine Sys2Proof.Claims

/-! ## The lines of runs of bytes (R198, R199) -/

section lines
variable {a n y : Nat}

theorem mem_cutRun {u : Nat × Nat} (h : u ∈ cutRun a n) : 64 * (u.1 / 64) ≤ u.1 ∧ u.1 + u.2 ≤ 64 * (u.1 / 64) + 64 := by
  obtain ⟨k, -, rfl⟩ := List.mem_map.1 h
  simp only
  omega

theorem cutRun_covers (h0 : a ≤ y) (h1 : y < a + n) : ∃ u ∈ cutRun a n, u.1 ≤ y ∧ y < u.1 + u.2 := by
  refine ⟨_, List.mem_map.2 ⟨y / 64 - a / 64, List.mem_range.2 ?_, rfl⟩, ?_⟩
  · omega
  · simp only
    omega

theorem mem_byLine {α : Type} {l : List (Nat × α)} {ps : List (Nat × α)} :
    ps ∈ byLine l ↔ ∃ p ∈ l, ps = l.filter fun q => q.1 / 64 = p.1 / 64 := by
  simp only [byLine, List.mem_map, List.mem_eraseDups]
  constructor
  · rintro ⟨_, ⟨p, hp, rfl⟩, rfl⟩
    exact ⟨p, hp, rfl⟩
  · rintro ⟨p, hp, rfl⟩
    exact ⟨_, ⟨p, hp, rfl⟩, rfl⟩

variable {tag : Nat} {acc : Bool} {runs : List (Nat × Nat)} {x : LineRead}

theorem mem_readsOf (h : x ∈ readsOf tag acc runs) :
    x.tag = tag ∧ x.acc = acc ∧ ∃ n, ∀ u ∈ x.runs, 64 * n ≤ u.1 ∧ u.1 + u.2 ≤ 64 * n + 64 := by
  obtain ⟨ps, hps, rfl⟩ := List.mem_map.1 h
  obtain ⟨p, -, rfl⟩ := mem_byLine.1 hps
  refine ⟨rfl, rfl, p.1 / 64, fun u hu => ?_⟩
  obtain ⟨hu, hl⟩ := List.mem_filter.1 hu
  obtain ⟨r, -, hr⟩ := List.mem_flatMap.1 hu
  rw [← of_decide_eq_true hl]
  exact mem_cutRun hr

/-- Every byte of the runs is read, by one of their lines. -/
theorem readsOf_covers {r : Nat × Nat} (hr : r ∈ runs) (h0 : r.1 ≤ y) (h1 : y < r.1 + r.2) :
    ∃ x ∈ readsOf tag acc runs, x.tag = tag ∧ ∃ u ∈ x.runs, u.1 ≤ y ∧ y < u.1 + u.2 := by
  obtain ⟨u, hu, hy⟩ := cutRun_covers h0 h1
  have hu : u ∈ runs.flatMap fun r => cutRun r.1 r.2 := List.mem_flatMap.2 ⟨r, hr, hu⟩
  exact ⟨_, List.mem_map.2 ⟨_, mem_byLine.2 ⟨u, hu, rfl⟩, rfl⟩, rfl, u, List.mem_filter.2 ⟨hu, decide_eq_true rfl⟩, hy⟩

end lines

/-! ## The bytes of a row (R152, R452, R453) -/

section rows
variable {p : Pat} {r : VSpec} {sp : Space} {et : EtM} {adv : Int} {l b : Nat}

/-- The bytes of an element lie in one line of its row. -/
theorem byteOf_bounds (et : EtM) {e : Nat} (he : e < 64) (hb : b < max 1 (EtM.bytes et)) :
    EtM.byteOf et e + b < EtM.rowBytes et ∧ EtM.byteOf et e % 64 + b < 64 := by
  cases et <;> simp [EtM.byteOf, EtM.rowBytes, EtM.bytes] at hb ⊢ <;> omega

/-- A row's runs hold each of its elements, whose bytes lie in one line. -/
theorem runs_cover {j n c : Nat} (h : c + b < n) (hl : c % 64 + b < 64) :
    ∃ u ∈ p.runs j n, u.1 ≤ p.addr j c ∧ p.addr j c + b < u.1 + u.2 := by
  unfold Pat.runs
  split
  · next h0 =>
    refine ⟨_, List.mem_singleton_self _, ?_⟩
    simp only [Pat.addr, if_pos h0]
    omega
  · next h0 =>
    refine ⟨_, List.mem_map.2 ⟨c / 64, List.mem_range.2 (by omega), rfl⟩, ?_⟩
    have hd : 64 * (c / 64) / 64 = c / 64 := by omega
    have hm : 64 * (c / 64) % 64 = 0 := by omega
    simp only [Pat.addr, if_neg h0, hd, hm]
    omega

theorem runsIn_of_fault {acc : Bool} {w rows n lim : Nat} (h : p.fault acc w rows n adv lim = none) :
    runsIn lim (p.allRuns rows n adv) = true := by
  by_contra hn
  rw [Pat.fault, eq_false_of_ne_true hn] at h
  split at h <;> simp at h

theorem runsIn_of_wordFault (hr : r ≠ .q 7) (h : wordFault p r sp et none adv = none) :
    runsIn (limOf sp) (p.allRuns 16 (EtM.rowBytes et) adv) = true := by
  simp only [wordFault, if_neg hr] at h
  exact runsIn_of_fault h

theorem rowRuns_cover {colp : Option Nat} (hr : r ≠ .q 7) (hc : colp ≠ none → EtM.bytes et ≠ 0)
    (hf : wordFault p r sp et colp adv = none) (hl : l < 1024) (hb : b < max 1 (EtM.bytes et)) :
    ∃ u ∈ rowRuns p r et colp adv (l / 64), u.1 ≤ elemAddr p et colp adv l + b ∧ elemAddr p et colp adv l + b < u.1 + u.2 := by
  cases colp with
  | some k =>
    have hb : b < EtM.bytes et := by have := hc nofun; omega
    refine ⟨_, List.mem_map.2 ⟨l % 64, List.mem_range.2 (Nat.mod_lt _ (by decide)), rfl⟩, ?_⟩
    rw [Nat.div_add_mod]
    exact ⟨Nat.le_add_right _ _, Nat.add_lt_add_left hb _⟩
  | none =>
    obtain ⟨hn, hline⟩ := byteOf_bounds et (e := l % 64) (Nat.mod_lt _ (by decide)) hb
    obtain ⟨u, hu, h0, h1⟩ := runs_cover (p := p) (j := l / 64) hn hline
    have hin : 0 ≤ (u.1 : Int) + adv := by
      have := List.all_eq_true.1 (runsIn_of_wordFault hr hf) ((u.1 : Int) + adv, u.2)
        (List.mem_flatMap.2 ⟨l / 64, List.mem_range.2 (by omega), List.mem_map.2 ⟨u, hu, rfl⟩⟩)
      simp only [Bool.and_eq_true, decide_eq_true_eq] at this
      exact this.1
    refine ⟨(((u.1 : Int) + adv).toNat, u.2), ?_, ?_⟩
    · rw [rowRuns, if_neg hr]
      exact List.mem_map.2 ⟨u, hu, rfl⟩
    · simp only [elemAddr]
      omega

end rows

end Sys2Proof.Proofs

namespace Sys2Proof.Proofs
open Sys2Proof Sys2Proof.Machine Sys2Proof.Claims

/-! ## The element types of the long forms (R450, R453) -/

section long
variable {i : Instr} {r : VSpec} {q : Fin 8} {rep : BitVec 6} {st : BitVec 10} {sp : Space} {et : EtM} {colp : Option Nat}

theorem wellFormed_checks (h : i.wellFormed = true) : fieldsOk i = true ∧ zDestOf i = false ∧ queueOk i = true := by
  have h := illForm_of_wellFormed h
  unfold illForm at h
  split_ifs at h with hf _ _ hz hq
  exact ⟨by simpa using hf, by simpa using hz, by simpa using hq⟩

/-- A long form whose register is V, W, Q0, Q1 or Q2 takes no 4-bit elements. -/
theorem bytes_of_long (h : loadRegOk true r rep sp et = true) (hz : ∀ n, r ≠ .z n)
    (hq : ∀ n, r = .q n → n.val = 0 ∨ n.val = 1 ∨ n.val = 2) : EtM.bytes et ≠ 0 := by
  have hmem (h : et ∈ [EtM.b32, .b16, .b16s, .b8, .b8s]) : EtM.bytes et ≠ 0 := by fin_cases h <;> decide
  cases r with
  | z n => exact absurd rfl (hz n)
  | v n | w n =>
    simp only [loadRegOk, Bool.and_eq_true, Bool.not_true, Bool.false_or, decide_eq_true_eq] at h
    exact hmem h.1.2
  | q n =>
    have hq := hq n rfl
    by_cases h2 : n.val = 2
    · simp [loadRegOk, h2] at h
    · have h01 : n.val = 0 ∨ n.val = 1 := by omega
      simp only [loadRegOk, if_pos h01, Bool.and_eq_true, Bool.not_true, Bool.false_or, decide_eq_true_eq] at h
      exact hmem h.1

theorem long_bytes (hw : i.wellFormed = true) (hi : vldForm i = some (r, q, rep, st, sp, et, colp)) (h7 : r ≠ .q 7)
    (hc : colp ≠ none) : EtM.bytes et ≠ 0 := by
  obtain ⟨hf, hz, hq⟩ := wellFormed_checks hw
  cases i with
  | vld _ _ _ _ _ _ _ =>
    simp only [vldForm, Option.some.injEq, Prod.mk.injEq] at hi
    exact absurd hi.2.2.2.2.2.2.symm hc
  | vldx _ r' _ rep' _ _ _ _ =>
    obtain ⟨rfl, -, rfl, -, rfl, rfl, -⟩ := by simpa [vldForm] using hi
    refine bytes_of_long hf (fun n hn => ?_) fun n hn => ?_
    · simp [zDestOf, hn] at hz
    · subst hn
      have h7 : n.val ≠ 7 := fun h => h7 (congrArg VSpec.q (Fin.ext h))
      simp only [queueOk, List.mem_cons, List.not_mem_nil, or_false, decide_eq_true_eq] at hq
      omega
  | _ => exact nomatch hi

end long

/-! ## The issue of a load's repetition -/

section issue
variable {i : Instr} {g t : Fin 256} {r : VSpec} {st : BitVec 10} {sp : Space} {et : EtM}
  {colp : Option Nat} {p : Pat} {adv : Int} {k : Nat} {m : Mach}

theorem ldJob_acc {x : LineRead} (hx : x ∈ (ldJob p r sp et colp adv).reads) :
    (x.acc = true ↔ sp = .acc) ∧ x.tag ≠ 0 ∧ ∃ n, ∀ u ∈ x.runs, 64 * n ≤ u.1 ∧ u.1 + u.2 ≤ 64 * n + 64 := by
  obtain ⟨j, -, hx⟩ := List.mem_flatMap.1 hx
  obtain ⟨htag, hacc, hline⟩ := mem_readsOf hx
  exact ⟨by rw [hacc, decide_eq_true_eq], by omega, hline⟩

theorem ldJob_covers {l b : Nat} (hr : r ≠ .q 7) (hc : colp ≠ none → EtM.bytes et ≠ 0)
    (hf : wordFault p r sp et colp adv = none) (hl : l < 1024) (hb : b < max 1 (EtM.bytes et)) :
    ∃ x ∈ (ldJob p r sp et colp adv).reads, x.tag = l / 64 + 1 ∧
      ∃ u ∈ x.runs, u.1 ≤ elemAddr p et colp adv l + b ∧ elemAddr p et colp adv l + b < u.1 + u.2 := by
  obtain ⟨u, hu, h0, h1⟩ := rowRuns_cover hr hc hf hl hb
  obtain ⟨x, hx, h⟩ := readsOf_covers (tag := l / 64 + 1) (acc := decide (sp = .acc)) hu h0 h1
  refine ⟨x, List.mem_flatMap.2 ⟨l / 64, List.mem_range.2 ?_, hx⟩, h⟩
  rw [if_neg hr]
  omega

theorem ldEff_plain (ht : ldTarget m g sp = .at t) (hroom : ldRoom (m.core g) r = true) (hheld : heldBy m g .ld t = false)
    (h7 : p.rot ≠ 7) : ldEff i g r sp et colp p k st m =
      .wait ((m.servedAt g .ld t).onCore g fun c => (keepTarget sp t c).beginJob .ld (tk i) (ldJob p r sp et colp (advOf st k))) := by
  rw [ldEff_at ht hroom hheld, if_neg h7, Mach.begins, onCore_onCore]

theorem ldEff_view (hs : sound m) (ht : ldTarget m g sp = .at t) (hroom : ldRoom (m.core g) r = true) (hheld : heldBy m g .ld t = false)
    (h7 : p.rot = 7) {x : CtEntry} {bs : List Byte} (hl : ctLook (m.core t).spad p.base (p.tilep + st.toInt * k) = some x)
    (hb : ctRead (m.core t).spad p.base (p.tilep + st.toInt * k) = some bs) : ldEff i g r sp et colp p k st m =
      .wait ((m.servedAt g .ld t).onCore g fun c => (keepTarget sp t c).beginJob .ld (tk i) (viewJob r bs)) := by
  rw [← servedAt_spad (g := g) .ld] at hl hb
  rw [ldEff_at ht hroom hheld, if_pos h7, ldView_good (servedAt_clean hs _ _) hl hb, Mach.begins, onCore_onCore]

end issue

/-! ## What a load delivers -/

section deliver
variable {r : VSpec} {sp : Space} {et : EtM} {colp : Option Nat} {p : Pat} {adv : Int} {j : Job} {l : Nat}

theorem laneOf_ldTile (h : ¬(p.rot = 7 ∧ colp = none)) (hl : l < 1024) : laneOf (ldTile j (sp = .acc) p et colp adv) l =
    EtM.widen et (l % 64) (leVal (Memory.read (j.mem (l / 64 + 1) (sp = .acc)) (elemAddr p et colp adv l) (max 1 (EtM.bytes et)))) := by
  have hrow : l / 64 < 16 := by omega
  rw [ldTile, if_neg (by simpa using h)]
  simp [laneOf_tileOf _ hl, hrow]

theorem ldTile_view (h : p.rot = 7 ∧ colp = none) :
    ldTile j (sp = .acc) p et colp adv = tileOfBytes (Memory.read (j.mem 0 false) 0 4096) := by
  rw [ldTile, if_pos (by simpa using h)]

theorem laneOf_withRow (b : Nat) (x old : Tile) (hl : l < 1024) :
    laneOf (Tile.withRow b x old) l = if l / 64 = b then laneOf x l else laneOf old l := laneOf_tileOf _ hl

theorem ldPut_v {n : Fin 32} {k b : Nat} {x : Tile} (c : Core) (hl : l < 1024) :
    laneOf ((ldPut (.v n) k b x c).v[(n.val + k) % 32]'(Nat.mod_lt _ (by decide))) l =
      if l / 64 = b then laneOf x l else laneOf (c.v[(n.val + k) % 32]'(Nat.mod_lt _ (by decide))) l :=
  (congrArg (laneOf · l) (upd_same ..)).trans (laneOf_withRow _ _ _ hl)

theorem ldPut_w {n : Fin 8} {k b : Nat} {x : Tile} (c : Core) (hl : l < 1024) :
    laneOf ((ldPut (.w n) k b x c).w[(n.val + k) % 8]'(Nat.mod_lt _ (by decide))) l =
      if l / 64 = b then laneOf x l else laneOf (c.w[(n.val + k) % 8]'(Nat.mod_lt _ (by decide))) l :=
  (congrArg (laneOf · l) (upd_same ..)).trans (laneOf_withRow _ _ _ hl)

theorem ldPut_q {n : Fin 8} {k b : Nat} {x : Tile} (c : Core) (hn : n.val < 4) (y : Fin 4) :
    (ldPut (.q n) k b x c).qt[y.val] = if y.val = n.val then c.qt[y.val] ++ [x] else c.qt[y.val] := by
  have hv : (Fin.ofNat 4 n.val).val = n.val := Nat.mod_eq_of_lt hn
  split
  · next h =>
    obtain rfl : y = Fin.ofNat 4 n.val := Fin.ext (h.trans hv.symm)
    exact upd_same ..
  · next h => exact upd_other _ _ _ y.2 (hv.trans_ne (Ne.symm h))

end deliver

/-! ## The acts of a load's repetition -/

section acts
variable {m : Mach} {g t : Fin 256} {e : Engine} {j : Job} {row : Nat → Job → Mach → Mach} {fin : Mach → Mach}

/-- While lines are to be read, a repetition with nothing to write reads one. -/
theorem jobAct_read (hc : (m.core t).clean = true) (hj : ((m.core g).e e).job = some j) (hr : j.reads ≠ []) (hk : j.rows ≠ [])
    (hw : j.writes = []) : ∃ x ∈ j.reads, m.jobAct g e t false row fin j = m.onCore g fun c => c.onJob e (tookLine m t x) := by
  obtain ⟨x, hx, h⟩ | ⟨b, -, ho, -⟩ | ⟨w, hw', -⟩ := jobAct_cases (m := m) (g := g) (t := t) (e := e) (eager := false) (row := row)
    (fin := fin) (fun _ => hc) (.inl hr)
  · refine ⟨x, hx, h.trans ?_⟩
    rw [endIfDone_of_job (j := tookLine m t x j) (by rw [onCore_core, onJob_job, hj]; rfl), if_neg fun h => hk h.2.1]
  · exact absurd (ho _ (List.head_mem hr)).1 Bool.false_ne_true
  · exact absurd (hw ▸ hw') List.not_mem_nil

/-- With nothing left to read or to write, it takes a row. -/
theorem jobAct_row {eager : Bool} (hr : j.reads = []) (hk : j.rows ≠ []) (hw : j.writes = []) :
    ∃ b ∈ j.rows, m.jobAct g e t eager row fin j = endIfDone g e fin (row b j m) := by
  obtain ⟨x, hx, -⟩ | ⟨b, hb, -, -, h⟩ | ⟨w, hw', -⟩ := jobAct_cases (m := m) (g := g) (t := t) (e := e) (eager := eager) (row := row)
    (fin := fin) (fun h => absurd hr h) (.inr (.inl hk))
  · exact absurd (hr ▸ hx) List.not_mem_nil
  · exact ⟨b, hb, h⟩
  · exact absurd (hw ▸ hw') List.not_mem_nil

theorem tookLine_congr {m' : Mach} (hs : (m'.core t).spad = (m.core t).spad) (ha : (m'.core t).acc = (m.core t).acc) (x : LineRead) :
    tookLine m' t x = tookLine m t x := by
  funext j
  simp only [tookLine, hs, ha]

/-- The core whose port serves the loads of a word. -/
def ldPort (c : Core) (g : Fin 256) : Fin 256 := match (c.e .ld).tgt with | some t => Fin.ofNat 256 t.toNat | none => g

/-- LD's request at the port of core t is served, and LD waits no more. -/
def ldServed (m : Mach) (g t : Fin 256) : Mach := (m.servedAt g .ld t).onCore g fun c => c.onE .ld fun x => { x with wait := none }

/-- What the service of a request keeps of every core. -/
theorem ldServed_keeps {α : Type} (F : Core → α) (hq : ∀ (k : Core) x, F { k with portq := x } = F k)
    (hl : ∀ (k : Core) x, F { k with lastReq := x } = F k) (he : ∀ (k : Core) f, F (k.onE .ld f) = F k) (k : Fin 256) :
    F ((ldServed m g t).core k) = F (m.core k) :=
  (onCore_keeps _ _ _ _ F fun c => he c _).trans (dequeue_keeps _ _ _ _ F hq hl k)

theorem ldServed_ld : ((ldServed m g t).core g).e .ld = { (m.core g).e .ld with wait := none } := by
  rw [ldServed, onCore_core, onE_e]
  exact congrArg (fun x : EngState => { x with wait := none })
    (dequeue_keeps _ _ _ _ (fun c => c.e .ld) (fun _ _ => rfl) (fun _ _ => rfl) g)

theorem held_keeps {α : Type} {c : Fin 64} {w : Who} {on : WaitOn} {k : Tok} (F : Core → α)
    (hq : ∀ (k : Core) x, F { k with portq := x } = F k) (he : ∀ (k : Core) f, F (k.onE e f) = F k) (h : Fin 256) :
    F (((m.enqueue t c w).waitOn g e on k).core h) = F (m.core h) := by
  refine (onCore_keeps _ _ _ _ F fun c => he c _).trans ?_
  unfold Mach.enqueue
  split
  · rfl
  · exact onCore_keeps _ _ _ _ F fun k => hq k _

theorem waitOn_job {on : WaitOn} {k : Tok} (m : Mach) : (((m.waitOn g e on k).core g).e e).job = ((m.core g).e e).job := by
  rw [Mach.waitOn, onCore_core, onE_e]
  split
  · split <;> rfl
  · rfl

theorem enqueue_e {c : Fin 64} {w : Who} (h : Fin 256) : ((m.enqueue t c w).core h).e e = (m.core h).e e := by
  unfold Mach.enqueue
  split
  · rfl
  · exact onCore_keeps _ _ _ _ (fun c => c.e e) fun _ => rfl

end acts

section exec
variable {i : Instr} {s : State} {g : Fin 256} {r : VSpec} {q : Fin 8} {rep : BitVec 6} {st : BitVec 10} {sp : Space} {et : EtM}
  {colp : Option Nat} {j : Job}

theorem exec_vld_held (hi : vldForm i = some (r, q, rep, st, sp, et, colp)) (ha : acts s g .ld) (hj : ((s.m.core g).e .ld).job = some j)
    (hr : j.reads ≠ []) (hh : heldBy s.m g .ld (ldPort (s.m.core g) g) = true) :
    exec i s = .next (after s ((s.m.enqueue (ldPort (s.m.core g) g) (s.m.ctxOf g) (.eng g .ld)).waitOn g .ld
      (.held (ldPort (s.m.core g) g)) (tk i))) := by
  have hif : (!j.reads.isEmpty && heldBy s.m g .ld (ldPort (s.m.core g) g)) = true := by simp [hr, hh]
  rw [exec_vld hi, ldWord, soloParcel_own ha.1 ha.2, repetition, hj]
  exact congrArg (fun m => Host.Outcome.next (after s m)) (if_pos hif)

theorem exec_vld_acts (hi : vldForm i = some (r, q, rep, st, sp, et, colp)) (ha : acts s g .ld) (hj : ((s.m.core g).e .ld).job = some j)
    (hh : j.reads ≠ [] → heldBy s.m g .ld (ldPort (s.m.core g) g) = false) :
    exec i s = .next (after s ((ldServed s.m g (ldPort (s.m.core g) g)).jobAct g .ld (ldPort (s.m.core g) g) false
      (ldGive g r sp et colp ((s.m.core g).pat 0 q) (advOf st ((s.m.core g).e .ld).rep.toNat)) (repEnd i g .ld rep) j)) := by
  have hif : ¬ (!j.reads.isEmpty && heldBy s.m g .ld (ldPort (s.m.core g) g)) = true := by
    simp only [Bool.and_eq_true, Bool.not_eq_true', List.isEmpty_eq_false_iff, not_and, Bool.not_eq_true]
    exact hh
  rw [exec_vld hi, ldWord, soloParcel_own ha.1 ha.2, repetition, hj]
  exact congrArg (fun m => Host.Outcome.next (after s m)) (if_neg hif)

end exec

/-! ## A row of a load -/

section row
variable {i : Instr} {m : Mach} {g : Fin 256} {r : VSpec} {rep : BitVec 6} {sp : Space} {et : EtM} {colp : Option Nat} {p : Pat}
  {adv : Int} {j : Job} {b k : Nat}

/-- The core that takes row b of repetition k. -/
def gaveRow (r : VSpec) (sp : Space) (et : EtM) (colp : Option Nat) (p : Pat) (adv : Int) (k b : Nat) (j : Job) (c : Core) : Core :=
  (if r = .q 7
    then { c with qw := upd c.qw 3 fun l => l ++ [BitVec.ofNat 64 (leVal (Memory.read (j.mem 1 (sp = .acc)) ((p.addr 0 0 : Int) + adv).toNat 8))] }
    else ldPut r k b (ldTile j (sp = .acc) p et colp adv) c).onJob .ld fun j => { j with rows := j.rows.erase b, begun := true }

theorem ldGive_eq (hk : ((m.core g).e .ld).rep.toNat = k) :
    ldGive g r sp et colp p adv b j m = m.onCore g (gaveRow r sp et colp p adv k b j) := by
  have hdone : (fun j : Job => j.rowDone b []) = fun j => { j with rows := j.rows.erase b, begun := true } := by
    funext j
    simp [Job.rowDone]
  refine onCore_congr ?_
  simp only [hk, hdone]
  rfl

theorem ldPut_e (c : Core) (x : Tile) (e : Engine) : (ldPut r k b x c).e e = c.e e := by cases r <;> rfl

theorem gaveRow_job (c : Core) : ((gaveRow r sp et colp p adv k b j c).e .ld).job =
    (c.e .ld).job.map fun j => { j with rows := j.rows.erase b, begun := true } := by
  rw [gaveRow, onJob_job]
  split
  · rfl
  · rw [ldPut_e]

theorem endIfDone_gaveRow {fin : Mach → Mach} (hj : ((m.core g).e .ld).job = some j) (hr : j.reads = []) (hw : j.writes = []) :
    endIfDone g .ld fin (m.onCore g (gaveRow r sp et colp p adv k b j)) =
      if j.rows.erase b = [] then fin (m.onCore g (gaveRow r sp et colp p adv k b j)) else m.onCore g (gaveRow r sp et colp p adv k b j) := by
  rw [endIfDone_of_job (j := { j with rows := j.rows.erase b, begun := true }) (by rw [onCore_core, gaveRow_job, hj]; rfl)]
  simp [hr, hw]

end row

/-- Settles O18: the issue, the lines of the rows (`ldJob_covers`), the acts of the job, and the lanes delivered. -/
theorem vectorLoadsDeliver : Obligations.VectorLoadsDeliver := by
  intro i s g r q rep st sp et colp hi c p k adv view
  refine ⟨fun h hj t ht hroom hheld hs => ⟨fun h7 hf => ?_, fun hv hf x bs hl hb => ?_⟩, fun ha hs j hj hw hk => ?_,
    fun j hv l hl => laneOf_ldTile hv hl, fun j hv => ldTile_view hv, ?_, ?_, ?_⟩
  · refine ⟨ldJob p r sp et colp adv, ?_, rfl, rfl, rfl, rfl, fun x => ldJob_acc, fun h7' l hl b hb =>
      ldJob_covers h7' (long_bytes h.2.1 hi h7') hf hl hb⟩
    rw [exec_vld_issues hi h.1 hj, issue_waits h ((lsFault_eq ..).trans ((if_neg fun h => h7 h.1).trans hf)) (ldEff_plain ht hroom hheld h7)]
    rfl
  · rw [exec_vld_issues hi h.1 hj, issue_waits h ((lsFault_eq ..).trans ((if_pos hv).trans hf)) (ldEff_view hs ht hroom hheld hv.1 hl hb)]
    rfl
  · intro t m0
    have hc : ((ldServed s.m g t).core t).clean = true :=
      (ldServed_keeps Core.clean (fun _ _ => rfl) (fun _ _ => rfl) (fun _ _ => rfl) t).trans (hs t)
    have hj0 : (((ldServed s.m g t).core g).e .ld).job = some j := by rw [ldServed_ld]; exact hj
    refine ⟨fun hr hh => ?_, fun hr hh => ?_, fun hr => ?_⟩
    · refine ⟨_, exec_vld_held hi ha hj hr hh, fun h => ⟨?_, ?_⟩, ?_⟩
      · exact held_keeps Core.spad (fun _ _ => rfl) (fun _ _ => rfl) h
      · exact held_keeps Core.v (fun _ _ => rfl) (fun _ _ => rfl) h
      · rw [waitOn_job, enqueue_e]
        exact hj
    · obtain ⟨x, hx, h⟩ := jobAct_read (row := ldGive g r sp et colp p (advOf st k)) (fin := repEnd i g .ld rep) hc hj0 hr hk hw
      refine ⟨x, hx, ?_⟩
      rw [exec_vld_acts hi ha hj fun _ => hh]
      refine congrArg _ (congrArg _ (h.trans ?_))
      rw [tookLine_congr (ldServed_keeps Core.spad (fun _ _ => rfl) (fun _ _ => rfl) (fun _ _ => rfl) t)
        (ldServed_keeps Core.acc (fun _ _ => rfl) (fun _ _ => rfl) (fun _ _ => rfl) t)]
      rfl
    · obtain ⟨b, hb, h⟩ := jobAct_row (m := ldServed s.m g t) (g := g) (t := t) (e := .ld) (eager := false)
        (row := ldGive g r sp et colp p (advOf st k)) (fin := repEnd i g .ld rep) hr hk hw
      refine ⟨b, hb, _, ?_, rfl⟩
      rw [exec_vld_acts hi ha hj fun h => absurd hr h]
      refine congrArg _ (congrArg _ (h.trans ?_))
      rw [ldGive_eq (k := k) (by rw [ldServed_ld]), endIfDone_gaveRow hj0 hr hw]
      rfl
  · rintro c x n b l rfl hl
    exact ldPut_v c hl
  · rintro c x n b l rfl hl
    exact ⟨rfl, ldPut_w c hl⟩
  · rintro c x n b rfl hn
    exact ⟨rfl, rfl, ldPut_q c hn⟩

end Sys2Proof.Proofs

namespace Sys2Proof.Proofs
open Sys2Proof Sys2Proof.Machine Sys2Proof.Claims

/-! ## Bytes and numbers (R5) -/

/-- Byte k of the number that a list of bytes holds. -/
theorem leVal_byte (bs : List Byte) (k : Nat) : leVal bs / 2 ^ (8 * k) % 2 ^ 8 = (bs.getD k 0).toNat := by
  induction bs generalizing k with
  | nil => simp [leVal]
  | cons b bs ih =>
    have hb : b.toNat < 2 ^ 8 := b.isLt
    cases k with
    | zero =>
      simp only [leVal, List.getD_cons_zero]
      omega
    | succ k =>
      rw [List.getD_cons_succ, ← ih k, leVal, Nat.mul_succ, Nat.add_comm (8 * k), pow_add, ← Nat.div_div_eq_div_mul]
      congr 2
      omega

theorem leVal_leBytes_lane (x : Lane) : BitVec.ofNat 32 (leVal (leBytes 4 x.toNat)) = x := by
  have hx : x.toNat < 2 ^ 32 := x.isLt
  refine BitVec.eq_of_toNat_eq ?_
  simp only [leBytes, byteOf, List.range_succ, List.range_zero, List.nil_append, List.cons_append, List.map_cons, List.map_nil, leVal,
    BitVec.toNat_ofNat]
  omega

/-- Entry k of block i of blocks of n entries each. -/
theorem getElem?_blocks {α β : Type} {f : α → List β} {l : List α} {n : Nat} (hn : ∀ a ∈ l, (f a).length = n) (i : Nat) {k : Nat} (hk : k < n) :
    (l.flatMap f)[n * i + k]? = l[i]?.bind fun a => (f a)[k]? := by
  induction l generalizing i with
  | nil => simp
  | cons a l ih =>
    have ha : (f a).length = n := hn a List.mem_cons_self
    rw [List.flatMap_cons]
    cases i with
    | zero => rw [Nat.mul_zero, Nat.zero_add, List.getElem?_append_left (ha ▸ hk)]; rfl
    | succ i =>
      rw [List.getElem?_append_right (by rw [ha, Nat.mul_succ]; omega), List.getElem?_cons_succ,
        ← ih (fun b hb => hn b (List.mem_cons_of_mem _ hb)) i, ha]
      congr 1
      rw [Nat.mul_succ]
      omega

theorem getElem?_read {m : Memory} {a n k : Nat} (hk : k < n) : (Memory.read m a n)[k]? = some (Memory.read1 m (a + k)) := by
  simp [Memory.read, hk]

/-- Element x of a packed row (R276). -/
theorem packed_eq {w : Nat} (hw : w = 4 ∨ w = 8 ∨ w = 16) (bs : List Byte) (x : Nat) :
    packed w (leVal bs) x = elemOf w x fun k => bs.getD k 0 := by
  obtain rfl | rfl | rfl := hw
  · have hb := leVal_byte bs (x / 2)
    have hx : 4 * x = 8 * (x / 2) + 4 * (x % 2) := by omega
    rw [packed, fld, hx, pow_add, ← Nat.div_div_eq_div_mul, elemOf, if_pos rfl, ← hb]
    obtain h | h : x % 2 = 0 ∨ x % 2 = 1 := by omega
    all_goals
      rw [h]
      omega
  · rw [packed, fld, leVal_byte]
    rfl
  · have h0 := leVal_byte bs (2 * x)
    have h1 := leVal_byte bs (2 * x + 1)
    have hx : 16 * x = 8 * (2 * x) := by omega
    rw [Nat.mul_succ, pow_add, ← Nat.div_div_eq_div_mul] at h1
    rw [packed, fld, hx, elemOf, if_neg (by decide), if_neg (by decide), ← h0, ← h1]
    omega

/-! ## What a row has read (log entry 87) -/

theorem lookup_cons_ite (a : Nat) (c : Nat × Byte) (l : Memory) :
    List.lookup a (c :: l) = if a = c.1 then some c.2 else List.lookup a l := by
  by_cases h : a = c.1
  · rw [if_pos h, h, List.lookup_cons_self]
  · rw [if_neg h, List.lookup_cons, beq_false_of_ne h]

theorem lookup_got (l : Memory) (n a : Nat) :
    List.lookup a ((l.filter fun c => c.1 / 2 ^ 23 = n).map fun c => (c.1 % 2 ^ 23, c.2)) =
      if a < 2 ^ 23 then List.lookup (n * 2 ^ 23 + a) l else none := by
  induction l with
  | nil => simp
  | cons c l ih =>
    rw [lookup_cons_ite]
    by_cases hc : c.1 / 2 ^ 23 = n
    · have h : a = c.1 % 2 ^ 23 ↔ a < 2 ^ 23 ∧ n * 2 ^ 23 + a = c.1 := by omega
      rw [List.filter_cons_of_pos (by simpa using hc), List.map_cons, lookup_cons_ite, ih]
      by_cases h0 : a < 2 ^ 23
      · simp only [h, h0, true_and, if_true]
      · simp only [h, h0, false_and, if_false]
    · have hne : a < 2 ^ 23 → n * 2 ^ 23 + a ≠ c.1 := by omega
      rw [List.filter_cons_of_neg (by simpa using hc), ih]
      by_cases h0 : a < 2 ^ 23
      · rw [if_pos h0, if_pos h0, if_neg (hne h0)]
      · rw [if_neg h0, if_neg h0]

theorem read1_mem (j : Job) (tag : Nat) (acc : Bool) (a : Nat) :
    Memory.read1 (j.mem tag acc) a = if a < 2 ^ 23 then Memory.read1 j.got (gotKey tag acc a) else 0 := by
  have hk : gotKey tag acc 0 / 2 ^ 23 * 2 ^ 23 + a = gotKey tag acc a := by
    simp only [gotKey]
    omega
  rw [Memory.read1, Job.mem, lookup_got, hk]
  split
  · rfl
  · rfl

/-! ## Lines written (R168, R199) -/

/-- The bytes stored at u are those that f gives. -/
def agrees (f : Nat → Byte) (u : Nat × List Byte) : Prop := ∀ k, k < u.2.length → u.2.getD k 0 = f (u.1 + k)

section put
variable {f : Nat → Byte} {c : Core} {y : Nat}

theorem read1_acc_agrees {u : Nat × List Byte} (hu : agrees f u) (h : (u.1 ≤ y ∧ y < u.1 + u.2.length) ∨ Memory.read1 c.acc y = f y) :
    Memory.read1 (storedAt true u.1 u.2 c).acc y = f y := by
  rw [storedAt, if_pos rfl, read1_write]
  split
  · next hy =>
    rw [hu _ (by omega)]
    congr 1
    omega
  · next hy => exact h.resolve_left hy

/-- Once a byte is as f says, lines that agree with f leave it so. -/
theorem putLine_agrees {w : LineWrite} (hw : w.acc = true) (hu : ∀ u ∈ w.runs, agrees f u)
    (h : (∃ u ∈ w.runs, u.1 ≤ y ∧ y < u.1 + u.2.length) ∨ Memory.read1 c.acc y = f y) : Memory.read1 (c.putLine w).acc y = f y := by
  rw [putLine_eq, hw]
  generalize w.runs = us at hu h
  induction us generalizing c with
  | nil => exact h.resolve_left nofun
  | cons u us ih =>
    refine ih (fun v hv => hu v (List.mem_cons_of_mem _ hv)) ?_
    by_cases hl : ∃ v ∈ us, v.1 ≤ y ∧ y < v.1 + v.2.length
    · exact .inl hl
    · refine .inr (read1_acc_agrees (hu u List.mem_cons_self) (h.imp_left ?_))
      rintro ⟨v, hv, hy⟩
      obtain rfl | hv := List.mem_cons.1 hv
      · exact hy
      · exact absurd ⟨v, hv, hy⟩ hl

theorem putAll_agrees {ws : List LineWrite} (hw : ∀ w ∈ ws, w.acc = true) (hu : ∀ w ∈ ws, ∀ u ∈ w.runs, agrees f u)
    (h : (∃ w ∈ ws, ∃ u ∈ w.runs, u.1 ≤ y ∧ y < u.1 + u.2.length) ∨ Memory.read1 c.acc y = f y) :
    Memory.read1 (putAll ws c).acc y = f y := by
  induction ws generalizing c with
  | nil => exact h.resolve_left nofun
  | cons w ws ih =>
    refine ih (fun v hv => hw v (List.mem_cons_of_mem _ hv)) (fun v hv => hu v (List.mem_cons_of_mem _ hv)) ?_
    by_cases hl : ∃ v ∈ ws, ∃ u ∈ v.runs, u.1 ≤ y ∧ y < u.1 + u.2.length
    · exact .inl hl
    · refine .inr (putLine_agrees (hw w List.mem_cons_self) (hu w List.mem_cons_self) (h.imp_left ?_))
      rintro ⟨v, hv, hy⟩
      obtain rfl | hv := List.mem_cons.1 hv
      · exact hy
      · exact absurd ⟨v, hv, hy⟩ hl

/-- What every line keeps, all of them keep. -/
theorem putAll_keeps {α : Type} (F : Core → α) {ws : List LineWrite} (h : ∀ w ∈ ws, ∀ c, F (c.putLine w) = F c) (c : Core) :
    F (putAll ws c) = F c := by
  induction ws generalizing c with
  | nil => rfl
  | cons w ws ih => exact (ih (fun v hv => h v (List.mem_cons_of_mem _ hv)) _).trans (h w List.mem_cons_self c)

end put

section writesOf
variable {acc : Bool} {a : Nat} {bs : List Byte} {w : LineWrite} {u : Nat × List Byte}

theorem cutRun_bounds {n : Nat} {p : Nat × Nat} (h : p ∈ cutRun a n) : a ≤ p.1 ∧ p.1 + p.2 ≤ a + n := by
  obtain ⟨k, hk, rfl⟩ := List.mem_map.1 h
  rw [List.mem_range] at hk
  simp only
  omega

/-- The lines of one run of bytes hold the bytes of the run. -/
theorem mem_writesOf_run (hw : w ∈ writesOf acc [(a, bs)]) : w.acc = acc ∧ ∀ u ∈ w.runs,
    agrees (fun y => bs.getD (y - a) 0) u ∧ a ≤ u.1 ∧ u.1 + u.2.length ≤ a + bs.length := by
  obtain ⟨ps, hps, rfl⟩ := List.mem_map.1 hw
  obtain ⟨p, -, rfl⟩ := mem_byLine.1 hps
  refine ⟨rfl, fun u hu => ?_⟩
  have hu := (List.mem_filter.1 hu).1
  rw [List.flatMap_singleton] at hu
  obtain ⟨r, hr, rfl⟩ := List.mem_map.1 hu
  obtain ⟨h0, h1⟩ := cutRun_bounds (a := a) (n := bs.length) hr
  have hlen : ((bs.drop (r.1 - a)).take r.2).length = r.2 := by
    rw [List.length_take, List.length_drop]
    omega
  refine ⟨fun k hk => ?_, h0, by rw [hlen]; exact h1⟩
  rw [hlen] at hk
  simp only [List.getD_eq_getElem?_getD, List.getElem?_take, if_pos hk, List.getElem?_drop]
  congr 2
  omega

theorem writesOf_run_covers {y : Nat} (h0 : a ≤ y) (h1 : y < a + bs.length) :
    ∃ w ∈ writesOf acc [(a, bs)], ∃ u ∈ w.runs, u.1 ≤ y ∧ y < u.1 + u.2.length := by
  obtain ⟨r, hr, hy⟩ := cutRun_covers h0 h1
  obtain ⟨h0, h1⟩ := cutRun_bounds hr
  have hlen : ((bs.drop (r.1 - a)).take r.2).length = r.2 := by
    rw [List.length_take, List.length_drop]
    omega
  have hu : (r.1, (bs.drop (r.1 - a)).take r.2) ∈ [(a, bs)].flatMap fun r => (cutRun r.1 r.2.length).map fun p =>
      (p.1, (r.2.drop (p.1 - r.1)).take p.2) := by
    rw [List.flatMap_singleton]
    exact List.mem_map.2 ⟨r, hr, rfl⟩
  exact ⟨_, List.mem_map.2 ⟨_, mem_byLine.2 ⟨_, hu, rfl⟩, rfl⟩, _, List.mem_filter.2 ⟨hu, decide_eq_true rfl⟩, by rwa [hlen]⟩

/-- The lines of one run put its bytes into the accumulator store. -/
theorem read1_putAll_run {y : Nat} (c : Core) (h0 : a ≤ y) (h1 : y < a + bs.length) :
    Memory.read1 (putAll (writesOf true [(a, bs)]) c).acc y = bs.getD (y - a) 0 :=
  putAll_agrees (fun _ hw => (mem_writesOf_run hw).1) (fun _ hw _ hu => ((mem_writesOf_run hw).2 _ hu).1) (.inl (writesOf_run_covers h0 h1))

end writesOf

end Sys2Proof.Proofs

namespace Sys2Proof.Proofs
open Sys2Proof Sys2Proof.Machine Sys2Proof.Claims

/-! ## The bytes of an activation row (R152, R278) -/

section patRow
variable {p : Pat} {j n b adv : Nat}

/-- Byte b of a row whose length is a multiple of a line. -/
theorem getElem?_patRow (c : Core) (q : Nat) (hb : b < 64 * q) :
    (c.patRow p j (64 * q) adv)[b]? = some (Memory.read1 c.spad (p.addr j b + adv)) := by
  unfold Core.patRow Pat.runs
  split
  · next h0 =>
    rw [List.flatMap_singleton, getElem?_read hb]
    simp only [Pat.addr, if_pos h0]
    congr 2
    omega
  · next h0 =>
    have hlen : ∀ l ∈ List.range ((64 * q + 63) / 64), (Memory.read c.spad (p.addr j (64 * l) + adv) (min 64 (64 * q - 64 * l))).length = 64 := by
      intro l hl
      rw [List.mem_range] at hl
      simp only [Memory.read, List.length_map, List.length_range]
      omega
    have hl : b / 64 < (64 * q + 63) / 64 := by omega
    have hd : 64 * (b / 64) / 64 = b / 64 := by omega
    have hm : 64 * (b / 64) % 64 = 0 := by omega
    rw [List.flatMap_map, ← Nat.div_add_mod b 64, getElem?_blocks hlen _ (Nat.mod_lt _ (by decide)), List.getElem?_range hl, Option.bind_some,
      getElem?_read (by omega), Nat.div_add_mod]
    simp only [Pat.addr, if_neg h0, hd, hm]
    congr 2
    omega

end patRow

theorem width_cases (it : InTy) : InTy.width it = 4 ∨ InTy.width it = 8 ∨ InTy.width it = 16 := by cases it <;> decide

theorem rowBytes_lines (it : InTy) : ∃ q, InTy.rowBytes it = 64 * q := by
  obtain h | h | h := width_cases it
  · exact ⟨1, by rw [InTy.rowBytes, h]⟩
  · exact ⟨2, by rw [InTy.rowBytes, h]⟩
  · exact ⟨4, by rw [InTy.rowBytes, h]⟩

theorem getElem?_mmulRowBytes {c : Core} {p : Fin 8} {it : InTy} {srcq : Bool} {j : Job} {r b : Nat} (hb : b < InTy.rowBytes it) :
    (mmulRowBytes c p it srcq j r)[b]? = some (if srcq then Memory.read1 (j.mem 0 false) (InTy.rowBytes it * r + b)
      else Memory.read1 (j.mem (r + 1) false) ((c.pat 2 p).addr r b + (c.pat 2 p).tilep * (c.e .mx).rep.toNat)) := by
  unfold mmulRowBytes
  split
  · exact getElem?_read hb
  · obtain ⟨q, hq⟩ := rowBytes_lines it
    rw [hq] at hb ⊢
    exact getElem?_patRow (j.core r c) q hb

/-! ## A row of products (R145, R278) -/

section one
variable {m : Mach} {g : Fin 256} {acc : BitVec 12} {it : InTy} {j : Job} {r n : Nat} {c : Core}

/-- The bytes of an accumulator row. -/
def accBytes (f : Nat → Lane) : List Byte := ((List.range 128).map f).flatMap fun x => leBytes 4 x.toNat

theorem accBytes_length (f : Nat → Lane) : (accBytes f).length = 512 := by
  rw [accBytes, List.length_flatMap, List.map_congr_left (g := fun _ => 4) fun x _ => leBytes_length 4 _, List.map_const',
    List.sum_replicate]
  simp

theorem accBytes_byte (f : Nat → Lane) {col k : Nat} (hc : col < 128) (hk : k < 4) :
    (accBytes f).getD (4 * col + k) 0 = (leBytes 4 (f col).toNat).getD k 0 := by
  rw [List.getD_eq_getElem?_getD, accBytes, getElem?_blocks (fun x _ => leBytes_length 4 _) _ hk, List.getElem?_map, List.getElem?_range hc,
    List.getD_eq_getElem?_getD]
  rfl

/-- An accumulator row whose bytes are those of lanes holds the lanes. -/
theorem accAt_of_bytes {f : Nat → Lane} (h : ∀ b, b < 512 → Memory.read1 c.acc (512 * n + b) = (accBytes f).getD b 0) {col : Nat}
    (hc : col < 128) : c.accAt n col = f col := by
  have hr : Memory.read c.acc (512 * n + 4 * col) 4 = leBytes 4 (f col).toNat := by
    refine List.ext_getElem (by simp [Memory.read, leBytes_length]) fun k h0 h1 => ?_
    have hk : k < 4 := by rwa [leBytes_length] at h1
    have hb := (h (4 * col + k) (by omega)).trans (accBytes_byte f hc hk)
    rw [List.getD_eq_getElem _ _ h1, ← Nat.add_assoc] at hb
    simpa [Memory.read] using hb
  rw [Core.accAt, Memory.readL, hr, leVal_leBytes_lane]

/-- The lines of an accumulator row. -/
def rowLines (n : Nat) (f : Nat → Lane) : List LineWrite := writesOf true [(512 * n, accBytes f)]

theorem rowLines_acc (n : Nat) (f : Nat → Lane) : accLines (rowLines n f) n 1 := by
  have hacc : ∀ w ∈ rowLines n f, w.acc = true := fun w hw => (mem_writesOf_run hw).1
  have hkeep {α : Type} (F : Core → α) (h : ∀ a bs c, F (storedAt true a bs c) = F c) (c : Core) : F (putAll (rowLines n f) c) = F c :=
    putAll_keeps F (fun w hw c => putLine_keeps F fun a bs c => by rw [hacc w hw]; exact h a bs c) c
  refine fun c => ⟨hkeep Core.spad (fun _ _ _ => rfl) c, hkeep Core.eng (fun _ _ _ => rfl) c, hkeep Core.mx (fun _ _ _ => rfl) c,
    hkeep Core.s (fun _ _ _ => rfl) c, fun a ha => ?_⟩
  refine putAll_keeps (fun c => Memory.read1 c.acc a) (fun w hw c => (read1_putLine_outside fun u hu => ?_).2) c
  obtain ⟨-, h0, h1⟩ := (mem_writesOf_run hw).2 u hu
  rw [accBytes_length] at h1
  omega

theorem rowLines_accAt (f : Nat → Lane) (c : Core) {col : Nat} (hc : col < 128) : (putAll (rowLines n f) c).accAt n col = f col := by
  refine accAt_of_bytes (fun b hb => ?_) hc
  rw [rowLines, read1_putAll_run c (Nat.le_add_right _ _) (by rw [accBytes_length]; omega), Nat.add_sub_cancel_left]

/-- Column col of row r of a repetition: the row's products with the weights of the column, added to what was there. -/
def mmulLane (m : Mach) (g : Fin 256) (it : InTy) (n r : Nat) (j : Job) (col : Nat) : Lane :=
  matSum (devNan ((m.core g).e .mx).pc (128 * rankOf m g + col)) (Memory.readL (j.mem (r + 1) true) (512 * n + 4 * col))
    ((List.range 128).map fun x => (InTy.val it (elemOf (InTy.width it) x (Memory.read1 (j.mem (r + 1) false))), (m.core g).mx.weight x col))

theorem elemOf_congr {w x : Nat} {f f' : Nat → Byte} (hx : x < 128) (hw : w = 4 ∨ w = 8 ∨ w = 16) (h : ∀ k, k < 16 * w → f k = f' k) :
    elemOf w x f = elemOf w x f' := by
  obtain rfl | rfl | rfl := hw
  · simp [elemOf, h (x / 2) (by omega)]
  · simp [elemOf, h x (by omega)]
  · simp [elemOf, h (2 * x) (by omega), h (2 * x + 1) (by omega)]

theorem rowVals_eq (mem : Memory) :
    rowVals it (Memory.read mem 0 (InTy.rowBytes it)) = (List.range 128).map fun x => InTy.val it (elemOf (InTy.width it) x (Memory.read1 mem)) := by
  refine List.map_congr_left fun x hx => congrArg _ ?_
  rw [packed_eq (width_cases it)]
  refine elemOf_congr (List.mem_range.1 hx) (width_cases it) fun k hk => ?_
  rw [List.getD_eq_getElem?_getD, getElem?_read (n := InTy.rowBytes it) hk, Nat.zero_add]
  rfl

theorem zipIdx_map_range {α β : Type} (f : Nat → α) (h : α × Nat → β) (n : Nat) :
    ((List.range n).map f).zipIdx.map h = (List.range n).map fun x => h (f x, x) := by
  refine List.ext_getElem (by simp) fun i h0 h1 => ?_
  simp

/-- The row of the accumulator that an activation row has been added into. -/
theorem read_mmulRow (c : Core) (rank n : Nat) (row : List Val) : Memory.read (mmulRow rank n row c).acc (512 * n) 512 =
    accBytes fun col => matSum (devNan (c.e .mx).pc (128 * rank + col)) (c.accAt n col) (row.zipIdx.map fun a => (a.1, c.mx.weight a.2 col)) := by
  have h := read_write_same c.acc (512 * n) (accBytes fun col => matSum (devNan (c.e .mx).pc (128 * rank + col)) (c.accAt n col)
    (row.zipIdx.map fun a => (a.1, c.mx.weight a.2 col)))
  rwa [accBytes_length] at h

theorem mmulOne_eq (acc : BitVec 12) : mmulOne m g acc it r j m =
    rowGave m g .mx r (rowLines (acc.toNat + (m.core g).mx.cfg.nrows.toNat * mxRep m g + r)
      (mmulLane m g it (acc.toNat + (m.core g).mx.cfg.nrows.toNat * mxRep m g + r) r j)) := by
  refine onCore_congr (congrArg (Core.onJob _ .mx) (funext fun j' => congrArg (Job.rowDone j' r) (congrArg (writesOf true) ?_)))
  rw [List.map_singleton, read_mmulRow, rowVals_eq]
  simp only [zipIdx_map_range]
  rfl

end one

end Sys2Proof.Proofs

namespace Sys2Proof.Proofs
open Sys2Proof Sys2Proof.Machine Sys2Proof.Claims

/-! ## MMUL at a repetition (R54, R277 to R279) -/

section exec
variable {t : Tok} {acc : BitVec 12} {p : Fin 8} {rep : BitVec 6} {shp : Shape} {it : InTy} {srcq mark : Bool} {s : State} {g : Fin 256}

/-- What the issue of a repetition of MMUL does, its rows good. -/
def mmulEff (i : Instr) (acc : BitVec 12) (p : Fin 8) (rep : BitVec 6) (shp : Shape) (it : InTy) (srcq : Bool) (g : Fin 256) (m : Mach) : Eff :=
  mmulPop m g (if srcq && (Shape.cores shp = 1 || rankOf m g = 0) then mmulQ2 (m.core g) shp it else 0)
    (if Shape.cores shp = 1 then mmulGather m i g p shp it srcq else mmulGang m i g acc p rep shp it srcq)

theorem cores_eq_one {shp : Shape} : Shape.cores shp = 1 ↔ shp = .s11 := by cases shp <;> decide

theorem mxFault_mmul (hg : shp ≠ .s11 → Shape.cores shp = gangOf s.m g) (hf : mmulFault s.m g acc p shp it srcq = none) :
    mxFault s.m g (.mmul t acc p rep shp it srcq mark) = none := by
  have hc : ¬((Shape.cores shp ≠ 1 && Shape.cores shp ≠ gangOf s.m g) = true) := by
    simp only [Bool.and_eq_true, decide_eq_true_eq, not_and, not_not, ne_eq, cores_eq_one]
    exact hg
  exact (if_neg hc).trans hf

theorem exec_mmul_issues (ha : acts s g .mx) (hj : ((s.m.core g).e .mx).job = none) :
    exec (.mmul t acc p rep shp it srcq mark) s = .next (after s (issue (.mmul t acc p rep shp it srcq mark) g .mx
      (fun m => mxFault m g (.mmul t acc p rep shp it srcq mark)) (mmulEff (.mmul t acc p rep shp it srcq mark) acc p rep shp it srcq g) id s.m)) := by
  rw [exec, execMmul, soloParcel_own ha.1 ha.2, repetition, hj]
  rfl

theorem exec_mmul_acts {j : Job} (h : jobAt s g .mx j) :
    exec (.mmul t acc p rep shp it srcq mark) s = .next (after s (
      if j.begun then s.m.jobAct g .mx g true (mmulOne s.m g acc it) (mmulEnd (.mmul t acc p rep shp it srcq mark) g rep mark shp) j
      else s.m.jobAct g .mx g false (mmulSpread (.mmul t acc p rep shp it srcq mark) g acc p shp it srcq) id j)) := by
  rw [exec, execMmul, soloParcel_own h.1.1 h.1.2, repetition, h.2]
  rfl

end exec

/-! ## Popping Q2 (R56, R278; log entry 49) -/

section pop
variable {m : Mach} {g : Fin 256} {n : Nat} {use : Eff}

theorem mmulPop_ready (h : n ≤ (m.core g).mx.taken.length) : mmulPop m g n use = use := if_pos h

theorem mmulPop_empty (h : (m.core g).mx.taken.length < n) (hq : (m.core g).qt[2] = []) : mmulPop m g n use = .wait m := by
  simp [mmulPop, Nat.not_le.2 h, hq]

theorem mmulPop_takes {x : Tile} {rest : List Tile} (h : (m.core g).mx.taken.length < n) (hq : (m.core g).qt[2] = x :: rest) :
    mmulPop m g n use = .wait (m.onCore g fun c =>
      { c with qt := Machine.put c.qt 2 rest, mx := { c.mx with taken := c.mx.taken ++ [x] } }) := by
  simp [mmulPop, Nat.not_le.2 h, hq]

end pop

/-! ## Presenting a repetition (R279; log entry 57) -/

section gang
variable {m : Mach} {i : Instr} {g : Fin 256} {acc : BitVec 12} {p : Fin 8} {rep : BitVec 6} {shp : Shape} {it : InTy} {srcq : Bool}

/-- What core g presents. -/
def ownInstance (m : Mach) (g : Fin 256) (acc : BitVec 12) (rep : BitVec 6) (shp : Shape) (it : InTy) : Present :=
  ⟨acc, rep, shp, it, (m.core g).mx.cfg.nrows⟩

/-- Core g with a repetition presented. -/
def presenting (x : Option Present) (c : Core) : Core := { c with mx := { c.mx with present := x } }

theorem mmulGang_ended (h : ∃ k ∈ m.members g, ((m.core k).e .mx).ended = true) : mmulGang m i g acc p rep shp it srcq = .fail .illegal :=
  if_pos (List.any_eq_true.2 h)

/-- The machine with y presented by core g. -/
def presentAt (m : Mach) (g : Fin 256) (y : Present) : Mach := m.onCore g (presenting (some y))

theorem presenting_task (x : Option Present) (k : Fin 256) : ((m.onCore g (presenting x)).core k).task = (m.core k).task :=
  onCore_keeps _ _ _ _ Core.task fun _ => rfl

theorem rankOf_congr {m' : Mach} {k : Fin 256} (h : (m'.core k).task = (m.core k).task) : rankOf m' k = rankOf m k := by
  rw [rankOf, rankOf, h]

theorem presentAt_self (y : Present) : ((presentAt m g y).core g).mx.present = some y := by rw [presentAt, onCore_core]; rfl

theorem presentAt_other (y : Present) {k : Fin 256} (h : k ≠ g) : ((presentAt m g y).core k).mx.present = (m.core k).mx.present := by
  rw [presentAt, onCore_core_ne _ _ _ h]

/-- Of a gang whose MX engines stand at the parcel, one that differs traps; while a member is missing, and for any but the
leader, MX waits; the leader then reads the rows. -/
theorem mmulGang_presents {me : Present} (hme : me = ownInstance m g acc rep shp it)
    (h : ∀ k ∈ m.members g, ((m.core k).e .mx).ended = false) : mmulGang m i g acc p rep shp it srcq =
    if ∃ k ∈ m.members g, ∃ y, ((presentAt m g me).core k).mx.present = some y ∧ y ≠ me then .fail .illegal
    else if (∃ k ∈ m.members g, ((presentAt m g me).core k).mx.present = none) ∨ rankOf m g ≠ 0 then .wait (presentAt m g me)
    else mmulGather (presentAt m g me) i g p shp it srcq := by
  have hend : ¬((m.members g).any fun k => ((m.core k).e .mx).ended) = true := by simpa using h
  subst hme
  refine (if_neg hend).trans (if_congr ?_ rfl (if_congr ?_ rfl rfl))
  · rw [List.any_map, List.any_eq_true]
    refine exists_congr fun k => and_congr_right fun _ => ?_
    change (match ((presentAt m g (ownInstance m g acc rep shp it)).core k).mx.present with
      | some y => decide (y ≠ ownInstance m g acc rep shp it) | none => false) = true ↔ _
    cases ((presentAt m g (ownInstance m g acc rep shp it)).core k).mx.present <;> simp
  · have hr : rankOf (presentAt m g (ownInstance m g acc rep shp it)) g = rankOf m g := rankOf_congr (presenting_task _ _)
    rw [Bool.or_eq_true, List.any_map, List.any_eq_true, decide_eq_true_eq]
    refine or_congr (exists_congr fun k => and_congr_right fun _ => ?_) (iff_of_eq (congrArg (· ≠ 0) hr))
    exact Option.isNone_iff_eq_none

end gang

end Sys2Proof.Proofs

namespace Sys2Proof.Proofs
open Sys2Proof Sys2Proof.Machine Sys2Proof.Claims

/-! ## The issue of a repetition that reads the activation rows -/

theorem onCore_of_fixed {m : Mach} {g : Fin 256} {f : Core → Core} (h : f (m.core g) = m.core g) : m.onCore g f = m :=
  (onCore_congr (f' := id) h).trans (by simp [Mach.onCore, upd])

section gather
variable {m : Mach} {i : Instr} {g : Fin 256} {acc : BitVec 12} {p : Fin 8} {rep : BitVec 6} {shp : Shape} {it : InTy} {srcq : Bool}

/-- The job of the core that reads the activation rows, or has popped them (R278). -/
def gatherJob (c : Core) (p : Fin 8) (shp : Shape) (it : InTy) (srcq : Bool) : Job :=
  if srcq then ⟨[], [0], [], Memory.write [] 0 (c.mx.taken.flatMap tileBytes), [], false⟩
  else ⟨(List.range (mmulRowCount c shp)).flatMap fun k =>
    readsOf (k + 1) false ((c.pat 2 p).rowAt k (InTy.rowBytes it) ((c.pat 2 p).tilep * (c.e .mx).rep.toNat)), [0], [], [], [], false⟩

theorem mmulGather_presenting (x : Option Present) : mmulGather (m.onCore g (presenting x)) i g p shp it srcq =
    .wait (m.onCore g fun c => (presenting x c).beginJob .mx (tk i) (gatherJob (m.core g) p shp it srcq)) := by
  have hj : gatherJob ((m.onCore g (presenting x)).core g) p shp it srcq = gatherJob (m.core g) p shp it srcq := by
    rw [onCore_core]
    rfl
  have h : mmulGather (m.onCore g (presenting x)) i g p shp it srcq =
      (m.onCore g (presenting x)).begins i g .mx (gatherJob ((m.onCore g (presenting x)).core g) p shp it srcq) := by
    cases srcq <;> rfl
  rw [h, hj, Mach.begins, onCore_onCore]

/-- What members of a gang find once all of them have presented the same. -/
def matesReady (m : Mach) (g : Fin 256) (me : Present) : Prop :=
  ∀ h ∈ m.members g, ((m.core h).e .mx).ended = false ∧ (h ≠ g → (m.core h).mx.present = some me)

theorem presentAt_eq_me {me : Present} (h : matesReady m g me) {k : Fin 256} (hk : k ∈ m.members g) :
    ((presentAt m g me).core k).mx.present = some me := by
  by_cases hg : k = g
  · rw [hg, presentAt_self]
  · rw [presentAt_other _ hg, (h k hk).2 hg]

/-- The core alone, and the leader once every member has presented, read the rows. -/
theorem leader_gathers (h : shp = .s11 ∨ (rankOf m g = 0 ∧ matesReady m g (ownInstance m g acc rep shp it))) : ∃ x,
    (if Shape.cores shp = 1 then mmulGather m i g p shp it srcq else mmulGang m i g acc p rep shp it srcq) =
      .wait (m.onCore g fun c => (presenting x c).beginJob .mx (tk i) (gatherJob (m.core g) p shp it srcq)) := by
  by_cases hs : shp = .s11
  · refine ⟨(m.core g).mx.present, ?_⟩
    rw [if_pos (cores_eq_one.2 hs), ← mmulGather_presenting, onCore_of_fixed rfl]
  · obtain ⟨hr, hm⟩ := h.resolve_left hs
    refine ⟨some (ownInstance m g acc rep shp it), ?_⟩
    rw [if_neg (cores_eq_one.not.2 hs), mmulGang_presents rfl fun k hk => (hm k hk).1, if_neg, if_neg]
    · exact mmulGather_presenting _
    · rintro (⟨k, hk, hp⟩ | h)
      · rw [presentAt_eq_me hm hk] at hp
        cases hp
      · exact h hr
    · rintro ⟨k, hk, y, hp, hy⟩
      rw [presentAt_eq_me hm hk] at hp
      cases hp
      exact hy rfl

end gather

/-! ## A repetition that has not issued -/

section issue
variable {t : Tok} {acc : BitVec 12} {p : Fin 8} {rep : BitVec 6} {shp : Shape} {it : InTy} {srcq mark : Bool} {s : State} {g : Fin 256}
  {i : Instr} {m m' : Mach}

theorem mmulEff_ready (h : srcq = true → shp = .s11 ∨ rankOf m g = 0 → mmulQ2 (m.core g) shp it ≤ (m.core g).mx.taken.length) :
    mmulEff i acc p rep shp it srcq g m =
      if Shape.cores shp = 1 then mmulGather m i g p shp it srcq else mmulGang m i g acc p rep shp it srcq := by
  refine mmulPop_ready ?_
  split
  · next hc =>
    simp only [Bool.and_eq_true, Bool.or_eq_true, decide_eq_true_eq, cores_eq_one] at hc
    exact h hc.1 hc.2
  · exact Nat.zero_le _

theorem mmulEff_pops (hq : srcq = true) (hl : shp = .s11 ∨ rankOf m g = 0) : mmulEff i acc p rep shp it srcq g m =
    mmulPop m g (mmulQ2 (m.core g) shp it)
      (if Shape.cores shp = 1 then mmulGather m i g p shp it srcq else mmulGang m i g acc p rep shp it srcq) := by
  have hc : (srcq && (decide (Shape.cores shp = 1) || decide (rankOf m g = 0))) = true := by
    simp only [Bool.and_eq_true, Bool.or_eq_true, decide_eq_true_eq, cores_eq_one]
    exact ⟨hq, hl⟩
  rw [mmulEff, if_pos hc]

variable (h : mayIssue (.mmul t acc p rep shp it srcq mark) s g .mx) (hj : ((s.m.core g).e .mx).job = none)
  (hg : shp ≠ .s11 → Shape.cores shp = gangOf s.m g) (hf : mmulFault s.m g acc p shp it srcq = none)
include h hj hg hf

theorem exec_mmul_waits (he : mmulEff (.mmul t acc p rep shp it srcq mark) acc p rep shp it srcq g s.m = .wait m) :
    exec (.mmul t acc p rep shp it srcq mark) s = .next (after s m) := by
  rw [exec_mmul_issues h.1 hj, issue_waits h (mxFault_mmul hg hf) he]

theorem exec_mmul_traps (he : mmulEff (.mmul t acc p rep shp it srcq mark) acc p rep shp it srcq g s.m = .fail .illegal) :
    exec (.mmul t acc p rep shp it srcq mark) s =
      .next (after s (s.m.takeTrap g .mx .illegal 0 (infoOf (.mmul t acc p rep shp it srcq mark)))) := by
  rw [exec_mmul_issues h.1 hj, issue_trap h (mxFault_mmul hg hf) he]
  rfl

end issue

end Sys2Proof.Proofs

namespace Sys2Proof.Proofs
open Sys2Proof Sys2Proof.Machine Sys2Proof.Claims

/-! ## Every member's part of a repetition (R279) -/

section part
variable {m : Mach} {i : Instr} {g h k : Fin 256} {acc : BitVec 12} {shp : Shape} {rows : List (List Byte)} {e : Engine}

theorem beginJob_e (c : Core) (t : Tok) (j : Job) :
    (c.beginJob e t j).e e = { c.e e with tokp := true, wait := none, job := some j } := by
  rw [Core.beginJob, onE_e, popTok_e]

/-- What neither tokens nor an engine's state decide, the issue of a repetition keeps. -/
theorem beginJob_keeps {α : Type} (F : Core → α) (ht : ∀ (c : Core) x, F { c with tok := x } = F c) (he : ∀ (c : Core) f, F (c.onE e f) = F c)
    (c : Core) (t : Tok) (j : Job) : F (c.beginJob e t j) = F c := by
  obtain ⟨x, h⟩ := popTok_frame c e t
  rw [Core.beginJob, he, h, ht]

/-- Core k once its part of a repetition has issued. -/
def partOn (t : Tok) (j : Job) (c : Core) : Core := (presenting none c).beginJob .mx t j

/-- The job of core k's part of a repetition of which `rows` are the activation rows. -/
def partJob (m : Mach) (acc : BitVec 12) (shp : Shape) (rows : List (List Byte)) (k : Fin 256) : Job :=
  mmulJob (acc.toNat + (m.core k).mx.cfg.nrows.toNat * ((m.core k).e .mx).rep.toNat)
    ((rows.drop ((m.core k).mx.cfg.nrows.toNat * (if Shape.cores shp = 1 then 0 else rankOf m k / Shape.cols shp))).take
      (m.core k).mx.cfg.nrows.toNat)

theorem mmulPart_none (hi : (if k = g then some i else mmulAt m k) = none) : mmulPart i g acc shp rows m k = m := by
  rw [mmulPart, hi]

theorem mmulPart_some {i' : Instr} (hi : (if k = g then some i else mmulAt m k) = some i') :
    mmulPart i g acc shp rows m k = m.onCore k (partOn (tk i') (partJob m acc shp rows k)) := by
  rw [mmulPart, hi]
  exact onCore_congr rfl

/-- A part changes one core, or nothing. -/
theorem mmulPart_cases : mmulPart i g acc shp rows m k = m ∨
    ∃ t, mmulPart i g acc shp rows m k = m.onCore k (partOn t (partJob m acc shp rows k)) := by
  cases hi : if k = g then some i else mmulAt m k with
  | none => exact .inl (mmulPart_none hi)
  | some i' => exact .inr ⟨_, mmulPart_some hi⟩

theorem mmulPart_keeps {α : Type} (F : Core → α) (hF : ∀ t j c, F (partOn t j c) = F c) (x : Fin 256) :
    F ((mmulPart i g acc shp rows m k).core x) = F (m.core x) := by
  obtain h | ⟨t, h⟩ := mmulPart_cases (m := m) (i := i) (g := g) (acc := acc) (shp := shp) (rows := rows) (k := k)
  · rw [h]
  · rw [h, onCore_keeps _ _ _ _ F (hF t _)]

theorem partOn_task (t : Tok) (j : Job) (c : Core) : (partOn t j c).task = c.task := beginJob_keeps Core.task (fun _ _ => rfl) (fun _ _ => rfl) ..
theorem partOn_acc (t : Tok) (j : Job) (c : Core) : (partOn t j c).acc = c.acc := beginJob_keeps Core.acc (fun _ _ => rfl) (fun _ _ => rfl) ..
theorem partOn_spad (t : Tok) (j : Job) (c : Core) : (partOn t j c).spad = c.spad := beginJob_keeps Core.spad (fun _ _ => rfl) (fun _ _ => rfl) ..
theorem partOn_mx (t : Tok) (j : Job) (c : Core) : (partOn t j c).mx = { c.mx with present := none } :=
  beginJob_keeps Core.mx (fun _ _ => rfl) (fun _ _ => rfl) (presenting none c) t j
theorem partOn_e (t : Tok) (j : Job) (c : Core) : (partOn t j c).e .mx = { c.e .mx with tokp := true, wait := none, job := some j } :=
  beginJob_e (presenting none c) t j

/-- What a part reads of a core: the task, the rows of the configuration, and where MX stands. -/
def partSees (c : Core) : Option CoreTask × BitVec 8 × BitVec 6 × PAddr := (c.task, c.mx.cfg.nrows, (c.e .mx).rep, (c.e .mx).pc)

theorem partOn_sees (t : Tok) (j : Job) (c : Core) : partSees (partOn t j c) = partSees c := by
  rw [partSees, partSees, partOn_task, partOn_mx, partOn_e]

theorem partJob_congr {m' : Mach} (hs : partSees (m'.core k) = partSees (m.core k)) : partJob m' acc shp rows k = partJob m acc shp rows k := by
  simp only [partSees, Prod.mk.injEq] at hs
  obtain ⟨ht, hn, hr, -⟩ := hs
  rw [partJob, partJob, hn, hr, rankOf_congr ht]

theorem readParcel_congr {x x' : EngState} {t : CoreTask} {f : Core → Core} (hp : x'.pc = x.pc) :
    readParcel (m.onCore k f) t x' e = readParcel m t x e := by
  simp only [readParcel, hp]
  rfl

theorem mmulAt_onCore {f : Core → Core} (hs : ∀ c, partSees (f c) = partSees c) : mmulAt (m.onCore k f) h = mmulAt m h := by
  have hc : partSees ((m.onCore k f).core h) = partSees (m.core h) := onCore_keeps _ _ _ _ partSees hs
  simp only [partSees, Prod.mk.injEq] at hc
  obtain ⟨ht, -, -, hp⟩ := hc
  rw [mmulAt, mmulAt, ht]
  cases (m.core h).task with
  | none => rfl
  | some t => simp only [readParcel_congr hp]

theorem mmulAt_mmulPart : mmulAt (mmulPart i g acc shp rows m k) h = mmulAt m h := by
  obtain e | ⟨t, e⟩ := mmulPart_cases (m := m) (i := i) (g := g) (acc := acc) (shp := shp) (rows := rows) (k := k)
  · rw [e]
  · rw [e, mmulAt_onCore (partOn_sees t _)]

theorem mmulPart_other (hk : h ≠ k) : (mmulPart i g acc shp rows m k).core h = m.core h := by
  obtain e | ⟨t, e⟩ := mmulPart_cases (m := m) (i := i) (g := g) (acc := acc) (shp := shp) (rows := rows) (k := k)
  · rw [e]
  · rw [e, onCore_core_ne _ _ _ hk]

theorem parts_other (ks : List (Fin 256)) (hk : h ∉ ks) : (ks.foldl (mmulPart i g acc shp rows) m).core h = m.core h := by
  induction ks generalizing m with
  | nil => rfl
  | cons k ks ih =>
    exact (ih fun h => hk (List.mem_cons_of_mem _ h)).trans (mmulPart_other fun h => hk (h ▸ List.mem_cons_self))

/-- Once the parts of all members have issued, each that stands at an MMUL has its job. -/
theorem parts_issue (ks : List (Fin 256)) (hk : h ∈ ks) (hi : h = g ∨ (mmulAt m h).isSome = true) :
    (((ks.foldl (mmulPart i g acc shp rows) m).core h).e .mx).job = some (partJob m acc shp rows h) ∧
      ((ks.foldl (mmulPart i g acc shp rows) m).core h).mx.present = none := by
  induction ks generalizing m with
  | nil => cases hk
  | cons k ks ih =>
    have hsees : partSees ((mmulPart i g acc shp rows m k).core h) = partSees (m.core h) := mmulPart_keeps partSees partOn_sees h
    by_cases hl : h ∈ ks
    · rw [← partJob_congr hsees]
      exact ih hl (by rwa [mmulAt_mmulPart])
    · obtain rfl := (List.mem_cons.1 hk).resolve_right hl
      obtain ⟨i', hi'⟩ : ∃ i', (if h = g then some i else mmulAt m h) = some i' := by
        split
        · exact ⟨_, rfl⟩
        · next hne => exact Option.isSome_iff_exists.1 (hi.resolve_left hne)
      rw [List.foldl_cons, parts_other ks hl, mmulPart_some hi', onCore_core, partOn_e, partOn_mx]
      exact ⟨rfl, rfl⟩

theorem parts_keep {α : Type} (F : Core → α) (hF : ∀ t j c, F (partOn t j c) = F c) (ks : List (Fin 256)) (x : Fin 256) :
    F ((ks.foldl (mmulPart i g acc shp rows) m).core x) = F (m.core x) :=
  foldl_keeps (fun m => F (m.core x)) (fun _ _ => mmulPart_keeps F hF x) ks m

end part

/-! ## The activation rows have been read -/

section spread
variable {t : Tok} {acc : BitVec 12} {p : Fin 8} {rep : BitVec 6} {shp : Shape} {it : InTy} {srcq mark : Bool} {s : State} {g : Fin 256}
  {j : Job}

theorem endIfDone_id (m : Mach) (g : Fin 256) (e : Engine) : endIfDone g e id m = m := by
  unfold endIfDone
  split
  · split <;> rfl
  · rfl

theorem exec_mmul_spreads (h : jobAt s g .mx j) (hb : j.begun = false) (hr : j.reads = []) (hk : j.rows = [0]) (hw : j.writes = []) :
    exec (.mmul t acc p rep shp it srcq mark) s =
      .next (after s (mmulSpread (.mmul t acc p rep shp it srcq mark) g acc p shp it srcq 0 j s.m)) := by
  obtain ⟨b, hb0, he⟩ := jobAct_row (m := s.m) (g := g) (t := g) (e := .mx) (eager := false)
    (row := mmulSpread (.mmul t acc p rep shp it srcq mark) g acc p shp it srcq) (fin := id) hr (by rw [hk]; exact List.cons_ne_nil _ _) hw
  obtain rfl : b = 0 := by simpa [hk] using hb0
  rw [exec_mmul_acts h, hb, if_neg Bool.false_ne_true, he, endIfDone_id]

/-- The activation rows of a repetition. -/
def activationRows (c : Core) (p : Fin 8) (shp : Shape) (it : InTy) (srcq : Bool) (j : Job) : List (List Byte) :=
  (List.range (mmulRowCount c shp)).map (mmulRowBytes c p it srcq j)

/-- Core g with the entries it has popped used up. -/
def untaken (c : Core) : Core := { c with mx := { c.mx with taken := [] } }

theorem mmulSpread_gang (i : Instr) (k : Nat) (m : Mach) (hs : shp ≠ .s11) : mmulSpread i g acc p shp it srcq k j m =
    (m.members g).foldl (mmulPart i g acc shp (activationRows (m.core g) p shp it srcq j)) (m.onCore g untaken) := by
  rw [mmulSpread, if_neg (cores_eq_one.not.2 hs)]
  rfl

theorem mmulSpread_alone (i : Instr) (k : Nat) (m : Mach) : mmulSpread i g acc p .s11 it srcq k j m = m.onCore g fun c =>
    { c with mx := { c.mx with present := none, taken := [] } }.beginJob .mx (tk i)
      (mmulJob (acc.toNat + (m.core g).mx.cfg.nrows.toNat * ((m.core g).e .mx).rep.toNat) (activationRows (m.core g) p .s11 it srcq j)) := by
  have hj : partJob (m.onCore g untaken) acc .s11 (activationRows (m.core g) p .s11 it srcq j) g =
      mmulJob (acc.toNat + (m.core g).mx.cfg.nrows.toNat * ((m.core g).e .mx).rep.toNat) (activationRows (m.core g) p .s11 it srcq j) := by
    have hlen : (activationRows (m.core g) p .s11 it srcq j).length = (m.core g).mx.cfg.nrows.toNat := by
      rw [activationRows, List.length_map, List.length_range, mmulRowCount, Shape.rows, Nat.mul_one]
    rw [partJob, onCore_core, if_pos (cores_eq_one.2 rfl), Nat.mul_zero, List.drop_zero]
    exact congrArg _ (List.take_of_length_le (Nat.le_of_eq hlen))
  have hp := mmulPart_some (m := m.onCore g untaken) (k := g) (g := g) (i := i) (acc := acc) (shp := .s11)
    (rows := activationRows (m.core g) p .s11 it srcq j) (if_pos rfl)
  rw [hj, onCore_onCore] at hp
  rw [mmulSpread, if_pos (cores_eq_one.2 rfl)]
  exact hp

end spread

end Sys2Proof.Proofs

namespace Sys2Proof.Proofs
open Sys2Proof Sys2Proof.Machine Sys2Proof.Claims

section gatherJob
variable {c : Core} {p : Fin 8} {shp : Shape} {it : InTy} {r b : Nat}

/-- The lines that are read hold every byte of every activation row (R278). -/
theorem gatherJob_readsByte (hr : r < mmulRowCount c shp) (hb : b < InTy.rowBytes it) : readsByte (gatherJob c p shp it false) (r + 1) false
    ((c.pat 2 p).addr r b + (c.pat 2 p).tilep * (c.e .mx).rep.toNat) := by
  obtain ⟨u, hu, h0, h1⟩ := runs_cover (p := c.pat 2 p) (j := r) (n := InTy.rowBytes it) (c := b) (b := 0) hb (Nat.mod_lt _ (by decide))
  have hmem : (u.1 + (c.pat 2 p).tilep * (c.e .mx).rep.toNat, u.2) ∈
      (c.pat 2 p).rowAt r (InTy.rowBytes it) ((c.pat 2 p).tilep * (c.e .mx).rep.toNat) := List.mem_map.2 ⟨u, hu, rfl⟩
  obtain ⟨x, hx, htag, v, hv, hy⟩ := readsOf_covers (tag := r + 1) (acc := false) hmem
    (y := (c.pat 2 p).addr r b + (c.pat 2 p).tilep * (c.e .mx).rep.toNat) (by simp only; omega) (by simp only; omega)
  exact ⟨x, List.mem_flatMap.2 ⟨r, List.mem_range.2 hr, hx⟩, htag, (mem_readsOf hx).2.1, v, hv, hy⟩

theorem gatherJob_popped (b : Nat) : Memory.read1 ((gatherJob c p shp it true).mem 0 false) b =
    if b < 2 ^ 23 then ((c.mx.taken.flatMap tileBytes)[b]?).getD 0 else 0 := by
  have hk : gotKey 0 false b = b := by simp [gotKey]
  rw [read1_mem, hk]
  refine ite_congr rfl (fun _ => ?_) fun _ => rfl
  rw [gatherJob, if_pos rfl, read1_write, List.getD_eq_getElem?_getD, Nat.sub_zero]
  split
  · rfl
  · next h =>
    rw [List.getElem?_eq_none (by omega)]
    rfl

end gatherJob

section gang
variable {m : Mach} {i : Instr} {g : Fin 256} {acc : BitVec 12} {p : Fin 8} {rep : BitVec 6} {shp : Shape} {it : InTy} {srcq : Bool}

/-- While a member is missing, and for any but the leader, a member that presents what the gang does waits. -/
theorem gang_waits (hs : shp ≠ .s11) (hend : ∀ h ∈ m.members g, ((m.core h).e .mx).ended = false)
    (hsame : ∀ h ∈ m.members g, h ≠ g → (m.core h).mx.present = none ∨ (m.core h).mx.present = some (ownInstance m g acc rep shp it))
    (hmiss : (∃ h ∈ m.members g, h ≠ g ∧ (m.core h).mx.present = none) ∨ rankOf m g ≠ 0) :
    (if Shape.cores shp = 1 then mmulGather m i g p shp it srcq else mmulGang m i g acc p rep shp it srcq) =
      .wait (presentAt m g (ownInstance m g acc rep shp it)) := by
  rw [if_neg (cores_eq_one.not.2 hs), mmulGang_presents rfl hend, if_neg, if_pos]
  · refine hmiss.imp_left fun ⟨h, hm, hne, hn⟩ => ⟨h, hm, ?_⟩
    rw [presentAt_other _ hne, hn]
  · rintro ⟨h, hm, y, hy, hne⟩
    by_cases hg : h = g
    · rw [hg, presentAt_self] at hy
      exact hne (Option.some.inj hy).symm
    · rw [presentAt_other _ hg] at hy
      obtain hn | hn := hsame h hm hg
      · rw [hn] at hy
        cases hy
      · rw [hn] at hy
        exact hne (Option.some.inj hy).symm

/-- A member that finds something else presented traps (log entry 57). -/
theorem gang_differs (hs : shp ≠ .s11) (hend : ∀ h ∈ m.members g, ((m.core h).e .mx).ended = false)
    (hdiff : ∃ h ∈ m.members g, h ≠ g ∧ ∃ y, (m.core h).mx.present = some y ∧ y ≠ ownInstance m g acc rep shp it) :
    (if Shape.cores shp = 1 then mmulGather m i g p shp it srcq else mmulGang m i g acc p rep shp it srcq) = .fail .illegal := by
  obtain ⟨h, hm, hne, y, hy, hd⟩ := hdiff
  rw [if_neg (cores_eq_one.not.2 hs), mmulGang_presents rfl hend, if_pos]
  exact ⟨h, hm, y, by rw [presentAt_other _ hne, hy], hd⟩

end gang

/-- Settles O27: the issue by its cases, the parts of a gang (`parts_issue`), and the row of products (`mmulOne_eq`). -/
theorem mmulAddsProducts : Obligations.MmulAddsProducts := by
  intro t acc p rep it srcq mark s g shp i c n k lo pt adv rb all q2 me mates
  refine ⟨fun h hj hg hf => ⟨fun hq hl hlt => ⟨fun he => ?_, fun x rest he => ?_⟩, fun hq hl => ?_, fun hq hl hle => ?_,
    fun hs hq hend => ⟨fun hsame hmiss => ?_, fun hdiff => ?_⟩, fun hs hq hend => ?_⟩, fun j h hb hr hk hw => ?_,
    fun j r b _ hb => getElem?_mmulRowBytes hb, fun j h hb => ⟨?_, fun r => ?_⟩⟩
  · exact exec_mmul_waits h hj hg hf ((mmulEff_pops hq hl).trans (mmulPop_empty hlt he))
  · exact exec_mmul_waits h hj hg hf ((mmulEff_pops hq hl).trans (mmulPop_takes hlt he))
  · obtain ⟨x, hx⟩ := leader_gathers (i := i) (p := p) (it := it) (srcq := srcq) (acc := acc) (rep := rep) hl
    refine ⟨gatherJob c p shp it srcq, x, exec_mmul_waits h hj hg hf ((mmulEff_ready fun hq' => ?_).trans hx), ?_⟩
    · rw [hq] at hq'
      cases hq'
    · subst hq
      exact ⟨rfl, rfl, rfl, fun r b => gatherJob_readsByte⟩
  · obtain ⟨x, hx⟩ := leader_gathers (i := i) (p := p) (it := it) (srcq := srcq) (acc := acc) (rep := rep) hl
    refine ⟨gatherJob c p shp it srcq, x, exec_mmul_waits h hj hg hf ((mmulEff_ready fun _ _ => hle).trans hx), ?_⟩
    subst hq
    exact ⟨rfl, rfl, rfl, rfl, gatherJob_popped⟩
  · exact exec_mmul_waits h hj hg hf ((mmulEff_ready fun h1 h2 => absurd (h2.resolve_left hs) (hq h1)).trans (gang_waits hs hend hsame hmiss))
  · exact exec_mmul_traps h hj hg hf ((mmulEff_ready fun h1 h2 => absurd (h2.resolve_left hs) (hq h1)).trans (gang_differs hs hend hdiff))
  · refine exec_mmul_traps h hj hg hf ((mmulEff_ready fun h1 h2 => absurd (h2.resolve_left hs) (hq h1)).trans ?_)
    rw [if_neg (cores_eq_one.not.2 hs), mmulGang_ended hend]
  · intro rows
    refine ⟨fun hs => ?_, fun hs => ?_⟩
    · subst hs
      rw [exec_mmul_spreads h hb hr hk hw, mmulSpread_alone]
      rfl
    · refine ⟨_, exec_mmul_spreads h hb hr hk hw, ?_⟩
      rw [mmulSpread_gang _ _ _ hs]
      refine ⟨?_, fun x hx hi => ?_⟩
      · rw [parts_keep (fun c => c.mx.taken) (fun t j c => by rw [partOn_mx]), onCore_core]
        rfl
      · have hsees : partSees ((s.m.onCore g untaken).core x) = partSees (s.m.core x) := onCore_keeps _ _ _ _ partSees fun _ => rfl
        obtain ⟨hjob, hpres⟩ := parts_issue (m := s.m.onCore g untaken) (i := i) (g := g) (acc := acc) (shp := shp)
          (rows := activationRows c p shp it srcq j) (s.m.members g) hx (hi.imp_right fun hi => by rwa [mmulAt_onCore (f := untaken) fun _ => rfl])
        rw [partJob_congr hsees, partJob, if_neg (cores_eq_one.not.2 hs)] at hjob
        refine ⟨hjob, hpres, ?_, ?_⟩
        · exact (parts_keep Core.acc partOn_acc _ x).trans (onCore_keeps _ _ _ _ Core.acc fun _ => rfl)
        · exact (parts_keep Core.spad partOn_spad _ x).trans (onCore_keeps _ _ _ _ Core.spad fun _ => rfl)
  · rw [exec_mmul_acts h, hb]
    rfl
  · exact ⟨_, mmulOne_eq acc, rowLines_acc _ _, fun c0 col hc => rowLines_accAt _ c0 hc⟩

end Sys2Proof.Proofs

namespace Sys2Proof.Proofs
open Sys2Proof Sys2Proof.Machine Sys2Proof.Claims

/-! ## What a task shows: engines at TEND, entries left, the reason of a save (R44, R73, R226) -/

/-- A test of every engine of a core is one of the six. -/
theorem all_eng (c : Core) (p : EngState → Bool) : c.eng.toList.all p = true ↔ ∀ e : Engine, p (c.e e) = true := by
  rw [List.all_eq_true]
  constructor
  · intro h e
    exact h _ (by simp [Core.e])
  · intro h x hx
    obtain ⟨i, hi, rfl⟩ := List.mem_iff_getElem.mp hx
    have hi : i < 6 := by simpa using hi
    have hix (e : Engine) (he : (engIx e).val = i) : p c.eng[i] = true := by
      have := h e
      simpa only [Core.e, he] using this
    rw [Vector.getElem_toList]
    match i, hi with
    | 0, _ => exact hix .sc rfl
    | 1, _ => exact hix .ld rfl
    | 2, _ => exact hix .st rfl
    | 3, _ => exact hix .vx rfl
    | 4, _ => exact hix .mx rfl
    | 5, _ => exact hix .asy rfl

theorem allEnded_iff (c : Core) : c.allEnded = true ↔ ∀ e, (c.e e).ended = true := all_eng c _

/-- The token FIFOs of a core are those between its engines. -/
theorem forall_tok (c : Core) (P : Nat → Prop) : (∀ n ∈ c.tok.toList, P n) ↔ ∀ p q, P (c.tokens p q) := by
  constructor
  · intro h p q
    exact h _ (by simp [Core.tokens])
  · intro h n hn
    obtain ⟨i, hi, rfl⟩ := List.mem_iff_getElem.mp hn
    have hi : i < 36 := by simpa using hi
    have hdiv : i / 6 < 6 := by omega
    have hmod : i % 6 < 6 := by omega
    have hsurj (j : Nat) (hj : j < 6) : ∃ e : Engine, (engIx e).val = j := by
      match j, hj with
      | 0, _ => exact ⟨.sc, rfl⟩
      | 1, _ => exact ⟨.ld, rfl⟩
      | 2, _ => exact ⟨.st, rfl⟩
      | 3, _ => exact ⟨.vx, rfl⟩
      | 4, _ => exact ⟨.mx, rfl⟩
      | 5, _ => exact ⟨.asy, rfl⟩
    obtain ⟨p, hp⟩ := hsurj _ hdiv
    obtain ⟨q, hq⟩ := hsurj _ hmod
    have hix : (tokIx p q).val = i := by
      simp only [tokIx, Fin.ofNat, hp, hq]
      omega
    have := h p q
    simpa only [Core.tokens, hix, Vector.getElem_toList] using this

theorem forall_vector {α : Type} {n : Nat} (v : Vector α n) (P : α → Prop) : (∀ x ∈ v.toList, P x) ↔ ∀ i : Fin n, P v[i.val] := by
  constructor
  · intro h i
    exact h _ (by simp)
  · intro h x hx
    obtain ⟨i, hi, rfl⟩ := List.mem_iff_getElem.mp hx
    have hi : i < n := by simpa using hi
    have := h ⟨i, hi⟩
    simpa using this

/-- Nothing is left in a core whose queue registers and token FIFOs are empty (R44). -/
theorem leftovers_eq_false (c : Core) : c.leftovers = false ↔
    (∀ q : Fin 4, c.qt[q.val] = [] ∧ c.qw[q.val] = []) ∧ ∀ p q, c.tokens p q = 0 := by
  have hq {α : Type} (v : Vector (List α) 4) : (v.toList.any fun l => !l.isEmpty) = false ↔ ∀ q : Fin 4, v[q.val] = [] := by
    rw [List.any_eq_false, ← forall_vector v (· = [])]
    simp
  have ht : (c.tok.toList.any fun n => decide (n ≠ 0)) = false ↔ ∀ p q, c.tokens p q = 0 := by
    rw [List.any_eq_false, ← forall_tok c (· = 0)]
    simp
  rw [Core.leftovers, Bool.or_eq_false_iff, Bool.or_eq_false_iff, hq, hq, ht, forall_and]

section reason
variable {m : Mach} {t : CoreTask}

/-- A task of which a member has stopped is saved for what stopped it (R226, R232, R234). -/
theorem saveReason_of_halt {k : Halt} (i : TrapInfo) (h : t.members.findSome? (fun k => (m.core k).halt) = some k) :
    (k = .trap i → m.saveReason t = some 3) ∧ (k = .yield ∨ k = .swap → m.saveReason t = some 2) ∧
    (k = .forced → m.saveReason t = some 4) ∧ (k = .killed → m.saveReason t = none) := by
  unfold Mach.saveReason
  rw [h]
  refine ⟨?_, ?_, ?_, ?_⟩
  · rintro rfl; rfl
  · rintro (rfl | rfl) <;> rfl
  · rintro rfl; rfl
  · rintro rfl; rfl

/-- A task that runs is saved, as pre-empted, when every member stands at its safe point or at TEND, not all at TEND (R73). -/
theorem saveReason_of_running (h : ∀ k ∈ t.members, (m.core k).halt = none) (hr : t.running = true) :
    m.saveReason t = some 1 ↔ (∀ k ∈ t.members, (m.core k).atSafe = true ∨ ∀ e, ((m.core k).e e).ended = true) ∧
      ∃ k ∈ t.members, (m.core k).atSafe = true := by
  have hn : t.members.findSome? (fun k => (m.core k).halt) = none := List.findSome?_eq_none_iff.mpr h
  unfold Mach.saveReason
  rw [hn]
  simp [hr, allEnded_iff]

end reason

/-! ## A core without a task, and a stop at a safe point (R73) -/

section acts
variable {s : State} {g : Fin 256}

/-- Nothing starts, resumes, retires or is saved on a core without a task. -/
theorem task_none_keeps (hb : s.boot.state = 2) (hn : (s.m.core g).task = none) (i : Instr)
    (hi : i = .taskStart g ∨ i = .taskResume g ∨ i = .taskRetire g ∨ i = .taskSave g) : exec i s = .next s := by
  have hp : s.m.placed g = none := by rw [Mach.placed, hn]
  obtain rfl | rfl | rfl | rfl := hi <;> rw [exec]
  · rw [execTaskStart, ready_of_ready hb, hp]
  · rw [execTaskResume, ready_of_ready hb, hp]
  · rw [execTaskRetire, ready_of_ready hb, hn]
  · rw [execTaskSave, ready_of_ready hb, hn]

/-- SC stops at a safe point that it has reached. -/
theorem safePointStop_of_moving (hb : s.boot.state = 2) (hn : (s.m.core g).safe = none) :
    (∀ p, s.m.atSafePoint g = some p →
      exec (.safePointStop g) s = .next (after s ((s.m.noteMap g).onCore g fun c => { c with safe := some p }))) ∧
    (s.m.atSafePoint g = none → exec (.safePointStop g) s = .next s) := by
  rw [exec, execSafePointStop, ready_of_ready hb, hn]
  refine ⟨fun p hp => ?_, fun hp => ?_⟩ <;> simp only [hp, after]

/-- A core whose engines are blocked on one another on the way to the safe point traps there (R227). -/
theorem safePointStop_of_stopped (hb : s.boot.state = 2) {p : PAddr} {l : Word} (hs : (s.m.core g).safe = some (p, l)) :
    (∀ e, s.m.deadlocked g = some e → exec (.safePointStop g) s = .next (after s (s.m.trapDeadlock g e (some p)))) ∧
    (s.m.deadlocked g = none → exec (.safePointStop g) s = .next s) := by
  rw [exec, execSafePointStop, ready_of_ready hb, hs]
  refine ⟨fun e he => ?_, fun he => ?_⟩ <;> simp only [he, after]

end acts

/-- The reads of a save meet no error in cores without one (R151, R155). -/
theorem saveReadsAll_of_sound {m : Mach} (h : sound m) (c : Fin 64) (n : Nat) (l : List (Fin 256)) :
    m.saveReadsAll c n l = (m, true) := by
  induction l with
  | nil => rfl
  | cons k ks ih =>
    have hk (live : Word) : m.saveReads c k live = (m, true) := by
      simp only [Mach.saveReads, portReads_good _ (h k), if_true]
    simp only [Mach.saveReadsAll, hk, if_true, ih]

end Sys2Proof.Proofs

namespace Sys2Proof.Proofs
open Sys2Proof Sys2Proof.Machine Sys2Proof.Claims

/-! ## What a core's place keeps while other cores are freed (R59, R191, R194)

Freeing a core performs accesses at its port and acknowledges an invalidation. A read that fails kills its context, which stops
cores that have a task; no core without one is touched, and no command is added. -/

/-- The task of a core, its request, its command-queue entries and its reason to stop. -/
def seat (c : Core) : Option CoreTask × Bool × Nat × Option Halt := (c.task, c.req, c.cq, c.halt)

/-- The cores keep their tasks, requests and command-queue entries, those without a task their reason to stop, and no
command is added. -/
structure Stays (m m' : Mach) : Prop where
  task : ∀ k, (m'.core k).task = (m.core k).task
  req : ∀ k, (m'.core k).req = (m.core k).req
  cq : ∀ k, (m'.core k).cq = (m.core k).cq
  halt : ∀ k, (m.core k).task = none → (m'.core k).halt = (m.core k).halt
  ops : ∀ o ∈ m'.ops, o ∈ m.ops

namespace Stays
variable {m m' m'' : Mach}

theorem refl (m : Mach) : Stays m m := ⟨fun _ => rfl, fun _ => rfl, fun _ => rfl, fun _ _ => rfl, fun _ h => h⟩

theorem trans (h : Stays m m') (h' : Stays m' m'') : Stays m m'' where
  task k := (h'.task k).trans (h.task k)
  req k := (h'.req k).trans (h.req k)
  cq k := (h'.cq k).trans (h.cq k)
  halt k hk := (h'.halt k ((h.task k).trans hk)).trans (h.halt k hk)
  ops o ho := h.ops o (h'.ops o ho)

theorem of_seat (h : ∀ k, seat (m'.core k) = seat (m.core k)) (ho : ∀ o ∈ m'.ops, o ∈ m.ops) : Stays m m' := by
  simp only [seat, Prod.mk.injEq] at h
  exact ⟨fun k => (h k).1, fun k => (h k).2.1, fun k => (h k).2.2.1, fun k _ => (h k).2.2.2, ho⟩

/-- Nothing of the cores and the commands changes. -/
theorem of_eq (hc : m'.cores = m.cores) (ho : m'.ops = m.ops) : Stays m m' :=
  of_seat (fun k => by rw [Mach.core, hc, Mach.core]) fun o h => ho ▸ h

theorem onCore (g : Fin 256) {f : Core → Core} (h : ∀ c, seat (f c) = seat c) : Stays m (m.onCore g f) :=
  of_seat (fun k => onCore_keeps m g k f seat h) fun _ h => h

theorem foldl {α : Type} {f : Mach → α → Mach} (h : ∀ m a, Stays m (f m a)) (l : List α) (m : Mach) : Stays m (l.foldl f m) := by
  induction l generalizing m with
  | nil => exact refl m
  | cons a l ih => exact (h m a).trans (ih _)

end Stays

section stays
variable (m : Mach) (g : Fin 256) (c : Fin 64)

theorem seat_storedAt (acc : Bool) (a : Nat) (bs : List Byte) (k : Core) : seat (storedAt acc a bs k) = seat k := by
  cases acc <;> rfl

theorem seat_pushTok (k : Core) (e : Engine) (q : Option Engine) : seat (k.pushTok e q) = seat k := by
  obtain ⟨_, _, h⟩ := pushTok_frame k e q
  rw [h]
  rfl

theorem seat_ws (k : Core) (r : Fin 32) (v : Word) : seat (k.ws r v) = seat k := by
  unfold Core.ws
  split <;> rfl

theorem stays_performStore : Stays m (m.performStore g) := by
  refine .of_seat (fun k => performStore_keeps m g k seat seat_storedAt fun q c => seat_pushTok _ _ _) fun o h => ?_
  obtain ⟨x, hx⟩ := performStore_frame m g
  rwa [hx] at h

/-- A core with a task stops: a core without one keeps its place. -/
theorem stays_haltOne {H : Halt} (ht : (m.core g).task ≠ none) : Stays m (haltOne H m g) where
  task k := (haltOne_keeps H m g k Core.task (fun _ _ => rfl) fun _ => rfl).trans ((stays_performStore m g).task k)
  req k := (haltOne_keeps H m g k Core.req (fun _ _ => rfl) fun _ => rfl).trans ((stays_performStore m g).req k)
  cq k := (haltOne_keeps H m g k Core.cq (fun _ _ => rfl) fun _ => rfl).trans ((stays_performStore m g).cq k)
  halt k hk := by
    have hne : k ≠ g := fun h => ht (h ▸ hk)
    have := haltView_haltOne H m g k
    rw [if_neg hne] at this
    simpa only [haltView] using congrArg HaltView.halt this
  ops o h := by
    obtain ⟨_, _, hw⟩ := withdraw_frame m g
    rwa [haltOne, onCore_ops, hw] at h

theorem stays_killed (l : List (Fin 256)) (h : ∀ g ∈ l, (m.core g).task ≠ none) :
    Stays m (l.foldl (fun m g => (m.withdraw g).onCore g Core.killed) m) := by
  induction l generalizing m with
  | nil => exact .refl m
  | cons g l ih =>
    have hk : (m.withdraw g).onCore g Core.killed = (haltOne .killed m g).onCore g fun c => { c with pend := none } := by
      rw [haltOne, onCore_onCore]
      rfl
    have hg : Stays m ((m.withdraw g).onCore g Core.killed) := by
      rw [hk]
      exact (stays_haltOne m g (h g (by simp))).trans (.onCore g fun _ => rfl)
    exact hg.trans (ih _ fun k hk' => by rw [hg.task]; exact h k (by simp [hk']))

theorem stays_onDie (d : Fin 4) (f : Die → Die) : Stays m (m.onDie d f) := .of_eq (onDie_cores ..) (onDie_ops ..)

theorem stays_setRates (d : Fin 4) : Stays m (m.setRates d) := by
  unfold Mach.setRates
  refine Stays.foldl (fun m k => ?_) _ m
  dsimp only
  exact Stays.onCore _ fun _ => rfl

theorem counted_stays (x : FMsg) : Stays m (m.counted x) := by
  unfold Mach.counted
  split
  · exact .of_eq rfl rfl
  · exact .refl m

theorem stays_dropOps : Stays m (m.dropOps c) := by
  unfold Mach.dropOps
  refine Stays.trans ?_ (Stays.foldl (fun m d => ?_) dieNums _)
  · refine (Stays.foldl counted_stays (m.lostMsgs c) m).trans ?_
    refine .of_seat (fun k => ?_) fun o h => List.mem_of_mem_filter h
    rw [Mach.core]
    simp only [each_get _ _ k.isLt]
    rfl
  · exact (stays_onDie m d _).trans ((stays_setRates _ d).trans ((stays_onDie _ d _).trans (stays_onDie _ d _)))

theorem stays_dropRec (d : Fin 4) (r : Rec) : Stays m (m.dropRec d r) := by
  unfold Mach.dropRec
  refine (stays_onDie m d _).trans (.of_eq (writeRec_cores ..) ?_)
  unfold Mach.writeRec
  split
  · rw [ctxWrite_ops, ctxWrite_ops]
  · rfl

/-- A kill stops the cores that have a task (R194). -/
theorem stays_kill : Stays m (m.kill c) := by
  unfold Mach.kill
  have hrecs := Stays.foldl (fun m (r : Fin 4 × Rec) => stays_dropRec m r.1 r.2) (m.recsOf c) m
  refine hrecs.trans ((stays_killed _ (m.coresOf c) fun g hg => ?_).trans ((stays_dropOps _ c).trans (.of_eq (onCtx_cores ..) (onCtx_ops ..))))
  rw [hrecs.task]
  have := (List.mem_filter.mp hg).2
  intro hn
  rw [hn] at this
  exact Bool.false_ne_true this

theorem stays_endLaunch (n : Nat) : Stays m (m.endLaunch c n) := by
  have hcoal (m : Mach) : Stays m (m.coalesce c) := by
    unfold Mach.coalesce
    dsimp only
    split
    · exact .of_eq (raise_cores ..) (raise_ops ..)
    · exact .refl m
  unfold Mach.endLaunch
  dsimp only
  refine Stays.trans ?_ (hcoal _)
  split
  · exact .of_eq rfl rfl
  · exact .of_eq rfl rfl

theorem stays_abort (n : Nat) : Stays m (m.abort c n) := by
  unfold Mach.abort
  dsimp only
  split
  · exact .refl m
  · split
    · exact (stays_kill m c).trans (stays_endLaunch _ c n)
    · exact stays_kill m c

/-- A read of a port repairs, counts, or kills (R151, R155). -/
theorem stays_portRead (acc : Bool) (a n : Nat) : Stays m (m.portRead c g acc a n).1 := by
  have hkill (m' : Mach) (hm : Stays m m') (k x : Nat) : Stays m ((m'.errRecord k c (dieOf g) g.val).abort c x) :=
    hm.trans ((Stays.of_eq (errRecord_cores ..) (errRecord_ops ..)).trans (stays_abort _ c x))
  have htrans (n : Nat) : Stays m (m.transient n) := .of_eq rfl rfl
  unfold Mach.portRead
  dsimp only
  split
  · exact .refl m
  · split <;> split
    · exact hkill _ (htrans _) 2 6
    · exact (htrans _).trans (.onCore g fun _ => rfl)
    · exact hkill _ (htrans _) 1 5
    · exact (htrans _).trans (.onCore g fun _ => rfl)

theorem stays_performNow : Stays m (m.performNow g) := by
  unfold Mach.performNow
  split
  · exact .refl m
  · next p _ =>
    split
    · exact stays_performStore m g
    · next l _ =>
      have hr := stays_portRead m p.core (m.ctxOf g) p.acc p.addr l.size
      dsimp only
      split
      · exact hr.trans (.onCore g fun k => by rw [seat_pushTok, seat_ws]; rfl)
      · exact hr

theorem stays_drainStores : Stays m (m.drainStores g) := by
  unfold Mach.drainStores
  refine Stays.foldl (fun m k => ?_) coreNums m
  split
  · split
    · exact stays_performNow m k
    · exact .refl m
  · exact .refl m

theorem stays_dropCovered (h : Holder) : Stays m (m.dropCovered c h) := by
  unfold Mach.dropCovered
  cases h with
  | core k => exact .onCore k fun _ => rfl
  | belfry d | lantern d | cupola d | gatherer d => exact stays_onDie m d _

theorem stays_finishInval : Stays m (m.finishInval c) := by
  unfold Mach.finishInval
  dsimp only
  split
  · refine Stays.trans (.of_eq (onCtx_cores ..) (onCtx_ops ..)) (Stays.foldl (fun m d => ?_) dieNums _)
    exact (stays_onDie m d _).trans (Stays.foldl (fun m e => .of_eq (ctxWrite_cores ..) (ctxWrite_ops ..)) _ _)
  · exact .refl m

theorem stays_ackCore : Stays m (m.ackCore g) := by
  unfold Mach.ackCore
  split
  · exact .refl m
  · next t _ =>
    split
    · refine Stays.trans ?_ (stays_finishInval _ t.ctx)
      refine Stays.trans ?_ (Stays.onCore g fun _ => rfl)
      exact (stays_dropCovered m t.ctx (.core g)).trans (.of_eq (onCtx_cores ..) (onCtx_ops ..))
    · exact .refl m

end stays

end Sys2Proof.Proofs

namespace Sys2Proof.Proofs
open Sys2Proof Sys2Proof.Machine Sys2Proof.Claims

/-! ## Where no memory of a core holds an error, freeing a core leaves the records (R151, R191) -/

/-- The errors of the cores' memories and the records of the dispatchers are as they were. -/
structure Calm (m m' : Mach) : Prop where
  clean : ∀ k, (m'.core k).clean = (m.core k).clean
  recs : ∀ d, (m'.die d).recs = (m.die d).recs

namespace Calm
variable {m m' m'' : Mach}

theorem refl (m : Mach) : Calm m m := ⟨fun _ => rfl, fun _ => rfl⟩

theorem trans (h : Calm m m') (h' : Calm m' m'') : Calm m m'' :=
  ⟨fun k => (h'.clean k).trans (h.clean k), fun d => (h'.recs d).trans (h.recs d)⟩

theorem sound (h : Calm m m') (hs : Claims.sound m) : Claims.sound m' := fun k => (h.clean k).trans (hs k)

theorem onCore (m : Mach) (g : Fin 256) {f : Core → Core} (h : ∀ c, (f c).clean = c.clean) : Calm m (m.onCore g f) :=
  ⟨fun k => onCore_keeps m g k f Core.clean h, fun _ => rfl⟩

theorem onDie (m : Mach) (d : Fin 4) {f : Die → Die} (h : ∀ x, (f x).recs = x.recs) : Calm m (m.onDie d f) := by
  refine ⟨fun _ => rfl, fun k => ?_⟩
  by_cases hk : k = d
  · rw [hk, onDie_die, h]
  · rw [onDie_die_ne _ _ _ hk]

theorem of_eq (hc : m'.cores = m.cores) (hd : m'.dies = m.dies) : Calm m m' :=
  ⟨fun k => by rw [Mach.core, hc, Mach.core], fun d => by rw [Mach.die, hd, Mach.die]⟩

theorem foldl {α : Type} {f : Mach → α → Mach} (h : ∀ m a, Claims.sound m → Calm m (f m a)) (l : List α) (hs : Claims.sound m) :
    Calm m (l.foldl f m) := by
  induction l generalizing m with
  | nil => exact refl m
  | cons a l ih =>
    have ha := h m a hs
    exact ha.trans (ih (ha.sound hs))

end Calm

section calm
variable {m : Mach} (g : Fin 256)

theorem clean_storedAt (acc : Bool) (a : Nat) (bs : List Byte) (c : Core) : (storedAt acc a bs c).clean = c.clean := by
  cases acc <;> rfl

theorem clean_pushTok (c : Core) (e : Engine) (q : Option Engine) : (c.pushTok e q).clean = c.clean := by
  obtain ⟨_, _, h⟩ := pushTok_frame c e q
  rw [h]
  rfl

theorem clean_ws (c : Core) (r : Fin 32) (v : Word) : (c.ws r v).clean = c.clean := by
  unfold Core.ws
  split <;> rfl

theorem calm_performNow (hs : sound m) : Calm m (m.performNow g) := by
  cases hp : (m.core g).pend with
  | none =>
    have : m.performNow g = m := by rw [Mach.performNow, hp]
    rw [this]
    exact .refl m
  | some p =>
    cases hl : p.load with
    | none =>
      rw [performNow_store hp hl]
      exact (Calm.onCore m p.core (clean_storedAt p.acc p.addr p.bytes)).trans
        (.onCore _ g fun c => clean_pushTok { c with pend := none } .sc p.sig)
    | some l =>
      simp only [Mach.performNow, hp, hl, portRead_good _ _ (hs p.core), if_true]
      exact .onCore m g fun c => by rw [clean_pushTok, clean_ws]; rfl

theorem calm_drainStores (hs : sound m) : Calm m (m.drainStores g) := by
  unfold Mach.drainStores
  refine Calm.foldl (fun m k hs => ?_) coreNums hs
  split
  · split
    · exact calm_performNow k hs
    · exact .refl m
  · exact .refl m

theorem calm_finishInval (c : Fin 64) (hs : sound m) : Calm m (m.finishInval c) := by
  unfold Mach.finishInval
  dsimp only
  split
  · have hc : Calm m (m.onCtx c fun x =>
        { x with busy := false, done := x.done + BitVec.ofNat 32 x.invals.length, invals := [], invSnap := [] }) :=
      .of_eq (onCtx_cores ..) (onCtx_dies ..)
    refine hc.trans (Calm.foldl (fun m d hs => ?_) dieNums (hc.sound hs))
    have hb : Calm m (m.onBelfry d fun b =>
        { b with evicts := b.evicts.map fun (e : Evict) => if e.ctx = c then { e with ret := true } else e }) :=
      .onDie m d fun _ => rfl
    exact hb.trans (Calm.foldl (fun m e _ => .of_eq (ctxWrite_cores ..) (ctxWrite_dies ..)) _ (hb.sound hs))
  · exact .refl m

theorem calm_ackCore (hs : sound m) : Calm m (m.ackCore g) := by
  unfold Mach.ackCore
  split
  · exact .refl m
  · next t _ =>
    split
    · have hc : Calm m (m.dropCovered t.ctx (.core g)) := .onCore m g fun _ => rfl
      have hd : Calm m (m.ackOne t.ctx (coreCode g) (.core g)) := hc.trans (.of_eq (onCtx_cores ..) (onCtx_dies ..))
      have ho := hd.trans (Calm.onCore _ g (f := fun c => { c with owes := none, wdog := none }) fun _ => rfl)
      exact ho.trans (calm_finishInval t.ctx (ho.sound hs))
    · exact .refl m

theorem calm_freeCore (hs : sound m) : Calm m (m.freeCore g) := by
  have hd := calm_drainStores g hs
  exact (hd.trans (calm_ackCore g (hd.sound hs))).trans (.onCore _ g fun _ => rfl)

end calm

/-! ## Leaving a core (R44, R172, R212) -/

section leave
variable (m : Mach) (g k : Fin 256)

/-- What is done before core g is idle. -/
theorem stays_before_free : Stays m ((m.drainStores g).ackCore g) := (stays_drainStores m g).trans (stays_ackCore _ g)

/-- A core that its task has left. -/
def vacant (m : Mach) (k : Fin 256) : Prop := (m.core k).task = none ∧ (m.core k).halt = none ∧ (m.core k).req = false

theorem vacant_freeCore : vacant (m.freeCore g) g := by
  rw [vacant, Mach.freeCore, onCore_core]
  exact ⟨rfl, rfl, rfl⟩

theorem vacant_freeCore_of_vacant (h : vacant m k) : vacant (m.freeCore g) k := by
  obtain ⟨ht, hh, hr⟩ := h
  have hst := stays_before_free m g
  rw [vacant, Mach.freeCore, onCore_core_eq]
  split
  · exact ⟨rfl, rfl, rfl⟩
  · exact ⟨(hst.task k).trans ht, (hst.halt k ht).trans hh, (hst.req k).trans hr⟩

/-- A core that its task has left by retiring: none of its commands holds an entry of its command queue. -/
def retiredFrom (m : Mach) (k : Fin 256) : Prop :=
  (m.core k).task = none ∧ (m.core k).cq = 0 ∧ ∀ o ∈ m.ops, o.core = k → o.entry = false

/-- The entries of core g's command queue are free. -/
def entriesFreed (g : Fin 256) (ops : List Op) : List Op := ops.map fun o => if o.core = g then { o with entry := false } else o

theorem entriesFreed_core {ops : List Op} {o : Op} (h : o ∈ entriesFreed g ops) (hc : o.core = g) : o.entry = false := by
  obtain ⟨p, -, rfl⟩ := List.mem_map.mp h
  split
  · rfl
  · next hp => rw [if_neg hp] at hc; exact absurd hc hp

theorem entriesFreed_keeps {ops : List Op} (hk : ∀ o ∈ ops, o.core = k → o.entry = false) (o : Op) (h : o ∈ entriesFreed g ops) :
    o.core = k → o.entry = false := by
  obtain ⟨p, hp, rfl⟩ := List.mem_map.mp h
  split
  · exact fun _ => rfl
  · exact hk p hp

theorem retireCore_eq : m.retireCore g =
    { m.freeCore g with ops := entriesFreed g (m.freeCore g).ops }.onCore g fun c => { c with cq := 0 } := by
  rw [Mach.retireCore, entriesFreed]

theorem retireCore_ops : (m.retireCore g).ops = entriesFreed g (m.freeCore g).ops := by rw [retireCore_eq, onCore_ops]

theorem retireCore_core : (m.retireCore g).core k =
    if k = g then { (m.freeCore g).core k with cq := 0 } else (m.freeCore g).core k := by
  rw [retireCore_eq, onCore_core_eq, Mach.core, Mach.core]

theorem retireCore_task : ((m.retireCore g).core k).task = ((m.freeCore g).core k).task := by
  rw [retireCore_core]
  split <;> dsimp only

theorem retiredFrom_retireCore : retiredFrom (m.retireCore g) g := by
  obtain ⟨ht, -, -⟩ := vacant_freeCore m g
  refine ⟨?_, ?_, fun o ho hc => entriesFreed_core g (by rwa [retireCore_ops] at ho) hc⟩
  · rw [retireCore_task, ht]
  · rw [retireCore_core, if_pos rfl]

theorem retiredFrom_keeps (h : retiredFrom m k) : retiredFrom (m.retireCore g) k := by
  by_cases hk : k = g
  · rw [hk]
    exact retiredFrom_retireCore m g
  obtain ⟨ht, hc, ho⟩ := h
  have hst := stays_before_free m g
  have hcore : (m.retireCore g).core k = ((m.drainStores g).ackCore g).core k := by
    rw [retireCore_core, if_neg hk, Mach.freeCore, onCore_core_ne _ _ _ hk]
  have hops : (m.freeCore g).ops = ((m.drainStores g).ackCore g).ops := onCore_ops ..
  have hfree : ∀ o ∈ (m.freeCore g).ops, o.core = k → o.entry = false := fun o hm => ho o (hst.ops o (hops ▸ hm))
  refine ⟨?_, ?_, fun o hm => entriesFreed_keeps g k hfree o (by rwa [retireCore_ops] at hm)⟩
  · rw [hcore, hst.task, ht]
  · rw [hcore, hst.cq, hc]

theorem calm_retireCore {m : Mach} (hs : sound m) : Calm m (m.retireCore g) := by
  have ho (m : Mach) (ops : List Op) : Calm m { m with ops := ops } := .of_eq rfl rfl
  rw [retireCore_eq]
  exact (calm_freeCore g hs).trans ((ho _ _).trans (.onCore _ g fun _ => rfl))

end leave

/-! ## A task that retires (R44, R218) -/

section retire
variable {s : State} {g : Fin 256} {t : CoreTask}

theorem execTaskRetire_of_task (hb : s.boot.state = 2) (ht : (s.m.core g).task = some t) (hr : t.running = true) :
    ((∃ k ∈ t.members, (s.m.core k).halt ≠ none ∨ ∃ e, ((s.m.core k).e e).ended = false) → exec (.taskRetire g) s = .next s) ∧
    ((∀ k ∈ t.members, (s.m.core k).halt = none ∧ ∀ e, ((s.m.core k).e e).ended = true) →
      (∀ k, t.members.find? (fun k => (s.m.core k).leftovers) = some k → exec (.taskRetire g) s = .next (after s
        (s.m.takeTrap k .sc .illegal 0 (BitVec.ofNat 64 (leVal ((s.m.fetch t ((s.m.core k).e .sc).pc.toNat).take 6)))))) ∧
      ((∀ k ∈ t.members, (s.m.core k).leftovers = false) → ∃ m1 : Mach,
        (∀ k ∈ t.members, (m1.core k).task = none ∧ (m1.core k).cq = 0 ∧ ∀ o ∈ m1.ops, o.core = k → o.entry = false) ∧
        (sound s.m → ∀ d, (m1.die d).recs = (s.m.die d).recs) ∧
        (m1.getRec (dieOf g) t.recId = none → exec (.taskRetire g) s = .next (after s m1)) ∧
        ∀ r, m1.getRec (dieOf g) t.recId = some r → exec (.taskRetire g) s = .next (after s (m1.retireRec (dieOf g) r)))) := by
  have hdone : t.members.all (fun k => (s.m.core k).allEnded && (s.m.core k).halt.isNone) = true ↔
      ∀ k ∈ t.members, (s.m.core k).halt = none ∧ ∀ e, ((s.m.core k).e e).ended = true := by
    simp [allEnded_iff, and_comm]
  rw [exec, execTaskRetire, ready_of_ready hb]
  simp only [ht, hr, Bool.not_true, Bool.false_or]
  refine ⟨fun ⟨k, hk, hx⟩ => ?_, fun hall => ⟨fun k hk => ?_, fun hnone => ?_⟩⟩
  · rw [if_pos]
    rw [Bool.not_eq_true', ← Bool.not_eq_true, hdone]
    intro h
    obtain ⟨hh, he⟩ := h k hk
    obtain hx | ⟨e, hx⟩ := hx
    · exact hx hh
    · rw [he e] at hx
      cases hx
  · rw [hdone.mpr hall]
    simp only [Bool.not_true, Bool.false_eq_true, if_false, hk, after]
  · have hfind : t.members.find? (fun k => (s.m.core k).leftovers) = none :=
      List.find?_eq_none.mpr fun k hk => by rw [hnone k hk]; exact Bool.false_ne_true
    rw [hdone.mpr hall]
    simp only [Bool.not_true, Bool.false_eq_true, if_false, hfind]
    refine ⟨t.members.foldl Mach.retireCore s.m, ?_, fun hs => ?_, fun h => ?_, fun r h => ?_⟩
    · exact foldl_each (P := fun k m => retiredFrom m k) (fun m k => retiredFrom_retireCore m k)
        (fun m k k' h => retiredFrom_keeps m k' k h) _ _
    · exact (Calm.foldl (fun m k hs => calm_retireCore k hs) _ hs).recs
    · rw [h, after]
    · rw [h, after]

end retire

end Sys2Proof.Proofs

namespace Sys2Proof.Proofs
open Sys2Proof Sys2Proof.Machine Sys2Proof.Claims

/-! ## A task that is saved (R212, R226, R234) -/

/-- A trap waits for its entry in the queue of its context. -/
def trapKept (c : Fin 64) (d : Fin 4) (k : Nat) (info : Option TrapInfo) (m : Mach) : Mach :=
  match info with
  | some i => m.onCtx c fun x => { x with pendTraps := x.pendTraps ++ [⟨d, k, i⟩] }
  | none => m

section trapKept
variable (c : Fin 64) (d : Fin 4) (k : Nat) (info : Option TrapInfo) (m : Mach)

theorem trapKept_cores : (trapKept c d k info m).cores = m.cores := by cases info <;> rfl
theorem trapKept_dies : (trapKept c d k info m).dies = m.dies := by cases info <;> rfl

theorem trapKept_pendTraps {i : TrapInfo} (h : info = some i) :
    ∃ p ∈ ((trapKept c d k info m).ctx c).pendTraps, p.recId = k ∧ p.info = i := by
  subst h
  rw [trapKept, onCtx_ctx]
  exact ⟨⟨d, k, i⟩, by simp, rfl, rfl⟩

end trapKept

section save
variable {s : State} {g : Fin 256} {t : CoreTask}

/-- The machine once the accesses at the members' ports are performed, and what the save's reads of it answer. -/
def storedAll (m : Mach) (t : CoreTask) : Mach := t.members.foldl (fun m k => (m.performStore k).drainStores k) m

/-- The machine once the members' slots are written. -/
def slotsWritten (addr : Option (BitVec 48)) (t : CoreTask) (n : Nat) (m : Mach) : Mach :=
  t.members.foldl (fun m k => m.saveSlot t.ctx k n ((m.core k).liveMask n) addr) m

/-- What the record of a task saved on core g keeps of the save. -/
def recSaved (before : Mach) (t : CoreTask) (n order : Nat) (priv : List Priv) (r : Rec) : Rec :=
  { r with reason := n, order := order, priv := priv, tseq := none,
           passOver := t.members.any fun k => (before.core k).halt = some .yield,
           past := (before.haltInfo t).bind fun i => if i.passable then some i.rank else none }

/-- The machine with the record of a saved task. -/
def recordKept (before : Mach) (g : Fin 256) (t : CoreTask) (n : Nat) (priv : List Priv) (left : Mach) : Mach :=
  trapKept t.ctx (dieOf g) t.recId (before.haltInfo t)
    (({ left with nextId := left.nextId + 1 }).onRec (dieOf g) t.recId (recSaved before t n left.nextId priv))

theorem saveTask_of_lost {n : Nat} (h : ((storedAll s.m t).saveReadsAll t.ctx n t.members).2 = false) :
    s.m.saveTask g t n = ((storedAll s.m t).saveReadsAll t.ctx n t.members).1 := by
  unfold Mach.saveTask
  exact if_pos (by rw [Bool.not_eq_true']; exact h)

theorem saveTask_of_read {n : Nat} (h : ((storedAll s.m t).saveReadsAll t.ctx n t.members).2 = true) :
    ∃ priv, s.m.saveTask g t n = ((recordKept s.m g t n priv (t.members.foldl Mach.freeCore
      (slotsWritten ((s.m.getRec (dieOf g) t.recId).bind (·.addr)) t n
        ((storedAll s.m t).saveReadsAll t.ctx n t.members).1))).setState (dieOf g) t.recId .saved).scan (dieOf g) := by
  refine ⟨t.members.map fun k => privOf ((((storedAll s.m t).saveReadsAll t.ctx n t.members).1).core k), ?_⟩
  have hg : ¬ (!((storedAll s.m t).saveReadsAll t.ctx n t.members).2) = true := by rw [h]; exact Bool.false_ne_true
  unfold Mach.saveTask
  refine (if_neg hg).trans ?_
  unfold recordKept slotsWritten storedAll recSaved trapKept
  cases s.m.haltInfo t with
  | none => dsimp only
  | some i => dsimp only

section recordKept
variable (before : Mach) (n : Nat) (priv : List Priv) (left : Mach)

theorem recordKept_cores : (recordKept before g t n priv left).cores = left.cores := by
  rw [recordKept, trapKept_cores, onRec_cores]

theorem getRec_recordKept {r : Rec} (h : left.getRec (dieOf g) t.recId = some r) :
    (recordKept before g t n priv left).getRec (dieOf g) t.recId = some (recSaved before t n left.nextId priv r) := by
  rw [recordKept, getRec_of_dies (trapKept_dies ..)]
  exact getRec_onRec (fun _ => rfl) h

end recordKept

theorem foldl_freeCore_vacant (l : List (Fin 256)) (m : Mach) : ∀ k ∈ l, vacant (l.foldl Mach.freeCore m) k :=
  foldl_each (P := fun k m => vacant m k) vacant_freeCore (fun m k k' h => vacant_freeCore_of_vacant m k' k h) l m

/-- A task that has stopped, and whose repetitions and commands have ended, is saved. -/
theorem execTaskSave_of_stopped (hb : s.boot.state = 2) (ht : (s.m.core g).task = some t) {n : Nat}
    (hn : s.m.saveReason t = some n) (ho : s.m.openCommands t = false) (hr : s.m.inRepetition t = false) :
    exec (.taskSave g) s = .next (after s (s.m.saveTask g t n)) := by
  rw [exec, execTaskSave, ready_of_ready hb, ht]
  simp only [hn, ho, hr, Bool.or_self, Bool.false_eq_true, if_false, after]

theorem execTaskSave_of_waiting (hb : s.boot.state = 2) (ht : (s.m.core g).task = some t)
    (h : s.m.saveReason t = none ∨ s.m.openCommands t = true ∨ s.m.inRepetition t = true) : exec (.taskSave g) s = .next s := by
  rw [exec, execTaskSave, ready_of_ready hb, ht]
  cases hn : s.m.saveReason t with
  | none => simp only [hn]
  | some n =>
    have : (s.m.openCommands t || s.m.inRepetition t) = true := by simpa [hn] using h
    simp only [hn, this, if_true]

theorem execTaskSave_of_task (hb : s.boot.state = 2) (ht : (s.m.core g).task = some t) :
    (s.m.saveReason t = none → exec (.taskSave g) s = .next s) ∧
    ∀ n, s.m.saveReason t = some n →
      (s.m.openCommands t = true ∨ s.m.inRepetition t = true → exec (.taskSave g) s = .next s) ∧
      (s.m.openCommands t = false → s.m.inRepetition t = false →
        let stored := t.members.foldl (fun m k => (m.performStore k).drainStores k) s.m
        let read := stored.saveReadsAll t.ctx n t.members
        let written := t.members.foldl (fun m k =>
          m.saveSlot t.ctx k n ((m.core k).liveMask n) ((s.m.getRec (dieOf g) t.recId).bind (·.addr))) read.1
        let left := t.members.foldl Mach.freeCore written
        (read.2 = false → exec (.taskSave g) s = .next (after s read.1)) ∧
        (read.2 = true → ∃ m' : Mach, exec (.taskSave g) s = .next (after s ((m'.setState (dieOf g) t.recId .saved).scan (dieOf g))) ∧ m'.cores = left.cores ∧
          (∀ k ∈ t.members, (m'.core k).task = none ∧ (m'.core k).halt = none ∧ (m'.core k).req = false) ∧
          (∀ r, left.getRec (dieOf g) t.recId = some r → ∃ q, m'.getRec (dieOf g) t.recId = some q ∧ q.reason = n ∧ q.cores = r.cores ∧
            (q.passOver = true ↔ ∃ k ∈ t.members, (s.m.core k).halt = some .yield)) ∧
          ∀ i, s.m.haltInfo t = some i → ∃ p ∈ (m'.ctx t.ctx).pendTraps, p.recId = t.recId ∧ p.info = i)) := by
  refine ⟨fun h => execTaskSave_of_waiting hb ht (.inl h), fun n hn => ⟨fun h => execTaskSave_of_waiting hb ht (.inr h),
    fun ho hr => ?_⟩⟩
  intro stored read written left
  have he := execTaskSave_of_stopped hb ht hn ho hr
  refine ⟨fun hread => by rw [he, saveTask_of_lost hread]; rfl, fun hread => ?_⟩
  obtain ⟨priv, hs⟩ := saveTask_of_read (g := g) hread
  refine ⟨recordKept s.m g t n priv left, by rw [he, hs]; rfl, recordKept_cores .., fun k hk => ?_, fun r hleft => ?_, fun i hi => ?_⟩
  · have := foldl_freeCore_vacant t.members written k hk
    rwa [vacant, Mach.core, ← recordKept_cores (g := g) (t := t) s.m n priv] at this
  · refine ⟨_, getRec_recordKept _ _ _ _ hleft, rfl, rfl, ?_⟩
    rw [recSaved, List.any_eq_true]
    simp only [decide_eq_true_eq]
  · exact trapKept_pendTraps _ _ _ _ _ hi

end save

end Sys2Proof.Proofs

namespace Sys2Proof.Proofs
open Sys2Proof Sys2Proof.Machine Sys2Proof.Claims

/-! ## Something done to each member of a task (R43; log entry 81) -/

/-- A step for each of several cores, that touches its own core alone: the others stand, and each gets its own. -/
theorem foldl_members {P : Mach → Prop} {R : Fin 256 → Core → Mach → Prop} {f : Mach → Fin 256 → Mach}
    (hinv : ∀ m k, P m → P (f m k)) (hne : ∀ m k h, h ≠ k → (f m k).core h = m.core h)
    (hR : ∀ m k, P m → R k (m.core k) (f m k)) (hkeep : ∀ m k h c, h ≠ k → R h c m → R h c (f m k))
    (l : List (Fin 256)) (hl : l.Nodup) (m : Mach) (hm : P m) :
    (∀ h ∉ l, (l.foldl f m).core h = m.core h) ∧ ∀ k ∈ l, R k (m.core k) (l.foldl f m) := by
  have hlater (h : Fin 256) (c : Core) (l : List (Fin 256)) (m : Mach) (hh : h ∉ l) (hr : R h c m) : R h c (l.foldl f m) := by
    induction l generalizing m with
    | nil => exact hr
    | cons k l ih =>
      obtain ⟨hk, hl⟩ := not_or.mp (List.mem_cons.not.mp hh)
      exact ih _ hl (hkeep m k h c hk hr)
  induction l generalizing m with
  | nil => exact ⟨fun _ _ => rfl, nofun⟩
  | cons k l ih =>
    obtain ⟨hk, hl⟩ := List.nodup_cons.mp hl
    obtain ⟨hout, hin⟩ := ih hl (f m k) (hinv m k hm)
    refine ⟨fun h hh => ?_, fun h hh => ?_⟩
    · obtain ⟨hh, hhl⟩ := not_or.mp (List.mem_cons.not.mp hh)
      exact (hout h hhl).trans (hne m k h hh)
    · obtain rfl | hh := List.mem_cons.mp hh
      · exact hlater _ _ l _ hk (hR m _ hm)
      · have hne' : h ≠ k := fun e => hk (e ▸ hh)
        rw [← hne m k h hne']
        exact hin h hh

/-! ## Reads for a context leave all but what counts and reports them (R365, R366) -/

section noteReads
variable (m : Mach) (c : Fin 64) (ps : List (Nat × Nat))

theorem access_devByte (a n : Nat) (sec : Bool) (x : Nat) : (m.access c a n).2.devByte sec x = m.devByte sec x := by
  obtain ⟨_, _, _, _, _, _, _, h⟩ := access_frame m c a n
  rw [h]
  rfl

theorem noteReads_keeps {α : Type} (F : Mach → α) (h : ∀ m a n, F (m.access c a n).2 = F m) : F (m.noteReads c ps) = F m := by
  unfold Mach.noteReads
  refine foldl_keeps F (fun m p => ?_) ps m
  have : (m.retried p.1 p.2).noteWorld c p.1 p.2 = (m.access c p.1 p.2).2 := rfl
  rw [this, h]

@[simp] theorem noteReads_cores : (m.noteReads c ps).cores = m.cores := noteReads_keeps m c ps Mach.cores fun m a n => access_cores m a n c
@[simp] theorem noteReads_ctxs : (m.noteReads c ps).ctxs = m.ctxs := noteReads_keeps m c ps Mach.ctxs fun m a n => access_ctxs m a n c

theorem noteReads_devByte (sec : Bool) (x : Nat) : (m.noteReads c ps).devByte sec x = m.devByte sec x :=
  noteReads_keeps m c ps (fun m => m.devByte sec x) fun m a n => access_devByte m c a n sec x

end noteReads

/-! ## The members of a placed task run (R43, R119) -/

/-- The words of a task's text descriptor. -/
def descWords (m : Mach) (t : CoreTask) : List Word := wordsOf 8 (m.devRead (m.ctx t.ctx).secure (textDesc t.text) 64)

/-- What is done of one member of a placed task. -/
def runOne (set : Mach → Fin 256 → CoreTask → Mach) (ws : List Word) (m : Mach) (k : Fin 256) : Mach :=
  match (m.core k).task with
  | some x => set m k (x.withDesc ws)
  | none => m

theorem runOne_of_task {set : Mach → Fin 256 → CoreTask → Mach} {ws : List Word} {m : Mach} {k : Fin 256} {x : CoreTask}
    (h : (m.core k).task = some x) : runOne set ws m k = set m k (x.withDesc ws) := by rw [runOne, h]

/-- The machine in which every member runs. -/
def allRun (set : Mach → Fin 256 → CoreTask → Mach) (m : Mach) (t : CoreTask) : Mach :=
  t.members.foldl (runOne set (descWords m t)) (m.access t.ctx (textDesc t.text) 64).2

section runMembers
variable {m : Mach} {g : Fin 256} {t : CoreTask} {set : Mach → Fin 256 → CoreTask → Mach}

theorem runMembers_of_good (h : descOk (descWords m t) t.entry = true) : m.runMembers g t set = allRun set m t := if_pos h

theorem runMembers_of_bad (h : ¬ descOk (descWords m t) t.entry = true) : m.runMembers g t set = (allRun set m t).badText g t :=
  if_neg h

/-- A task whose text fails its check has trapped ILLEGAL at its entry, on every member (R119). -/
theorem badText_halt {x : CoreTask} (hx : (m.core g).task = some x) (hm : x.members = t.members) {k : Fin 256} (hk : k ∈ t.members) :
    ∃ f, ((m.badText g t).core k).halt = some (.trap f) ∧ f.cause = .illegal ∧ f.padr = t.entry ∧ f.code = 0 :=
  ⟨_, haltTask_halt hx _ k (hm ▸ hk), rfl, rfl, rfl⟩

end runMembers

/-! ## A fresh record (R43, R69) -/

/-- A core that a fresh task x takes at clock now, while an invalidation of its context runs or not. -/
def startedCore (x : CoreTask) (busy : Bool) (now : Word) (c : Core) : Core :=
  { c.start x with owes := if busy then some now else none }

section startOn
variable (m : Mach) (k h : Fin 256) (t : CoreTask)

/-- The acknowledgement of core k is outstanding. -/
def owingAck (k : Fin 256) (x : Ctx) : Ctx := { x with owed := coreCode k :: x.owed }

theorem startOn_of_busy (hb : (m.ctx t.ctx).busy = true) :
    m.startOn k t = (m.onCore k (startedCore t true (m.clock k))).onCtx t.ctx (owingAck k) := by
  refine (if_pos hb).trans ?_
  rw [onCore_onCore]
  rfl

theorem startOn_of_idle (hb : (m.ctx t.ctx).busy = false) : m.startOn k t = m.onCore k (startedCore t false (m.clock k)) :=
  if_neg (by rw [onCore_ctx, hb]; exact Bool.false_ne_true)

theorem startOn_core : (m.startOn k t).core h =
    if h = k then startedCore t (m.ctx t.ctx).busy (m.clock k) (m.core h) else m.core h := by
  cases hb : (m.ctx t.ctx).busy with
  | false => rw [startOn_of_idle _ _ _ hb, onCore_core_eq]
  | true => rw [startOn_of_busy _ _ _ hb, Mach.core, onCtx_cores, ← Mach.core, onCore_core_eq]

theorem startOn_dies : (m.startOn k t).dies = m.dies := by
  cases hb : (m.ctx t.ctx).busy with
  | false => rw [startOn_of_idle _ _ _ hb, onCore_dies]
  | true => rw [startOn_of_busy _ _ _ hb, onCtx_dies, onCore_dies]

/-- What an outstanding acknowledgement keeps of every context is kept. -/
theorem startOn_ctx (c : Fin 64) : (m.startOn k t).ctx c = m.ctx c ∨ (m.startOn k t).ctx c = owingAck k (m.ctx c) := by
  cases hb : (m.ctx t.ctx).busy with
  | false => exact .inl (by rw [startOn_of_idle _ _ _ hb, onCore_ctx])
  | true =>
    rw [startOn_of_busy _ _ _ hb]
    by_cases hc : c = t.ctx
    · exact .inr (by rw [hc, onCtx_ctx, onCore_ctx])
    · exact .inl (by rw [onCtx_ctx_ne _ _ _ hc, onCore_ctx])

theorem startOn_busy (c : Fin 64) : ((m.startOn k t).ctx c).busy = (m.ctx c).busy := by
  obtain h | h := startOn_ctx m k t c <;> rw [h]
  rfl

theorem startOn_owes (hb : (m.ctx t.ctx).busy = true) : coreCode k ∈ ((m.startOn k t).ctx t.ctx).owed := by
  rw [startOn_of_busy _ _ _ hb, onCtx_ctx]
  exact List.mem_cons_self

theorem startOn_owed (c : Fin 64) {x : BitVec 16} (hx : x ∈ (m.ctx c).owed) : x ∈ ((m.startOn k t).ctx c).owed := by
  obtain h | h := startOn_ctx m k t c <;> rw [h]
  · exact hx
  · exact List.mem_cons_of_mem _ hx

end startOn

/-- What the start of a task makes of a member whose core was c, in a machine whose invalidations and clocks are those
of m0. -/
def startedIn (m0 : Mach) (ws : List Word) (k : Fin 256) (c : Core) (m : Mach) : Prop :=
  ∀ x, c.task = some x → m.core k = startedCore (x.withDesc ws) (m0.ctx x.ctx).busy (m0.clock k) c ∧
    ((m0.ctx x.ctx).busy = true → coreCode k ∈ (m.ctx x.ctx).owed)

/-- The clocks, and which invalidations run, are those of m0. -/
def sameClocks (m0 m : Mach) : Prop := m.dies = m0.dies ∧ ∀ c, (m.ctx c).busy = (m0.ctx c).busy

section runOne
variable (m0 m : Mach) (ws : List Word) (k h : Fin 256)

theorem runOne_startOn_clocks (hm : sameClocks m0 m) : sameClocks m0 (runOne Mach.startOn ws m k) := by
  obtain ⟨hd, hb⟩ := hm
  unfold runOne
  split
  · exact ⟨(startOn_dies ..).trans hd, fun c => (startOn_busy ..).trans (hb c)⟩
  · exact ⟨hd, hb⟩

theorem runOne_startOn_other (hh : h ≠ k) : (runOne Mach.startOn ws m k).core h = m.core h := by
  unfold runOne
  split
  · rw [startOn_core, if_neg hh]
  · rfl

theorem runOne_startOn_self (hm : sameClocks m0 m) : startedIn m0 ws k (m.core k) (runOne Mach.startOn ws m k) := by
  obtain ⟨hd, hb⟩ := hm
  intro x hx
  have hclock : m.clock k = m0.clock k := by rw [Mach.clock, Mach.die, hd, Mach.clock, Mach.die]
  have hctx : (x.withDesc ws).ctx = x.ctx := rfl
  rw [runOne_of_task hx, startOn_core, if_pos rfl, hclock, hctx, hb]
  exact ⟨rfl, fun hbusy => startOn_owes m k (x.withDesc ws) ((hb _).trans hbusy)⟩

theorem runOne_startOn_keeps {c : Core} (hh : h ≠ k) (hr : startedIn m0 ws h c m) :
    startedIn m0 ws h c (runOne Mach.startOn ws m k) := by
  intro x hx
  obtain ⟨hc, ho⟩ := hr x hx
  rw [runOne_startOn_other m ws k h hh]
  refine ⟨hc, fun hbusy => ?_⟩
  unfold runOne
  split
  · exact startOn_owed _ _ _ _ (ho hbusy)
  · exact ho hbusy

end runOne

/-- What the reading of a text descriptor leaves. -/
theorem access_core (m : Mach) (c : Fin 64) (a n : Nat) (k : Fin 256) : (m.access c a n).2.core k = m.core k := by
  rw [Mach.core, access_cores, Mach.core]

theorem allRun_starts (m0 : Mach) (t : CoreTask) (hl : t.members.Nodup) :
    (∀ h ∉ t.members, (allRun Mach.startOn m0 t).core h = m0.core h) ∧
    ∀ k ∈ t.members, startedIn m0 (descWords m0 t) k (m0.core k) (allRun Mach.startOn m0 t) := by
  have h := foldl_members (runOne_startOn_clocks m0 · (descWords m0 t)) (runOne_startOn_other · (descWords m0 t))
    (runOne_startOn_self m0 · (descWords m0 t)) (fun m k h c => runOne_startOn_keeps m0 m (descWords m0 t) k h) t.members hl
    (m0.access t.ctx (textDesc t.text) 64).2 ⟨access_dies .., fun c => by rw [Mach.ctx, access_ctxs, Mach.ctx]⟩
  simp only [access_core] at h
  exact h

section started
variable (x : CoreTask) (busy : Bool) (now : Word) (c : Core) (e : Engine)

theorem startedCore_task : (startedCore x busy now c).task = some x := rfl

theorem startedCore_e : (startedCore x busy now c).e e = EngState.start x.entry := by
  simp [Core.e, startedCore, Core.start]

theorem startedCore_tokens (p q : Engine) : (startedCore x busy now c).tokens p q = 0 := by
  simp [Core.tokens, startedCore, Core.start]

theorem startedCore_s (n : Fin 32) : (startedCore x busy now c).s[n.val] = if n = 1 then x.frame.setWidth 64 else 0 := by
  by_cases h : n = 1
  · subst h
    rw [if_pos rfl]
    exact put_same ..
  · rw [if_neg h]
    have : (1 : Fin 32).val ≠ n.val := fun e => h (Fin.ext e.symm)
    exact (put_other _ 1 _ n.isLt this).trans (by simp)

end started

section start
variable {s : State} {g : Fin 256} {t : CoreTask} {r : Rec}

theorem placed_of_placedOn (h : placedOn s.m g t r) : s.m.placed g = some (t, r) := by
  obtain ⟨ht, hr, hh, hrec⟩ := h
  simp only [Mach.placed, ht, hr, hh, Option.isSome_none, Bool.or_self, Bool.false_eq_true, if_false, hrec, Option.map_some]

theorem execTaskStart_of_placed (hb : s.boot.state = 2) (h : placedOn s.m g t r) :
    exec (.taskStart g) s = .next (after s (if r.reason = 0 then s.m.runMembers g t Mach.startOn else s.m)) := by
  rw [exec, execTaskStart, ready_of_ready hb, placed_of_placedOn h]
  rfl

theorem execTaskResume_of_placed (hb : s.boot.state = 2) (h : placedOn s.m g t r) :
    exec (.taskResume g) s = .next (after s (if r.reason = 0 then s.m else s.m.runMembers g t (Mach.resumeOn r))) := by
  rw [exec, execTaskResume, ready_of_ready hb, placed_of_placedOn h]
  rfl

end start

end Sys2Proof.Proofs

namespace Sys2Proof.Proofs
open Sys2Proof Sys2Proof.Machine Sys2Proof.Claims

/-! ## Words of a slot (R5, R230) -/

section words
variable (x : Nat)

theorem leVal_lt (bs : List Byte) : leVal bs < 256 ^ bs.length := by
  induction bs with
  | nil => simp [leVal]
  | cons b bs ih =>
    have hb := b.isLt
    rw [leVal, List.length_cons, Nat.pow_succ]
    omega

theorem slotBytes_length (b : Nat → Byte) (o n : Nat) : (slotBytes b o n).length = n := by simp [slotBytes]

theorem slotNum_lt (b : Nat → Byte) (o n : Nat) : slotNum b o n < 256 ^ n := by
  have := leVal_lt (slotBytes b o n)
  rwa [slotBytes_length] at this

theorem extract_ofNat {lo n : Nat} (h : lo + n ≤ 64) : (BitVec.ofNat 64 x).extractLsb' lo n = BitVec.ofNat n (x / 2 ^ lo) := by
  refine BitVec.eq_of_getLsbD_eq fun i hi => ?_
  rw [BitVec.getLsbD_extractLsb', BitVec.getLsbD_ofNat, BitVec.getLsbD_ofNat, Nat.testBit_div_two_pow]
  have : lo + i < 64 := by omega
  simp [hi, this, Nat.add_comm]

theorem extract_low {n : Nat} (h : n ≤ 64) : (BitVec.ofNat 64 x).extractLsb' 0 n = BitVec.ofNat n x := by
  rw [extract_ofNat _ (by omega), Nat.pow_zero, Nat.div_one]

theorem wb_ofNat {k : Nat} (h : k < 64) : wb (BitVec.ofNat 64 x) k = decide (has x k) := by
  rw [wb, BitVec.getLsbD_ofNat, decide_eq_true h, Bool.true_and, Nat.testBit_eq_decide_div_mod_eq]

theorem wb_ofNat_iff {k : Nat} (h : k < 64) : wb (BitVec.ofNat 64 x) k = true ↔ has x k := by
  rw [wb_ofNat _ h, decide_eq_true_eq]

theorem wb_ofNat_not {k : Nat} (h : k < 64) (hx : ¬ has x k) : wb (BitVec.ofNat 64 x) k = false := by
  rw [wb_ofNat _ h, decide_eq_false hx]

theorem wb_ofNat_of {k : Nat} (h : k < 64) (hx : has x k) : wb (BitVec.ofNat 64 x) k = true := (wb_ofNat_iff _ h).mpr hx

end words

/-! ## The small files of a restored core (R170, R230) -/

/-- A core restored for task x. -/
def restored (b : Nat → Byte) (p : Priv) (x : CoreTask) (c : Core) : Core := { restoreCore (slotBytes b) p c with task := some x }

section restored
variable (b : Nat → Byte) (p : Priv) (x : CoreTask) (c : Core)

theorem rd_w (a : Nat) : SlotRead.w (slotBytes b) a = BitVec.ofNat 64 (slotNum b a 8) := rfl

theorem restored_e (e : Engine) : (restored b p x c).e e = readEng (slotBytes b) p e := by
  have : engines.getD (engIx e).val .sc = e := by cases e <;> rfl
  simp only [Core.e, restored, restoreCore, Vector.getElem_ofFn, this]

theorem restored_walk (e : Engine) : ((restored b p x c).e e).walk =
    if slotNum b 0 1 = 1 then 0 else BitVec.ofNat 32 (slotNum b (0x80 + 8 * (engIx e).val) 4) := by
  rw [restored_e]
  have hw : (SlotRead.w (slotBytes b) (0x80 + 8 * engNo e)).extractLsb' 0 32 =
      BitVec.ofNat 32 (slotNum b (0x80 + 8 * (engIx e).val) 4) := by
    rw [rd_w, extract_low _ (by omega), engNo]
    refine BitVec.eq_of_toNat_eq ?_
    have hsplit (a : Nat) : slotNum b a 8 = slotNum b a 4 + 2 ^ 32 * slotNum b (a + 4) 4 := by
      simp only [slotNum, slotBytes, List.range_succ_eq_map, List.range_zero, List.map_nil, List.map_cons, leVal]
      simp only [Nat.add_assoc, Nat.reduceAdd, Nat.zero_add, Nat.succ_eq_add_one]
      omega
    simp only [BitVec.toNat_ofNat, hsplit]
    omega
  simp only [readEng, hw]
  rfl

theorem restored_pos (e : Engine) : let y := slotNum b (0x40 + 8 * (engIx e).val) 8
    ((restored b p x c).e e).pc = BitVec.ofNat 22 y ∧ ((restored b p x c).e e).rep = BitVec.ofNat 6 (y / 2 ^ 22) ∧
    (((restored b p x c).e e).tokp = true ↔ has y 28) ∧ (((restored b p x c).e e).tgt.isSome = true ↔ has y 29) ∧
    ∀ t, ((restored b p x c).e e).tgt = some t → t = BitVec.ofNat 8 (y / 2 ^ 30) := by
  intro y
  have hw : SlotRead.w (slotBytes b) (0x40 + 8 * engNo e) = BitVec.ofNat 64 y := rfl
  rw [restored_e]
  simp only [readEng, hw]
  refine ⟨extract_low _ (by omega), extract_ofNat _ (by omega), wb_ofNat_iff _ (by omega), ?_, fun t ht => ?_⟩
  · rw [← wb_ofNat_iff y (k := 29) (by omega)]
    split <;> simp_all
  · split at ht
    · rw [← Option.some.inj ht, extract_ofNat _ (by omega)]
    · cases ht

end restored

/-- The entries of a list up to the first that fails a test. -/
theorem lt_takeWhile_length {α : Type} (q : α → Bool) (l : List α) (j : Nat) :
    (∀ i, i ≤ j → (l[i]?).any q = true) ↔ j < (l.takeWhile q).length := by
  induction l generalizing j with
  | nil => exact ⟨fun h => absurd (h 0 (Nat.zero_le _)) (by simp), fun h => absurd h (by simp)⟩
  | cons a l ih =>
    rw [List.takeWhile_cons]
    cases ha : q a with
    | false =>
      refine ⟨fun h => ?_, fun h => absurd h (by simp)⟩
      have := h 0 (Nat.zero_le _)
      simp [ha] at this
    | true =>
      rw [if_pos rfl, List.length_cons]
      cases j with
      | zero =>
        refine ⟨fun _ => Nat.succ_pos _, fun _ i hi => ?_⟩
        rw [Nat.le_zero.mp hi]
        simp [ha]
      | succ j =>
        rw [Nat.add_lt_add_iff_right, ← ih j]
        refine ⟨fun h i hi => by simpa using h (i + 1) (by omega), fun h i hi => ?_⟩
        cases i with
        | zero => simp [ha]
        | succ i => simpa using h i (by omega)

theorem getElem?_takeWhile_range {q : Nat → Bool} {n j v : Nat} (h : ((List.range n).takeWhile q)[j]? = some v) : v = j := by
  obtain ⟨hj, -⟩ := List.getElem?_eq_some_iff.mp h
  have hall : (List.range n)[j]? = some v := by
    rw [← List.takeWhile_append_dropWhile (p := q) (l := List.range n), List.getElem?_append_left hj, h]
  obtain ⟨hlt, hv⟩ := List.getElem?_eq_some_iff.mp hall
  rw [← hv, List.getElem_range]

section restored
variable (b : Nat → Byte) (p : Priv) (x : CoreTask) (c : Core)

theorem restored_loops (e : Engine) (j : Nat) (hj : j < 4) :
    ((∀ i, i ≤ j → has (loopNum b e i 1) 32) ↔ j < ((restored b p x c).e e).loops.length) ∧
    ∀ l, ((restored b p x c).e e).loops[j]? = some l → l.first = BitVec.ofNat 22 (loopNum b e j 0) ∧
      l.last = BitVec.ofNat 22 (loopNum b e j 0 / 2 ^ 22) ∧ l.count = BitVec.ofNat 32 (loopNum b e j 1) := by
  have hw (i k : Nat) : SlotRead.w (slotBytes b) (0x200 + 64 * engNo e + 16 * i + 8 * k) = BitVec.ofNat 64 (loopNum b e i k) := rfl
  have hw0 (i : Nat) := hw i 0
  have hw1 (i : Nat) := hw i 1
  simp only [Nat.mul_zero, Nat.add_zero, Nat.mul_one] at hw0 hw1
  rw [restored_e]
  simp only [readEng, readLoops, List.length_map, ← lt_takeWhile_length, hw0, hw1]
  refine ⟨forall_congr' fun i => imp_congr_right fun hi => ?_, fun l hl => ?_⟩
  · have : i < 4 := by omega
    rw [List.getElem?_range this, Option.any_some, wb_ofNat_iff _ (by omega)]
  · rw [List.getElem?_map, Option.map_eq_some_iff] at hl
    obtain ⟨v, hv, rfl⟩ := hl
    rw [getElem?_takeWhile_range hv]
    exact ⟨extract_low _ (by omega), extract_ofNat _ (by omega), extract_low _ (by omega)⟩

theorem slotNum_byte_lt (o : Nat) : slotNum b o 1 < 256 := slotNum_lt b o 1

/-- CTRL is what a restored core holds (R230). -/
theorem ctrlHolds_restored : CtrlHolds b (restored b p x c) where
  engine := restored_pos b p x c
  loops := restored_loops b p x c
  tokens p' q := by
    have h : (restored b p x c).tokens p' q = slotNum b (0xC0 + (tokIx p' q).val) 1 := by
      simp only [Core.tokens, restored, restoreCore, Vector.getElem_ofFn]
      rfl
    have hix : (tokIx p' q).val = 6 * (engIx p').val + (engIx q).val := by
      have := (engIx p').isLt
      have := (engIx q).isLt
      simp only [tokIx, Fin.ofNat]
      omega
    rw [h, hix, Nat.mod_eq_of_lt (slotNum_byte_lt b _), Nat.add_assoc]
  slipw := by
    simp only [restored, restoreCore, rd_w]
    exact extract_low _ (by omega)
  round := by
    simp only [restored, restoreCore, Vector.getElem_ofFn, rd_w]
    exact ⟨extract_low _ (by omega), extract_low _ (by omega), extract_low _ (by omega)⟩
  seed := by
    simp only [restored, restoreCore, Vector.getElem_ofFn, rd_w]
    exact ⟨rfl, rfl, rfl⟩
  btmcfg := by
    simp only [restored, restoreCore, Vector.getElem_ofFn, rd_w]
    exact ⟨wb_ofNat_iff _ (by omega), wb_ofNat_iff _ (by omega)⟩
  outcomes i := by
    have h : (restored b p x c).out[i.val] = (List.range (slotNum b (0x180 + 8 * i.val) 1 % 128)).map fun j =>
        BitVec.ofNat 128 (slotNum b (0x2000 + 0x400 * i.val + 16 * j) 16) := by
      simp only [restored, restoreCore, Vector.getElem_ofFn]
      rfl
    rw [h, List.length_map, List.length_range, Nat.mod_mod]
    refine ⟨rfl, fun j y hj hy => ?_⟩
    rw [List.getElem?_map, Option.map_eq_some_iff] at hy
    obtain ⟨v, hv, rfl⟩ := hy
    obtain ⟨_, rfl⟩ := List.getElem?_eq_some_iff.mp hv
    rw [List.getElem_range]

end restored

end Sys2Proof.Proofs

namespace Sys2Proof.Proofs
open Sys2Proof Sys2Proof.Machine Sys2Proof.Claims

/-! ## The register files, queues and accumulators of a restored core (R121, R170) -/

theorem slotBytes_getD (b : Nat → Byte) (o n k : Nat) (hk : k < n) : (slotBytes b o n).getD k 0 = b (o + k) := by
  simp [slotBytes, List.getD, List.getElem?_range hk]

/-- The accumulator store of the banks below n that the live mask names. -/
def accBanks (b : Nat → Byte) (live : Nat → Bool) (n : Nat) : Memory :=
  (List.range n).foldl (fun x k => if live k then Memory.write x (0x20000 * k) (slotBytes b (0x40000 + 0x20000 * k) 0x20000) else x) []

theorem read1_accBanks (b : Nat → Byte) (live : Nat → Bool) (n k j : Nat) (hj : j < 0x20000) :
    Memory.read1 (accBanks b live n) (0x20000 * k + j) = if k < n ∧ live k = true then b (0x40000 + 0x20000 * k + j) else 0 := by
  induction n with
  | zero => rw [if_neg (by omega)]; rfl
  | succ n ih =>
    have hs : accBanks b live (n + 1) = if live n then
        Memory.write (accBanks b live n) (0x20000 * n) (slotBytes b (0x40000 + 0x20000 * n) 0x20000) else accBanks b live n := by
      rw [accBanks, List.range_succ, List.foldl_append]
      rfl
    rw [hs]
    by_cases hk : k = n
    · subst hk
      cases hl : live k with
      | false =>
        rw [if_neg Bool.false_ne_true, ih, if_neg (by omega), if_neg (by simp)]
      | true =>
        rw [if_pos rfl, read1_write, slotBytes_length, if_pos (by omega), if_pos (by simp), slotBytes_getD _ _ _ _ (by omega)]
        congr 1
        omega
    · have hlt : k < n ↔ k < n + 1 := by omega
      have hkeep : Memory.read1 (if live n then Memory.write (accBanks b live n) (0x20000 * n)
          (slotBytes b (0x40000 + 0x20000 * n) 0x20000) else accBanks b live n) (0x20000 * k + j) =
          Memory.read1 (accBanks b live n) (0x20000 * k + j) := by
        split
        · exact read1_write_outside _ _ _ (by rw [slotBytes_length]; omega)
        · rfl
      simp only [hkeep, ih, hlt]

section restored
variable (b : Nat → Byte) (p : Priv) (x : CoreTask) (c : Core)

/-- A class is live in the restored core where CTRL's mask names it. -/
theorem live_iff {k : Nat} (hk : k < 64) : wb (SlotRead.w (slotBytes b) 8) k = true ↔ has (slotNum b 8 8) k := wb_ofNat_iff _ hk

theorem live_not {k : Nat} (hk : k < 64) (h : ¬ has (slotNum b 8 8) k) : wb (SlotRead.w (slotBytes b) 8) k = false :=
  wb_ofNat_not _ hk h

theorem words_getElem? (a n j : Nat) (y : Word) (h : (SlotRead.words (slotBytes b) a n)[j]? = some y) :
    y = BitVec.ofNat 64 (slotNum b (a + 8 * j) 8) := by
  rw [SlotRead.words, List.getElem?_map, Option.map_eq_some_iff] at h
  obtain ⟨v, hv, rfl⟩ := h
  obtain ⟨_, rfl⟩ := List.getElem?_eq_some_iff.mp hv
  rw [List.getElem_range, rd_w]

theorem tiles_getElem? (a n j : Nat) (y : Tile) (h : (SlotRead.tiles (slotBytes b) a n)[j]? = some y) :
    y = tileOfBytes (slotBytes b (a + 4096 * j) 4096) := by
  rw [SlotRead.tiles, List.getElem?_map, Option.map_eq_some_iff] at h
  obtain ⟨v, hv, rfl⟩ := h
  obtain ⟨_, rfl⟩ := List.getElem?_eq_some_iff.mp hv
  rw [List.getElem_range]

theorem tiles_length (a n : Nat) : (SlotRead.tiles (slotBytes b) a n).length = n := by simp [SlotRead.tiles]
theorem words_length (a n : Nat) : (SlotRead.words (slotBytes b) a n).length = n := by simp [SlotRead.words]

theorem restored_qw (q : Fin 4) : (restored b p x c).qw[q.val] =
    if wb (SlotRead.w (slotBytes b) 8) (20 + q.val) then SlotRead.words (slotBytes b) (0x1800 + 0x80 * q.val) (p.qn[4 + q.val]) else [] := by
  have : p.qn.toList.getD (4 + q.val) 0 = p.qn[4 + q.val] := by rw [List.getD, Vector.getElem?_toList, Vector.getElem?_eq_getElem]; rfl
  simp only [restored, restoreCore, Vector.getElem_ofFn, this]

theorem restored_qt (q : Fin 4) : (restored b p x c).qt[q.val] =
    if wb (SlotRead.w (slotBytes b) 8) (16 + q.val) then
      SlotRead.tiles (slotBytes b) (0x30000 + 0x4000 * q.val) (min p.qn[q.val] 4) ++
        SlotRead.tiles (slotBytes b) (mxAt + 0x10000) (p.qn[q.val] - 4) else [] := by
  have : p.qn.toList.getD q.val 0 = p.qn[q.val] := by rw [List.getD, Vector.getElem?_toList, Vector.getElem?_eq_getElem]; rfl
  simp only [restored, restoreCore, Vector.getElem_ofFn, this]

/-- The first four entries of a tile queue lie in its own place, the others in the last MiB of the slot. -/
theorem restored_qt_getElem? (q : Fin 4) (j : Nat) (y : Tile) (h : (restored b p x c).qt[q.val][j]? = some y) :
    y = tileOfBytes (slotBytes b (if j < 4 then 0x30000 + 0x4000 * q.val + 4096 * j else 0x710000 + 4096 * (j - 4)) 4096) := by
  rw [restored_qt] at h
  split at h
  · rw [List.getElem?_append, tiles_length] at h
    split at h
    · rw [if_pos (by omega)]
      exact tiles_getElem? b _ _ _ _ h
    · by_cases hj : j < 4
      · have : p.qn[q.val] - 4 = 0 := by omega
        rw [this] at h
        cases h
      · have hm : min p.qn[q.val] 4 = 4 := by
          by_contra hne
          have : p.qn[q.val] - 4 = 0 := by omega
          rw [this] at h
          cases h
        rw [if_neg hj]
        rw [hm] at h
        exact tiles_getElem? b _ _ _ _ h
  · cases h

theorem restored_acc : (restored b p x c).acc = accBanks b (fun k => wb (SlotRead.w (slotBytes b) 8) (32 + k)) 16 := rfl

/-- The classes of the live mask are what a restored core holds. -/
theorem filesHold_restored : FilesHold b (slotNum b 8 8) (restored b p x c) where
  scalars h r := by
    simp only [restored, restoreCore, Vector.getElem_ofFn, (live_iff b (by omega)).mpr h, if_true]
    rfl
  patterns h e r := by
    simp only [restored, restoreCore, Vector.getElem_ofFn, (live_iff b (by omega)).mpr h, if_true]
    rfl
  masks h r hr := by
    have hr' : r.val ≠ 0 := fun e => hr (Fin.ext e)
    simp only [restored, restoreCore, Vector.getElem_ofFn, (live_iff b (by omega)).mpr h, Bool.and_true]
    rw [if_pos (by simpa using hr')]
    rfl
  vectors r h := by
    simp only [restored, restoreCore, Vector.getElem_ofFn, (live_iff b (by omega)).mpr h, if_true]
  wide h r := by
    simp only [restored, restoreCore, Vector.getElem_ofFn, (live_iff b (by omega)).mpr h, if_true]
  sums h r := by
    simp only [restored, restoreCore, Vector.getElem_ofFn, (live_iff b (by omega)).mpr h, if_true]
  wordQueues q h j y _ hy := by
    rw [restored_qw, if_pos ((live_iff b (by omega)).mpr h)] at hy
    exact words_getElem? b _ _ _ _ hy
  tileQueues q _ j y hj hy := by
    have := restored_qt_getElem? b p x c q j y hy
    rwa [if_pos hj] at this
  moreTiles _ j y hj _ hy := by
    have := restored_qt_getElem? b p x c 2 j y hy
    rwa [if_neg (by omega)] at this
  accumulators n h j hj := by
    rw [restored_acc, read1_accBanks _ _ _ _ _ hj, if_pos ⟨by omega, (live_iff b (by omega)).mpr h⟩]

end restored

end Sys2Proof.Proofs

namespace Sys2Proof.Proofs
open Sys2Proof Sys2Proof.Machine Sys2Proof.Claims

/-! ## What a slot does not hold reads zero (R121, R170) -/

section restored
variable (b : Nat → Byte) (p : Priv) (x : CoreTask) (c : Core)

theorem blkW_words (a n k : Nat) (hk : k < n) : blkW (SlotRead.words (slotBytes b) a n) k = BitVec.ofNat 64 (slotNum b (a + 8 * k) 8) := by
  have hlen : k < (SlotRead.words (slotBytes b) a n).length := by rwa [words_length]
  rw [blkW, List.getD, List.getElem?_eq_getElem hlen]
  exact words_getElem? b a n k _ (List.getElem?_eq_getElem hlen)

theorem ofFn_zero {α : Type} {n : Nat} {f : Fin n → α} {z : α} (h : ∀ i, f i = z) : Vector.ofFn f = Vector.replicate n z := by
  refine Vector.ext fun i hi => ?_
  rw [Vector.getElem_ofFn, h, Vector.getElem_replicate]

/-- What a core keeps of a saved task beside the slot is back (R226; log entry 11). -/
theorem privHolds_restored : PrivHolds p (slotNum b 8 8) (restored b p x c) where
  queues q := by
    refine ⟨fun h => ?_, fun h => ?_⟩
    · rw [restored_qt, if_pos ((live_iff b (by omega)).mpr h), List.length_append, tiles_length, tiles_length]
      omega
    · rw [restored_qw, if_pos ((live_iff b (by omega)).mpr h), words_length]
  engines e := by
    rw [restored_e]
    exact ⟨rfl, rfl, rfl, rfl⟩
  holds := ⟨rfl, rfl, rfl, rfl, rfl⟩

/-! ## The scratchpad of the image (R157, R169, R170) -/

theorem decodeLines_length (map : List Byte) (n i : Nat) (prev rest : List Byte) (h : i = 0 ∨ prev.length = 64) :
    (decodeLines map n i prev rest).length = 64 * n := by
  induction n generalizing i prev rest with
  | zero => rfl
  | succ n ih =>
    rw [decodeLines]
    dsimp only
    rw [List.length_append]
    have hl (l rest : List Byte) (hl : l.length = 64) : l.length + (decodeLines map n (i + 1) l rest).length = 64 * (n + 1) := by
      rw [ih _ _ _ (.inr hl), hl]
      omega
    refine hl _ _ ?_
    split
    · exact List.length_replicate
    · split
      · simp
      · split
        · simp
        · split
          · exact List.length_replicate
          · exact h.resolve_left ‹_›

theorem zrDecode_length (raw : Bool) (bs : List Byte) : (zrDecode raw bs).length = 4096 := by
  unfold zrDecode
  split
  · rw [List.length_take, List.length_append, List.length_replicate]
    omega
  · rw [decodeLines_length _ _ _ _ _ (.inl rfl)]

/-- The scratchpad of the first n streams of an image, the first of which begins at o, and where the next one begins. -/
def imageSpad (b : Nat → Byte) (o n : Nat) : Memory × Nat :=
  ((List.range n).map (imageDir b)).foldl (fun (x : Memory × Nat) w =>
    (Memory.write x.1 (4096 * fld w 0 10) (zrDecode (bit w 23) (slotBytes b x.2 (64 * fld w 16 7))), x.2 + 64 * fld w 16 7))
    ([], o)

theorem imageSpad_succ (o n : Nat) : imageSpad b o (n + 1) =
    (Memory.write (imageSpad b o n).1 (4096 * (imageDir b n % 1024)) (zrDecode (decide (has (imageDir b n) 23))
      (slotBytes b (imageSpad b o n).2 (64 * (imageDir b n / 2 ^ 16 % 128)))), (imageSpad b o n).2 + 64 * (imageDir b n / 2 ^ 16 % 128)) := by
  have h10 : fld (imageDir b n) 0 10 = imageDir b n % 1024 := by rw [fld, Nat.pow_zero, Nat.div_one]; rfl
  have h7 : fld (imageDir b n) 16 7 = imageDir b n / 2 ^ 16 % 128 := rfl
  have h1 : bit (imageDir b n) 23 = decide (has (imageDir b n) 23) := rfl
  rw [imageSpad, List.range_succ, List.map_append, List.foldl_append, List.map_singleton, List.foldl_cons, List.foldl_nil, h10, h7, h1]
  rfl

theorem imageStream_succ (n : Nat) : imageStream b (n + 1) = imageStream b n + 64 * (imageDir b n / 2 ^ 16 % 128) := by
  simp only [imageStream, List.range_succ, List.map_append, List.sum_append, List.map_singleton, List.sum_singleton]
  omega

theorem imageSpad_snd (n : Nat) : (imageSpad b (imageStream b 0) n).2 = imageStream b n := by
  induction n with
  | zero => rfl
  | succ n ih => rw [imageSpad_succ, imageStream_succ, ih]

/-- The regions that the directory lists hold what their streams decode to, where it lists none twice. -/
theorem read_imageSpad (n : Nat) (hd : ∀ i j, i < n → j < n → imageDir b i % 1024 = imageDir b j % 1024 → i = j) (j : Nat) (hj : j < n) :
    Memory.read (imageSpad b (imageStream b 0) n).1 (4096 * (imageDir b j % 1024)) 4096 =
      zrDecode (decide (has (imageDir b j) 23)) (slotBytes b (imageStream b j) (64 * (imageDir b j / 2 ^ 16 % 128))) := by
  induction n with
  | zero => omega
  | succ n ih =>
    rw [imageSpad_succ, imageSpad_snd]
    have hlen := zrDecode_length (decide (has (imageDir b n) 23))
      (slotBytes b (imageStream b n) (64 * (imageDir b n / 2 ^ 16 % 128)))
    obtain hlt | rfl := Nat.lt_succ_iff_lt_or_eq.mp hj
    · rw [read_write_outside, ih (fun i j hi hj => hd i j (by omega) (by omega)) hlt]
      have := hd j n (by omega) (by omega)
      rw [hlen]
      omega
    · have := read_write_same (imageSpad b (imageStream b 0) j).1 (4096 * (imageDir b j % 1024)) (zrDecode (decide (has (imageDir b j) 23))
        (slotBytes b (imageStream b j) (64 * (imageDir b j / 2 ^ 16 % 128))))
      rwa [hlen] at this

/-- A region that the directory does not list reads zero. -/
theorem read1_imageSpad (o n r k : Nat) (hk : k < 4096) (h : ∀ j, j < n → imageDir b j % 1024 ≠ r) :
    Memory.read1 (imageSpad b o n).1 (4096 * r + k) = 0 := by
  induction n with
  | zero => rfl
  | succ n ih =>
    rw [imageSpad_succ, read1_write_outside, ih fun j hj => h j (by omega)]
    have := h n (by omega)
    rw [zrDecode_length]
    omega

theorem restored_spad : ∃ o, (imageRegions b ≤ 768 → o = imageStream b 0) ∧
    (restored b p x c).spad = (imageSpad b o (min (imageRegions b) 768)).1 := by
  refine ⟨0x240000 + 0x42C0 + (4 * min (imageRegions b) 768 + 63) / 64 * 64, fun h => ?_, rfl⟩
  rw [Nat.min_eq_left h]
  rfl

/-- The image is what a restored core holds. -/
theorem imageHolds_restored : ImageHolds b (restored b p x c) where
  dirty := rfl
  rings r := by
    have hw (i : Nat) (hi : i < 4) : blkW (SlotRead.words (slotBytes b) (0x240000 + 0x80 + 32 * r.val) 4) i =
        BitVec.ofNat 64 (slotNum b (0x240080 + 32 * r.val + 8 * i) 8) := blkW_words b _ 4 i hi
    simp only [restored, restoreCore, Vector.getElem_ofFn, readRing, hw 0 (by omega), hw 1 (by omega), hw 2 (by omega), hw 3 (by omega)]
    simp only [extract_low _ (by omega : 22 ≤ 64), extract_low _ (by omega : 16 ≤ 64), extract_low _ (by omega : 32 ≤ 64),
      extract_ofNat _ (by omega : 16 + 16 ≤ 64), extract_ofNat _ (by omega : 32 + 16 ≤ 64), extract_ofNat _ (by omega : 48 + 13 ≤ 64),
      extract_ofNat _ (by omega : 32 + 32 ≤ 64)]
  translations i := by
    have hw (n : Nat) (hn : n < 2) : blkW (SlotRead.words (slotBytes b) (0x240000 + 0x280 + 16 * i.val) 2) n =
        BitVec.ofNat 64 (slotNum b (0x240280 + 16 * i.val + 8 * n) 8) := blkW_words b _ 2 n hn
    simp only [restored, restoreCore, Vector.getElem_ofFn, readBtm, hw 0 (by omega), hw 1 (by omega)]
    simp only [extract_low _ (by omega : 16 ≤ 64), extract_ofNat _ (by omega : 16 + 16 ≤ 64),
      extract_ofNat _ (by omega : 32 + 32 ≤ 64), wb_ofNat _ (by omega : 0 < 64), wb_ofNat _ (by omega : 1 < 64)]
  pointers n := by
    simp only [restored, restoreCore, Vector.getElem_ofFn]
    rfl
  regions h hd j hj := by
    obtain ⟨o, ho, hs⟩ := restored_spad b p x c
    rw [hs, ho h, Nat.min_eq_left h]
    exact read_imageSpad b _ hd j hj

/-- What the live mask and the directory do not name is zero or empty. -/
theorem elseZero_restored : ElseZero b (slotNum b 8 8) (restored b p x c) where
  scalars h := by
    refine ofFn_zero fun i => ?_
    simp only [live_not b (by omega) h, Bool.false_eq_true, if_false]
  patterns h := by
    refine ofFn_zero fun i => ofFn_zero fun j => ?_
    simp only [live_not b (by omega) h, Bool.false_eq_true, if_false]
  masks h := by
    refine ofFn_zero fun i => ?_
    simp only [live_not b (by omega) h, Bool.and_false, Bool.false_eq_true, if_false]
  vectors r h := by
    simp only [restored, restoreCore, Vector.getElem_ofFn, live_not b (by omega) h, Bool.false_eq_true, if_false]
  wide h := by
    refine ofFn_zero fun i => ?_
    simp only [live_not b (by omega) h, Bool.false_eq_true, if_false]
  sums h := by
    refine ofFn_zero fun i => ?_
    simp only [live_not b (by omega) h, Bool.false_eq_true, if_false]
  queues q := by
    refine ⟨fun h => ?_, fun h => ?_⟩
    · rw [restored_qw, live_not b (by omega) h, if_neg Bool.false_ne_true]
    · rw [restored_qt, live_not b (by omega) h, if_neg Bool.false_ne_true]
  accumulators n h j hj := by
    rw [restored_acc, read1_accBanks _ _ _ _ _ hj, live_not b (by omega) h, if_neg (by simp)]
  scratchpad r _ h j hj := by
    obtain ⟨o, -, hs⟩ := restored_spad b p x c
    rw [hs]
    exact read1_imageSpad b o _ r j hj fun i hi => h i (by omega)

end restored

end Sys2Proof.Proofs

namespace Sys2Proof.Proofs
open Sys2Proof Sys2Proof.Machine Sys2Proof.Claims

/-! ## A saved record on its cores again (R170, R212, R230) -/

/-- What a record keeps of its member of a rank. -/
def privAt (r : Rec) (rank : Fin 8) : Priv := (r.priv[rank.val]?).getD (privOf Core.reset)

/-- A core that a saved record's task x takes again, from the slot with the bytes b. -/
def resumedCore (r : Rec) (b : Nat → Byte) (x : CoreTask) (c : Core) : Core :=
  if r.past = some x.rank then (restored b (privAt r x.rank) x c).onE .sc fun y => y.advance 1 else restored b (privAt r x.rank) x c

theorem resumedCore_task (r : Rec) (b : Nat → Byte) (x : CoreTask) (c : Core) : (resumedCore r b x c).task = some x := by
  unfold resumedCore
  split <;> rfl

/-- A resumption reads the bytes of its slot (R229). -/
theorem devRead_slot (m : Mach) (c : Fin 64) (k : Fin 256) :
    (fun o n => m.devRead (m.sec c) (m.slotAt c k + o) n) = slotBytes (slotByte m c k) := by
  funext o n
  refine List.map_congr_left fun i _ => ?_
  rw [slotByte, Mach.slotAt, ← Nat.add_assoc]
  rfl

section resumeOn
variable (r : Rec) (m : Mach) (k h : Fin 256) (t : CoreTask)

theorem resumeOn_eq : ∃ ps, m.resumeOn r k t = (m.noteReads t.ctx ps).onCore k (resumedCore r (slotByte m t.ctx k) t) := by
  unfold Mach.resumeOn
  dsimp only
  rw [devRead_slot]
  exact ⟨_, rfl⟩

theorem noteReads_core (c : Fin 64) (ps : List (Nat × Nat)) : (m.noteReads c ps).core h = m.core h := by
  rw [Mach.core, noteReads_cores, Mach.core]

theorem resumeOn_core : (m.resumeOn r k t).core h =
    if h = k then resumedCore r (slotByte m t.ctx k) t (m.core h) else m.core h := by
  obtain ⟨ps, he⟩ := resumeOn_eq r m k t
  rw [he, onCore_core_eq, noteReads_core]

/-- The contexts, and what a slot holds, are those of m0. -/
def sameSlots (m0 m : Mach) : Prop := m.ctxs = m0.ctxs ∧ ∀ sec a, m.devByte sec a = m0.devByte sec a

theorem slotByte_of_sameSlots {m0 m : Mach} (hm : sameSlots m0 m) (c : Fin 64) : slotByte m c k = slotByte m0 c k := by
  obtain ⟨hc, hd⟩ := hm
  funext o
  rw [slotByte, hd, Mach.ctx, hc]
  rfl

theorem resumeOn_slots {m0 : Mach} (hm : sameSlots m0 m) : sameSlots m0 (m.resumeOn r k t) := by
  obtain ⟨hc, hd⟩ := hm
  obtain ⟨ps, he⟩ := resumeOn_eq r m k t
  rw [he]
  refine ⟨?_, fun sec a => ?_⟩
  · rw [onCore_ctxs, noteReads_ctxs, hc]
  · rw [← hd, ← noteReads_devByte m t.ctx ps]
    rfl

end resumeOn

/-- What a resumption makes of a member whose core was c, from the slots of m0. -/
def resumedIn (r : Rec) (m0 : Mach) (ws : List Word) (k : Fin 256) (c : Core) (m : Mach) : Prop :=
  ∀ x, c.task = some x → m.core k = resumedCore r (slotByte m0 x.ctx k) (x.withDesc ws) c

section runOne
variable (r : Rec) (m0 m : Mach) (ws : List Word) (k h : Fin 256)

theorem runOne_resumeOn_slots (hm : sameSlots m0 m) : sameSlots m0 (runOne (Mach.resumeOn r) ws m k) := by
  unfold runOne
  split
  · exact resumeOn_slots r m k _ hm
  · exact hm

theorem runOne_resumeOn_other (hh : h ≠ k) : (runOne (Mach.resumeOn r) ws m k).core h = m.core h := by
  unfold runOne
  split
  · rw [resumeOn_core, if_neg hh]
  · rfl

theorem runOne_resumeOn_self (hm : sameSlots m0 m) : resumedIn r m0 ws k (m.core k) (runOne (Mach.resumeOn r) ws m k) := by
  intro x hx
  have hctx : (x.withDesc ws).ctx = x.ctx := rfl
  rw [runOne_of_task hx, resumeOn_core, if_pos rfl, hctx, slotByte_of_sameSlots k hm]

theorem runOne_resumeOn_keeps {c : Core} (hh : h ≠ k) (hr : resumedIn r m0 ws h c m) :
    resumedIn r m0 ws h c (runOne (Mach.resumeOn r) ws m k) := by
  intro x hx
  rw [runOne_resumeOn_other r m ws k h hh, hr x hx]

end runOne

theorem allRun_resumes (r : Rec) (m0 : Mach) (t : CoreTask) (hl : t.members.Nodup) :
    (∀ h ∉ t.members, (allRun (Mach.resumeOn r) m0 t).core h = m0.core h) ∧
    ∀ k ∈ t.members, resumedIn r m0 (descWords m0 t) k (m0.core k) (allRun (Mach.resumeOn r) m0 t) := by
  have h := foldl_members (runOne_resumeOn_slots r m0 · (descWords m0 t)) (runOne_resumeOn_other r · (descWords m0 t))
    (runOne_resumeOn_self r m0 · (descWords m0 t)) (fun m k h c => runOne_resumeOn_keeps r m0 m (descWords m0 t) k h) t.members hl
    (m0.access t.ctx (textDesc t.text) 64).2 ⟨access_ctxs .., access_devByte m0 t.ctx _ _⟩
  simp only [access_core] at h
  exact h

/-! ## Start and resumption of a placed record (R43, R119, R170) -/

/-- A core c at the start of task x, whose memories, ring descriptors and block translations are those of c0, and of whose
acknowledgements `owed` holds. -/
def freshCore (x : CoreTask) (owed : Prop) (c0 c : Core) : Prop :=
  (∀ n : Fin 32, c.s[n.val] = if n = 1 then x.frame.setWidth 64 else 0) ∧
  (∀ e, (c.e e).pc = x.entry ∧ (c.e e).walk = 0 ∧ (c.e e).loops = [] ∧ (c.e e).ended = false) ∧
  c.a = Vector.replicate 3 (Vector.replicate 16 0) ∧ c.v = Vector.replicate 32 Tile.zero ∧ c.w = Vector.replicate 8 Tile.zero ∧
  c.z = Vector.replicate 2 Tile.zero ∧ c.m = Vector.replicate 8 0 ∧ c.qt = Vector.replicate 4 [] ∧ c.qw = Vector.replicate 4 [] ∧
  c.out = Vector.replicate 5 [] ∧ c.cq = 0 ∧ c.vbuf = none ∧ c.round = Vector.replicate 3 0 ∧ c.seed = Vector.replicate 3 0 ∧
  c.btmcfg = Vector.replicate 2 true ∧ c.dirty = 0 ∧ c.halt = none ∧ c.hold = none ∧ c.safe = none ∧ (∀ e, (c.e e).rep = 0 ∧ (c.e e).job = none) ∧
  (∀ p q, c.tokens p q = 0) ∧ c.slipw = 256 ∧ c.mx = MxState.reset ∧ c.spad = c0.spad ∧ c.acc = c0.acc ∧
  c.rings = c0.rings ∧ c.btm = c0.btm ∧ (∃ y, c.task = some y ∧ y.running = true ∧ y.recId = x.recId ∧ y.ctx = x.ctx) ∧ owed

theorem freshCore_started (x : CoreTask) {owed : Prop} (ho : owed) (ws : List Word) (busy : Bool) (now : Word) (c : Core) :
    freshCore x owed c (startedCore (x.withDesc ws) busy now c) := by
  refine ⟨startedCore_s _ _ _ _, fun e => ?_, rfl, rfl, rfl, rfl, rfl, rfl, rfl, rfl, rfl, rfl, rfl, rfl, rfl, rfl, rfl, rfl, rfl,
    fun e => ?_, startedCore_tokens _ _ _ _, rfl, rfl, rfl, rfl, rfl, rfl, ⟨_, rfl, rfl, rfl, rfl⟩, ho⟩
  · rw [startedCore_e]
    exact ⟨rfl, rfl, rfl, rfl⟩
  · rw [startedCore_e]
    exact ⟨rfl, rfl⟩

theorem startedCore_owes (x : CoreTask) (now : Word) (c : Core) : (startedCore x true now c).owes = some now := rfl

/-- A core c' on which task x of record r goes on, with what the slot's bytes b hold in c. -/
def resumedFrom (r : Rec) (b : Nat → Byte) (x : CoreTask) (c c' : Core) : Prop :=
  let live := slotNum b 8 8
  c' = (if r.past = some x.rank then c.onE .sc fun y => y.advance 1 else c) ∧
  CtrlHolds b c ∧ FilesHold b live c ∧ ImageHolds b c ∧ ElseZero b live c ∧ c.mx = readMx (slotBytes b) ∧
  PrivHolds ((r.priv[x.rank.val]?).getD (privOf Core.reset)) live c ∧
  (∀ e, (c.e e).walk = if slotNum b 0 1 = 1 then 0 else BitVec.ofNat 32 (slotNum b (0x80 + 8 * (engIx e).val) 4)) ∧
  ∃ y, c.task = some y ∧ y.running = true ∧ y.recId = x.recId ∧ y.ctx = x.ctx ∧ y.rank = x.rank

theorem resumedFrom_restored (r : Rec) (b : Nat → Byte) (x : CoreTask) (ws : List Word) (c : Core) :
    resumedFrom r b x (restored b (privAt r x.rank) (x.withDesc ws) c) (resumedCore r b (x.withDesc ws) c) :=
  ⟨rfl, ctrlHolds_restored .., filesHold_restored .., imageHolds_restored .., elseZero_restored .., rfl,
    privHolds_restored .., restored_walk _ _ _ _, _, rfl, rfl, rfl, rfl, rfl⟩

section placed
variable {s : State} {g : Fin 256} {t : CoreTask} {r : Rec}

theorem startOn_starts (hb : s.boot.state = 2) (hp : placedOn s.m g t r) (hl : t.members.Nodup) (hr : r.reason = 0)
    (hgood : descOk (descWords s.m t) t.entry = true) :
    ∃ m' : Mach, exec (.taskStart g) s = .next (after s m') ∧ (∀ h, h ∉ t.members → m'.core h = s.m.core h) ∧
      ∀ k ∈ t.members, ∀ x, (s.m.core k).task = some x → freshCore x ((s.m.ctx x.ctx).busy = true →
        (m'.core k).owes = some (s.m.die (dieOf k)).cycle ∧ coreCode k ∈ (m'.ctx x.ctx).owed) (s.m.core k) (m'.core k) := by
  obtain ⟨hout, hin⟩ := allRun_starts s.m t hl
  refine ⟨allRun Mach.startOn s.m t, ?_, hout, fun k hk x hx => ?_⟩
  · rw [execTaskStart_of_placed hb hp, if_pos hr, runMembers_of_good hgood]
  obtain ⟨hc, ho⟩ := hin k hk x hx
  have howes : (s.m.ctx x.ctx).busy = true → ((allRun Mach.startOn s.m t).core k).owes = some (s.m.die (dieOf k)).cycle ∧
      coreCode k ∈ ((allRun Mach.startOn s.m t).ctx x.ctx).owed := by
    refine fun hbusy => ⟨?_, ho hbusy⟩
    rw [hc, hbusy, startedCore_owes]
    rfl
  have := freshCore_started x howes (descWords s.m t) (s.m.ctx x.ctx).busy (s.m.clock k) (s.m.core k)
  rwa [← hc] at this

theorem resumeOn_resumes (hb : s.boot.state = 2) (hp : placedOn s.m g t r) (hl : t.members.Nodup) (hr : r.reason ≠ 0)
    (hgood : descOk (descWords s.m t) t.entry = true) :
    ∃ m' : Mach, exec (.taskResume g) s = .next (after s m') ∧ (∀ h, h ∉ t.members → m'.core h = s.m.core h) ∧
      ∀ k ∈ t.members, ∀ x, (s.m.core k).task = some x → ∃ c, resumedFrom r (slotByte s.m x.ctx k) x c (m'.core k) := by
  obtain ⟨hout, hin⟩ := allRun_resumes r s.m t hl
  refine ⟨allRun (Mach.resumeOn r) s.m t, ?_, hout, fun k hk x hx => ?_⟩
  · rw [execTaskResume_of_placed hb hp, if_neg hr, runMembers_of_good hgood]
  · rw [hin k hk x hx]
    exact ⟨_, resumedFrom_restored r _ x _ _⟩

theorem withDesc_members (t : CoreTask) (ws : List Word) : (t.withDesc ws).members = t.members := rfl

/-- A placed task whose text fails its check traps on every member at its entry (R119). -/
theorem placed_traps (hb : s.boot.state = 2) (hp : placedOn s.m g t r) (hg : g ∈ t.members) (hl : t.members.Nodup)
    (hbad : ¬ descOk (descWords s.m t) t.entry = true) (i : Instr)
    (hi : (i = .taskStart g ∧ r.reason = 0) ∨ (i = .taskResume g ∧ r.reason ≠ 0)) :
    ∃ m' : Mach, exec i s = .next (after s m') ∧
      ∀ k ∈ t.members, ∃ f, (m'.core k).halt = some (.trap f) ∧ f.cause = .illegal ∧ f.padr = t.entry ∧ f.code = 0 := by
  have ht : (s.m.core g).task = some t := hp.1
  obtain ⟨rfl, hr⟩ | ⟨rfl, hr⟩ := hi
  · refine ⟨(allRun Mach.startOn s.m t).badText g t, ?_, fun k hk => ?_⟩
    · rw [execTaskStart_of_placed hb hp, if_pos hr, runMembers_of_bad hbad]
    · obtain ⟨hc, -⟩ := (allRun_starts s.m t hl).2 g hg t ht
      exact badText_halt (x := t.withDesc (descWords s.m t)) (by rw [hc, startedCore_task]) (withDesc_members ..) hk
  · refine ⟨(allRun (Mach.resumeOn r) s.m t).badText g t, ?_, fun k hk => ?_⟩
    · rw [execTaskResume_of_placed hb hp, if_neg hr, runMembers_of_bad hbad]
    · have hc := (allRun_resumes r s.m t hl).2 g hg t ht
      exact badText_halt (x := t.withDesc (descWords s.m t)) (by rw [hc, resumedCore_task]) (withDesc_members ..) hk

end placed

end Sys2Proof.Proofs

namespace Sys2Proof.Proofs
open Sys2Proof Sys2Proof.Machine Sys2Proof.Claims

/-! ## What a list of patches leaves of a slot (R229; log entry 21)

A later patch writes over an earlier one, so a block of bytes stands where no later patch reaches it. -/

/-- The byte that a list of patches leaves at offset o, where one reaches it. -/
def patchAt : Patch → Nat → Option Byte
  | [], _ => none
  | p :: ps, o => (patchAt ps o).or (if p.1 ≤ o ∧ o < p.1 + p.2.length then some (p.2.getD (o - p.1) 0) else none)

/-- No patch reaches the n bytes from offset o. -/
def Spares (ps : Patch) (o n : Nat) : Prop := ∀ q ∈ ps, o + n ≤ q.1 ∨ q.1 + q.2.length ≤ o

/-- The patches leave the bytes bs at offset o. -/
def Leaves (ps : Patch) (o : Nat) (bs : List Byte) : Prop := ∀ i, i < bs.length → patchAt ps (o + i) = some (bs.getD i 0)

section patches
variable {ps qs : Patch} {o n : Nat} {bs : List Byte}

theorem patchAt_append (ps qs : Patch) (o : Nat) : patchAt (ps ++ qs) o = (patchAt qs o).or (patchAt ps o) := by
  induction ps with
  | nil => simp [patchAt]
  | cons p ps ih => rw [List.cons_append, patchAt, ih, patchAt, Option.or_assoc]

theorem patchAt_of_spares (h : Spares ps o n) {i : Nat} (hi : i < n) : patchAt ps (o + i) = none := by
  induction ps with
  | nil => rfl
  | cons p ps ih =>
    have hp := h p List.mem_cons_self
    rw [patchAt, ih fun q hq => h q (List.mem_cons_of_mem _ hq), if_neg (by omega)]
    rfl

theorem spares_nil : Spares [] o n := nofun

theorem spares_cons {p : Nat × List Byte} : Spares (p :: ps) o n ↔ (o + n ≤ p.1 ∨ p.1 + p.2.length ≤ o) ∧ Spares ps o n := by
  rw [Spares, List.forall_mem_cons]
  rfl

theorem spares_flatMap {α : Type} {l : List α} {f : α → Patch} (h : ∀ a ∈ l, Spares (f a) o n) : Spares (l.flatMap f) o n := by
  intro q hq
  obtain ⟨a, ha, hq⟩ := List.mem_flatMap.mp hq
  exact h a ha q hq

namespace Leaves

theorem append_right (h : Leaves qs o bs) : Leaves (ps ++ qs) o bs := by
  intro i hi
  rw [patchAt_append, h i hi, Option.some_or]

theorem append_left (h : Leaves ps o bs) (hs : Spares qs o bs.length) : Leaves (ps ++ qs) o bs := by
  intro i hi
  rw [patchAt_append, patchAt_of_spares hs hi, Option.none_or, h i hi]

/-- The first of a list of patches, as far as no later one reaches it. -/
theorem head {a i : Nat} (hi : i + n ≤ bs.length) (hs : Spares ps (a + i) n) : Leaves ((a, bs) :: ps) (a + i) ((bs.drop i).take n) := by
  intro j hj
  have hj : j < n := by simp only [List.length_take, List.length_drop] at hj; omega
  have hx : a + i + j - a = i + j := by omega
  dsimp only [patchAt]
  rw [patchAt_of_spares hs hj, Option.none_or, if_pos (by omega), hx]
  simp [List.getD, List.getElem?_drop, hj]

theorem head_all {a : Nat} (hs : Spares ps a bs.length) : Leaves ((a, bs) :: ps) a bs := by
  have := head (a := a) (i := 0) (n := bs.length) (bs := bs) (by omega) (by simpa using hs)
  simpa using this

theorem tail {p : Nat × List Byte} (h : Leaves ps o bs) : Leaves (p :: ps) o bs := append_right (ps := [p]) h

/-- What one of a list's parts leaves, where no later part reaches it. -/
theorem flatMap {α : Type} {R : α → α → Prop} {l : List α} {f : α → Patch} {a : α} (hl : l.Pairwise R) (ha : a ∈ l)
    (h : Leaves (f a) o bs) (hm : ∀ a' ∈ l, R a a' → Spares (f a') o bs.length) : Leaves (l.flatMap f) o bs := by
  induction l with
  | nil => cases ha
  | cons x l ih =>
    obtain ⟨hx, hl⟩ := List.pairwise_cons.mp hl
    rw [List.flatMap_cons]
    by_cases hal : a ∈ l
    · exact (ih hl hal fun a' ha' => hm a' (List.mem_cons_of_mem _ ha')).append_right
    · obtain rfl | ha := List.mem_cons.mp ha
      · exact h.append_left (spares_flatMap fun a' ha' => hm a' (List.mem_cons_of_mem _ ha') (hx a' ha'))
      · exact absurd ha hal

theorem map {α : Type} {R : α → α → Prop} {l : List α} {f : α → Nat × List Byte} {a : α} (hl : l.Pairwise R) (ha : a ∈ l)
    (h : Leaves [f a] o bs) (hm : ∀ a' ∈ l, R a a' → Spares [f a'] o bs.length) : Leaves (l.map f) o bs := by
  rw [List.map_eq_flatMap]
  exact flatMap hl ha h hm

/-- A part of what stands. -/
theorem part (h : Leaves ps o bs) (i n : Nat) (hn : i + n ≤ bs.length) : Leaves ps (o + i) ((bs.drop i).take n) := by
  intro j hj
  have hj : j < n := by simp only [List.length_take, List.length_drop] at hj; omega
  rw [Nat.add_assoc, h (i + j) (by omega)]
  simp [List.getD, List.getElem?_drop, hj]

end Leaves

/-! ## The tiles of a file -/

theorem tileBytes_length (t : Tile) : (tileBytes t).length = 4096 := by
  rw [tileBytes, List.length_flatMap, List.map_congr_left (fun x _ => leBytes_length 4 x.toNat), List.map_const', List.sum_replicate]
  simp

theorem tilePatch_eq (a : Nat) (ts : List Tile) (k : Nat) : (ts.zipIdx k).map (fun (p : Tile × Nat) => (a + 4096 * p.2, tileBytes p.1)) =
    tilePatch (a + 4096 * k) ts := by
  rw [tilePatch, List.zipIdx_eq_map_add, List.map_map]
  refine List.map_congr_left fun p _ => ?_
  simp only [Function.comp_apply, Nat.mul_add, Nat.add_assoc]

theorem tilePatch_cons (a : Nat) (t : Tile) (ts : List Tile) : tilePatch a (t :: ts) = (a, tileBytes t) :: tilePatch (a + 4096) ts := by
  rw [tilePatch, List.zipIdx_cons, List.map_cons, tilePatch_eq]
  rfl

theorem mem_tilePatch {a : Nat} {ts : List Tile} {q : Nat × List Byte} (h : q ∈ tilePatch a ts) :
    a ≤ q.1 ∧ q.2.length = 4096 ∧ q.1 + 4096 ≤ a + 4096 * ts.length := by
  induction ts generalizing a with
  | nil => cases h
  | cons t ts ih =>
    rw [tilePatch_cons] at h
    obtain rfl | h := List.mem_cons.mp h
    · refine ⟨Nat.le_refl _, tileBytes_length t, ?_⟩
      rw [List.length_cons]
      omega
    · obtain ⟨h1, h2, h3⟩ := ih h
      rw [List.length_cons]
      omega

theorem Leaves.tilePatch {a : Nat} {ts : List Tile} {j : Nat} {t : Tile} (h : ts[j]? = some t) :
    Leaves (tilePatch a ts) (a + 4096 * j) (tileBytes t) := by
  induction ts generalizing a j with
  | nil => cases h
  | cons x ts ih =>
    rw [tilePatch_cons]
    cases j with
    | zero =>
      obtain rfl : x = t := by simpa using h
      rw [Nat.mul_zero, Nat.add_zero]
      refine Leaves.head_all fun q hq => .inl ?_
      rw [tileBytes_length]
      exact (mem_tilePatch hq).1
    | succ j =>
      have := ih (a := a + 4096) (j := j) (by simpa using h)
      rw [show a + 4096 * (j + 1) = a + 4096 + 4096 * j by omega]
      exact this.tail

end patches

end Sys2Proof.Proofs

namespace Sys2Proof.Proofs
open Sys2Proof Sys2Proof.Machine Sys2Proof.Claims

/-! ## Numbers as bytes (R5) -/

theorem leBytes_succ (n v : Nat) : leBytes (n + 1) v = BitVec.ofNat 8 v :: leBytes n (v / 256) := by
  rw [leBytes, List.range_succ_eq_map, List.map_cons, List.map_map, leBytes]
  congr 1
  · rw [byteOf, Nat.mul_zero, Nat.pow_zero, Nat.div_one]
  · refine List.map_congr_left fun k _ => ?_
    rw [Function.comp_apply, byteOf, byteOf, Nat.mul_succ, Nat.add_comm, pow_add, Nat.div_div_eq_div_mul]
    rfl

theorem leVal_leBytes (n v : Nat) : leVal (leBytes n v) = v % 256 ^ n := by
  induction n generalizing v with
  | zero =>
    rw [pow_zero, Nat.mod_one]
    rfl
  | succ n ih =>
    rw [leBytes_succ, leVal, ih, Nat.pow_succ', Nat.mod_mul]
    rfl

/-! ## Blocks of bytes that stand in a slot -/

/-- The patches start at offset lo or above. -/
def Above (lo : Nat) (ps : Patch) : Prop := ∀ q ∈ ps, lo ≤ q.1

section above
variable {lo o n : Nat} {ps qs : Patch}

theorem Above.spares (h : Above lo ps) (ho : o + n ≤ lo) : Spares ps o n := fun q hq => .inl (ho.trans (h q hq))

theorem above_single {q : Nat × List Byte} (h : lo ≤ q.1) : Above lo [q] := List.forall_mem_singleton.mpr h

theorem above_ifLive {live : Word} {k : Nat} (h : Above lo ps) : Above lo (ifLive live k ps) := by
  unfold ifLive
  split
  · exact h
  · exact nofun

theorem above_map {f : Nat → Nat × List Byte} (h : ∀ k, lo ≤ (f k).1) : Above lo ((List.range n).map f) := by
  intro q hq
  obtain ⟨k, -, rfl⟩ := List.mem_map.mp hq
  exact h k

theorem above_flatMap {f : Nat → Patch} (h : ∀ k, Above lo (f k)) : Above lo ((List.range n).flatMap f) := by
  intro q hq
  obtain ⟨k, -, hq⟩ := List.mem_flatMap.mp hq
  exact h k q hq

theorem above_tilePatch {a : Nat} {ts : List Tile} (h : lo ≤ a) : Above lo (tilePatch a ts) :=
  fun _ hq => h.trans (mem_tilePatch hq).1

end above

namespace Leaves
variable {ps : Patch} {o : Nat} {bs : List Byte}

/-- One of the blocks of a list of equal blocks. -/
theorem block {α : Type} {l : List α} {f : α → List Byte} {n i : Nat} {a : α} (h : Leaves ps o (l.flatMap f))
    (hn : ∀ a ∈ l, (f a).length = n) (ha : l[i]? = some a) : Leaves ps (o + n * i) (f a) := by
  intro j hj
  have hj' : j < n := by rwa [hn a (List.mem_of_getElem? ha)] at hj
  have hget := getElem?_blocks hn i hj'
  rw [ha, Option.bind_some, List.getElem?_eq_getElem hj] at hget
  obtain ⟨hlt, -⟩ := List.getElem?_eq_some_iff.mp hget
  rw [Nat.add_assoc, h _ hlt, List.getD, List.getD, hget, List.getElem?_eq_getElem hj]

/-- The only patch of a list. -/
theorem single (a : Nat) (bs : List Byte) : Leaves [(a, bs)] a bs := head_all spares_nil

theorem ifLive {live : Word} {k : Nat} (h : Leaves ps o bs) (hl : wb live k = true) : Leaves (Machine.ifLive live k ps) o bs := by
  rwa [Machine.ifLive, if_pos hl]

/-- What one of several segments leaves of its own part of the slot, where each later segment starts above that part. -/
theorem segment {segs : List (Nat × Nat × Patch)} (hp : segs.Pairwise fun s s' => s.2.1 ≤ s'.1)
    (ha : ∀ s ∈ segs, Above s.1 s.2.2) {s : Nat × Nat × Patch} (hs : s ∈ segs) (h : Leaves s.2.2 o bs)
    (ho : o + bs.length ≤ s.2.1) : Leaves (segs.flatMap (·.2.2)) o bs :=
  flatMap hp hs h fun s' hs' hle => (ha s' hs').spares (ho.trans hle)

/-- A patch that no other one meets. -/
theorem mem {p : Nat × List Byte} (hp : (ps.map fun q => (q.1, q.2.length)).Pairwise fun x y => x.1 + x.2 ≤ y.1 ∨ y.1 + y.2 ≤ x.1)
    (h : p ∈ ps) : Leaves ps p.1 p.2 := by
  have := map (f := id) (List.pairwise_map.mp hp) h (single p.1 p.2) fun q _ hq => by
    rw [spares_cons]
    exact ⟨hq, spares_nil⟩
  rwa [List.map_id] at this

end Leaves

/-! ## The slot that a save has written (R229) -/

/-- Writes at offsets of n bytes from A for context c. -/
def slotWrites (c : Fin 64) (A : Nat) (ps : Patch) (m : Mach) : Mach := ps.foldl (fun m p => m.ctxWrite c (A + p.1) p.2) m

section slotWrites
variable (m : Mach) (c : Fin 64) (A : Nat) (ps : Patch)

theorem slotWrites_keeps {α : Type} (F : Mach → α) (h : ∀ m a bs, F (Mach.ctxWrite m c a bs) = F m) :
    F (slotWrites c A ps m) = F m := foldl_keeps F (fun m _ => h m _ _) ps m

theorem ctxWrite_mayTouch (a : Nat) (bs : List Byte) (sec : Bool) (x : Nat) : (m.ctxWrite c a bs).mayTouch sec x = m.mayTouch sec x := by
  obtain ⟨_, _, _, _, _, _, h⟩ := ctxWrite_frame m c a bs
  rw [h]
  rfl

theorem ctxWrite_sec (a : Nat) (bs : List Byte) : (m.ctxWrite c a bs).sec c = m.sec c := by
  rw [Mach.sec, Mach.ctx, ctxWrite_ctxs, Mach.sec, Mach.ctx]

/-- A byte that the context's world may touch is the one that the patches leave. -/
theorem read1_slotWrites {o : Nat} (h : m.mayTouch (m.sec c) (A + o) = true) :
    Memory.read1 (slotWrites c A ps m).dev (A + o) = (patchAt ps o).getD (Memory.read1 m.dev (A + o)) := by
  induction ps generalizing m with
  | nil => rfl
  | cons p ps ih =>
    have h' : (m.ctxWrite c (A + p.1) p.2).mayTouch ((m.ctxWrite c (A + p.1) p.2).sec c) (A + o) = true := by
      rw [ctxWrite_mayTouch, ctxWrite_sec, h]
    rw [slotWrites, List.foldl_cons, ← slotWrites, ih _ h', patchAt, read1_ctxWrite]
    cases patchAt ps o with
    | some v => rfl
    | none =>
      by_cases hp : p.1 ≤ o ∧ o < p.1 + p.2.length
      · rw [if_pos ⟨by omega, by omega, h⟩, if_pos hp, show A + o - (A + p.1) = o - p.1 by omega]
        rfl
      · rw [if_neg (by omega), if_neg hp]
        rfl

/-- A byte that no patch reaches keeps its value. -/
theorem read1_slotWrites_outside {x : Nat} (h : ∀ p ∈ ps, x < A + p.1 ∨ A + p.1 + p.2.length ≤ x) :
    Memory.read1 (slotWrites c A ps m).dev x = Memory.read1 m.dev x := by
  induction ps generalizing m with
  | nil => rfl
  | cons p ps ih =>
    have hp := h p List.mem_cons_self
    rw [slotWrites, List.foldl_cons, ← slotWrites, ih _ fun q hq => h q (List.mem_cons_of_mem _ hq), read1_ctxWrite, if_neg (by omega)]

end slotWrites

/-- The bytes b of a slot are those that the patches leave. -/
def Shows (b : Nat → Byte) (ps : Patch) : Prop := ∀ o bs, Leaves ps o bs → o + bs.length ≤ 2 ^ 23 → slotBytes b o bs.length = bs

theorem Shows.num {b : Nat → Byte} {ps : Patch} (hb : Shows b ps) {o n v : Nat} (h : Leaves ps o (leBytes n v)) (ho : o + n ≤ 2 ^ 23) :
    slotNum b o n = v % 256 ^ n := by
  have := hb o _ h (by rwa [leBytes_length])
  rw [leBytes_length] at this
  rw [slotNum, this, leVal_leBytes]

/-- The slot of core g after writes for context c that its world may make. -/
theorem shows_slotWrites {m : Mach} {c : Fin 64} {g : Fin 256} (ps : Patch)
    (h : ∀ o, o < 2 ^ 23 → m.mayTouch (m.ctx c).secure ((m.ctx c).cur.savebase.toNat + 2 ^ 23 * g.val + o) = true) :
    Shows (slotByte (slotWrites c (m.slotAt c g) ps m) c g) ps := by
  intro o bs hl ho
  have hctx : (slotWrites c (m.slotAt c g) ps m).ctx c = m.ctx c :=
    slotWrites_keeps m c _ ps (fun m => m.ctx c) fun m a bs => by rw [Mach.ctx, ctxWrite_ctxs, Mach.ctx]
  refine List.ext_getElem (slotBytes_length ..) fun i hi hi' => ?_
  have hmay := h (o + i) (by omega)
  have hmay' : (slotWrites c (m.slotAt c g) ps m).mayTouch (m.ctx c).secure (m.slotAt c g + (o + i)) = true := by
    rw [slotWrites_keeps m c _ ps (fun m' => m'.mayTouch (m.ctx c).secure _) fun m a bs => ctxWrite_mayTouch ..]
    exact hmay
  have hbyte : slotByte (slotWrites c (m.slotAt c g) ps m) c g (o + i) = bs.getD i 0 := by
    rw [slotByte, hctx, Mach.devByte]
    refine (if_pos hmay').trans ((read1_slotWrites m c _ ps hmay).trans ?_)
    rw [hl i hi', Option.getD_some]
  simp only [slotBytes, List.getElem_map, List.getElem_range, hbyte]
  rw [List.getD, List.getElem?_eq_getElem hi', Option.getD_some]

end Sys2Proof.Proofs

namespace Sys2Proof.Proofs
open Sys2Proof Sys2Proof.Machine Sys2Proof.Claims

/-! ## The parts of a slot (R229) -/

/-- What a save writes into a slot. -/
def savePatch (k : Core) (n : Nat) (live : Word) (a : Option (BitVec 48)) : Patch :=
  ctrlPatch k n live a ++ filePatch k live ++ [(0x240000, imageBytes k)] ++ mxPatch k.mx (if wb live 18 then (k.qt[2]).drop 4 else [])

theorem saveSlot_eq (m : Mach) (c : Fin 64) (g : Fin 256) (n : Nat) (live : Word) (a : Option (BitVec 48)) :
    m.saveSlot c g n live a = slotWrites c (m.slotAt c g) (savePatch (m.core g) n live a) m := rfl

section segments
variable (k : Core) (n : Nat) (live : Word) (a : Option (BitVec 48))

/-- The places of a slot in ascending order, each with what is written there. -/
def segments : List (Nat × Nat × Patch) :=
  [(0, 0x1000, ctrlPatch k n live a),
   (0x1000, 0x1100, ifLive live 0 [(0x1000, k.s.toList.flatMap wordBytes)]),
   (0x1100, 0x1400, ifLive live 1 ((List.range 3).map fun i => (0x1100 + 0x80 * i, ((k.a.toList.getD i (Vector.replicate 16 0)).toList).flatMap wordBytes))),
   (0x1400, 0x1800, ifLive live 8 [(0x1400, (k.m.toList.drop 1).flatMap fun x => leBytes 128 x.toNat)]),
   (0x1800, 0x2000, (List.range 4).flatMap fun i => ifLive live (20 + i) [(0x1800 + 0x80 * i, (k.qw.toList.getD i []).flatMap wordBytes)]),
   (0x2000, 0x4000, (List.range 5).map fun i => (0x2000 + 0x400 * i, (k.out.toList.getD i []).flatMap fun x => leBytes 16 x.toNat)),
   (0x4000, 0x24000, (List.range 4).flatMap fun i => ifLive live (2 + i) (tilePatch (0x4000 + 0x8000 * i) ((k.v.toList.drop (8 * i)).take 8))),
   (0x24000, 0x2C000, ifLive live 6 (tilePatch 0x24000 k.w.toList)),
   (0x2C000, 0x30000, ifLive live 7 (tilePatch 0x2C000 k.z.toList)),
   (0x30000, 0x40000, (List.range 4).flatMap fun i => ifLive live (16 + i) (tilePatch (0x30000 + 0x4000 * i) ((k.qt.toList.getD i []).take 4))),
   (0x40000, 0x240000, (List.range 16).flatMap fun i => ifLive live (32 + i) [(0x40000 + 0x20000 * i, Memory.read k.acc (0x20000 * i) 0x20000)]),
   (0x240000, 0x700000, [(0x240000, imageBytes k)]),
   (0x700000, 0x710000, mxPatch k.mx []),
   (0x710000, 0x800000, tilePatch 0x710000 (if wb live 18 then (k.qt[2]).drop 4 else []))]

theorem savePatch_eq : savePatch k n live a = (segments k n live a).flatMap (·.2.2) := by
  have hmx (more : List Tile) : mxPatch k.mx more = mxPatch k.mx [] ++ tilePatch 0x710000 more := by
    simp only [mxPatch, tilePatch, List.zipIdx_nil, List.map_nil, List.append_nil]
    rfl
  rw [savePatch, filePatch, hmx]
  simp only [segments, List.flatMap_cons, List.flatMap_nil, List.append_nil, List.append_assoc]

theorem above_mxPatch (x : MxState) : Above 0x700000 (mxPatch x []) := by
  intro q hq
  simp only [mxPatch, tilePatch, List.zipIdx_nil, List.map_nil, List.append_nil, List.mem_cons, List.not_mem_nil, or_false] at hq
  obtain h | h | h | h | h | h | h | h | h | h | h := hq <;> subst h <;> simp [mxAt]

theorem segments_above : ∀ s ∈ segments k n live a, Above s.1 s.2.2 := by
  have hadd (x y : Nat) : x ≤ x + y := Nat.le_add_right x y
  simp only [segments, List.forall_mem_cons]
  refine ⟨fun _ _ => Nat.zero_le _, above_ifLive (above_single (Nat.le_refl _)), above_ifLive (above_map fun i => hadd _ _),
    above_ifLive (above_single (Nat.le_refl _)), above_flatMap fun i => above_ifLive (above_single (hadd _ _)),
    above_map fun i => hadd _ _, above_flatMap fun i => above_ifLive (above_tilePatch (hadd _ _)),
    above_ifLive (above_tilePatch (Nat.le_refl _)), above_ifLive (above_tilePatch (Nat.le_refl _)),
    above_flatMap fun i => above_ifLive (above_tilePatch (hadd _ _)), above_flatMap fun i => above_ifLive (above_single (hadd _ _)),
    above_single (Nat.le_refl _), above_mxPatch _, above_tilePatch (Nat.le_refl _), nofun⟩

theorem segments_pairwise : (segments k n live a).Pairwise fun s s' => s.2.1 ≤ s'.1 := by
  have : ((segments k n live a).map fun s => (s.1, s.2.1)).Pairwise fun x y => x.2 ≤ y.1 := by
    simp only [segments, List.map_cons, List.map_nil]
    decide
  exact List.pairwise_map.mp this

/-- What is left in its own place stands in the slot. -/
theorem Leaves.inPlace {o i : Nat} {bs : List Byte} {s : Nat × Nat × Patch} (hs : (segments k n live a)[i]? = some s)
    (h : Leaves s.2.2 o bs) (ho : o + bs.length ≤ s.2.1) : Leaves (savePatch k n live a) o bs := by
  rw [savePatch_eq]
  exact Leaves.segment (segments_pairwise k n live a) (segments_above k n live a) (List.mem_of_getElem? hs) h ho

end segments

/-! ## CTRL (R230) -/

section ctrl
variable (k : Core) (n : Nat) (live : Word) (a : Option (BitVec 48))

/-- The two words of an entry of a loop stack. -/
def loopBytes : Option LoopEntry → List Byte
  | some l => leBytes 8 (l.first.toNat + l.last.toNat * 2 ^ 22) ++ leBytes 8 (l.count.toNat + 2 ^ 32)
  | none => leBytes 16 0

theorem loopBytes_length (l : Option LoopEntry) : (loopBytes l).length = 16 := by
  cases l with
  | none => exact leBytes_length ..
  | some l => rw [loopBytes, List.length_append, leBytes_length, leBytes_length]

theorem loopPatch_eq (x : EngState) : loopPatch x = (List.range 4).flatMap fun j => loopBytes x.loops[j]? := by
  refine List.flatMap_congr fun j _ => ?_
  cases x.loops[j]? <;> rfl

theorem loopPatch_length (x : EngState) : (loopPatch x).length = 64 := by
  rw [loopPatch_eq, List.length_flatMap, List.map_congr_left fun j _ => loopBytes_length _]
  rfl

/-- Where CTRL's fields lie, and their sizes. -/
def ctrlPlaces : List (Nat × Nat) :=
  [(0, 2), (0x008, 8), (0x010, 6)] ++ (engines.flatMap fun e => [(0x040 + 8 * engNo e, 8), (0x080 + 8 * engNo e, 4), (0x200 + 64 * engNo e, 64)]) ++
  [(0x0C0, 36), (0x100, 8), (0x108, 8), (0x110, 8), (0x118, 8), (0x120, 8), (0x128, 8), (0x130, 8), (0x138, 8), (0x140, 8)] ++
  (List.range 5).map fun i => (0x180 + 8 * i, 1)

theorem ctrlPatch_places : (ctrlPatch k n live a).map (fun q => (q.1, q.2.length)) = ctrlPlaces := by
  simp only [ctrlPatch, ctrlPlaces, List.map_append, List.map_cons, List.map_nil, List.map_flatMap, List.map_map, leBytes_length,
    wordBytes, loopPatch_length, List.length_cons, List.length_nil, List.length_map, Vector.length_toList, Function.comp_def]

/-- The fields of CTRL lie apart. -/
theorem ctrlPlaces_apart : ctrlPlaces.Pairwise fun x y => x.1 + x.2 ≤ y.1 ∨ y.1 + y.2 ≤ x.1 := by decide

theorem ctrlPlaces_low : ∀ x ∈ ctrlPlaces, x.1 + x.2 ≤ 0x1000 := by decide

/-- A field of CTRL stands in the slot. -/
theorem Leaves.ctrl {o : Nat} {bs : List Byte} (h : (o, bs) ∈ ctrlPatch k n live a) : Leaves (savePatch k n live a) o bs := by
  refine Leaves.inPlace k n live a (i := 0) rfl (Leaves.mem ?_ h) ?_
  · rw [ctrlPatch_places]
    exact ctrlPlaces_apart
  · have := List.mem_map_of_mem (f := fun q : Nat × List Byte => (q.1, q.2.length)) h
    rw [ctrlPatch_places] at this
    exact ctrlPlaces_low _ this

end ctrl

end Sys2Proof.Proofs

namespace Sys2Proof.Proofs
open Sys2Proof Sys2Proof.Machine Sys2Proof.Claims

theorem getD_toList {α : Type} {n : Nat} (v : Vector α n) (i : Nat) (hi : i < n) (d : α) : v.toList.getD i d = v[i] := by
  rw [List.getD, Vector.getElem?_toList, Vector.getElem?_eq_getElem hi]
  rfl

theorem toList_getElem? {α : Type} {n : Nat} (v : Vector α n) (i : Nat) (hi : i < n) : v.toList[i]? = some v[i] := by
  rw [Vector.getElem?_toList, Vector.getElem?_eq_getElem hi]

/-! ## The words of CTRL (R230) -/

section posWord
variable (x : EngState)

theorem posWord_lt : posWord x < 256 ^ 8 := by
  have hpc : x.pc.toNat < 2 ^ 22 := x.pc.isLt
  have hrep : x.rep.toNat < 2 ^ 6 := x.rep.isLt
  have htgt : (x.tgt.getD 0).toNat < 2 ^ 8 := (x.tgt.getD 0).isLt
  have htok := Bool.toNat_lt x.tokp
  have hsome := Bool.toNat_lt x.tgt.isSome
  rw [posWord]
  omega

theorem posWord_fields : x.pc = BitVec.ofNat 22 (posWord x) ∧ x.rep = BitVec.ofNat 6 (posWord x / 2 ^ 22) ∧
    (x.tokp = true ↔ has (posWord x) 28) ∧ (x.tgt.isSome = true ↔ has (posWord x) 29) ∧
    ∀ t, x.tgt = some t → t = BitVec.ofNat 8 (posWord x / 2 ^ 30) := by
  have hpc : x.pc.toNat < 2 ^ 22 := x.pc.isLt
  have hrep : x.rep.toNat < 2 ^ 6 := x.rep.isLt
  have htgt : (x.tgt.getD 0).toNat < 2 ^ 8 := (x.tgt.getD 0).isLt
  have htok := Bool.toNat_lt x.tokp
  have hsome := Bool.toNat_lt x.tgt.isSome
  have hbit (b : Bool) : b = true ↔ b.toNat = 1 := by cases b <;> simp
  refine ⟨BitVec.eq_of_toNat_eq ?_, BitVec.eq_of_toNat_eq ?_, ?_, ?_, fun t ht => BitVec.eq_of_toNat_eq ?_⟩
  · rw [BitVec.toNat_ofNat, posWord]
    omega
  · rw [BitVec.toNat_ofNat, posWord]
    omega
  · rw [hbit, has, posWord]
    omega
  · rw [hbit, has, posWord]
    omega
  · rw [ht, Option.getD_some] at htgt
    rw [BitVec.toNat_ofNat, posWord, ht, Option.getD_some]
    rw [ht] at hsome
    omega

end posWord

section ctrl
variable {k : Core} {n : Nat} {live : Word} {a : Option (BitVec 48)} {b : Nat → Byte} (hb : Shows b (savePatch k n live a))
include hb

theorem slotBytes_ctrl {o : Nat} {bs : List Byte} (h : (o, bs) ∈ ctrlPatch k n live a) : slotBytes b o bs.length = bs := by
  refine hb o bs (Leaves.ctrl k n live a h) ?_
  have := List.mem_map_of_mem (f := fun q : Nat × List Byte => (q.1, q.2.length)) h
  rw [ctrlPatch_places] at this
  have : o + bs.length ≤ 0x1000 := ctrlPlaces_low _ this
  omega

theorem slotNum_ctrl {o w v : Nat} (h : (o, leBytes w v) ∈ ctrlPatch k n live a) : slotNum b o w = v % 256 ^ w := by
  have := slotBytes_ctrl hb h
  rw [leBytes_length] at this
  rw [slotNum, this, leVal_leBytes]

theorem slotNum_ctrl_word {o : Nat} {v : Word} (h : (o, wordBytes v) ∈ ctrlPatch k n live a) : slotNum b o 8 = v.toNat := by
  have hv : v.toNat < 256 ^ 8 := v.isLt
  rw [slotNum_ctrl hb h, Nat.mod_eq_of_lt hv]

/-- A field of n ≤ 64 bits in a word of its own. -/
theorem eq_ofNat_ctrl {o w : Nat} {v : BitVec w} (hw : w ≤ 64) (h : (o, leBytes 8 v.toNat) ∈ ctrlPatch k n live a) :
    v = BitVec.ofNat w (slotNum b o 8) := by
  have hv : v.toNat < 256 ^ 8 := v.isLt.trans_le (Nat.pow_le_pow_right (n := 2) (by omega) hw)
  rw [slotNum_ctrl hb h, Nat.mod_eq_of_lt hv, BitVec.ofNat_toNat, BitVec.setWidth_eq]

omit hb in
theorem mem_ctrl_engine (e : Engine) {q : Nat × List Byte}
    (hq : q ∈ [(0x040 + 8 * engNo e, leBytes 8 (posWord (k.e e))), (0x080 + 8 * engNo e, leBytes 4 (k.e e).walk.toNat),
      (0x200 + 64 * engNo e, loopPatch (k.e e))]) : q ∈ ctrlPatch k n live a := by
  have he : e ∈ engines := by cases e <;> simp [engines]
  rw [ctrlPatch, List.mem_append, List.mem_append, List.mem_append]
  exact .inl (.inl (.inr (List.mem_flatMap.mpr ⟨e, he, hq⟩)))

omit hb in
theorem mem_ctrl_word {q : Nat × List Byte} (hq : q ∈ [(0x0C0, k.tok.toList.map fun n => BitVec.ofNat 8 n),
   (0x100, leBytes 8 k.slipw.toNat), (0x108, leBytes 8 (k.round[0]).toNat), (0x110, wordBytes (k.seed[0])),
   (0x118, leBytes 8 (k.btmcfg[0]).toNat), (0x120, leBytes 8 (k.round[1]).toNat), (0x128, wordBytes (k.seed[1])),
   (0x130, leBytes 8 (k.round[2]).toNat), (0x138, wordBytes (k.seed[2])), (0x140, leBytes 8 (k.btmcfg[1]).toNat)]) :
    q ∈ ctrlPatch k n live a := by
  rw [ctrlPatch, List.mem_append, List.mem_append]
  exact .inl (.inr hq)

theorem walk_saved (e : Engine) : (k.e e).walk = BitVec.ofNat 32 (slotNum b (0x80 + 8 * (engIx e).val) 4) := by
  have h := slotNum_ctrl hb (o := 0x80 + 8 * engNo e) (w := 4) (v := (k.e e).walk.toNat) (mem_ctrl_engine e (by simp))
  have hw : (k.e e).walk.toNat < 256 ^ 4 := (k.e e).walk.isLt
  rw [← engNo, h, Nat.mod_eq_of_lt hw, BitVec.ofNat_toNat, BitVec.setWidth_eq]

/-- The two words of entry j of the loop stack of engine e. -/
theorem loopNum_saved (e : Engine) {j : Nat} (hj : j < 4) :
    loopNum b e j 0 = leVal ((loopBytes (k.e e).loops[j]?).take 8) ∧ loopNum b e j 1 = leVal ((loopBytes (k.e e).loops[j]?).drop 8) := by
  have hl : Leaves (savePatch k n live a) (0x200 + 64 * engNo e) (loopPatch (k.e e)) :=
    Leaves.ctrl k n live a (mem_ctrl_engine e (by simp))
  have hno : engNo e < 6 := (engIx e).isLt
  rw [loopPatch_eq] at hl
  have hj' : (List.range 4)[j]? = some j := List.getElem?_range hj
  have hblock := hl.block (fun j _ => loopBytes_length _) hj'
  have hlen := loopBytes_length (k.e e).loops[j]?
  have h0 := hb _ _ (hblock.part 0 8 (by omega)) (by rw [List.length_take, List.length_drop]; omega)
  have h1 := hb _ _ (hblock.part 8 8 (by omega)) (by rw [List.length_take, List.length_drop]; omega)
  simp only [List.length_take, List.length_drop, hlen] at h0 h1
  refine ⟨congrArg leVal h0, ?_⟩
  have h1' : slotBytes b (0x200 + 64 * engNo e + 16 * j + 8) 8 = _ := h1
  rw [List.take_of_length_le (by rw [List.length_drop]; omega)] at h1'
  exact congrArg leVal h1'

theorem loopNum_saved_some (e : Engine) {j : Nat} (hj : j < 4) {l : LoopEntry} (hl : (k.e e).loops[j]? = some l) :
    loopNum b e j 0 = l.first.toNat + l.last.toNat * 2 ^ 22 ∧ loopNum b e j 1 = l.count.toNat + 2 ^ 32 := by
  have hf : l.first.toNat < 2 ^ 22 := l.first.isLt
  have hla : l.last.toNat < 2 ^ 22 := l.last.isLt
  have hc : l.count.toNat < 2 ^ 32 := l.count.isLt
  obtain ⟨h0, h1⟩ := loopNum_saved hb e hj
  rw [hl, loopBytes] at h0 h1
  rw [h0, h1, List.take_left' (leBytes_length ..), List.drop_left' (leBytes_length ..), leVal_leBytes, leVal_leBytes]
  omega

theorem loopNum_saved_none (e : Engine) {j : Nat} (hj : j < 4) (hl : (k.e e).loops[j]? = none) : loopNum b e j 1 = 0 := by
  obtain ⟨-, h1⟩ := loopNum_saved hb e hj
  rw [h1, hl]
  rfl

theorem has_loopNum_saved (e : Engine) {j : Nat} (hj : j < 4) : has (loopNum b e j 1) 32 ↔ j < (k.e e).loops.length := by
  cases hl : (k.e e).loops[j]? with
  | none =>
    have hlen := List.getElem?_eq_none_iff.mp hl
    rw [has, loopNum_saved_none hb e hj hl]
    omega
  | some l =>
    obtain ⟨hlt, -⟩ := List.getElem?_eq_some_iff.mp hl
    have hc : l.count.toNat < 2 ^ 32 := l.count.isLt
    rw [has, (loopNum_saved_some hb e hj hl).2]
    omega

theorem outcome_saved (i : Fin 5) {j : Nat} {x : BitVec 128} (hj : j < 64) (hx : k.out[i.val][j]? = some x) :
    x = BitVec.ofNat 128 (slotNum b (0x2000 + 0x400 * i.val + 16 * j) 16) := by
  have hi := i.isLt
  have hone : Leaves [(0x2000 + 0x400 * i.val, (k.out.toList.getD i.val []).flatMap fun x => leBytes 16 x.toNat)]
      (0x2000 + 0x400 * i.val + 16 * j) (leBytes 16 x.toNat) := by
    refine (Leaves.single _ _).block (fun x _ => leBytes_length ..) ?_
    rwa [getD_toList _ _ hi]
  have hmap := Leaves.map (f := fun i => (0x2000 + 0x400 * i, (k.out.toList.getD i []).flatMap fun x => leBytes 16 x.toNat))
    (List.pairwise_lt_range (n := 5)) (List.mem_range.mpr hi) hone fun i' _ hlt =>
      (above_single (lo := 0x2000 + 0x400 * (i.val + 1)) (by dsimp only; omega)).spares (by rw [leBytes_length]; omega)
  have hx' : x.toNat < 256 ^ 16 := x.isLt
  have := hb.num (Leaves.inPlace k n live a (i := 5) rfl hmap (by rw [leBytes_length]; dsimp only; omega)) (by omega)
  rw [this, Nat.mod_eq_of_lt hx', BitVec.ofNat_toNat, BitVec.setWidth_eq]

/-- CTRL of a saved slot is what the core holds (R230). -/
theorem ctrlHolds_saved : CtrlHolds b k where
  engine e := by
    have h := slotNum_ctrl hb (o := 0x40 + 8 * engNo e) (w := 8) (v := posWord (k.e e)) (mem_ctrl_engine e (by simp))
    rw [Nat.mod_eq_of_lt (posWord_lt _), engNo] at h
    rw [h]
    exact posWord_fields (k.e e)
  loops e j hj := by
    refine ⟨⟨fun h => (has_loopNum_saved hb e hj).mp (h j (Nat.le_refl j)),
      fun h i hi => (has_loopNum_saved hb e (by omega)).mpr (by omega)⟩, fun l hl => ?_⟩
    obtain ⟨h0, h1⟩ := loopNum_saved_some hb e hj hl
    have hf : l.first.toNat < 2 ^ 22 := l.first.isLt
    have hla : l.last.toNat < 2 ^ 22 := l.last.isLt
    have hc : l.count.toNat < 2 ^ 32 := l.count.isLt
    rw [h0, h1]
    refine ⟨BitVec.eq_of_toNat_eq ?_, BitVec.eq_of_toNat_eq ?_, BitVec.eq_of_toNat_eq ?_⟩ <;> rw [BitVec.toNat_ofNat] <;> omega
  tokens p q := by
    have hix : (tokIx p q).val = 6 * (engIx p).val + (engIx q).val := by
      have := (engIx p).isLt
      have := (engIx q).isLt
      simp only [tokIx, Fin.ofNat]
      omega
    have hl : Leaves (savePatch k n live a) 0xC0 (k.tok.toList.map fun n => BitVec.ofNat 8 n) :=
      Leaves.ctrl k n live a (mem_ctrl_word (by simp))
    rw [List.map_eq_flatMap] at hl
    have htok := toList_getElem? k.tok _ (tokIx p q).isLt
    have hlt := (tokIx p q).isLt
    have := hb _ _ (hl.block (n := 1) (fun _ _ => rfl) htok) (by rw [List.length_singleton]; omega)
    rw [List.length_singleton, Nat.one_mul] at this
    rw [Nat.add_assoc, ← hix, slotNum, this, leVal, leVal, Nat.mul_zero, Nat.add_zero, BitVec.toNat_ofNat, Core.tokens]
  slipw := eq_ofNat_ctrl hb (by omega) (mem_ctrl_word (by simp))
  round := ⟨eq_ofNat_ctrl hb (by omega) (mem_ctrl_word (by simp)), eq_ofNat_ctrl hb (by omega) (mem_ctrl_word (by simp)),
    eq_ofNat_ctrl hb (by omega) (mem_ctrl_word (by simp))⟩
  seed := ⟨eq_ofNat_ctrl hb (by omega) (mem_ctrl_word (by simp [wordBytes])), eq_ofNat_ctrl hb (by omega) (mem_ctrl_word (by simp [wordBytes])),
    eq_ofNat_ctrl hb (by omega) (mem_ctrl_word (by simp [wordBytes]))⟩
  btmcfg := by
    have hbit (y : Bool) : y = true ↔ has (y.toNat % 256 ^ 8) 0 := by cases y <;> simp [has]
    have h0 := slotNum_ctrl hb (o := 0x118) (w := 8) (v := k.btmcfg[0].toNat) (mem_ctrl_word (by simp))
    have h1 := slotNum_ctrl hb (o := 0x140) (w := 8) (v := k.btmcfg[1].toNat) (mem_ctrl_word (by simp))
    rw [h0, h1]
    exact ⟨hbit _, hbit _⟩
  outcomes i := by
    refine ⟨?_, fun j x hj hx => outcome_saved hb i hj hx⟩
    have hm : (0x180 + 8 * i.val, [BitVec.ofNat 8 ((k.out.toList.getD i.val []).length)]) ∈ ctrlPatch k n live a := by
      rw [ctrlPatch, List.mem_append]
      exact .inr (List.mem_map.mpr ⟨i.val, List.mem_range.mpr i.isLt, rfl⟩)
    have : slotBytes b (0x180 + 8 * i.val) 1 = _ := slotBytes_ctrl hb hm
    rw [slotNum, this, getD_toList _ _ i.isLt, leVal, leVal, Nat.mul_zero, Nat.add_zero, BitVec.toNat_ofNat]
    omega

end ctrl

end Sys2Proof.Proofs

namespace Sys2Proof.Proofs
open Sys2Proof Sys2Proof.Machine Sys2Proof.Claims

/-! ## The register files, queues and accumulators of a saved slot (R121, R229) -/

/-- A number of 8·n bits is back from its n bytes. -/
theorem ofNat_bytes {w n : Nat} (hw : w = 8 * n) (x : BitVec w) : BitVec.ofNat w (x.toNat % 256 ^ n) = x := by
  have h : x.toNat < 256 ^ n := x.isLt.trans_eq (by rw [hw, Nat.pow_mul])
  rw [Nat.mod_eq_of_lt h, BitVec.ofNat_toNat, BitVec.setWidth_eq]

theorem wb_of_has {live : Word} {i : Nat} (hi : i < 64) (h : has live.toNat i) : wb live i = true := by
  have := wb_ofNat_of live.toNat hi h
  rwa [BitVec.ofNat_toNat, BitVec.setWidth_eq] at this

/-- Block i of a list of equal blocks. -/
theorem take_drop_blocks {α β : Type} {f : α → List β} {l : List α} {n i : Nat} {a : α} (hn : ∀ a ∈ l, (f a).length = n)
    (ha : l[i]? = some a) : ((l.flatMap f).drop (n * i)).take n = f a := by
  have hlen : (f a).length = n := hn a (List.mem_of_getElem? ha)
  refine List.ext_getElem? fun j => ?_
  rw [List.getElem?_take, List.getElem?_drop]
  split
  · next hj => rw [getElem?_blocks hn i hj, ha, Option.bind_some]
  · rw [List.getElem?_eq_none_iff.mpr (by omega)]

theorem tileOfBytes_tileBytes (t : Tile) : tileOfBytes (tileBytes t) = t := by
  refine Vector.ext fun i hi => ?_
  rw [tileOfBytes, Vector.getElem_ofFn, tileBytes, take_drop_blocks (fun x _ => leBytes_length ..) (toList_getElem? t i hi)]
  exact leVal_leBytes_lane _

section files
variable {k : Core} {n : Nat} {live : Word} {a : Option (BitVec 48)} {b : Nat → Byte} (hb : Shows b (savePatch k n live a))
include hb

/-- A number that its segment leaves. -/
theorem num_saved {o i m v : Nat} {s : Nat × Nat × Patch} (hs : (segments k n live a)[i]? = some s) (h : Leaves s.2.2 o (leBytes m v))
    (ho : o + m ≤ s.2.1) (hend : o + m ≤ 2 ^ 23) : slotNum b o m = v % 256 ^ m :=
  hb.num (Leaves.inPlace k n live a hs h (by rwa [leBytes_length])) hend

/-- A tile that its segment leaves. -/
theorem tile_saved {o i : Nat} {t : Tile} {s : Nat × Nat × Patch} (hs : (segments k n live a)[i]? = some s) (h : Leaves s.2.2 o (tileBytes t))
    (ho : o + 4096 ≤ s.2.1) (hend : o + 4096 ≤ 2 ^ 23) : t = tileOfBytes (slotBytes b o 4096) := by
  have := hb o _ (Leaves.inPlace k n live a hs h (by rwa [tileBytes_length])) (by rwa [tileBytes_length])
  rw [tileBytes_length] at this
  rw [this, tileOfBytes_tileBytes]

theorem scalars_saved (h : wb live 0 = true) (r : Fin 32) : k.s[r.val] = BitVec.ofNat 64 (slotNum b (0x1000 + 8 * r.val) 8) := by
  have hr := r.isLt
  have hl := (Leaves.single 0x1000 (k.s.toList.flatMap wordBytes)).block (fun x _ => leBytes_length ..) (toList_getElem? k.s _ hr)
  rw [num_saved hb (i := 1) rfl (hl.ifLive h) (by dsimp only; omega) (by omega)]
  exact (ofNat_bytes (by omega) _).symm

theorem patterns_saved (h : wb live 1 = true) (e : Fin 3) (r : Fin 16) :
    k.a[e.val][r.val] = BitVec.ofNat 64 (slotNum b (0x1100 + 0x80 * e.val + 8 * r.val) 8) := by
  have he := e.isLt
  have hr := r.isLt
  have hget : (k.a.toList.getD e.val (Vector.replicate 16 0)).toList[r.val]? = some k.a[e.val][r.val] := by
    rw [getD_toList _ _ he, toList_getElem? _ _ hr]
  have hl := (Leaves.single (0x1100 + 0x80 * e.val) ((k.a.toList.getD e.val (Vector.replicate 16 0)).toList.flatMap wordBytes)).block
    (fun x _ => leBytes_length ..) hget
  have hmap := Leaves.map (f := fun i => (0x1100 + 0x80 * i, ((k.a.toList.getD i (Vector.replicate 16 0)).toList).flatMap wordBytes))
    (List.pairwise_lt_range (n := 3)) (List.mem_range.mpr he) hl fun i _ hlt =>
      (above_single (lo := 0x1100 + 0x80 * (e.val + 1)) (by dsimp only; omega)).spares (by rw [wordBytes, leBytes_length]; omega)
  rw [num_saved hb (i := 2) rfl (hmap.ifLive h) (by dsimp only; omega) (by omega)]
  exact (ofNat_bytes (by omega) _).symm

theorem masks_saved (h : wb live 8 = true) (r : Fin 8) (hr : r ≠ 0) :
    k.m[r.val] = BitVec.ofNat 1024 (slotNum b (0x1400 + 0x80 * (r.val - 1)) 128) := by
  have hlt := r.isLt
  have hpos : r.val ≠ 0 := fun e => hr (Fin.ext e)
  have hget : (k.m.toList.drop 1)[r.val - 1]? = some k.m[r.val] := by
    rw [List.getElem?_drop, show 1 + (r.val - 1) = r.val by omega, toList_getElem? _ _ hlt]
  have hl := (Leaves.single 0x1400 ((k.m.toList.drop 1).flatMap fun x => leBytes 128 x.toNat)).block (fun x _ => leBytes_length ..) hget
  rw [num_saved hb (i := 3) rfl (hl.ifLive h) (by dsimp only; omega) (by omega)]
  exact (ofNat_bytes (by omega) _).symm

theorem wordQueues_saved (q : Fin 4) (h : wb live (20 + q.val) = true) {j : Nat} {x : Word} (hj : j < 16)
    (hx : k.qw[q.val][j]? = some x) : x = BitVec.ofNat 64 (slotNum b (0x1800 + 0x80 * q.val + 8 * j) 8) := by
  have hq := q.isLt
  have hl := (Leaves.single (0x1800 + 0x80 * q.val) ((k.qw.toList.getD q.val []).flatMap wordBytes)).block (fun x _ => leBytes_length ..)
    (by rwa [getD_toList _ _ hq])
  have hmap := Leaves.flatMap (f := fun i => ifLive live (20 + i) [(0x1800 + 0x80 * i, (k.qw.toList.getD i []).flatMap wordBytes)])
    (List.pairwise_lt_range (n := 4)) (List.mem_range.mpr hq) (hl.ifLive h) fun i _ hlt =>
      (above_ifLive (above_single (lo := 0x1800 + 0x80 * (q.val + 1)) (by dsimp only; omega))).spares (by rw [wordBytes, leBytes_length]; omega)
  rw [num_saved hb (i := 4) rfl hmap (by dsimp only; omega) (by omega)]
  exact (ofNat_bytes (by omega) _).symm

theorem vectors_saved (r : Fin 32) (h : wb live (2 + r.val / 8) = true) :
    k.v[r.val] = tileOfBytes (slotBytes b (0x4000 + 0x1000 * r.val) 4096) := by
  have hr := r.isLt
  have hget : ((k.v.toList.drop (8 * (r.val / 8))).take 8)[r.val % 8]? = some k.v[r.val] := by
    rw [List.getElem?_take, if_pos (by omega), List.getElem?_drop, show 8 * (r.val / 8) + r.val % 8 = r.val by omega,
      toList_getElem? _ _ hr]
  have hmap := Leaves.flatMap (f := fun i => ifLive live (2 + i) (tilePatch (0x4000 + 0x8000 * i) ((k.v.toList.drop (8 * i)).take 8)))
    (List.pairwise_lt_range (n := 4)) (List.mem_range.mpr (by omega)) ((Leaves.tilePatch hget).ifLive h) fun i _ hlt =>
      (above_ifLive (above_tilePatch (lo := 0x4000 + 0x8000 * (r.val / 8 + 1)) (by omega))).spares (by rw [tileBytes_length]; omega)
  rw [show 0x4000 + 0x8000 * (r.val / 8) + 4096 * (r.val % 8) = 0x4000 + 0x1000 * r.val by omega] at hmap
  exact tile_saved hb (i := 6) rfl hmap (by dsimp only; omega) (by omega)

theorem wide_saved (h : wb live 6 = true) (r : Fin 8) : k.w[r.val] = tileOfBytes (slotBytes b (0x24000 + 0x1000 * r.val) 4096) := by
  have hr := r.isLt
  exact tile_saved hb (i := 7) rfl ((Leaves.tilePatch (toList_getElem? k.w _ hr)).ifLive h) (by dsimp only; omega) (by omega)

theorem sums_saved (h : wb live 7 = true) (r : Fin 2) : k.z[r.val] = tileOfBytes (slotBytes b (0x2C000 + 0x1000 * r.val) 4096) := by
  have hr := r.isLt
  exact tile_saved hb (i := 8) rfl ((Leaves.tilePatch (toList_getElem? k.z _ hr)).ifLive h) (by dsimp only; omega) (by omega)

theorem tileQueues_saved (q : Fin 4) (h : wb live (16 + q.val) = true) {j : Nat} {x : Tile} (hj : j < 4)
    (hx : k.qt[q.val][j]? = some x) : x = tileOfBytes (slotBytes b (0x30000 + 0x4000 * q.val + 0x1000 * j) 4096) := by
  have hq := q.isLt
  have hget : ((k.qt.toList.getD q.val []).take 4)[j]? = some x := by
    rwa [List.getElem?_take, if_pos hj, getD_toList _ _ hq]
  have hmap := Leaves.flatMap (f := fun i => ifLive live (16 + i) (tilePatch (0x30000 + 0x4000 * i) ((k.qt.toList.getD i []).take 4)))
    (List.pairwise_lt_range (n := 4)) (List.mem_range.mpr hq) ((Leaves.tilePatch hget).ifLive h) fun i _ hlt =>
      (above_ifLive (above_tilePatch (lo := 0x30000 + 0x4000 * (q.val + 1)) (by omega))).spares (by rw [tileBytes_length]; omega)
  exact tile_saved hb (i := 9) rfl hmap (by dsimp only; omega) (by omega)

theorem moreTiles_saved (h : wb live 18 = true) {j : Nat} {x : Tile} (hj : 4 ≤ j) (hj' : j < 244) (hx : k.qt[2][j]? = some x) :
    x = tileOfBytes (slotBytes b (0x710000 + 0x1000 * (j - 4)) 4096) := by
  have hget : (if wb live 18 then (k.qt[2]).drop 4 else [])[j - 4]? = some x := by
    rwa [if_pos h, List.getElem?_drop, show 4 + (j - 4) = j by omega]
  exact tile_saved hb (i := 13) rfl (Leaves.tilePatch hget) (by dsimp only; omega) (by omega)

theorem accumulators_saved (q : Fin 16) (h : wb live (32 + q.val) = true) {j : Nat} (hj : j < 0x20000) :
    Memory.read1 k.acc (0x20000 * q.val + j) = b (0x40000 + 0x20000 * q.val + j) := by
  have hq := q.isLt
  have hlen (i : Nat) : (Memory.read k.acc (0x20000 * i) 0x20000).length = 0x20000 := by rw [Memory.read, List.length_map, List.length_range]
  have hmap := Leaves.flatMap (f := fun i => ifLive live (32 + i) [(0x40000 + 0x20000 * i, Memory.read k.acc (0x20000 * i) 0x20000)])
    (List.pairwise_lt_range (n := 16)) (List.mem_range.mpr hq) ((Leaves.single _ _).ifLive h) fun i _ hlt =>
      (above_ifLive (above_single (lo := 0x40000 + 0x20000 * (q.val + 1)) (by dsimp only; omega))).spares (by rw [hlen]; omega)
  have hs := hb _ _ (Leaves.inPlace k n live a (i := 10) rfl hmap (by rw [hlen]; dsimp only; omega)) (by rw [hlen]; omega)
  rw [hlen] at hs
  rw [← slotBytes_getD b _ _ _ hj, hs, List.getD, getElem?_read hj, Option.getD_some]

/-- The classes of the live mask in a saved slot are what the core holds. -/
theorem filesHold_saved : FilesHold b live.toNat k where
  scalars h r := scalars_saved hb (wb_of_has (by omega) h) r
  patterns h e r := patterns_saved hb (wb_of_has (by omega) h) e r
  masks h r hr := masks_saved hb (wb_of_has (by omega) h) r hr
  vectors r h := vectors_saved hb r (wb_of_has (by omega) h)
  wide h r := wide_saved hb (wb_of_has (by omega) h) r
  sums h r := sums_saved hb (wb_of_has (by omega) h) r
  wordQueues q h _ _ hj hx := wordQueues_saved hb q (wb_of_has (by omega) h) hj hx
  tileQueues q h _ _ hj hx := tileQueues_saved hb q (wb_of_has (by omega) h) hj hx
  moreTiles h _ _ hj hj' hx := moreTiles_saved hb (wb_of_has (by omega) h) hj hj' hx
  accumulators q h _ hj := accumulators_saved hb q (wb_of_has (by omega) h) hj

end files

end Sys2Proof.Proofs

namespace Sys2Proof.Proofs
open Sys2Proof Sys2Proof.Machine Sys2Proof.Claims

/-! ## The zero-and-repeat coder gives back what it coded (R157) -/

section line
variable {l : List Byte} (hl : l.length = 64)
include hl

theorem eq_zeros (h : l.all (· = 0) = true) : l = List.replicate 64 0 := by
  rw [List.all_eq_true] at h
  exact List.eq_replicate_iff.mpr ⟨hl, fun x hx => by simpa using h x hx⟩

/-- A line of sixteen equal words. -/
theorem eq_words (h : (List.range 16).all (fun k => (l.drop (4 * k)).take 4 = l.take 4) = true) :
    (List.replicate 16 (l.take 4)).flatten = l := by
  rw [List.all_eq_true] at h
  have hcut (n : Nat) : ((List.range n).map fun k => (l.drop (4 * k)).take 4).flatten = l.take (4 * n) := by
    induction n with
    | zero => rfl
    | succ n ih => rw [List.range_succ, List.map_append, List.flatten_append, ih, Nat.mul_succ, List.take_add]; simp
  have hmap : (List.range 16).map (fun k => (l.drop (4 * k)).take 4) = List.replicate 16 (l.take 4) := by
    refine List.eq_replicate_iff.mpr ⟨by rw [List.length_map, List.length_range], fun x hx => ?_⟩
    obtain ⟨k, hk, rfl⟩ := List.mem_map.mp hx
    simpa using h k hk
  rw [← hmap, hcut, List.take_of_length_le (by omega)]

end line

theorem codeLine_lt (prev : Option (List Byte)) (l : List Byte) : (codeLine prev l).1 < 4 := by
  unfold codeLine
  split
  · decide
  · split
    · decide
    · dsimp only
      split <;> dsimp only <;> decide

/-- The code of line i that a map holds. -/
def mapCode (map : List Byte) (i : Nat) : Nat := fld ((map.getD (i / 4) 0).toNat) (2 * (i % 4)) 2

/-- One line is decoded from its code and its payload, and the payloads behind it are left. -/
theorem decodeLines_codeLine {map : List Byte} {n i : Nat} {prev rest : List Byte} {pv : Option (List Byte)} {l : List Byte}
    (hl : l.length = 64) (hc : mapCode map i = (codeLine pv l).1) (hp : ∀ p, pv = some p → i ≠ 0 ∧ prev = p) :
    decodeLines map (n + 1) i prev ((codeLine pv l).2 ++ rest) = l ++ decodeLines map n (i + 1) l rest := by
  rw [mapCode] at hc
  rw [decodeLines]
  dsimp only
  rw [hc]
  unfold codeLine
  split
  · next h =>
    rw [eq_zeros hl h]
    rfl
  · split
    · next h =>
      obtain ⟨hi, hprev⟩ := hp l h
      simp only [hi, hprev, if_false, Nat.reduceEqDiff, OfNat.ofNat_ne_zero, List.nil_append]
    · dsimp only
      split
      · next h =>
        have hw : (l.take 4).length = 4 := by rw [List.length_take]; omega
        have ht : ((l.take 4 ++ rest) ++ List.replicate 4 0).take 4 = l.take 4 := by
          rw [List.append_assoc, List.take_left' hw]
        have hd : (l.take 4 ++ rest).drop 4 = rest := List.drop_left' hw
        simp only [Nat.one_ne_zero, if_false, if_true, ht, hd, eq_words hl h]
      · have ht : ((l ++ rest) ++ List.replicate 64 0).take 64 = l := by rw [List.append_assoc, List.take_left' hl]
        have hd : (l ++ rest).drop 64 = rest := List.drop_left' hl
        simp only [OfNat.ofNat_ne_zero, Nat.reduceEqDiff, if_false, if_true, ht, hd]

theorem decodeLines_codeLines {map : List Byte} {ls : List (List Byte)} {i : Nat} {prev rest : List Byte} {pv : Option (List Byte)}
    (hl : ∀ l ∈ ls, l.length = 64) (hc : ∀ j, j < ls.length → mapCode map (i + j) = ((codeLines pv ls).map (·.1)).getD j 0)
    (hp : ∀ p, pv = some p → i ≠ 0 ∧ prev = p) :
    decodeLines map ls.length i prev ((codeLines pv ls).flatMap (·.2) ++ rest) = ls.flatten := by
  induction ls generalizing i prev pv with
  | nil => rfl
  | cons l ls ih =>
    have hc0 : mapCode map i = (codeLine pv l).1 := hc 0 (by simp)
    rw [codeLines, List.flatMap_cons, List.append_assoc, List.length_cons,
      decodeLines_codeLine (hl l List.mem_cons_self) hc0 hp, List.flatten_cons,
      ih (fun l' h => hl l' (List.mem_cons_of_mem _ h)) (fun j hj => ?_) fun p h => ⟨by omega, Option.some.inj h⟩]
    rw [Nat.add_assoc, Nat.add_comm 1]
    exact hc (j + 1) (by simpa using hj)

theorem codeLines_lt (pv : Option (List Byte)) (ls : List (List Byte)) : ∀ x ∈ codeLines pv ls, x.1 < 4 := by
  induction ls generalizing pv with
  | nil => nofun
  | cons l ls ih =>
    rw [codeLines, List.forall_mem_cons]
    exact ⟨codeLine_lt pv l, ih _⟩

/-- The code map holds the codes, two bits each. -/
theorem mapCode_codeMap {cs : List Nat} (h : ∀ x ∈ cs, x < 4) {i : Nat} (hi : i < 64) : mapCode (codeMap cs) i = cs.getD i 0 := by
  have hd (j : Nat) : cs.getD j 0 < 4 := by
    rw [List.getD]
    cases hj : cs[j]? with
    | none => decide
    | some x => exact h x (List.mem_of_getElem? hj)
  have hbyte : (codeMap cs).getD (i / 4) 0 = BitVec.ofNat 8 (cs.getD (4 * (i / 4)) 0 + 4 * cs.getD (4 * (i / 4) + 1) 0 +
      16 * cs.getD (4 * (i / 4) + 2) 0 + 64 * cs.getD (4 * (i / 4) + 3) 0) := by
    rw [codeMap, List.getD, List.getElem?_map, List.getElem?_range (by omega)]
    rfl
  have h0 := hd (4 * (i / 4))
  have h1 := hd (4 * (i / 4) + 1)
  have h2 := hd (4 * (i / 4) + 2)
  have h3 := hd (4 * (i / 4) + 3)
  rw [mapCode, hbyte, BitVec.toNat_ofNat, fld]
  have hm : i % 4 < 4 := Nat.mod_lt _ (by decide)
  have hi4 : i = 4 * (i / 4) + i % 4 := by omega
  generalize i / 4 = q at *
  generalize i % 4 = r at *
  subst hi4
  match r, hm with
  | 0, _ => simp only [Nat.mul_zero, Nat.pow_zero, Nat.div_one, Nat.add_zero]; omega
  | 1, _ => omega
  | 2, _ => omega
  | 3, _ => omega

theorem lines_flatten {bs : List Byte} (h : bs.length = 4096) : ((List.range 64).map (lineOf bs)).flatten = bs := by
  have hcut (n : Nat) : ((List.range n).map (lineOf bs)).flatten = bs.take (64 * n) := by
    induction n with
    | zero => rfl
    | succ n ih => rw [List.range_succ, List.map_append, List.flatten_append, ih, Nat.mul_succ, List.take_add]; simp [lineOf]
  rw [hcut, List.take_of_length_le (by omega)]

theorem codeMap_length (cs : List Nat) : (codeMap cs).length = 16 := by rw [codeMap, List.length_map, List.length_range]

theorem padTo_length (bs : List Byte) : (padTo 64 bs).length = (bs.length + 63) / 64 * 64 := by
  rw [padTo, List.length_append, List.length_replicate]
  omega

/-- What is coded is decoded. -/
theorem zrDecode_zrEncode {bs : List Byte} (h : bs.length = 4096) : zrDecode (zrEncode bs).2 (zrEncode bs).1 = bs := by
  unfold zrEncode
  dsimp only
  split
  · rw [zrDecode, if_pos rfl, List.take_left' h]
  · have hlen : ((List.range 64).map (lineOf bs)).length = 64 := by rw [List.length_map, List.length_range]
    have hline : ∀ l ∈ (List.range 64).map (lineOf bs), l.length = 64 := by
      intro l hl
      obtain ⟨i, hi, rfl⟩ := List.mem_map.mp hl
      rw [List.mem_range] at hi
      rw [lineOf, List.length_take, List.length_drop]
      omega
    have hcodes : ∀ x ∈ (codeLines none ((List.range 64).map (lineOf bs))).map (·.1), x < 4 := by
      intro x hx
      obtain ⟨y, hy, rfl⟩ := List.mem_map.mp hx
      exact codeLines_lt _ _ y hy
    rw [zrDecode, if_neg Bool.false_ne_true, padTo, List.append_assoc, List.take_left' (codeMap_length _), List.take_left' (codeMap_length _),
      List.drop_left' (codeMap_length _)]
    have := decodeLines_codeLines (map := codeMap ((codeLines none ((List.range 64).map (lineOf bs))).map (·.1)))
      (i := 0) (prev := []) (pv := none) (rest := List.replicate ((64 - (codeMap ((codeLines none ((List.range 64).map (lineOf bs))).map (·.1)) ++
        (codeLines none ((List.range 64).map (lineOf bs))).flatMap (·.2)).length % 64) % 64) 0) hline
      (fun j hj => by rw [Nat.zero_add, mapCode_codeMap hcodes (by rw [hlen] at hj; exact hj)]) nofun
    rw [hlen, lines_flatten h] at this
    exact this

/-- A stored tile takes 1 to 64 lines. -/
theorem zrEncode_length {bs : List Byte} (h : bs.length = 4096) : ∃ n, n ≤ 64 ∧ (zrEncode bs).1.length = 64 * n := by
  unfold zrEncode
  dsimp only
  split
  · exact ⟨64, Nat.le_refl _, h⟩
  · next hs =>
    rw [padTo_length] at hs
    refine ⟨_, ?_, (padTo_length _).trans (Nat.mul_comm _ _)⟩
    omega

end Sys2Proof.Proofs

namespace Sys2Proof.Proofs
open Sys2Proof Sys2Proof.Machine Sys2Proof.Claims

/-! ## Slices of numbers and lists (R5) -/

theorem leBytes_drop (n i v : Nat) : (leBytes n v).drop i = leBytes (n - i) (v / 256 ^ i) := by
  induction i generalizing n v with
  | zero => rw [List.drop_zero, Nat.sub_zero, Nat.pow_zero, Nat.div_one]
  | succ i ih =>
    cases n with
    | zero => rw [Nat.zero_sub]; rfl
    | succ n => rw [leBytes_succ, List.drop_succ_cons, ih, Nat.add_sub_add_right, Nat.div_div_eq_div_mul, ← Nat.pow_succ']

theorem leBytes_take {n i : Nat} (v : Nat) (h : i ≤ n) : (leBytes n v).take i = leBytes i v := by
  induction i generalizing n v with
  | zero => rfl
  | succ i ih =>
    obtain ⟨n, rfl⟩ : ∃ n', n = n' + 1 := ⟨n - 1, by omega⟩
    rw [leBytes_succ, leBytes_succ, List.take_succ_cons, ih _ (by omega)]

namespace Leaves
variable {ps : Patch} {o : Nat} {xs ys bs : List Byte}

theorem left (h : Leaves ps o (xs ++ ys)) : Leaves ps o xs := by
  intro i hi
  rw [h i (by rw [List.length_append]; omega), List.getD, List.getD, List.getElem?_append_left hi]

theorem right (h : Leaves ps o (xs ++ ys)) : Leaves ps (o + xs.length) ys := by
  intro i hi
  rw [Nat.add_assoc, h _ (by rw [List.length_append]; omega), List.getD, List.getD, List.getElem?_append_right (by omega),
    Nat.add_sub_cancel_left]

/-- Both parts of a list, of which the first has a known length. -/
theorem split {n : Nat} (h : Leaves ps o (xs ++ ys)) (hn : xs.length = n) : Leaves ps o xs ∧ Leaves ps (o + n) ys :=
  ⟨h.left, hn ▸ h.right⟩

/-- One of the blocks of a list of blocks, behind those before it. -/
theorem pick {α : Type} {l : List α} {f : α → List Byte} {j : Nat} {a : α} (h : Leaves ps o (l.flatMap f)) (ha : l[j]? = some a) :
    Leaves ps (o + ((l.take j).map fun a => (f a).length).sum) (f a) := by
  induction l generalizing o j with
  | nil => cases ha
  | cons x l ih =>
    rw [List.flatMap_cons] at h
    cases j with
    | zero =>
      obtain rfl : x = a := by simpa using ha
      exact h.left
    | succ j =>
      have := ih h.right (by simpa using ha)
      rwa [Nat.add_assoc] at this

end Leaves

theorem leVal_slice {n i m : Nat} (v : Nat) (h : i + m ≤ n) : leVal (((leBytes n v).drop i).take m) = v / 256 ^ i % 256 ^ m := by
  rw [leBytes_drop, leBytes_take _ (by omega), leVal_leBytes]

/-! ## The scratchpad image (R157, R169) -/

section image
variable (k : Core)

/-- The dirty regions, the directory and the streams of an image. -/
def dirBytes (rs : List (Nat × List Byte × Bool)) : List Byte :=
  rs.flatMap fun r => leBytes 4 (r.1 + r.2.1.length / 64 * 2 ^ 16 + r.2.2.toNat * 2 ^ 23)

theorem imageBytes_eq : imageBytes k = leBytes 8 (1 + (dirtyImages k).length * 2 ^ 16) ++ (leBytes 96 k.dirty.toNat ++ (leBytes 24 0 ++
    (k.rings.toList.flatMap ringBytes ++ (k.btm.toList.flatMap btmBytes ++ (leBytes 64 (k.rp.toList.foldr (fun x n => x.toNat + 4 * n) 0) ++
    (padTo 64 (dirBytes (dirtyImages k)) ++ (dirtyImages k).flatMap fun r => r.2.1)))))) := by
  simp only [imageBytes, dirBytes, List.append_assoc]

theorem ringBytes_length (r : Ring) : (ringBytes r).length = 32 := by
  simp only [ringBytes, List.length_append, leBytes_length]

theorem btmBytes_length (x : BtmEntry) : (btmBytes x).length = 16 := by
  simp only [btmBytes, List.length_append, leBytes_length]

theorem flatMap_length {α β : Type} {f : α → List β} {n : Nat} (h : ∀ a, (f a).length = n) (l : List α) :
    (l.flatMap f).length = n * l.length := by
  rw [List.length_flatMap, List.map_congr_left fun a _ => h a, List.map_const', List.sum_replicate, smul_eq_mul, Nat.mul_comm]

theorem dirBytes_length (rs : List (Nat × List Byte × Bool)) : (dirBytes rs).length = 4 * rs.length :=
  flatMap_length (fun _ => leBytes_length ..) rs

/-- A dirty region, coded. -/
theorem dirtyImages_eq : dirtyImages k = ((List.range 768).filter fun r => k.dirty.getLsbD r).map fun r =>
    (r, zrEncode (Memory.read k.spad (4096 * r) 4096)) := rfl

theorem read_length (m : Memory) (a n : Nat) : (Memory.read m a n).length = n := by rw [Memory.read, List.length_map, List.length_range]

/-- Every image is that of a dirty region, in 1 to 64 lines. -/
theorem mem_dirtyImages {r : Nat × List Byte × Bool} (h : r ∈ dirtyImages k) :
    r.1 < 768 ∧ k.dirty.getLsbD r.1 = true ∧ r.2 = zrEncode (Memory.read k.spad (4096 * r.1) 4096) ∧ ∃ n, n ≤ 64 ∧ r.2.1.length = 64 * n := by
  rw [dirtyImages_eq] at h
  obtain ⟨i, hi, rfl⟩ := List.mem_map.mp h
  obtain ⟨hi, hd⟩ := List.mem_filter.mp hi
  have hlen := zrEncode_length (read_length k.spad (4096 * i) 4096)
  dsimp only
  exact ⟨List.mem_range.mp hi, hd, rfl, hlen⟩

theorem dirtyImages_length : (dirtyImages k).length ≤ 768 := by
  rw [dirtyImages_eq, List.length_map]
  refine (List.length_filter_le ..).trans ?_
  rw [List.length_range]

theorem dirtyImages_ascending : (dirtyImages k).Pairwise fun r r' => r.1 < r'.1 := by
  rw [dirtyImages_eq, List.pairwise_map]
  exact List.pairwise_lt_range.filter _

theorem streams_length (rs : List (Nat × List Byte × Bool)) (h : ∀ r ∈ rs, ∃ n, n ≤ 64 ∧ r.2.1.length = 64 * n) :
    (rs.flatMap fun r => r.2.1).length ≤ 4096 * rs.length := by
  induction rs with
  | nil => exact Nat.zero_le _
  | cons r rs ih =>
    obtain ⟨n, hn, hl⟩ := h r List.mem_cons_self
    have := ih fun r' hr' => h r' (List.mem_cons_of_mem _ hr')
    rw [List.flatMap_cons, List.length_append, List.length_cons, hl]
    omega

theorem imageBytes_length : (imageBytes k).length ≤ 0x400000 := by
  have hn := dirtyImages_length k
  have hs := streams_length (dirtyImages k) fun r hr => (mem_dirtyImages k hr).2.2.2
  have hr := flatMap_length ringBytes_length k.rings.toList
  have hb := flatMap_length btmBytes_length k.btm.toList
  rw [Vector.length_toList] at hr hb
  rw [imageBytes_eq]
  simp only [List.length_append, leBytes_length, padTo_length, dirBytes_length, hr, hb]
  omega

end image

end Sys2Proof.Proofs

namespace Sys2Proof.Proofs
open Sys2Proof Sys2Proof.Machine Sys2Proof.Claims

/-! ## Read pointers: two bits each (R169) -/

theorem foldr_digits (l : List (BitVec 2)) (i : Nat) :
    l.foldr (fun x n => x.toNat + 4 * n) 0 / 4 ^ i % 4 = (l.getD i 0).toNat := by
  induction l generalizing i with
  | nil => simp
  | cons x l ih =>
    have hx : x.toNat < 4 := x.isLt
    rw [List.foldr_cons]
    cases i with
    | zero =>
      rw [Nat.pow_zero, Nat.div_one, List.getD_cons_zero]
      omega
    | succ i =>
      rw [List.getD_cons_succ, ← ih, Nat.pow_succ', ← Nat.div_div_eq_div_mul]
      congr 2
      omega

/-- Two bits of byte i / 4 of a number. -/
theorem digit_of_byte (v i : Nat) : v / 256 ^ (i / 4) % 256 / 4 ^ (i % 4) % 4 = v / 4 ^ i % 4 := by
  have hi : i = 4 * (i / 4) + i % 4 := by omega
  have hm : i % 4 < 4 := Nat.mod_lt _ (by decide)
  have h256 : 256 ^ (i / 4) = 4 ^ (4 * (i / 4)) := by rw [Nat.pow_mul]
  conv_rhs => rw [hi, pow_add, ← Nat.div_div_eq_div_mul, ← h256]
  generalize v / 256 ^ (i / 4) = y
  generalize i % 4 = r at *
  match r, hm with
  | 0, _ => omega
  | 1, _ => omega
  | 2, _ => omega
  | 3, _ => omega

section image
variable {k : Core} {n : Nat} {live : Word} {a : Option (BitVec 48)} {b : Nat → Byte} (hb : Shows b (savePatch k n live a))

/-- The parts of the image in their places (R169). -/
structure ImageParts (k : Core) (ps : Patch) : Prop where
  header : Leaves ps 0x240000 (leBytes 8 (1 + (dirtyImages k).length * 2 ^ 16))
  dirty : Leaves ps 0x240008 (leBytes 96 k.dirty.toNat)
  rings : Leaves ps 0x240080 (k.rings.toList.flatMap ringBytes)
  translations : Leaves ps 0x240280 (k.btm.toList.flatMap btmBytes)
  pointers : Leaves ps 0x244280 (leBytes 64 (k.rp.toList.foldr (fun x n => x.toNat + 4 * n) 0))
  directory : Leaves ps 0x2442C0 (dirBytes (dirtyImages k))
  streams : Leaves ps (0x2442C0 + (4 * (dirtyImages k).length + 63) / 64 * 64) ((dirtyImages k).flatMap fun r => r.2.1)

theorem imageParts_saved (k : Core) (n : Nat) (live : Word) (a : Option (BitVec 48)) : ImageParts k (savePatch k n live a) := by
  have h : Leaves (savePatch k n live a) 0x240000 (imageBytes k) :=
    Leaves.inPlace k n live a (i := 11) rfl (Leaves.single _ _) (by have := imageBytes_length k; dsimp only; omega)
  have hrl := flatMap_length ringBytes_length k.rings.toList
  have hbl := flatMap_length btmBytes_length k.btm.toList
  rw [Vector.length_toList] at hrl hbl
  rw [imageBytes_eq] at h
  obtain ⟨header, h⟩ := h.split (leBytes_length ..)
  obtain ⟨dirty, h⟩ := h.split (leBytes_length ..)
  obtain ⟨-, h⟩ := h.split (leBytes_length ..)
  obtain ⟨rings, h⟩ := h.split hrl
  obtain ⟨translations, h⟩ := h.split hbl
  obtain ⟨pointers, h⟩ := h.split (leBytes_length ..)
  obtain ⟨directory, streams⟩ := h.split (padTo_length _)
  rw [dirBytes_length] at streams
  exact ⟨header, dirty, rings, translations, pointers, directory.left, streams⟩

include hb

theorem imageRegions_saved : imageRegions b = (dirtyImages k).length ∧ slotNum b 0x240000 2 = 1 := by
  have hlen := dirtyImages_length k
  have hh := (imageParts_saved k n live a).header
  have h2 := hb _ _ (hh.part 2 2 (by rw [leBytes_length]; omega)) (by rw [List.length_take]; omega)
  have h0 := hb _ _ (hh.part 0 2 (by rw [leBytes_length]; omega)) (by rw [List.length_take]; omega)
  simp only [List.length_take, List.length_drop, leBytes_length] at h0 h2
  refine ⟨?_, ?_⟩
  · refine (congrArg leVal h2).trans ?_
    rw [leVal_slice _ (by omega)]
    omega
  · refine (congrArg leVal h0).trans ?_
    rw [leVal_slice _ (by omega)]
    omega

theorem dirty_saved : k.dirty = BitVec.ofNat 768 (slotNum b 0x240008 96) := by
  rw [hb.num (imageParts_saved k n live a).dirty (by omega)]
  exact (ofNat_bytes (by omega) _).symm

theorem rings_saved (r : Fin 16) : let w (i : Nat) : Nat := slotNum b (0x240080 + 32 * r.val + 8 * i) 8
    k.rings[r.val] = ⟨BitVec.ofNat 22 (w 0), BitVec.ofNat 16 (w 0 / 2 ^ 32), BitVec.ofNat 13 (w 0 / 2 ^ 48), BitVec.ofNat 32 (w 1),
      BitVec.ofNat 32 (w 1 / 2 ^ 32), BitVec.ofNat 32 (w 2), BitVec.ofNat 32 (w 2 / 2 ^ 32), BitVec.ofNat 16 (w 3),
      BitVec.ofNat 16 (w 3 / 2 ^ 16)⟩ := by
  intro w
  have hr := r.isLt
  have h := (imageParts_saved k n live a).rings.block (fun x _ => ringBytes_length x) (toList_getElem? k.rings _ hr)
  generalize k.rings[r.val] = x at h
  rw [ringBytes, List.append_assoc, List.append_assoc] at h
  obtain ⟨h0, h⟩ := h.split (leBytes_length ..)
  obtain ⟨h1, h⟩ := h.split (leBytes_length ..)
  obtain ⟨h2, h3⟩ := h.split (leBytes_length ..)
  have w0 : w 0 = _ := hb.num h0 (by omega)
  have w1 : w 1 = _ := hb.num h1 (by omega)
  have w2 : w 2 = _ := hb.num h2 (by omega)
  have w3 : w 3 = _ := hb.num h3 (by omega)
  have b1 : x.base.toNat < 2 ^ 22 := x.base.isLt
  have b2 : x.slotsz.toNat < 2 ^ 16 := x.slotsz.isLt
  have b3 : x.nslot.toNat < 2 ^ 13 := x.nslot.isLt
  have b4 : x.pclaim.toNat < 2 ^ 32 := x.pclaim.isLt
  have b5 : x.ppub.toNat < 2 ^ 32 := x.ppub.isLt
  have b6 : x.cclaim.toNat < 2 ^ 32 := x.cclaim.isLt
  have b7 : x.crel.toNat < 2 ^ 32 := x.crel.isLt
  have b8 : x.proda.toNat < 2 ^ 16 := x.proda.isLt
  have b9 : x.consa.toNat < 2 ^ 16 := x.consa.isLt
  have heq {m y : Nat} {v : BitVec m} (h : v.toNat = y % 2 ^ m) : v = BitVec.ofNat m y :=
    BitVec.eq_of_toNat_eq (by rw [BitVec.toNat_ofNat, h])
  rw [w0, w1, w2, w3, ← heq (v := x.base) (by omega), ← heq (v := x.slotsz) (by omega), ← heq (v := x.nslot) (by omega),
    ← heq (v := x.pclaim) (by omega), ← heq (v := x.ppub) (by omega), ← heq (v := x.cclaim) (by omega),
    ← heq (v := x.crel) (by omega), ← heq (v := x.proda) (by omega), ← heq (v := x.consa) (by omega)]

theorem translations_saved (i : Fin 1024) : let w (j : Nat) : Nat := slotNum b (0x240280 + 16 * i.val + 8 * j) 8
    k.btm[i.val] = ⟨BitVec.ofNat 16 (w 0), BitVec.ofNat 16 (w 0 / 2 ^ 16), BitVec.ofNat 32 (w 0 / 2 ^ 32), decide (has (w 1) 0), decide (has (w 1) 1)⟩ := by
  intro w
  have hi := i.isLt
  have h := (imageParts_saved k n live a).translations.block (fun x _ => btmBytes_length x) (toList_getElem? k.btm _ hi)
  generalize k.btm[i.val] = x at h
  rw [btmBytes] at h
  obtain ⟨h0, h1⟩ := h.split (leBytes_length ..)
  have w0 : w 0 = _ := hb.num h0 (by omega)
  have w1 : w 1 = _ := hb.num h1 (by omega)
  have b1 : x.slot.toNat < 2 ^ 16 := x.slot.isLt
  have b2 : x.ord.toNat < 2 ^ 16 := x.ord.isLt
  have b3 : x.handle.toNat < 2 ^ 32 := x.handle.isLt
  have hv := Bool.toNat_lt x.valid
  have hl := Bool.toNat_lt x.lock
  have heq {m y : Nat} {v : BitVec m} (h : v.toNat = y % 2 ^ m) : v = BitVec.ofNat m y :=
    BitVec.eq_of_toNat_eq (by rw [BitVec.toNat_ofNat, h])
  have hbit {v : Bool} {y : Nat} (h : v.toNat = y) : v = decide (y = 1) := by subst h; cases v <;> rfl
  have hvalid : x.valid = decide (has (w 1) 0) := hbit (y := w 1 / 2 ^ 0 % 2) (by omega)
  have hlock : x.lock = decide (has (w 1) 1) := hbit (y := w 1 / 2 ^ 1 % 2) (by omega)
  rw [← hvalid, ← hlock, w0, ← heq (v := x.slot) (by omega), ← heq (v := x.ord) (by omega), ← heq (v := x.handle) (by omega)]

theorem pointers_saved (i : Fin 256) : k.rp[i.val] = BitVec.ofNat 2 (slotNum b (0x244280 + i.val / 4) 1 / 4 ^ (i.val % 4)) := by
  have hi := i.isLt
  have h := (imageParts_saved k n live a).pointers.part (i.val / 4) 1 (by rw [leBytes_length]; omega)
  have hnum := hb _ _ h (by rw [List.length_take]; omega)
  rw [List.length_take, List.length_drop, leBytes_length, show min 1 (64 - i.val / 4) = 1 by omega] at hnum
  have hs : slotNum b (0x244280 + i.val / 4) 1 = _ := congrArg leVal hnum
  have hdigit := foldr_digits k.rp.toList i.val
  rw [getD_toList _ _ hi] at hdigit
  refine BitVec.eq_of_toNat_eq ?_
  rw [hs, leVal_slice _ (by omega), BitVec.toNat_ofNat, ← hdigit, ← digit_of_byte]
  rfl

/-! ## The directory and the streams -/

theorem imageDir_saved {j : Nat} {r : Nat × List Byte × Bool} (h : (dirtyImages k)[j]? = some r) :
    imageDir b j = r.1 + r.2.1.length / 64 * 2 ^ 16 + r.2.2.toNat * 2 ^ 23 ∧ imageDir b j % 1024 = r.1 ∧
      64 * (imageDir b j / 2 ^ 16 % 128) = r.2.1.length ∧ decide (has (imageDir b j) 23) = r.2.2 := by
  obtain ⟨hr, -, -, m, hm, hlen⟩ := mem_dirtyImages k (List.mem_of_getElem? h)
  obtain ⟨hj, -⟩ := List.getElem?_eq_some_iff.mp h
  have hn := dirtyImages_length k
  have hl := (imageParts_saved k n live a).directory.block (fun _ _ => leBytes_length ..) h
  have hraw := Bool.toNat_lt r.2.2
  have hd : imageDir b j = _ := hb.num hl (by omega)
  rw [Nat.mod_eq_of_lt (by omega)] at hd
  refine ⟨hd, by omega, by omega, ?_⟩
  have hx : imageDir b j / 2 ^ 23 % 2 = r.2.2.toNat := by omega
  refine (congrArg (fun y => decide (y = 1)) hx).trans ?_
  cases r.2.2 <;> rfl

theorem streamSum_saved {j : Nat} (hj : j ≤ (dirtyImages k).length) :
    64 * ((List.range j).map fun i => imageDir b i / 2 ^ 16 % 128).sum = (((dirtyImages k).take j).map fun r => r.2.1.length).sum := by
  induction j with
  | zero => rfl
  | succ j ih =>
    have hget := List.getElem?_eq_getElem (l := dirtyImages k) (i := j) (by omega)
    obtain ⟨-, -, hlen, -⟩ := imageDir_saved hb hget
    rw [List.range_succ, List.map_append, List.sum_append, List.take_add_one, hget, List.map_append, List.sum_append, Nat.mul_add, ih (by omega)]
    simpa using hlen

theorem stream_saved {j : Nat} {r : Nat × List Byte × Bool} (h : (dirtyImages k)[j]? = some r) :
    slotBytes b (imageStream b j) (64 * (imageDir b j / 2 ^ 16 % 128)) = r.2.1 := by
  obtain ⟨hj, -⟩ := List.getElem?_eq_some_iff.mp h
  obtain ⟨-, -, hlen, -⟩ := imageDir_saved hb h
  have hl := (imageParts_saved k n live a).streams.pick h
  have hn := dirtyImages_length k
  have hsum : (((dirtyImages k).take j).map fun r => r.2.1.length).sum + r.2.1.length ≤ 4096 * 768 := by
    have htake := streams_length ((dirtyImages k).take (j + 1)) fun r hr => (mem_dirtyImages k (List.mem_of_mem_take hr)).2.2.2
    rw [List.length_flatMap, List.take_add_one, h, List.map_append, List.sum_append] at htake
    simp only [List.length_append, List.length_take, Option.toList_some, List.length_singleton, List.map_singleton, List.sum_singleton] at htake
    omega
  rw [← streamSum_saved hb (by omega)] at hl hsum
  have := hb _ _ hl (by omega)
  rwa [hlen, imageStream, (imageRegions_saved hb).1]

theorem regions_saved {j : Nat} (hj : j < imageRegions b) : ∃ r : Fin 768, k.dirty.getLsbD r.val = true ∧ imageDir b j % 1024 = r.val ∧
    Memory.read k.spad (4096 * r.val) 4096 = zrDecode (decide (has (imageDir b j) 23))
      (slotBytes b (imageStream b j) (64 * (imageDir b j / 2 ^ 16 % 128))) := by
  rw [(imageRegions_saved hb).1] at hj
  obtain ⟨r, hget⟩ : ∃ r, (dirtyImages k)[j]? = some r := ⟨_, List.getElem?_eq_getElem hj⟩
  obtain ⟨hr, hd, he, -⟩ := mem_dirtyImages k (List.mem_of_getElem? hget)
  obtain ⟨-, hmod, -, hraw⟩ := imageDir_saved hb hget
  refine ⟨⟨r.1, hr⟩, hd, hmod, ?_⟩
  rw [stream_saved hb hget, hraw, he, zrDecode_zrEncode (read_length ..)]

/-- The image of a saved slot is what the core holds (R169). -/
theorem imageHolds_saved : ImageHolds b k where
  dirty := dirty_saved hb
  rings := rings_saved hb
  translations := translations_saved hb
  pointers := pointers_saved hb
  regions _ _ j hj := by
    obtain ⟨r, -, hmod, hread⟩ := regions_saved hb hj
    rw [hmod, hread]

/-- The directory lists the dirty regions. -/
theorem directory_saved (r : Fin 768) : k.dirty.getLsbD r.val = true ↔ ∃ j, j < imageRegions b ∧ imageDir b j % 1024 = r.val := by
  constructor
  · intro h
    have hmem : (r.val, zrEncode (Memory.read k.spad (4096 * r.val) 4096)) ∈ dirtyImages k := by
      rw [dirtyImages_eq]
      exact List.mem_map.mpr ⟨r.val, List.mem_filter.mpr ⟨List.mem_range.mpr r.isLt, h⟩, rfl⟩
    obtain ⟨j, hj⟩ := List.mem_iff_getElem?.mp hmem
    obtain ⟨hlt, -⟩ := List.getElem?_eq_some_iff.mp hj
    exact ⟨j, by rwa [(imageRegions_saved hb).1], (imageDir_saved hb hj).2.1⟩
  · rintro ⟨j, hj, hmod⟩
    obtain ⟨r', hd, hmod', -⟩ := regions_saved hb hj
    rwa [← hmod, hmod']

/-- In ascending order. -/
theorem directory_ascending {i j : Nat} (hij : i < j) (hj : j < imageRegions b) : imageDir b i % 1024 < imageDir b j % 1024 := by
  rw [(imageRegions_saved hb).1] at hj
  have hi := List.getElem?_eq_getElem (l := dirtyImages k) (hij.trans hj)
  have hj' := List.getElem?_eq_getElem (l := dirtyImages k) hj
  rw [(imageDir_saved hb hi).2.1, (imageDir_saved hb hj').2.1]
  exact List.pairwise_iff_getElem.mp (dirtyImages_ascending k) i j _ _ hij

end image

end Sys2Proof.Proofs

namespace Sys2Proof.Proofs
open Sys2Proof Sys2Proof.Machine Sys2Proof.Claims

/-! ## MX's working state in a slot (R229, R273; log entry 12) -/

theorem inTy_code (t : InTy) : (inTy (inTyCode t)).toOption.getD .e4m3 = t := by cases t <;> rfl
theorem inTyCode_lt (t : InTy) : inTyCode t < 2 ^ 8 := by cases t <;> decide
theorem shape_code (t : Shape) : (shape (shapeCode t)).toOption.getD .s11 = t := by cases t <;> rfl
theorem shapeCode_lt (t : Shape) : shapeCode t < 2 ^ 8 := by cases t <;> decide

/-- A field of a word, by its value. -/
theorem ofNat_field {m y : Nat} {v : BitVec m} (h : y % 2 ^ m = v.toNat) : BitVec.ofNat m y = v :=
  BitVec.eq_of_toNat_eq (by rw [BitVec.toNat_ofNat, h])

theorem wf_ofNat {y : Nat} (hy : y < 2 ^ 64) (lo w : Nat) : wf (BitVec.ofNat 64 y) lo w = y / 2 ^ lo % 2 ^ w := by
  rw [wf, fld, BitVec.toNat_ofNat, Nat.mod_eq_of_lt hy]

/-- The seven words of MX's state. -/
def mxNum (x : MxState) : Nat → Nat
  | 0 => inTyCode x.wty + x.keep.val * 2 ^ 8 + shapeCode x.shape * 2 ^ 16 + x.stream.toNat * 2 ^ 32
  | 1 => x.dsts.length
  | 2 => x.epi.csk.toNat + x.epi.rsk.toNat * 2 ^ 3 + x.epi.ben.toNat * 2 ^ 6 + x.epi.act.toNat * 2 ^ 7 + x.epi.ofmt.toNat * 2 ^ 11 +
      x.epi.soff.toNat * 2 ^ 16
  | 3 => x.epi.csaddr.toNat + x.epi.baddr.toNat * 2 ^ 32
  | 4 => x.epi.rsaddr.toNat + x.cfg.nrows.toNat * 2 ^ 32 + x.cfg.pfmt.toNat * 2 ^ 40
  | 5 => x.cfg.sscl.toNat + x.cfg.slope.toNat * 2 ^ 32
  | 6 => x.cfg.qpos0.toNat + x.cfg.kpos.toNat * 2 ^ 21 + x.cfg.kend.toNat * 2 ^ 42
  | _ => 0

section fields
variable (x : MxState)

theorem wb_field {y i : Nat} (hi : i < 64) {v : Bool} (h : y / 2 ^ i % 2 = v.toNat) : wb (BitVec.ofNat 64 y) i = v := by
  rw [wb_ofNat _ hi]
  refine (congrArg (fun z => decide (z = 1)) h).trans ?_
  cases v <;> rfl

theorem extract_field {y lo m : Nat} (hm : lo + m ≤ 64) {v : BitVec m} (h : y / 2 ^ lo % 2 ^ m = v.toNat) :
    (BitVec.ofNat 64 y).extractLsb' lo m = v := by
  rw [extract_ofNat _ hm]
  exact ofNat_field h

/-- The types, the gang and the stream of MX's state. -/
theorem mxNum_head : mxNum x 0 < 2 ^ 64 ∧ (inTy (wf (BitVec.ofNat 64 (mxNum x 0)) 0 8)).toOption.getD .e4m3 = x.wty ∧
    Fin.ofNat 9 (wf (BitVec.ofNat 64 (mxNum x 0)) 8 8) = x.keep ∧
    (shape (wf (BitVec.ofNat 64 (mxNum x 0)) 16 8)).toOption.getD .s11 = x.shape ∧
    (BitVec.ofNat 64 (mxNum x 0)).extractLsb' 32 16 = x.stream := by
  have hty := inTyCode_lt x.wty
  have hkeep := x.keep.isLt
  have hshape := shapeCode_lt x.shape
  have hstream : x.stream.toNat < 2 ^ 16 := x.stream.isLt
  have hlt : mxNum x 0 < 2 ^ 64 := by
    rw [mxNum]
    omega
  have h0 : mxNum x 0 / 2 ^ 0 % 2 ^ 8 = inTyCode x.wty := by
    rw [mxNum]
    omega
  have h8 : mxNum x 0 / 2 ^ 8 % 2 ^ 8 = x.keep.val := by
    rw [mxNum]
    omega
  have h16 : mxNum x 0 / 2 ^ 16 % 2 ^ 8 = shapeCode x.shape := by
    rw [mxNum]
    omega
  have h32 : mxNum x 0 / 2 ^ 32 % 2 ^ 16 = x.stream.toNat := by
    rw [mxNum]
    omega
  rw [wf_ofNat hlt, wf_ofNat hlt, wf_ofNat hlt, h0, h8, h16]
  exact ⟨hlt, inTy_code _, Fin.ofNat_val_eq_self _, shape_code _, extract_field (by omega) h32⟩

/-- The epilogue's fields, apart from its lanes. -/
theorem mxNum_epilogue : mxNum x 2 < 2 ^ 64 ∧ mxNum x 3 < 2 ^ 64 ∧ (BitVec.ofNat 64 (mxNum x 2)).extractLsb' 0 3 = x.epi.csk ∧
    (BitVec.ofNat 64 (mxNum x 2)).extractLsb' 3 3 = x.epi.rsk ∧ wb (BitVec.ofNat 64 (mxNum x 2)) 6 = x.epi.ben ∧
    (BitVec.ofNat 64 (mxNum x 2)).extractLsb' 7 4 = x.epi.act ∧ (BitVec.ofNat 64 (mxNum x 2)).extractLsb' 11 4 = x.epi.ofmt ∧
    (BitVec.ofNat 64 (mxNum x 2)).extractLsb' 16 13 = x.epi.soff ∧ (BitVec.ofNat 64 (mxNum x 3)).extractLsb' 0 22 = x.epi.csaddr ∧
    (BitVec.ofNat 64 (mxNum x 3)).extractLsb' 32 22 = x.epi.baddr := by
  have hcsk : x.epi.csk.toNat < 2 ^ 3 := x.epi.csk.isLt
  have hrsk : x.epi.rsk.toNat < 2 ^ 3 := x.epi.rsk.isLt
  have hben := Bool.toNat_lt x.epi.ben
  have hact : x.epi.act.toNat < 2 ^ 4 := x.epi.act.isLt
  have hofmt : x.epi.ofmt.toNat < 2 ^ 4 := x.epi.ofmt.isLt
  have hsoff : x.epi.soff.toNat < 2 ^ 13 := x.epi.soff.isLt
  have hcsaddr : x.epi.csaddr.toNat < 2 ^ 22 := x.epi.csaddr.isLt
  have hbaddr : x.epi.baddr.toNat < 2 ^ 22 := x.epi.baddr.isLt
  simp only [mxNum]
  exact ⟨by omega, by omega, extract_field (by omega) (by omega), extract_field (by omega) (by omega), wb_field (by omega) (by omega),
    extract_field (by omega) (by omega), extract_field (by omega) (by omega), extract_field (by omega) (by omega),
    extract_field (by omega) (by omega), extract_field (by omega) (by omega)⟩

/-- The configuration, and the address of the row scales. -/
theorem mxNum_config : mxNum x 4 < 2 ^ 64 ∧ mxNum x 5 < 2 ^ 64 ∧ mxNum x 6 < 2 ^ 64 ∧
    (BitVec.ofNat 64 (mxNum x 4)).extractLsb' 0 22 = x.epi.rsaddr ∧ (BitVec.ofNat 64 (mxNum x 4)).extractLsb' 32 8 = x.cfg.nrows ∧
    wb (BitVec.ofNat 64 (mxNum x 4)) 40 = x.cfg.pfmt ∧ (BitVec.ofNat 64 (mxNum x 5)).extractLsb' 0 32 = x.cfg.sscl ∧
    (BitVec.ofNat 64 (mxNum x 5)).extractLsb' 32 32 = x.cfg.slope ∧ (BitVec.ofNat 64 (mxNum x 6)).extractLsb' 0 21 = x.cfg.qpos0 ∧
    (BitVec.ofNat 64 (mxNum x 6)).extractLsb' 21 21 = x.cfg.kpos ∧ (BitVec.ofNat 64 (mxNum x 6)).extractLsb' 42 21 = x.cfg.kend := by
  have hrsaddr : x.epi.rsaddr.toNat < 2 ^ 22 := x.epi.rsaddr.isLt
  have hnrows : x.cfg.nrows.toNat < 2 ^ 8 := x.cfg.nrows.isLt
  have hpfmt := Bool.toNat_lt x.cfg.pfmt
  have hsscl : x.cfg.sscl.toNat < 2 ^ 32 := x.cfg.sscl.isLt
  have hslope : x.cfg.slope.toNat < 2 ^ 32 := x.cfg.slope.isLt
  have hqpos0 : x.cfg.qpos0.toNat < 2 ^ 21 := x.cfg.qpos0.isLt
  have hkpos : x.cfg.kpos.toNat < 2 ^ 21 := x.cfg.kpos.isLt
  have hkend : x.cfg.kend.toNat < 2 ^ 21 := x.cfg.kend.isLt
  simp only [mxNum]
  exact ⟨by omega, by omega, by omega, extract_field (by omega) (by omega), extract_field (by omega) (by omega),
    wb_field (by omega) (by omega), extract_field (by omega) (by omega), extract_field (by omega) (by omega),
    extract_field (by omega) (by omega), extract_field (by omega) (by omega), extract_field (by omega) (by omega)⟩

end fields

section mx
variable {k : Core} {n : Nat} {live : Word} {a : Option (BitVec 48)} {b : Nat → Byte} (hb : Shows b (savePatch k n live a))

/-- Where the parts of MX's state lie, and their sizes, with d destinations of a drain. -/
def mxPlaces (d : Nat) : List (Nat × Nat) :=
  [(0x700000, 8), (0x700008, 8), (0x700010, 8), (0x700018, 8), (0x700020, 8), (0x700028, 8), (0x700030, 8), (0x700100, 512),
   (0x700300, 512), (0x700500, 2 * d), (0x701000, 0x8000)]

theorem mxPatch_places (x : MxState) : (mxPatch x []).map (fun q => (q.1, q.2.length)) = mxPlaces x.dsts.length := by
  have hcs := flatMap_length (fun l : Lane => leBytes_length 4 l.toNat) x.epi.cs.toList
  have hbias := flatMap_length (fun l : Lane => leBytes_length 4 l.toNat) x.epi.bias.toList
  have hdsts := flatMap_length (fun d : BitVec 10 => leBytes_length 2 d.toNat) x.dsts
  have hw := flatMap_length (fun r : BitVec 2048 => leBytes_length 256 r.toNat) x.w.toList
  rw [Vector.length_toList] at hcs hbias hw
  simp only [mxPatch, mxPlaces, tilePatch, List.zipIdx_nil, List.map_nil, List.append_nil, List.map_cons, leBytes_length, hcs, hbias,
    hdsts, hw, mxAt, Nat.reduceAdd, Nat.reduceMul]

theorem mxPlaces_apart {d : Nat} (h : d ≤ 1408) : (mxPlaces d).Pairwise fun x y => x.1 + x.2 ≤ y.1 ∨ y.1 + y.2 ≤ x.1 := by
  simp only [mxPlaces, List.pairwise_cons, List.forall_mem_cons, List.not_mem_nil, false_imp_iff, implies_true, List.Pairwise.nil, and_true]
  omega

theorem mxPlaces_low {d : Nat} (h : d ≤ 1408) : ∀ x ∈ mxPlaces d, x.1 + x.2 ≤ 0x710000 := by
  simp only [mxPlaces, List.forall_mem_cons, List.not_mem_nil, false_imp_iff, implies_true, and_true]
  omega

theorem Leaves.mx (hd : k.mx.dsts.length ≤ 1408) {o : Nat} {bs : List Byte} (h : (o, bs) ∈ mxPatch k.mx []) :
    Leaves (savePatch k n live a) o bs := by
  refine Leaves.inPlace k n live a (i := 12) rfl (Leaves.mem ?_ h) ?_
  · rw [mxPatch_places]
    exact mxPlaces_apart hd
  · have := List.mem_map_of_mem (f := fun q : Nat × List Byte => (q.1, q.2.length)) h
    rw [mxPatch_places] at this
    exact mxPlaces_low hd _ this

include hb

theorem word_mx (hd : k.mx.dsts.length ≤ 1408) {i : Nat} (hi : i < 7) :
    SlotRead.w (slotBytes b) (mxAt + 8 * i) = BitVec.ofNat 64 (mxNum k.mx i) := by
  have hmem : (mxAt + 8 * i, leBytes 8 (mxNum k.mx i)) ∈ mxPatch k.mx [] := by
    match i, hi with
    | 0, _ | 1, _ | 2, _ | 3, _ | 4, _ | 5, _ | 6, _ => simp [mxPatch, mxNum]
  have hmx : mxAt = 0x700000 := rfl
  obtain ⟨h0, -⟩ := mxNum_head k.mx
  obtain ⟨h2, h3, -⟩ := mxNum_epilogue k.mx
  obtain ⟨h4, h5, h6, -⟩ := mxNum_config k.mx
  have hlt : mxNum k.mx i < 2 ^ 64 := by
    match i, hi with
    | 0, _ => exact h0
    | 1, _ => exact Nat.lt_of_le_of_lt hd (by decide)
    | 2, _ => exact h2
    | 3, _ => exact h3
    | 4, _ => exact h4
    | 5, _ => exact h5
    | 6, _ => exact h6
  rw [rd_w, hb.num (Leaves.mx hd hmem) (by omega)]
  exact congrArg _ (Nat.mod_eq_of_lt hlt)

/-- Entry i of a list of numbers of m bytes each. -/
theorem entry_mx {α : Type} {l : List α} {f : α → Nat} {m : Nat} (hd : k.mx.dsts.length ≤ 1408) {o : Nat}
    (h : (o, l.flatMap fun x => leBytes m (f x)) ∈ mxPatch k.mx []) {i : Nat} {x : α} (hx : l[i]? = some x) (ho : o + m * i + m ≤ 2 ^ 23) :
    leVal (slotBytes b (o + m * i) m) = f x % 256 ^ m :=
  hb.num ((Leaves.mx hd h).block (fun _ _ => leBytes_length ..) hx) ho

theorem lanes_mx (hd : k.mx.dsts.length ≤ 1408) {o : Nat} {v : Vector Lane 128}
    (h : (o, v.toList.flatMap fun l => leBytes 4 l.toNat) ∈ mxPatch k.mx []) (ho : o ≤ 0x710000) :
    (Vector.ofFn fun (i : Fin 128) => BitVec.ofNat 32 (leVal (slotBytes b (o + 4 * i.val) 4))) = v := by
  refine Vector.ext fun i hi => ?_
  rw [Vector.getElem_ofFn, entry_mx hb hd h (toList_getElem? v i hi) (by omega)]
  exact ofNat_bytes (by omega) _

theorem weights_mx (hd : k.mx.dsts.length ≤ 1408) :
    (Vector.ofFn fun (i : Fin 128) => BitVec.ofNat 2048 (leVal (slotBytes b (mxAt + 0x1000 + 256 * i.val) 256))) = k.mx.w := by
  have hmx : mxAt = 0x700000 := rfl
  refine Vector.ext fun i hi => ?_
  rw [Vector.getElem_ofFn, entry_mx hb hd (l := k.mx.w.toList) (f := BitVec.toNat) (by simp [mxPatch]) (toList_getElem? k.mx.w i hi)
    (by omega)]
  exact ofNat_bytes (by omega) _

theorem dsts_mx (hd : k.mx.dsts.length ≤ 1408) :
    ((List.range k.mx.dsts.length).map fun i => BitVec.ofNat 10 (leVal (slotBytes b (mxAt + 0x500 + 2 * i) 2))) = k.mx.dsts := by
  have hmx : mxAt = 0x700000 := rfl
  refine List.ext_getElem (by rw [List.length_map, List.length_range]) fun i hi hi' => ?_
  rw [List.getElem_map, List.getElem_range, entry_mx hb hd (l := k.mx.dsts) (f := BitVec.toNat) (by simp [mxPatch])
    (List.getElem?_eq_getElem hi') (by omega)]
  have hlt : k.mx.dsts[i].toNat < 2 ^ 10 := k.mx.dsts[i].isLt
  exact ofNat_field (by omega)

/-- MX's working state is back, but for a pairing it had presented and the entries it had taken, which are in Q2 (R279;
log entry 49). -/
theorem readMx_saved (hd : k.mx.dsts.length ≤ 1408) : readMx (slotBytes b) = { k.mx with present := none, taken := [] } := by
  obtain ⟨-, hwty, hkeep, hshape, hstream⟩ := mxNum_head k.mx
  obtain ⟨-, -, hcsk, hrsk, hben, hact, hofmt, hsoff, hcsaddr, hbaddr⟩ := mxNum_epilogue k.mx
  obtain ⟨-, -, -, hrsaddr, hnrows, hpfmt, hsscl, hslope, hqpos0, hkpos, hkend⟩ := mxNum_config k.mx
  have hcs := lanes_mx hb hd (o := mxAt + 0x100) (v := k.mx.epi.cs) (by simp [mxPatch]) (by decide)
  have hbias := lanes_mx hb hd (o := mxAt + 0x300) (v := k.mx.epi.bias) (by simp [mxPatch]) (by decide)
  have hlen : wf (BitVec.ofNat 64 (mxNum k.mx 1)) 0 16 = k.mx.dsts.length := by
    have hlt : mxNum k.mx 1 < 2 ^ 64 := Nat.lt_of_le_of_lt hd (by decide)
    rw [wf_ofNat hlt, mxNum]
    omega
  unfold readMx
  dsimp only
  rw [word_mx hb hd (i := 0) (by decide), word_mx hb hd (i := 1) (by decide), word_mx hb hd (i := 2) (by decide),
    word_mx hb hd (i := 3) (by decide), word_mx hb hd (i := 4) (by decide), word_mx hb hd (i := 5) (by decide),
    word_mx hb hd (i := 6) (by decide), hwty, hkeep, hshape, hstream, hlen, dsts_mx hb hd, weights_mx hb hd, hcs, hbias, hcsk, hrsk, hben, hact,
    hofmt, hsoff, hcsaddr, hbaddr, hrsaddr, hnrows, hpfmt, hsscl, hslope, hqpos0, hkpos, hkend]

end mx

end Sys2Proof.Proofs

namespace Sys2Proof.Proofs
open Sys2Proof Sys2Proof.Machine Sys2Proof.Claims

/-! ## A save stays in its slot (R229) -/

/-- The patches end at offset hi or below. -/
def Below (hi : Nat) (ps : Patch) : Prop := ∀ q ∈ ps, q.1 + q.2.length ≤ hi

section below
variable {hi n : Nat} {ps : Patch}

theorem below_single {q : Nat × List Byte} (h : q.1 + q.2.length ≤ hi) : Below hi [q] := List.forall_mem_singleton.mpr h

theorem below_ifLive {live : Word} {k : Nat} (h : Below hi ps) : Below hi (ifLive live k ps) := by
  unfold ifLive
  split
  · exact h
  · exact nofun

theorem below_map {f : Nat → Nat × List Byte} (h : ∀ k, k < n → (f k).1 + (f k).2.length ≤ hi) : Below hi ((List.range n).map f) := by
  intro q hq
  obtain ⟨k, hk, rfl⟩ := List.mem_map.mp hq
  exact h k (List.mem_range.mp hk)

theorem below_flatMap {f : Nat → Patch} (h : ∀ k, k < n → Below hi (f k)) : Below hi ((List.range n).flatMap f) := by
  intro q hq
  obtain ⟨k, hk, hq⟩ := List.mem_flatMap.mp hq
  exact h k (List.mem_range.mp hk) q hq

theorem below_tilePatch {a : Nat} {ts : List Tile} (h : a + 4096 * ts.length ≤ hi) : Below hi (tilePatch a ts) := by
  intro q hq
  obtain ⟨-, hl, hend⟩ := mem_tilePatch hq
  omega

end below

/-- A save of a core whose queues hold no more than they can ends in its slot. -/
theorem savePatch_below {k : Core} (hroom : withinRoom k) (n : Nat) (live : Word) (a : Option (BitVec 48)) :
    Below (2 ^ 23) (savePatch k n live a) := by
  obtain ⟨hq, hq2, hout, hdsts⟩ := hroom
  have hword (l : List Word) : (l.flatMap wordBytes).length = 8 * l.length := flatMap_length (fun _ => leBytes_length ..) l
  have hentry (l : List (BitVec 128)) : (l.flatMap fun x => leBytes 16 x.toNat).length = 16 * l.length :=
    flatMap_length (fun _ => leBytes_length ..) l
  have hmask (l : List (BitVec 1024)) : (l.flatMap fun x => leBytes 128 x.toNat).length = 128 * l.length :=
    flatMap_length (fun _ => leBytes_length ..) l
  have hmore : (if wb live 18 then (k.qt[2]).drop 4 else []).length ≤ 240 := by
    split
    · rw [List.length_drop]
      omega
    · exact Nat.zero_le _
  rw [savePatch_eq]
  intro q hmem
  obtain ⟨s, hs, hqs⟩ := List.mem_flatMap.mp hmem
  revert q
  have hall : ∀ s ∈ segments k n live a, Below (2 ^ 23) s.2.2 := by
    simp only [segments, List.forall_mem_cons]
    refine ⟨fun q hmem => ?_, below_ifLive (below_single ?_), below_ifLive (below_map fun i hi => ?_), below_ifLive (below_single ?_),
      below_flatMap fun i hi => below_ifLive (below_single ?_), below_map fun i hi => ?_,
      below_flatMap fun i hi => below_ifLive (below_tilePatch ?_), below_ifLive (below_tilePatch ?_), below_ifLive (below_tilePatch ?_),
      below_flatMap fun i hi => below_ifLive (below_tilePatch ?_), below_flatMap fun i hi => below_ifLive (below_single ?_),
      below_single ?_, fun q hmem => ?_, below_tilePatch ?_, nofun⟩
    · have := List.mem_map_of_mem (f := fun q : Nat × List Byte => (q.1, q.2.length)) hmem
      rw [ctrlPatch_places] at this
      have := ctrlPlaces_low _ this
      dsimp only at this
      omega
    · rw [hword, Vector.length_toList]
      omega
    · rw [hword, Vector.length_toList]
      omega
    · rw [hmask, List.length_drop, Vector.length_toList]
      omega
    · have := (hq ⟨i, hi⟩).2
      dsimp only at this
      rw [hword, getD_toList _ _ hi]
      omega
    · have := hout ⟨i, hi⟩
      dsimp only at this
      rw [hentry, getD_toList _ _ hi]
      omega
    · rw [List.length_take]
      omega
    · rw [Vector.length_toList]
      omega
    · rw [Vector.length_toList]
      omega
    · rw [List.length_take]
      omega
    · rw [read_length]
      omega
    · have := imageBytes_length k
      dsimp only
      omega
    · have := List.mem_map_of_mem (f := fun q : Nat × List Byte => (q.1, q.2.length)) hmem
      rw [mxPatch_places] at this
      have := mxPlaces_low hdsts _ this
      dsimp only at this
      omega
    · omega
  exact fun q _ hqs => hall s hs q hqs

/-! ## What a save writes (R169, R229, R230) -/

section saved
variable {k : Core} {n : Nat} {live : Word} {a : Option (BitVec 48)} {b : Nat → Byte} (hb : Shows b (savePatch k n live a))
include hb

/-- The head of CTRL: the reason, the version, the live mask and the record. -/
theorem head_saved : slotNum b 0 1 = n % 256 ∧ slotNum b 1 1 = 1 ∧ slotNum b 8 8 = live.toNat ∧ slotNum b 0x10 6 = (a.getD 0).toNat := by
  have hmem {q : Nat × List Byte} (h : q ∈ [(0x000, [BitVec.ofNat 8 n, 1]), (0x008, wordBytes live), (0x010, leBytes 6 (a.getD 0).toNat)]) :
      q ∈ ctrlPatch k n live a := by
    rw [ctrlPatch, List.mem_append, List.mem_append, List.mem_append]
    exact .inl (.inl (.inl h))
  have hl := Leaves.ctrl k n live a (hmem List.mem_cons_self)
  have h0 : slotBytes b 0 1 = [BitVec.ofNat 8 n] := hb _ _ (hl.part 0 1 (by simp)) (by simp)
  have h1 : slotBytes b 1 1 = [1] := hb _ _ (hl.part 1 1 (by simp)) (by simp)
  have hrec : (a.getD 0).toNat < 256 ^ 6 := (a.getD 0).isLt
  refine ⟨?_, ?_, slotNum_ctrl_word hb (hmem (by simp)), ?_⟩
  · rw [slotNum, h0, leVal, leVal, BitVec.toNat_ofNat]
    rfl
  · rw [slotNum, h1]
    rfl
  · rw [slotNum_ctrl hb (w := 6) (v := (a.getD 0).toNat) (hmem (by simp)), Nat.mod_eq_of_lt hrec]

end saved

/-- A save changes device memory and what reports it, and nothing else. -/
theorem saveSlot_keeps (m : Mach) (c : Fin 64) (g : Fin 256) (n : Nat) (live : Word) (a : Option (BitVec 48)) :
    (m.saveSlot c g n live a).cores = m.cores ∧ (m.saveSlot c g n live a).ctxs = m.ctxs ∧ (m.saveSlot c g n live a).dies = m.dies ∧
      (m.saveSlot c g n live a).ops = m.ops := by
  rw [saveSlot_eq]
  exact ⟨slotWrites_keeps _ _ _ _ Mach.cores fun m o bs => ctxWrite_cores m o c bs,
    slotWrites_keeps _ _ _ _ Mach.ctxs fun m o bs => ctxWrite_ctxs m o c bs,
    slotWrites_keeps _ _ _ _ Mach.dies fun m o bs => ctxWrite_dies m o c bs,
    slotWrites_keeps _ _ _ _ Mach.ops fun m o bs => ctxWrite_ops m o c bs⟩

theorem saveSlot_outside {m : Mach} {c : Fin 64} {g : Fin 256} (hroom : withinRoom (m.core g)) (n : Nat) (live : Word)
    (a : Option (BitVec 48)) {x : Nat}
    (hx : x < (m.ctx c).cur.savebase.toNat + 2 ^ 23 * g.val ∨ (m.ctx c).cur.savebase.toNat + 2 ^ 23 * (g.val + 1) ≤ x) :
    Memory.read1 (m.saveSlot c g n live a).dev x = Memory.read1 m.dev x := by
  rw [saveSlot_eq]
  refine read1_slotWrites_outside m c _ _ fun p hp => ?_
  have := savePatch_below hroom n live a p hp
  have hat : m.slotAt c g = (m.ctx c).cur.savebase.toNat + 2 ^ 23 * g.val := rfl
  omega

/-! ## The life of a task (R43, R44, R73, R169, R229, R230) -/

/-- Settles O50: each clause by the lemma about its act; what a save writes is read off the patches of its slot, and what a
resumption reads is what the slot's bytes say. -/
theorem tasksStartStopAndLeave : Obligations.TasksStartStopAndLeave := by
  unfold Obligations.TasksStartStopAndLeave
  refine ⟨fun s g hb hn i hi => task_none_keeps hb hn i hi, fun s g t r hb hp hg hl _ => ?_, leftovers_eq_false, fun s g t hb ht hr =>
    execTaskRetire_of_task hb ht hr, fun s g hb => ⟨safePointStop_of_moving hb, fun _ _ => safePointStop_of_stopped hb⟩,
    fun m t => ⟨fun _ i => saveReason_of_halt i, saveReason_of_running⟩, fun s g t hb ht => execTaskSave_of_task hb ht,
    fun m c n l hs => saveReadsAll_of_sound hs c n l, fun m c g n live a hmay => ?_⟩
  · intro good
    refine ⟨startOn_starts hb hp hl, fun hr => ?_, fun hr => ?_, resumeOn_resumes hb hp hl, placed_traps hb hp hg hl⟩
    · rw [execTaskStart_of_placed hb hp, if_neg hr]
      rfl
    · rw [execTaskResume_of_placed hb hp, if_pos hr]
      rfl
  · intro m' k b
    obtain ⟨hcores, hctxs, hdies, hops⟩ := saveSlot_keeps m c g n live a
    have hb : Shows b (savePatch k n live a) := shows_slotWrites (savePatch k n live a) hmay
    obtain ⟨hreason, hversion, hlive, hrecord⟩ := head_saved hb
    exact ⟨hcores, hctxs, hdies, hops, ctrlHolds_saved hb, filesHold_saved hb, imageHolds_saved hb, hreason, hversion, hlive, hrecord,
      walk_saved hb, (imageRegions_saved hb).2, directory_saved hb, fun _ _ hij hj => directory_ascending hb hij hj,
      fun r _ => (zrDecode_zrEncode (read_length ..)).symm, readMx_saved hb, fun hroom x hx => saveSlot_outside hroom n live a hx⟩

end Sys2Proof.Proofs

namespace Sys2Proof.Proofs
open Sys2Proof Sys2Proof.Machine Sys2Proof.Claims

/-! ## Words written out in the spec -/

/-- Settles O54: each word is decoded. -/
theorem decodingSanity : Obligations.DecodingSanity := by
  unfold Obligations.DecodingSanity
  decide

/-! ## Fields of a sum (R4)

A word is a sum of fields, the highest first. What stands to the left of a field is `Clear` of every bit up to its top, and what
stands to the right `FitsIn` the bits below it, so a field is read back alone. -/

/-- x fits in n bits. -/
def FitsIn (n x : Nat) : Prop := x < 2 ^ n

/-- Nothing of s lies below bit n. -/
def Clear (n s : Nat) : Prop := 2 ^ n ∣ s

theorem FitsIn.mono {n k x : Nat} (h : FitsIn n x) (hk : n ≤ k) : FitsIn k x := h.trans_le (Nat.pow_le_pow_right two_pos hk)

@[simp] theorem fitsIn_put {n k x : Nat} (hk : k ≤ n) : FitsIn n (put x k) ↔ FitsIn (n - k) x := by
  obtain ⟨c, rfl⟩ := Nat.exists_eq_add_of_le hk
  rw [FitsIn, FitsIn, put, Nat.add_sub_cancel_left, pow_add, Nat.mul_comm, Nat.mul_lt_mul_left (Nat.two_pow_pos k)]

@[simp] theorem fitsIn_fin {m n : Nat} (i : Fin m) (h : m ≤ 2 ^ n) : FitsIn n i.val := i.isLt.trans_le h

@[simp] theorem fitsIn_bitVec {w n : Nat} (v : BitVec w) (h : w ≤ n) : FitsIn n v.toNat := FitsIn.mono v.isLt h

@[simp] theorem fitsIn_bool {n : Nat} (b : Bool) (h : 1 ≤ n) : FitsIn n b.toNat := FitsIn.mono (n := 1) (Bool.toNat_lt b) h

@[simp] theorem clear_put {n k : Nat} (x : Nat) (h : n ≤ k) : Clear n (put x k) := Dvd.dvd.mul_left (pow_dvd_pow 2 h) x

@[simp] theorem clear_add_put {n k : Nat} (s x : Nat) (h : n ≤ k) : Clear n (s + put x k) ↔ Clear n s :=
  (Nat.dvd_add_iff_left (clear_put x h)).symm

@[simp] theorem clear_head {n : Nat} (l : Bool) (e o : Nat) (t : Tok) (h : n ≤ 31) : Clear n (head l e o t) := by
  simp [head, h, h.trans]

/-- Dividing by 2^lo loses what lies below a clear part's lowest bit j, where j ≤ lo. -/
theorem add_div_of_clear {j lo s x : Nat} (hs : Clear j s) (hx : FitsIn j x) (hj : j ≤ lo) : (s + x) / 2 ^ lo = s / 2 ^ lo := by
  obtain ⟨c, rfl⟩ := hs
  obtain ⟨d, rfl⟩ := Nat.exists_eq_add_of_le hj
  rw [pow_add, ← Nat.div_div_eq_div_mul, ← Nat.div_div_eq_div_mul, Nat.mul_add_div (Nat.two_pow_pos j), Nat.div_eq_of_lt hx,
    Nat.mul_div_cancel_left _ (Nat.two_pow_pos j), Nat.add_zero]

@[simp] theorem fld_clear_add {lo w s x : Nat} (hs : Clear (lo + w) s) : fld (s + x) lo w = fld x lo w := by
  obtain ⟨c, rfl⟩ := hs
  rw [fld, fld, pow_add, Nat.mul_assoc, Nat.mul_add_div (Nat.two_pow_pos lo), Nat.mul_add_mod]

@[simp] theorem fld_add_put_add_of_fitsIn {j lo w s y x : Nat} (hj : j ≤ lo) (hs : Clear j s) (hx : FitsIn j x) :
    fld (s + put y j + x) lo w = fld (s + put y j) lo w := by
  rw [fld, add_div_of_clear ((clear_add_put s y le_rfl).2 hs) hx hj, fld]

@[simp] theorem fld_put_add_of_fitsIn {j lo w y x : Nat} (hj : j ≤ lo) (hx : FitsIn j x) :
    fld (put y j + x) lo w = fld (put y j) lo w := by
  rw [fld, add_div_of_clear (clear_put y le_rfl) hx hj, fld]

@[simp] theorem fld_put {lo w x : Nat} (hx : FitsIn w x) : fld (put x lo) lo w = x := by
  rw [fld, put, Nat.mul_div_cancel _ (Nat.two_pow_pos lo), Nat.mod_eq_of_lt hx]

@[simp] theorem fld_zero {w x : Nat} (h : FitsIn w x) : fld x 0 w = x := by rw [fld, Nat.pow_zero, Nat.div_one, Nat.mod_eq_of_lt h]

@[simp] theorem fld_of_fitsIn {lo w x : Nat} (h : FitsIn lo x) : fld x lo w = 0 := by rw [fld, Nat.div_eq_of_lt h, Nat.zero_mod]

@[simp] theorem fld_of_clear {lo w s : Nat} (hs : Clear (lo + w) s) : fld s lo w = 0 := by
  rw [← Nat.add_zero s, fld_clear_add hs, fld_of_fitsIn (Nat.two_pow_pos lo)]

/-! ## What the decoder reads from a field (R75 to R92)

Every reader takes one field, and gives back what the encoder's code for it stands for. -/

@[simp] theorem fin32_eq (p lo : Nat) : fin32 p lo = Fin.ofNat 32 (fld p lo 5) := by
  ext
  simp [fin32, fld]

@[simp] theorem fin8_eq (p lo : Nat) : fin8 p lo = Fin.ofNat 8 (fld p lo 3) := by
  ext
  simp [fin8, fld]

@[simp] theorem fin64_eq (p lo : Nat) : fin64 p lo = Fin.ofNat 64 (fld p lo 6) := by
  ext
  simp [fin64, fld]

@[simp] theorem bv_eq (w p lo : Nat) : bv w p lo = BitVec.ofNat w (fld p lo w) := by
  apply BitVec.eq_of_toNat_eq
  simp [bv, fld]

@[simp] theorem bit_eq (p lo : Nat) : bit p lo = decide (fld p lo 1 = 1) := rfl

@[simp] theorem zero_eq (p lo w : Nat) : zero p lo w = if fld p lo w = 0 then .ok () else .error .reservedBits := rfl

@[simp] theorem short_false : short false = .ok () := rfl

@[simp] theorem long_true : long true = .ok () := rfl

@[simp] theorem ok_bind {α β : Type} (x : α) (f : α → Except Reject β) : ((Except.ok x : Except Reject α) >>= f) = f x := rfl

@[simp] theorem pure_eq_ok {α : Type} (x : α) : (pure x : Except Reject α) = .ok x := rfl

@[simp] theorem fitsIn_tokNum {n : Nat} (x : Option Engine) (h : 3 ≤ n) : FitsIn n (tokNum x) := by
  rcases x with _ | e
  · exact Nat.two_pow_pos n
  · exact FitsIn.mono (show tokNum (some e) < 2 ^ 3 by cases e <;> decide) h

@[simp] theorem tokCode_tokNum (x : Option Engine) : tokCode (tokNum x) = .ok x := by
  rcases x with _ | e
  · rfl
  · cases e <;> rfl

@[simp] theorem fitsIn_specCode {n : Nat} (s : VSpec) (h : 6 ≤ n) : FitsIn n (specCode s) := by
  refine FitsIn.mono (n := 6) ?_ h
  unfold FitsIn
  cases s <;> rw [specCode] <;> omega

@[simp] theorem spec_specCode (s : VSpec) : spec (specCode s) = .ok s := by
  cases s with
  | v n | w n | z n | q n =>
    revert n
    decide

@[simp] theorem maskReg_val (m : Fin 8) : maskReg m.val = .ok m := by
  revert m
  decide

@[simp] theorem fitsIn_ftyCode {n : Nat} (ty : FTy) (h : 3 ≤ n) : FitsIn n (ftyCode ty) :=
  FitsIn.mono (show ftyCode ty < 2 ^ 3 by cases ty <;> decide) h

@[simp] theorem fty_ftyCode (ty : FTy) : fty (ftyCode ty) = .ok ty := by cases ty <;> rfl

@[simp] theorem fitsIn_ityCode {n : Nat} (ty : ITy) (h : 3 ≤ n) : FitsIn n (ityCode ty) :=
  FitsIn.mono (show ityCode ty < 2 ^ 3 by cases ty <;> decide) h

@[simp] theorem ity_eq (p lo : Nat) : ity p lo = ityOf (fld p lo 3) := rfl

@[simp] theorem ityOf_ityCode (ty : ITy) : ityOf (ityCode ty) = ty := by cases ty <;> rfl

@[simp] theorem fitsIn_dtyCode {n : Nat} (ty : DTy) (h : 3 ≤ n) : FitsIn n (dtyCode ty) := by
  cases ty with
  | f ty => exact fitsIn_ftyCode ty h
  | i ty => exact fitsIn_ityCode ty h

@[simp] theorem fitsIn_dtyDom {n : Nat} (ty : DTy) (h : 1 ≤ n) : FitsIn n (dtyDom ty) :=
  FitsIn.mono (show dtyDom ty < 2 ^ 1 by cases ty <;> simp [dtyDom]) h

@[simp] theorem dty_dtyDom_dtyCode (ty : DTy) : dty (dtyDom ty) (dtyCode ty) = .ok ty := by
  cases ty with
  | f ty => simp [dty, dtyDom, dtyCode]
  | i ty => simp [dty, dtyDom, dtyCode]

@[simp] theorem fitsIn_condCode {n : Nat} (c : Cond) (h : 4 ≤ n) : FitsIn n (condCode c) :=
  FitsIn.mono (show condCode c < 2 ^ 4 by cases c <;> decide) h

@[simp] theorem cond_condCode (c : Cond) : cond (condCode c) = .ok c := by cases c <;> rfl

@[simp] theorem fitsIn_vcondCode {n : Nat} (c : VCond) (h : 3 ≤ n) : FitsIn n (vcondCode c) :=
  FitsIn.mono (show vcondCode c < 2 ^ 3 by cases c <;> decide) h

@[simp] theorem vcond_vcondCode (c : VCond) : vcond (vcondCode c) = .ok c := by cases c <;> rfl

@[simp] theorem fitsIn_scopeCode {n : Nat} (c : Scope) (h : 3 ≤ n) : FitsIn n (scopeCode c) :=
  FitsIn.mono (show scopeCode c < 2 ^ 3 by cases c <;> decide) h

@[simp] theorem scope_scopeCode (c : Scope) : scope (scopeCode c) = .ok c := by cases c <;> rfl

@[simp] theorem fitsIn_shapeCode {n : Nat} (c : Shape) (h : 3 ≤ n) : FitsIn n (shapeCode c) :=
  FitsIn.mono (show shapeCode c < 2 ^ 3 by cases c <;> decide) h

@[simp] theorem shape_shapeCode (c : Shape) : shape (shapeCode c) = .ok c := by cases c <;> rfl

@[simp] theorem fitsIn_inTyCode {n : Nat} (c : InTy) (h : 3 ≤ n) : FitsIn n (inTyCode c) :=
  FitsIn.mono (show inTyCode c < 2 ^ 3 by cases c <;> decide) h

@[simp] theorem inTy_inTyCode (c : InTy) : inTy (inTyCode c) = .ok c := by cases c <;> rfl

@[simp] theorem fitsIn_maskOpCode {n : Nat} (c : MOp) (h : 3 ≤ n) : FitsIn n (maskOpCode c) :=
  FitsIn.mono (show maskOpCode c < 2 ^ 3 by cases c <;> decide) h

@[simp] theorem maskOp_maskOpCode (c : MOp) : maskOp (maskOpCode c) = .ok c := by cases c <;> rfl

/-- The SPACE of a field's value. -/
def spaceOf (n : Nat) : Space := space n 0

/-- The ET of a field's value. -/
def etMOf (n : Nat) : EtM := etM n 0

@[simp] theorem space_eq (p lo : Nat) : space p lo = spaceOf (fld p lo 2) := by simp [space, spaceOf, fld]

@[simp] theorem etM_eq (p lo : Nat) : etM p lo = etMOf (fld p lo 3) := by simp [etM, etMOf, fld]

@[simp] theorem fitsIn_spaceCode {n : Nat} (c : Space) (h : 2 ≤ n) : FitsIn n (spaceCode c) :=
  FitsIn.mono (show spaceCode c < 2 ^ 2 by cases c <;> decide) h

@[simp] theorem spaceOf_spaceCode (c : Space) : spaceOf (spaceCode c) = c := by cases c <;> rfl

@[simp] theorem fitsIn_etMCode {n : Nat} (c : EtM) (h : 3 ≤ n) : FitsIn n (etMCode c) :=
  FitsIn.mono (show etMCode c < 2 ^ 3 by cases c <;> decide) h

@[simp] theorem etMOf_etMCode (c : EtM) : etMOf (etMCode c) = c := by cases c <;> rfl

/-! ## The head of a parcel (R75) -/

/-- Bits 47 to 30 of a parcel: its head, and bit 30. -/
def headOf (p : Nat) : Nat := p / 2 ^ 30

theorem fld_headOf (p lo w : Nat) : fld (headOf p) lo w = fld p (30 + lo) w := by
  rw [fld, fld, headOf, Nat.div_div_eq_div_mul, ← pow_add]

@[simp] theorem headOf_add_put_add_of_fitsIn {j s y x : Nat} (hj : j ≤ 30) (hs : Clear j s) (hx : FitsIn j x) :
    headOf (s + put y j + x) = headOf (s + put y j) := add_div_of_clear ((clear_add_put s y le_rfl).2 hs) hx hj

@[simp] theorem headOf_head_add {x : Nat} (l : Bool) (e o : Nat) (t : Tok) (hx : FitsIn 30 x) :
    headOf (head l e o t + x) = headOf (head l e o t) := add_div_of_clear (clear_head l e o t (by decide)) hx le_rfl

/-- The opcode map of an engine, by its ENG code. -/
def opcodeMap (eng : Nat) : Nat → Bool → Tok → Nat → Nat → Dec :=
  match eng with
  | 0 => decSc
  | 1 => decLd
  | 2 => decSt
  | 3 => decVx
  | 4 => decMx
  | 5 => decAs
  | _ => fun _ _ _ _ _ => .error .badEngine

/-- The instruction of parcels p and q, the head of p being h. -/
def decodeUnder (h p q : Nat) : Dec := do
  let w ← tokCode (fld h 4 3)
  let g ← tokCode (fld h 1 3)
  if fld h 0 1 = 1 then .error .bit30 else opcodeMap (fld h 14 3) (fld h 7 7) (bit h 17) ⟨w, g⟩ p q

theorem decodeParcels_eq (p q : Nat) : decodeParcels p q = decodeUnder (headOf p) p q := by
  simp only [decodeUnder, decodeParcels, bit, fld_headOf]
  congr! 5
  split <;> simp [opcodeMap, *]

@[simp] theorem fld_headOf_length {e o : Nat} (l : Bool) (t : Tok) (he : e < 8) (ho : o < 128) :
    fld (headOf (head l e o t)) 17 1 = l.toNat := by
  have he : FitsIn 3 e := he
  have ho : FitsIn 7 o := ho
  rw [fld_headOf]
  simp [head, he, ho]

@[simp] theorem decodeUnder_head {e o : Nat} (l : Bool) (t : Tok) (he : e < 8) (ho : o < 128) (p q : Nat) :
    decodeUnder (headOf (head l e o t)) p q = opcodeMap e o l t p q := by
  simp only [decodeUnder, bit_eq, fld_headOf_length l t he ho, Bool.toNat_eq_one, Bool.decide_eq_true]
  have he : FitsIn 3 e := he
  have ho : FitsIn 7 o := ho
  simp only [fld_headOf, head]
  simp [he, ho]

@[simp] theorem fitsIn_headOf {e o : Nat} (l : Bool) (t : Tok) (he : e < 8) (ho : o < 128) : FitsIn 18 (headOf (head l e o t)) := by
  have hl := Bool.toNat_lt l
  have hw := fitsIn_tokNum t.wait le_rfl
  have hg := fitsIn_tokNum t.sig le_rfl
  unfold FitsIn at *
  unfold headOf head put
  omega

/-! ## The bytes of one or two parcels (R75, R76) -/

theorem leNat_leBytes (n v : Nat) (rest : List Byte) : leNat n (leBytes n v ++ rest) = some (v % 256 ^ n) := by
  induction n generalizing v with
  | zero => rw [Nat.pow_zero, Nat.mod_one, leNat]
  | succ n ih => simp [leBytes_succ, leNat, ih, Nat.pow_succ', Nat.mod_mul]

theorem leNat_parcel {w : Nat} (h : FitsIn 48 w) (rest : List Byte) : leNat 6 (leBytes 6 w ++ rest) = some w := by
  rw [leNat_leBytes, Nat.mod_eq_of_lt (show w < 256 ^ 6 from h)]

theorem drop_parcel (w : Nat) (rest : List Byte) : (leBytes 6 w ++ rest).drop 6 = rest := List.drop_left' (leBytes_length 6 w)

/-- The instruction of the parcels in a list: one of 48 bits whose L bit is 0, or two of them, the L bit of the first being 1. -/
def decodeWords : List Nat → Dec
  | [w] =>
    if fld (headOf w) 17 1 = 0 ∧ fld (headOf w) 0 18 = headOf w then decodeUnder (headOf w) w 0 else .error .badLength
  | [w, v] =>
    if fld (headOf w) 17 1 = 1 ∧ fld (headOf w) 0 18 = headOf w ∧ fld v 0 48 = v then decodeUnder (headOf w) w v
    else .error .badLength
  | _ => .error .shortText

theorem fitsIn_of_fld {n x : Nat} (h : fld x 0 n = x) : FitsIn n x := h ▸ Nat.mod_lt _ (Nat.two_pow_pos n)

theorem fitsIn_of_headOf {p : Nat} (h : fld (headOf p) 0 18 = headOf p) : FitsIn 48 p := by
  have h := fitsIn_of_fld h
  unfold FitsIn headOf at *
  omega

theorem decodeBytes_of_words {ws : List Nat} {i : Instr} (h : decodeWords ws = .ok i) (rest : List Byte) :
    decodeBytes (ws.flatMap (leBytes 6) ++ rest) = .ok (i, rest) := by
  unfold decodeWords at h
  split at h
  next w =>
    split at h
    next hw =>
      obtain ⟨hl, hw⟩ := hw
      rw [fld_headOf] at hl
      rw [List.flatMap_singleton, decodeBytes, leNat_parcel (fitsIn_of_headOf hw)]
      simp only [bit, hl, drop_parcel, decodeParcels_eq, h]
      rfl
    next => exact nomatch h
  next w v =>
    split at h
    next hw =>
      obtain ⟨hl, hw, hv⟩ := hw
      rw [fld_headOf] at hl
      rw [List.flatMap_cons, List.flatMap_singleton, List.append_assoc, decodeBytes, leNat_parcel (fitsIn_of_headOf hw)]
      rw [show 12 = 6 + 6 from rfl, ← List.drop_drop, drop_parcel]
      simp only [bit, hl, drop_parcel, leNat_parcel (fitsIn_of_fld hv), decodeParcels_eq, h]
      rfl
    next => exact nomatch h
  next => exact nomatch h

/-- i is what its words decode to. -/
def Decodes (i : Instr) : Prop :=
  ∀ rest, decodeBytes ((encode i).flatMap (leBytes 6) ++ rest) = .ok (i, rest)

theorem Decodes.short {i : Instr} {w : Nat} (hw : encode i = [w]) (h : decodeWords [w] = .ok i) : Decodes i :=
  fun rest => hw ▸ decodeBytes_of_words h rest

theorem Decodes.long {i : Instr} {w v : Nat} (hw : encode i = [w, v]) (h : decodeWords [w, v] = .ok i) : Decodes i :=
  fun rest => hw ▸ decodeBytes_of_words h rest

end Sys2Proof.Proofs

namespace Sys2Proof.Proofs
open Sys2Proof Sys2Proof.Machine Sys2Proof.Claims

/-! ## Formats that instructions share (R78 to R84)

Each takes what the encoder writes and the arm of the opcode map that reads it. -/

section formats

variable {e o : Nat} {t : Tok} (hn : e < 8 ∧ o < 128)
include hn

theorem decodes_noOperands {i : Instr} (hw : encode i = [head false e o t])
    (hd : ∀ p, opcodeMap e o false t p 0 = do short false; zero p 0 30; return i) : Decodes i :=
  .short hw (by simp [decodeWords, hn, hd])

theorem decodes_regs3 {f : Fin 32 → Fin 32 → Fin 32 → Instr} {d a b : Fin 32}
    (hw : encode (f d a b) = [head false e o t + put d.val 25 + put a.val 20 + put b.val 15])
    (hd : ∀ p, opcodeMap e o false t p 0 = do short false; zero p 0 15; return f (fin32 p 25) (fin32 p 20) (fin32 p 15)) :
    Decodes (f d a b) :=
  .short hw (by simp [decodeWords, hn, hd])

theorem decodes_regs2 {f : Fin 32 → Fin 32 → Instr} {d a : Fin 32}
    (hw : encode (f d a) = [head false e o t + put d.val 25 + put a.val 20])
    (hd : ∀ p, opcodeMap e o false t p 0 = do short false; zero p 0 20; return f (fin32 p 25) (fin32 p 20)) : Decodes (f d a) :=
  .short hw (by simp [decodeWords, hn, hd])

theorem decodes_reg25 {f : Fin 32 → Instr} {a : Fin 32} (hw : encode (f a) = [head false e o t + put a.val 25])
    (hd : ∀ p, opcodeMap e o false t p 0 = do short false; zero p 0 25; return f (fin32 p 25)) : Decodes (f a) :=
  .short hw (by simp [decodeWords, hn, hd])

theorem decodes_reg21 {f : Fin 32 → Instr} {a : Fin 32} (hw : encode (f a) = [head false e o t + put a.val 21])
    (hd : ∀ p, opcodeMap e o false t p 0 = do short false; zero p 0 21; zero p 26 4; return f (fin32 p 21)) : Decodes (f a) :=
  .short hw (by simp [decodeWords, hn, hd])

theorem decodes_reg20 {f : Fin 32 → Instr} {a : Fin 32} (hw : encode (f a) = [head false e o t + put a.val 20])
    (hd : ∀ p, opcodeMap e o false t p 0 = do short false; zero p 0 20; zero p 25 5; return f (fin32 p 20)) : Decodes (f a) :=
  .short hw (by simp [decodeWords, hn, hd])

theorem decodes_regs2_imm20 {f : Fin 32 → Fin 32 → BitVec 20 → Instr} {d a : Fin 32} {imm : BitVec 20}
    (hw : encode (f d a imm) = [head false e o t + put d.val 25 + put a.val 20 + imm.toNat])
    (hd : ∀ p, opcodeMap e o false t p 0 = do short false; return f (fin32 p 25) (fin32 p 20) (bv 20 p 0)) :
    Decodes (f d a imm) :=
  .short hw (by simp [decodeWords, hn, hd])

theorem decodes_regs2_imm6 {f : Fin 32 → Fin 32 → BitVec 6 → Instr} {d a : Fin 32} {k : BitVec 6}
    (hw : encode (f d a k) = [head false e o t + put d.val 25 + put a.val 20 + k.toNat])
    (hd : ∀ p, opcodeMap e o false t p 0 = do short false; zero p 6 14; return f (fin32 p 25) (fin32 p 20) (bv 6 p 0)) :
    Decodes (f d a k) :=
  .short hw (by simp [decodeWords, hn, hd])

theorem decodes_bitField {f : Fin 32 → Fin 32 → BitVec 6 → BitVec 6 → Instr} {d a : Fin 32} {pos wid : BitVec 6}
    (hw : encode (f d a pos wid) = [head false e o t + put d.val 25 + put a.val 20 + put pos.toNat 6 + wid.toNat])
    (hd : ∀ p, opcodeMap e o false t p 0 = do
      short false; zero p 12 8; return f (fin32 p 25) (fin32 p 20) (bv 6 p 6) (bv 6 p 0)) :
    Decodes (f d a pos wid) :=
  .short hw (by simp [decodeWords, hn, hd])

theorem decodes_reg_offset {f : Fin 32 → BitVec 16 → Instr} {a : Fin 32} {off : BitVec 16}
    (hw : encode (f a off) = [head false e o t + put a.val 21 + off.toNat])
    (hd : ∀ p, opcodeMap e o false t p 0 = do
      short false; zero p 16 5; zero p 26 4; return f (fin32 p 21) (bv 16 p 0)) : Decodes (f a off) :=
  .short hw (by simp [decodeWords, hn, hd])

theorem decodes_scalarLoad {f : Fin 32 → Fin 32 → BitVec 15 → Instr} {d a : Fin 32} {fn : BitVec 15}
    (hw : encode (f d a fn) = [head false e o t + put d.val 25 + put a.val 20 + fn.toNat])
    (hd : ∀ p, opcodeMap e o false t p 0 = do short false; zero p 15 5; return f (fin32 p 25) (fin32 p 20) (bv 15 p 0)) :
    Decodes (f d a fn) :=
  .short hw (by simp [decodeWords, hn, hd])

theorem decodes_scalarStore {f : Fin 32 → Fin 32 → BitVec 15 → Instr} {a b : Fin 32} {fn : BitVec 15}
    (hw : encode (f a b fn) = [head false e o t + put a.val 20 + put b.val 15 + fn.toNat])
    (hd : ∀ p, opcodeMap e o false t p 0 = do short false; zero p 25 5; return f (fin32 p 20) (fin32 p 15) (bv 15 p 0)) :
    Decodes (f a b fn) :=
  .short hw (by simp [decodeWords, hn, hd])

theorem decodes_number12 {f : BitVec 12 → Instr} {n : BitVec 12} (hw : encode (f n) = [head false e o t + n.toNat])
    (hd : ∀ p, opcodeMap e o false t p 0 = do short false; zero p 12 18; return f (bv 12 p 0)) : Decodes (f n) :=
  .short hw (by simp [decodeWords, hn, hd])

theorem decodes_scope {f : Scope → Instr} {sc : Scope} (hw : encode (f sc) = [head false e o t + scopeCode sc])
    (hd : ∀ p, opcodeMap e o false t p 0 = do short false; zero p 3 27; let sc ← scope (fld p 0 3); return f sc) :
    Decodes (f sc) :=
  .short hw (by simp [decodeWords, hn, hd])

theorem decodes_tileAccess {f : VSpec → Fin 8 → BitVec 6 → BitVec 10 → Space → EtM → Instr} {r : VSpec} {p : Fin 8}
    {rep : BitVec 6} {st : BitVec 10} {sp : Space} {et : EtM}
    (hw : encode (f r p rep st sp et) = [head false e o t + put (specCode r) 24 + put p.val 21 + put rep.toNat 15 +
      put st.toNat 5 + put (spaceCode sp) 3 + etMCode et])
    (hd : ∀ p, opcodeMap e o false t p 0 = do
      short false
      let r ← spec (fld p 24 6)
      return f r (fin8 p 21) (bv 6 p 15) (bv 10 p 5) (space p 3) (etM p 0)) :
    Decodes (f r p rep st sp et) :=
  .short hw (by simp [decodeWords, hn, hd])

theorem decodes_tileAccessLong {f : VSpec → Fin 8 → BitVec 6 → BitVec 10 → Space → EtM → BitVec 22 → Instr} {r : VSpec}
    {p : Fin 8} {rep : BitVec 6} {st : BitVec 10} {sp : Space} {et : EtM} {colp : BitVec 22}
    (hw : encode (f r p rep st sp et colp) = [head true e o t + put (specCode r) 24 + put p.val 21 + put rep.toNat 15 +
      put st.toNat 5 + put (spaceCode sp) 3 + etMCode et, colp.toNat])
    (hd : ∀ p q, opcodeMap e o true t p q = do
      long true
      zero q 22 26
      let r ← spec (fld p 24 6)
      return f r (fin8 p 21) (bv 6 p 15) (bv 10 p 5) (space p 3) (etM p 0) (bv 22 q 0)) :
    Decodes (f r p rep st sp et colp) :=
  .long hw (by simp [decodeWords, hn, hd])

theorem decodes_weightLoad {f : Fin 8 → InTy → Instr} {p : Fin 8} {it : InTy}
    (hw : encode (f p it) = [head false e o t + put p.val 15 + put (inTyCode it) 3])
    (hd : ∀ p, opcodeMap e o false t p 0 = do
      short false
      zero p 0 3
      zero p 6 9
      zero p 18 12
      let it ← inTy (fld p 3 3)
      return f (fin8 p 15) it) :
    Decodes (f p it) :=
  .short hw (by simp [decodeWords, hn, hd])

theorem decodes_drain {f : BitVec 12 → Fin 8 → BitVec 6 → Instr} {acc : BitVec 12} {p : Fin 8} {rep : BitVec 6}
    (hw : encode (f acc p rep) = [head false e o t + put acc.toNat 18 + put p.val 15 + put rep.toNat 9])
    (hd : ∀ p, opcodeMap e o false t p 0 = do short false; zero p 0 9; return f (bv 12 p 18) (fin8 p 15) (bv 6 p 9)) :
    Decodes (f acc p rep) :=
  .short hw (by simp [decodeWords, hn, hd])

theorem decodes_pattern {f : Fin 8 → Instr} {p : Fin 8} (hw : encode (f p) = [head false e o t + put p.val 15])
    (hd : ∀ p, opcodeMap e o false t p 0 = do short false; zero p 0 15; zero p 18 12; return f (fin8 p 15)) : Decodes (f p) :=
  .short hw (by simp [decodeWords, hn, hd])

theorem decodes_reg_spec {f : Fin 32 → VSpec → Instr} {a : Fin 32} {v : VSpec}
    (hw : encode (f a v) = [head false e o t + put a.val 25 + put (specCode v) 14])
    (hd : ∀ p, opcodeMap e o false t p 0 = do
      short false; zero p 0 14; zero p 20 5; let v ← spec (fld p 14 6); return f (fin32 p 25) v) :
    Decodes (f a v) :=
  .short hw (by simp [decodeWords, hn, hd])

theorem decodes_reg_address {f : Fin 32 → BitVec 19 → Instr} {a : Fin 32} {addr : BitVec 19}
    (hw : encode (f a addr) = [head false e o t + put a.val 20 + addr.toNat])
    (hd : ∀ p, opcodeMap e o false t p 0 = do
      short false; zero p 19 1; zero p 25 5; return f (fin32 p 20) (bv 19 p 0)) : Decodes (f a addr) :=
  .short hw (by simp [decodeWords, hn, hd])

theorem decodes_specs4_fty {f : VSpec → VSpec → VSpec → VSpec → Fin 8 → FTy → Instr} {d a b c : VSpec} {m : Fin 8} {ty : FTy}
    (hw : encode (f d a b c m ty) = [head false e o t + put (specCode d) 24 + put (specCode a) 18 + put (specCode b) 12 +
      put (specCode c) 6 + put m.val 3 + ftyCode ty])
    (hd : ∀ p, opcodeMap e o false t p 0 = do
      short false
      let d ← spec (fld p 24 6)
      let a ← spec (fld p 18 6)
      let b ← spec (fld p 12 6)
      let c ← spec (fld p 6 6)
      let ty ← fty (fld p 0 3)
      return f d a b c (fin8 p 3) ty) :
    Decodes (f d a b c m ty) :=
  .short hw (by simp [decodeWords, hn, hd])

theorem decodes_specs3_fty {f : VSpec → VSpec → VSpec → Fin 8 → FTy → Instr} {d a b : VSpec} {m : Fin 8} {ty : FTy}
    (hw : encode (f d a b m ty) = [head false e o t + put (specCode d) 24 + put (specCode a) 18 + put (specCode b) 12 +
      put m.val 3 + ftyCode ty])
    (hd : ∀ p, opcodeMap e o false t p 0 = do
      short false
      zero p 6 6
      let d ← spec (fld p 24 6)
      let a ← spec (fld p 18 6)
      let b ← spec (fld p 12 6)
      let ty ← fty (fld p 0 3)
      return f d a b (fin8 p 3) ty) :
    Decodes (f d a b m ty) :=
  .short hw (by simp [decodeWords, hn, hd])

theorem decodes_specs3_ity {f : VSpec → VSpec → VSpec → Fin 8 → ITy → Instr} {d a b : VSpec} {m : Fin 8} {ty : ITy}
    (hw : encode (f d a b m ty) = [head false e o t + put (specCode d) 24 + put (specCode a) 18 + put (specCode b) 12 +
      put m.val 3 + ityCode ty])
    (hd : ∀ p, opcodeMap e o false t p 0 = do
      short false
      zero p 6 6
      let d ← spec (fld p 24 6)
      let a ← spec (fld p 18 6)
      let b ← spec (fld p 12 6)
      return f d a b (fin8 p 3) (ity p 0)) :
    Decodes (f d a b m ty) :=
  .short hw (by simp [decodeWords, hn, hd])

/-- The encoder adds DOM last, which stands above the mask and the type. -/
theorem decodes_specs3_dty {f : VSpec → VSpec → VSpec → Fin 8 → DTy → Instr} {d a b : VSpec} {m : Fin 8} {ty : DTy}
    (hw : encode (f d a b m ty) = [head false e o t + put (specCode d) 24 + put (specCode a) 18 + put (specCode b) 12 +
      put m.val 3 + dtyCode ty + put (dtyDom ty) 11])
    (hd : ∀ p, opcodeMap e o false t p 0 = do
      short false
      zero p 6 5
      let d ← spec (fld p 24 6)
      let a ← spec (fld p 18 6)
      let b ← spec (fld p 12 6)
      let ty ← dty (fld p 11 1) (fld p 0 3)
      return f d a b (fin8 p 3) ty) :
    Decodes (f d a b m ty) := by
  rw [Nat.add_right_comm _ (dtyCode ty), Nat.add_right_comm _ (put m.val 3)] at hw
  exact .short hw (by simp [decodeWords, hn, hd])

theorem decodes_specs3 {f : VSpec → VSpec → VSpec → Fin 8 → Instr} {d a b : VSpec} {m : Fin 8}
    (hw : encode (f d a b m) = [head false e o t + put (specCode d) 24 + put (specCode a) 18 + put (specCode b) 12 + put m.val 3])
    (hd : ∀ p, opcodeMap e o false t p 0 = do
      short false
      zero p 0 3
      zero p 6 6
      let d ← spec (fld p 24 6)
      let a ← spec (fld p 18 6)
      let b ← spec (fld p 12 6)
      return f d a b (fin8 p 3)) :
    Decodes (f d a b m) :=
  .short hw (by simp [decodeWords, hn, hd])

theorem decodes_specs2_fty {f : VSpec → VSpec → Fin 8 → FTy → Instr} {d a : VSpec} {m : Fin 8} {ty : FTy}
    (hw : encode (f d a m ty) = [head false e o t + put (specCode d) 24 + put (specCode a) 18 + put m.val 3 + ftyCode ty])
    (hd : ∀ p, opcodeMap e o false t p 0 = do
      short false
      zero p 6 12
      let d ← spec (fld p 24 6)
      let a ← spec (fld p 18 6)
      let ty ← fty (fld p 0 3)
      return f d a (fin8 p 3) ty) :
    Decodes (f d a m ty) :=
  .short hw (by simp [decodeWords, hn, hd])

/-- The encoder adds DOM last, which stands above the mask and the type. -/
theorem decodes_specs2_dty {f : VSpec → VSpec → Fin 8 → DTy → Instr} {d a : VSpec} {m : Fin 8} {ty : DTy}
    (hw : encode (f d a m ty) = [head false e o t + put (specCode d) 24 + put (specCode a) 18 + put m.val 3 + dtyCode ty +
      put (dtyDom ty) 11])
    (hd : ∀ p, opcodeMap e o false t p 0 = do
      short false
      zero p 6 5
      zero p 12 6
      let d ← spec (fld p 24 6)
      let a ← spec (fld p 18 6)
      let ty ← dty (fld p 11 1) (fld p 0 3)
      return f d a (fin8 p 3) ty) :
    Decodes (f d a m ty) := by
  rw [Nat.add_right_comm _ (dtyCode ty), Nat.add_right_comm _ (put m.val 3)] at hw
  exact .short hw (by simp [decodeWords, hn, hd])

theorem decodes_specs2_imm_ity {f : VSpec → VSpec → BitVec 6 → Fin 8 → ITy → Instr} {d a : VSpec} {k : BitVec 6} {m : Fin 8}
    {ty : ITy}
    (hw : encode (f d a k m ty) = [head false e o t + put (specCode d) 24 + put (specCode a) 18 + put k.toNat 6 + put m.val 3 +
      ityCode ty])
    (hd : ∀ p, opcodeMap e o false t p 0 = do
      short false
      zero p 12 6
      let d ← spec (fld p 24 6)
      let a ← spec (fld p 18 6)
      return f d a (bv 6 p 6) (fin8 p 3) (ity p 0)) :
    Decodes (f d a k m ty) :=
  .short hw (by simp [decodeWords, hn, hd])

theorem decodes_specs2_imm {f : VSpec → VSpec → BitVec 6 → Fin 8 → Instr} {d a : VSpec} {k : BitVec 6} {m : Fin 8}
    (hw : encode (f d a k m) = [head false e o t + put (specCode d) 24 + put (specCode a) 18 + put k.toNat 6 + put m.val 3])
    (hd : ∀ p, opcodeMap e o false t p 0 = do
      short false
      zero p 0 3
      zero p 12 6
      let d ← spec (fld p 24 6)
      let a ← spec (fld p 18 6)
      return f d a (bv 6 p 6) (fin8 p 3)) :
    Decodes (f d a k m) :=
  .short hw (by simp [decodeWords, hn, hd])

theorem decodes_specs2 {f : VSpec → VSpec → Fin 8 → Instr} {d a : VSpec} {m : Fin 8}
    (hw : encode (f d a m) = [head false e o t + put (specCode d) 24 + put (specCode a) 18 + put m.val 3])
    (hd : ∀ p, opcodeMap e o false t p 0 = do
      short false
      zero p 0 3
      zero p 6 12
      let d ← spec (fld p 24 6)
      let a ← spec (fld p 18 6)
      return f d a (fin8 p 3)) :
    Decodes (f d a m) :=
  .short hw (by simp [decodeWords, hn, hd])

end formats

/-! ## The instructions of each engine (R96 to R101)

An instruction with a format of its own is read off its opcode map. -/

section engines
variable {i : Instr}

theorem decodes_sc (h : owner i = some .sc) : Decodes i := by
  cases i with
  | nop | tend | yield | mark | quies => exact decodes_noOperands (by decide) rfl fun _ => rfl
  | add | addS | addUs | sub | subS | subUs | mul | mulS | mulHi | mulHu | div | divU | divR | divRu | and | or | xor | shl | shr
  | shrA | min | minU | max | maxU => exact decodes_regs3 (by decide) rfl fun _ => rfl
  | addI | mulI | andI | orI | xorI => exact decodes_regs2_imm20 (by decide) rfl fun _ => rfl
  | shlI | shrI | shrAi => exact decodes_regs2_imm6 (by decide) rfl fun _ => rfl
  | bits | bitsS | bitsIns => exact decodes_bitField (by decide) rfl fun _ => rfl
  | bitsCnt | bitsClz | mov => exact decodes_regs2 (by decide) rfl fun _ => rfl
  | jmpR | ret => exact decodes_reg21 (by decide) rfl fun _ => rfl
  | call | loopR => exact decodes_reg_offset (by decide) rfl fun _ => rfl
  | sld | sldW | sldWs => exact decodes_scalarLoad (by decide) rfl fun _ => rfl
  | sst | sstW => exact decodes_scalarStore (by decide) rfl fun _ => rfl
  | trap | bkpt => exact decodes_number12 (by decide) rfl fun _ => rfl
  | tspawn | tjoin | notify => exact decodes_reg20 (by decide) rfl fun _ => rfl
  | fenceAcq | fenceRel | fence => exact decodes_scope (by decide) rfl fun _ => rfl
  | cmp | sel | movQw | movQr | movi | apat | br | jmp | callR | loop | getsr | setsr | gpget | gpset =>
    exact .short rfl (by simp [decodeWords, opcodeMap, decSc])
  | moviL | jmpL | callL => exact .long rfl (by simp [decodeWords, opcodeMap, decSc])
  | _ => exact nomatch h

theorem decodes_ld (h : owner i = some .ld) : Decodes i := by
  cases i with
  | vld => exact decodes_tileAccess (by decide) rfl fun _ => rfl
  | vldx => exact decodes_tileAccessLong (by decide) rfl fun _ _ => rfl
  | _ => exact nomatch h

theorem decodes_st (h : owner i = some .st) : Decodes i := by
  cases i with
  | vst => exact decodes_tileAccess (by decide) rfl fun _ => rfl
  | vstx => exact decodes_tileAccessLong (by decide) rfl fun _ _ => rfl
  | _ => exact nomatch h

theorem decodes_vx (h : owner i = some .vx) : Decodes i := by
  cases i with
  | vadd | vsub | vmul | vdiv | vmin | vminP | vmax | vmaxP => exact decodes_specs3_fty (by decide) rfl fun _ => rfl
  | vfma | vfmaNm => exact decodes_specs4_fty (by decide) rfl fun _ => rfl
  | vsqrt | vsfExp2 | vsfLog2 | vsfRcp | vsfRsqrt | vsfSin | vsfCos | vsfTanh | vsfErf | vsfSigm =>
    exact decodes_specs2_fty (by decide) rfl fun _ => rfl
  | viadd | viaddS | visub | visubS | vimul | vimulS | vimulHi | vimin | vimax | vshl | vshr =>
    exact decodes_specs3_ity (by decide) rfl fun _ => rfl
  | vsel | vand | vor | vxor | vpermb | vspl | vext | vins => exact decodes_specs3 (by decide) rfl fun _ => rfl
  | vshlI | vshrI => exact decodes_specs2_imm_ity (by decide) rfl fun _ => rfl
  | vrotr | vrotc | vbcr | vbcc => exact decodes_specs2_imm (by decide) rfl fun _ => rfl
  | vmov | vtrn => exact decodes_specs2 (by decide) rfl fun _ => rfl
  | vredrAdd | vredrMax | vredrMin | vredcAdd | vredcMax | vredcMin | vscanrAdd | vscanrMax | vscancAdd | vscancMax =>
    exact decodes_specs2_dty (by decide) rfl fun _ => rfl
  | vpack | vunpk => exact decodes_specs3_dty (by decide) rfl fun _ => rfl
  | vcmp | vicmp | viota | vspz | vmop | vmcnt | vrand | vrandU => exact .short rfl (by simp [decodeWords, opcodeMap, decVx])
  | vmovI => exact .long rfl (by simp [decodeWords, opcodeMap, decVx])
  | vcvt t d a m dst src =>
    have hw : encode (.vcvt t d a m dst src) = [head false 3 0x19 t + put (specCode d) 24 + put (specCode a) 18 +
        put (dtyDom dst) 11 + put (dtyDom src) 10 + put (dtyCode src) 6 + put m.val 3 + dtyCode dst] :=
      congrArg (fun w => [w]) (by ring)
    exact .short hw (by simp [decodeWords, opcodeMap, decVx])
  | _ => exact nomatch h

theorem decodes_mx (h : owner i = some .mx) : Decodes i := by
  cases i with
  | mwld | mwldS4 | mwldS2 | mwldS1 => exact decodes_weightLoad (by decide) rfl fun _ => rfl
  | mdrnF | mdrnSm => exact decodes_drain (by decide) rfl fun _ => rfl
  | mepi | macfg => exact decodes_pattern (by decide) rfl fun _ => rfl
  | mzero | mdrn => exact .short rfl (by simp [decodeWords, opcodeMap, decMx])
  | mmul t acc p rep shp it srcq mark =>
    have hw : encode (.mmul t acc p rep shp it srcq mark) = [head false 4 0x05 t + put acc.toNat 18 + put p.val 15 +
        put rep.toNat 9 + put (shapeCode shp) 6 + put (inTyCode it) 3 + put mark.toNat 2 + srcq.toNat] :=
      congrArg (fun w => [w]) (by ring)
    exact .short hw (by simp [decodeWords, opcodeMap, decMx])
  | matt t acc p rep it causal init mark acc2 p2 =>
    have hw : encode (.matt t acc p rep it causal init mark acc2 p2) = [head true 4 0x06 t + put acc.toNat 18 + put p.val 15 +
        put rep.toNat 9 + put (inTyCode it) 3 + put mark.toNat 2 + put init.toNat 1 + causal.toNat, put p2.val 12 + acc2.toNat] :=
      congrArg₂ (fun w v => [w, v]) (by ring) (by ring)
    have hv : FitsIn 48 (put p2.val 12 + acc2.toNat) := by
      unfold FitsIn put
      omega
    exact .long hw (by simp [decodeWords, opcodeMap, decMx, hv])
  | _ => exact nomatch h

theorem decodes_as (h : owner i = some .asy) (hn : namedByBlock i = false) : Decodes i := by
  cases i with
  | xcp | xcpCvt | xcpMc | xcpKv | xaccAdd | xaccMin | xaccMax | xaccAnd | xaccOr | xaccXor | xatomAdd | xatomMin | xatomMax
  | xatomAnd | xatomOr | xatomXor | xatomSwap | xatomCas | xfill => exact decodes_regs2 (by decide) rfl fun _ => rfl
  | vatomAdd | vatomMin | vatomMax | vatomAnd | vatomOr | vatomXor => exact decodes_reg_spec (by decide) rfl fun _ => rfl
  | barv | rngpub | rngrel => exact decodes_reg20 (by decide) rfl fun _ => rfl
  | rngwf | rngwe => exact decodes_reg_address (by decide) rfl fun _ => rfl
  | binit | rngcfg | btld | btlk | btinv | balloc | bfree | bref | btopen | btclose | btapp | btfork | bttrim | btcmt | bhfind
  | bhpub | itbind | itgo | itstat | objplace | objpin | rgcfg | rgpush | rgtakeTake | smbind | smrun | clrslow | smstat | lnrun
  | lnstat => exact decodes_reg25 (by decide) rfl fun _ => rfl
  | bwait => exact .short rfl (by simp [decodeWords, opcodeMap, decAs])
  | rgtakeRelease | addcnt | clrcnt | armv | setstep => exact nomatch hn
  | _ => exact nomatch h

/-! ## Lantern steps (R346) -/

/-- A data step holds no code 3, which is reserved in CV, CA and ROP. -/
theorem lnData_lnWord (op : Nat) (f : LnData) (hcv : f.cv ≠ 3) (hca : f.ca ≠ 3) (hrop : f.rop ≠ 3) :
    lnData (lnWord op f) = .ok f := by
  have codes (x : BitVec 2) (h : x ≠ 3) : x.toNat ≠ 3 := fun h' => h (BitVec.eq_of_toNat_eq h')
  simp [lnData, lnWord, codes _ hcv, codes _ hca, codes _ hrop]

theorem fld_lnWord_op {op : Nat} (f : LnData) (h : op < 16) : fld (lnWord op f) 60 4 = op := by
  have h : FitsIn 4 op := h
  simp [lnWord, h]

theorem lnK_of_fld {w : Nat} {k : Fin 3} (h : fld w 56 2 = k.val) : lnK w = .ok k := by
  rw [lnK, h]
  fin_cases k <;> rfl

theorem decodeStep_encode (hw : i.wellFormed = true) (h : lanternStep i = true) :
    ∃ w, encode i = [w] ∧ decodeStep w = .ok i := by
  have hf := (wellFormed_checks hw).1
  have ops : FitsIn 4 5 ∧ FitsIn 4 6 ∧ FitsIn 4 7 ∧ FitsIn 4 8 ∧ FitsIn 4 9 := by
    unfold FitsIn
    decide
  cases i with
  | lnsend f | lnrecv f =>
    simp only [fieldsOk, Bool.and_eq_true, decide_eq_true_eq, and_assoc] at hf
    obtain ⟨hcv, hca, hrop, -⟩ := hf
    exact ⟨_, rfl, by simp [decodeStep, fld_lnWord_op, lnData_lnWord _ f (by bv_omega) hca (by bv_omega)]⟩
  | lnrrs f =>
    simp only [fieldsOk, Bool.and_eq_true, decide_eq_true_eq, and_assoc] at hf
    obtain ⟨hcv, hca, hrop, -⟩ := hf
    exact ⟨_, rfl, by simp [decodeStep, fld_lnWord_op, lnData_lnWord _ f (by bv_omega) hca hrop]⟩
  | lncopy f =>
    simp only [fieldsOk, Bool.and_eq_true, decide_eq_true_eq, and_assoc] at hf
    obtain ⟨hcv, hca, hrop, -⟩ := hf
    exact ⟨_, rfl, by simp [decodeStep, fld_lnWord_op, lnData_lnWord _ f hcv hca (by bv_omega)]⟩
  | lnwait | lnsig | lnend => exact ⟨_, rfl, by simp [decodeStep, ops]⟩
  | lnloop k n =>
    have hk : lnK (put 7 60 + put k.val 56 + n.toNat) = .ok k := lnK_of_fld (by simp)
    exact ⟨_, rfl, by simp [decodeStep, ops, hk]⟩
  | lnendl k =>
    have hk : lnK (put 8 60 + put k.val 56) = .ok k := lnK_of_fld (by simp)
    exact ⟨_, rfl, by simp [decodeStep, ops, hk]⟩
  | _ => exact nomatch h

end engines

/-! ## Every parcel instruction and every Lantern step -/

/-- Settles O55: each instruction reads its fields back, and so does each step. -/
theorem decodeEncode : Obligations.DecodeEncode := by
  refine ⟨fun i rest _ hn h => ?_, fun i hw h => decodeStep_encode hw h⟩
  simp only [List.mem_cons, List.not_mem_nil, or_false] at h
  obtain h | h | h | h | h := h
  · exact decodes_sc h rest
  · exact decodes_ld h rest
  · exact decodes_st h rest
  · exact decodes_mx h rest
  · exact decodes_as h hn rest

/-- Settles O56: each instruction of VX reads its fields back. -/
theorem decodeEncodeVx : Obligations.DecodeEncodeVx := fun _ rest _ h => decodes_vx h rest

end Sys2Proof.Proofs

namespace Sys2Proof.Proofs
open Sys2Proof Sys2Proof.Machine Sys2Proof.Claims

/-! ## What a write leaves of a scratchpad (R168) -/

section bytes
variable (x : Memory) (a : Nat)

theorem sameButBytes_write (bs : List Byte) : sameButBytes x (Memory.write x a bs) a bs.length :=
  fun _ h => read1_write_outside _ _ _ h

theorem sameButBytes_word (v : Nat) : sameButBytes x (Memory.write x a (leBytes 8 v)) a 8 := by
  have := sameButBytes_write x a (leBytes 8 v)
  rwa [leBytes_length] at this

theorem readW_word (v : Nat) : Memory.readW (Memory.write x a (leBytes 8 v)) a = BitVec.ofNat 64 v := by
  have h := read_write_same x a (leBytes 8 v)
  rw [leBytes_length] at h
  rw [Memory.readW, h, leVal_leBytes]
  exact BitVec.eq_of_toNat_eq (by simp)

theorem read1_zeros {n k : Nat} (hk : k < n) : Memory.read1 (Memory.write x a (leBytes n 0)) (a + k) = 0 := by
  rw [read1_write, leBytes_length, if_pos (by omega), Nat.add_sub_cancel_left]
  simp [leBytes, byteOf, hk]

end bytes

/-! ## What an arrival leaves of the scratchpads (R189) -/

theorem each_core (m : Mach) (f : Core → Core) (k : Fin 256) : ({ m with cores := each m.cores f } : Mach).core k = f (m.core k) :=
  each_get m.cores f k.isLt

/-- A scratchpad once an arrival at the cell at byte a has been counted. -/
def arrivedSpad (x : Memory) (a : Nat) : Memory :=
  let w := Memory.readW x a
  if wf w 0 32 = 0 then x
  else if wf w 0 32 = 1 then Memory.write x a (leBytes 8 (wf w 32 31 + wf w 32 31 * 2 ^ 32 + (!(wb w 63)).toNat * 2 ^ 63))
  else Memory.write x a (leBytes 8 (w.toNat - 1))

theorem wspad_core_spad (m : Mach) (g k : Fin 256) (a : Nat) (bs : List Byte) :
    ((m.wspad g a bs).core k).spad = if k = g then Memory.write (m.core g).spad a bs else (m.core k).spad := by
  rw [Mach.wspad, onCore_core_eq]
  split
  · next h => rw [h, wspad_spad]
  · rfl

section arrive
variable {m : Mach} {g : Fin 256} (a : Nat) (c : Fin 64)

/-- An arrival counts in its cell's scratchpad and changes no other. -/
theorem arrive_spad (h : (m.core g).clean = true) (k : Fin 256) :
    ((m.arrive g a c).core k).spad = if k = g then arrivedSpad (m.core g).spad a else (m.core k).spad := by
  unfold Mach.arrive
  simp only [portRead_good _ _ h, Bool.not_true, Bool.false_eq_true, if_false]
  split
  · next h0 =>
    have hx : arrivedSpad (m.core g).spad a = (m.core g).spad := if_pos h0
    rw [hx]
    split
    · next hk => rw [hk]; rfl
    · rfl
  · next h0 =>
    split
    · next h1 =>
      have hx : arrivedSpad (m.core g).spad a = _ := (if_neg h0).trans (if_pos h1)
      rw [hx, each_core, satisfyBar_spad]
      exact wspad_core_spad ..
    · next h1 =>
      have hx : arrivedSpad (m.core g).spad a = _ := (if_neg h0).trans (if_neg h1)
      rw [hx]
      exact wspad_core_spad ..

end arrive

/-! ## The start of a command (R173) -/

section start
variable (m : Mach) (o : Op)

theorem startOp_core_self : (m.startOp o).core o.core = (m.core o.core).wspad (o.base + 8) (leBytes 8 0) := by
  rw [Mach.startOp, Mach.wspad, onCore_core]; rfl

theorem startOp_core_ne {h : Fin 256} (hh : h ≠ o.core) : (m.startOp o).core h = m.core h := by
  rw [Mach.startOp, Mach.wspad, onCore_core_ne _ _ _ hh]; rfl

theorem startOp_report_zero {b : Nat} (hb : b < 8) : spadByte (m.startOp o) o.core (o.base + 8 + b) = 0 := by
  rw [spadByte, startOp_core_self, wspad_spad, read1_zeros _ _ hb]

theorem startOp_sameButReport : sameButBytes (m.core o.core).spad ((m.startOp o).core o.core).spad (o.base + 8) 8 := by
  rw [startOp_core_self, wspad_spad]
  exact sameButBytes_word _ _ _

end start

/-! ## The end of a command (R174, R301) -/

section complete
variable {m : Mach} {o : Op} {rep : Mach → Mach}

theorem findOp_congr {m' : Mach} (h : m'.ops = m.ops) (k : Nat) : m'.findOp k = m.findOp k := by rw [Mach.findOp, h, Mach.findOp]

theorem findOp_onOp (k : Nat) {f : Op → Op} (hf : ∀ o, (f o).id = o.id) : (m.onOp k f).findOp k = (m.findOp k).map f := by
  have hp : ((fun o : Op => decide (o.id = k)) ∘ fun o => if o.id = k then f o else o) = fun o => decide (o.id = k) := by
    funext o
    by_cases h : o.id = k <;> simp [h, hf]
  rw [Mach.findOp, Mach.onOp, List.find?_map, hp]
  refine Option.map_congr fun o ho => if_pos ?_
  simpa using List.find?_some ho

theorem enqueue_ops (m : Mach) (t : Fin 256) (c : Fin 64) (w : Who) : (m.enqueue t c w).ops = m.ops := by
  obtain ⟨_, e⟩ := enqueue_frame m t c w; rw [e]

theorem dequeue_ops (m : Mach) (t : Fin 256) (c : Fin 64) (w : Who) : (m.dequeue t c w).ops = m.ops := by
  obtain ⟨_, _, e⟩ := dequeue_frame m t c w; rw [e]

theorem dequeue_dev (m : Mach) (t : Fin 256) (c : Fin 64) (w : Who) : (m.dequeue t c w).dev = m.dev := by
  obtain ⟨_, _, e⟩ := dequeue_frame m t c w; rw [e]

/-- A report that its core's port does not admit waits there. -/
theorem complete_reportHeld (ho : m.findOp o.id = some o) (hs : o.said = false) (ha : m.admits o.core o.ctx (.op o.id) = false) :
    m.complete o rep = m.enqueue o.core o.ctx (.op o.id) := by
  have := (findOp_congr (enqueue_ops m o.core o.ctx (.op o.id)) o.id).trans ho
  simp [Mach.complete, hs, request1_kept ha, this]

/-- A report that is admitted is written, and the operation goes on as one that has said it. -/
theorem complete_reports {o1 : Op} (hs : o.said = false) (ha : m.admits o.core o.ctx (.op o.id) = true)
    (ho : ((rep (m.dequeue o.core o.ctx (.op o.id))).onOp o.id fun x => { x with said := true }).findOp o.id = some o1) :
    m.complete o rep = ((rep (m.dequeue o.core o.ctx (.op o.id))).onOp o.id fun x => { x with said := true }).complete o1 rep := by
  have hid : o1.id = o.id := by simpa using List.find?_some ho
  have h1 : o1.said = true := by
    rw [findOp_onOp (f := fun x : Op => { x with said := true }) _ fun _ => rfl] at ho
    obtain ⟨x, -, rfl⟩ := Option.map_eq_some_iff.1 ho
    rfl
  simp [Mach.complete, hs, request1_admitted ha, ho, hid, h1]

theorem complete_of_bar {t : Fin 256} {a : Nat} (ho : m.findOp o.id = some o) (hs : o.said = true) (hb : o.bar = some (t, a)) :
    m.complete o rep = m.request1 t o.ctx (.op o.id) fun m => m.closeOp o := by simp [Mach.complete, hs, ho, hb]

theorem complete_of_noBar (ho : m.findOp o.id = some o) (hs : o.said = true) (hb : o.bar = none) :
    m.complete o rep = m.closeOp o := by simp [Mach.complete, hs, ho, hb]

/-- The operation is gone, and what it pushes and frees is no memory's. -/
theorem closeOp_arrives {t : Fin 256} {a : Nat} (hb : o.bar = some (t, a)) (hc : (m.core t).clean = true) :
    (m.closeOp o).ops = m.ops.filter (fun q => q.id ≠ o.id) ∧ (m.closeOp o).dev = m.dev ∧
      ∀ h, ((m.closeOp o).core h).spad = ((m.arrive t a o.ctx).core h).spad := by
  obtain ⟨x, y, z, e⟩ := arrive_frame m t a o.ctx hc
  simp only [Mach.closeOp, hb, e]
  refine ⟨rfl, rfl, fun h => onCore_keeps _ _ _ _ Core.spad fun c => ?_⟩
  split <;> exact pushTok_spad ..

end complete

/-- Settles O37: the report and the arrival each wait at their port, `closeOp` ends the operation. -/
theorem operationsReportArriveAndLeave : Obligations.OperationsReportArriveAndLeave := by
  refine ⟨fun m o => ⟨rfl, rfl, fun b hb => startOp_report_zero m o hb, startOp_sameButReport m o, fun h hh => startOp_core_ne m o hh,
      rfl, rfl, rfl, rfl⟩,
    fun m o rep ho hs => ⟨fun ha => complete_reportHeld ho hs ha, fun ha o1 h1 => complete_reports hs ha h1⟩,
    fun m o rep ho hs => ⟨fun t a hb ha => ?_, fun hb => ?_, fun t a hb ha hc => ?_⟩⟩
  · rw [complete_of_bar ho hs hb, request1_kept ha]
  · rw [complete_of_noBar ho hs hb, Mach.closeOp, hb]
  · have hq := dequeue_keeps m t o.ctx (.op o.id) Core.clean (fun _ _ => rfl) (fun _ _ => rfl) t
    obtain ⟨hops, hdev, hspad⟩ := closeOp_arrives hb (hq.trans hc)
    rw [complete_of_bar ho hs hb, request1_admitted ha]
    refine ⟨hops.trans (by rw [dequeue_ops]), hdev.trans (dequeue_dev ..), fun h => ?_⟩
    rw [hspad, arrive_spad _ _ (hq.trans hc), arrive_spad _ _ hc]
    have hk (k : Fin 256) := dequeue_keeps m t o.ctx (.op o.id) Core.spad (fun _ _ => rfl) (fun _ _ => rfl) k
    rw [hk, hk]

end Sys2Proof.Proofs

namespace Sys2Proof.Proofs
open Sys2Proof Sys2Proof.Machine Sys2Proof.Claims

/-! ## Cell addresses (R153) -/

section cellCore
variable {m : Mach} {g : Fin 256} {x : Word}

theorem eaByte_eq (x : Word) : eaByte x = x.toNat % 2 ^ 22 := by simp [eaByte, wf, fld]

theorem wf_top {lo : Nat} (h : lo ≤ 64) (x : Word) : wf x lo (64 - lo) = x.toNat / 2 ^ lo := by
  refine Nat.mod_eq_of_lt (Nat.div_lt_of_lt_mul ?_)
  rw [← pow_add, Nat.add_sub_cancel' h]
  exact x.isLt

theorem eaSpace_cases (x : Word) : eaSpace x = 0 ∨ eaSpace x = 1 ∨ eaSpace x = 2 ∨ eaSpace x = 3 := by
  have : eaSpace x < 4 := Nat.mod_lt _ (by decide)
  omega

/-- The place of core k of the cluster of core g. -/
theorem clusterMate_eq (g : Fin 256) (k : Nat) : toCore (64 * (dieOf g).val + 8 * clusterOf g + k) = Fin.ofNat 256 (g.val / 8 * 8 + k) := by
  have := g.isLt
  refine congrArg (Fin.ofNat 256) ?_
  simp only [dieOf, toDie, clusterOf, Fin.val_ofNat]
  omega

theorem ite_present (m : Mach) (t : Fin 256) :
    (if m.present t = true then some t else none) = if m.present t = false then none else some t := by
  cases m.present t <;> rfl

theorem cellCore_of_high (h : wf x 32 32 ≠ 0) : m.cellCore g x = none := if_pos h

theorem cellCore_local (h : wf x 32 32 = 0) (hs : eaSpace x = 0) : m.cellCore g x = if eaCore x = 0 then some g else none := by
  simp [Mach.cellCore, h, hs]

theorem cellCore_cluster (h : wf x 32 32 = 0) (hs : eaSpace x = 2) : m.cellCore g x =
    if 8 ≤ eaCore x ∨ m.present (Fin.ofNat 256 (g.val / 8 * 8 + eaCore x)) = false then none
    else some (Fin.ofNat 256 (g.val / 8 * 8 + eaCore x)) := by
  rw [Mach.cellCore, if_neg (not_not.2 h)]
  simp only [hs, clusterMate_eq]
  by_cases hk : 8 ≤ eaCore x
  · rw [if_pos hk, if_pos (.inl hk)]
  · simp only [hk, if_false, false_or]
    exact ite_present m _

theorem cellCore_package (h : wf x 32 32 = 0) (hs : eaSpace x = 3) : m.cellCore g x =
    if m.present (Fin.ofNat 256 (eaCore x)) = false then none else some (Fin.ofNat 256 (eaCore x)) := by
  rw [Mach.cellCore, if_neg (not_not.2 h)]
  simp only [hs]
  exact ite_present m _

end cellCore

/-! ## Scalar loads (R153, R199, R428) -/

section scTarget
variable {m : Mach} {g : Fin 256} {x : Word} {n : Nat}

theorem scTarget_misaligned (ha : eaByte x % n ≠ 0) : scTarget m g x n = .error .align := if_pos ha

theorem scTarget_acc (ha : eaByte x % n = 0) (hs : eaSpace x = 1) : scTarget m g x n =
    if wf x 24 40 ≠ 0 ∨ 0x200000 ≤ eaByte x then .error .spadRange else .ok (g, true, eaByte x) := by
  simp [scTarget, ha, hs]

theorem scTarget_noCell (ha : eaByte x % n = 0) (hs : eaSpace x ≠ 1) (hc : m.cellCore g x = none) :
    scTarget m g x n = .error .spadRange := by simp [scTarget, ha, hs, hc]

theorem scTarget_cell {t : Fin 256} (ha : eaByte x % n = 0) (hs : eaSpace x ≠ 1) (hc : m.cellCore g x = some t) :
    scTarget m g x n = if 0x300000 ≤ eaByte x then .error .spadRange else .ok (t, false, eaByte x) := by
  simp [scTarget, ha, hs, hc]

/-- The cell's core and the range of its byte decide together. -/
theorem scTarget_of_cell {p : Prop} [Decidable p] {t : Fin 256} (ha : eaByte x % n = 0) (hs : eaSpace x ≠ 1) (hb : eaByte x < 0x300000)
    (hc : m.cellCore g x = if p then none else some t) : scTarget m g x n = if p then .error .spadRange else .ok (t, false, eaByte x) := by
  by_cases hp : p
  · rw [if_pos hp, scTarget_noCell ha hs (hc.trans (if_pos hp))]
  · rw [if_neg hp, scTarget_cell ha hs (hc.trans (if_neg hp)), if_neg (by omega)]

theorem scTarget_outside (ha : eaByte x % n = 0) (hs : eaSpace x ≠ 1) (h : wf x 32 32 ≠ 0 ∨ 0x300000 ≤ eaByte x) :
    scTarget m g x n = .error .spadRange := by
  cases hc : m.cellCore g x with
  | none => exact scTarget_noCell ha hs hc
  | some t =>
    obtain h | h := h
    · rw [cellCore_of_high h] at hc
      cases hc
    · rw [scTarget_cell ha hs hc, if_pos h]

theorem scTarget_eq (m : Mach) (g : Fin 256) (x : Word) (n : Nat) : scTarget m g x n =
    if eaByte x % n ≠ 0 then .error .align
    else if eaSpace x = 1 then (if wf x 24 40 ≠ 0 ∨ 0x200000 ≤ eaByte x then .error .spadRange else .ok (g, true, eaByte x))
    else if wf x 32 32 ≠ 0 ∨ 0x300000 ≤ eaByte x then .error .spadRange
    else if eaSpace x = 0 then (if eaCore x ≠ 0 then .error .spadRange else .ok (g, false, eaByte x))
    else if eaSpace x = 2 then
      (if 8 ≤ eaCore x ∨ m.present (Fin.ofNat 256 (g.val / 8 * 8 + eaCore x)) = false then .error .spadRange
       else .ok (Fin.ofNat 256 (g.val / 8 * 8 + eaCore x), false, eaByte x))
    else if m.present (Fin.ofNat 256 (eaCore x)) = false then .error .spadRange
    else .ok (Fin.ofNat 256 (eaCore x), false, eaByte x) := by
  by_cases ha : eaByte x % n = 0
  case neg => rw [if_pos ha, scTarget_misaligned ha]
  rw [if_neg (not_not.2 ha)]
  by_cases h1 : eaSpace x = 1
  · rw [if_pos h1, scTarget_acc ha h1]
  rw [if_neg h1]
  by_cases ho : wf x 32 32 ≠ 0 ∨ 0x300000 ≤ eaByte x
  · rw [if_pos ho, scTarget_outside ha h1 ho]
  rw [if_neg ho]
  simp only [not_or, not_not, not_le] at ho
  obtain ⟨hh, hb⟩ := ho
  obtain h | h | h | h := eaSpace_cases x
  · rw [if_pos h, scTarget_of_cell ha h1 hb ((cellCore_local hh h).trans (ite_not ..).symm)]
  · exact absurd h h1
  · rw [if_neg (by simp [h]), if_pos h, scTarget_of_cell ha h1 hb (cellCore_cluster hh h)]
  · rw [if_neg (by simp [h]), if_neg (by simp [h]), scTarget_of_cell ha h1 hb (cellCore_package hh h)]

end scTarget

/-- A presenter that is an engine outlives no task. -/
theorem outlived_eng (m : Mach) (t : Fin 256) (c : Fin 64) (g : Fin 256) (e : Engine) : m.outlived t c (.eng g e) = false := by
  simp [Mach.outlived, Mach.issuer]

theorem heldBy_iff (m : Mach) (g t : Fin 256) (e : Engine) : heldBy m g e t = true ↔
    g ≠ t ∧ ¬ (m.occupied t (m.ctxOf g) = true ∧
      ∀ r, ((m.core t).portq.filter fun r => r.ctx = m.ctxOf g && m.live r.who).head? = some r → r.who = .eng g e) := by
  have ha : m.admits t (m.ctxOf g) (.eng g e) = true ↔ m.occupied t (m.ctxOf g) = true ∧
      ∀ r, (m.queued t (m.ctxOf g)).head? = some r → r.who = .eng g e := by
    rw [Mach.admits, outlived_eng, Bool.or_false, Bool.and_eq_true]
    cases (m.queued t (m.ctxOf g)).head? <;> simp
  rw [heldBy, Bool.and_eq_true, decide_eq_true_iff, Bool.not_eq_true', ← Bool.not_eq_true, ha]
  rfl

section load
variable {i : Instr} {s : State} {g : Fin 256} {d a : Fin 32} {fn : BitVec 15} {n : Nat} {signed acc : Bool} {t : Fin 256} {b : Nat}

/-- A load is the access of SC that its form names. -/
theorem exec_load (hi : loadForm i = some (d, a, fn, n, signed)) (s : State) :
    exec i s = scAccess i a fn n (fun _ => []) (some ⟨d, n, signed⟩) s ∧
    memFault s.m g i = causeOf (scTarget s.m g (effAddr ((s.m.core g).rs a) fn) n) := by
  cases i with
  | sld _ _ _ _ | sldW _ _ _ _ | sldWs _ _ _ _ =>
    obtain ⟨rfl, rfl, rfl, rfl, rfl⟩ := by simpa [loadForm] using hi
    exact ⟨rfl, rfl⟩
  | _ => exact nomatch hi

/-- SC at an access that its target's port does not admit waits in its place there (R149, R213). -/
theorem scAccess_held {bytes : Core → List Byte} {load : Option PendLoad} {x : Nat} (h : mayIssue i s g .sc)
    (hf : memFault s.m g i = causeOf (scTarget s.m g (effAddr ((s.m.core g).rs a) fn) n))
    (ht : scTarget s.m g (effAddr ((s.m.core g).rs a) fn) n = .ok (t, acc, x)) (hh : heldBy s.m g .sc t = true) :
    scAccess i a fn n bytes load s =
      .next (after s ((s.m.enqueue t (s.m.ctxOf g) (.eng g .sc)).waitOn g .sc (.held t) (tk i))) := by
  have hp : memFault s.m g i = none := by rw [hf, ht]; rfl
  rw [scAccess, soloParcel_own h.1.1 h.1.2, after, issue_waits h hp]
  simp only [ht, hh, if_true]
  rfl

end load

/-- What a load's bytes are as a number (R5). -/
theorem portLoad_byte (m : Mach) (t : Fin 256) (acc : Bool) (a : Nat) {n k : Nat} (hk : k < n) :
    m.portLoad t acc a n / 2 ^ (8 * k) % 2 ^ 8 = (if acc then accByte m t (a + k) else spadByte m t (a + k)).toNat := by
  rw [Mach.portLoad, leVal_byte, Memory.read, List.getD_eq_getElem?_getD, List.getElem?_map, List.getElem?_range hk]
  cases acc <;> rfl

theorem portLoad_lt (m : Mach) (t : Fin 256) (acc : Bool) (a n : Nat) : m.portLoad t acc a n < 2 ^ (8 * n) := by
  have := leVal_lt (Memory.read (if acc then (m.core t).acc else (m.core t).spad) a n)
  rwa [Memory.read, List.length_map, List.length_range, show 256 = 2 ^ 8 from rfl, ← pow_mul] at this

theorem performNow_load {m : Mach} {g : Fin 256} {p : PendAccess} {l : PendLoad} (h : (m.core g).pend = some p) (hl : p.load = some l)
    (hs : sound m) : m.performNow g = m.onCore g fun c => (({ c with pend := none } : Core).ws l.reg
      (if l.signed then (BitVec.ofNat (8 * l.size) (m.portLoad p.core p.acc p.addr l.size)).signExtend 64
       else BitVec.ofNat 64 (m.portLoad p.core p.acc p.addr l.size))).pushTok .sc p.sig := by
  simp only [Mach.performNow, h, hl, portRead_good _ _ (hs p.core), if_true]

/-- Settles O13: `scTarget_eq` is the address; SC presents the load or waits; the port reads the number of the bytes. -/
theorem scalarLoadsReadTheirBytes : Obligations.ScalarLoadsReadTheirBytes := by
  refine ⟨fun m g x n => ?_, fun i s g d a fn n signed t acc b h hi ht => ?_, fun m g p l h hl hs => ?_, fun m g t e => heldBy_iff m g t e⟩
  · have h := scTarget_eq m g x n
    rwa [eaByte_eq, wf_top (lo := 24) (by decide), wf_top (lo := 32) (by decide)] at h
  · obtain ⟨he, hf⟩ := exec_load (g := g) hi s
    rw [he]
    exact ⟨fun hh => scAccess_presents h hf ht hh, fun hh => scAccess_held h hf ht hh⟩
  · exact ⟨_, fun k hk => portLoad_byte m p.core p.acc p.addr hk, portLoad_lt .., performNow_load h hl hs⟩

end Sys2Proof.Proofs

namespace Sys2Proof.Proofs
open Sys2Proof Sys2Proof.Machine Sys2Proof.Claims

/-! ## What a parcel of AS does besides completing -/

section asParcel
variable {i : Instr} {s : State} {g : Fin 256} {eff : Fin 256 → Mach → Eff} {fin : Fin 256 → Mach → Mach}
  {work : Fin 4 → UnitKind → Mach → Mach}

/-- What a parcel's effect makes of the machine (R13, R59). -/
def settled (i : Instr) (g : Fin 256) (fin : Mach → Mach) (m : Mach) : Eff → Mach
  | .trap c code info => m.takeTrap g .asy c code (infoOr c info i)
  | .wait m' => m'
  | .done m' => fin m'

/-- A parcel of AS whose operands have no fault acts as its effect says. -/
theorem asParcel_settled {x : Eff} (h : asMayIssue i s g) (hp : asFault s.m g i = none) (he : eff g s.m = x) :
    asParcel i eff fin work s = .next (after s (settled i g (fin g) s.m x)) := by
  obtain ⟨⟨⟨hb, hf⟩, hw, ht, hs⟩, ⟨x, hx⟩, -⟩ := id h
  rw [asParcel_go hb hf hw ht (by simp [hx]) (sigFull_of_asMayIssue h) hs hp, he, after]
  rfl

theorem asPast_eq (m : Mach) : after s (asRetire i g m) = asPast s g i m := rfl

theorem pastRel_iff_behindRel (c : Core) (e : Engine) : c.pastRel e = true ↔ behindRel c e := by
  unfold Core.pastRel behindRel
  cases c.pend with
  | none => simp
  | some p => cases hr : p.rel <;> simp [hr]

/-- A write of AS that stands behind no release may present itself (R204, R205). -/
theorem releaseReady_of_storeFirst {c : Core} (hw : writesMem i = true) (h : c.storeFirst .asy i = false) (x : Scope) :
    c.releaseReady g .asy x = true := by
  unfold Core.releaseReady
  cases hp : c.pend with
  | none => rfl
  | some p =>
    have : c.pastRel .asy = false := by simpa [Core.storeFirst, hp, hw] using h
    simp [this]

/-- A write of AS behind a release waits for the access that SC has presented (R204, R205). -/
theorem asParcel_behindRel (ha : acts s g .asy) (hi : i.wellFormed = true) (hw : writesMem i = true)
    (hb : behindRel (s.m.core g) .asy) : asParcel i eff fin work s = .next s := by
  obtain ⟨hboot, hfocus⟩ := ha
  have hst : (s.m.core g).storeFirst .asy i = true := by
    have hp := (pastRel_iff_behindRel _ _).2 hb
    obtain ⟨p, -, hpend, -⟩ := hb
    simp [Core.storeFirst, hpend, hw, hp]
  rw [asParcel_as hboot hfocus, asIssue, issue_store (illForm_of_wellFormed hi) hst]

end asParcel

/-! ## Fields of a block that are in range -/

theorem wf_low_of_lt {x : Word} {n : Nat} (h : x.toNat < 2 ^ n) : wf x 0 n = x.toNat := by
  rw [wf_low, Nat.mod_eq_of_lt h]

theorem hiZero_of_lt {ws : List Word} {k lo : Nat} (hlo : lo ≤ 64) (h : (blkW ws k).toNat < 2 ^ lo) : hiZero ws k lo = true := by
  rw [hiZero, wf_top hlo, Nat.div_eq_of_lt h]
  rfl

/-! ## Cells (R189, R377, R378) -/

section cells
variable {s : State} {g d : Fin 256} {x : Nat} {t : Tok}

theorem servedAt_ctxs (m : Mach) (g : Fin 256) (e : Engine) (d : Fin 256) : (m.servedAt g e d).ctxs = m.ctxs := by
  obtain ⟨_, _, h⟩ := dequeue_frame m d (m.ctxOf g) (.eng g e); rw [Mach.servedAt, h]

theorem servedAt_ctxOf (m : Mach) (g : Fin 256) (e : Engine) (d k : Fin 256) : (m.servedAt g e d).ctxOf k = m.ctxOf k := by
  have : ((m.servedAt g e d).core k).task = (m.core k).task :=
    dequeue_keeps _ _ _ _ Core.task (fun _ _ => rfl) (fun _ _ => rfl) k
  rw [Mach.ctxOf, this, Mach.ctxOf]

/-- BINIT writes its cell's word; a BWAIT that it ends changes no memory. -/
theorem initCell_spad (m : Mach) (c : Fin 64) (d k : Fin 256) (a n : Nat) (sig : BitVec 16) :
    ((m.initCell c d a n sig).core k).spad =
      if k = d then Memory.write (m.core d).spad a (leBytes 8 (n + n * 2 ^ 32)) else (m.core k).spad := by
  have h : (m.initCell c d a n sig).core k = satisfyBar c d a false ((m.wspad d a (leBytes 8 (n + n * 2 ^ 32))).core k) := each_core _ _ k
  rw [h, satisfyBar_spad, wspad_core_spad]

theorem initCell_signallers (m : Mach) (c : Fin 64) (d : Fin 256) (a n : Nat) (sig : BitVec 16) :
    (m.initCell c d a n sig).signallers = ((c, d, a), sig) :: m.signallers.filter fun s => s.1 ≠ (c, d, a) := rfl

theorem initCell_frame (m : Mach) (c : Fin 64) (d : Fin 256) (a n : Nat) (sig : BitVec 16) :
    ∃ x y, m.initCell c d a n sig = { m with cores := x, signallers := y } := ⟨_, _, rfl⟩

/-- The cell's word holds the count twice. -/
theorem initCell_word (m : Mach) (c : Fin 64) (d : Fin 256) (a : Nat) {n : Nat} (sig : BitVec 16) (hn : n < 2 ^ 31) :
    (Memory.readW ((m.initCell c d a n sig).core d).spad a).toNat = n + n * 2 ^ 32 := by
  rw [initCell_spad, if_pos rfl, readW_word, BitVec.toNat_ofNat]
  exact Nat.mod_eq_of_lt (by omega)

/-- The block of a BINIT that has no fault. -/
structure BinitOk (ws : List Word) : Prop where
  cell : (blkW ws 0).toNat < 2 ^ 32
  count : 0 < (blkW ws 1).toNat
  countHi : (blkW ws 1).toNat < 2 ^ 31
  signaller : (blkW ws 2).toNat < 2 ^ 16
  agent : agentCode (blkW ws 2).toNat = true
  rest : ∀ k, k < 5 → blkW ws (3 + k) = 0

/-- BINIT sets its cell, or waits at the cell's port. -/
theorem exec_binit {a : Fin 32} (h : asMayIssue (.binit t a) s g) (hm : sound s.m) (hb : blockOk s.m g 64)
    (hc : cellAt s.m g (BitVec.ofNat 64 ((blkW (blockWords s.m g 64) 0).toNat % 2 ^ 32)) = some (d, x))
    (ho : BinitOk (blockWords s.m g 64)) :
    exec (.binit t a) s = .next (after s (settled (.binit t a) g (asRetire (.binit t a) g) s.m
      (if heldBy s.m g .asy d then s.m.heldAt g .asy d t
       else .done ((s.m.servedAt g .asy d).initCell (s.m.ctxOf g) d x (blkW (blockWords s.m g 64) 1).toNat
         ((blkW (blockWords s.m g 64) 2).extractLsb' 0 16))))) := by
  obtain ⟨-, ⟨y, hy⟩, -⟩ := id h
  have hf : asFault s.m g (.binit t a) = none := by
    simp [asFault, hy, blockBytes, blockFault_none hb.1 hb.2]
  refine asParcel_settled h hf ?_
  rw [asBlock_ok hb.1 hb.2 (hm g), ← blockWords]
  rw [← wf_low] at hc
  have hcell := hiZero_of_lt (lo := 32) (by decide) ho.cell
  have hcount := hiZero_of_lt (lo := 31) (by decide) ho.countHi
  have hsig := hiZero_of_lt (lo := 16) (by decide) ho.signaller
  simp [hc, hcell, hcount, hsig, wf_low_of_lt ho.countHi, wf_low_of_lt ho.signaller, ho.agent, Nat.pos_iff_ne_zero.1 ho.count]
  exact fun k hk hne => absurd (ho.rest k hk) hne

theorem cell_asFault {i : Instr} (hi : (∃ t b, i = .barv t b) ∨ ∃ t b p, i = .bwait t b p) (h : asMayIssue i s g)
    (hc : cellAt s.m g (s.m.core g).opSb = some (d, x)) : asFault s.m g i = none := by
  obtain ⟨-, ⟨y, hy⟩, -⟩ := h
  obtain ⟨t, b, rfl⟩ | ⟨t, b, p, rfl⟩ := hi <;> simp [asFault, hy, hc]

/-- BARV arrives at its cell, or leaves its arrival with the cell's port. -/
theorem exec_barv {b : Fin 32} (h : asMayIssue (.barv t b) s g) (hc : cellAt s.m g (s.m.core g).opSb = some (d, x)) :
    exec (.barv t b) s = .next (after s (settled (.barv t b) g (asRetire (.barv t b) g) s.m
      (if heldBy s.m g .asy d then
         .wait ((({ s.m with arrivals := s.m.arrivals ++ [⟨d, x, .eng g .asy, s.m.ctxOf g⟩] } : Mach).enqueue d (s.m.ctxOf g)
           (.eng g .asy)).waitOn g .asy (.arrival d) t)
       else .done ((s.m.servedAt g .asy d).arrive d x (s.m.ctxOf g))))) := by
  obtain ⟨⟨-, -, -, hst⟩, -, -⟩ := id h
  refine asParcel_settled h (cell_asFault (.inl ⟨t, b, rfl⟩) h hc) ?_
  simp only [hc, releaseReady_of_storeFirst rfl hst, Bool.not_true, Bool.false_eq_true, if_false]

/-- BWAIT passes where its cell has the parity, and waits there or at the cell's port otherwise. -/
theorem exec_bwait {b : Fin 32} {p : Bool} (h : asMayIssue (.bwait t b p) s g) (hm : sound s.m)
    (hc : cellAt s.m g (s.m.core g).opSb = some (d, x)) :
    exec (.bwait t b p) s = .next (after s (settled (.bwait t b p) g (asRetire (.bwait t b p) g) s.m
      (if heldBy s.m g .asy d then s.m.heldAt g .asy d t
       else if (Memory.readW (s.m.core d).spad x).getLsbD 63 = p then .done (s.m.servedAt g .asy d)
       else .wait ((s.m.servedAt g .asy d).waitOn g .asy (.bar d x p) t)))) := by
  refine asParcel_settled h (cell_asFault (.inr ⟨t, b, p, rfl⟩) h hc) ?_
  simp only [hc, portRead_good _ _ (servedAt_clean hm .asy d), servedAt_spad, Bool.not_true, Bool.false_eq_true, if_false, wb]

end cells

/-! ## Arrivals that a port has kept (R149, R189, R253) -/

section arrival
variable {m : Mach} {k : Nat} {x : Arrival}

theorem applyArrival_kept (hx : m.arrivals[k]? = some x) (ha : m.admits x.cell x.ctx x.who = false) : m.applyArrival k = m := by
  simp [Mach.applyArrival, hx, ha]

theorem endWait_spad (c : Core) (e : Engine) (t : Tok) : (c.endWait e t).spad = c.spad := by
  unfold Core.endWait
  split
  · exact retire_spad ..
  · exact retire_spad ..

/-- The arrival is applied at its cell, and what the BARV that presented it does then is no memory's. -/
theorem applyArrival_admitted (hx : m.arrivals[k]? = some x) (ha : m.admits x.cell x.ctx x.who = true) (hm : sound m) :
    (m.applyArrival k).arrivals = m.arrivals.eraseIdx k ∧
    ∀ h, ((m.applyArrival k).core h).spad = ((m.arrive x.cell x.addr x.ctx).core h).spad := by
  let m1 := ({ m with arrivals := m.arrivals.eraseIdx k } : Mach).dequeue x.cell x.ctx x.who
  let m2 := m1.arrive x.cell x.addr x.ctx
  have hkeep {α : Type} (F : Core → α) (hq : ∀ (k : Core) x, F { k with portq := x } = F k)
      (hl : ∀ (k : Core) x, F { k with lastReq := x } = F k) (h : Fin 256) : F (m1.core h) = F (m.core h) := dequeue_keeps _ _ _ _ F hq hl h
  have hclean : (m1.core x.cell).clean = true := (hkeep Core.clean (fun _ _ => rfl) (fun _ _ => rfl) _).trans (hm _)
  have harr : m2.arrivals = m.arrivals.eraseIdx k := by
    obtain ⟨_, _, _, e⟩ := arrive_frame m1 x.cell x.addr x.ctx hclean
    obtain ⟨_, _, e'⟩ := dequeue_frame ({ m with arrivals := m.arrivals.eraseIdx k } : Mach) x.cell x.ctx x.who
    rw [show m2 = _ from e, show m1 = _ from e']
  have hspad (h : Fin 256) : (m2.core h).spad = ((m.arrive x.cell x.addr x.ctx).core h).spad := by
    rw [arrive_spad _ _ hclean, arrive_spad _ _ (hm _), hkeep Core.spad (fun _ _ => rfl) (fun _ _ => rfl),
      hkeep Core.spad (fun _ _ => rfl) (fun _ _ => rfl)]
  have hend : m.applyArrival k = m2 ∨ ∃ g f, (∀ c, (f c : Core).spad = c.spad) ∧ m.applyArrival k = m2.onCore g f := by
    simp only [Mach.applyArrival, hx, ha, Bool.not_true, Bool.false_eq_true, if_false]
    split
    · refine .inr ⟨_, _, fun c => ?_, rfl⟩
      split
      · split
        · exact endWait_spad ..
        · rfl
      · rfl
    · exact .inl rfl
  obtain e | ⟨g, f, hf, e⟩ := hend
  · rw [e]; exact ⟨harr, hspad⟩
  · rw [e]; exact ⟨harr, fun h => (onCore_keeps _ _ _ _ Core.spad hf).trans (hspad h)⟩

end arrival

/-! ## The scope of an operation on a cell (R203) -/

theorem same_die_iff (g d : Fin 256) : dieOf d = dieOf g ↔ d.val / 64 = g.val / 64 := by
  have := g.isLt
  have := d.isLt
  simp only [dieOf, toDie, Fin.ext_iff, Fin.val_ofNat]
  omega

theorem same_cluster_iff (g d : Fin 256) : (dieOf d = dieOf g ∧ clusterOf d = clusterOf g) ↔ d.val / 8 = g.val / 8 := by
  rw [same_die_iff]
  simp only [clusterOf]
  omega

theorem opScope_port (g d : Fin 256) : opScope (.core g) (.port d) =
    if d = g then .core else if d.val / 8 = g.val / 8 then .cluster else if d.val / 64 = g.val / 64 then .die else .package := by
  have hcluster := same_cluster_iff g d
  have hdie := same_die_iff g d
  by_cases h : d = g
  · simp [opScope, Point.within, h]
  by_cases hc : d.val / 8 = g.val / 8
  · simp [opScope, Point.within, h, hc, hcluster.2 hc]
  by_cases hd : d.val / 64 = g.val / 64
  · have hn : ¬ clusterOf d = clusterOf g := fun hk => hc (hcluster.1 ⟨hdie.2 hd, hk⟩)
    simp [opScope, Point.within, Actor.die', h, hc, hd, hdie.2 hd, hn]
  · have hn : ¬ dieOf d = dieOf g := fun hk => hd (hdie.1 hk)
    simp [opScope, Point.within, Point.inPackage, Actor.die', h, hc, hd, hn]

/-- Settles O35: each instruction acts at the cell that `cellAt` gives, or waits at its port. -/
theorem barriersInitArriveAndWait : Obligations.BarriersInitArriveAndWait := by
  refine ⟨fun t a s g d x h hm hb => ?_, fun t b s g d x h hc => ?_, fun t b p s g d x h hm hc => ?_,
    fun k s x hboot hx => ?_, opScope_port, fun t b s g ha hw hbr => asParcel_behindRel ha hw rfl hbr⟩
  · intro ws n hc h0 hn h1 h2 hag hr
    have he := exec_binit h hm hb hc ⟨h0, hn, h1, h2, hag, hr⟩
    refine ⟨fun hh => ?_, fun hh => ?_⟩
    · rw [hh] at he
      obtain ⟨y, z, e⟩ := initCell_frame (s.m.servedAt g .asy d) (s.m.ctxOf g) d x n ((blkW ws 2).extractLsb' 0 16)
      refine ⟨_, he, initCell_word _ _ _ _ _ h1, ?_, ?_, (congrArg Mach.dev e).trans (dequeue_dev ..),
        (congrArg Mach.ctxs e).trans (servedAt_ctxs ..), (congrArg Mach.ops e).trans (dequeue_ops ..)⟩
      · rw [initCell_spad, if_pos rfl, servedAt_spad]
        exact sameButBytes_word _ _ _
      · have : BitVec.ofNat 16 (blkW ws 2).toNat = (blkW ws 2).extractLsb' 0 16 := BitVec.eq_of_toNat_eq (by simp)
        rw [this, initCell_signallers]
        exact List.mem_cons_self
    · rw [hh] at he
      exact he
  · have he := exec_barv h hc
    exact ⟨fun hh => by rw [hh] at he; exact he, fun hh => by rw [hh] at he; exact he⟩
  · intro par
    have he := exec_bwait h hm hc
    refine ⟨fun hh hp => ?_, fun hh hp => ?_, fun hh => ?_⟩
    · rw [hh, if_neg Bool.false_ne_true, if_pos hp] at he
      exact he
    · rw [hh, if_neg Bool.false_ne_true, if_neg hp] at he
      exact he
    · rw [hh] at he
      exact he
  · have he : exec (.barrierArrival k) s = .next (after s (s.m.applyArrival k)) := ready_of_ready (f := fun m => m.applyArrival k) hboot
    refine ⟨fun ha => ?_, fun ha hm => ?_⟩
    · rw [he, applyArrival_kept hx ha, after]
    · exact ⟨_, he, applyArrival_admitted hx ha hm⟩

end Sys2Proof.Proofs

namespace Sys2Proof.Proofs
open Sys2Proof Sys2Proof.Machine Sys2Proof.Claims

/-! ## What a served request leaves (R149) -/

theorem keeps_of_sameButClock {α : Type} {x y : Die} (h : sameButClock x y) (F : Die → α) (hF : ∀ (x : Die) c, F { x with cycle := c } = F x) :
    F y = F x := by
  unfold sameButClock at h
  generalize y.cycle = v at h
  rw [h, hF]

section dequeue
variable (m : Mach) (t : Fin 256) (c : Fin 64) (w : Who)

theorem dequeue_die (d : Fin 4) : sameButClock (m.die d) ((m.dequeue t c w).die d) := by
  obtain ⟨x, e⟩ := unqueue_frame m t c w
  rw [Mach.dequeue, e]
  exact noteReq_die _ t w d

/-- Who presents a request still does once another has been served. -/
theorem dequeue_live (x : Who) : (m.dequeue t c w).live x = m.live x := by
  obtain ⟨cores, dies, e⟩ := dequeue_frame m t c w
  cases x with
  | eng g k => exact dequeue_keeps _ _ _ _ (fun c => (c.e k).wait.isSome) (fun _ _ => rfl) (fun _ _ => rfl) g
  | op | ent | msg => rw [e]; rfl
  | shard d s => exact keeps_of_sameButClock (dequeue_die m t c w d) (fun x => (x.belfry.slots[s.val]).running) fun _ _ => rfl
  | row d k => exact keeps_of_sameButClock (dequeue_die m t c w d) (fun x => x.cup.accepted.any fun r => r.acc = k) fun _ _ => rfl
  | lan d => exact keeps_of_sameButClock (dequeue_die m t c w d) (fun x => x.lan.run.isSome) fun _ _ => rfl

theorem dequeue_ring (k : Fin 256) (r : Fin 16) : (m.dequeue t c w).ring k r = m.ring k r :=
  dequeue_keeps _ _ _ _ (fun c => c.rings[r.val]) (fun _ _ => rfl) (fun _ _ => rfl) k

theorem dequeue_ringWaits (k : Fin 256) : ((m.dequeue t c w).core k).ringWaits = (m.core k).ringWaits :=
  dequeue_keeps _ _ _ _ Core.ringWaits (fun _ _ => rfl) (fun _ _ => rfl) k

theorem dequeue_occupied (k : Fin 256) (x : Fin 64) : (m.dequeue t c w).occupied k x = m.occupied k x := by
  have : ((m.dequeue t c w).core k).task = (m.core k).task :=
    dequeue_keeps _ _ _ _ Core.task (fun _ _ => rfl) (fun _ _ => rfl) k
  rw [Mach.occupied, this, Mach.occupied]

theorem dequeue_ringFirst (k : Fin 256) (r : Fin 16) (q : RingKind) : (m.dequeue t c w).ringFirst k r q = m.ringFirst k r q := by
  simp only [Mach.ringFirst, dequeue_ringWaits, dequeue_occupied, dequeue_live]

end dequeue

/-! ## Requests that wait at a ring (R163, R164) -/

/-- A request that waits at ring r of core t for a slot of kind k, and may be granted there. -/
def waitsAt (m : Mach) (t : Fin 256) (r : Fin 16) (k : RingKind) (w : RingWait) : Prop :=
  w.ring = r ∧ w.kind = k ∧ m.occupied t w.ctx = true ∧ m.live w.who = true

section ringFirst
variable (m : Mach) (t : Fin 256) (r : Fin 16) (k : RingKind)

theorem waitsAt_iff (w : RingWait) : (w.ring = r && w.kind = k && m.occupied t w.ctx && m.live w.who) = true ↔ waitsAt m t r k w := by
  simp [waitsAt, and_assoc]

theorem ringFirst_eq_none_iff : m.ringFirst t r k = none ↔ ∀ w ∈ (m.core t).ringWaits, ¬ waitsAt m t r k w := by
  rw [Mach.ringFirst, List.find?_eq_none]
  simp only [waitsAt_iff]

theorem ringFirst_eq_some_iff (w : RingWait) : m.ringFirst t r k = some w ↔ waitsAt m t r k w ∧
    ∃ a b, (m.core t).ringWaits = a ++ w :: b ∧ ∀ y ∈ a, ¬ waitsAt m t r k y := by
  rw [Mach.ringFirst, List.find?_eq_some_iff_append]
  simp only [Bool.not_eq_true', ← Bool.not_eq_true, waitsAt_iff]

/-- Where nobody but w waits, w is served where the counts allow. -/
theorem ringFree_of_alone {w : Who} (h : ∀ x ∈ (m.core t).ringWaits, waitsAt m t r k x → x.who = w) :
    m.ringFree t r k w = (m.ring t r).ready k := by
  unfold Mach.ringFree
  cases hf : m.ringFirst t r k with
  | none => simp
  | some x =>
    obtain ⟨hx, a, b, hl, -⟩ := (ringFirst_eq_some_iff m t r k x).1 hf
    have := h x (by simp [hl]) hx
    simp [this]

end ringFirst

section ready
variable (q : Ring)

theorem ready_we : q.ready .we = true ↔ (q.pclaim - q.crel).toNat < q.nslot.toNat := by simp [Ring.ready]
theorem ready_wf : q.ready .wf = true ↔ 0 < (q.ppub - q.cclaim).toNat := by simp [Ring.ready]

theorem not_ready_wf (h : q.ppub = q.cclaim) : q.ready .wf = false := by simp [Ring.ready, h]
theorem not_ready_we (h : q.nslot.toNat ≤ (q.pclaim - q.crel).toNat) : q.ready .we = false := by
  simpa [Ring.ready] using h

end ready

/-! ## Grants (R163, R168) -/

section grantRing
variable (m : Mach) (t g : Fin 256) (r : Fin 16) (k : RingKind) (a : Nat)

theorem grantRing_core (h : Fin 256) : (m.grantRing t r k g a).core h =
    let c := if h = t then { m.core t with rings := Machine.put (m.core t).rings r ((m.ring t r).grant k).2 } else m.core h
    if h = g then c.wspad a (leBytes 8 ((m.ring t r).word ((m.ring t r).grant k).1)) else c := by
  have hr : (m.onRing t r fun _ => ((m.ring t r).grant k).2).core h =
      if h = t then { m.core t with rings := Machine.put (m.core t).rings r ((m.ring t r).grant k).2 } else m.core h := by
    rw [Mach.onRing, onCore_core_eq]
    split
    · next e => rw [e]; rfl
    · rfl
  rw [Mach.grantRing, Mach.wspad, onCore_core_eq, hr]

theorem grantRing_ring : (m.grantRing t r k g a).ring t r = ((m.ring t r).grant k).2 := by
  have h (c : Core) (bs : List Byte) : (c.wspad a bs).rings = c.rings := rfl
  rw [Mach.ring, grantRing_core]
  dsimp only
  split <;> simp only [if_true, h, put_same]

theorem grantRing_spad (h : Fin 256) : ((m.grantRing t r k g a).core h).spad =
    if h = g then Memory.write (m.core g).spad a (leBytes 8 ((m.ring t r).word ((m.ring t r).grant k).1)) else (m.core h).spad := by
  have hs : (if h = t then { m.core t with rings := Machine.put (m.core t).rings r ((m.ring t r).grant k).2 } else m.core h).spad
      = (m.core h).spad := by
    split
    · next e => rw [e]
    · rfl
  rw [grantRing_core]
  dsimp only
  split
  · next e => rw [wspad_spad, hs, e]
  · exact hs

theorem grantRing_keeps {α : Type} (F : Core → α) (hr : ∀ (c : Core) x, F { c with rings := x } = F c)
    (hw : ∀ (c : Core) a bs, F (c.wspad a bs) = F c) (h : Fin 256) : F ((m.grantRing t r k g a).core h) = F (m.core h) := by
  rw [Mach.grantRing, Mach.wspad, onCore_keeps _ _ _ _ F fun c => hw c _ _, Mach.onRing, onCore_keeps _ _ _ _ F fun c => hr c _]

end grantRing

/-! ## The end of a wait (R59, R172) -/

section endWait
variable (c : Core) (t : Tok)

theorem endWait_frame : ∃ o x y q, c.endWait .asy t = { c with out := o, tok := x, eng := y, cq := q } := by
  obtain ⟨x, y, e⟩ := retire_frame (c.popOut .asy) .asy t 1
  rw [Core.endWait, if_pos rfl, e]
  exact ⟨_, _, _, _, rfl⟩

theorem endWait_asy {α : Type} (F : EngState → α) (h : ∀ (x : EngState) q, F { x with owed := q } = F x) :
    F ((c.endWait .asy t).e .asy) = F ((c.e .asy).advance 1) := leave_keeps (c.popOut .asy) .asy t _ F h

end endWait

/-- AS past the parcel that waits at ring r of core t for a slot of kind k, where one does. -/
def endRingWait (t : Fin 256) (r : Fin 16) (k : RingKind) (c : Core) : Core :=
  match (c.e .asy).wait with
  | some x => if x.on = .ring t r k then c.endWait .asy x.tok else c
  | none => c

section endRingWait
variable {t : Fin 256} {r : Fin 16} {k : RingKind} {c : Core}

theorem endRingWait_of_wait {x : Wait} (hw : (c.e .asy).wait = some x) (hx : x.on = .ring t r k) :
    endRingWait t r k c = c.endWait .asy x.tok := by simp [endRingWait, hw, hx]

theorem endRingWait_of_other (h : ((c.e .asy).wait).all (fun x => decide (x.on ≠ .ring t r k)) = true) : endRingWait t r k c = c := by
  unfold endRingWait
  split
  · next x hx => rw [if_neg (by simpa [hx] using h)]
  · rfl

theorem endRingWait_keeps {α : Type} (F : Core → α) (h : ∀ (c : Core) o x y q, F { c with out := o, tok := x, eng := y, cq := q } = F c) :
    F (endRingWait t r k c) = F c := by
  unfold endRingWait
  split
  · split
    · obtain ⟨o, x, y, q, e⟩ := endWait_frame c _
      rw [e, h]
    · rfl
  · rfl

end endRingWait

/-! ## Waiting requests granted in order (R164) -/

/-- The machine once the request w of AS of core g, the first at ring r of core t, has been granted. -/
def ringServed (m : Mach) (t : Fin 256) (r : Fin 16) (k : RingKind) (g : Fin 256) (w : RingWait) : Mach :=
  ((m.onCore t fun c => { c with ringWaits := c.ringWaits.erase w }).grantRing t r k g w.addr).onCore g (endRingWait t r k)

section serveRing
variable {m : Mach} {t g : Fin 256} {r : Fin 16} {k : RingKind} {w : RingWait} (n : Nat)

theorem serveRing_of_none (h : m.ringFirst t r k = none) : m.serveRing t r k (n + 1) = m := by simp [Mach.serveRing, h]

theorem serveRing_of_notReady (h : m.ringFirst t r k = some w) (hr : (m.ring t r).ready k = false) : m.serveRing t r k (n + 1) = m := by
  simp only [Mach.serveRing, h, hr]
  split <;> rfl

/-- A unit takes its slot at its own move. -/
theorem serveRing_of_unit (h : m.ringFirst t r k = some w) (hw : ∀ g e, w.who ≠ .eng g e) : m.serveRing t r k (n + 1) = m := by
  simp only [Mach.serveRing, h]

theorem serveRing_succ {e : Engine} (h : m.ringFirst t r k = some w) (hw : w.who = .eng g e) (hr : (m.ring t r).ready k = true) :
    m.serveRing t r k (n + 1) = (ringServed m t r k g w).serveRing t r k n := by
  simp only [Mach.serveRing, h, hw, hr, Bool.not_true, Bool.false_eq_true, if_false]
  rfl

end serveRing

section ringServed
variable (m : Mach) (t g : Fin 256) (r : Fin 16) (k : RingKind) (w : RingWait)

/-- What neither the ring's queue nor a grant nor the end of a wait changes of a core. -/
theorem ringServed_keeps {α : Type} (F : Core → α) (hq : ∀ (c : Core) x, F { c with ringWaits := x } = F c)
    (hr : ∀ (c : Core) x, F { c with rings := x } = F c) (hs : ∀ (c : Core) a bs, F (c.wspad a bs) = F c)
    (he : ∀ (c : Core) o x y q, F { c with out := o, tok := x, eng := y, cq := q } = F c) (h : Fin 256) :
    F ((ringServed m t r k g w).core h) = F (m.core h) := by
  rw [ringServed, onCore_keeps _ _ _ _ F fun c => endRingWait_keeps F he, grantRing_keeps _ _ _ _ _ _ F hr hs,
    onCore_keeps _ _ _ _ F fun c => hq c _]

theorem ringServed_ring : (ringServed m t r k g w).ring t r = ((m.ring t r).grant k).2 := by
  have h0 : (m.onCore t fun c => { c with ringWaits := c.ringWaits.erase w }).ring t r = m.ring t r :=
    onCore_keeps _ _ _ _ (fun c => c.rings[r.val]) fun _ => rfl
  rw [ringServed, Mach.ring, onCore_keeps _ _ _ _ (fun c => c.rings[r.val]) fun c => endRingWait_keeps (fun c => c.rings[r.val])
    fun _ _ _ _ _ => rfl, ← Mach.ring, grantRing_ring, h0]

theorem ringServed_ringWaits : ((ringServed m t r k g w).core t).ringWaits = (m.core t).ringWaits.erase w := by
  rw [ringServed, onCore_keeps _ _ _ _ Core.ringWaits fun c => endRingWait_keeps Core.ringWaits fun _ _ _ _ _ => rfl,
    grantRing_keeps _ _ _ _ _ _ Core.ringWaits (fun _ _ => rfl) (fun _ _ _ => rfl), onCore_core]

theorem ringServed_touched : (ringServed m t r k g w).touched = m.touched := rfl

theorem ringServed_spad (h : Fin 256) : ((ringServed m t r k g w).core h).spad =
    if h = g then Memory.write (m.core g).spad w.addr (leBytes 8 ((m.ring t r).word ((m.ring t r).grant k).1)) else (m.core h).spad := by
  have h0 : (m.onCore t fun c => { c with ringWaits := c.ringWaits.erase w }).ring t r = m.ring t r :=
    onCore_keeps _ _ _ _ (fun c => c.rings[r.val]) fun _ => rfl
  have hs (h : Fin 256) : ((m.onCore t fun c => { c with ringWaits := c.ringWaits.erase w }).core h).spad = (m.core h).spad :=
    onCore_keeps _ _ _ _ Core.spad fun _ => rfl
  rw [ringServed, onCore_keeps _ _ _ _ Core.spad fun c => endRingWait_keeps Core.spad fun _ _ _ _ _ => rfl, grantRing_spad, h0, hs, hs]

/-- AS of the core that is granted, before its wait ends, is as it was. -/
theorem ringServed_core_self : ∃ c : Core, (ringServed m t r k g w).core g = endRingWait t r k c ∧ c.eng = (m.core g).eng := by
  refine ⟨_, onCore_core .., ?_⟩
  rw [grantRing_keeps _ _ _ _ _ _ Core.eng (fun _ _ => rfl) (fun _ _ _ => rfl)]
  exact onCore_keeps _ _ _ _ Core.eng fun _ => rfl

theorem ringServed_ends {x : Wait} (hw : ((m.core g).e .asy).wait = some x) (hx : x.on = .ring t r k) :
    (((ringServed m t r k g w).core g).e .asy).wait = none ∧
    (((ringServed m t r k g w).core g).e .asy).pc = ((m.core g).endWait .asy x.tok |>.e .asy).pc := by
  obtain ⟨c, hc, he⟩ := ringServed_core_self m t g r k w
  have ha : c.e .asy = (m.core g).e .asy := congrArg (·[(engIx .asy).val]) he
  rw [hc, endRingWait_of_wait (ha ▸ hw) hx, endWait_asy _ _ EngState.wait fun _ _ => rfl, endWait_asy _ _ EngState.pc fun _ _ => rfl,
    endWait_asy _ _ EngState.pc fun _ _ => rfl, ha]
  exact ⟨rfl, rfl⟩

theorem ringServed_other (h : (((m.core g).e .asy).wait).all (fun x => decide (x.on ≠ .ring t r k)) = true) :
    ((ringServed m t r k g w).core g).eng = (m.core g).eng := by
  obtain ⟨c, hc, he⟩ := ringServed_core_self m t g r k w
  have ha : c.e .asy = (m.core g).e .asy := congrArg (·[(engIx .asy).val]) he
  rw [hc, endRingWait_of_other (ha ▸ h), he]

end ringServed

end Sys2Proof.Proofs

namespace Sys2Proof.Proofs
open Sys2Proof Sys2Proof.Machine Sys2Proof.Claims

/-! ## The ring instructions of AS (R163, R422) -/

section rings
variable {i : Instr} {s : State} {g t : Fin 256} {r : Fin 16} {k : RingKind} {addr : BitVec 19}

theorem servedAt_ring (m : Mach) (g : Fin 256) (e : Engine) (t k : Fin 256) (r : Fin 16) : (m.servedAt g e t).ring k r = m.ring k r :=
  dequeue_ring ..

theorem servedAt_ringFree (m : Mach) (g : Fin 256) (e : Engine) (t : Fin 256) (w : Who) :
    (m.servedAt g e t).ringFree t r k w = m.ringFree t r k w := by
  simp only [Mach.ringFree, Mach.servedAt, dequeue_ring, dequeue_ringFirst]

theorem take_asFault {q : Tok} {b : Fin 32} (hi : i = .rngwe q b addr ∨ i = .rngwf q b addr) (h : asMayIssue i s g)
    (hr : ringAt s.m (s.m.core g).opSb = some (t, r)) (ha : 8 * addr.toNat + 8 ≤ 0x300000) : asFault s.m g i = none := by
  obtain ⟨-, ⟨y, hy⟩, -⟩ := h
  obtain rfl | rfl := hi <;> simp [asFault, hy, hr, inSpad, ha]

theorem give_asFault {q : Tok} {b : Fin 32} (hi : i = .rngpub q b ∨ i = .rngrel q b) (h : asMayIssue i s g)
    (hr : ringAt s.m (s.m.core g).opSb = some (t, r)) : asFault s.m g i = none := by
  obtain ⟨-, ⟨y, hy⟩, -⟩ := h
  obtain rfl | rfl := hi <;> simp [asFault, hy, hr]

/-- RNGWE and RNGWF take a slot where nobody waits before and the counts allow, and wait at the ring otherwise. -/
theorem ringTake_settled (h : asMayIssue i s g) (hf : asFault s.m g i = none) (hr : ringAt s.m (s.m.core g).opSb = some (t, r))
    (ha : 8 * addr.toNat + 8 ≤ 0x300000) (hh : heldBy s.m g .asy t = false) :
    ringTake i k addr s = .next (after s (settled i g (asRetire i g) s.m
      (if (s.m.ring t r).nslot = 0 then .fail .cmdMalformed
       else if s.m.ringFree t r k (.eng g .asy) then .done ((s.m.servedAt g .asy t).grantRing t r k g (8 * addr.toNat))
       else .wait (((s.m.servedAt g .asy t).onCore t fun c =>
         { c with ringWaits := c.ringWaits ++ [⟨r, k, s.m.ctxOf g, .eng g .asy, 8 * addr.toNat⟩] }).waitOn g .asy (.ring t r k) (tk i))))) := by
  refine asParcel_settled h hf ?_
  simp only [hr, hh, inSpad, ha, decide_true, Bool.not_true, Bool.false_eq_true, if_false, servedAt_ringFree, servedAt_ctxOf]

/-- What a grant to AS of core g leaves. -/
theorem granted_at (m : Mach) (g t : Fin 256) (r : Fin 16) (k : RingKind) (a : Nat) :
    ((m.servedAt g .asy t).grantRing t r k g a).ring t r = ((m.ring t r).grant k).2 ∧
    Memory.readW (((m.servedAt g .asy t).grantRing t r k g a).core g).spad a =
      BitVec.ofNat 64 ((m.ring t r).word ((m.ring t r).grant k).1) ∧
    sameButBytes (m.core g).spad (((m.servedAt g .asy t).grantRing t r k g a).core g).spad a 8 := by
  rw [grantRing_ring, grantRing_spad, if_pos rfl, readW_word, servedAt_ring, servedAt_spad]
  exact ⟨rfl, rfl, sameButBytes_word _ _ _⟩

/-- The machine once AS of core g has moved a count of ring r of core t. -/
def ringMoved (m : Mach) (g t : Fin 256) (r : Fin 16) (x : Ring) : Mach :=
  ({ m.servedAt g .asy t with touched := (t, 0x400000 + r.val) :: (m.servedAt g .asy t).touched } : Mach).onCore t fun c =>
    { c with rings := Machine.put c.rings r x }

theorem ringMoved_touched (m : Mach) (g t : Fin 256) (r : Fin 16) (x : Ring) :
    (ringMoved m g t r x).touched = (t, 0x400000 + r.val) :: m.touched := by
  have : (m.servedAt g .asy t).touched = m.touched := by
    obtain ⟨_, _, e⟩ := dequeue_frame m t (m.ctxOf g) (.eng g .asy)
    rw [Mach.servedAt, e]
  rw [ringMoved, onCore_touched, this]

theorem ringMoved_spad (m : Mach) (g t : Fin 256) (r : Fin 16) (x : Ring) (h : Fin 256) :
    ((ringMoved m g t r x).core h).spad = (m.core h).spad :=
  (onCore_keeps _ _ _ (fun c => { c with rings := Machine.put c.rings r x }) Core.spad fun _ => rfl).trans (servedAt_spad ..)

theorem ringMoved_ringWaits (m : Mach) (g t : Fin 256) (r : Fin 16) (x : Ring) (h : Fin 256) :
    ((ringMoved m g t r x).core h).ringWaits = (m.core h).ringWaits :=
  (onCore_keeps _ _ _ (fun c => { c with rings := Machine.put c.rings r x }) Core.ringWaits fun _ => rfl).trans (dequeue_ringWaits ..)

/-- RNGPUB and RNGREL move their count, and the requests of the other side are served. -/
theorem ringGive_settled {bad : Ring → Bool} {next : Ring → Ring} (h : asMayIssue i s g) (hw : writesMem i = true)
    (hf : asFault s.m g i = none) (hr : ringAt s.m (s.m.core g).opSb = some (t, r)) (hh : heldBy s.m g .asy t = false) :
    ringGive i bad next k s = .next (after s (settled i g (asRetire i g) s.m
      (if (s.m.ring t r).nslot = 0 || bad (s.m.ring t r) then .fail .cmdMalformed
       else .done ((ringMoved s.m g t r (next (s.m.ring t r))).serveRing t r k ((s.m.core t).ringWaits).length)))) := by
  obtain ⟨⟨-, -, -, hst⟩, -, -⟩ := id h
  have hmoved : ({ (s.m.servedAt g .asy t).onRing t r next with
      touched := (t, 0x400000 + r.val) :: (s.m.servedAt g .asy t).touched } : Mach) = ringMoved s.m g t r (next (s.m.ring t r)) := by
    have : (s.m.servedAt g .asy t).onRing t r next = (s.m.servedAt g .asy t).onCore t fun c =>
        { c with rings := Machine.put c.rings r (next (s.m.ring t r)) } := by
      rw [← servedAt_ring s.m g .asy t]
      exact onCore_congr rfl
    rw [this]
    rfl
  refine asParcel_settled h hf ?_
  simp only [hr, releaseReady_of_storeFirst hw hst, hh, Bool.not_true, Bool.false_eq_true, if_false]
  rw [← ringMoved_ringWaits s.m g t r (next (s.m.ring t r)), ← hmoved]

theorem settled_malformed : after s (settled i g (asRetire i g) s.m (.fail .cmdMalformed)) = asTrap s g i .cmdMalformed := rfl

/-- A parcel that takes a slot, where nobody waits before. -/
theorem ringTake_alone (he : exec i s = ringTake i k addr s) (h : asMayIssue i s g) (hf : asFault s.m g i = none)
    (hr : ringAt s.m (s.m.core g).opSb = some (t, r)) (ha : 8 * addr.toNat + 8 ≤ 0x300000) (hh : heldBy s.m g .asy t = false)
    (hn : (s.m.ring t r).nslot ≠ 0)
    (hmine : ∀ w ∈ (s.m.core t).ringWaits, waitsAt s.m t r k w → w.who = .eng g .asy) :
    ((s.m.ring t r).ready k = true → ∃ m' : Mach, exec i s = .next (asPast s g i m') ∧
      m'.ring t r = ((s.m.ring t r).grant k).2 ∧
      Memory.readW (m'.core g).spad (8 * addr.toNat) = BitVec.ofNat 64 ((s.m.ring t r).word ((s.m.ring t r).grant k).1) ∧
      sameButBytes (s.m.core g).spad (m'.core g).spad (8 * addr.toNat) 8) ∧
    ((s.m.ring t r).ready k = false → exec i s = .next (after s
      (((s.m.servedAt g .asy t).onCore t fun c =>
        { c with ringWaits := c.ringWaits ++ [⟨r, k, s.m.ctxOf g, .eng g .asy, 8 * addr.toNat⟩] }).waitOn g .asy (.ring t r k) (tk i)))) := by
  have hs := he.trans (ringTake_settled (k := k) h hf hr ha hh)
  rw [if_neg hn, ringFree_of_alone _ _ _ _ hmine] at hs
  refine ⟨fun hk => ?_, fun hk => ?_⟩
  · rw [if_pos hk] at hs
    exact ⟨_, hs, granted_at ..⟩
  · rw [hk] at hs
    exact hs

theorem ringTake_noSlots (he : exec i s = ringTake i k addr s) (h : asMayIssue i s g) (hf : asFault s.m g i = none)
    (hr : ringAt s.m (s.m.core g).opSb = some (t, r)) (ha : 8 * addr.toNat + 8 ≤ 0x300000) (hh : heldBy s.m g .asy t = false)
    (hn : (s.m.ring t r).nslot = 0) : exec i s = .next (asTrap s g i .cmdMalformed) := by
  have hs := he.trans (ringTake_settled (k := k) h hf hr ha hh)
  rwa [if_pos hn, settled_malformed] at hs

/-- A parcel that moves a count, or traps where the ring has no slots or the count cannot move. -/
theorem ringGive_cases {bad : Ring → Bool} {next : Ring → Ring} (he : exec i s = ringGive i bad next k s) (h : asMayIssue i s g)
    (hw : writesMem i = true) (hf : asFault s.m g i = none) (hr : ringAt s.m (s.m.core g).opSb = some (t, r))
    (hh : heldBy s.m g .asy t = false) :
    ((s.m.ring t r).nslot = 0 ∨ bad (s.m.ring t r) = true → exec i s = .next (asTrap s g i .cmdMalformed)) ∧
    ((s.m.ring t r).nslot ≠ 0 → bad (s.m.ring t r) = false →
      exec i s = .next (asPast s g i
        ((ringMoved s.m g t r (next (s.m.ring t r))).serveRing t r k ((s.m.core t).ringWaits).length)) ∧
      (ringMoved s.m g t r (next (s.m.ring t r))).touched = (t, 0x400000 + r.val) :: s.m.touched ∧
      ∀ h, ((ringMoved s.m g t r (next (s.m.ring t r))).core h).spad = (s.m.core h).spad) := by
  have hs := he.trans (ringGive_settled h hw hf hr hh)
  refine ⟨fun hb => ?_, fun hn hb => ?_⟩
  · rwa [if_pos (by simpa using hb), settled_malformed] at hs
  · rw [if_neg (by simpa using ⟨hn, hb⟩)] at hs
    exact ⟨hs, ringMoved_touched .., ringMoved_spad _ _ _ _ _⟩

end rings

/-! ## Blocks of the rings and of the translation memory (R165, R166, R382, R383, R423) -/

section blocks
variable {i : Instr} {s : State} {g : Fin 256}

/-- What a command that is whole at issue leaves to its operation. -/
def issuesWhole (i : Instr) (s : State) (g : Fin 256) (f : Core → Core) (x : Nat) : Prop :=
  ∃ o : Op, exec i s = .next (asWent s g i ((s.m.onCore g f).startOp o)) ∧ o.instr = i ∧ o.fin = true ∧ o.core = g ∧
    o.blk = blockWords s.m g 64 ∧ o.idx = x

theorem issuesWhole_congr {f f' : Core → Core} {x : Nat} (h : f (s.m.core g) = f' (s.m.core g)) (hi : issuesWhole i s g f x) :
    issuesWhole i s g f' x := by
  obtain ⟨o, he, ho⟩ := hi
  exact ⟨o, by rw [he, onCore_congr h], ho⟩

/-- The commands whose block of 64 bytes is applied whole at issue. -/
def isWhole (i : Instr) : Prop := (∃ t a, i = .rngcfg t a) ∨ (∃ t a, i = .btld t a) ∨ (∃ t a, i = .btlk t a) ∨ ∃ t a, i = .btinv t a

theorem isWhole_asFault (hi : isWhole i) (h : asMayIssue i s g) (hb : blockOk s.m g 64) : asFault s.m g i = none := by
  obtain ⟨-, ⟨y, hy⟩, -⟩ := h
  obtain ⟨t, a, rfl⟩ | ⟨t, a, rfl⟩ | ⟨t, a, rfl⟩ | ⟨t, a, rfl⟩ := hi <;>
    simp [asFault, hy, blockBytes, blockFault_none hb.1 hb.2]

theorem isWhole_owner (hi : isWhole i) : owner i = some .asy := by
  obtain ⟨t, a, rfl⟩ | ⟨t, a, rfl⟩ | ⟨t, a, rfl⟩ | ⟨t, a, rfl⟩ := hi <;> rfl

theorem rngcfg_issues {t : Tok} {a : Fin 32} (h : asMayIssue (.rngcfg t a) s g) (hm : sound s.m) (hb : blockOk s.m g 64)
    (hbad : ringBad s.m g (blockWords s.m g 64) = false) :
    issuesWhole (.rngcfg t a) s g (fun c =>
      { c with rings := Machine.put c.rings (Fin.ofNat 16 ((blkW (blockWords s.m g 64) 0).toNat % 16)) (ringOf (blockWords s.m g 64)) }) 0 := by
  have hi : isWhole (.rngcfg t a) := .inl ⟨t, a, rfl⟩
  refine ⟨{ mkOp s.m g (.rngcfg t a) (engineOf g) (s.m.core g).opSa.toNat (blockWords s.m g 64) (wb (blkW (blockWords s.m g 64) 2) 32)
      with fin := true },
    (asParcel_done h (isWhole_asFault hi h hb) ?_).trans (congrArg _ (asIssued_eq (isWhole_owner hi) _)), rfl, rfl, rfl, rfl, rfl⟩
  rw [asBlock_ok hb.1 hb.2 (hm g), ← blockWords]
  dsimp only
  rw [if_neg (by simp [hbad]), wf_low]
  rfl

/-- The entries of a list of a block-translation command, of w bytes each. -/
def listOf (c : Core) (ws : List Word) (w : Nat) : List Word :=
  (List.range ((blkW ws 0).toNat % 2 ^ 11)).map fun k =>
    BitVec.ofNat 64 (leVal (Memory.read c.spad ((blkW ws 3).toNat % 2 ^ 22 + w * k) w))

theorem btmCmd_issues {w : Nat} {lock mode : Bool} {f : List Word → List Word → Core → Core × Nat} (hi : isWhole i)
    (he : exec i s = btmCmd i w lock mode f s) (h : asMayIssue i s g) (hm : sound s.m) (hb : blockOk s.m g 64)
    (hbad : btmBad s.m g (blockWords s.m g 64) w lock mode = false) :
    issuesWhole i s g (fun _ => (f (blockWords s.m g 64) (listOf (s.m.core g) (blockWords s.m g 64) w) (s.m.core g)).1)
      (f (blockWords s.m g 64) (listOf (s.m.core g) (blockWords s.m g 64) w) (s.m.core g)).2 := by
  refine ⟨{ mkOp s.m g i (engineOf g) (s.m.core g).opSa.toNat (blockWords s.m g 64) (wb (blkW (blockWords s.m g 64) 2) 32) with
      fin := true, idx := (f (blockWords s.m g 64) (listOf (s.m.core g) (blockWords s.m g 64) w) (s.m.core g)).2 },
    he.trans ((asParcel_done h (isWhole_asFault hi h hb) ?_).trans (congrArg _ (asIssued_eq (isWhole_owner hi) _))),
    rfl, rfl, rfl, rfl, rfl⟩
  rw [asBlock_ok hb.1 hb.2 (hm g), ← blockWords]
  dsimp only
  rw [if_neg (by simp [hbad]), portRead_good _ _ (hm g), wf_low, wf_low]
  rfl

/-- A key of a list is the same of the 32 bits of its entry (R166). -/
theorem key_of_entry (v : Nat) {lo : Nat} (h : lo + 16 ≤ 32) :
    (BitVec.ofNat 64 v).extractLsb' lo 16 = (BitVec.ofNat 32 v).extractLsb' lo 16 := by
  rw [← BitVec.setWidth_ofNat_of_le (v := 32) (w := 64) (by decide), BitVec.extractLsb'_setWidth_of_le h]

/-- A list leaves out what it does not name, and a mode is 0, 1 or 2 (R382). -/
theorem mode_of_btmBad {m : Mach} {ws : List Word} {w : Nat} {lock mode : Bool} (h : btmBad m g ws w lock mode = false) :
    wf (blkW ws 0) 17 2 = 0 ∨ wf (blkW ws 0) 17 2 = 1 ∨ wf (blkW ws 0) 17 2 = 2 := by
  have h3 : wf (blkW ws 0) 17 2 ≠ 3 := by
    intro h3
    simp [btmBad, h3] at h
  have h4 : wf (blkW ws 0) 17 2 < 4 := Nat.mod_lt _ (by decide)
  omega

theorem btmDrop_frame (c : Core) (p : BtmEntry → Bool) : ∃ x, c.btmDrop p = { c with btm := x } := ⟨_, rfl⟩

theorem btmDrop_btm (c : Core) (p : BtmEntry → Bool) (j : Fin 1024) : (c.btmDrop p).btm[j.val] =
    if p c.btm[j.val] = true ∧ (c.btm[j.val]).valid = true then { c.btm[j.val] with valid := false, lock := false } else c.btm[j.val] := by
  rw [Core.btmDrop, each_get _ _ j.isLt]
  simp only [Bool.and_eq_true, and_comm]

/-- The key of entry k of a list of keys (R166). -/
def keyAt (c : Core) (ws : List Word) (k : Nat) : BitVec 16 × BitVec 16 :=
  let x := Memory.readL c.spad ((blkW ws 3).toNat % 2 ^ 22 + 4 * k)
  (x.extractLsb' 0 16, x.extractLsb' 16 16)

/-- LOCK written on the entry of a key, where it is present (R383). -/
def lockKey (lock : Bool) (c : Core) (key : BitVec 16 × BitVec 16) : Core :=
  match c.btmFind key.1 key.2 with
  | some j => { c with btm := upd c.btm j fun x => { x with lock := lock } }
  | none => c

/-- BTINV's block names an entry: by its list, by its slot, or every one (R383). -/
def namedBy (c : Core) (ws : List Word) (e : BtmEntry) : Bool :=
  if wf (blkW ws 0) 17 2 = 0 then (List.range ((blkW ws 0).toNat % 2 ^ 11)).any fun k => keyAt c ws k = (e.slot, e.ord)
  else if wf (blkW ws 0) 17 2 = 1 then e.slot = (blkW ws 0).extractLsb' 32 16
  else true

theorem namedBy_iff {c : Core} {ws : List Word} (hmode : wf (blkW ws 0) 17 2 = 0 ∨ wf (blkW ws 0) 17 2 = 1 ∨ wf (blkW ws 0) 17 2 = 2)
    (e : BtmEntry) : namedBy c ws e = true ↔
      wf (blkW ws 0) 17 2 = 2 ∨ (wf (blkW ws 0) 17 2 = 1 ∧ e.slot = (blkW ws 0).extractLsb' 32 16) ∨
      (wf (blkW ws 0) 17 2 = 0 ∧ ∃ k, k < (blkW ws 0).toNat % 2 ^ 11 ∧ keyAt c ws k = (e.slot, e.ord)) := by
  obtain h | h | h := hmode <;> simp [namedBy, h]

variable {t : Tok} {a : Fin 32}

theorem btld_issues (h : asMayIssue (.btld t a) s g) (hm : sound s.m) (hb : blockOk s.m g 64)
    (hbad : btmBad s.m g (blockWords s.m g 64) 8 false false = false) :
    let r := (List.range ((blkW (blockWords s.m g 64) 0).toNat % 2 ^ 11)).foldl (fun (x : Core × Nat) k =>
      let e := Memory.readW (s.m.core g).spad ((blkW (blockWords s.m g 64) 3).toNat % 2 ^ 22 + 8 * k)
      let y := x.1.btmInstall (e.extractLsb' 0 16) (e.extractLsb' 16 16) (e.extractLsb' 32 32)
      (y.1, x.2 + y.2.toNat)) (s.m.core g, 0)
    issuesWhole (.btld t a) s g (fun _ => r.1) r.2 := by
  have he : exec (.btld t a) s = execBtld t a s := rfl
  rw [execBtld] at he
  have h := btmCmd_issues (.inr (.inl ⟨t, a, rfl⟩)) he h hm hb hbad
  rwa [listOf, List.foldl_map] at h

theorem btlk_issues (h : asMayIssue (.btlk t a) s g) (hm : sound s.m) (hb : blockOk s.m g 64)
    (hbad : btmBad s.m g (blockWords s.m g 64) 4 true false = false) :
    issuesWhole (.btlk t a) s g (fun c => (List.range ((blkW (blockWords s.m g 64) 0).toNat % 2 ^ 11)).foldl
      (fun c' k => lockKey ((blkW (blockWords s.m g 64) 0).getLsbD 16) c' (keyAt (s.m.core g) (blockWords s.m g 64) k)) c) 0 := by
  have he : exec (.btlk t a) s = execBtlk t a s := rfl
  rw [execBtlk] at he
  refine issuesWhole_congr ?_ (btmCmd_issues (.inr (.inr (.inl ⟨t, a, rfl⟩))) he h hm hb hbad)
  rw [listOf, List.foldl_map]
  simp only [key_of_entry _ (show 0 + 16 ≤ 32 by decide), key_of_entry _ (show 16 + 16 ≤ 32 by decide)]
  rfl

theorem btinv_issues (h : asMayIssue (.btinv t a) s g) (hm : sound s.m) (hb : blockOk s.m g 64)
    (hbad : btmBad s.m g (blockWords s.m g 64) 4 false true = false) :
    issuesWhole (.btinv t a) s g (fun _ => (s.m.core g).btmDrop (namedBy (s.m.core g) (blockWords s.m g 64))) 0 := by
  have he : exec (.btinv t a) s = execBtinv t a s := rfl
  rw [execBtinv] at he
  refine issuesWhole_congr ?_ (btmCmd_issues (.inr (.inr (.inr ⟨t, a, rfl⟩))) he h hm hb hbad)
  dsimp only
  by_cases h0 : wf (blkW (blockWords s.m g 64) 0) 17 2 = 0
  · rw [if_pos h0]
    refine congrArg _ (funext fun e => ?_)
    rw [namedBy, if_pos h0, listOf, List.any_map]
    refine congrArg (List.any _) (funext fun k => ?_)
    simp only [Function.comp_apply, key_of_entry _ (show 0 + 16 ≤ 32 by decide), key_of_entry _ (show 16 + 16 ≤ 32 by decide), keyAt,
      Memory.readL, Prod.mk.injEq, Bool.decide_and, eq_comm]
  · rw [if_neg h0]
    by_cases h1 : wf (blkW (blockWords s.m g 64) 0) 17 2 = 1
    · rw [if_pos h1]
      exact congrArg _ (funext fun e => by rw [namedBy, if_neg h0, if_pos h1])
    · rw [if_neg h1]
      exact congrArg _ (funext fun e => by rw [namedBy, if_neg h0, if_neg h1])

end blocks

end Sys2Proof.Proofs

namespace Sys2Proof.Proofs
open Sys2Proof Sys2Proof.Machine Sys2Proof.Claims

/-! ## Rings and translations together -/

section take
variable {s : State} {g t : Fin 256} {r : Fin 16} {q : Tok} {b : Fin 32} {addr : BitVec 19}

theorem exec_rngwe : exec (.rngwe q b addr) s = ringTake (.rngwe q b addr) .we addr s := rfl
theorem exec_rngwf : exec (.rngwf q b addr) s = ringTake (.rngwf q b addr) .wf addr s := rfl
theorem exec_rngpub : exec (.rngpub q b) s =
    ringGive (.rngpub q b) (fun r => r.ppub = r.pclaim) (fun r => { r with ppub := r.ppub + 1 }) .wf s := rfl
theorem exec_rngrel : exec (.rngrel q b) s =
    ringGive (.rngrel q b) (fun r => r.crel = r.cclaim) (fun r => { r with crel := r.crel + 1 }) .we s := rfl

end take

/-- Settles O36: takes and gives act by `ringTake_settled` and `ringGive_settled`, `serveRing` goes one request at a time, and a
block's command is applied whole at issue. -/
theorem ringsAndTranslationsWork : Obligations.RingsAndTranslationsWork := by
  refine ⟨fun s g t r => ?_, fun s g t r i k b addr hr hh hn h => ?_, fun i k b s g hi ha hw hb => ?_, fun m t r k n => ?_,
    fun s g hm hb => ?_⟩
  · intro q m mine waits hr hh hn
    have alone (k : RingKind) (hk : mine k) : ∀ w ∈ (s.m.core t).ringWaits, waitsAt s.m t r k w → w.who = .eng g .asy :=
      fun w hw ⟨hring, hkind, hocc, hlive⟩ => hk w hw hring hkind hocc hlive
    refine ⟨fun k b addr h ha hk => ?_, fun k b addr h ha hk => ?_, fun i k b hi h => ?_⟩
    · obtain ⟨hgrant, hwait⟩ := ringTake_alone exec_rngwe h (take_asFault (.inl rfl) h hr ha) hr ha hh hn (alone _ hk)
      exact ⟨fun hc => hgrant ((ready_we q).2 hc), fun hc => hwait (not_ready_we q hc)⟩
    · obtain ⟨hgrant, hwait⟩ := ringTake_alone exec_rngwf h (take_asFault (.inr rfl) h hr ha) hr ha hh hn (alone _ hk)
      exact ⟨fun hc => hgrant ((ready_wf q).2 hc), fun hc => hwait (not_ready_wf q hc)⟩
    · have hf := give_asFault hi h hr
      obtain rfl | rfl := hi
      · obtain ⟨htrap, hgive⟩ := ringGive_cases exec_rngpub h rfl hf hr hh
        simp only [if_true]
        exact ⟨fun hb => htrap (.inr (by simpa using hb)), fun hb => hgive hn (by simpa using hb)⟩
      · obtain ⟨htrap, hgive⟩ := ringGive_cases exec_rngrel h rfl hf hr hh
        simp only [reduceCtorEq, if_false]
        exact ⟨fun hb => htrap (.inr (by simpa using hb)), fun hb => hgive hn (by simpa using hb)⟩
  · refine ⟨fun hi ha => ?_, fun hi => ?_⟩
    · have hf := take_asFault hi h hr ha
      obtain rfl | rfl := hi
      · exact ringTake_noSlots exec_rngwe h hf hr ha hh hn
      · exact ringTake_noSlots exec_rngwf h hf hr ha hh hn
    · have hf := give_asFault hi h hr
      obtain rfl | rfl := hi
      · exact (ringGive_cases exec_rngpub h rfl hf hr hh).1 (.inl hn)
      · exact (ringGive_cases exec_rngrel h rfl hf hr hh).1 (.inl hn)
  · obtain rfl | rfl := hi
    · exact asParcel_behindRel ha hw rfl hb
    · exact asParcel_behindRel ha hw rfl hb
  · intro q can slot after' his
    have hready : (m.ring t r).ready k = true ↔ can := by cases k <;> simp [Ring.ready, can, q]
    refine ⟨rfl, ringFirst_eq_none_iff m t r k, fun w => ringFirst_eq_some_iff m t r k w, serveRing_of_none n, fun w hw => ⟨?_, ?_⟩⟩
    · rintro (hc | hu)
      · exact serveRing_of_notReady n hw (Bool.eq_false_iff.2 (mt hready.1 hc))
      · exact serveRing_of_unit n hw hu
    · intro g e he hc
      have hslot : ((m.ring t r).grant k).1 = slot := by cases k <;> rfl
      have hafter : ((m.ring t r).grant k).2 = after' := by cases k <;> rfl
      refine ⟨ringServed m t r k g w, serveRing_succ n hw he (hready.2 hc), (ringServed_ring ..).trans hafter, ringServed_ringWaits ..,
        ringServed_touched .., ?_, ?_, fun h hh => ?_, fun x => ringServed_ends m t g r k w, ringServed_other m t g r k w⟩
      · rw [ringServed_spad, if_pos rfl, readW_word, hslot]
        rfl
      · rw [ringServed_spad, if_pos rfl]
        exact sameButBytes_word _ _ _
      · rw [ringServed_spad, if_neg hh]
  · intro ws c n mode list key done
    refine ⟨fun t a h hbad => rngcfg_issues h hm hb hbad, fun t a h hbad => btld_issues h hm hb hbad,
      fun t a h hbad => btlk_issues h hm hb hbad, fun t a h hbad => ?_⟩
    obtain ⟨x, hx⟩ := btmDrop_frame c (namedBy c ws)
    refine ⟨c.btmDrop (namedBy c ws), btinv_issues h hm hb hbad, by rw [hx], by rw [hx], by rw [hx], fun j => ?_⟩
    rw [btmDrop_btm]
    exact if_congr (and_congr (namedBy_iff (mode_of_btmBad hbad) _) Iff.rfl) rfl rfl

end Sys2Proof.Proofs

namespace Sys2Proof.Proofs
open Sys2Proof Sys2Proof.Machine Sys2Proof.Claims

/-! ## What AS reads at issue (R149, R151, R159, R182, R213) -/

/-- Ports have served reads: the operations, device memory, the scratchpads, the posted operands and the memory errors are as
they were. -/
structure Reads (m m' : Mach) : Prop where
  ops : m'.ops = m.ops
  dev : m'.dev = m.dev
  spad : ∀ h, (m'.core h).spad = (m.core h).spad
  out : ∀ h, (m'.core h).out = (m.core h).out
  clean : ∀ h, (m'.core h).clean = (m.core h).clean

namespace Reads
variable {m m' m'' : Mach}

theorem refl (m : Mach) : Reads m m := ⟨rfl, rfl, fun _ => rfl, fun _ => rfl, fun _ => rfl⟩

theorem trans (h : Reads m m') (h' : Reads m' m'') : Reads m m'' where
  ops := h'.ops.trans h.ops
  dev := h'.dev.trans h.dev
  spad k := (h'.spad k).trans (h.spad k)
  out k := (h'.out k).trans (h.out k)
  clean k := (h'.clean k).trans (h.clean k)

theorem sound (h : Reads m m') (hm : Claims.sound m) : Claims.sound m' := fun k => (h.clean k).trans (hm k)

theorem servedAt (m : Mach) (g : Fin 256) (e : Engine) (t : Fin 256) : Reads m (m.servedAt g e t) where
  ops := dequeue_ops ..
  dev := dequeue_dev ..
  spad k := dequeue_keeps _ _ _ _ Core.spad (fun _ _ => rfl) (fun _ _ => rfl) k
  out k := dequeue_keeps _ _ _ _ Core.out (fun _ _ => rfl) (fun _ _ => rfl) k
  clean k := dequeue_keeps _ _ _ _ Core.clean (fun _ _ => rfl) (fun _ _ => rfl) k

theorem leaveOther (m : Mach) (g t : Fin 256) (e : CEnd) : Reads m (m.leaveOther g t e) := by
  unfold Mach.leaveOther
  split
  · split
    · exact refl m
    · exact servedAt ..
  · exact refl m

theorem foldl {α : Type} {f : Mach → α → Mach} (h : ∀ m a, Reads m (f m a)) (l : List α) (m : Mach) : Reads m (l.foldl f m) := by
  induction l generalizing m with
  | nil => exact refl m
  | cons a l ih => exact (h m a).trans (ih _)

end Reads

section viewIssue
variable {m : Mach} {g : Fin 256} {ws : List Word} {e : CEnd} {es : List CEnd}

theorem viewIssue_noPort (h : viewPort m g e = none) : viewIssue g ws (e :: es) m = viewIssue g ws es m := by simp [viewIssue, h]

theorem viewIssue_held {t : Fin 256} (h : viewPort m g e = some t) (hh : heldBy m g .asy t = true) :
    viewIssue g ws (e :: es) m = (.error (some t), m) := by simp [viewIssue, h, hh]

theorem viewIssue_served {t : Fin 256} (h : viewPort m g e = some t) (hh : heldBy m g .asy t = false) (hc : (m.core t).clean = true) :
    viewIssue g ws (e :: es) m = viewIssue g ws es (m.servedAt g .asy t) := by
  have hs : ((m.servedAt g .asy t).core t).clean = true := ((Reads.servedAt m g .asy t).clean t).trans hc
  simp [viewIssue, h, hh, portReads_good _ hs]

/-- The reads of the compressed ends leave what reads leave. -/
theorem reads_viewIssue (ws : List Word) (es : List CEnd) (hm : sound m) : Reads m (viewIssue g ws es m).2 := by
  induction es generalizing m with
  | nil => exact .refl m
  | cons e es ih =>
    cases hp : viewPort m g e with
    | none => rw [viewIssue_noPort hp]; exact ih hm
    | some t =>
      cases hh : heldBy m g .asy t with
      | true => rw [viewIssue_held hp hh]; exact .refl m
      | false =>
        have hs := Reads.servedAt m g .asy t
        rw [viewIssue_served hp hh (hm t)]
        exact hs.trans (ih (hs.sound hm))

end viewIssue

/-- A descriptor that a core looks up leaves the operands that SC has posted. -/
theorem endDesc_out (m : Mach) (g : Fin 256) (e : CEnd) (h : Fin 256) : ((endDesc m g e).2.core h).out = (m.core h).out := by
  unfold endDesc Mach.lookDesc
  split
  · split
    · dsimp only
      split
      · rfl
      · refine (onCore_keeps _ _ _ _ Core.out ?_).trans ?_
        · exact fun _ => rfl
        · rw [Mach.core, access_cores, Mach.core]
    · rfl
  · rfl

theorem opSb_of_out {c c' : Core} (h : c'.out = c.out) : c'.opSb = c.opSb := by rw [Core.opSb, Core.outHead, h, Core.opSb, Core.outHead]

end Sys2Proof.Proofs

namespace Sys2Proof.Proofs
open Sys2Proof Sys2Proof.Machine Sys2Proof.Claims

/-! ## The issue of a copy program whose block is read (R173, R463) -/

/-- The ends whose ports AS asks at issue. -/
def viewEnds (i : Instr) (ws : List Word) (z : Word) : List CEnd :=
  if formOf i = .fill then [dstEnd ws z] else [srcEnd ws, dstEnd ws z]

/-- The group whose entry an XCP.MC reads (R336). -/
def groupOf (i : Instr) (ws : List Word) : Nat := if formOf i = .mc ∧ wf (ckAux ws) 0 2 = 2 then wf (ckAux ws) 16 16 else 0

/-- The descriptors of both ends, the destination's looked up after the source's, and the machine after that (R181, R182). -/
def descsOf (m : Mach) (g : Fin 256) (ws : List Word) (z : Word) : List Word × List Word × Mach :=
  let sd := endDesc m g (srcEnd ws)
  let dd := endDesc sd.2 g (dstEnd ws z)
  (sd.1, dd.1, dd.2)

/-- The machine once a copy program's operation o has issued from m. -/
def copyIssued (m : Mach) (g : Fin 256) (i : Instr) (ws : List Word) (o : Op) : Mach :=
  let x := m.noteGroup (m.ctxOf g) (groupOf i ws)
  ({ x with nextStream := mcStream x.nextStream o.rcvs.length } : Mach).startOp o

/-- What the checks of a copy program come to, with the descriptors d that it has looked up (R463). -/
def copyChecked (i : Instr) (g : Fin 256) (base : Nat) (ws : List Word) (z : Word) (lanes : List Lane)
    (d : List Word × List Word × Mach) : Eff :=
  if copyBad d.2.2 g (formOf i) ws z d.1 d.2.1 then .fail .cmdMalformed
  else
    match (missOf (d.2.2.core g) (srcEnd ws) (ckRun ws)).or (missOf (d.2.2.core g) (dstEnd ws z) (ckRun ws)) with
    | some x => .trap .btmMiss 0 x
    | none => .done (copyIssued d.2.2 g i ws (copyOp d.2.2 i g base ws z lanes d.1 d.2.1))

section copyIssue
variable {i : Instr} {g : Fin 256} {m m1 : Mach} {off : Mach → Fin 256 → Word} {lanes : List Lane}

/-- The offset of a copy program rests on the operands that SC has posted. -/
def OffPosted (off : Mach → Fin 256 → Word) : Prop := ∀ (m m' : Mach) g, (m'.core g).out = (m.core g).out → off m' g = off m g

theorem descsOf_out (m : Mach) (g : Fin 256) (ws : List Word) (z : Word) (h : Fin 256) :
    ((descsOf m g ws z).2.2.core h).out = (m.core h).out := (endDesc_out ..).trans (endDesc_out ..)

section read
variable (hb : blockOk m g 256) (hm : sound m)
include hb hm

theorem copyIssue_held {t : Fin 256}
    (hv : viewIssue g (blockWords m g 256) (viewEnds i (blockWords m g 256) (off m g)) m = (.error (some t), m1)) :
    copyIssue i off lanes g m =
      ((viewEnds i (blockWords m g 256) (off m g)).foldl (fun m e => m.leaveOther g t e) m1).heldAt g .asy t (tk i) := by
  rw [viewEnds] at hv
  rw [copyIssue, asBlock_ok hb.1 hb.2 (hm g), ← blockWords]
  simp only [hv]
  rfl

/-- Past the ports, the block's checks decide. -/
theorem copyIssue_checked (ho : OffPosted off)
    (hv : viewIssue g (blockWords m g 256) (viewEnds i (blockWords m g 256) (off m g)) m = (.ok (), m1)) :
    copyIssue i off lanes g m = copyChecked i g (m.core g).opSa.toNat (blockWords m g 256) (off m g) lanes
      (descsOf m1 g (blockWords m g 256) (off m g)) := by
  have hr := reads_viewIssue (g := g) (blockWords m g 256) (viewEnds i (blockWords m g 256) (off m g)) hm
  rw [hv] at hr
  have hoff : off (endDesc (endDesc m1 g (srcEnd (blockWords m g 256))).2 g (dstEnd (blockWords m g 256) (off m g))).2 g = off m g :=
    ho _ _ _ ((descsOf_out ..).trans (hr.out g))
  rw [viewEnds] at hv
  rw [copyIssue, asBlock_ok hb.1 hb.2 (hm g), ← blockWords]
  simp only [hv, hoff, copyChecked, descsOf, copyIssued, groupOf, Bool.and_eq_true, decide_eq_true_eq] <;> rfl

end read

section checked
variable {base : Nat} {ws : List Word} {z : Word} {d : List Word × List Word × Mach}

theorem copyChecked_malformed (h : copyBad d.2.2 g (formOf i) ws z d.1 d.2.1 = true) :
    copyChecked i g base ws z lanes d = .fail .cmdMalformed := if_pos h

theorem copyChecked_miss {y : Word} (h : copyBad d.2.2 g (formOf i) ws z d.1 d.2.1 = false)
    (hy : (missOf (d.2.2.core g) (srcEnd ws) (ckRun ws)).or (missOf (d.2.2.core g) (dstEnd ws z) (ckRun ws)) = some y) :
    copyChecked i g base ws z lanes d = .trap .btmMiss 0 y := by simp [copyChecked, h, hy]

theorem copyChecked_issues (h : copyBad d.2.2 g (formOf i) ws z d.1 d.2.1 = false)
    (hs : missOf (d.2.2.core g) (srcEnd ws) (ckRun ws) = none) (hd : missOf (d.2.2.core g) (dstEnd ws z) (ckRun ws) = none) :
    copyChecked i g base ws z lanes d = .done (copyIssued d.2.2 g i ws (copyOp d.2.2 i g base ws z lanes d.1 d.2.1)) := by
  simp [copyChecked, h, hs, hd]

/-- A multicast that passes its checks has its receivers (R190, R336). -/
theorem receivers_of_copyBad (hf : formOf i = .mc) (h : copyBad m g (formOf i) ws z d.1 d.2.1 = false) :
    receivers m g ws = some ((receivers m g ws).getD []) := by
  cases hr : receivers m g ws with
  | some l => rfl
  | none =>
    have : copyBad m g (formOf i) ws z d.1 d.2.1 = true := by
      simp only [copyBad, hf, hr, Option.isNone_none, if_true, Bool.or_true, Bool.true_or]
    rw [this] at h
    cases h

end checked

end copyIssue

/-! ## Copy programs and vector atomics as parcels of AS (R442, R463) -/

section parcel
variable {i : Instr} {s : State} {g : Fin 256} {va : Bool}

theorem vatomParcel_as (v : VSpec) (ha : acts s g .asy) (hw : i.wellFormed = true) :
    vatomParcel i v s = asParcel i (vatomAs i) (asIssued i) noWork s := by
  obtain ⟨hb, hf⟩ := ha
  rw [asParcel_as hb hf, vatomParcel]
  simp [hf, ready_of_ready hb, illForm_of_wellFormed hw]

/-- AS at a copy program: with room at its engine it goes on to its block. -/
def copyEff (i : Instr) (va : Bool) (g : Fin 256) (m : Mach) : Eff :=
  if va then vatomAs i g m else if engineFull m g then .wait m else copyIssue i sbOff [] g m

theorem exec_copyCommand (hc : copyCommand i = some va) (ha : acts s g .asy) (hw : i.wellFormed = true) :
    exec i s = asParcel i (copyEff i va) (asIssued i) noWork s := by
  cases i with
  | xcp | xcpCvt | xcpMc | xcpKv | xaccAdd | xaccMin | xaccMax | xaccAnd | xaccOr | xaccXor | xfill => cases hc; rfl
  | vatomAdd | vatomMin | vatomMax | vatomAnd | vatomOr | vatomXor =>
    cases hc
    exact vatomParcel_as _ ha hw
  | _ => exact nomatch hc

theorem copyCommand_owner (hc : copyCommand i = some va) : owner i = some .asy := by
  cases i with
  | xcp | xcpCvt | xcpMc | xcpKv | xaccAdd | xaccMin | xaccMax | xaccAnd | xaccOr | xaccXor | xfill
  | vatomAdd | vatomMin | vatomMax | vatomAnd | vatomOr | vatomXor => rfl
  | _ => exact nomatch hc

/-- The operands of a VATOM give no trap of their own; those of a copy program give that of its block's address. -/
theorem copyCommand_asFault (hc : copyCommand i = some va) {m : Mach} {x : BitVec 128} (hx : (m.core g).outHead .asy = some x) :
    asFault m g i = if va then none else blockFault (m.core g).opSa 256 := by
  cases i with
  | xcp | xcpCvt | xcpMc | xcpKv | xaccAdd | xaccMin | xaccMax | xaccAnd | xaccOr | xaccXor | xfill
  | vatomAdd | vatomMin | vatomMax | vatomAnd | vatomOr | vatomXor => cases hc; simp [asFault, hx, blockBytes]
  | _ => exact nomatch hc

end parcel

end Sys2Proof.Proofs

namespace Sys2Proof.Proofs
open Sys2Proof Sys2Proof.Machine Sys2Proof.Claims

/-! ## What a copy program comes to, and what a VATOM frees (R442) -/

/-- The offset of a copy program: that in Sb, none for a VATOM (R175, R441). -/
def offOf (va : Bool) : Mach → Fin 256 → Word := if va then fun _ _ => 0 else sbOff

theorem offOf_posted (va : Bool) : OffPosted (offOf va) := by
  intro m m' g h
  cases va with
  | true => rfl
  | false => exact opSb_of_out h

theorem offOf_eq (va : Bool) (m : Mach) (g : Fin 256) : offOf va m g = if va then 0 else (m.core g).opSb := by cases va <;> rfl

/-- The lanes that a VATOM takes from its buffer. -/
def lanesOf (va : Bool) (x : Tile) : List Lane := if va then x.toList else []

/-- A VATOM's buffer is emptied. -/
def freedOf (va : Bool) (g : Fin 256) : Mach → Mach := if va then fun m => m.onCore g fun c => { c with vbuf := none } else id

/-- What the issue of a copy program comes to for a parcel that frees its buffer at issue and at its trap. -/
def freeing (i : Instr) (va : Bool) (g : Fin 256) (m : Mach) : Eff → Eff
  | .done m' => .done (freedOf va g m')
  | .trap c code info => .wait ((freedOf va g m).takeTrap g .asy c code (infoOr c info i))
  | .wait m' => .wait m'

section parcel
variable {i : Instr} {s : State} {g : Fin 256} {va : Bool} {x : Tile}

theorem copyEff_full {m : Mach} (hx : va = true → ∃ x, (m.core g).vbuf = some x) (hfull : engineFull m g = true) :
    copyEff i va g m = .wait m := by
  cases va with
  | true =>
    obtain ⟨x, hx⟩ := hx rfl
    simp [copyEff, vatomAs, hx, hfull]
  | false => simp [copyEff, hfull]

/-- A copy program acts as its issue says, and frees the buffer of a VATOM. -/
theorem exec_copyIssue {y : Eff} (hc : copyCommand i = some va) (h : asMayIssue i s g) (hf : asFault s.m g i = none)
    (hfull : engineFull s.m g = false) (hx : va = true → (s.m.core g).vbuf = some x)
    (hy : copyIssue i (offOf va) (lanesOf va x) g s.m = y) :
    exec i s = .next (after s (settled i g (asIssued i g) s.m (freeing i va g s.m y))) := by
  obtain ⟨⟨ha, hw, -, -⟩, -, -⟩ := id h
  rw [exec_copyCommand hc ha hw]
  cases va with
  | false =>
    have hz : copyIssue i sbOff [] g s.m = y := hy
    have he : copyEff i false g s.m = y := by simpa [copyEff, hfull] using hz
    rw [asParcel_settled h hf he]
    cases y <;> rfl
  | true =>
    have hz : copyIssue i (fun _ _ => 0) x.toList g s.m = y := hy
    have he : copyEff i true g s.m = freeing i true g s.m y := by
      simp only [copyEff, if_true, vatomAs, hx rfl, hfull, hz, Bool.false_eq_true, if_false]
      cases y <;> rfl
    exact asParcel_settled h hf he

theorem exec_copyIssue_done {m : Mach} (hc : copyCommand i = some va) (h : asMayIssue i s g) (hf : asFault s.m g i = none)
    (hfull : engineFull s.m g = false) (hx : va = true → (s.m.core g).vbuf = some x)
    (hy : copyIssue i (offOf va) (lanesOf va x) g s.m = .done m) : exec i s = .next (asWent s g i (freedOf va g m)) :=
  (exec_copyIssue hc h hf hfull hx hy).trans (congrArg _ (asIssued_eq (copyCommand_owner hc) _))

theorem exec_copyIssue_trap {c : Cause} {code : BitVec 32} {info : Word} (hc : copyCommand i = some va) (h : asMayIssue i s g)
    (hf : asFault s.m g i = none) (hfull : engineFull s.m g = false) (hx : va = true → (s.m.core g).vbuf = some x)
    (hy : copyIssue i (offOf va) (lanesOf va x) g s.m = .trap c code info) :
    exec i s = .next (after s ((freedOf va g s.m).takeTrap g .asy c code (infoOr c info i))) := exec_copyIssue hc h hf hfull hx hy

theorem copyCommand_block (hc : copyCommand i = some va) (h : asMayIssue i s g) (hb : va = false → blockOk s.m g 256) :
    asFault s.m g i = none := by
  obtain ⟨-, ⟨y, hy⟩, -⟩ := h
  rw [copyCommand_asFault hc hy]
  cases va with
  | true => rfl
  | false => exact blockFault_none (hb rfl).1 (hb rfl).2

end parcel

/-! ## Atomics (R184, R465) -/

section atom
variable {i : Instr} {s : State} {g : Fin 256}

theorem exec_atomCommand (hi : atomCommand i = true) (s : State) : exec i s = asParcel i (atomIssue i) (asIssued i) noWork s := by
  cases i with
  | xatomAdd | xatomMin | xatomMax | xatomAnd | xatomOr | xatomXor | xatomSwap | xatomCas => rfl
  | _ => exact nomatch hi

theorem atomCommand_owner (hi : atomCommand i = true) : owner i = some .asy := by
  cases i with
  | xatomAdd | xatomMin | xatomMax | xatomAnd | xatomOr | xatomXor | xatomSwap | xatomCas => rfl
  | _ => exact nomatch hi

theorem atomCommand_asFault (hi : atomCommand i = true) {m : Mach} {x : BitVec 128} (hx : (m.core g).outHead .asy = some x) :
    asFault m g i = blockFault (m.core g).opSa 64 := by
  cases i with
  | xatomAdd | xatomMin | xatomMax | xatomAnd | xatomOr | xatomXor | xatomSwap | xatomCas => simp [asFault, hx, blockBytes]
  | _ => exact nomatch hi

theorem atomIssue_eq {m : Mach} (hfull : engineFull m g = false) (hb : blockOk m g 64) (hm : sound m) : atomIssue i g m =
    let ws := blockWords m g 64
    let r := endDesc m g (atomEnd ws)
    if atomAt ws % atomBytes ws ≠ 0 then .fail .align
    else if (atomEnd ws).kind = 0 && ((m.cellCore g (blkW ws 3)).isNone || 0x300000 < atomAt ws + atomBytes ws) then .fail .spadRange
    else if atomBad r.2 g (atomOp i) ws r.1 then .fail .cmdMalformed
    else .done (r.2.startOp { mkOp r.2 g i (engineOf g) (m.core g).opSa.toNat ws (wb (blkW ws 0) 32) with ddesc := r.1 }) := by
  rw [atomIssue, hfull, asBlock_ok hb.1 hb.2 (hm g)]
  rfl

end atom

/-! ## VX at a VATOM (R442) -/

theorem vatomOf_command {i : Instr} {v : VSpec} (h : vatomOf i = some v) : owner i = some .asy ∧ ∀ s, exec i s = vatomParcel i v s := by
  cases i with
  | vatomAdd | vatomMin | vatomMax | vatomAnd | vatomOr | vatomXor =>
    cases h
    exact ⟨rfl, fun _ => rfl⟩
  | _ => exact nomatch h

/-- VX fills the empty buffer and steps over the parcel. -/
theorem exec_vatom_vx {i : Instr} {s : State} {g : Fin 256} {v : VSpec} {x : Tile} {c' : Core} (hv : vatomOf i = some v)
    (ha : acts s g .vx) (hq : ∀ q, v ≠ .q q) (hb : (s.m.core g).vbuf = none) (hr : (s.m.core g).readSpec 32 v = some (x, c')) :
    exec i s = .next (after s (s.m.onCore g fun c => ({ c with vbuf := some x } : Core).onE .vx fun y => y.advance 1)) := by
  obtain ⟨howner, he⟩ := vatomOf_command hv
  obtain ⟨hboot, hfocus⟩ := ha
  have hvx : vatomVx i v g s.m = (s.m.onCore g fun c => { c with vbuf := some x }).skip g .vx (parcels i) := by
    cases v with
    | q n => exact absurd rfl (hq n)
    | v | w | z => simp [vatomVx, hb, hr]
  rw [he, vatomParcel]
  simp only [hfocus]
  rw [ready_of_ready hboot, hvx, asy_one_parcel i howner, Mach.skip, onCore_onCore, after]

end Sys2Proof.Proofs

namespace Sys2Proof.Proofs
open Sys2Proof Sys2Proof.Machine Sys2Proof.Claims

/-! ## The clauses of copy programs, atomics and vector atomics -/

section copy
variable {i : Instr} {s : State} {g : Fin 256} {va : Bool} {x : Tile} {m1 : Mach}
variable (hc : copyCommand i = some va) (h : asMayIssue i s g) (hm : sound s.m) (hb : blockOk s.m g 256)
  (hfull : engineFull s.m g = false) (hx : va = true → (s.m.core g).vbuf = some x)
include hc h hm hb hfull hx

/-- AS waits in its place at the port that holds the read of a compressed end (R149, R213). -/
theorem exec_copyCommand_held {t : Fin 256}
    (hv : viewIssue g (blockWords s.m g 256) (viewEnds i (blockWords s.m g 256) (offOf va s.m g)) s.m = (.error (some t), m1)) :
    ∃ m' : Mach, exec i s = .next (after s ((m'.enqueue t (m'.ctxOf g) (.eng g .asy)).waitOn g .asy (.held t) (tk i))) ∧
      m'.ops = s.m.ops ∧ m'.dev = s.m.dev ∧ ∀ h, (m'.core h).spad = (s.m.core h).spad := by
  have hr := reads_viewIssue (g := g) (blockWords s.m g 256) (viewEnds i (blockWords s.m g 256) (offOf va s.m g)) hm
  rw [hv] at hr
  have hl := hr.trans (.foldl (fun m e => Reads.leaveOther m g t e) (viewEnds i (blockWords s.m g 256) (offOf va s.m g)) m1)
  exact ⟨_, exec_copyIssue hc h (copyCommand_block hc h fun _ => hb) hfull hx (copyIssue_held hb hm hv), hl.ops, hl.dev, hl.spad⟩

variable (hv : viewIssue g (blockWords s.m g 256) (viewEnds i (blockWords s.m g 256) (offOf va s.m g)) s.m = (.ok (), m1))
include hv

theorem exec_copyCommand_trap {d : List Word × List Word × Mach} {c : Cause} {info : Word}
    (hd : d = descsOf m1 g (blockWords s.m g 256) (offOf va s.m g))
    (hy : copyChecked i g (s.m.core g).opSa.toNat (blockWords s.m g 256) (offOf va s.m g) (lanesOf va x) d = .trap c 0 info) :
    exec i s = .next (after s ((freedOf va g s.m).takeTrap g .asy c 0 (infoOr c info i))) := by
  subst hd
  exact exec_copyIssue_trap hc h (copyCommand_block hc h fun _ => hb) hfull hx
    ((copyIssue_checked hb hm (offOf_posted va) hv).trans hy)

theorem exec_copyCommand_done {d : List Word × List Word × Mach} {m : Mach}
    (hd : d = descsOf m1 g (blockWords s.m g 256) (offOf va s.m g))
    (hy : copyChecked i g (s.m.core g).opSa.toNat (blockWords s.m g 256) (offOf va s.m g) (lanesOf va x) d = .done m) :
    exec i s = .next (asWent s g i (freedOf va g m)) := by
  subst hd
  exact exec_copyIssue_done hc h (copyCommand_block hc h fun _ => hb) hfull hx
    ((copyIssue_checked hb hm (offOf_posted va) hv).trans hy)

end copy

section copyBlock
variable {m : Mach} {i : Instr} {g : Fin 256} {off : Mach → Fin 256 → Word} {lanes : List Lane}

theorem copyIssue_align (hal : (m.core g).opSa.toNat % 64 ≠ 0) : copyIssue i off lanes g m = .fail .align := by
  rw [copyIssue, asBlock_align hal]

theorem copyIssue_range (hal : (m.core g).opSa.toNat % 64 = 0) (hr : 0x300000 < (m.core g).opSa.toNat + 256) :
    copyIssue i off lanes g m = .fail .spadRange := by
  rw [copyIssue, asBlock_range hal hr]

end copyBlock

section copyOp
variable {m : Mach} {i : Instr} {g : Fin 256} {base : Nat} {ws : List Word} {z : Word} {lanes : List Lane} {sd dd : List Word}

theorem copyOp_rcvs (hf : formOf i = .mc) (hok : copyBad m g (formOf i) ws z sd dd = false) :
    receivers m g ws = some (copyOp m i g base ws z lanes sd dd).rcvs := by
  have hr : (copyOp m i g base ws z lanes sd dd).rcvs = (receivers m g ws).getD [] := if_pos hf
  rw [hr]
  exact receivers_of_copyBad (d := (sd, dd, m)) hf hok

end copyOp

/-! ### What the issue of an atomic comes to (R465) -/

/-- The bytes of an atomic on a scratchpad lie outside it (R184). -/
def atomOutside (m : Mach) (g : Fin 256) (ws : List Word) : Prop :=
  (atomEnd ws).kind = 0 ∧ (m.cellCore g (blkW ws 3) = none ∨ 0x300000 < atomAt ws + atomBytes ws)

theorem not_atomOutside {m : Mach} {g : Fin 256} {ws : List Word}
    (h : (atomEnd ws).kind = 0 → (m.cellCore g (blkW ws 3)).isSome = true ∧ atomAt ws + atomBytes ws ≤ 0x300000) :
    ¬ atomOutside m g ws := by
  rintro ⟨hk, hn | hn⟩
  · simpa [hn] using (h hk).1
  · exact Nat.not_le.2 hn (h hk).2

section atomIssue
variable {i : Instr} {g : Fin 256} {m : Mach} (hfull : engineFull m g = false) (hb : blockOk m g 64) (hm : sound m)
include hfull hb hm

theorem atomIssue_align (hal : atomAt (blockWords m g 64) % atomBytes (blockWords m g 64) ≠ 0) : atomIssue i g m = .fail .align := by
  rw [atomIssue_eq hfull hb hm]
  exact if_pos hal

variable (hal : atomAt (blockWords m g 64) % atomBytes (blockWords m g 64) = 0)
include hal

theorem atomIssue_range (hr : atomOutside m g (blockWords m g 64)) : atomIssue i g m = .fail .spadRange := by
  obtain ⟨hk, hr⟩ := hr
  rw [atomIssue_eq hfull hb hm]
  refine (if_neg (not_not.2 hal)).trans (if_pos ?_)
  simpa [hk] using hr

variable (hr : ¬ atomOutside m g (blockWords m g 64))
include hr

theorem atomIssue_aimed : atomIssue i g m =
    let ws := blockWords m g 64
    let r := endDesc m g (atomEnd ws)
    if atomBad r.2 g (atomOp i) ws r.1 then .fail .cmdMalformed
    else .done (r.2.startOp { mkOp r.2 g i (engineOf g) (m.core g).opSa.toNat ws (wb (blkW ws 0) 32) with ddesc := r.1 }) := by
  rw [atomIssue_eq hfull hb hm]
  refine (if_neg (not_not.2 hal)).trans (if_neg ?_)
  simpa [atomOutside] using hr

theorem atomIssue_malformed (hbad : atomBad (endDesc m g (atomEnd (blockWords m g 64))).2 g (atomOp i) (blockWords m g 64)
    (endDesc m g (atomEnd (blockWords m g 64))).1 = true) : atomIssue i g m = .fail .cmdMalformed := by
  rw [atomIssue_aimed hfull hb hm hal hr]
  exact if_pos hbad

theorem atomIssue_issues (hok : atomBad (endDesc m g (atomEnd (blockWords m g 64))).2 g (atomOp i) (blockWords m g 64)
    (endDesc m g (atomEnd (blockWords m g 64))).1 = false) : atomIssue i g m =
    let ws := blockWords m g 64
    let r := endDesc m g (atomEnd ws)
    .done (r.2.startOp { mkOp r.2 g i (engineOf g) (m.core g).opSa.toNat ws (wb (blkW ws 0) 32) with ddesc := r.1 }) := by
  rw [atomIssue_aimed hfull hb hm hal hr]
  exact if_neg (Bool.eq_false_iff.1 hok)

end atomIssue

section atom
variable {i : Instr} {s : State} {g : Fin 256} (hi : atomCommand i = true) (h : asMayIssue i s g)
include hi h

theorem atomCommand_block (hb : blockOk s.m g 64) : asFault s.m g i = none := by
  obtain ⟨-, ⟨y, hy⟩, -⟩ := h
  rw [atomCommand_asFault hi hy]
  exact blockFault_none hb.1 hb.2

theorem exec_atomIssue {y : Eff} (hb : blockOk s.m g 64) (hy : atomIssue i g s.m = y) :
    exec i s = .next (after s (settled i g (asIssued i g) s.m y)) := by
  rw [exec_atomCommand hi]
  exact asParcel_settled h (atomCommand_block hi h hb) hy

end atom

/-- A VATOM whose block's address has a fault frees its buffer at the trap (R370, R442). -/
theorem exec_vatom_fail {i : Instr} {s : State} {g : Fin 256} {x : Tile} {f : Cause} (hc : copyCommand i = some true) (h : asMayIssue i s g)
    (hx : (s.m.core g).vbuf = some x) (hfull : engineFull s.m g = false) (hi : infoOr f 0 i = infoOf i)
    (hy : copyIssue i (offOf true) (lanesOf true x) g s.m = .fail f) :
    exec i s = .next (after s ((s.m.onCore g fun c => { c with vbuf := none }).takeTrap g .asy f 0 (infoOf i))) := by
  have hf : asFault s.m g i = none := copyCommand_block hc h fun hva => Bool.noConfusion hva
  have hfreed : freedOf true g s.m = s.m.onCore g fun c => { c with vbuf := none } := rfl
  have ht := exec_copyIssue_trap hc h hf hfull (fun _ => hx) hy
  rwa [hi, hfreed] at ht

/-- A full engine keeps AS where it is (R171). -/
theorem exec_engineFull {i : Instr} {s : State} {g : Fin 256} (hi : (copyCommand i).isSome = true ∨ atomCommand i = true)
    (hx : copyCommand i = some true → ∃ x, (s.m.core g).vbuf = some x)
    (hb : copyCommand i ≠ some true → blockOk s.m g (if atomCommand i = true then 64 else 256)) (h : asMayIssue i s g)
    (hfull : engineFull s.m g = true) : exec i s = .next s := by
  obtain ⟨⟨ha, hw, -, -⟩, -, -⟩ := id h
  by_cases hat : atomCommand i = true
  · have hne : copyCommand i ≠ some true := by
      intro hc
      cases i with
      | xatomAdd | xatomMin | xatomMax | xatomAnd | xatomOr | xatomXor | xatomSwap | xatomCas => cases hc
      | _ => exact nomatch hat
    have hb := hb hne
    rw [if_pos hat] at hb
    exact exec_atomIssue hat h hb (by rw [atomIssue, if_pos hfull])
  · obtain ⟨va, hc⟩ := Option.isSome_iff_exists.1 (hi.resolve_right hat)
    rw [if_neg hat] at hb
    have hf := copyCommand_block hc h fun hva => hb (by simp [hc, hva])
    rw [exec_copyCommand hc ha hw]
    exact asParcel_settled h hf (copyEff_full (fun hva => hx (hva ▸ hc)) hfull)

/-- An address that holds no block traps at a copy program and at an atomic (R370). -/
theorem exec_blockFault {i : Instr} {s : State} {g : Fin 256} {f : Cause} (hi : copyCommand i = some false ∨ atomCommand i = true)
    (h : asMayIssue i s g) (hf : blockFault (s.m.core g).opSa (if atomCommand i = true then 64 else 256) = some f) :
    exec i s = .next (asTrap s g i f) := by
  obtain ⟨⟨ha, hw, -, -⟩, ⟨y, hy⟩, -⟩ := id h
  by_cases hat : atomCommand i = true
  · rw [if_pos hat] at hf
    rw [exec_atomCommand hat]
    exact asParcel_fault h ((atomCommand_asFault hat hy).trans hf)
  · have hc := hi.resolve_right hat
    rw [if_neg hat] at hf
    rw [exec_copyCommand hc ha hw]
    exact asParcel_fault h ((copyCommand_asFault hc hy).trans hf)

/-! ## The obligation -/

/-- Settles O33: each parcel is one issue of AS, whose effect is the read of the compressed ends, then the checks of the
block, then the operation. -/
theorem copyCommandsIssue : Obligations.CopyCommandsIssue := by
  refine ⟨fun m g ws e es => ⟨viewIssue_noPort, fun t ht => ⟨viewIssue_held ht, viewIssue_served ht⟩⟩,
    fun i s g => ⟨?copy, ?atom, exec_engineFull, ?address, ?vatomAddress, fun v x c' => exec_vatom_vx⟩⟩
  case copy =>
    intro va hc h hm hb hfull x hx
    rw [← offOf_eq va s.m g]
    intro ws off se de es freed
    refine ⟨fun t m1 hv => exec_copyCommand_held hc h hm hb hfull hx hv, ?_⟩
    intro m1 hv sd dd
    refine ⟨fun hbad => exec_copyCommand_trap hc h hm hb hfull hx hv rfl (copyChecked_malformed hbad), fun hok => ⟨?_, ?_⟩⟩
    · exact fun y hy => exec_copyCommand_trap hc h hm hb hfull hx hv rfl (copyChecked_miss hok hy)
    · intro hs hd gid
      refine ⟨_, _, exec_copyCommand_done hc h hm hb hfull hx hv rfl (copyChecked_issues hok hs hd), rfl, rfl, rfl, rfl, rfl,
        rfl, rfl, rfl, rfl, rfl, ?_, rfl, rfl, rfl, rfl, rfl, rfl, rfl, ?_, ?_, ?_⟩
      · exact fun hva => if_pos hva
      · exact fun hk => if_pos hk
      · exact fun hk hk' => (if_neg hk).trans (if_pos hk')
      · exact fun hf => copyOp_rcvs hf hok
  case atom =>
    intro hi h hm hb hfull ws r
    refine ⟨fun hal => exec_atomIssue hi h hb (atomIssue_align hfull hb hm hal),
      fun hal hk hr => exec_atomIssue hi h hb (atomIssue_range hfull hb hm hal ⟨hk, hr⟩), fun hal hr => ⟨fun hbad => ?_, fun hok => ?_⟩⟩
    · exact exec_atomIssue hi h hb (atomIssue_malformed hfull hb hm hal (not_atomOutside hr) hbad)
    · exact (exec_atomIssue hi h hb (atomIssue_issues hfull hb hm hal (not_atomOutside hr) hok)).trans
        (congrArg _ (asIssued_eq (atomCommand_owner hi) _))
  case address =>
    intro hi h
    exact ⟨fun hal => exec_blockFault hi h (blockFault_align hal), fun hal hr => exec_blockFault hi h (blockFault_range hal hr)⟩
  case vatomAddress =>
    intro x hc h hx hfull emptied
    exact ⟨fun hal => exec_vatom_fail hc h hx hfull rfl (copyIssue_align hal),
      fun hal hr => exec_vatom_fail hc h hx hfull rfl (copyIssue_range hal hr)⟩

end Sys2Proof.Proofs
